-- ==== Sys2Proof/Word.lean ====
section
/-! DEFINITION. Words, addresses, phases, and the two fixed-size tables (one entry per phase, one entry per slot or record). -/

namespace Sys2Proof

/-- A word of the exchange memory (00_scope, Table 0-5). -/
abbrev Word := BitVec 16

/-- A word address on the 18 lines HA[17:0] or MA[17:0]. -/
abbrev Addr := BitVec 18

/-- A physical cell position, 0 to 23 (R1). -/
abbrev Slot := Fin 24

/-- A logical record index, phase × 8 + position (R22). -/
abbrev Rec := Fin 24

/-- One output phase of the drive. -/
inductive Phase where
  | a | b | c
deriving DecidableEq, Repr

namespace Phase

/-- A = 0, B = 1, C = 2 (00_scope, Table 0-5). -/
def num : Phase → Nat
  | a => 0
  | b => 1
  | c => 2

def all : List Phase := [a, b, c]

end Phase

/-- The phase of a slot or of a logical record: index divided by 8 (R22). -/
def phaseOf (i : Fin 24) : Phase :=
  if i.val < 8 then .a else if i.val < 16 then .b else .c

/-- The index within the phase: a slot's index, or a record's position (R22). -/
def indexOf (i : Fin 24) : Nat := i.val % 8

/-- The slot or record of a phase with a given index. -/
def mkIndex (p : Phase) (q : Nat) : Fin 24 :=
  ⟨8 * p.num + q % 8, by cases p <;> simp only [Phase.num] <;> omega⟩

/-- All slots, or all records, in ascending order. -/
def allSlots : List (Fin 24) :=
  [0, 1, 2, 3, 4, 5, 6, 7, 8, 9, 10, 11, 12, 13, 14, 15, 16, 17, 18, 19, 20, 21, 22, 23]

/-- The eight slots of a phase in ascending order (R1). -/
def phaseSlots : Phase → List (Fin 24)
  | .a => [0, 1, 2, 3, 4, 5, 6, 7]
  | .b => [8, 9, 10, 11, 12, 13, 14, 15]
  | .c => [16, 17, 18, 19, 20, 21, 22, 23]

/-- One value per phase. -/
structure PerPhase (α : Type) where
  atA : α
  atB : α
  atC : α
deriving DecidableEq, Repr

namespace PerPhase

variable {α β : Type}

def get (v : PerPhase α) : Phase → α
  | .a => v.atA
  | .b => v.atB
  | .c => v.atC

def set (v : PerPhase α) (p : Phase) (x : α) : PerPhase α :=
  match p with
  | .a => { v with atA := x }
  | .b => { v with atB := x }
  | .c => { v with atC := x }

def modify (v : PerPhase α) (p : Phase) (f : α → α) : PerPhase α := v.set p (f (v.get p))

def all (x : α) : PerPhase α := ⟨x, x, x⟩

def map (f : α → β) (v : PerPhase α) : PerPhase β := ⟨f v.atA, f v.atB, f v.atC⟩

def ofFn (f : Phase → α) : PerPhase α := ⟨f .a, f .b, f .c⟩

end PerPhase

/-- One value per slot, or one per logical record: always 24 of them. -/
structure PerSlot (α : Type) where
  items : List α
  size : items.length = 24
deriving DecidableEq, Repr

namespace PerSlot

variable {α β : Type}

def get (v : PerSlot α) (i : Fin 24) : α := v.items[i.val]'(by have := v.size; omega)

def set (v : PerSlot α) (i : Fin 24) (x : α) : PerSlot α :=
  ⟨v.items.set i.val x, by simp [v.size]⟩

def modify (v : PerSlot α) (i : Fin 24) (f : α → α) : PerSlot α := v.set i (f (v.get i))

def map (f : α → β) (v : PerSlot α) : PerSlot β := ⟨v.items.map f, by simp [v.size]⟩

def ofFn (f : Fin 24 → α) : PerSlot α := ⟨allSlots.map f, by simp [allSlots]⟩

def all (x : α) : PerSlot α := ⟨List.replicate 24 x, by simp⟩

end PerSlot

end Sys2Proof
end

