-- ==== Sys2Proof/Syntax.lean ====
section
/-! DEFINITION. The commands of the block: one constructor per row of spec/opcode_table.json. The table gives the
rows no operands; the operands here are the model's (log 30). -/

namespace Sys2Proof

/-- A write a link engine has made through the far port of the exchange memory into a physical status record
(02, 2.1). Such writes are no command of the table; they reach the model with the tenure that can see them (log 6). -/
structure FarWrite where
  slot : Slot
  word : Fin 8
  value : Word
deriving DecidableEq, Repr

/-- What a host transaction does: read, or write a value. -/
inductive HostOp where
  | read
  | write (value : Word)
deriving DecidableEq, Repr

/-- The commands. A command that stands for an event of the part's own (an expiry, a completion, a delivery, the end
of a tenure) carries no data of the part: State holds what it acts on, and it acts when State says the event is due
(log 2). -/
inductive Instr where
  -- resets and arming
  | powerOnReset
  | resetNLow
  | resetNHigh
  | armRising
  | armFalling
  -- strobe, fault and hoist lines
  | frameRising
  | faultLineEdge (p : Phase)
  | brakeSetRising
  | brakeSetFalling
  -- time and expiries
  | msTick
  | oneSecondInterval
  | budgetExpiry
  | contactorTimeout
  | rechargeTimerExpiry
  | freshSetTimerExpiry
  | provingTimerExpiry
  | strikeWindowExpiry (slot : Slot)
  | recentlyLostTimerExpiry (slot : Slot)
  | identificationWindowExpiry
  | verifyWindowExpiry
  | controlPeriodEnd
  -- host writes to the logical command window
  | logicalGateWrite (r : Rec) (value : Word)
  | logicalAmplitudeWrite (r : Rec) (value : Word)
  | logicalAngleWrite (r : Rec) (value : Word)
  | logicalCarrierWrite (r : Rec) (value : Word)
  | bypassWord (r : Rec) (value : Word)
  | logicalAuxWrite (r : Rec) (aux : Fin 3) (value : Word)
  | outside (r : Rec) (word : Fin 8) (value : Word)
  -- host reads of the logical windows, writes to the logical status window
  | logicalCommandRead (r : Rec) (word : Fin 8)
  | logicalStatusRead (r : Rec) (word : Fin 8)
  | logicalStatusWrite (r : Rec) (word : Fin 8) (value : Word)
  -- other host transactions
  | physicalCommandWrite (slot : Slot) (word : Fin 8) (value : Word)
  | planOrImageWrite (addr : Addr) (value : Word)
  | captureRegionWrite (addr : Addr) (value : Word)
  | logRegionWrite (addr : Addr) (value : Word)
  | hostPassedAccess (addr : Addr) (op : HostOp)
  -- delivered watched writes
  | periodTagWrite
  | directionWrite
  | proofEvent
  | restartEnableWrite
  | consumedWrite
  | consumerWrite
  -- ends of tenures
  | sscSlotTenureEnd (far : List FarWrite)
  | pldTenureEnd
  | bpuTenureEnd (far : List FarWrite)
  | wenTenureEnd
  -- completions
  | releaseComplete
  | resetJobComplete
  | captureDumpComplete
  | logRecordComplete
  | faultLineInactiveTransition (p : Phase)
deriving DecidableEq, Repr

end Sys2Proof
end

