-- ==== Sys2Proof/Config.lean ====
section
/-! DEFINITION. What the specification fixes for every part, and the one value it leaves open. -/

namespace Sys2Proof.Config

/-- FREE VALUE (log 8): how far a tenure that is cut short had come. R31, R35 and R111 say that the word access
under way is finished and the rest is discarded, and leave open which word that is. No proof can see its value. -/
opaque cutPoint : Nat → Nat

/-- DESIGN CHOICE (log 5, unsafe): what a memory word that nothing has written reads as. -/
def unwritten : Word := 0

/-- Entries the auxiliary list holds at most (R147, L4). -/
def auxCapacity : Nat := 32

/-- Entries the capture ring holds at most (R89). -/
def ringCapacity : Nat := 64

/-- Records the Log Unit's write list holds at most (R172). -/
def writeListCapacity : Nat := 16

/-- Writes a staging buffer holds at most (R33). -/
def burstLength : Nat := 8

/-- The bound of the consecutive-host-grant count (R29). -/
def fairLimit : Nat := 8

/-- Frames of a recovery window, and the good ones it needs (R69). -/
def recoveryFrames : Nat := 64
def recoveryGood : Nat := 56

/-- Ticks of a second (R169). -/
def ticksPerSecond : Nat := 1000

end Sys2Proof.Config
end

