-- ==== Sys2Proof/Machine/State.lean ====
section
/-! DEFINITION. The state of the Bucora 324 as plain data, block by block (00_scope, Table 0-2), and the machine right
after power-on reset. -/

namespace Sys2Proof.Machine

/-- No event of the specification stops the part: cell faults, lockouts and refused plans are changes of state. So no
command raises a fault (log 2), and the type has no constructor. -/
inductive Fault where
deriving DecidableEq, Repr

/-- Why a command has no answer. -/
inductive Refusal where
  /-- A command that has no meaning yet; raised by an arm of exec only. Safe. No arm uses it. -/
  | notModelled (mnemonic : String)
deriving DecidableEq, Repr

/-- The exchange memory (R21): (word address, word) pairs, addresses strictly rising, no entry equal to what an
unlisted word reads as (log 5). -/
abbrev Memory := List (Nat × Word)

/-- A timer or window: stopped, or running with its remaining time; at 0 while running its expiry is due (R100). A
stopped timer keeps what was left (log 29). -/
structure Timer where
  running : Bool
  left : Nat
deriving DecidableEq, Repr

/-- The input lines (Table 0-4). -/
structure Pins where
  arm : Bool
  resetN : Bool
  brakeSet : Bool
  faultLine : PerPhase Bool
deriving DecidableEq, Repr

/-! ## Names with encodings (Table 2-10) -/

inductive RestartState where
  | unarmed | arming | normal | tripped | isolating | recharging | verifying | awaiting | resuming | proving | lockout
deriving DecidableEq, Repr

inductive Mode where
  | rideThrough | standstill
deriving DecidableEq, Repr

inductive LinkState where
  | up | degraded | lost
deriving DecidableEq, Repr

inductive ArmResult where
  | accepted | length | check | range | thresholdOrder | duplicateKey | infeasible | brakeNotSet | contactor | cellFault
deriving DecidableEq, Repr

inductive LockoutCause where
  | infeasible | unidentified | restartDisabled | passesExhausted | bypassStuck | noFreshSet | provingTimeout
  | brakeLifted | hostStale
deriving DecidableEq, Repr

inductive Category where
  | sequence | fault | map | link | contactor | hoist | host | capture | arm
deriving DecidableEq, Repr

inductive Direction where
  | raise | lower
deriving DecidableEq, Repr

/-- The commanded bypass, word 4 of a physical command record: OPEN 0, CLOSE 1 (Table 2-2). -/
inductive Bypass where
  | opened | closed
deriving DecidableEq, Repr

/-- Bypass feedback, word 5 of a status record (Table 2-3, R126). -/
inductive Feedback where
  | opened | closed | moving
deriving DecidableEq, Repr

inductive Rounding where
  | nearestEven | down | up
deriving DecidableEq, Repr

/-! ## Bus Passage Unit -/

/-- A holding pair latch (R51). -/
structure Latch where
  record : Rec
  slot : Slot
  amplitude : Word
deriving DecidableEq, Repr

/-- A watched write on its way to its owner (R41 to R43). -/
inductive Delivery where
  | periodTag (value : Word)
  | direction (value : Word)
  | proof
  | restartEnable (value : Word)
  | consumed
  | consumer (value : Word)
deriving DecidableEq, Repr

/-- One access the BPU needs the port for (R27, R30). -/
inductive Need where
  /-- A passed write, with the delivery it makes when its tenure ends. -/
  | passWrite (addr : Addr) (value : Word) (watch : Option Delivery)
  /-- A passed read, or a logical status read redirected to the physical record (R56). -/
  | read (addr : Addr) (logical : Bool)
  /-- A translated gate, angle, carrier or aux word (R47, R52), checked again at its grant (R46). -/
  | translated (record : Rec) (word : Fin 8) (addr : Addr) (value : Word)
  /-- An amplitude and angle pair (R52), checked again at its grant as one write. -/
  | pair (record : Rec) (slot : Slot) (amplitude angle : Word)
  /-- A commit alone (R51, R53), with whether it raised the phase's torn pair count and whether it stands in the
  TORN_PAIR count of the current second (R54, log 14). No host transaction waits for it. -/
  | commitAlone (phase : Phase) (slot : Slot) (amplitude : Word) (inTotal inSecond : Bool)
deriving DecidableEq, Repr

/-- The refusal counts of the current second (Table 3-4). -/
structure RefusalCounts where
  gateValue : Word
  bypassWord : Word
  auxFull : Word
  protectedWrite : Word
  outside : Word
  saturation : Word
  tornPair : Word
deriving DecidableEq, Repr

structure Bpu where
  /-- The logical command window is open (R44). -/
  isOpen : Bool
  latches : PerPhase (Option Latch)
  needs : List Need
  counts : RefusalCounts
  /-- Watched writes whose tenure has ended and which their owner has not yet taken (log 4). -/
  deliveries : List Delivery
  /-- The word last returned to the host on HD (R30, log 34). -/
  hostData : Word
deriving DecidableEq, Repr

/-! ## Memory Port Arbiter -/

inductive BufferId where
  | x | y
deriving DecidableEq, Repr

/-- The requester that holds the port (R31). A status or plan read may have had its data discarded (R31, R62). -/
inductive Holder where
  | bpu
  | ssc (slot : Slot) (discard : Bool)
  | pld (discard : Bool)
  | wen (buffer : BufferId)
deriving DecidableEq, Repr

structure Mpa where
  holder : Option Holder
  /-- The consecutive-host-grant count (R29). -/
  fair : Nat
deriving DecidableEq, Repr

/-! ## Status Scanner and Link Supervisor -/

structure Ssc where
  enabled : Bool
  inProgress : Bool
  position : Option Slot
  overrun : Word
  /-- A scan end has been delivered and no FRAME edge taken since: an expiry judged at a scan end can be taken
  (R82, R141, log 3). -/
  ended : Bool
deriving DecidableEq, Repr

structure RecoveryWindow where
  seen : Nat
  good : Nat
deriving DecidableEq, Repr

/-- A supervision record (Table 4-1). -/
structure LinkRecord where
  link : LinkState
  prevTag : Option Word
  notGood : Nat
  erroredRun : Nat
  goodRun : Nat
  window : Option RecoveryWindow
  recentlyLost : Bool
  recentTimer : Timer
  errored : Word
  missed : Word
  erroredSecond : Word
  highRun : Nat
  lowRun : Nat
  marginal : Bool
deriving DecidableEq, Repr

/-! ## Fault Intake -/

structure IntakeSlot where
  latch : Bool
  strikes : Nat
  strikeTimer : Timer
  lastCode : Nat
deriving DecidableEq, Repr

structure IntakeLine where
  request : Bool
  lastLevel : Bool
  window : Timer
deriving DecidableEq, Repr

structure Intake where
  slots : PerSlot IntakeSlot
  lines : PerPhase IntakeLine
deriving DecidableEq, Repr

/-! ## Restart Controller -/

inductive FaultClass where
  | hard | transient
deriving DecidableEq, Repr

structure PendingFault where
  cls : FaultClass
  code : Nat
deriving DecidableEq, Repr

inductive TripCause where
  | slot (s : Slot)
  | phase (p : Phase)
deriving DecidableEq, Repr

/-- An entry of the contactor watch list (R126). -/
structure WatchEntry where
  awaits : Bypass
  last : Option Feedback
deriving DecidableEq, Repr

inductive RechargeStep where
  | resetSent | acknowledged | settled
deriving DecidableEq, Repr

/-- A progress record (Table 8-1). -/
structure Progress where
  step : RechargeStep
  settle : Nat
  cleanRun : Nat
  verified : Bool
deriving DecidableEq, Repr

structure Rct where
  restart : RestartState
  mode : Mode
  passCount : Nat
  cause : Option LockoutCause
  pendingFaults : PerSlot (Option PendingFault)
  tripCause : Option TripCause
  settlingSeen : Bool
  /-- The scan in progress began after the entry to TRIPPED (R98). -/
  scanSinceTrip : Bool
  direction : Direction
  directionAtTrip : Direction
  restartEnable : Bool
  budget : Timer
  contactor : Timer
  recharge : Timer
  verify : Timer
  fresh : Timer
  proving : Timer
  watch : PerSlot (Option WatchEntry)
  progress : PerSlot (Option Progress)
  /-- The reset job state: WRITTEN (R130). -/
  resetWritten : Bool
  /-- The acknowledgement gate: OPEN (R130). -/
  gateOpen : Bool
deriving DecidableEq, Repr

/-! ## Map Planner -/

/-- The role of a slot with the fields it carries (Table 1-2). -/
inductive Role where
  | absent
  | active (position : Nat)
  | spare
  | bypassedFault
  | bypassedBalance (home : Nat)
deriving DecidableEq, Repr

structure SlotEntry where
  role : Role
  quarantine : Bool
  lifetime : BitVec 8
  bypass : Bypass
deriving DecidableEq, Repr

/-- The held fields of a phase record (Table 1-4). The active count, the dark position list and the balance-bypassed
count are computed from the entries and K (R7, log 31). -/
structure PhaseRecord where
  angleOffset : Word
  scale : Word
  saturation : Word
  torn : Word
deriving DecidableEq, Repr

/-- An entry of the rebalance table (R118). -/
structure RebalanceEntry where
  key : PerPhase Nat
  angle : PerPhase Word
  scale : PerPhase Word
deriving DecidableEq, Repr

structure Mpl where
  fitted : PerSlot Bool
  k : Nat
  slots : PerSlot SlotEntry
  phases : PerPhase PhaseRecord
  generation : Word
  table : List RebalanceEntry
deriving DecidableEq, Repr

/-! ## Reference Store -/

/-- The host's words of one logical command record; word 4 is not held (R142). -/
structure RefRecord where
  gate : Word
  amplitude : Word
  angle : Word
  carrier : Word
  aux0 : Word
  aux1 : Word
  aux2 : Word
deriving DecidableEq, Repr

structure AuxEntry where
  record : Rec
  aux : Fin 3
  value : Word
deriving DecidableEq, Repr

/-- The stage of a release (R150 to R152). In AUXILIARY a fill that finds the list empty makes the job wait, without
filling, until every release write staged so far has been performed (R151). -/
inductive ReleaseStage where
  | references
  | auxiliary (waiting : Bool)
  | gates
deriving DecidableEq, Repr

structure Rfs where
  image : PerSlot RefRecord
  amplitudeMark : PerSlot Bool
  angleMark : PerSlot Bool
  aux : List AuxEntry
  cursor : Option Rec
  stage : Option ReleaseStage
deriving DecidableEq, Repr

/-! ## Write Engine -/

/-- The jobs of Table 12 of chapter 2 (Table 2-12). A map image job knows whether a disarm queued it (R20), a log
record job whether it is the closing record's (R174). -/
inductive JobKind where
  | resetBlock | blockAll | contactor | resetGate | blockGate | release
  | mapImage (disarm : Bool)
  | logRecord (closing : Bool)
  | logHeader | captureDump | captureHeader
deriving DecidableEq, Repr

inductive JobClass where
  | one | two | three
deriving DecidableEq, Repr

/-- A value, or the name of the state from which the value is taken when the write is staged (R32, R33). -/
inductive Source where
  | const (value : Word)
  | commandedBypass (slot : Slot)
  | mapImage (offset : Nat)
  | overflowCount
  | captureHeader (word : Nat)
  | captureEntry (entry word : Nat)
  | refAmplitude (record : Rec)
  | refAngle (record : Rec)
  | refCarrier (record : Rec)
  | gateIntent (slot : Slot)
deriving DecidableEq, Repr

structure JobWrite where
  addr : Addr
  source : Source
deriving DecidableEq, Repr

structure Job where
  kind : JobKind
  /-- The writes not yet staged, in order. -/
  todo : List JobWrite
  /-- A buffer of the job has been granted the port (R19, log 19). -/
  begun : Bool
deriving DecidableEq, Repr

/-- The content of a READY or WRITING staging buffer (R33). -/
structure Burst where
  kind : JobKind
  writes : List (Addr × Word)
  /-- The last record whose word 3 the burst writes, for the release cursor (R150). -/
  cursor : Option Rec
  /-- The burst holds the job's last write. -/
  last : Bool
deriving DecidableEq, Repr

/-- A staging buffer. FILLING takes no port time and is whole within a command, so no state shows it (R33, log 28). -/
inductive Buffer where
  | empty
  | ready (b : Burst)
  | writing (b : Burst)
deriving DecidableEq, Repr

structure Wen where
  jobs1 : List Job
  jobs2 : List Job
  jobs3 : List Job
  x : Buffer
  y : Buffer
  /-- When both buffers are READY, X was filled before Y. -/
  xOlder : Bool
  /-- Completions that have come about and that their owner has not yet taken (R32, log 2). -/
  done : List JobKind
deriving DecidableEq, Repr

/-! ## Hoist Interface -/

structure Hif where
  driveHealthy : Bool
  permit : Bool
  proofNeeded : Bool
  lastTag : Word
  tagChanged : Bool
  stale : Nat
  period : Timer
deriving DecidableEq, Repr

/-! ## Capture Unit -/

structure CaptureEntry where
  record : Rec
  word : Fin 8
  value : Word
  stamp : Word
deriving DecidableEq, Repr

inductive CaptureState where
  | running | frozen | dumping
deriving DecidableEq, Repr

inductive TriggerKind where
  | trip | range
deriving DecidableEq, Repr

inductive RangeCondition where
  | unknown | inside | outside
deriving DecidableEq, Repr

structure Cap where
  ring : List CaptureEntry
  state : CaptureState
  post : Option Nat
  kind : TriggerKind
  stamp : BitVec 32
  missed : Word
  range : RangeCondition
deriving DecidableEq, Repr

/-! ## Log Unit -/

/-- A record accepted whose job has not completed (Table 11-3). -/
structure LogEntry where
  category : Category
  position : Nat
  next : Nat
  closing : Bool
deriving DecidableEq, Repr

structure Log where
  running : Bool
  capacity : Nat
  producer : Nat
  written : Nat
  consumer : Nat
  overflow : Word
  lastCategory : Word
  marks : List Bool
  writeList : List LogEntry
  irqMask : Word
  /-- The level of IRQ_N. -/
  irqN : Bool
  /-- R174 has taken IRQ_N high at the end of an armed period, and no log has started since (log 45). -/
  irqHeld : Bool
deriving DecidableEq, Repr

/-! ## Plan Loader and Interval Timer -/

inductive LoadCursor where
  | none
  | word (offset : Nat)
  | drive
deriving DecidableEq, Repr

structure Pld where
  cursor : LoadCursor
  planLength : Nat
  copy : List Word
  result : ArmResult
  arg : Word
deriving DecidableEq, Repr

structure Itm where
  running : Bool
  frames : BitVec 32
  millis : BitVec 32
  subMillis : Nat
  secondsDue : Nat
deriving DecidableEq, Repr

/-- The plan's settings as handed to their owners at adoption (R168, Table 2-5). The fitted set, K and the rebalance
table stand in Mpl, the log capacity and the IRQ mask in Log. -/
structure Settings where
  minActive : Nat
  senseRising : Bool
  /-- Bit c − 1 is the hard-class flag of code c, 1 to 64 (R25). -/
  hardFlags : BitVec 64
  rounding : Rounding
  staleTrip : Bool
  controlPeriod : Nat
  budget : Nat
  contactorTimeout : Nat
  rechargeTimeout : Nat
  settleFrames : Nat
  verifyRun : Nat
  verifyWindow : Nat
  freshTimeout : Nat
  provingWindow : Nat
  identWindow : Nat
  lossFrames : Nat
  persistence : Nat
  marginal : Nat
  strikeLimit : Nat
  strikeSeconds : Nat
  maxPasses : Nat
  dcUnder : Nat
  readyLow : Nat
  readyHigh : Nat
  dcOver : Nat
  captureSlot : Option Slot
  captureTemperature : Bool
  captureLow : Word
  captureHigh : Word
  captureLeave : Bool
  capturePost : Nat
deriving DecidableEq, Repr
end Sys2Proof.Machine

namespace Sys2Proof.Machine

/-- The state of the part, of the memory it stands before, and of its queue of commands. -/
structure State where
  pins : Pins
  mem : Memory
  bpu : Bpu
  mpa : Mpa
  ssc : Ssc
  lsv : PerSlot LinkRecord
  fin : Intake
  rct : Rct
  mpl : Mpl
  rfs : Rfs
  wen : Wen
  hif : Hif
  cap : Cap
  log : Log
  pld : Pld
  itm : Itm
  plan : Settings
  /-- How many tenures have been cut short: the argument of the free value of log 8. -/
  cuts : Nat
  /-- The commands that wait, first in, first out. -/
  pending : List Instr
deriving DecidableEq, Repr
end Sys2Proof.Machine

namespace Sys2Proof.Machine

/-! ## Reset values -/

def Timer.stopped : Timer := ⟨false, 0⟩
def Timer.load (n : Nat) : Timer := ⟨true, n⟩
def Timer.stop (t : Timer) : Timer := { t with running := false }
/-- One tick or FRAME edge of a running timer, down to 0. -/
def Timer.tick (t : Timer) : Timer := if t.running then { t with left := t.left - 1 } else t
/-- A running timer that stands at 0: its expiry is due (R100). -/
def Timer.due (t : Timer) : Bool := t.running && t.left == 0

def RefusalCounts.zero : RefusalCounts := ⟨0, 0, 0, 0, 0, 0, 0⟩

/-- R37, R44, R54, R57. -/
def Bpu.reset : Bpu := ⟨false, PerPhase.all none, [], RefusalCounts.zero, [], 0⟩

/-- R31. -/
def Mpa.reset : Mpa := ⟨none, 0⟩

/-- R59. -/
def Ssc.reset : Ssc := ⟨false, false, none, 0, false⟩

/-- R64. -/
def LinkRecord.reset : LinkRecord :=
  { link := .up, prevTag := none, notGood := 0, erroredRun := 0, goodRun := 0, window := none, recentlyLost := false,
    recentTimer := .stopped, errored := 0, missed := 0, erroredSecond := 0, highRun := 0, lowRun := 0,
    marginal := false }

/-- R77. -/
def IntakeSlot.reset : IntakeSlot := ⟨false, 0, .stopped, 0⟩

/-- R77; the level is a DESIGN CHOICE (log 9). -/
def IntakeLine.reset : IntakeLine := ⟨false, true, .stopped⟩

def Intake.reset : Intake := ⟨PerSlot.all .reset, PerPhase.all .reset⟩

/-- R94, R126, R130. -/
def Rct.reset : Rct :=
  { restart := .unarmed, mode := .standstill, passCount := 0, cause := none, pendingFaults := PerSlot.all none,
    tripCause := none, settlingSeen := true, scanSinceTrip := false, direction := .raise, directionAtTrip := .raise,
    restartEnable := false, budget := .stopped, contactor := .stopped, recharge := .stopped, verify := .stopped,
    fresh := .stopped, proving := .stopped, watch := PerSlot.all none, progress := PerSlot.all none,
    resetWritten := false, gateOpen := false }

/-- R6, R12. -/
def SlotEntry.reset : SlotEntry := ⟨.absent, false, 0, .closed⟩

/-- R9, R10. -/
def PhaseRecord.reset : PhaseRecord := ⟨0, 4096, 0, 0⟩

/-- R1, R6, R7, R9, R10, R12, R17, R118. -/
def Mpl.reset : Mpl :=
  ⟨PerSlot.all false, 0, PerSlot.all .reset, PerPhase.all .reset, 0, []⟩

/-- R142. -/
def RefRecord.zero : RefRecord := ⟨0, 0, 0, 0, 0, 0, 0⟩

/-- R142, R144, R147. -/
def Rfs.reset : Rfs := ⟨PerSlot.all .zero, PerSlot.all false, PerSlot.all false, [], none, none⟩

/-- R35. -/
def Wen.reset : Wen := ⟨[], [], [], .empty, .empty, true, []⟩

/-- R154. -/
def Hif.reset : Hif := ⟨false, false, true, 0, false, 0, .stopped⟩

/-- R88. -/
def Cap.reset : Cap := ⟨[], .running, none, .trip, 0, 0, .unknown⟩

/-- R171; the IRQ mask is a DESIGN CHOICE (log 9). -/
def Log.reset : Log :=
  { running := false, capacity := 16, producer := 0, written := 0, consumer := 0, overflow := 0, lastCategory := 0,
    marks := List.replicate 16 false, writeList := [], irqMask := 0, irqN := true, irqHeld := false }

/-- R165; the plan length is a DESIGN CHOICE (log 9). -/
def Pld.reset : Pld := ⟨.none, 1, [], .accepted, 0⟩

/-- R169. -/
def Itm.reset : Itm := ⟨false, 0, 0, 0, 0⟩

/-- DESIGN CHOICE (log 9, log 36): the specification gives the settings no reset value. -/
def Settings.reset : Settings :=
  { minActive := 0, senseRising := false, hardFlags := 0, rounding := .nearestEven, staleTrip := false,
    controlPeriod := 0, budget := 0, contactorTimeout := 0, rechargeTimeout := 0, settleFrames := 0, verifyRun := 0,
    verifyWindow := 0, freshTimeout := 0, provingWindow := 0, identWindow := 0, lossFrames := 0, persistence := 0,
    marginal := 0, strikeLimit := 0, strikeSeconds := 0, maxPasses := 0, dcUnder := 0, readyLow := 0, readyHigh := 0,
    dcOver := 0, captureSlot := none, captureTemperature := false, captureLow := 0, captureHigh := 0,
    captureLeave := false, capturePost := 0 }

/-- DESIGN CHOICE (log 9): ARM low, RESET_N high, BRAKE_SET low, the fault lines high. -/
def Pins.reset : Pins := ⟨false, true, false, PerPhase.all true⟩

/-- The state in which every block holds its reset values, before the power-on detector releases the part. -/
def State.held : State :=
  { pins := .reset, mem := [], bpu := .reset, mpa := .reset, ssc := .reset, lsv := PerSlot.all .reset, fin := .reset,
    rct := .reset, mpl := .reset, rfs := .reset, wen := .reset, hif := .reset, cap := .reset, log := .reset,
    pld := .reset, itm := .reset, plan := .reset, cuts := 0, pending := [] }

/-- Word w of the physical command record of slot s: 0x00200 + 8s + w (R22). -/
def physicalCommandAddr (s : Slot) (w : Nat) : Addr := BitVec.ofNat 18 (0x200 + 8 * s.val + w)

/-- The reset-block's write to one slot: BLOCK to word 0 (R36). -/
def resetBlockWrite (s : Slot) : Addr × Word := (physicalCommandAddr s 0, 0)

/-- The machine right after reset: the power-on detector has released the part, so the reset-block job of R36 has been
submitted, its first two bursts are staged and the first has the port (log 10). -/
def State.reset : State :=
  { State.held with
    mpa := ⟨some (.wen .x), 0⟩
    wen :=
      { Wen.reset with
        jobs1 := [⟨.resetBlock, (phaseSlots .c).map fun s => ⟨physicalCommandAddr s 0, .const 0⟩, true⟩]
        x := .writing ⟨.resetBlock, (phaseSlots .a).map resetBlockWrite, none, false⟩
        y := .ready ⟨.resetBlock, (phaseSlots .b).map resetBlockWrite, none, false⟩ } }

end Sys2Proof.Machine

namespace Sys2Proof.Machine.State

/-! ## One update per block -/

def onPins (f : Pins → Pins) (s : State) : State := { s with pins := f s.pins }
def onMem (f : Memory → Memory) (s : State) : State := { s with mem := f s.mem }
def onBpu (f : Bpu → Bpu) (s : State) : State := { s with bpu := f s.bpu }
def onMpa (f : Mpa → Mpa) (s : State) : State := { s with mpa := f s.mpa }
def onSsc (f : Ssc → Ssc) (s : State) : State := { s with ssc := f s.ssc }
def onLsv (f : PerSlot LinkRecord → PerSlot LinkRecord) (s : State) : State := { s with lsv := f s.lsv }
def onFin (f : Intake → Intake) (s : State) : State := { s with fin := f s.fin }
def onRct (f : Rct → Rct) (s : State) : State := { s with rct := f s.rct }
def onMpl (f : Mpl → Mpl) (s : State) : State := { s with mpl := f s.mpl }
def onRfs (f : Rfs → Rfs) (s : State) : State := { s with rfs := f s.rfs }
def onWen (f : Wen → Wen) (s : State) : State := { s with wen := f s.wen }
def onHif (f : Hif → Hif) (s : State) : State := { s with hif := f s.hif }
def onCap (f : Cap → Cap) (s : State) : State := { s with cap := f s.cap }
def onLog (f : Log → Log) (s : State) : State := { s with log := f s.log }
def onPld (f : Pld → Pld) (s : State) : State := { s with pld := f s.pld }
def onItm (f : Itm → Itm) (s : State) : State := { s with itm := f s.itm }
def onPlan (f : Settings → Settings) (s : State) : State := { s with plan := f s.plan }
def onCuts (f : Nat → Nat) (s : State) : State := { s with cuts := f s.cuts }

end Sys2Proof.Machine.State
end

