-- ==== Sys2Proof/Machine/Flags.lean ====
section
/-! DEFINITION. Encodings of named values (Table 2-10), saturating counts, and the flags and lines computed from
state: HWAIT_N, IRQ_N, the levels of the hoist outputs. -/

namespace Sys2Proof.Machine

/-! ## Counts -/

/-- A count that stops at 65535 (R10, R57, R63, R90, R172). -/
def satInc (w : Word) : Word := if w = 0xFFFF then w else w + 1

/-- A count of small range that stops at its bound. -/
def boundedInc (bound n : Nat) : Nat := if n < bound then n + 1 else bound

/-- The lifetime hard-fault count stops at 255 (R11). -/
def lifetimeInc (n : BitVec 8) : BitVec 8 := if n = 0xFF then n else n + 1

def flag (b : Bool) : Word := if b then 1 else 0

def word (n : Nat) : Word := BitVec.ofNat 16 n

/-- 0xFFFF, "no slot" in a record and "no position" in a map image entry (Tables 2-6, 2-9). -/
def noSlot : Word := 0xFFFF

/-! ## Encodings (Table 2-10) -/

def RestartState.code : RestartState → Word
  | .unarmed => 0
  | .arming => 1
  | .normal => 2
  | .tripped => 3
  | .isolating => 4
  | .recharging => 5
  | .verifying => 6
  | .awaiting => 7
  | .resuming => 8
  | .proving => 9
  | .lockout => 10

def Mode.code : Mode → Word
  | .rideThrough => 0
  | .standstill => 1

def LinkState.code : LinkState → Word
  | .up => 0
  | .degraded => 1
  | .lost => 2

def ArmResult.code : ArmResult → Word
  | .accepted => 0
  | .length => 1
  | .check => 2
  | .range => 3
  | .thresholdOrder => 4
  | .duplicateKey => 5
  | .infeasible => 6
  | .brakeNotSet => 7
  | .contactor => 8
  | .cellFault => 9

def LockoutCause.code : LockoutCause → Word
  | .infeasible => 1
  | .unidentified => 2
  | .restartDisabled => 3
  | .passesExhausted => 4
  | .bypassStuck => 5
  | .noFreshSet => 6
  | .provingTimeout => 7
  | .brakeLifted => 8
  | .hostStale => 9

def Category.code : Category → Word
  | .sequence => 1
  | .fault => 2
  | .map => 3
  | .link => 4
  | .contactor => 5
  | .hoist => 6
  | .host => 7
  | .capture => 8
  | .arm => 9

/-- The bit of the IRQ mask that a category has: bit c − 1 (R25). -/
def Category.bit (c : Category) : Nat := c.code.toNat - 1

def Role.code : Role → Word
  | .absent => 0
  | .active _ => 1
  | .spare => 2
  | .bypassedFault => 3
  | .bypassedBalance _ => 4

def Bypass.code : Bypass → Word
  | .opened => 0
  | .closed => 1

def Feedback.code : Feedback → Word
  | .opened => 0
  | .closed => 1
  | .moving => 2

/-- A feedback word; a value above 2 is recorded as MOVING (R126). -/
def Feedback.ofWord (w : Word) : Feedback :=
  if w = 0 then .opened else if w = 1 then .closed else .moving

/-- The feedback in a STUCK record, 0xFFFF for none (Table 7-5). -/
def feedbackCode : Option Feedback → Word
  | none => 0xFFFF
  | some f => f.code

def Direction.code : Direction → Word
  | .raise => 0
  | .lower => 1

/-- RAISE for the value 0, LOWER for any other (R43). -/
def Direction.ofWord (w : Word) : Direction := if w = 0 then .raise else .lower

def CaptureState.code : CaptureState → Word
  | .running => 0
  | .frozen => 1
  | .dumping => 2

def TriggerKind.code : TriggerKind → Word
  | .trip => 0
  | .range => 1

def causeCode : Option LockoutCause → Word
  | none => 0
  | some c => c.code

/-- A phase in a record: A 0, B 1, C 2 (Table 5-2). -/
def phaseCode (p : Phase) : Word := word p.num

/-! ## Lines -/

/-- A need a host transaction waits for: all but a commit alone (R30). -/
def Need.isHost : Need → Bool
  | .commitAlone .. => false
  | .passWrite .. | .read .. | .translated .. | .pair .. => true

/-- HWAIT_N is low while a host transaction waits for the port (R30, log 34). -/
def State.hwaitN (s : State) : Bool := !(s.bpu.needs.any Need.isHost)

/-- The level of DRIVE_HEALTHY by restart state and mode (Table 10-2). -/
def driveHealthyLevel (r : RestartState) (m : Mode) : Bool :=
  match r with
  | .unarmed | .arming | .lockout => false
  | .normal | .proving => true
  | .tripped | .isolating | .recharging | .verifying | .awaiting | .resuming => m == .rideThrough

/-- The states of a sequence from TRIPPED to RESUMING (R104, R157, R158). -/
def RestartState.inSequence : RestartState → Bool
  | .tripped | .isolating | .recharging | .verifying | .awaiting | .resuming => true
  | .unarmed | .arming | .normal | .proving | .lockout => false

/-- The state changes at which the permit falls (R156). -/
def permitFalls (r : RestartState) (m : Mode) : Bool :=
  match r with
  | .unarmed | .arming | .lockout | .proving => true
  | .normal => false
  | .tripped | .isolating | .recharging | .verifying | .awaiting | .resuming => m == .standstill

/-- The positions from the consumer copy up to the written producer, modulo the capacity (R173). -/
def Log.unconsumed (l : Log) : List Nat :=
  (List.range ((l.written + l.capacity - l.consumer) % l.capacity)).map fun i => (l.consumer + i) % l.capacity

/-- IRQ_N is low while an unconsumed position carries a set mark (R173). -/
def Log.irqLevel (l : Log) : Bool := !(l.unconsumed.any fun p => l.marks.getD p false)

/-- The level of IRQ_N where an event of the log changes it; high while R174 holds it so (log 45). -/
def Log.updateIrq (l : Log) : Log := { l with irqN := l.irqHeld || l.irqLevel }

/-- IRQ_N is taken high at the end of an armed period, and stays so until the log starts again (R174, log 45). -/
def Log.holdIrq (l : Log) : Log := { l with irqN := true, irqHeld := true }

end Sys2Proof.Machine
end

