-- ==== Sys2Proof/Machine/Ops.lean ====
section
/-! DEFINITION. The operations every block shares: the exchange memory, jobs of the Write Engine and their
cancellation, tenures that are cut short, log records. -/

namespace Sys2Proof.Machine

/-! ## The exchange memory (R21, R22) -/

/-- The entry of a word address, or what an unlisted word reads as. -/
def Memory.find : Memory → Nat → Word
  | [], _ => Config.unwritten
  | (k, v) :: rest, a => if k = a then v else Memory.find rest a

/-- The list with the entry of one address put in its place, or taken out. -/
def Memory.put : Memory → Nat → Word → Memory
  | [], a, v => if v = Config.unwritten then [] else [(a, v)]
  | (k, w) :: rest, a, v =>
    if a < k then (if v = Config.unwritten then (k, w) :: rest else (a, v) :: (k, w) :: rest)
    else if a = k then (if v = Config.unwritten then rest else (a, v) :: rest)
    else (k, w) :: Memory.put rest a v

/-- One word at an address of the memory-side lines. -/
def Memory.read (m : Memory) (a : Addr) : Word := m.find a.toNat

/-- The memory after one word is written. -/
def Memory.write (m : Memory) (a : Addr) (v : Word) : Memory := m.put a.toNat v

def Memory.writeAll (m : Memory) (ws : List (Addr × Word)) : Memory := ws.foldl (fun m w => m.write w.1 w.2) m

/-- Every key is at least `low`, keys rise strictly, no entry holds what an unlisted word reads as, and every key is an
address of the 262144 words. -/
def Memory.wfFrom (low : Nat) : Memory → Bool
  | [] => true
  | (k, v) :: rest => decide (low ≤ k) && decide (k < 262144) && decide (v ≠ Config.unwritten) && Memory.wfFrom (k + 1) rest

/-- The canonical form of the exchange memory. -/
def Memory.wf (m : Memory) : Bool := m.wfFrom 0

/-- Word w of the physical status record of slot s: 0x00300 + 8s + w (R22). -/
def physicalStatusAddr (s : Slot) (w : Nat) : Addr := BitVec.ofNat 18 (0x300 + 8 * s.val + w)

/-- The writes the link engines have made since the part last looked (2.1, log 6). -/
def applyFar (far : List FarWrite) (m : Memory) : Memory :=
  m.writeAll (far.map fun f => (physicalStatusAddr f.slot f.word.val, f.value))

/-! ## Jobs of the Write Engine (R32) -/

/-- Table 2-12. -/
def JobKind.cls : JobKind → JobClass
  | .resetBlock | .blockAll => .one
  | .contactor | .resetGate | .blockGate | .release => .two
  | .mapImage _ | .logRecord _ | .logHeader | .captureDump | .captureHeader => .three

/-- Whether the owner of a job is told of its completion and acts on it (R32, R101, R131, R91, R172). -/
def JobKind.reported : JobKind → Bool
  | .resetGate | .release | .captureDump | .logRecord _ => true
  | .resetBlock | .blockAll | .contactor | .blockGate | .mapImage _ | .logHeader | .captureHeader => false

def JobKind.isMapImage : JobKind → Bool
  | .mapImage _ => true
  | .resetBlock | .blockAll | .contactor | .resetGate | .blockGate | .release | .logRecord _ | .logHeader
  | .captureDump | .captureHeader => false

def JobKind.isLogRecord : JobKind → Bool
  | .logRecord _ => true
  | .resetBlock | .blockAll | .contactor | .resetGate | .blockGate | .release | .mapImage _ | .logHeader
  | .captureDump | .captureHeader => false

def Wen.jobs (w : Wen) : JobClass → List Job
  | .one => w.jobs1
  | .two => w.jobs2
  | .three => w.jobs3

def Wen.setJobs (w : Wen) (c : JobClass) (js : List Job) : Wen :=
  match c with
  | .one => { w with jobs1 := js }
  | .two => { w with jobs2 := js }
  | .three => { w with jobs3 := js }

def Wen.buffer (w : Wen) : BufferId → Buffer
  | .x => w.x
  | .y => w.y

def Wen.setBuffer (w : Wen) (b : BufferId) (v : Buffer) : Wen :=
  match b with
  | .x => { w with x := v }
  | .y => { w with y := v }

def Wen.note (w : Wen) (k : JobKind) : Wen := if k.reported then { w with done := w.done ++ [k] } else w

/-- A job joins the list of its class. -/
def Wen.append (w : Wen) (j : Job) : Wen := w.setJobs j.kind.cls (w.jobs j.kind.cls ++ [j])

/-- A block hands the Write Engine a job. A job with no writes completes at once (R32). -/
def submit (k : JobKind) (writes : List JobWrite) (s : State) : State :=
  s.onWen fun w => if writes = [] then w.note k else w.append ⟨k, writes, false⟩

/-- The word accesses done when a tenure of `count` of them is cut: at least the one under way (R31, R35; log 8). -/
def cutLength (n count : Nat) : Nat := 1 + Config.cutPoint n % count

/-- A tenure of these writes is cut short: some first ones of them have been performed. -/
def cutWrites (ws : List (Addr × Word)) (s : State) : State :=
  { s with mem := s.mem.writeAll (ws.take (cutLength s.cuts ws.length)), cuts := s.cuts + 1 }

/-- A buffer of a cancelled job turns EMPTY; if it is WRITING it stops after the word under way, and the tenure ends
there (R35). -/
def cancelBuffer (p : JobKind → Bool) (b : BufferId) (s : State) : State :=
  match s.wen.buffer b with
  | .empty => s
  | .ready u => if p u.kind then s.onWen (·.setBuffer b .empty) else s
  | .writing u =>
    if p u.kind then
      ((cutWrites u.writes s).onWen (·.setBuffer b .empty)).onMpa fun m => { m with holder := none }
    else s

/-- An owner cancels its jobs of some kinds (R35). A completion not yet taken is not reported either (R112, log 27). -/
def cancel (p : JobKind → Bool) (s : State) : State :=
  (cancelBuffer p .y (cancelBuffer p .x s)).onWen fun w =>
    { w with
      jobs1 := w.jobs1.filter (!p ·.kind)
      jobs2 := w.jobs2.filter (!p ·.kind)
      jobs3 := w.jobs3.filter (!p ·.kind)
      done := w.done.filter (!p ·) }

/-! ## Restart log (R172) -/

def logHeaderAddr (w : Nat) : Addr := BitVec.ofNat 18 (0x1000 + w)

/-- Word w of the log record at ring position i: 0x01008 + 8i + w (R22). -/
def logRecordAddr (i w : Nat) : Addr := BitVec.ofNat 18 (0x1008 + 8 * i + w)

/-- The low and the high half of a 32-bit stamp. -/
def lowHalf (n : BitVec 32) : Word := n.setWidth 16
def highHalf (n : BitVec 32) : Word := (n >>> 16).setWidth 16

/-- The write of the overflow count to header word 3, whose value is formed when it is staged (R172). -/
def overflowWrite : JobWrite := ⟨logHeaderAddr 3, .overflowCount⟩

/-- A log header job of word 3 alone, at most one pending (R172). A header job of adoption, whose word 3 is 0, is no such
job (R171). DESIGN CHOICE (log 44): a job whose write is staged and not yet performed is not the one pending. -/
def queueOverflowHeader (s : State) : State :=
  if s.wen.jobs3.any (fun j => j.kind == .logHeader && j.todo.contains overflowWrite) then s
  else submit .logHeader [overflowWrite] s

/-- The eight words of a record (Table 2-9), formed when it is handed. -/
def recordWords (c : Category) (code slot arg : Word) (s : State) : List Word :=
  [c.code, code, slot, s.rct.restart.code, arg, lowHalf s.itm.frames, highHalf s.itm.frames, lowHalf s.itm.millis]

/-- The nine writes of a record's job: its words at its ring position, then the producer index (R172). -/
def recordJob (pos next : Nat) (words : List Word) : List JobWrite :=
  words.zipIdx.map (fun w => JobWrite.mk (logRecordAddr pos w.2) (.const w.1)) ++ [⟨logHeaderAddr 0, .const (word next)⟩]

/-- A record handed now would be dropped (R172). -/
def logFull (s : State) : Bool :=
  decide (Config.writeListCapacity ≤ s.log.writeList.length)
    || (s.log.producer + 1) % s.log.capacity == s.log.consumer

/-- A record is dropped: it counts as an overflow. -/
def dropRecord (s : State) : State :=
  queueOverflowHeader (s.onLog fun l => { l with overflow := satInc l.overflow })

/-- A record is accepted at the producer's position, with its class-3 job of nine writes. Its mark counts for IRQ_N where
the consumer copy stands ahead of the written producer (R173). -/
def acceptRecord (closing : Bool) (c : Category) (code slot arg : Word) (s : State) : State :=
  let pos := s.log.producer
  let next := (pos + 1) % s.log.capacity
  submit (.logRecord closing) (recordJob pos next (recordWords c code slot arg s))
    (s.onLog fun l =>
      Log.updateIrq
        { l with
          marks := l.marks.set pos (l.irqMask.getLsbD c.bit)
          producer := next
          writeList := l.writeList ++ [⟨c, pos, next, closing⟩] })

/-- A block hands the Log Unit a record: discarded while it is not running, dropped or accepted otherwise (R171, R172). -/
def handRecord (closing : Bool) (c : Category) (code slot arg : Word) (s : State) : State :=
  if s.log.running then
    if logFull s then dropRecord s else acceptRecord closing c code slot arg s
  else s

def logRecord (c : Category) (code slot arg : Word) (s : State) : State := handRecord false c code slot arg s

/-- A completion is taken by its owner. -/
def takeDone (k : JobKind) (s : State) : State := s.onWen fun w => { w with done := w.done.erase k }

/-- The oldest record of the write list leaves it: the written producer and the last category follow (R172). -/
def Log.retire (l : Log) : Log :=
  match l.writeList with
  | [] => l
  | e :: rest => { l with written := e.next, lastCategory := e.category.code, writeList := rest }

/-- The oldest log record's job has completed (R172, R173); with the closing record's, IRQ_N goes high (R174). -/
def logCompleted (closing : Bool) (s : State) : State :=
  s.onLog fun l => if closing then l.retire.holdIrq else l.retire.updateIrq

/-- The completion of one record's job is taken. -/
def takeRecordCompletion (k : JobKind) (s : State) : State := logCompleted (k == .logRecord true) (takeDone k s)

/-- Records whose jobs have been performed whole are not among those that a cancellation loses (R32, R174; log 27). -/
def takeRecordCompletions (s : State) : State :=
  (s.wen.done.filter JobKind.isLogRecord).foldl (fun t k => takeRecordCompletion k t) s

/-! ## Map image job (R19) -/

/-- Word w of the map image. -/
def mapImageAddr (offset : Nat) : Addr := BitVec.ofNat 18 (0xC00 + offset)

/-- A map image job is queued unless one is pending that has not begun writing. -/
def queueMapImage (disarm : Bool) (s : State) : State :=
  if s.wen.jobs3.any (fun j => j.kind.isMapImage && !j.begun) then s
  else submit (.mapImage disarm) ((List.range 224).map fun o => ⟨mapImageAddr o, .mapImage o⟩) s

/-! ## Refusal counts (R57) -/

/-- One event of a kind, counted while the window is open. -/
def countRefusal (f : RefusalCounts → RefusalCounts) (s : State) : State :=
  s.onBpu fun b => if b.isOpen then { b with counts := f b.counts } else b

def RefusalCounts.addGateValue (c : RefusalCounts) : RefusalCounts := { c with gateValue := satInc c.gateValue }
def RefusalCounts.addBypassWord (c : RefusalCounts) : RefusalCounts := { c with bypassWord := satInc c.bypassWord }
def RefusalCounts.addAuxFull (c : RefusalCounts) : RefusalCounts := { c with auxFull := satInc c.auxFull }
def RefusalCounts.addProtected (c : RefusalCounts) : RefusalCounts :=
  { c with protectedWrite := satInc c.protectedWrite }
def RefusalCounts.addOutside (c : RefusalCounts) : RefusalCounts := { c with outside := satInc c.outside }
def RefusalCounts.addSaturation (c : RefusalCounts) : RefusalCounts := { c with saturation := satInc c.saturation }
def RefusalCounts.addTornPair (c : RefusalCounts) : RefusalCounts := { c with tornPair := satInc c.tornPair }

/-- An amplitude of the phase has been clamped or saturated (R10, R48, R142). -/
def countSaturation (p : Phase) (s : State) : State :=
  countRefusal .addSaturation
    (s.onMpl fun m => { m with phases := m.phases.modify p fun r => { r with saturation := satInc r.saturation } })

end Sys2Proof.Machine
end

