-- ==== Sys2Proof/WellFormed.lean ====
section
/-! DEFINITION. Which commands are well formed: an address operand lies in the region of its row (Table 2-1, R38, R40
to R42). Records, slots and word indices are bounded by their types. -/

namespace Sys2Proof

/-- 0x00800 to 0x00BFF. -/
def inPlan (a : Addr) : Bool := 0x800 ≤ a.toNat && a.toNat ≤ 0xBFF
/-- 0x00C00 to 0x00CDF. -/
def inImage (a : Addr) : Bool := 0xC00 ≤ a.toNat && a.toNat ≤ 0xCDF
/-- 0x00D00 to 0x00E07. -/
def inCapture (a : Addr) : Bool := 0xD00 ≤ a.toNat && a.toNat ≤ 0xE07
/-- 0x01000 to 0x017FF. -/
def inLog (a : Addr) : Bool := 0x1000 ≤ a.toNat && a.toNat ≤ 0x17FF
/-- 0x00200 to 0x002BF. -/
def inPhysicalCommand (a : Addr) : Bool := 0x200 ≤ a.toNat && a.toNat ≤ 0x2BF
/-- The two logical windows, 0x00000 to 0x000BF and 0x00100 to 0x001BF. -/
def inLogical (a : Addr) : Bool :=
  a.toNat ≤ 0xBF || (0x100 ≤ a.toNat && a.toNat ≤ 0x1BF)
/-- The regions whose host writes have rows of their own (R39 to R42). -/
def inProtected (a : Addr) : Bool :=
  inPhysicalCommand a || inPlan a || inImage a || inCapture a || inLog a

/-- A well-formed command. -/
def Instr.wellFormed : Instr → Bool
  | .planOrImageWrite a _ => inPlan a || inImage a
  | .captureRegionWrite a _ => inCapture a
  | .logRegionWrite a _ => inLog a
  | .hostPassedAccess a op =>
    match op with
    | .read => !inLogical a
    | .write _ => !inLogical a && !inProtected a
  | .powerOnReset | .resetNLow | .resetNHigh | .armRising | .armFalling | .frameRising | .faultLineEdge _
  | .brakeSetRising | .brakeSetFalling | .msTick | .oneSecondInterval | .budgetExpiry | .contactorTimeout
  | .rechargeTimerExpiry | .freshSetTimerExpiry | .provingTimerExpiry | .strikeWindowExpiry _
  | .recentlyLostTimerExpiry _ | .identificationWindowExpiry | .verifyWindowExpiry | .controlPeriodEnd
  | .logicalGateWrite _ _ | .logicalAmplitudeWrite _ _ | .logicalAngleWrite _ _ | .logicalCarrierWrite _ _
  | .bypassWord _ _ | .logicalAuxWrite _ _ _ | .outside _ _ _ | .logicalCommandRead _ _ | .logicalStatusRead _ _
  | .logicalStatusWrite _ _ _ | .physicalCommandWrite _ _ _ | .periodTagWrite | .directionWrite | .proofEvent
  | .restartEnableWrite | .consumedWrite | .consumerWrite | .sscSlotTenureEnd _ | .pldTenureEnd | .bpuTenureEnd _
  | .wenTenureEnd | .releaseComplete | .resetJobComplete | .captureDumpComplete | .logRecordComplete
  | .faultLineInactiveTransition _ => true

end Sys2Proof
end

