-- ==== Sys2Proof/Machine/Operands.lean ====
section
/-! DEFINITION. Operands: the regions of the address map (R22), the lookups of the cell map (R4, R7, R72), the
translation of amplitude, angle and carrier (R48 to R50), and the words of the map image (R18). -/

namespace Sys2Proof.Machine

/-! ## Regions (Table 2-1) -/

/-- The region a host address lies in, with the record and word where the region has them. -/
inductive Region where
  | logicalCommand (r : Rec) (w : Fin 8)
  | logicalStatus (r : Rec) (w : Fin 8)
  | physicalCommand
  | planOrImage
  | capture
  | log
  | drive (w : Fin 4)
  /-- Physical status records and unassigned addresses: every access passes (R38). -/
  | other
deriving DecidableEq, Repr

/-- The decoding of a host address (R22). -/
def regionOf (a : Addr) : Region :=
  let n := a.toNat
  if h : n < 0xC0 then .logicalCommand ⟨n / 8, by omega⟩ ⟨n % 8, by omega⟩
  else if h : 0x100 ≤ n ∧ n < 0x1C0 then .logicalStatus ⟨(n - 0x100) / 8, by omega⟩ ⟨n % 8, by omega⟩
  else if inPhysicalCommand a then .physicalCommand
  else if inPlan a || inImage a then .planOrImage
  else if inCapture a then .capture
  else if inLog a then .log
  else if 0x400 ≤ n ∧ n < 0x404 then .drive ⟨n % 4, by omega⟩
  else .other

/-- The delivery a drive record write makes while the part is armed (R43). -/
def driveDelivery (w : Fin 4) (v : Word) : Option Delivery :=
  match w.val with
  | 0 => some (.periodTag v)
  | 1 => some (.direction v)
  | 2 => if v = 1 then some .proof else none
  | _ => some (.restartEnable v)

/-! ## The cell map (R4, R5, R7) -/

def Role.isActive : Role → Bool
  | .active _ => true
  | .absent | .spare | .bypassedFault | .bypassedBalance _ => false

def Role.isBalance : Role → Bool
  | .bypassedBalance _ => true
  | .absent | .spare | .bypassedFault | .active _ => false

abbrev SlotMap := PerSlot SlotEntry

/-- The ACTIVE slot of a phase that holds a position, or none: the position is dark (R4). -/
def holderOf (m : SlotMap) (p : Phase) (q : Nat) : Option Slot :=
  (phaseSlots p).find? fun s => (m.get s).role == .active q

/-- The dark positions of a phase, ascending (R7). -/
def darkPositions (m : SlotMap) (k : Nat) (p : Phase) : List Nat :=
  (List.range k).filter fun q => (holderOf m p q).isNone

/-- The deficit: the number of dark positions (Table 0-6). -/
def deficit (m : SlotMap) (k : Nat) (p : Phase) : Nat := (darkPositions m k p).length

def activeCount (m : SlotMap) (p : Phase) : Nat := (phaseSlots p).countP fun s => (m.get s).role.isActive

def balanceCount (m : SlotMap) (p : Phase) : Nat := (phaseSlots p).countP fun s => (m.get s).role.isBalance

/-- The ACTIVE slots in ascending order. -/
def activeSlots (m : SlotMap) : List Slot := allSlots.filter fun s => (m.get s).role.isActive

/-- The slot that holds the position of a logical record in the map in force. -/
def slotOfRecord (s : State) (r : Rec) : Option Slot := holderOf s.mpl.slots (phaseOf r) (indexOf r)

/-- The logical record whose position an ACTIVE slot holds (R4). -/
def recordOfSlot (s : State) (i : Slot) : Option Rec :=
  match (s.mpl.slots.get i).role with
  | .active q => some (mkIndex (phaseOf i) q)
  | .absent | .spare | .bypassedFault | .bypassedBalance _ => none

/-- A slot is eligible (R72). -/
def eligible (s : State) (i : Slot) : Bool :=
  (s.lsv.get i).link == .up && !(s.lsv.get i).recentlyLost && !(s.lsv.get i).marginal

/-! ## Rounding and translation (R48 to R50) -/

/-- The exact quotient n / d rounded by the plan's mode (R48). -/
def roundDiv (m : Rounding) (n d : Nat) : Nat :=
  let q := n / d
  let r := n % d
  match m with
  | .down => q
  | .up => if r = 0 then q else q + 1
  | .nearestEven => if 2 * r < d then q else if d < 2 * r then q + 1 else if q % 2 = 0 then q else q + 1

/-- The Reference Store's clamp of a host amplitude, with whether it clamped (R142). -/
def clampAmplitude (v : Word) : Word × Bool := if 32767 < v.toNat then (32767, true) else (v, false)

/-- The translated amplitude, with whether it was saturated (R48). -/
def translateAmplitude (m : Rounding) (scale amplitude : Word) : Word × Bool :=
  let n := roundDiv m (amplitude.toNat * scale.toNat) 4096
  if 32767 < n then (32767, true) else (word n, false)

/-- The translated angle (R49). -/
def translateAngle (offset angle : Word) : Word := angle + offset

/-- The rank of a position: the non-dark positions below it (R50). -/
def rankOf (dark : List Nat) (q : Nat) : Nat := ((List.range q).filter fun i => !dark.contains i).length

/-- The translated carrier offset of position q (R50). -/
def translateCarrier (k : Nat) (dark : List Nat) (q : Nat) (carrier : Word) : Word :=
  if dark.isEmpty then carrier else word (rankOf dark q * 65536 / (k - dark.length))

/-- The phase record of a logical record's phase. -/
def phaseRecord (s : State) (r : Rec) : PhaseRecord := s.mpl.phases.get (phaseOf r)

def amplitudeOf (s : State) (r : Rec) (v : Word) : Word × Bool :=
  translateAmplitude s.plan.rounding (phaseRecord s r).scale v

def angleOf (s : State) (r : Rec) (v : Word) : Word := translateAngle (phaseRecord s r).angleOffset v

def carrierOf (s : State) (r : Rec) (v : Word) : Word :=
  translateCarrier s.mpl.k (darkPositions s.mpl.slots s.mpl.k (phaseOf r)) (indexOf r) v

/-! ## The reference image (R142, R55) -/

def RefRecord.aux (d : RefRecord) (i : Fin 3) : Word :=
  if i.val = 0 then d.aux0 else if i.val = 1 then d.aux1 else d.aux2

def RefRecord.setAux (d : RefRecord) (i : Fin 3) (v : Word) : RefRecord :=
  if i.val = 0 then { d with aux0 := v } else if i.val = 1 then { d with aux1 := v } else { d with aux2 := v }

/-- The commanded bypass a read of word 4 answers: CLOSE for a dark position (R3, R55). -/
def bypassAnswer (s : State) (r : Rec) : Word :=
  match slotOfRecord s r with
  | none => Bypass.closed.code
  | some i => (s.mpl.slots.get i).bypass.code

/-- The answer to a read of word w of a logical command record inside the map (R55). -/
def commandAnswer (s : State) (r : Rec) (w : Fin 8) : Word :=
  let d := s.rfs.image.get r
  match w.val with
  | 0 => d.gate
  | 1 => d.amplitude
  | 2 => d.angle
  | 3 => d.carrier
  | 4 => bypassAnswer s r
  | 5 => d.aux0
  | 6 => d.aux1
  | _ => d.aux2

/-- Word w of the synthesized status record of a dark position (R24). -/
def darkStatusWord (w : Fin 8) : Word := if w.val = 1 ∨ w.val = 6 then 7 else 0

/-! ## The map image (Table 1-5, Table 2-6) -/

def imageHeaderWord (s : State) (w : Nat) : Word :=
  match w with
  | 0 => s.rct.restart.code
  | 1 => s.rct.mode.code
  | 2 => word s.rct.passCount
  | 3 => s.mpl.generation
  | 4 => s.pld.result.code
  | 5 => s.pld.arg
  | 6 => causeCode s.rct.cause
  | _ => word s.mpl.k

def imagePhaseWord (s : State) (p : Phase) (w : Nat) : Word :=
  let r := s.mpl.phases.get p
  match w with
  | 0 => word (activeCount s.mpl.slots p)
  | 1 => word (deficit s.mpl.slots s.mpl.k p)
  | 2 => r.angleOffset
  | 3 => r.scale
  | 4 => r.saturation
  | 5 => r.torn
  | 6 => word (balanceCount s.mpl.slots p)
  | _ => flag (s.fin.lines.get p).request

/-- Word 1 of a slot entry (Table 2-6). -/
def Role.positionWord : Role → Word
  | .active q => word q
  | .bypassedBalance h => word h
  | .absent | .spare | .bypassedFault => noSlot

/-- Word 3 of a slot entry: marginal, recently lost, quarantined, degraded (Table 2-6, R26). -/
def slotFlags (l : LinkRecord) (quarantine : Bool) : Word :=
  flag l.marginal + 2 * flag l.recentlyLost + 4 * flag quarantine + 8 * flag (l.link == .degraded)

def imageSlotWord (s : State) (i : Slot) (w : Nat) : Word :=
  let e := s.mpl.slots.get i
  let l := s.lsv.get i
  let f := s.fin.slots.get i
  match w with
  | 0 => e.role.code
  | 1 => e.role.positionWord
  | 2 => l.link.code
  | 3 => slotFlags l e.quarantine
  | 4 => word f.strikes
  | 5 => l.errored
  | 6 => l.missed
  | _ => word (e.lifetime.toNat * 256 + f.lastCode % 256)

/-- The word of the map image at an offset from 0x00C00: header, phase records A to C, slot entries 0 to 23. -/
def mapImageWord (s : State) (offset : Nat) : Word :=
  let w := offset % 8
  match offset / 8 with
  | 0 => imageHeaderWord s w
  | 1 => imagePhaseWord s .a w
  | 2 => imagePhaseWord s .b w
  | 3 => imagePhaseWord s .c w
  | n + 4 => imageSlotWord s (Fin.ofNat 24 n) w

/-! ## The capture region (Table 2-7, R91) -/

def captureHeaderAddr (w : Nat) : Addr := BitVec.ofNat 18 (0xD00 + w)
def captureEntryAddr (e w : Nat) : Addr := BitVec.ofNat 18 (0xD08 + 4 * e + w)

def captureHeaderWord (c : Cap) (w : Nat) : Word :=
  match w with
  | 0 => c.state.code
  | 1 => word c.ring.length
  | 2 => c.kind.code
  | 3 => lowHalf c.stamp
  | 4 => highHalf c.stamp
  | 5 => c.missed
  | 6 => 0
  | _ => word (c.post.getD 0)

def captureEntryWord (c : Cap) (e w : Nat) : Word :=
  match c.ring[e]? with
  | none => 0
  | some d =>
    match w with
    | 0 => word d.record.val
    | 1 => word d.word.val
    | 2 => d.value
    | _ => d.stamp

end Sys2Proof.Machine
end

