-- ==== Sys2Proof/Machine/Capture.lean ====
section
/-! DEFINITION. The Capture Unit: recording, triggers, the freeze and its dump, the resume (R88 to R93). -/

namespace Sys2Proof.Machine

def captureHeaderWrites : List JobWrite := (List.range 8).map fun w => ⟨captureHeaderAddr w, .captureHeader w⟩

/-- A capture header job: the eight header words and the state word again (R91). -/
def queueCaptureHeader (s : State) : State :=
  submit .captureHeader (captureHeaderWrites ++ [⟨captureHeaderAddr 0, .captureHeader 0⟩]) s

/-- A capture dump job: header, entries oldest first, and last the state word FROZEN (R91). -/
def queueCaptureDump (s : State) : State :=
  submit .captureDump
    (captureHeaderWrites
      ++ ((List.range s.cap.ring.length).flatMap fun e =>
            (List.range 4).map fun w => ⟨captureEntryAddr e w, .captureEntry e w⟩)
      ++ [⟨captureHeaderAddr 0, .const CaptureState.frozen.code⟩]) s

/-- The freeze (R90). -/
def freezeRing (s : State) : State :=
  queueCaptureDump (s.onCap fun c => { c with state := .dumping, post := none })

/-- The ring with one more entry, the oldest removed when it is full (R89). -/
def appendCapture (ring : List CaptureEntry) (e : CaptureEntry) : List CaptureEntry :=
  ring.drop (ring.length + 1 - Config.ringCapacity) ++ [e]

/-- A host write inside the map is handed to the Capture Unit (R45, R89). -/
def recordCapture (r : Rec) (w : Fin 8) (v : Word) (s : State) : State :=
  if s.cap.state = .running then
    let s := s.onCap fun c => { c with ring := appendCapture c.ring ⟨r, w, v, lowHalf s.itm.frames⟩ }
    match s.cap.post with
    | none => s
    | some n => if n ≤ 1 then freezeRing s else s.onCap fun c => { c with post := some (n - 1) }
  else s

/-- A trigger reaches the Capture Unit (R90). -/
def captureTrigger (k : TriggerKind) (s : State) : State :=
  if s.cap.state = .running ∧ s.cap.post = none then
    let s := s.onCap fun c => { c with kind := k, stamp := s.itm.frames }
    let s := logRecord .capture 1 noSlot k.code s
    if s.plan.capturePost = 0 then freezeRing s
    else s.onCap fun c => { c with post := some s.plan.capturePost }
  else s.onCap fun c => { c with missed := satInc c.missed }

/-- The field of the range trigger lies between the capture low and high values (R92). -/
def rangeInside (p : Settings) (v : Word) : Bool :=
  if p.captureTemperature then p.captureLow.sle v && v.sle p.captureHigh
  else p.captureLow.ule v && v.ule p.captureHigh

/-- The change of position that the capture condition names (R92). -/
def rangeCrossing (leave : Bool) (before after : RangeCondition) : Bool :=
  if leave then before == .inside && after == .outside else before == .outside && after == .inside

/-- A good frame of the capture range slot is handed to the Capture Unit (R92). -/
def captureRange (v : Word) (s : State) : State :=
  let after : RangeCondition := if rangeInside s.plan v then .inside else .outside
  let before := s.cap.range
  let s := s.onCap fun c => { c with range := after }
  if rangeCrossing s.plan.captureLeave before after then captureTrigger .range s else s

/-- A consumed write delivered to the Capture Unit: in FROZEN it resumes the ring (R93). -/
def consumeCapture (s : State) : State :=
  if s.cap.state = .frozen then
    logRecord .capture 3 noSlot 0
      (queueCaptureHeader (s.onCap fun c => { c with ring := [], state := .running }))
  else s

/-- The effect of a cancelled dump (R88). -/
def captureDumpCancelled (s : State) : State :=
  s.onCap fun c => if c.state = .dumping then { c with state := .frozen } else c

/-- Completion of a dump of a frozen ring (R91). -/
def captureDumped (s : State) : State :=
  logRecord .capture 2 noSlot (word s.cap.ring.length) (s.onCap fun c => { c with state := .frozen })

end Sys2Proof.Machine
end

