-- ==== Sys2Proof/Machine/Hoist.lean ====
section
/-! DEFINITION. What the Hoist Interface does to its outputs and its records (R154 to R160, R164). -/

namespace Sys2Proof.Machine

/-- The permit falls; at a fall the proof-needed flag is set (R156). -/
def Hif.dropPermit (h : Hif) : Hif := if h.permit then { h with permit := false, proofNeeded := true } else h

/-- The permit rises and the proof-needed flag is cleared (R156). -/
def Hif.raisePermit (h : Hif) : Hif := { h with permit := true, proofNeeded := false }

/-- Both outputs low, the permit first (R155). -/
def Hif.bothLow (h : Hif) : Hif := { h.dropPermit with driveHealthy := false }

/-- The outputs after a change of restart state (Table 10-2, R155, R156). An entry to NORMAL from PROVING is made on an
accepted proof, and the permit rises. -/
def Hif.enter (h : Hif) (old new : RestartState) (m : Mode) : Hif :=
  let h := if permitFalls new m then h.dropPermit else h
  let h := { h with driveHealthy := driveHealthyLevel new m }
  if old = .proving ∧ new = .normal then h.raisePermit else h

/-- A HOIST record (Table 10-3). -/
def hoistRecord (code arg : Word) (s : State) : State := logRecord .hoist code noSlot arg s

/-- The Hoist Interface takes a new restart state, with the HOIST records made together with the change: PROVEN at an
accepted proof (R160), LIFTED_WITHOUT_PERMIT at an entry to PROVING with BRAKE_SET low (R158, log 25). DESIGN CHOICE
(log 42): word 3 of these records is the state entered, which R164 and R172 leave open. -/
def hoistEnter (old new : RestartState) (s : State) : State :=
  let s := s.onHif fun h => h.enter old new s.rct.mode
  if old = .proving ∧ new = .normal then hoistRecord 4 0 s
  else if new = .proving ∧ s.pins.brakeSet = false then hoistRecord 5 RestartState.proving.code s
  else s

/-- A mode conversion: the mode becomes STANDSTILL, the budget timer stops, both outputs fall and one HOIST record is
made (R104, R159). -/
def convertMode (code arg : Word) (s : State) : State :=
  hoistRecord code arg
    ((s.onRct fun r => { r with mode := .standstill, budget := r.budget.stop }).onHif
      fun h => { h.bothLow with proofNeeded := true })

/-- BRAKE_SET rising in NORMAL: parking (R157). -/
def parkDrive (s : State) : State := hoistRecord 3 0 (s.onHif Hif.dropPermit)

/-- A re-proof in NORMAL (R160). -/
def reproof (s : State) : State := hoistRecord 4 1 (s.onHif Hif.raisePermit)

end Sys2Proof.Machine
end

