-- ==== Sys2Proof/Machine/Planner.lean ====
section
/-! DEFINITION. The Map Planner: the rebalance step, the planning run, the initial map build, and the fault on a slot
that is not active (R14, R15, R114 to R124). -/

namespace Sys2Proof.Machine

def SlotMap.setRole (m : SlotMap) (i : Slot) (r : Role) : SlotMap := PerSlot.modify m i fun e => { e with role := r }

/-! ## Rebalance (R118 to R120) -/

/-- The ACTIVE slot of a phase at the highest position below `n`, with that position (R119). -/
def highestActive (m : SlotMap) (p : Phase) : Nat → Option (Slot × Nat)
  | 0 => none
  | n + 1 =>
    match holderOf m p n with
    | some s => some (s, n)
    | none => highestActive m p n

/-- The ACTIVE slots at the highest positions of a phase are bypassed for balance, `count` of them (R119). -/
def bypassHighest (k : Nat) (p : Phase) : Nat → SlotMap → SlotMap
  | 0, m => m
  | n + 1, m =>
    match highestActive m p k with
    | some (s, q) => bypassHighest k p n (m.setRole s (.bypassedBalance q))
    | none => m

def deficits (m : SlotMap) (k : Nat) : PerPhase Nat := PerPhase.ofFn fun p => deficit m k p

def maxDeficit (d : PerPhase Nat) : Nat := max d.atA (max d.atB d.atC)

/-- The fallback: every phase is brought to the largest deficit (R119). -/
def equalize (k : Nat) (m : SlotMap) : SlotMap :=
  let dmax := maxDeficit (deficits m k)
  Phase.all.foldl (fun m p => bypassHighest k p (dmax - deficit m k p) m) m

def lookupEntry (t : List RebalanceEntry) (key : PerPhase Nat) : Option RebalanceEntry := t.find? fun e => e.key == key

/-- 4096 × K / (K − dmax) rounded, or 4096 if dmax equals K (R120). -/
def computedScale (m : Rounding) (k dmax : Nat) : Word := if k ≤ dmax then 4096 else word (roundDiv m (4096 * k) (k - dmax))

/-- The result of the rebalance step: the working map, offsets and scales, and their source (Table 7-3). -/
structure Rebalanced where
  slots : SlotMap
  angle : PerPhase Word
  scale : PerPhase Word
  source : Word
deriving DecidableEq, Repr

/-- Step 4 of a run, and the same step of an initial build (R15, R118 to R120). DESIGN CHOICE (log 40): with dmax equal to
K a matching entry for (dmax, dmax, dmax) is taken, and without one the source handed to the log is 3. -/
def rebalance (t : List RebalanceEntry) (mode : Rounding) (k : Nat) (m : SlotMap) : Rebalanced :=
  let d := deficits m k
  if d = PerPhase.all 0 then ⟨m, PerPhase.all 0, PerPhase.all 4096, 0⟩
  else
    match lookupEntry t d with
    | some e => ⟨m, e.angle, e.scale, 1⟩
    | none =>
      let dmax := maxDeficit d
      let m' := equalize k m
      match lookupEntry t (PerPhase.all dmax) with
      | some e => ⟨m', e.angle, e.scale, 2⟩
      | none => ⟨m', PerPhase.all 0, PerPhase.all (computedScale mode k dmax), 3⟩

/-- The lowest phase below min_active, or none: the map is feasible (R15, R121). -/
def shortPhase (minActive : Nat) (m : SlotMap) : Option Phase := Phase.all.find? fun p => decide (activeCount m p < minActive)

/-! ## The planning run (R114 to R117) -/

/-- A slot becomes BYPASSED(FAULT): mark set, lifetime count increased (R11, R115, R124). -/
def SlotEntry.bypassFault (e : SlotEntry) : SlotEntry :=
  { e with role := .bypassedFault, quarantine := true, lifetime := lifetimeInc e.lifetime }

/-- Step 1 (R115). -/
def planFaulted (hard : Slot → Bool) (m : SlotMap) : SlotMap :=
  PerSlot.ofFn fun i => if hard i then (m.get i).bypassFault else m.get i

/-- Step 2 (R116): eligible balance-bypassed slots return to their home positions. -/
def planReinstate (elig : Slot → Bool) (m : SlotMap) : SlotMap :=
  PerSlot.ofFn fun i =>
    match (m.get i).role with
    | .bypassedBalance h => if elig i then { m.get i with role := .active h } else m.get i
    | .absent | .active _ | .spare | .bypassedFault => m.get i

/-- The home positions still held in a phase. -/
def homePositions (m : SlotMap) (p : Phase) : List Nat :=
  (phaseSlots p).filterMap fun s =>
    match (m.get s).role with
    | .bypassedBalance h => some h
    | .absent | .active _ | .spare | .bypassedFault => none

/-- The lowest eligible SPARE slot of a phase. -/
def firstSpare (elig : Slot → Bool) (m : SlotMap) (p : Phase) : Option Slot :=
  (phaseSlots p).find? fun s => (m.get s).role == .spare && elig s

/-- Step 3 in one phase (R117). -/
def fillPhase (elig : Slot → Bool) (k : Nat) (m : SlotMap) (p : Phase) : SlotMap :=
  let homes := homePositions m p
  ((darkPositions m k p).filter fun q => !homes.contains q).foldl
    (fun m q => match firstSpare elig m p with | some s => m.setRole s (.active q) | none => m) m

/-- Step 3 (R117). -/
def planSpares (elig : Slot → Bool) (k : Nat) (m : SlotMap) : SlotMap := Phase.all.foldl (fillPhase elig k) m

/-- The commanded bypass that goes with a role (R2, R122). -/
def Role.bypass (r : Role) : Bypass := if r.isActive then .opened else .closed

/-- Every entry's commanded bypass set from its role (R16, R122). -/
def commandBypass (m : SlotMap) : SlotMap := m.map fun e => { e with bypass := e.role.bypass }

/-- The MAP record of one slot's net change, if it made any (R123, Table 7-3). -/
def mapChange (before after : SlotEntry) : Option (Word × Word) :=
  match before.role, after.role with
  | .active _, .bypassedFault => some (1, after.lifetime.setWidth 16)
  | .active _, .bypassedBalance h => some (2, word h)
  | .spare, .bypassedBalance h => some (2, word h)
  | .bypassedBalance _, .active q => some (3, word q)
  | .spare, .active q => some (4, word q)
  | _, _ => none

def logMapChange (before after : SlotMap) (i : Slot) (s : State) : State :=
  match mapChange (before.get i) (after.get i) with
  | some (code, arg) => logRecord .map code (word i.val) arg s
  | none => s

/-- One write of word 4 per slot, naming the slot's commanded bypass (R16, R122). -/
def contactorWrites (slots : List Slot) : List JobWrite :=
  slots.map fun i => ⟨physicalCommandAddr i 4, .commandedBypass i⟩

/-- A contactor job is submitted: each slot enters the watch list (R126). Empty, there is no job (R122). -/
def commandContactors (slots : List Slot) (s : State) : State :=
  if slots = [] then s
  else
    submit .contactor (contactorWrites slots)
      (s.onRct fun r =>
        { r with
          watch := PerSlot.ofFn fun i =>
            if slots.contains i then some ⟨(s.mpl.slots.get i).bypass, none⟩ else r.watch.get i })

/-- The CONTACTOR record of code COMMANDED (R129). -/
def logCommanded (slots : List Slot) (s : State) : State :=
  if slots = [] then s else logRecord .contactor 1 noSlot (word slots.length) s

/-- The map generation is increased by 1 and a map image job is queued (R17, R19). -/
def bumpGeneration (s : State) : State :=
  queueMapImage false (s.onMpl fun m => { m with generation := m.generation + 1 })

/-- The working map after steps 1 to 3. -/
def planRoles (hard : Slot → Bool) (s : State) : SlotMap :=
  planSpares (eligible s) s.mpl.k (planReinstate (eligible s) (planFaulted hard s.mpl.slots))

def setRebalance (r : Rebalanced) (ph : PerPhase PhaseRecord) : PerPhase PhaseRecord :=
  PerPhase.ofFn fun p => { ph.get p with angleOffset := r.angle.get p, scale := r.scale.get p }

/-- The fitted slots whose commanded bypass differs between two maps, ascending (R122). -/
def contactorChanges (fitted : PerSlot Bool) (before after : SlotMap) : List Slot :=
  allSlots.filter fun i => fitted.get i && (before.get i).bypass != (after.get i).bypass

/-- The commanded bypass of an unfitted slot does not change at a run (R2, R122). -/
def commandFitted (fitted : PerSlot Bool) (m : SlotMap) : SlotMap :=
  PerSlot.ofFn fun i => if fitted.get i then { m.get i with bypass := (m.get i).role.bypass } else m.get i

/-- The MAP records of a run: net changes, REBALANCE, and INFEASIBLE for an infeasible run (R123). -/
def logRun (before : SlotMap) (source : Word) (short : Option Phase) (s : State) : State :=
  let s := allSlots.foldl (fun t i => logMapChange before s.mpl.slots i t) s
  let s := logRecord .map 5 noSlot source s
  match short with
  | some p => logRecord .map 6 noSlot (phaseCode p) s
  | none => s

/-- A planning run with its hard-faulted set (R114 to R123): the map it leaves in force, whatever its feasibility. -/
def planRun (hard : Slot → Bool) (s : State) : State :=
  let before := s.mpl.slots
  let r := rebalance s.mpl.table s.plan.rounding s.mpl.k (planRoles hard s)
  let after := commandFitted s.mpl.fitted r.slots
  let changes := contactorChanges s.mpl.fitted before after
  let s := s.onMpl fun m => { m with slots := after, phases := setRebalance r m.phases }
  let s := bumpGeneration (commandContactors changes s)
  logCommanded changes (logRun before r.source (shortPhase s.plan.minActive after) s)

/-! ## A fault on a slot that is not active (R124) -/

def nonActiveFault (i : Slot) (s : State) : State :=
  let left := (s.mpl.slots.get i).role.code
  logRecord .map 7 (word i.val) left
    (bumpGeneration (s.onMpl fun m => { m with slots := PerSlot.modify m.slots i SlotEntry.bypassFault }))

/-! ## The initial map (R14, R15) -/

/-- The eligible slots of the phase below a slot: fitted, and not quarantined once the release list is applied. -/
def rankBelow (able : Slot → Bool) (i : Slot) : Nat :=
  ((phaseSlots (phaseOf i)).filter fun j => decide (j.val < i.val) && able j).length

/-- The role of a slot in the initial map (R14). -/
def initialRole (fitted marked : Slot → Bool) (k : Nat) (i : Slot) : Role :=
  if !fitted i then .absent
  else if marked i then .bypassedFault
  else
    let n := rankBelow (fun j => fitted j && !marked j) i
    if n < k then .active n else .spare

/-- The working map of an initial build: roles by R14, marks of the release list removed, lifetime counts kept. -/
def initialMap (fitted released : Slot → Bool) (k : Nat) (m : SlotMap) : SlotMap :=
  PerSlot.ofFn fun i =>
    { m.get i with
      role := initialRole fitted (fun j => (m.get j).quarantine && !released j) k i
      quarantine := (m.get i).quarantine && !released i }

end Sys2Proof.Machine
end

