-- ==== Sys2Proof/Machine/Restart.lean ====
section
/-! DEFINITION. The Restart Controller: changes of restart state, trip, lockout, the pass from TRIPPED to RESUMING, the
end of a sequence, disarm (R54, R94 to R113, R127, R131, R137, R140, R148, R150, R153, R163, R170, R174). -/

namespace Sys2Proof.Machine

/-! ## Jobs and marks the controller commands -/

/-- A block-all: BLOCK to word 0 of every ACTIVE slot of the map in force (R87). -/
def blockAll (s : State) : State :=
  submit .blockAll ((activeSlots s.mpl.slots).map fun i => ⟨physicalCommandAddr i 0, .const 0⟩) s

/-- The jobs a trip, a lockout and an abandonment cancel (R96, R108, R153). -/
def JobKind.ofSequence : JobKind → Bool
  | .resetGate | .blockGate | .release => true
  | .resetBlock | .blockAll | .contactor | .mapImage _ | .logRecord _ | .logHeader | .captureDump
  | .captureHeader => false

/-- The release stage and cursor become none (R152, R153). -/
def clearRelease (s : State) : State := s.onRfs fun f => { f with stage := none, cursor := none }

/-- Recharge gate jobs and the release job are cancelled; a release in flight is abandoned (R96, R108, R153). -/
def cancelSequenceJobs (s : State) : State := clearRelease (cancel JobKind.ofSequence s)

/-- The release alone is abandoned (R106, R153, R162). -/
def abandonRelease (s : State) : State := clearRelease (cancel (· == .release) s)

/-- Every fresh mark is cleared (R144). -/
def clearMarks (s : State) : State :=
  s.onRfs fun f => { f with amplitudeMark := PerSlot.all false, angleMark := PerSlot.all false }

/-! ## Pair latches at a change of state (R54) -/

/-- The states in which a write of an amplitude or an angle can be live (R54). -/
def RestartState.latching : RestartState → Bool
  | .normal | .proving | .resuming => true
  | .unarmed | .arming | .tripped | .isolating | .recharging | .verifying | .awaiting | .lockout => false

def Need.isCommitAlone : Need → Bool
  | .commitAlone .. => true
  | .passWrite .. | .read .. | .translated .. | .pair .. => false

def satDec (w : Word) : Word := if w = 0 then 0 else w - 1

/-- A commit alone that is discarded is not counted (R54, log 14). -/
def uncountCommit (n : Need) (s : State) : State :=
  match n with
  | .commitAlone p _ _ inTotal inSecond =>
    let s := if inTotal then
        s.onMpl fun m => { m with phases := m.phases.modify p fun r => { r with torn := satDec r.torn } }
      else s
    if inSecond then s.onBpu fun b => { b with counts := { b.counts with tornPair := satDec b.counts.tornPair } } else s
  | .passWrite .. | .read .. | .translated .. | .pair .. => s

/-- The need whose tenure has begun, and those still waiting for their grant. -/
def runningNeeds (s : State) : List Need := if s.mpa.holder = some .bpu then s.bpu.needs.take 1 else []
def waitingNeeds (s : State) : List Need := if s.mpa.holder = some .bpu then s.bpu.needs.drop 1 else s.bpu.needs

/-- Every pair latch is emptied without writing, and the commits alone that wait are discarded (R54). -/
def emptyLatches (s : State) : State :=
  let t := ((waitingNeeds s).filter Need.isCommitAlone).foldl (fun t n => uncountCommit n t) s
  t.onBpu fun b =>
    { b with
      latches := PerPhase.all none
      needs := runningNeeds s ++ (waitingNeeds s).filter (!·.isCommitAlone) }

/-! ## A change of restart state (R95, R100) -/

/-- What leaving a state stops and discards: its own timer (R100), the progress records (R130), the gate (R131). -/
def Rct.leave (r : Rct) (new : RestartState) : Rct :=
  match r.restart with
  | .arming | .isolating => { r with contactor := r.contactor.stop }
  | .recharging =>
    { r with
      recharge := r.recharge.stop
      gateOpen := false
      progress := if new = .verifying then r.progress else PerSlot.all none }
  | .verifying => { r with verify := r.verify.stop, progress := PerSlot.all none }
  | .awaiting => { r with fresh := r.fresh.stop }
  | .proving => { r with proving := r.proving.stop }
  | .unarmed | .normal | .tripped | .resuming | .lockout => r

/-- A change of restart state: latches (R54), the state's timer (R100), the hoist lines (R155), and the SEQUENCE record
with its slot word and argument (R95, Table 6-3; log 24). -/
def enter (new : RestartState) (slot arg : Word) (s : State) : State :=
  let old := s.rct.restart
  let s := if old.latching && !new.latching then emptyLatches s else s
  let s := s.onRct fun r => { r.leave new with restart := new }
  logRecord .sequence new.code slot arg (hoistEnter old new s)

/-! ## Lockout (R108) -/

def Rct.stopTimers (r : Rct) : Rct :=
  { r with
    budget := r.budget.stop
    contactor := r.contactor.stop
    recharge := r.recharge.stop
    verify := r.verify.stop
    fresh := r.fresh.stop
    proving := r.proving.stop }

/-- The Fault Intake clears its request flags and stops its windows (R77). -/
def Intake.clearLines (f : Intake) : Intake :=
  { f with lines := f.lines.map fun l => { l with request := false, window := l.window.stop } }

/-- Entry to LOCKOUT (R108). The block-all that other rules name with it is this one (log 17). -/
def enterLockout (c : LockoutCause) (s : State) : State :=
  let s := cancelSequenceJobs (blockAll s)
  let s := s.onRct fun r => { r.stopTimers with cause := some c, pendingFaults := PerSlot.all none }
  (enter .lockout noSlot c.code s).onFin Intake.clearLines

/-! ## The trip (R96, R97) -/

def tripSlotWord : TripCause → Word
  | .slot i => word i.val
  | .phase _ => noSlot

/-- The actions of the first trip of a sequence (R97). -/
def firstTrip (s : State) : State :=
  let mode : Mode := if s.pins.brakeSet then .standstill else .rideThrough
  clearMarks (s.onRct fun r =>
    { r with
      mode := mode
      passCount := 0
      cause := none
      directionAtTrip := r.direction
      budget := if mode = .rideThrough then .load s.plan.budget else r.budget })

/-- A trip on an event with its cause and, for a fault event, its entry of the pending-fault set (R96). -/
def trip (cause : TripCause) (entry : Option (Slot × PendingFault)) (s : State) : State :=
  let first := s.rct.restart = .normal
  let s := cancelSequenceJobs (blockAll s)
  let s := s.onRct fun r =>
    { r with
      tripCause := some cause
      pendingFaults := match entry with | some (i, f) => r.pendingFaults.set i (some f) | none => r.pendingFaults }
  let s := if first then firstTrip s else s
  let s := s.onRct fun r => { r with settlingSeen := false, scanSinceTrip := false }
  captureTrigger .trip (enter .tripped (tripSlotWord cause) s.rct.directionAtTrip.code s)

/-- A fault event taken in TRIPPED joins the pending-fault set; HARD is not lowered (R98). -/
def joinPending (i : Slot) (f : PendingFault) (r : Rct) : Rct :=
  let cls := match r.pendingFaults.get i with
    | some old => if old.cls = .hard then .hard else f.cls
    | none => f.cls
  { r with pendingFaults := r.pendingFaults.set i (some ⟨cls, f.code⟩) }

/-! ## Return to UNARMED (R59, R77, R110, R126, R154, R169, R170, R174) -/

def Holder.discarded : Holder → Holder
  | .ssc i _ => .ssc i true
  | .pld _ => .pld true
  | .bpu => .bpu
  | .wen b => .wen b

def Need.unwatched : Need → Need
  | .passWrite a v _ => .passWrite a v none
  | .read a l => .read a l
  | .translated r w a v => .translated r w a v
  | .pair r i m g => .pair r i m g
  | .commitAlone p i m t u => .commitAlone p i m t u

/-- The Fault Intake at a return to UNARMED: request flags, strikes, timers and windows; latches are kept (R77). -/
def Intake.disarm (f : Intake) : Intake :=
  { f.clearLines with
    slots := f.slots.map fun e => { e with strikes := 0, strikeTimer := e.strikeTimer.stop } }

/-- What every return of the restart state to UNARMED does in every block but the log and the Write Engine. -/
def quiesce (s : State) : State :=
  let s := clearRelease (emptyLatches s)
  { s with
    mpa := { s.mpa with holder := s.mpa.holder.map Holder.discarded }
    bpu :=
      { s.bpu with
        isOpen := false, needs := s.bpu.needs.map Need.unwatched, counts := .zero, deliveries := [] }
    ssc := { s.ssc with enabled := false, inProgress := false, position := none, ended := false }
    lsv := s.lsv.map fun l => { l with recentTimer := l.recentTimer.stop }
    fin := s.fin.disarm
    rct :=
      { s.rct.stopTimers with
        restart := .unarmed, pendingFaults := PerSlot.all none, watch := PerSlot.all none,
        progress := PerSlot.all none, gateOpen := false }
    hif := { s.hif.bothLow with period := s.hif.period.stop }
    itm := { s.itm with running := false, secondsDue := 0 }
    pld := { s.pld with cursor := .none, copy := [] } }

def satAdd (w : Word) (n : Nat) : Word := if 65535 ≤ w.toNat + n then 0xFFFF else w + word n

/-- The records whose jobs were cancelled are lost (R174). -/
def loseRecords (s : State) : State :=
  s.onLog fun l =>
    { l with producer := l.written, overflow := satAdd l.overflow l.writeList.length, writeList := [] }

/-- The log stops; a closing record that was dropped takes IRQ_N high at once (R174). -/
def stopLog (dropped : Bool) (s : State) : State :=
  s.onLog fun l => { l with running := false, irqN := l.irqN || dropped, irqHeld := l.irqHeld || dropped }

/-- The closing of a running log: the ARM record of an end of arming, the closing SEQUENCE record, the header job for
lost records, the stop (R170, R174). Word 3 of both records is the state left: R174 says so of the closing record, and of
the ARM record it is a DESIGN CHOICE (log 46). -/
def closeLog (armRecord : Option (Word × Word × Word)) (arg : Word) (s : State) : State :=
  if s.log.running then
    let lost := s.log.writeList.length
    let s := loseRecords s
    let s := match armRecord with
      | some (code, slot, a) => logRecord .arm code slot a s
      | none => s
    let dropped := logFull s
    let s := handRecord true .sequence RestartState.unarmed.code noSlot arg s
    let s := if lost = 0 then s else queueOverflowHeader s
    stopLog dropped s
  else s

/-- The Reference Store at disarm: list flushed, marks cleared (R110, R144, R147). -/
def flushReferences (s : State) : State := clearMarks (s.onRfs fun f => { f with aux := [] })

/-- Every job of class 2 and class 3 is cancelled (R35); the Capture Unit takes a running dump as FROZEN (R88). -/
def cancelLowerJobs (s : State) : State := captureDumpCancelled (cancel (·.cls != .one) s)

/-- The actions of R110, shared by disarm and by an end of arming after adoption (R170); log 35. The completions of
records already performed go ahead of the cancellation (log 27). -/
def disarmWith (armRecord : Option (Word × Word × Word)) (arg : Word) (disarm : Bool) (s : State) : State :=
  queueMapImage disarm
    (quiesce (closeLog armRecord arg (flushReferences (cancelLowerJobs (blockAll (takeRecordCompletions s))))))

/-- ARM falling in an armed state (R110). -/
def disarm (s : State) : State := disarmWith none 0xFFFF true s

/-- Arming that has adopted its map ends without reaching AWAITING (R170). -/
def endArming (result : ArmResult) (slot arg : Word) (s : State) : State :=
  disarmWith (some (result.code, slot, arg)) result.code false
    (s.onPld fun p => { p with result := result, arg := 0 })

/-! ## From TRIPPED to RESUMING -/

/-- The fresh set is complete (R145). -/
def freshComplete (s : State) : Bool :=
  allSlots.all fun r =>
    !(decide (indexOf r < s.mpl.k)) || (slotOfRecord s r).isNone
      || (s.rfs.amplitudeMark.get r && s.rfs.angleMark.get r)

/-- No fault is pending (R148). -/
def noFaultPending (s : State) : Bool :=
  allSlots.all (fun i => (s.rct.pendingFaults.get i).isNone) && Phase.all.all fun p => !(s.fin.lines.get p).request

/-- The reference writes of a release: words 1, 2 and 3 of the slot of each non-dark record, ascending (R150). -/
def referenceWrites (s : State) : List JobWrite :=
  allSlots.flatMap fun r =>
    match (if indexOf r < s.mpl.k then slotOfRecord s r else none) with
    | some i =>
      [⟨physicalCommandAddr i 1, .refAmplitude r⟩, ⟨physicalCommandAddr i 2, .refAngle r⟩,
       ⟨physicalCommandAddr i 3, .refCarrier r⟩]
    | none => []

/-- The release job is submitted, in stage REFERENCES with no cursor (R150). -/
def submitRelease (s : State) : State :=
  let writes := referenceWrites s
  (s.onWen (·.append ⟨.release, writes, false⟩)).onRfs fun f =>
    { f with stage := some (if writes = [] then .auxiliary false else .references), cursor := none }

/-- Entry to RESUMING (R150). -/
def enterResuming (s : State) : State := submitRelease (enter .resuming noSlot s.rct.mode.code s)

/-- The conditions of R148, tested at an event that can change one of them. -/
def testAwaiting (s : State) : State :=
  if s.rct.restart = .awaiting ∧ freshComplete s = true ∧ s.hif.stale < 3 ∧ noFaultPending s = true then enterResuming s
  else s

/-- Entry to AWAITING with its reason (R140, R148); the fresh-set timer starts. -/
def startAwaiting (reason : Word) (s : State) : State :=
  (enter .awaiting noSlot reason s).onRct fun r => { r with fresh := .load s.plan.freshTimeout }

def enterAwaiting (reason : Word) (s : State) : State := testAwaiting (startAwaiting reason s)

/-- The arming path enters AWAITING; under stale mode TRIP a host still stale locks the part out (R163, R168). -/
def finishArming (s : State) : State :=
  let s := startAwaiting 0 s
  if s.plan.staleTrip = true ∧ 3 ≤ s.hif.stale then enterLockout .hostStale s else testAwaiting s

/-- Every slot with a progress record satisfies a test. -/
def allProgress (t : Progress → Bool) (r : Rct) : Bool :=
  allSlots.all fun i => match r.progress.get i with | some p => t p | none => true

/-- Entry to RECHARGING: progress records, RESET job, recharge timer (R130, R131). -/
def enterRecharging (s : State) : State :=
  let s := enter .recharging noSlot (word s.rct.passCount) s
  let s := s.onRct fun r =>
    { r with
      progress := PerSlot.ofFn fun i =>
        if (s.mpl.slots.get i).role.isActive then some ⟨.resetSent, 0, 0, false⟩ else none
      resetWritten := false
      gateOpen := false
      recharge := .load s.plan.rechargeTimeout }
  submit .resetGate ((activeSlots s.mpl.slots).map fun i => ⟨physicalCommandAddr i 0, .const 2⟩) s

/-- Entry to VERIFYING (R137, R138). -/
def enterVerifying (s : State) : State :=
  (enter .verifying noSlot (word s.rct.passCount) s).onRct fun r =>
    { r with
      progress := r.progress.map fun p => p.map fun q => { q with cleanRun := 0, verified := false }
      verify := .load s.plan.verifyWindow }

def watchEmpty (r : Rct) : Bool := allSlots.all fun i => (r.watch.get i).isNone

/-- The controller after a run: LOCKOUT, RECHARGING at once, or the contactor wait (R121, R127). -/
def afterRun (s : State) : State :=
  match shortPhase s.plan.minActive s.mpl.slots with
  | some _ => enterLockout .infeasible s
  | none =>
    if watchEmpty s.rct then enterRecharging s
    else s.onRct fun r => { r with contactor := .load s.plan.contactorTimeout }

/-- The slots of the pending-fault set whose class is HARD (R99). -/
def hardPending (r : Rct) (i : Slot) : Bool :=
  match r.pendingFaults.get i with
  | some f => f.cls == .hard
  | none => false

/-- The pass from TRIPPED to ISOLATING (R99, R114, R127). -/
def enterIsolating (s : State) : State :=
  let hard := hardPending s.rct
  let s := s.onRct fun r => { r with passCount := r.passCount + 1, pendingFaults := PerSlot.all none }
  afterRun (planRun hard (enter .isolating noSlot (word s.rct.passCount) s))

/-- A scan end as the Restart Controller takes it (R98). -/
def takeScanEnd (s : State) : State :=
  s.onRct fun r => if r.scanSinceTrip then { r with settlingSeen := true } else r

/-- An identification report, with whether it names an expired phase (R99). -/
def identificationReport (expired : Bool) (s : State) : State :=
  if s.rct.restart = .tripped then
    if expired then enterLockout .unidentified s
    else if s.rct.settlingSeen = false ∨ Phase.all.any (fun p => (s.fin.lines.get p).request) = true then s
    else if s.rct.restartEnable = false then enterLockout .restartDisabled s
    else if s.plan.maxPasses ≤ s.rct.passCount then enterLockout .passesExhausted s
    else enterIsolating s
  else s

/-! ## The end of a sequence (R101, R103) -/

/-- Entry to NORMAL: the record carries the pass count before it is set to 0 (R103). -/
def enterNormal (s : State) : State :=
  (enter .normal noSlot (word s.rct.passCount) s).onRct fun r =>
    { r with passCount := 0, budget := r.budget.stop, pendingFaults := PerSlot.all none }

/-- Entry to PROVING; BRAKE_SET low at that moment is a brake lifted without permit (R101, R158). -/
def enterProving (s : State) : State :=
  let s := (enter .proving noSlot s.rct.mode.code s).onRct fun r => { r with proving := .load s.plan.provingWindow }
  if s.pins.brakeSet then s else enterLockout .brakeLifted s

/-- Completion of the release job in RESUMING (R101, R152). -/
def releaseCompleted (s : State) : State :=
  let s := clearRelease s
  if s.rct.restart = .resuming then
    match s.rct.mode with
    | .rideThrough => enterNormal s
    | .standstill => enterProving s
  else s

/-- A return to AWAITING from RESUMING or PROVING with a block-all (R106, R153, R162). -/
def returnToAwaiting (reason : Word) (s : State) : State := enterAwaiting reason (abandonRelease (blockAll s))

/-! ## Host staleness at the controller (R162, R163) -/

def stalenessEvent (s : State) : State :=
  if s.plan.staleTrip then
    match s.rct.restart with
    | .normal | .tripped | .isolating | .recharging | .verifying | .awaiting | .resuming | .proving =>
      enterLockout .hostStale s
    | .unarmed | .arming | .lockout => s
  else
    match s.rct.restart with
    | .resuming => returnToAwaiting 2 s
    | .unarmed | .arming | .normal | .tripped | .isolating | .recharging | .verifying | .awaiting | .proving
    | .lockout => s

/-! ## Direction (R106) -/

/-- A direction change acts by state. -/
def directionChanged (s : State) : State :=
  match s.rct.restart with
  | .normal | .lockout | .unarmed => s
  | .arming | .tripped | .isolating | .recharging | .verifying => clearMarks s
  | .awaiting => (clearMarks s).onRct fun r => { r with fresh := .load s.plan.freshTimeout }
  | .resuming | .proving => enterAwaiting 1 (clearMarks (abandonRelease (blockAll s)))

/-- A direction write sets the copy; it is a change when the value differs from the copy held before (R106). -/
def directionWrite (d : Direction) (s : State) : State :=
  if s.rct.direction = d then s else directionChanged (s.onRct fun r => { r with direction := d })

end Sys2Proof.Machine
end

