-- ==== Sys2Proof/Machine/Faults.lean ====
section
/-! DEFINITION. The Fault Intake: status reports, classes and strikes, identification, routing, fault lines, and the
fault and line events at the controller (R77 to R86, R96, R98, R170). -/

namespace Sys2Proof.Machine

/-! ## Events at the controller -/

/-- A fault event for an active slot, by restart state (R85, R86, R96, R98, R109, R170). -/
def faultEvent (i : Slot) (f : PendingFault) (s : State) : State :=
  match s.rct.restart with
  | .unarmed | .lockout => s
  | .arming => endArming .cellFault (word i.val) (word f.code) s
  | .tripped => s.onRct (joinPending i f)
  | .normal | .isolating | .recharging | .verifying | .awaiting | .resuming | .proving => trip (.slot i) (some (i, f)) s

/-- A line event for a phase, by restart state (R80, R96, R98, R109, R170). -/
def lineEvent (p : Phase) (s : State) : State :=
  match s.rct.restart with
  | .unarmed | .lockout | .tripped => s
  | .arming => endArming .cellFault noSlot (phaseCode p) s
  | .normal | .isolating | .recharging | .verifying | .awaiting | .resuming | .proving => trip (.phase p) none s

/-! ## Classes and strikes (R83) -/

/-- How a fault came to its class, with the argument of its record (Table 5-2). -/
inductive Classed where
  | transient | hardByClass | hardByStrikes
deriving DecidableEq, Repr

def Classed.arg : Classed → Word
  | .transient => 0
  | .hardByClass => 1
  | .hardByStrikes => 2

def Classed.cls : Classed → FaultClass
  | .transient => .transient
  | .hardByClass | .hardByStrikes => .hard

/-- Codes 1 to 64 by their hard-class flag, codes 65 to 69 always HARD (R25, R83). -/
def hardByCode (p : Settings) (code : Nat) : Bool := decide (64 < code) || p.hardFlags.getLsbD (code - 1)

/-- The class of a fault and the intake entry after its strike (R83). -/
def classify (p : Settings) (code : Nat) (e : IntakeSlot) : Classed × IntakeSlot :=
  if hardByCode p code then (.hardByClass, e)
  else if p.strikeLimit ≤ e.strikes then (.hardByStrikes, e)
  else
    let e' := { e with
      strikes := e.strikes + 1
      strikeTimer := if e.strikes = 0 then .load (p.strikeSeconds * 1000) else e.strikeTimer }
    if p.strikeLimit ≤ e.strikes + 1 then (.hardByStrikes, e') else (.transient, e')

/-! ## Identification (R81) -/

/-- The roles whose faults identify a request and whose faults are taken (R81, R85). -/
def Role.reports : Role → Bool
  | .active _ | .spare | .bypassedBalance _ => true
  | .absent | .bypassedFault => false

/-- A request is identified: its flag is cleared and its window stops. -/
def IntakeLine.identify (l : IntakeLine) : IntakeLine :=
  if l.request then { l with request := false, window := l.window.stop } else l

/-- A slot of the phase already shows a fault or a lost link (R81). -/
def identifiedAtOnce (p : Phase) (s : State) : Bool :=
  (phaseSlots p).any fun i =>
    (s.mpl.slots.get i).role.reports && ((s.fin.slots.get i).latch || (s.lsv.get i).link == .lost)

/-! ## Taking a fault (R83 to R86) -/

/-- The class of the fault, the strike, the last code and the FAULT record (R83, R84). -/
def recordFault (i : Slot) (code : Nat) (s : State) : State :=
  let c := classify s.plan code (s.fin.slots.get i)
  logRecord .fault (word code) (word i.val) c.1.arg
    (s.onFin fun f => { f with slots := f.slots.set i { c.2 with lastCode := code } })

/-- A fault taken for a slot: disregarded whole by role, or classed, recorded, identified and routed (R85). -/
def takeFault (i : Slot) (code : Nat) (s : State) : State :=
  if (s.mpl.slots.get i).role.reports then
    let cls := (classify s.plan code (s.fin.slots.get i)).1.cls
    let s := recordFault i code s
    let s := s.onFin fun f => { f with lines := f.lines.modify (phaseOf i) IntakeLine.identify }
    if (s.mpl.slots.get i).role.isActive then faultEvent i ⟨cls, code⟩ s else nonActiveFault i s
  else s

/-- The fault code a status report is taken as, or none (R78). -/
def reportedCode (cell code : Word) : Option Nat :=
  if code = 0 then (if cell = 3 then some 63 else none) else if 63 < code.toNat then some 63 else some code.toNat

/-- A good frame at the Fault Intake: the latch and the status fault report (R78). -/
def statusReport (i : Slot) (cell code : Word) (s : State) : State :=
  match reportedCode cell code with
  | some c =>
    if (s.fin.slots.get i).latch then s
    else takeFault i c (s.onFin fun f => { f with slots := f.slots.modify i fun e => { e with latch := true } })
  | none => s.onFin fun f => { f with slots := f.slots.modify i fun e => { e with latch := false } }

/-- Part-made faults of one code for some slots, in ascending order (R79, R128, R136, R141). -/
def takeFaults (slots : List Slot) (code : Nat) (s : State) : State := slots.foldl (fun t i => takeFault i code t) s

/-! ## Fault lines (R80, R82) -/

/-- The active level of the fault lines: low for FALLING, high for RISING (R80). -/
def activeLevel (s : State) : Bool := s.plan.senseRising

/-- The Fault Intake takes edges from adoption until the return to UNARMED (R80). -/
def takesEdges (s : State) : Bool := s.bpu.isOpen

/-- An edge taken while the request flag is clear (R80, R81). -/
def newRequest (p : Phase) (s : State) : State :=
  let s := logRecord .fault 0 noSlot (phaseCode p) s
  let at_once := identifiedAtOnce p s
  let s := if at_once then s
    else s.onFin fun f =>
      { f with lines := f.lines.modify p fun l => { l with request := true, window := .load s.plan.identWindow } }
  lineEvent p s

/-- A transition of a fault line to a level, as the Fault Intake takes it (R80). -/
def takeLevel (p : Phase) (level : Bool) (s : State) : State :=
  let line := s.fin.lines.get p
  let s' := s.onFin fun f => { f with lines := f.lines.modify p fun l => { l with lastLevel := level } }
  if line.lastLevel ≠ level ∧ level = activeLevel s ∧ line.request = false then newRequest p s' else s'

/-- A transition of the line PFA_N, PFB_N or PFC_N to a level. -/
def lineTransition (p : Phase) (level : Bool) (s : State) : State :=
  let s := s.onPins fun q => { q with faultLine := q.faultLine.set p level }
  if takesEdges s then takeLevel p level s else s

/-- The phases whose identification window has expired (R82). -/
def windowExpired (l : IntakeLine) : Bool := l.request && l.window.due

def anyExpired (s : State) : Bool := Phase.all.any fun p => windowExpired (s.fin.lines.get p)

/-- The expiry is taken: the windows of the expired phases stop, and the report names them (R82, R99). -/
def takeIdentExpiry (s : State) : State :=
  let expired := anyExpired s
  identificationReport expired
    (s.onFin fun f =>
      { f with lines := f.lines.map fun l => if windowExpired l then { l with window := l.window.stop } else l })

end Sys2Proof.Machine
end

