-- ==== Sys2Proof/Machine/Link.lean ====
section
/-! DEFINITION. The Link Supervisor and what a frame does at the Restart Controller and the Capture Unit: outcomes,
link states, contactor confirmation, recharge, verification (R64 to R74, R126, R131 to R141). -/

namespace Sys2Proof.Machine

/-! ## Outcomes (R65) -/

/-- Words 0 to 6 of a status record (Table 2-3). -/
structure StatusWords where
  tag : Word
  cell : Word
  code : Word
  dc : Word
  temperature : Word
  feedback : Word
  check : Word
deriving DecidableEq, Repr

def StatusWords.sum (w : StatusWords) : Word := w.tag + w.cell + w.code + w.dc + w.temperature + w.feedback

/-- Words 0 to 6 of a slot's physical status record in memory (R60). -/
def readStatus (m : Memory) (i : Slot) : StatusWords :=
  { tag := m.read (physicalStatusAddr i 0), cell := m.read (physicalStatusAddr i 1),
    code := m.read (physicalStatusAddr i 2), dc := m.read (physicalStatusAddr i 3),
    temperature := m.read (physicalStatusAddr i 4), feedback := m.read (physicalStatusAddr i 5),
    check := m.read (physicalStatusAddr i 6) }

inductive FrameOutcome where
  | good (w : StatusWords)
  | errored
  | missed
deriving DecidableEq, Repr

def FrameOutcome.isGood : FrameOutcome → Bool
  | .good _ => true
  | .errored | .missed => false

/-- The outcome of a slot's frame, from its words or from the unsampled outcome of an overrun (R65). -/
def outcomeOf (l : LinkRecord) : Option StatusWords → FrameOutcome
  | none => .missed
  | some w => if w.check ≠ w.sum then .errored else if l.prevTag = some w.tag then .missed else .good w

/-! ## The supervision record (R66 to R70) -/

/-- LINK record codes (Table 4-3). -/
def linkRecord (code : Word) (i : Slot) (arg : Word) (s : State) : State := logRecord .link code (word i.val) arg s

def setLink (i : Slot) (l : LinkRecord) (s : State) : State := s.onLsv fun v => v.set i l

/-- The counts of R66 and the previous tag of R65. -/
def LinkRecord.count (l : LinkRecord) : FrameOutcome → LinkRecord
  | .good w => { l with prevTag := some w.tag, notGood := 0 }
  | .errored =>
    { l with errored := l.errored + 1, erroredSecond := satInc l.erroredSecond, notGood := boundedInc 255 l.notGood }
  | .missed => { l with missed := l.missed + 1, notGood := boundedInc 255 l.notGood }

/-- The wrap records of R66: code 7 ERRORED_WRAP, 8 MISSED_WRAP. -/
def logWraps (i : Slot) (o : FrameOutcome) (s : State) : State :=
  match o with
  | .good _ => s
  | .errored => if (s.lsv.get i).errored = 0 then linkRecord 7 i 0 s else s
  | .missed => if (s.lsv.get i).missed = 0 then linkRecord 8 i 0 s else s

/-- The runs of R68 in link states UP and DEGRADED. -/
def LinkRecord.runs (l : LinkRecord) : FrameOutcome → LinkRecord
  | .good _ => { l with goodRun := boundedInc 2 l.goodRun, erroredRun := 0 }
  | .errored => { l with erroredRun := boundedInc 2 l.erroredRun, goodRun := 0 }
  | .missed => l

/-- Entry to LOST: runs 0, no recovery window; a recently-lost timer stops where it is (R67, R70). -/
def LinkRecord.lose (l : LinkRecord) : LinkRecord :=
  { l with link := .lost, erroredRun := 0, goodRun := 0, window := none, recentTimer := l.recentTimer.stop }

/-- The return from LOST to UP (R69, R70). -/
def LinkRecord.recover (persistence : Nat) (l : LinkRecord) : LinkRecord :=
  { l with
    link := .up, notGood := 0, erroredRun := 0, goodRun := 0, window := none
    recentlyLost := decide (0 < persistence)
    recentTimer := if 0 < persistence then .load persistence else .stopped }

/-- The recovery window after a frame of a LOST slot (R69). -/
def LinkRecord.advance (l : LinkRecord) (good : Bool) : Option RecoveryWindow :=
  match l.window with
  | none => if good then some ⟨1, 1⟩ else none
  | some w => some ⟨w.seen + 1, if good then w.good + 1 else w.good⟩

/-- A frame of a LOST slot: the recovery window opens, runs, or closes (R69). -/
def superviseLost (i : Slot) (o : FrameOutcome) (s : State) : State :=
  let l := s.lsv.get i
  match l.advance o.isGood with
  | none => s
  | some w =>
    if w.seen < Config.recoveryFrames then setLink i { l with window := some w } s
    else if Config.recoveryGood ≤ w.good then
      linkRecord 2 i (word w.good) (setLink i (l.recover s.plan.persistence) s)
    else setLink i { l with window := none } s

/-- A frame of a slot in UP or DEGRADED: loss (R67), or the runs and their transitions, which a missed frame neither
makes nor ends (R68). The loss is judged first (log 15). -/
def superviseLive (i : Slot) (o : FrameOutcome) (s : State) : State :=
  let l := s.lsv.get i
  if o.isGood = false ∧ s.plan.lossFrames ≤ l.notGood then linkRecord 1 i l.link.code (setLink i l.lose s)
  else
    let l := l.runs o
    if o = .errored ∧ l.link = .up ∧ l.erroredRun = 2 then linkRecord 3 i 0 (setLink i { l with link := .degraded } s)
    else if o.isGood = true ∧ l.link = .degraded ∧ l.goodRun = 2 then linkRecord 4 i 0 (setLink i { l with link := .up } s)
    else setLink i l s

/-- The evaluation of one frame of a slot: the record and its LINK records (R65 to R70). -/
def supervise (i : Slot) (o : FrameOutcome) (s : State) : State :=
  let lost := (s.lsv.get i).link = .lost
  let s := logWraps i o (setLink i ((s.lsv.get i).count o) s)
  if lost then superviseLost i o s else superviseLive i o s

/-! ## A frame at the Restart Controller -/

/-- The feedback confirms the awaited command (R126). -/
def confirms (awaits : Bypass) (f : Feedback) : Bool :=
  match awaits, f with
  | .opened, .opened => true
  | .closed, .closed => true
  | .opened, .closed | .opened, .moving | .closed, .opened | .closed, .moving => false

/-- The last feedback seen is recorded; a confirmed slot leaves the watch list (R126). -/
def recordFeedback (i : Slot) (f : Feedback) (r : Rct) : Rct :=
  match r.watch.get i with
  | none => r
  | some e => { r with watch := r.watch.set i (if confirms e.awaits f then none else some { e with last := some f }) }

/-- Contactor confirmation: a list that empties leads on from ISOLATING or ARMING (R126, R127, R168). -/
def confirmContactor (i : Slot) (f : Feedback) (s : State) : State :=
  if (s.rct.watch.get i).isSome then
    let s := s.onRct (recordFeedback i f)
    if watchEmpty s.rct ∧ s.rct.contactor.running = true then
      match s.rct.restart with
      | .isolating => enterRecharging s
      | .arming => finishArming s
      | .unarmed | .normal | .tripped | .recharging | .verifying | .awaiting | .resuming | .proving | .lockout => s
    else s
  else s

/-- The DC bus lies in the ready band, both ends included (R134). -/
def inReadyBand (p : Settings) (dc : Word) : Bool := decide (p.readyLow ≤ dc.toNat) && decide (dc.toNat ≤ p.readyHigh)

def setProgress (i : Slot) (q : Progress) (s : State) : State :=
  s.onRct fun r => { r with progress := r.progress.set i (some q) }

/-- The conditions of an acknowledgement (R132). -/
def acknowledges (i : Slot) (w : StatusWords) (q : Progress) (s : State) : Bool :=
  s.rct.gateOpen && q.step == .resetSent && w.cell == 0 && w.code == 0 && !(s.fin.slots.get i).latch

/-- The settle judgement of an acknowledged slot (R134). -/
def Progress.judgeSettle (p : Settings) (dc : Word) (q : Progress) : Progress :=
  if q.step = .acknowledged then
    let n := if inReadyBand p dc then q.settle + 1 else 0
    { q with settle := n, step := if inReadyBand p dc ∧ p.settleFrames ≤ n then .settled else .acknowledged }
  else q

/-- The threshold judgement (R135). -/
def judgeThresholds (i : Slot) (dc : Word) (s : State) : State :=
  if dc.toNat < s.plan.dcUnder then takeFault i 67 s
  else if s.plan.dcOver < dc.toNat then takeFault i 68 s
  else s

/-- A good frame of an acknowledged or settled slot (R134, R135, R137). -/
def judgeRecharge (i : Slot) (dc : Word) (q : Progress) (s : State) : State :=
  let s := setProgress i (q.judgeSettle s.plan dc) s
  if allProgress (fun p => p.step == .settled) s.rct ∧ q.step = .acknowledged then enterVerifying s
  else judgeThresholds i dc s

/-- A good frame in RECHARGING of a slot with a progress record (R132 to R135). -/
def rechargeFrame (i : Slot) (w : StatusWords) (q : Progress) (s : State) : State :=
  if acknowledges i w q s then
    judgeRecharge i w.dc { q with step := .acknowledged }
      (submit .blockGate [⟨physicalCommandAddr i 0, .const 0⟩] s)
  else if q.step = .resetSent then s
  else judgeRecharge i w.dc q s

/-- The frame is clean (R138). -/
def isClean (i : Slot) (o : FrameOutcome) (s : State) : Bool :=
  match o with
  | .good w => w.cell == 0 && w.code == 0 && inReadyBand s.plan w.dc && !(s.lsv.get i).recentlyLost
  | .errored | .missed => false

/-- A frame in VERIFYING of a slot with a progress record (R139, R140). -/
def verifyFrame (i : Slot) (o : FrameOutcome) (q : Progress) (s : State) : State :=
  if q.verified then s
  else
    let n := if isClean i o s then q.cleanRun + 1 else 0
    let done := isClean i o s && decide (s.plan.verifyRun ≤ n)
    let s := setProgress i { q with cleanRun := n, verified := done } s
    if done ∧ allProgress Progress.verified s.rct then enterAwaiting 0 s else s

/-- The judgement of a frame by the state in which it is taken. -/
def judgeFrame (state : RestartState) (i : Slot) (o : FrameOutcome) (s : State) : State :=
  match state, s.rct.progress.get i with
  | .recharging, some q =>
    match o with
    | .good w => rechargeFrame i w q s
    | .errored | .missed => s
  | .verifying, some q => verifyFrame i o q s
  | _, _ => s

/-- A frame handed to the Restart Controller (R71). -/
def controllerFrame (i : Slot) (o : FrameOutcome) (s : State) : State :=
  let state := s.rct.restart
  let s := match o with
    | .good w => confirmContactor i (Feedback.ofWord w.feedback) s
    | .errored | .missed => s
  judgeFrame state i o s

/-! ## What the supervisor hands on (R71) -/

/-- The fields of a good frame of the capture range slot go to the Capture Unit. -/
def captureFrame (i : Slot) (o : FrameOutcome) (s : State) : State :=
  match o with
  | .good w =>
    if s.plan.captureSlot = some i then captureRange (if s.plan.captureTemperature then w.temperature else w.dc) s
    else s
  | .errored | .missed => s

def intakeFrame (i : Slot) (o : FrameOutcome) (s : State) : State :=
  match o with
  | .good w => statusReport i w.cell w.code s
  | .errored | .missed => s

/-- The loss report of a frame that made the link LOST, or the hand-on of a frame of a link UP or DEGRADED. A fault that
ends arming stops supervision with it (R59, R170). -/
def handOn (i : Slot) (wasLost : Bool) (o : FrameOutcome) (s : State) : State :=
  if (s.lsv.get i).link = .lost then (if wasLost then s else takeFault i 64 s)
  else
    let s := intakeFrame i o s
    if s.ssc.enabled then captureFrame i o (controllerFrame i o s) else s

/-- The Link Supervisor evaluates one frame of a slot and hands the result on; nothing once scanning has stopped
(R59, R65, R71). -/
def evaluateFrame (i : Slot) (w : Option StatusWords) (s : State) : State :=
  if s.ssc.enabled then
    let o := outcomeOf (s.lsv.get i) w
    let wasLost := (s.lsv.get i).link == .lost
    handOn i wasLost o (supervise i o s)
  else s

/-! ## One-second judgement (R73, R74) -/

/-- The runs and the marginal flag of a slot at a one-second interval. -/
def LinkRecord.judgeSecond (threshold : Nat) (l : LinkRecord) : LinkRecord :=
  let high := decide (threshold ≤ l.erroredSecond.toNat)
  let hr := if high then boundedInc 3 l.highRun else 0
  let lr := if high then 0 else boundedInc 3 l.lowRun
  { l with
    highRun := hr, lowRun := lr, erroredSecond := 0
    marginal := if hr = 3 then true else if lr = 3 then false else l.marginal }

/-- One slot at a one-second interval: code 5 MARGINAL_SET, 6 MARGINAL_CLEARED. -/
def secondOfSlot (i : Slot) (s : State) : State :=
  if s.mpl.fitted.get i then
    let l := s.lsv.get i
    let l' := l.judgeSecond s.plan.marginal
    let s := setLink i l' s
    if l'.marginal && !l.marginal then linkRecord 5 i l.erroredSecond s
    else if l.marginal && !l'.marginal then linkRecord 6 i l.erroredSecond s
    else s
  else s

def secondOfLinks (s : State) : State := allSlots.foldl (fun t i => secondOfSlot i t) s

end Sys2Proof.Machine
end

