-- ==== Sys2Proof/Machine/Scan.lean ====
section
/-! DEFINITION. The Status Scanner: start, advance, end and overrun of a scan (R59 to R63, R82, R98, R141). -/

namespace Sys2Proof.Machine

/-- The fitted slots from a slot upward, ascending. -/
def fittedFrom (s : State) (i : Nat) : List Slot := allSlots.filter fun j => decide (i ≤ j.val) && s.mpl.fitted.get j

/-- A scan starts at the lowest fitted slot (R60); it has begun after any entry to TRIPPED so far (R98, log 20). -/
def startScan (s : State) : State :=
  match (fittedFrom s 0).head? with
  | none => s.onSsc fun c => { c with inProgress := false, position := none, ended := false }
  | some i =>
    (s.onSsc fun c => { c with inProgress := true, position := some i, ended := false }).onRct
      fun r => { r with scanSinceTrip := true }

/-- The slots that are not verified (R141). -/
def unverified (r : Rct) : List Slot :=
  allSlots.filter fun i => match r.progress.get i with | some p => !p.verified | none => false

/-- The verify window has expired at a scan end (R141). -/
def verifyExpired (s : State) : Bool := s.rct.restart == .verifying && s.rct.verify.due

def takeVerifyExpiry (s : State) : State := takeFaults (unverified s.rct) 69 s

/-- A scan end at the Restart Controller and the Fault Intake (R61, R62): the settling scan, then the expiries with the
identification report, then in VERIFYING the verify window (R82, R98, R99, R141). -/
def scanEnd (s : State) : State :=
  let s := takeIdentExpiry (takeScanEnd s)
  if verifyExpired s then takeVerifyExpiry s else s

/-- The tenure of the highest fitted slot has ended: no scan is in progress, and the scan end is delivered (R61; log 3). -/
def deliverScanEnd (s : State) : State :=
  scanEnd (s.onSsc fun c => { c with inProgress := false, position := none, ended := true })

/-- A running status read has its data discarded (R62). -/
def discardRead (s : State) : State :=
  s.onMpa fun m => { m with holder := m.holder.map Holder.discarded }

/-- A FRAME edge overruns the running scan (R62). Its scan end is judged before the edge counts the windows down (R82,
R141). -/
def overrunScan (i : Slot) (s : State) : State :=
  let s := (fittedFrom s i.val).foldl (fun t j => evaluateFrame j none t) (discardRead s)
  if s.ssc.enabled then
    startScan ((scanEnd s).onSsc fun c => { c with overrun := satInc c.overrun })
  else s

/-- Expiries that stand at a scan end which no command has taken: no frame of the next scan comes before them. The scan end
itself leaves none (R82, R141; log 3). -/
def lateExpiries (s : State) : State :=
  if s.ssc.ended then
    let s := if anyExpired s then takeIdentExpiry s else s
    if verifyExpired s then takeVerifyExpiry s else s
  else s

/-- A FRAME edge at the scanner (R60, R62). -/
def frameScan (s : State) : State :=
  if s.ssc.enabled then
    match s.ssc.inProgress, s.ssc.position with
    | true, some i => overrunScan i s
    | _, _ => startScan (lateExpiries s)
  else s

/-- The scan moves past a slot that has been read (R60, R61). -/
def advanceScan (i : Slot) (s : State) : State :=
  if s.ssc.enabled then
    match (fittedFrom s (i.val + 1)).head? with
    | some j => s.onSsc fun c => { c with position := some j }
    | none => deliverScanEnd s
  else s

end Sys2Proof.Machine
end

