-- ==== Sys2Proof/Machine/Arming.lean ====
section
/-! DEFINITION. The Plan Loader: the plan read, the checks, refusal, and the adoption of the initial map with the
settings handed to every block (R1, R13 to R16, R64, R77, R88, R94, R142, R154, R165 to R171). -/

namespace Sys2Proof.Machine

/-! ## The plan block (Table 2-5, R25) -/

def planWord (p : List Word) (o : Nat) : Word := p.getD o 0
def planNat (p : List Word) (o : Nat) : Nat := (planWord p o).toNat

def planSum (p : List Word) : Word := p.foldl (· + ·) 0

/-- The fitted flag of a slot: bit i of the low eight bits of word 4, 5 or 6 (R1). -/
def planFitted (p : List Word) (i : Slot) : Bool := (planWord p (4 + (phaseOf i).num)).getLsbD (indexOf i)

/-- The slots named in the release list (R13). -/
def planReleases (p : List Word) (i : Slot) : Bool :=
  (List.range (planNat p 42)).any fun j => planNat p (43 + j) == i.val

def entryOffset (j : Nat) : Nat := 68 + 9 * j

def planEntry (p : List Word) (j : Nat) : RebalanceEntry :=
  let o := entryOffset j
  { key := ⟨planNat p o, planNat p (o + 1), planNat p (o + 2)⟩
    angle := ⟨planWord p (o + 3), planWord p (o + 4), planWord p (o + 5)⟩
    scale := ⟨planWord p (o + 6), planWord p (o + 7), planWord p (o + 8)⟩ }

def planTable (p : List Word) : List RebalanceEntry := (List.range (planNat p 67)).map (planEntry p)

def planRounding (p : List Word) : Rounding :=
  if planWord p 12 = 0 then .nearestEven else if planWord p 12 = 1 then .down else .up

/-- The settings of a plan (Table 2-5). -/
def planSettings (p : List Word) : Settings :=
  { minActive := planNat p 3
    senseRising := planWord p 7 == 1
    hardFlags := planWord p 11 ++ planWord p 10 ++ planWord p 9 ++ planWord p 8
    rounding := planRounding p
    staleTrip := planWord p 13 == 1
    controlPeriod := planNat p 14
    budget := planNat p 15
    contactorTimeout := planNat p 16
    rechargeTimeout := planNat p 17
    settleFrames := planNat p 18
    verifyRun := planNat p 19
    verifyWindow := planNat p 20
    freshTimeout := planNat p 21
    provingWindow := planNat p 22
    identWindow := planNat p 23
    lossFrames := planNat p 24
    persistence := planNat p 25
    marginal := planNat p 26
    strikeLimit := planNat p 27
    strikeSeconds := planNat p 28
    maxPasses := planNat p 29
    dcUnder := planNat p 30
    readyLow := planNat p 31
    readyHigh := planNat p 32
    dcOver := planNat p 33
    captureSlot := if h : planNat p 36 < 24 then some ⟨planNat p 36, h⟩ else none
    captureTemperature := planWord p 37 == 1
    captureLow := planWord p 38
    captureHigh := planWord p 39
    captureLeave := planWord p 40 == 1
    capturePost := planNat p 41 }

/-! ## The checks (R167) -/

def between (lo n hi : Nat) : Bool := decide (lo ≤ n) && decide (n ≤ hi)

/-- The fixed fields with a range, ascending: offset, least, greatest value (Table 2-5). -/
def rangeTable : List (Nat × Nat × Nat) :=
  [(2, 2, 8), (7, 0, 1), (12, 0, 2), (13, 0, 1), (14, 1, 255), (15, 100, 3000), (16, 20, 1000), (17, 50, 5000),
   (18, 1, 255), (19, 2, 32), (20, 16, 8192), (21, 10, 5000), (22, 200, 10000), (23, 1, 64), (24, 4, 255),
   (25, 0, 1000), (26, 1, 65535), (27, 1, 7), (28, 1, 600), (29, 1, 4), (34, 16, 255), (37, 0, 1), (40, 0, 1),
   (41, 0, 63), (42, 0, 24), (67, 0, 32)]

def rangeOf (o : Nat) : Option (Nat × Nat) := (rangeTable.find? fun r => r.1 == o).map Prod.snd

/-- A field of a rebalance entry at its place 0 to 8: deficits 0 to 7 and not all 0 (judged at dA), scales 4096 to
16384 (R167). -/
def entryFieldOk (p : List Word) (j place : Nat) : Bool :=
  let v := planNat p (entryOffset j + place)
  if place = 0 then decide (v ≤ 7) && (planEntry p j).key != PerPhase.all 0
  else if place < 3 then decide (v ≤ 7)
  else if place < 6 then true
  else between 4096 v 16384

/-- The field at an offset lies in its range (R167). -/
def fieldOk (p : List Word) (o : Nat) : Bool :=
  let v := planNat p o
  if o = 3 then between 1 v (planNat p 2)
  else if o = 36 then decide (v < 24) || v == 65535
  else if 43 ≤ o ∧ o ≤ 66 then !decide (o - 43 < planNat p 42) || decide (v < 24)
  else if 68 ≤ o then entryFieldOk p ((o - 68) / 9) ((o - 68) % 9)
  else
    match rangeOf o with
    | some (lo, hi) => between lo v hi
    | none => true

/-- The offset of the first field out of range (R167, check 3). -/
def firstOutOfRange (p : List Word) (n : Nat) : Option Nat := (List.range n).find? fun o => !fieldOk p o

/-- Check 4 (R167). -/
def thresholdsOrdered (p : List Word) : Bool :=
  decide (planNat p 30 < planNat p 31) && decide (planNat p 31 < planNat p 32) && decide (planNat p 32 < planNat p 33)
    && (if planWord p 37 = 1 then (planWord p 38).sle (planWord p 39) else (planWord p 38).ule (planWord p 39))

/-- Check 5: no two entries carry the same triple. -/
def keysDistinct : List RebalanceEntry → Bool
  | [] => true
  | e :: rest => rest.all (fun f => f.key != e.key) && keysDistinct rest

/-- The initial map a plan builds (R14, R15). -/
def planBuild (p : List Word) (m : SlotMap) : Rebalanced :=
  rebalance (planTable p) (planRounding p) (planNat p 2) (initialMap (planFitted p) (planReleases p) (planNat p 2) m)

/-- The six checks in order: the refusal with its argument, or none for an accepted plan (R167). -/
def planRefusal (p : List Word) (m : SlotMap) : Option (ArmResult × Word) :=
  if planNat p 0 ≠ 67 + 9 * planNat p 67 then some (.length, 0)
  else if planSum p ≠ 0 then some (.check, 0)
  else
    match firstOutOfRange p (planNat p 0 + 1) with
    | some o => some (.range, word o)
    | none =>
      if !thresholdsOrdered p then some (.thresholdOrder, 0)
      else if !keysDistinct (planTable p) then some (.duplicateKey, 0)
      else if (shortPhase (planNat p 3) (planBuild p m).slots).isSome then some (.infeasible, 0)
      else none

/-! ## Refusal (R165, R167) -/

def setArmResult (r : ArmResult) (arg : Word) (s : State) : State := s.onPld fun p => { p with result := r, arg := arg }

/-- The return to UNARMED with an arm result before adoption; a map image job is queued (R19, log 21). -/
def endBeforeAdoption (r : ArmResult) (arg : Word) (s : State) : State :=
  queueMapImage false (quiesce (closeLog none r.code (setArmResult r arg s)))

/-- A plan is refused: with the block-all of R110 (R167). -/
def refusePlan (r : ArmResult) (arg : Word) (s : State) : State := endBeforeAdoption r arg (blockAll s)

/-! ## Adoption (R16, R168) -/

/-- The map, the fitted set, K and the table take their values; the counts are cleared (R10, R16). -/
def adoptMap (p : List Word) (m : Mpl) : Mpl :=
  let r := planBuild p m.slots
  { m with
    fitted := PerSlot.ofFn (planFitted p)
    k := planNat p 2
    slots := commandBypass r.slots
    phases := PerPhase.ofFn fun q => ⟨r.angle.get q, r.scale.get q, 0, 0⟩
    table := planTable p }

/-- The Fault Intake at adoption (R77): the last codes are kept, the line levels are sampled. -/
def adoptIntake (levels : PerPhase Bool) (f : Intake) : Intake :=
  { slots := f.slots.map fun e => ⟨false, 0, e.strikeTimer.stop, e.lastCode⟩
    lines := PerPhase.ofFn fun p => ⟨false, levels.get p, (f.lines.get p).window.stop⟩ }

/-- The Restart Controller at adoption (R94). -/
def adoptRct (r : Rct) : Rct :=
  { r with
    mode := .standstill, passCount := 0, cause := none, tripCause := none, directionAtTrip := r.direction
    pendingFaults := PerSlot.all none }

/-- The Hoist Interface at adoption (R154). -/
def adoptHif (period : Nat) (h : Hif) : Hif :=
  { h with proofNeeded := true, tagChanged := false, stale := 0, period := .load period }

/-- The settings and the cleared state of every block but the log and the Write Engine (R168). -/
def adoptBlocks (s : State) : State :=
  let p := s.pld.copy
  { s with
    mpl := adoptMap p s.mpl
    plan := planSettings p
    bpu := { s.bpu with isOpen := true, counts := .zero }
    ssc := { s.ssc with enabled := true, overrun := 0 }
    lsv := PerSlot.all .reset
    fin := adoptIntake s.pins.faultLine s.fin
    rct := adoptRct s.rct
    rfs := .reset
    hif := adoptHif (planNat p 14) s.hif
    cap := .reset
    itm := ⟨true, 0, 0, 0, 0⟩
    pld := { s.pld with cursor := .none, result := .accepted, arg := 0 } }

/-- The log starts (R171); log record jobs of an earlier period leave with the write list (log 18). -/
def startLog (capacity : Nat) (mask : Word) (s : State) : State :=
  let s := cancel JobKind.isLogRecord (takeRecordCompletions s)
  let s := s.onLog fun l =>
    { l with
      running := true, capacity := capacity, producer := 0, written := 0, consumer := 0, overflow := 0
      marks := List.replicate capacity false, writeList := [], irqMask := mask, irqN := true, irqHeld := false }
  let s := submit .logHeader
    [⟨logHeaderAddr 0, .const 0⟩, ⟨logHeaderAddr 2, .const (word capacity)⟩, ⟨logHeaderAddr 3, .const 0⟩,
     ⟨logHeaderAddr 4, .const s.log.lastCategory⟩] s
  logRecord .arm ArmResult.accepted.code noSlot 0 (logRecord .sequence RestartState.arming.code noSlot 0 s)

/-- The reset-block job (R36). -/
def submitResetBlock (s : State) : State :=
  submit .resetBlock (allSlots.map fun i => ⟨physicalCommandAddr i 0, .const 0⟩) s

def fittedSlots (s : State) : List Slot := fittedFrom s 0

/-- Adoption of the initial map of the plan copy: blocks, then jobs in the order of R16, R88 and R171 (log 18), then the
contactor timer (R168). -/
def adopt (s : State) : State :=
  let p := s.pld.copy
  let s := submitResetBlock (adoptBlocks s)
  let slots := fittedSlots s
  let s := queueCaptureHeader (bumpGeneration (commandContactors slots s))
  let s := logCommanded slots (startLog (planNat p 34) (planWord p 35) s)
  (s.onRct fun r => { r with contactor := .load s.plan.contactorTimeout }).onPld fun d => { d with copy := [] }

/-! ## The plan read (R166) -/

/-- Plan word o: 0x00800 + o; drive word w: 0x00400 + w (R22). -/
def planAddr (o : Nat) : Addr := BitVec.ofNat 18 (0x800 + o)
def driveAddr (w : Nat) : Addr := BitVec.ofNat 18 (0x400 + w)

/-- The copies handed over at the end of the drive record tenure (R94, R154, R166). -/
def handOverDrive (s : State) : State :=
  (s.onRct fun r =>
    { r with
      direction := Direction.ofWord (s.mem.read (driveAddr 1))
      restartEnable := s.mem.read (driveAddr 3) == 1 }).onHif
    fun h => { h with lastTag := s.mem.read (driveAddr 0) }

/-- The checks run on the plan copy: refusal or adoption (R167, R168). -/
def judgePlan (s : State) : State :=
  match planRefusal s.pld.copy s.mpl.slots with
  | some (r, arg) => refusePlan r arg s
  | none => adopt s

/-- Word 0 has been read (R166). -/
def takeLength (w : Word) (s : State) : State :=
  if 1023 < w.toNat ∨ w.toNat < 67 then refusePlan .length 0 (s.onPld fun p => { p with planLength := w.toNat + 1 })
  else s.onPld fun p => { p with planLength := w.toNat + 1, copy := [w], cursor := .word 1 }

/-- Words from an offset on have been read, 8 or fewer (R166). -/
def takePlanWords (o : Nat) (s : State) : State :=
  let count := min 8 (s.pld.planLength - o)
  let ws := (List.range count).map fun j => s.mem.read (planAddr (o + j))
  s.onPld fun p =>
    { p with
      copy := p.copy ++ ws
      cursor := if p.planLength ≤ o + count then .drive else .word (o + count) }

/-- The end of a plan or drive record tenure whose data is not discarded (R166). -/
def takePlanTenure (s : State) : State :=
  match s.pld.cursor with
  | .none => s
  | .word 0 => takeLength (s.mem.read (planAddr 0)) s
  | .word (o + 1) => takePlanWords (o + 1) s
  | .drive => judgePlan (handOverDrive s)

/-! ## ARM rising (R165) -/

/-- A new ARM rising cancels a disarm image job and a closing job that have not completed (R20, R174; log 22). -/
def JobKind.leftByDisarm : JobKind → Bool
  | .mapImage disarm => disarm
  | .logRecord closing => closing
  | .resetBlock | .blockAll | .contactor | .resetGate | .blockGate | .release | .logHeader | .captureDump
  | .captureHeader => false

def cancelDisarmReports (s : State) : State :=
  (cancel JobKind.leftByDisarm (takeRecordCompletions s)).onLog fun l => { l with writeList := l.writeList.filter (!·.closing) }

/-- A passed write to a physical command record, the plan region or the map image, which no host write reaches while the
part is armed (L10). -/
def Need.isProtected : Need → Bool
  | .passWrite a _ _ =>
    match regionOf a with
    | .physicalCommand | .planOrImage => true
    | .logicalCommand _ _ | .logicalStatus _ _ | .capture | .log | .drive _ | .other => false
  | .read .. | .translated .. | .pair .. | .commitAlone .. => false

/-- A passed write to the drive record is watched, since its tenure ends while the part is armed (R43). -/
def Need.watchedDrive : Need → Need
  | .passWrite a v d =>
    match regionOf a with
    | .drive w => .passWrite a v (driveDelivery w v)
    | .logicalCommand _ _ | .logicalStatus _ _ | .physicalCommand | .planOrImage | .capture | .log | .other =>
      .passWrite a v d
  | .read a l => .read a l
  | .translated r w a v => .translated r w a v
  | .pair r i m g => .pair r i m g
  | .commitAlone p i m t u => .commitAlone p i m t u

/-- The BPU's needs at ARM rising. DESIGN CHOICE (log 39): a write to a protected region that still waits for the port is
absorbed, where R37 carries a pass out as decided and L10 and R40 let none land while armed; one whose tenure has begun
is performed whole, before the plan read. -/
def needsAtArming (s : State) : List Need :=
  (runningNeeds s ++ (waitingNeeds s).filter (!·.isProtected)).map Need.watchedDrive

/-- ARM rising in UNARMED with RESET_N high (R165). -/
def armRise (s : State) : State :=
  let s := enter .arming noSlot 0 (cancelDisarmReports s)
  if s.pins.brakeSet then
    (s.onBpu fun b => { b with needs := needsAtArming s }).onPld fun p => { p with cursor := .word 0, copy := [] }
  else endBeforeAdoption .brakeNotSet 0 s

end Sys2Proof.Machine
end

