-- ==== Sys2Proof/Machine/Port.lean ====
section
/-! DEFINITION. The memory port: filling of the staging buffers (R32 to R34, R150 to R152), the grant with its fairness
count and the recheck of translated writes (R27 to R29, R46), and the settling of both at the end of a command (log 7). -/

namespace Sys2Proof.Machine

/-! ## Live or held (R146) -/

/-- Table 9-2: whether a write of word w of a record is live in the state in force. Word 4 is refused in every state
(R45). -/
def isLive (s : State) (r : Rec) (w : Fin 8) : Bool :=
  if w = 4 then false
  else
    match s.rct.restart with
    | .normal => true
    | .proving => w != 0
    | .resuming =>
      if w = 0 then false
      else if w.val < 4 then
        match s.rfs.cursor with
        | some c => decide (r.val ≤ c.val)
        | none => false
      else s.rfs.stage == some .gates
    | .unarmed | .arming | .tripped | .isolating | .recharging | .verifying | .awaiting | .lockout => false

/-- A held auxiliary write is appended, or refused with AUX_FULL (R147). -/
def holdAux (r : Rec) (i : Fin 3) (v : Word) (s : State) : State :=
  if s.rfs.aux.length < Config.auxCapacity then s.onRfs fun f => { f with aux := f.aux ++ [⟨r, i, v⟩] }
  else countRefusal .addAuxFull s

/-! ## Forming of values (R33) -/

/-- The value a write takes when it is staged, with the count a saturated amplitude makes (R33, R150). -/
def formValue (src : Source) (s : State) : State × Word :=
  match src with
  | .const v => (s, v)
  | .commandedBypass i => (s, (s.mpl.slots.get i).bypass.code)
  | .mapImage o => (s, mapImageWord s o)
  | .overflowCount => (s, s.log.overflow)
  | .captureHeader w => (s, captureHeaderWord s.cap w)
  | .captureEntry e w => (s, captureEntryWord s.cap e w)
  | .refAmplitude r =>
    let a := amplitudeOf s r (s.rfs.image.get r).amplitude
    (if a.2 then countSaturation (phaseOf r) s else s, a.1)
  | .refAngle r => (s, angleOf s r (s.rfs.image.get r).angle)
  | .refCarrier r => (s, carrierOf s r (s.rfs.image.get r).carrier)
  | .gateIntent i =>
    (s, match recordOfSlot s i with | some r => (s.rfs.image.get r).gate | none => 0)

def formWrites : List JobWrite → State → State × List (Addr × Word)
  | [], s => (s, [])
  | w :: ws, s =>
    let a := formValue w.source s
    let b := formWrites ws a.1
    (b.1, (w.addr, a.2) :: b.2)

/-! ## Filling (R33, R34) -/

/-- The job has writes it has not staged; a release has until its gates are staged (R32). -/
def Job.isOpen (stage : Option ReleaseStage) (j : Job) : Bool :=
  match j.kind with
  | .release => (stage.isSome && stage != some .gates) || j.todo != []
  | .resetBlock | .blockAll | .contactor | .resetGate | .blockGate | .mapImage _ | .logRecord _ | .logHeader
  | .captureDump | .captureHeader => j.todo != []

/-- The first job of a list that is open: the head job for staging. -/
def headOpen (stage : Option ReleaseStage) (js : List Job) : Option Job := js.find? (·.isOpen stage)

/-- The first open job of a list replaced by what it has become. -/
def replaceOpen (stage : Option ReleaseStage) (j' : Job) : List Job → List Job
  | [] => []
  | j :: js => if j.isOpen stage then j' :: js else j :: replaceOpen stage j' js

def Buffer.isEmpty : Buffer → Bool
  | .empty => true
  | .ready _ | .writing _ => false

def Buffer.isReady : Buffer → Bool
  | .ready _ => true
  | .empty | .writing _ => false

def BufferId.other : BufferId → BufferId
  | .x => .y
  | .y => .x

/-- A buffer turns READY; with the other READY too, the other was filled first. -/
def Wen.ready (w : Wen) (b : BufferId) (u : Burst) : Wen :=
  let otherReady := (w.buffer b.other).isReady
  { w.setBuffer b (.ready u) with xOlder := match b with | .x => !otherReady | .y => otherReady }

/-- The record of the last word-3 write among some writes (R150). -/
def lastCarrier (ws : List JobWrite) : Option Rec :=
  ws.foldl (fun c w => match w.source with | .refCarrier r => some r | _ => c) none

/-- Up to eight writes of the head job of a class are staged (R33). -/
def stageJob (b : BufferId) (c : JobClass) (j : Job) (s : State) : State :=
  let stage := s.rfs.stage
  let rest := j.todo.drop Config.burstLength
  let formed := formWrites (j.todo.take Config.burstLength) s
  let last := rest == [] && (j.kind != .release || stage == some .gates)
  let s := formed.1.onWen fun w =>
    (w.setJobs c (replaceOpen stage { j with todo := rest } (w.jobs c))).ready b
      ⟨j.kind, formed.2, lastCarrier (j.todo.take Config.burstLength), last⟩
  if j.kind == .release && stage == some .references && rest == [] then
    s.onRfs fun f => { f with stage := some (.auxiliary false) }
  else s

/-! ## The auxiliary drain (R151) -/

/-- A fill from the head of the auxiliary list: the writes, the entries left, the records discarded as dark. -/
def drainAux (slot : Rec → Option Slot) : List AuxEntry → Nat → List (Addr × Word) × List AuxEntry × List Rec
  | [], _ => ([], [], [])
  | e :: es, 0 => ([], e :: es, [])
  | e :: es, n + 1 =>
    match slot e.record with
    | some i =>
      let d := drainAux slot es n
      ((physicalCommandAddr i (5 + e.aux.val), e.value) :: d.1, d.2.1, d.2.2)
    | none =>
      let d := drainAux slot es (n + 1)
      (d.1, d.2.1, e.record :: d.2.2)

/-- The MAP record of an auxiliary entry discarded at the drain (Table 7-3, code 8). -/
def logDiscarded (r : Rec) (s : State) : State := logRecord .map 8 noSlot (word r.val) s

def drain (s : State) : List (Addr × Word) × State :=
  let d := drainAux (slotOfRecord s) s.rfs.aux Config.burstLength
  (d.1, d.2.2.foldl (fun t r => logDiscarded r t) (s.onRfs fun f => { f with aux := d.2.1 }))

def Buffer.holdsRelease : Buffer → Bool
  | .ready u => u.kind == .release
  | .writing u => u.kind == .release
  | .empty => false

/-- The final gate burst: word 0 of each ACTIVE slot, ascending (R152). -/
def gateWrites (s : State) : List JobWrite :=
  (activeSlots s.mpl.slots).map fun i => ⟨physicalCommandAddr i 0, .gateIntent i⟩

/-- A release whose job has left its list (R32, R152). -/
def Wen.complete (w : Wen) (k : JobKind) : Wen :=
  (w.setJobs k.cls ((w.jobs k.cls).eraseP (·.kind == k))).note k

def Wen.setTodo (ws : List JobWrite) : List Job → List Job
  | [] => []
  | j :: js => if j.kind == .release then { j with todo := ws } :: js else j :: Wen.setTodo ws js

/-- A release write has been staged and not performed. -/
def releaseStaged (s : State) : Bool := s.wen.x.holdsRelease || s.wen.y.holdsRelease

/-- Stage GATES begins: the gate writes are the job's, and with no ACTIVE slot the job is complete (R152). -/
def startGates (s : State) : State :=
  let gates := gateWrites s
  (s.onRfs fun f => { f with stage := some .gates }).onWen fun w =>
    let w := { w with jobs2 := Wen.setTodo gates w.jobs2 }
    if gates = [] then w.complete .release else w

/-- Every release write staged so far has been performed: with the list empty stage AUXILIARY ends, and otherwise the
drain goes on (R151). -/
def releaseAdvance (s : State) : State :=
  match s.rfs.stage with
  | some (.auxiliary _) =>
    if releaseStaged s then s
    else if s.rfs.aux = [] then startGates s
    else s.onRfs fun f => { f with stage := some (.auxiliary false) }
  | none | some .references | some .gates => s

/-- A fill in stage AUXILIARY: drained writes; or, the list empty, a wait for the release writes staged so far, or the
gates if none is left to wait for (R151). -/
def stageAuxiliary (b : BufferId) (s : State) : State :=
  let d := drain s
  if d.1 = [] then
    if releaseStaged d.2 then d.2.onRfs fun f => { f with stage := some (.auxiliary true) }
    else
      let s := releaseAdvance d.2
      match headOpen s.rfs.stage s.wen.jobs2 with
      | some j => if s.rfs.stage = some .gates then stageJob b .two j s else s
      | none => s
  else d.2.onWen fun w => w.ready b ⟨.release, d.1, none, false⟩

/-- The release job waits without filling (R151). -/
def releaseWaits (s : State) : Bool := s.rfs.stage == some (.auxiliary true) && releaseStaged s

/-- The stage is AUXILIARY. -/
def inAuxiliary (s : State) : Bool :=
  s.rfs.stage == some (.auxiliary false) || s.rfs.stage == some (.auxiliary true)

/-- A fill from the head job of class 2 (R33, R150 to R152). -/
def stageTwo (b : BufferId) (s : State) : State :=
  match headOpen s.rfs.stage s.wen.jobs2 with
  | none => s
  | some j =>
    if j.kind = .release ∧ inAuxiliary s = true then (if releaseWaits s then s else stageAuxiliary b s)
    else stageJob b .two j s

def stageThree (b : BufferId) (s : State) : State :=
  match headOpen s.rfs.stage s.wen.jobs3 with
  | none => s
  | some j => stageJob b .three j s

/-- An EMPTY buffer is filled from class 1, or, while the other is not READY, from class 2 or failing that class 3
(R33). -/
def fillBuffer (b : BufferId) (s : State) : State :=
  if (s.wen.buffer b).isEmpty then
    match headOpen s.rfs.stage s.wen.jobs1 with
    | some j => stageJob b .one j s
    | none =>
      if (s.wen.buffer b.other).isReady then s
      else
        let s := stageTwo b s
        if (s.wen.buffer b).isEmpty then stageThree b s else s
  else s

def fill (s : State) : State := fillBuffer .y (fillBuffer .x s)

/-! ## The grant (R27 to R29, R46) -/

def Buffer.readyClass : Buffer → Option JobClass
  | .ready u => some u.kind.cls
  | .empty | .writing _ => none

/-- The READY buffer of a class, the one filled first if both are. -/
def Wen.readyOf (w : Wen) (c : JobClass) : Option BufferId :=
  let order : List BufferId := if w.xOlder then [.x, .y] else [.y, .x]
  order.find? fun b => (w.buffer b).readyClass == some c

/-- A ready buffer of class 2 or 3 exists (R29). -/
def lowerReady (s : State) : Bool := (s.wen.readyOf .two).isSome || (s.wen.readyOf .three).isSome

/-- A read in progress: the scanner's slot, or the plan loader (R27). -/
def readInProgress (s : State) : Option Holder :=
  if s.ssc.inProgress then s.ssc.position.map fun i => .ssc i false
  else if s.pld.cursor = .none then none
  else some (.pld false)

def bpuRequest (s : State) : Option Holder := if s.bpu.needs = [] then none else some .bpu

def wenRequest (s : State) (c : JobClass) : Option Holder := (s.wen.readyOf c).map .wen

/-- The requester a boundary grants the port to (R28, R29). While RESET_N is low only the BPU requests (R31). -/
def choose (s : State) : Option Holder :=
  if s.pins.resetN then
    wenRequest s .one <|> readInProgress s
      <|> (if s.mpa.fair = Config.fairLimit ∧ lowerReady s = true then
            wenRequest s .two <|> wenRequest s .three <|> bpuRequest s
          else bpuRequest s <|> wenRequest s .two <|> wenRequest s .three)
  else bpuRequest s

/-- The consecutive-host-grant count at a grant to the BPU (R29). -/
def bpuFair (s : State) : Nat := if lowerReady s then boundedInc Config.fairLimit s.mpa.fair else 0

/-- A translated write or a pair would still be live at its grant (R46). -/
def stillLive (s : State) : Need → Bool
  | .translated r w _ _ => isLive s r w
  | .pair r _ _ _ => isLive s r 2
  | .passWrite .. | .read .. | .commitAlone .. => true

/-- A stopped write leaves the needs; a stopped aux word is held (R46). -/
def stopNeed (n : Need) (s : State) : State :=
  let s := s.onBpu fun b => { b with needs := b.needs.drop 1 }
  match n with
  | .translated r w _ v => if 5 ≤ w.val then holdAux r (Fin.ofNat 3 (w.val - 5)) v s else s
  | .passWrite .. | .read .. | .pair .. | .commitAlone .. => s

def Job.markBegun (k : JobKind) : List Job → List Job
  | [] => []
  | j :: js => if j.kind == k then { j with begun := true } :: js else j :: Job.markBegun k js

/-- A READY buffer turns WRITING; its job has begun writing (R19, R33). -/
def startBuffer (b : BufferId) (w : Wen) : Wen :=
  match w.buffer b with
  | .ready u => (w.setBuffer b (.writing u)).setJobs u.kind.cls (Job.markBegun u.kind (w.jobs u.kind.cls))
  | .empty | .writing _ => w

/-- The class whose grant a buffer's tenure is, for the count of R29. -/
def wenFair (b : BufferId) (s : State) : Nat :=
  match (s.wen.buffer b).readyClass with
  | some .one => s.mpa.fair
  | some .two | some .three => 0
  | none => s.mpa.fair

/-- The grants of a boundary: one, unless a translated write is stopped at its grant, which makes a boundary again
(R28, R46; log 13). -/
def grantLoop : Nat → State → State
  | 0, s => s
  | n + 1, s =>
    match choose s with
    | none => s
    | some (.wen b) => (s.onMpa fun _ => ⟨some (.wen b), wenFair b s⟩).onWen (startBuffer b)
    | some (.ssc i d) => s.onMpa fun m => { m with holder := some (.ssc i d) }
    | some (.pld d) => s.onMpa fun m => { m with holder := some (.pld d) }
    | some .bpu =>
      match s.bpu.needs with
      | [] => s
      | need :: _ =>
        if stillLive s need then s.onMpa fun _ => ⟨some .bpu, bpuFair s⟩
        else grantLoop n (stopNeed need (s.onMpa fun m => { m with fair := bpuFair s }))

/-- A boundary is decided while the port is idle (R28). -/
def grant (s : State) : State :=
  match s.mpa.holder with
  | some _ => s
  | none => grantLoop (s.bpu.needs.length + 1) s

/-- The end of a command at the port: buffers are filled before the arbiter decides, and after it (R33, log 7). -/
def settle (s : State) : State := fill (grant (fill s))

end Sys2Proof.Machine
end

