-- ==== Sys2Proof/Machine/Passage.lean ====
section
/-! DEFINITION. The passage of host accesses: the logical command window with its pair latches (R44 to R53), the reads
of the logical windows (R55, R56), the other regions (R37 to R43), and the tenures of the BPU (R30, R43). -/

namespace Sys2Proof.Machine

/-! ## Needs -/

def pushNeed (n : Need) (s : State) : State := s.onBpu fun b => { b with needs := b.needs ++ [n] }

/-- The word the host is answered with at once (R30). -/
def answerHost (v : Word) (s : State) : State := s.onBpu fun b => { b with hostData := v }

/-! ## Pair latches (R51 to R53) -/

def setLatch (p : Phase) (l : Option Latch) (s : State) : State :=
  s.onBpu fun b => { b with latches := b.latches.set p l }

def latchOf (s : State) (p : Phase) : Option Latch := s.bpu.latches.get p

/-- A commit alone: a BPU tenure that writes the held amplitude, counted as a torn pair (R51; log 14). -/
def commitAlone (p : Phase) (l : Latch) (s : State) : State :=
  let inTotal := decide ((s.mpl.phases.get p).torn ≠ 0xFFFF)
  let inSecond := s.bpu.isOpen && decide (s.bpu.counts.tornPair ≠ 0xFFFF)
  let s := s.onMpl fun m => { m with phases := m.phases.modify p fun r => { r with torn := satInc r.torn } }
  setLatch p none (pushNeed (.commitAlone p l.slot l.amplitude inTotal inSecond) (countRefusal .addTornPair s))

/-- A write to a record of the phase that is not taken under R51 or R52 commits a latch that holds another record
(R53). -/
def commitOther (r : Rec) (s : State) : State :=
  match latchOf s (phaseOf r) with
  | some l => if l.record = r then s else commitAlone (phaseOf r) l s
  | none => s

/-- The holding latch of a phase is committed alone (R53, FRAME edge). -/
def commitPhase (p : Phase) (s : State) : State :=
  match latchOf s p with
  | some l => commitAlone p l s
  | none => s

def commitAll (s : State) : State := Phase.all.foldl (fun t p => commitPhase p t) s

/-! ## Writes inside the map (R45, R142, R144, Table 3-2) -/

def setImage (r : Rec) (f : RefRecord → RefRecord) (s : State) : State :=
  s.onRfs fun x => { x with image := x.image.modify r f }

/-- A live word is directed to the slot that holds the position, or absorbed at a dark one (R47). -/
def forward (r : Rec) (w : Fin 8) (v : Word) (s : State) : State :=
  match slotOfRecord s r with
  | some i => pushNeed (.translated r w (physicalCommandAddr i w.val) v) s
  | none => s

/-- The common way in of the window: closed, outside the map, or handed to the Capture Unit and on (R44, R45). -/
def throughWindow (r : Rec) (w : Fin 8) (v : Word) (inside : State → State) (s : State) : State :=
  if s.bpu.isOpen then
    if indexOf r < s.mpl.k then inside (recordCapture r w v s) else countRefusal .addOutside s
  else s

/-- Word 0 (R45, R142, R143, R146). -/
def writeGate (r : Rec) (v : Word) (s : State) : State :=
  let s := commitOther r s
  if 2 < v.toNat then countRefusal .addGateValue s
  else
    let s := setImage r (fun d => { d with gate := v }) s
    if isLive s r 0 then forward r 0 v s else s

/-- A live amplitude for the slot that holds its position (R48, R51). -/
def latchAmplitude (r : Rec) (i : Slot) (v : Word) (s : State) : State :=
  let a := amplitudeOf s r v
  let s := if a.2 then countSaturation (phaseOf r) s else s
  setLatch (phaseOf r) (some ⟨r, i, a.1⟩) (commitPhase (phaseOf r) s)

/-- The image and the mark of an amplitude write (R142, R144). -/
def storeAmplitude (r : Rec) (v : Word) (s : State) : State :=
  let c := clampAmplitude v
  let s := if c.2 then countSaturation (phaseOf r) s else s
  (setImage r (fun d => { d with amplitude := c.1 }) s).onRfs fun f =>
    { f with amplitudeMark := f.amplitudeMark.set r true }

/-- Word 1 (R45, R51, R142). -/
def writeAmplitude (r : Rec) (v : Word) (s : State) : State :=
  let s := storeAmplitude r v s
  let s := match (if isLive s r 1 then slotOfRecord s r else none) with
    | some i => latchAmplitude r i (clampAmplitude v).1 s
    | none => commitOther r s
  testAwaiting s

/-- A live angle for the slot that holds its position (R49, R52). -/
def commitAngle (r : Rec) (i : Slot) (v : Word) (s : State) : State :=
  let a := angleOf s r v
  match latchOf s (phaseOf r) with
  | some l =>
    if l.record = r then setLatch (phaseOf r) none (pushNeed (.pair r l.slot l.amplitude a) s)
    else pushNeed (.translated r 2 (physicalCommandAddr i 2) a) (commitAlone (phaseOf r) l s)
  | none => pushNeed (.translated r 2 (physicalCommandAddr i 2) a) s

/-- The image and the mark of an angle write (R142, R144). -/
def storeAngle (r : Rec) (v : Word) (s : State) : State :=
  (setImage r (fun d => { d with angle := v }) s).onRfs fun f => { f with angleMark := f.angleMark.set r true }

/-- Word 2 (R45, R52, R142). -/
def writeAngle (r : Rec) (v : Word) (s : State) : State :=
  let s := storeAngle r v s
  let s := match (if isLive s r 2 then slotOfRecord s r else none) with
    | some i => commitAngle r i v s
    | none => commitOther r s
  testAwaiting s

/-- Word 3 (R45, R50, R142). -/
def writeCarrier (r : Rec) (v : Word) (s : State) : State :=
  let s := setImage r (fun d => { d with carrier := v }) (commitOther r s)
  if isLive s r 3 then forward r 3 (carrierOf s r v) s else s

/-- Word 4: refused in every state (R45). -/
def writeBypass (r : Rec) (s : State) : State := countRefusal .addBypassWord (commitOther r s)

/-- Words 5 to 7 (R45, R147; log 26). -/
def writeAux (r : Rec) (i : Fin 3) (v : Word) (s : State) : State :=
  let s := setImage r (fun d => d.setAux i v) (commitOther r s)
  let w : Fin 8 := ⟨5 + i.val, by omega⟩
  if isLive s r w then forward r w v s else holdAux r i v s

/-- A write of any word inside the map. -/
def writeInside (r : Rec) (w : Fin 8) (v : Word) : State → State :=
  match w.val with
  | 0 => writeGate r v
  | 1 => writeAmplitude r v
  | 2 => writeAngle r v
  | 3 => writeCarrier r v
  | 4 => writeBypass r
  | n => writeAux r (Fin.ofNat 3 (n - 5)) v

/-- A host write to word w of logical command record r. -/
def writeLogical (r : Rec) (w : Fin 8) (v : Word) (s : State) : State := throughWindow r w v (writeInside r w v) s

/-! ## Reads of the logical windows (R44, R55, R56) -/

/-- The record lies in the open window's map. -/
def inMap (s : State) (r : Rec) : Bool := s.bpu.isOpen && decide (indexOf r < s.mpl.k)

def readCommand (r : Rec) (w : Fin 8) (s : State) : State :=
  answerHost (if inMap s r then commandAnswer s r w else 0) s

def readLogicalStatus (r : Rec) (w : Fin 8) (s : State) : State :=
  if inMap s r then
    match slotOfRecord s r with
    | some i => pushNeed (.read (physicalStatusAddr i w.val) true) s
    | none => answerHost (darkStatusWord w) s
  else answerHost 0 s

/-! ## Other regions (R37 to R43) -/

/-- The part is unarmed: UNARMED, or RESET_N low, which holds UNARMED (R37, R111). -/
def isUnarmed (s : State) : Bool := s.rct.restart == .unarmed

def passWrite (a : Addr) (v : Word) (watch : Option Delivery) (s : State) : State := pushNeed (.passWrite a v watch) s

/-- A write absorbed in a protected region counts as PROTECTED once the window is open (R39 to R42, R57). -/
def absorbProtected (s : State) : State := countRefusal .addProtected s

/-- Physical command records, plan region and map image: pass when unarmed, absorbed while armed (R39, R40). -/
def writeProtected (a : Addr) (v : Word) (s : State) : State :=
  if isUnarmed s then passWrite a v none s else absorbProtected s

/-- A watched delivery is made once the window is open (R41, R42). -/
def onceOpen (d : Delivery) (s : State) : Option Delivery := if s.bpu.isOpen then some d else none

/-- The capture region (R41). -/
def writeCapture (a : Addr) (v : Word) (s : State) : State :=
  if isUnarmed s then passWrite a v none s
  else if a = captureHeaderAddr 6 ∧ v = 1 then passWrite a v (onceOpen .consumed s) s
  else absorbProtected s

/-- The log region (R42). -/
def writeLogRegion (a : Addr) (v : Word) (s : State) : State :=
  if isUnarmed s then passWrite a v none s
  else if a = logHeaderAddr 1 then passWrite a v (onceOpen (.consumer v) s) s
  else if a = logHeaderAddr 5 ∨ a = logHeaderAddr 6 ∨ a = logHeaderAddr 7 then passWrite a v none s
  else absorbProtected s

/-- The drive record: passes in every condition, watched while armed (R43). -/
def writeDrive (a : Addr) (w : Fin 4) (v : Word) (s : State) : State :=
  passWrite a v (if isUnarmed s then none else driveDelivery w v) s

/-- A host write at an address, by its region (Table 3-1). -/
def hostWrite (a : Addr) (v : Word) (s : State) : State :=
  match regionOf a with
  | .logicalCommand r w => writeLogical r w v s
  | .logicalStatus _ _ => s
  | .physicalCommand | .planOrImage => writeProtected a v s
  | .capture => writeCapture a v s
  | .log => writeLogRegion a v s
  | .drive w => writeDrive a w v s
  | .other => passWrite a v none s

/-- A host read at an address, by its region (Table 3-1). -/
def hostRead (a : Addr) (s : State) : State :=
  match regionOf a with
  | .logicalCommand r w => readCommand r w s
  | .logicalStatus r w => readLogicalStatus r w s
  | .physicalCommand | .planOrImage | .capture | .log | .drive _ | .other => pushNeed (.read a false) s

/-! ## The tenure of the BPU (R27, R30, R43) -/

/-- The writes a need makes at the port, in order. -/
def Need.writes : Need → List (Addr × Word)
  | .passWrite a v _ => [(a, v)]
  | .read _ _ => []
  | .translated _ _ a v => [(a, v)]
  | .pair _ i m g => [(physicalCommandAddr i 1, m), (physicalCommandAddr i 2, g)]
  | .commitAlone _ i m _ _ => [(physicalCommandAddr i 1, m)]

/-- A read returns its word to the host (R30). -/
def answerRead (n : Need) (s : State) : State :=
  match n with
  | .read a _ => answerHost (s.mem.read a) s
  | .passWrite .. | .translated .. | .pair .. | .commitAlone .. => s

/-- A watched write is delivered when its tenure ends (R41 to R43). -/
def deliver (n : Need) (s : State) : State :=
  match n with
  | .passWrite _ _ (some d) => s.onBpu fun b => { b with deliveries := b.deliveries ++ [d] }
  | .passWrite _ _ none | .read .. | .translated .. | .pair .. | .commitAlone .. => s

/-- The need at the head is performed and leaves. -/
def performNeed (n : Need) (s : State) : State :=
  deliver n (answerRead n ((s.onMem (·.writeAll n.writes)).onBpu fun b => { b with needs := b.needs.drop 1 }))

def releasePort (s : State) : State := s.onMpa fun m => { m with holder := none }

/-- The end of a BPU tenure. -/
def endBpuTenure (s : State) : State :=
  match s.bpu.needs with
  | [] => releasePort s
  | n :: _ => releasePort (performNeed n s)

/-! ## Deliveries taken by their owners (R41 to R43, R93, R107, R160 to R162, R173) -/

def dropDelivery (s : State) : State := s.onBpu fun b => { b with deliveries := b.deliveries.drop 1 }

/-- A period tag write at the Hoist Interface (R161, R162). -/
def takePeriodTag (v : Word) (s : State) : State :=
  if s.hif.lastTag = v then s
  else
    let returned := decide (3 ≤ s.hif.stale)
    let s := s.onHif fun h => { h with lastTag := v, tagChanged := true, stale := 0 }
    if returned then testAwaiting (logRecord .host 9 noSlot v s) else s

/-- A proof event at the Hoist Interface (R160). -/
def takeProof (s : State) : State :=
  if 3 ≤ s.hif.stale then s
  else
    match s.rct.restart with
    | .proving => enterNormal s
    | .normal => if s.hif.proofNeeded then reproof s else s
    | .unarmed | .arming | .tripped | .isolating | .recharging | .verifying | .awaiting | .resuming | .lockout => s

/-- A restart enable write at the Restart Controller (R107). -/
def takeRestartEnable (v : Word) (s : State) : State := s.onRct fun r => { r with restartEnable := v == 1 }

/-- A consumer write at the Log Unit (R173). -/
def takeConsumer (v : Word) (s : State) : State :=
  if v.toNat < s.log.capacity then s.onLog fun l => Log.updateIrq { l with consumer := v.toNat } else s

end Sys2Proof.Machine
end

