-- ==== Sys2Proof/Machine/Delivered.lean ====
section
/-! DEFINITION. Commands of the delivered watched writes: the owner takes the oldest delivery (R41 to R43, log 4). -/

namespace Sys2Proof.Machine

/-- PERIOD_TAG_WRITE (R161, R162). -/
def execPeriodTagWrite (s : State) : Host.Outcome State Fault Refusal :=
  match s.bpu.deliveries with
  | .periodTag v :: _ => .next (settle (takePeriodTag v (dropDelivery s)))
  | _ => .next s

/-- DIRECTION_WRITE (R43, R106). -/
def execDirectionWrite (s : State) : Host.Outcome State Fault Refusal :=
  match s.bpu.deliveries with
  | .direction v :: _ => .next (settle (directionWrite (Direction.ofWord v) (dropDelivery s)))
  | _ => .next s

/-- PROOF_EVENT (R160). -/
def execProofEvent (s : State) : Host.Outcome State Fault Refusal :=
  match s.bpu.deliveries with
  | .proof :: _ => .next (settle (takeProof (dropDelivery s)))
  | _ => .next s

/-- RESTART_ENABLE_WRITE (R107). -/
def execRestartEnableWrite (s : State) : Host.Outcome State Fault Refusal :=
  match s.bpu.deliveries with
  | .restartEnable v :: _ => .next (settle (takeRestartEnable v (dropDelivery s)))
  | _ => .next s

/-- CONSUMED_WRITE (R93). -/
def execConsumedWrite (s : State) : Host.Outcome State Fault Refusal :=
  match s.bpu.deliveries with
  | .consumed :: _ => .next (settle (consumeCapture (dropDelivery s)))
  | _ => .next s

/-- CONSUMER_WRITE (R173). -/
def execConsumerWrite (s : State) : Host.Outcome State Fault Refusal :=
  match s.bpu.deliveries with
  | .consumer v :: _ => .next (settle (takeConsumer v (dropDelivery s)))
  | _ => .next s

end Sys2Proof.Machine
end

