-- ==== Sys2Proof/Machine/HostAccess.lean ====
section
/-! DEFINITION. Commands of the host: writes to the logical command window, reads of the logical windows, and accesses to
the other regions (Table 3-1). -/

namespace Sys2Proof.Machine

/-- LOGICAL_GATE_WRITE (R45, R143): word 0 of a logical command record. -/
def execLogicalGateWrite (r : Rec) (v : Word) (s : State) : Host.Outcome State Fault Refusal :=
  .next (settle (throughWindow r 0 v (writeGate r v) s))

/-- LOGICAL_AMPLITUDE_WRITE (R51): word 1. -/
def execLogicalAmplitudeWrite (r : Rec) (v : Word) (s : State) : Host.Outcome State Fault Refusal :=
  .next (settle (throughWindow r 1 v (writeAmplitude r v) s))

/-- LOGICAL_ANGLE_WRITE (R52): word 2. -/
def execLogicalAngleWrite (r : Rec) (v : Word) (s : State) : Host.Outcome State Fault Refusal :=
  .next (settle (throughWindow r 2 v (writeAngle r v) s))

/-- LOGICAL_CARRIER_WRITE (R50): word 3. -/
def execLogicalCarrierWrite (r : Rec) (v : Word) (s : State) : Host.Outcome State Fault Refusal :=
  .next (settle (throughWindow r 3 v (writeCarrier r v) s))

/-- BYPASS_WORD (R45): word 4, refused in every state. -/
def execBypassWord (r : Rec) (v : Word) (s : State) : Host.Outcome State Fault Refusal :=
  .next (settle (throughWindow r 4 v (writeBypass r) s))

/-- LOGICAL_AUX_WRITE (R147): word 5, 6 or 7. -/
def execLogicalAuxWrite (r : Rec) (i : Fin 3) (v : Word) (s : State) : Host.Outcome State Fault Refusal :=
  .next (settle (throughWindow r ⟨5 + i.val, by omega⟩ v (writeAux r i v) s))

/-- OUTSIDE (R44): any word of a record; at a position of K or more it is absorbed and counted. -/
def execOutside (r : Rec) (w : Fin 8) (v : Word) (s : State) : Host.Outcome State Fault Refusal :=
  .next (settle (throughWindow r w v (writeInside r w v) s))

/-- LOGICAL_COMMAND_READ (R55): answered at once. -/
def execLogicalCommandRead (r : Rec) (w : Fin 8) (s : State) : Host.Outcome State Fault Refusal :=
  .next (settle (readCommand r w s))

/-- LOGICAL_STATUS_READ (R56): redirected to the slot that holds the position, or synthesized. -/
def execLogicalStatusRead (r : Rec) (w : Fin 8) (s : State) : Host.Outcome State Fault Refusal :=
  .next (settle (readLogicalStatus r w s))

/-- LOGICAL_STATUS_WRITE (R56): absorbed in every condition, and never counted. -/
def execLogicalStatusWrite (_r : Rec) (_w : Fin 8) (_v : Word) (s : State) : Host.Outcome State Fault Refusal :=
  .next s

/-- PHYSICAL_COMMAND_WRITE (R39). -/
def execPhysicalCommandWrite (i : Slot) (w : Fin 8) (v : Word) (s : State) : Host.Outcome State Fault Refusal :=
  .next (settle (writeProtected (physicalCommandAddr i w.val) v s))

/-- PLAN_OR_IMAGE_WRITE (R40). -/
def execPlanOrImageWrite (a : Addr) (v : Word) (s : State) : Host.Outcome State Fault Refusal :=
  .next (settle (hostWrite a v s))

/-- CAPTURE_REGION_WRITE (R41). -/
def execCaptureRegionWrite (a : Addr) (v : Word) (s : State) : Host.Outcome State Fault Refusal :=
  .next (settle (hostWrite a v s))

/-- LOG_REGION_WRITE (R42). -/
def execLogRegionWrite (a : Addr) (v : Word) (s : State) : Host.Outcome State Fault Refusal :=
  .next (settle (hostWrite a v s))

/-- HOST_PASSED_ACCESS (R38, R43): any other host transaction. -/
def execHostPassedAccess (a : Addr) (op : HostOp) (s : State) : Host.Outcome State Fault Refusal :=
  match op with
  | .read => .next (settle (hostRead a s))
  | .write v => .next (settle (hostWrite a v s))

end Sys2Proof.Machine
end

