-- ==== Sys2Proof/Machine/Lines.lean ====
section
/-! DEFINITION. Commands of the strobe, fault and hoist lines: FRAME_RISING, FAULT_LINE_EDGE,
FAULT_LINE_INACTIVE_TRANSITION, BRAKE_SET_RISING, BRAKE_SET_FALLING. -/

namespace Sys2Proof.Machine

/-- The frame counter of the Interval Timer (R169). -/
def countFrame (s : State) : State := s.onItm fun t => if t.running then { t with frames := t.frames + 1 } else t

/-- The first FRAME edge after the RESET job's completion opens the acknowledgement gate (R131). -/
def openGate (s : State) : State :=
  s.onRct fun r => if r.restart = .recharging ∧ r.resetWritten = true then { r with gateOpen := true } else r

/-- The identification windows (R82), the verify window (R138) and the period timer (R161) count the edge. DESIGN CHOICE
(log 43): an edge while a period end is due leaves the period timer at 0 and does not count toward the next period. -/
def countWindows (s : State) : State :=
  ((s.onFin fun f => { f with lines := f.lines.map fun l => { l with window := l.window.tick } }).onRct
    fun r => { r with verify := r.verify.tick }).onHif fun h => { h with period := h.period.tick }

/-- A FRAME rising edge: counter, scan, pair latches, gate, windows, in that order (log 20). -/
def frameEdge (s : State) : State := countWindows (openGate (commitAll (frameScan (countFrame s))))

/-- FRAME_RISING (R53, R60, R62, R82, R131, R138, R161, R169). -/
def execFrameRising (s : State) : Host.Outcome State Fault Refusal := .next (settle (frameEdge s))

/-- FAULT_LINE_EDGE (R80): the line of the phase goes to its active level. -/
def execFaultLineEdge (p : Phase) (s : State) : Host.Outcome State Fault Refusal :=
  .next (settle (lineTransition p (activeLevel s) s))

/-- FAULT_LINE_INACTIVE_TRANSITION (R80): the line of the phase goes to its inactive level. -/
def execFaultLineInactiveTransition (p : Phase) (s : State) : Host.Outcome State Fault Refusal :=
  .next (settle (lineTransition p (!activeLevel s) s))

/-- BRAKE_SET rising by state (R104, R157). -/
def brakeRise (s : State) : State :=
  match s.rct.restart with
  | .normal => parkDrive s
  | .tripped | .isolating | .recharging | .verifying | .awaiting | .resuming =>
    match s.rct.mode with
    | .rideThrough => convertMode 2 (word s.rct.budget.left) s
    | .standstill => s
  | .unarmed | .arming | .proving | .lockout => s

/-- The brake is lifted without permit in NORMAL or PROVING (R101, R158). -/
def liftedWithoutPermit (s : State) : State := enterLockout .brakeLifted (hoistRecord 5 s.rct.restart.code s)

/-- BRAKE_SET falling by state (R158). -/
def brakeFall (s : State) : State :=
  match s.rct.restart with
  | .normal => if s.hif.permit then s else liftedWithoutPermit s
  | .proving => liftedWithoutPermit s
  | .tripped | .isolating | .recharging | .verifying | .awaiting | .resuming =>
    match s.rct.mode with
    | .rideThrough => s
    | .standstill => hoistRecord 5 s.rct.restart.code s
  | .unarmed | .arming | .lockout => s

/-- BRAKE_SET_RISING (R157). A line that is high already makes no transition (log 12). -/
def execBrakeSetRising (s : State) : Host.Outcome State Fault Refusal :=
  if s.pins.brakeSet then .next s
  else .next (settle (brakeRise (s.onPins fun p => { p with brakeSet := true })))

/-- BRAKE_SET_FALLING (R158). -/
def execBrakeSetFalling (s : State) : Host.Outcome State Fault Refusal :=
  if s.pins.brakeSet then .next (settle (brakeFall (s.onPins fun p => { p with brakeSet := false })))
  else .next s

end Sys2Proof.Machine
end

