-- ==== Sys2Proof/Machine/Resets.lean ====
section
/-! DEFINITION. Commands of the family of resets and arming lines: POWER_ON_RESET, RESET_N_LOW, RESET_N_HIGH,
ARM_RISING, ARM_FALLING. -/

namespace Sys2Proof.Machine

/-- The tenure in progress finishes its current word access and is discarded (R31, R111; log 8, log 33). -/
def cutTenure (s : State) : State :=
  match s.mpa.holder with
  | none | some (.ssc _ _) | some (.pld _) => releasePort s
  | some (.wen b) =>
    match s.wen.buffer b with
    | .writing u => releasePort (cutWrites u.writes s)
    | .empty | .ready _ => releasePort s
  | some .bpu =>
    match s.bpu.needs with
    | [] => releasePort s
    | n :: _ =>
      let s := if n.writes = [] then answerRead n s else cutWrites n.writes s
      releasePort (s.onBpu fun b => { b with needs := b.needs.drop 1 })

/-- Every block at its reset values; the lines, the memory, the queue and the cut counter are not the blocks'. -/
def blocksReset (s : State) : State :=
  { State.held with pins := s.pins, mem := s.mem, cuts := s.cuts, pending := s.pending }

/-- A warm reset keeps the quarantine marks and lifetime counts (R12), the last fault codes (R77), the last category
written (R171), and the word on HD. -/
def warmReset (s : State) : State :=
  { blocksReset s with
    bpu := { Bpu.reset with hostData := s.bpu.hostData }
    mpl := { Mpl.reset with slots := s.mpl.slots.map fun e => { SlotEntry.reset with quarantine := e.quarantine, lifetime := e.lifetime } }
    fin :=
      { slots := s.fin.slots.map fun e => { IntakeSlot.reset with lastCode := e.lastCode }
        lines := s.fin.lines.map fun l => { IntakeLine.reset with lastLevel := l.lastLevel } }
    log := { Log.reset with lastCategory := s.log.lastCategory } }

/-- A host transaction that waited for the port is taken afresh as in UNARMED (R31, R37, Table 3-1). -/
def retakeNeed (s : State) (n : Need) : State :=
  match n with
  | .passWrite a v _ => pushNeed (.passWrite a v none) s
  | .read a logical => if logical then answerHost 0 s else pushNeed (.read a false) s
  | .translated .. | .pair .. | .commitAlone .. => s

/-- POWER_ON_RESET (R111): every block is reset, and the detector's release submits the reset-block job (R36; log 23). -/
def execPowerOnReset (s : State) : Host.Outcome State Fault Refusal :=
  .next (settle (submitResetBlock (blocksReset (cutTenure s))))

/-- RESET_N_LOW (R31, R111): warm reset. A line that is low already makes no transition (log 12). -/
def execResetNLow (s : State) : Host.Outcome State Fault Refusal :=
  if s.pins.resetN then
    let s := takeRecordCompletions (cutTenure s)
    let t := (warmReset s).onPins fun p => { p with resetN := false }
    .next (settle (s.bpu.needs.foldl retakeNeed t))
  else .next s

/-- RESET_N_HIGH (R36): the return of RESET_N high submits the reset-block job. -/
def execResetNHigh (s : State) : Host.Outcome State Fault Refusal :=
  if s.pins.resetN then .next s
  else .next (settle (submitResetBlock (s.onPins fun p => { p with resetN := true })))

/-- ARM_RISING (R165): taken in UNARMED while RESET_N is high; otherwise the level alone changes (R111). -/
def execArmRising (s : State) : Host.Outcome State Fault Refusal :=
  if s.pins.arm then .next s
  else
    let s := s.onPins fun p => { p with arm := true }
    if s.rct.restart = .unarmed ∧ s.pins.resetN = true then .next (settle (armRise s)) else .next s

/-- ARM_FALLING (R110, R170): disarm in any armed state. -/
def execArmFalling (s : State) : Host.Outcome State Fault Refusal :=
  if s.pins.arm then
    let s := s.onPins fun p => { p with arm := false }
    if s.rct.restart = .unarmed then .next s else .next (settle (disarm s))
  else .next s

end Sys2Proof.Machine
end

