-- ==== Sys2Proof/Machine/Tenures.lean ====
section
/-! DEFINITION. Commands of the memory port: the end of a tenure of each requester, and the completions of jobs the
owners are told of (R27, R30, R32, R33, R60, R91, R101, R131, R166, R172). A command whose tenure or completion is not
there changes nothing (log 2). -/

namespace Sys2Proof.Machine

/-- SSC_SLOT_TENURE_END (R60): the words read go to the Link Supervisor and the scan advances; discarded data goes
nowhere (R31, R62). -/
def execSscSlotTenureEnd (far : List FarWrite) (s : State) : Host.Outcome State Fault Refusal :=
  match s.mpa.holder with
  | some (.ssc i discard) =>
    let s := releasePort (s.onMem (applyFar far))
    .next (settle (if discard then s else advanceScan i (evaluateFrame i (some (readStatus s.mem i)) s)))
  | some .bpu | some (.pld _) | some (.wen _) | none => .next s

/-- PLD_TENURE_END (R166). -/
def execPldTenureEnd (s : State) : Host.Outcome State Fault Refusal :=
  match s.mpa.holder with
  | some (.pld discard) =>
    let s := releasePort s
    .next (settle (if discard then s else takePlanTenure s))
  | some .bpu | some (.ssc _ _) | some (.wen _) | none => .next s

/-- BPU_TENURE_END (R30, R43). -/
def execBpuTenureEnd (far : List FarWrite) (s : State) : Host.Outcome State Fault Refusal :=
  match s.mpa.holder with
  | some .bpu => .next (settle (endBpuTenure (s.onMem (applyFar far))))
  | some (.ssc _ _) | some (.pld _) | some (.wen _) | none => .next s

/-- The release cursor after a burst of reference writes has been performed (R150). -/
def moveCursor (u : Burst) (s : State) : State :=
  match u.cursor with
  | some r => s.onRfs fun f => { f with cursor := some r }
  | none => s

/-- The writes of a buffer have been performed: it turns EMPTY, the cursor moves, a job whose last write was among them
is complete, and a release may leave stage AUXILIARY (R32, R33, R150, R151). -/
def endBuffer (b : BufferId) (u : Burst) (s : State) : State :=
  let s := (s.onMem (·.writeAll u.writes)).onWen fun w =>
    let w := w.setBuffer b .empty
    if u.last then w.complete u.kind else w
  releasePort (releaseAdvance (moveCursor u s))

/-- WEN_TENURE_END (R33). -/
def execWenTenureEnd (s : State) : Host.Outcome State Fault Refusal :=
  match s.mpa.holder with
  | some (.wen b) =>
    match s.wen.buffer b with
    | .writing u => .next (settle (endBuffer b u s))
    | .empty | .ready _ => .next s
  | some .bpu | some (.ssc _ _) | some (.pld _) | none => .next s

/-! ## Completions -/

/-- RELEASE_COMPLETE (R101, R152). -/
def execReleaseComplete (s : State) : Host.Outcome State Fault Refusal :=
  if s.wen.done.contains .release then .next (settle (releaseCompleted (takeDone .release s))) else .next s

/-- RESET_JOB_COMPLETE (R131): the reset job state becomes WRITTEN. -/
def execResetJobComplete (s : State) : Host.Outcome State Fault Refusal :=
  if s.wen.done.contains .resetGate then
    .next (settle ((takeDone .resetGate s).onRct fun r => { r with resetWritten := true }))
  else .next s

/-- CAPTURE_DUMP_COMPLETE (R91). -/
def execCaptureDumpComplete (s : State) : Host.Outcome State Fault Refusal :=
  if s.wen.done.contains .captureDump then .next (settle (captureDumped (takeDone .captureDump s))) else .next s

/-- LOG_RECORD_COMPLETE (R172, R173). -/
def execLogRecordComplete (s : State) : Host.Outcome State Fault Refusal :=
  match s.wen.done.find? JobKind.isLogRecord with
  | some k => .next (settle (takeRecordCompletion k s))
  | none => .next s

end Sys2Proof.Machine
end

