-- ==== Sys2Proof/Machine/Timing.lean ====
section
/-! DEFINITION. Commands of time: MS_TICK, ONE_SECOND_INTERVAL, CONTROL_PERIOD_END, and the expiries of the timers and
windows. An expiry is taken while its timer runs and stands at 0 (R100, log 2). -/

namespace Sys2Proof.Machine

/-! ## MS_TICK (R169) -/

/-- The millisecond count, and the time toward the next one-second interval (R169, log 37). -/
def Itm.tick (t : Itm) : Itm :=
  if t.running then
    let t := { t with millis := t.millis + 1 }
    if t.subMillis + 1 < Config.ticksPerSecond then { t with subMillis := t.subMillis + 1 }
    else { t with subMillis := 0, secondsDue := t.secondsDue + 1 }
  else t

/-- The controller's millisecond timers (Table 6-5). -/
def Rct.tick (r : Rct) : Rct :=
  { r with
    budget := r.budget.tick, contactor := r.contactor.tick, recharge := r.recharge.tick, fresh := r.fresh.tick,
    proving := r.proving.tick }

/-- One millisecond at every block that counts it: strike windows (R83), recently-lost timers (R70). -/
def millisecond (s : State) : State :=
  (((s.onItm Itm.tick).onRct Rct.tick).onFin fun f =>
    { f with slots := f.slots.map fun e => { e with strikeTimer := e.strikeTimer.tick } }).onLsv fun v =>
    v.map fun l => { l with recentTimer := l.recentTimer.tick }

/-- MS_TICK (R169). -/
def execMsTick (s : State) : Host.Outcome State Fault Refusal := .next (settle (millisecond s))

/-! ## ONE_SECOND_INTERVAL (R19, R58, R63, R73) -/

/-- The HOST record of one kind (R58). -/
def hostCount (code count : Word) (s : State) : State := if count = 0 then s else logRecord .host code noSlot count s

/-- The counts reported, a waiting commit alone no longer stands in the current second (log 14). -/
def Need.reported : Need → Need
  | .commitAlone p i m t _ => .commitAlone p i m t false
  | .passWrite a v d => .passWrite a v d
  | .read a l => .read a l
  | .translated r w a v => .translated r w a v
  | .pair r i m g => .pair r i m g

/-- The BPU's records of the second, ascending in code, and its counts set to 0 (R58). -/
def secondOfPassage (s : State) : State :=
  let c := s.bpu.counts
  let s := hostCount 1 c.gateValue s
  let s := hostCount 2 c.bypassWord s
  let s := hostCount 3 c.auxFull s
  let s := hostCount 4 c.protectedWrite s
  let s := hostCount 5 c.outside s
  let s := hostCount 6 c.saturation s
  let s := hostCount 7 c.tornPair s
  s.onBpu fun b => { b with counts := .zero, needs := b.needs.map Need.reported }

/-- The scanner's record of the second (R63). -/
def secondOfScans (s : State) : State :=
  let n := s.ssc.overrun
  let s := if n = 0 then s else logRecord .link 9 noSlot n s
  s.onSsc fun c => { c with overrun := 0 }

/-- One second at the LSV, the BPU, the SSC, and the map image job (log 16). -/
def secondPassed (s : State) : State :=
  queueMapImage false (secondOfScans (secondOfPassage (secondOfLinks s)))

/-- ONE_SECOND_INTERVAL (R73, R169): one interval made by the tick and not yet taken. -/
def execOneSecondInterval (s : State) : Host.Outcome State Fault Refusal :=
  if s.itm.running = true ∧ 0 < s.itm.secondsDue then
    .next (settle (secondPassed (s.onItm fun t => { t with secondsDue := t.secondsDue - 1 })))
  else .next s

/-! ## Expiries of the controller's timers -/

/-- BUDGET_EXPIRY (R104, R159): conversion to STANDSTILL. -/
def execBudgetExpiry (s : State) : Host.Outcome State Fault Refusal :=
  if s.rct.budget.due = true ∧ s.rct.mode = .rideThrough ∧ s.rct.restart.inSequence = true then
    .next (settle (convertMode 1 0 s))
  else .next s

/-- The slots left in the watch list, ascending. -/
def watched (r : Rct) : List Slot := allSlots.filter fun i => (r.watch.get i).isSome

def watchAwaits (b : Bypass) (r : Rct) (i : Slot) : Bool :=
  match r.watch.get i with
  | some e => e.awaits == b
  | none => false

/-- The CONTACTOR record of one entry left at an expiry: STUCK_CLOSE 2, STUCK_OPEN 3 (R129). -/
def logStuck (i : Slot) (s : State) : State :=
  match s.rct.watch.get i with
  | some e => logRecord .contactor (match e.awaits with | .closed => 2 | .opened => 3) (word i.val) (feedbackCode e.last) s
  | none => s

def logStuckAll (slots : List Slot) (s : State) : State := slots.foldl (fun t i => logStuck i t) s

/-- The contactor timer expires in ISOLATING (R128). -/
def contactorExpired (s : State) : State :=
  let left := watched s.rct
  let closing := left.any fun i => watchAwaits .closed s.rct i
  let s := logStuckAll left s
  if closing then enterLockout .bypassStuck s else takeFaults left 65 s

/-- The contactor timer expires in ARMING (R170). DESIGN CHOICE (log 41): the CONTACTOR records are handed ahead of the
cancellations, so that they are among the records lost with them. -/
def armingExpired (s : State) : State :=
  let left := watched s.rct
  endArming .contactor noSlot (word left.length) (logStuckAll left s)

/-- CONTACTOR_TIMEOUT (R128, R170). -/
def execContactorTimeout (s : State) : Host.Outcome State Fault Refusal :=
  if s.rct.contactor.due then
    match s.rct.restart with
    | .isolating => .next (settle (contactorExpired s))
    | .arming => .next (settle (armingExpired s))
    | .unarmed | .normal | .tripped | .recharging | .verifying | .awaiting | .resuming | .proving | .lockout => .next s
  else .next s

/-- The slots whose step is not SETTLED (R136). -/
def unsettled (r : Rct) : List Slot :=
  allSlots.filter fun i => match r.progress.get i with | some p => p.step != .settled | none => false

/-- RECHARGE_TIMER_EXPIRY (R136): a fault of code 66 for every slot that has not settled. -/
def execRechargeTimerExpiry (s : State) : Host.Outcome State Fault Refusal :=
  if s.rct.recharge.due = true ∧ s.rct.restart = .recharging then .next (settle (takeFaults (unsettled s.rct) 66 s))
  else .next s

/-- FRESH_SET_TIMER_EXPIRY (R149): LOCKOUT with cause NO_FRESH_SET. -/
def execFreshSetTimerExpiry (s : State) : Host.Outcome State Fault Refusal :=
  if s.rct.fresh.due = true ∧ s.rct.restart = .awaiting then .next (settle (enterLockout .noFreshSet s)) else .next s

/-- PROVING_TIMER_EXPIRY (R101): LOCKOUT with cause PROVING_TIMEOUT. -/
def execProvingTimerExpiry (s : State) : Host.Outcome State Fault Refusal :=
  if s.rct.proving.due = true ∧ s.rct.restart = .proving then .next (settle (enterLockout .provingTimeout s)) else .next s

/-! ## Expiries at the Fault Intake, the Link Supervisor, and at scan ends -/

/-- STRIKE_WINDOW_EXPIRY (R83): the slot's strike count becomes 0. -/
def execStrikeWindowExpiry (i : Slot) (s : State) : Host.Outcome State Fault Refusal :=
  if (s.fin.slots.get i).strikeTimer.due then
    .next (settle (s.onFin fun f =>
      { f with slots := f.slots.modify i fun e => { e with strikes := 0, strikeTimer := .stopped } }))
  else .next s

/-- RECENTLY_LOST_TIMER_EXPIRY (R70): the slot's recently-lost flag is cleared. -/
def execRecentlyLostTimerExpiry (i : Slot) (s : State) : Host.Outcome State Fault Refusal :=
  if (s.lsv.get i).recentTimer.due then
    .next (settle (s.onLsv fun v =>
      v.modify i fun l => { l with recentlyLost := false, recentTimer := .stopped }))
  else .next s

/-- IDENTIFICATION_WINDOW_EXPIRY (R82, R99): at a scan end, a phase whose request is set and whose window stands at 0
(log 3). -/
def execIdentificationWindowExpiry (s : State) : Host.Outcome State Fault Refusal :=
  if s.ssc.ended = true ∧ anyExpired s = true then .next (settle (takeIdentExpiry s)) else .next s

/-- VERIFY_WINDOW_EXPIRY (R141): at a scan end, a fault of code 69 for every slot not yet verified (log 3). -/
def execVerifyWindowExpiry (s : State) : Host.Outcome State Fault Refusal :=
  if s.ssc.ended = true ∧ verifyExpired s = true then .next (settle (takeVerifyExpiry s)) else .next s

/-! ## CONTROL_PERIOD_END (R161 to R163) -/

/-- The control period ends at the Hoist Interface (R161). -/
def Hif.endPeriod (p : Nat) (h : Hif) : Hif :=
  { h with
    stale := if h.tagChanged then h.stale else boundedInc 3 h.stale
    tagChanged := false
    period := .load p }

/-- The increase that brings the count to 3 makes a STALE record and a staleness event (R162). -/
def periodEnded (s : State) : State :=
  let became := !s.hif.tagChanged && s.hif.stale == 2
  let s := s.onHif (Hif.endPeriod s.plan.controlPeriod)
  if became then stalenessEvent (logRecord .host 8 noSlot s.hif.lastTag s) else s

/-- CONTROL_PERIOD_END (R161): the period timer has reached 0. -/
def execControlPeriodEnd (s : State) : Host.Outcome State Fault Refusal :=
  if s.hif.period.due then .next (settle (periodEnded s)) else .next s

end Sys2Proof.Machine
end

