-- ==== Sys2Proof/Machine/Dispatch.lean ====
section
/-! DEFINITION. One arm per command: each calls its meaning. -/

namespace Sys2Proof.Machine

def exec (i : Instr) (s : State) : Host.Outcome State Fault Refusal :=
  match i with
  | .powerOnReset => Sys2Proof.Machine.execPowerOnReset s
  | .resetNLow => Sys2Proof.Machine.execResetNLow s
  | .resetNHigh => Sys2Proof.Machine.execResetNHigh s
  | .armRising => Sys2Proof.Machine.execArmRising s
  | .armFalling => Sys2Proof.Machine.execArmFalling s
  | .frameRising => Sys2Proof.Machine.execFrameRising s
  | .faultLineEdge p => Sys2Proof.Machine.execFaultLineEdge p s
  | .brakeSetRising => Sys2Proof.Machine.execBrakeSetRising s
  | .brakeSetFalling => Sys2Proof.Machine.execBrakeSetFalling s
  | .msTick => Sys2Proof.Machine.execMsTick s
  | .oneSecondInterval => Sys2Proof.Machine.execOneSecondInterval s
  | .budgetExpiry => Sys2Proof.Machine.execBudgetExpiry s
  | .contactorTimeout => Sys2Proof.Machine.execContactorTimeout s
  | .rechargeTimerExpiry => Sys2Proof.Machine.execRechargeTimerExpiry s
  | .freshSetTimerExpiry => Sys2Proof.Machine.execFreshSetTimerExpiry s
  | .provingTimerExpiry => Sys2Proof.Machine.execProvingTimerExpiry s
  | .strikeWindowExpiry slot => Sys2Proof.Machine.execStrikeWindowExpiry slot s
  | .recentlyLostTimerExpiry slot => Sys2Proof.Machine.execRecentlyLostTimerExpiry slot s
  | .identificationWindowExpiry => Sys2Proof.Machine.execIdentificationWindowExpiry s
  | .verifyWindowExpiry => Sys2Proof.Machine.execVerifyWindowExpiry s
  | .controlPeriodEnd => Sys2Proof.Machine.execControlPeriodEnd s
  | .logicalGateWrite r value => Sys2Proof.Machine.execLogicalGateWrite r value s
  | .logicalAmplitudeWrite r value => Sys2Proof.Machine.execLogicalAmplitudeWrite r value s
  | .logicalAngleWrite r value => Sys2Proof.Machine.execLogicalAngleWrite r value s
  | .logicalCarrierWrite r value => Sys2Proof.Machine.execLogicalCarrierWrite r value s
  | .bypassWord r value => Sys2Proof.Machine.execBypassWord r value s
  | .logicalAuxWrite r aux value => Sys2Proof.Machine.execLogicalAuxWrite r aux value s
  | .outside r word value => Sys2Proof.Machine.execOutside r word value s
  | .logicalCommandRead r word => Sys2Proof.Machine.execLogicalCommandRead r word s
  | .logicalStatusRead r word => Sys2Proof.Machine.execLogicalStatusRead r word s
  | .logicalStatusWrite r word value => Sys2Proof.Machine.execLogicalStatusWrite r word value s
  | .physicalCommandWrite slot word value => Sys2Proof.Machine.execPhysicalCommandWrite slot word value s
  | .planOrImageWrite addr value => Sys2Proof.Machine.execPlanOrImageWrite addr value s
  | .captureRegionWrite addr value => Sys2Proof.Machine.execCaptureRegionWrite addr value s
  | .logRegionWrite addr value => Sys2Proof.Machine.execLogRegionWrite addr value s
  | .hostPassedAccess addr op => Sys2Proof.Machine.execHostPassedAccess addr op s
  | .periodTagWrite => Sys2Proof.Machine.execPeriodTagWrite s
  | .directionWrite => Sys2Proof.Machine.execDirectionWrite s
  | .proofEvent => Sys2Proof.Machine.execProofEvent s
  | .restartEnableWrite => Sys2Proof.Machine.execRestartEnableWrite s
  | .consumedWrite => Sys2Proof.Machine.execConsumedWrite s
  | .consumerWrite => Sys2Proof.Machine.execConsumerWrite s
  | .sscSlotTenureEnd far => Sys2Proof.Machine.execSscSlotTenureEnd far s
  | .pldTenureEnd => Sys2Proof.Machine.execPldTenureEnd s
  | .bpuTenureEnd far => Sys2Proof.Machine.execBpuTenureEnd far s
  | .wenTenureEnd => Sys2Proof.Machine.execWenTenureEnd s
  | .releaseComplete => Sys2Proof.Machine.execReleaseComplete s
  | .resetJobComplete => Sys2Proof.Machine.execResetJobComplete s
  | .captureDumpComplete => Sys2Proof.Machine.execCaptureDumpComplete s
  | .logRecordComplete => Sys2Proof.Machine.execLogRecordComplete s
  | .faultLineInactiveTransition p => Sys2Proof.Machine.execFaultLineInactiveTransition p s

end Sys2Proof.Machine
end

