-- ==== Sys2Proof/Safety.lean ====
section
/-! DEFINITION. What the statements and the laws speak of: the fields of State one by one, frames over them, the words a
tenure writes, and the invariants that the specification calls laws (L1 to L12). -/

namespace Sys2Proof.Machine

/-! ## Frames -/

/-- The fields of State; the blocks that several commands touch in part are named field by field. -/
inductive Field where
  | pins | mem
  | isOpen | latches | needs | counts | deliveries | hostData
  | holder | fair
  | ssc | lsv | fin | rct
  | fitted | k | slots | phases | generation | table
  | image | amplitudeMark | angleMark | aux | cursor | stage
  | wen | hif | cap | log | pld | itm | plan | cuts | pending
deriving DecidableEq, Repr

/-- A field has the same value in two states. -/
def Field.same (s t : State) : Field → Prop
  | .pins => t.pins = s.pins
  | .mem => t.mem = s.mem
  | .isOpen => t.bpu.isOpen = s.bpu.isOpen
  | .latches => t.bpu.latches = s.bpu.latches
  | .needs => t.bpu.needs = s.bpu.needs
  | .counts => t.bpu.counts = s.bpu.counts
  | .deliveries => t.bpu.deliveries = s.bpu.deliveries
  | .hostData => t.bpu.hostData = s.bpu.hostData
  | .holder => t.mpa.holder = s.mpa.holder
  | .fair => t.mpa.fair = s.mpa.fair
  | .ssc => t.ssc = s.ssc
  | .lsv => t.lsv = s.lsv
  | .fin => t.fin = s.fin
  | .rct => t.rct = s.rct
  | .fitted => t.mpl.fitted = s.mpl.fitted
  | .k => t.mpl.k = s.mpl.k
  | .slots => t.mpl.slots = s.mpl.slots
  | .phases => t.mpl.phases = s.mpl.phases
  | .generation => t.mpl.generation = s.mpl.generation
  | .table => t.mpl.table = s.mpl.table
  | .image => t.rfs.image = s.rfs.image
  | .amplitudeMark => t.rfs.amplitudeMark = s.rfs.amplitudeMark
  | .angleMark => t.rfs.angleMark = s.rfs.angleMark
  | .aux => t.rfs.aux = s.rfs.aux
  | .cursor => t.rfs.cursor = s.rfs.cursor
  | .stage => t.rfs.stage = s.rfs.stage
  | .wen => t.wen = s.wen
  | .hif => t.hif = s.hif
  | .cap => t.cap = s.cap
  | .log => t.log = s.log
  | .pld => t.pld = s.pld
  | .itm => t.itm = s.itm
  | .plan => t.plan = s.plan
  | .cuts => t.cuts = s.cuts
  | .pending => t.pending = s.pending

/-- Every field outside a list keeps its value. -/
def KeepsAllBut (fs : List Field) (s t : State) : Prop := ∀ f, f ∉ fs → f.same s t

/-- The fields that the port's work at the end of any command may change: a buffer is filled, a tenure is granted, a
waiting translated write is stopped and its aux word held, and a release in flight is staged, which can count a
saturation, shorten the auxiliary list and hand a record of a discarded entry (R33, R46, R150, R151). -/
def portFields : List Field := [.needs, .counts, .holder, .fair, .phases, .aux, .stage, .wen, .log]

/-- A command completes, with what its next state satisfies. -/
def Completes (c : Instr) (s : State) (P : State → Prop) : Prop := ∃ t, exec c s = .next t ∧ P t

/-- A command completes: its own effect is a state of which P holds, and then the port settles (R28, R33, log 7), which
touches portFields only. -/
def CompletesAs (c : Instr) (s : State) (P : State → Prop) : Prop := ∃ u, exec c s = .next (settle u) ∧ P u

/-- The outside of some written words reads as before. -/
def SameMemoryOutside (written : List Addr) (s t : State) : Prop :=
  ∀ a, a ∉ written → t.mem.read a = s.mem.read a

/-! ## Jobs and records -/

/-- A job of some writes, none of them staged, stands in the list of its class (R32). -/
def JobListed (k : JobKind) (ws : List JobWrite) (u : State) : Prop := Job.mk k ws false ∈ u.wen.jobs k.cls

/-- One value to word 0 of some slots (Table 2-12). -/
def gateTo (v : Word) (slots : List Slot) : List JobWrite := slots.map fun i => ⟨physicalCommandAddr i 0, .const v⟩

/-- A block-all with the active slots of a map is listed; with none of them it is empty (R87). -/
def BlocksAll (m : SlotMap) (u : State) : Prop :=
  activeSlots m = [] ∨ JobListed .blockAll (gateTo 0 (activeSlots m)) u

/-- No job, buffer or completion of some kinds is left (R35). -/
def NoJobsOf (p : JobKind → Bool) (u : State) : Prop :=
  (∀ j ∈ u.wen.jobs1 ++ u.wen.jobs2 ++ u.wen.jobs3, p j.kind = false)
    ∧ (∀ b w, u.wen.buffer b = .ready w ∨ u.wen.buffer b = .writing w → p w.kind = false)
    ∧ ∀ k ∈ u.wen.done, p k = false

/-- A buffer that is WRITING holds a job of some kinds. -/
def Writing (p : JobKind → Bool) (s : State) : Prop := ∃ b w, s.wen.buffer b = .writing w ∧ p w.kind = true

/-- The memory after the jobs of some kinds have been cancelled: a WRITING buffer of those kinds is cut short and its
tenure ends, no word outside its writes changes, and with no such buffer no word changes and no tenure is cut (R35). -/
def CutsOnly (p : JobKind → Bool) (s u : State) : Prop :=
  (Writing p s → u.mpa.holder = none)
    ∧ (¬Writing p s → u.mem = s.mem ∧ u.cuts = s.cuts)
    ∧ ∀ a, (∀ b w, s.wen.buffer b = .writing w → p w.kind = true → a ∉ w.writes.map Prod.fst) →
        u.mem.read a = s.mem.read a

/-- The jobs, buffers and completions of other kinds stay, each list growing at its tail only. -/
def OtherJobsStay (p : JobKind → Bool) (s u : State) : Prop :=
  (∀ c, (s.wen.jobs c).filter (!p ·.kind) <+: u.wen.jobs c)
    ∧ (∀ b, (∀ w, s.wen.buffer b = .ready w ∨ s.wen.buffer b = .writing w → p w.kind = false) →
        u.wen.buffer b = s.wen.buffer b)
    ∧ u.wen.done = s.wen.done.filter (!p ·)

/-- A map image job that has not begun writing is listed (R19). -/
def ImagePending (u : State) : Prop := u.wen.jobs3.any (fun j => j.kind.isMapImage && !j.begun) = true

/-- The log and the Write Engine of u are those of s once it has been handed one record (R172). -/
def HandsRecord (c : Category) (code slot arg : Word) (s u : State) : Prop :=
  u.log = (logRecord c code slot arg s).log ∧ u.wen = (logRecord c code slot arg s).wen

/-- The record that s is handed, formed with the restart state of s, stands in the write list of u ahead of any later one,
and the job made for it is listed in u. -/
def HandsFirst (c : Category) (code slot arg : Word) (s u : State) : Prop :=
  (logRecord c code slot arg s).log.writeList <+: u.log.writeList
    ∧ ∀ j ∈ (logRecord c code slot arg s).wen.jobs3, j ∉ s.wen.jobs3 → j ∈ u.wen.jobs3

/-- Records of a category handed one after another, each with its code, slot and argument. -/
def handAll (c : Category) (records : List (Word × Word × Word)) (s : State) : State :=
  records.foldl (fun t r => logRecord c r.1 r.2.1 r.2.2 t) s

/-- The log and the Write Engine of u are those of s once it has been handed some records in turn (R172). -/
def HandsRecords (c : Category) (records : List (Word × Word × Word)) (s u : State) : Prop :=
  u.log = (handAll c records s).log ∧ u.wen = (handAll c records s).wen

/-- The records that s is handed in turn stand in the write list of u ahead of any later one, and the jobs made for them
are listed in u. -/
def HandsAllFirst (c : Category) (records : List (Word × Word × Word)) (s u : State) : Prop :=
  (handAll c records s).log.writeList <+: u.log.writeList
    ∧ ∀ j ∈ (handAll c records s).wen.jobs3, j ∉ s.wen.jobs3 → j ∈ u.wen.jobs3

/-- The Log Unit runs and takes n more records (R172). -/
def LogRoom (n : Nat) (s : State) : Prop :=
  s.log.running = true ∧ s.log.writeList.length + n ≤ 16
    ∧ ∀ m, m < n → (s.log.producer + m + 1) % s.log.capacity ≠ s.log.consumer

/-- With room for n records, one of the n records handed from s on is of the category and of these eight words: its entry
stands in the write list behind those of s, and its job of nine writes is listed (R172). -/
def RecordMade (n : Nat) (c : Category) (words : List Word) (s u : State) : Prop :=
  LogRoom n s → ∃ m pos next, m < n ∧ next = (s.log.producer + m + 1) % s.log.capacity
    ∧ u.log.writeList[s.log.writeList.length + m]? = some ⟨c, pos, next, false⟩
    ∧ JobListed (.logRecord false) (recordJob pos next words) u

/-- The words of the SEQUENCE record of an entry to a restart state (R95, Table 2-9): word 3 is the state entered
(log 24). -/
def sequenceWords (new : RestartState) (slot arg : Word) (s : State) : List Word :=
  [1, new.code, slot, new.code, arg, lowHalf s.itm.frames, highHalf s.itm.frames, lowHalf s.itm.millis]

/-- What a cancellation of classes 2 and 3 leaves of a list: nothing, in a list that holds the jobs of its class. -/
def classOne (js : List Job) : List Job := js.filter fun j => j.kind.cls == .one

/-- The map image job of a disarm or of another event (R19, R20). -/
def imageJob (disarm : Bool) : Job :=
  ⟨.mapImage disarm, (List.range 224).map fun o => ⟨mapImageAddr o, .mapImage o⟩, false⟩

/-- The log and the class-3 jobs of u, whose log stopped behind some accepted records, others dropped: the records of the
cancelled jobs are lost and counted, the header job follows if any record was lost or dropped, and the map image job is
last (R110, R172, R174, R19). -/
structure Closed (disarm : Bool) (taken : List (LogEntry × List Word)) (dropped : Nat) (s u : State) : Prop where
  log : u.log = { s.log with
    running := false
    producer := (taken.getLast?.map (·.1.next)).getD s.log.written
    overflow := Nat.repeat satInc dropped (satAdd s.log.overflow s.log.writeList.length)
    writeList := taken.map Prod.fst
    marks := taken.foldl (fun m r => m.set r.1.position (s.log.irqMask.getLsbD r.1.category.bit)) s.log.marks
    irqN := u.log.irqN
    irqHeld := s.log.irqHeld || decide (0 < dropped) }
  irq : u.log.irqN = (u.log.irqHeld || u.log.irqLevel)
  jobs : u.wen.jobs3 = classOne s.wen.jobs3
    ++ taken.map (fun r => ⟨.logRecord r.1.closing, recordJob r.1.position r.1.next r.2, false⟩)
    ++ (if s.log.writeList = [] ∧ dropped = 0 then [] else [⟨.logHeader, [overflowWrite], false⟩])
    ++ [imageJob disarm]

/-- The closing of the log at a return to UNARMED: an ARM record first if arming ends, then the closing record with its
argument and the state left, each dropped if the ring is full (R170, R172, R174). With the log not running nothing is
recorded. Word 3 of the ARM record is the state left, which is the model's choice (log 46). -/
structure ClosesLog (armRecord : Option (Word × Word × Word)) (arg : Word) (s u : State) : Prop where
  standing : s.log.running = false →
    u.log = s.log ∧ u.wen.jobs3 = classOne s.wen.jobs3 ++ [imageJob armRecord.isNone]
  closing : ∀ p q r, s.log.running = true → p = s.log.written → q = (p + 1) % s.log.capacity →
    r = (q + 1) % s.log.capacity → ∀ last, last = recordWords .sequence RestartState.unarmed.code noSlot arg s →
      (armRecord = none →
          (q ≠ s.log.consumer → Closed true [(⟨.sequence, p, q, true⟩, last)] 0 s u)
            ∧ (q = s.log.consumer → Closed true [] 1 s u))
        ∧ ∀ code slot a first, armRecord = some (code, slot, a) → first = recordWords .arm code slot a s →
            (q ≠ s.log.consumer → r ≠ s.log.consumer →
                Closed false [(⟨.arm, p, q, false⟩, first), (⟨.sequence, q, r, true⟩, last)] 0 s u)
              ∧ (q ≠ s.log.consumer → r = s.log.consumer → Closed false [(⟨.arm, p, q, false⟩, first)] 1 s u)
              ∧ (q = s.log.consumer → Closed false [] 2 s u)

/-! ## Changes of restart state -/

/-- No timer of the Restart Controller runs (R94). -/
def timersStopped (r : Rct) : Prop :=
  r.budget.running = false ∧ r.contactor.running = false ∧ r.recharge.running = false ∧ r.verify.running = false
    ∧ r.fresh.running = false ∧ r.proving.running = false

/-- The timer of a state does not run after the state has been left (R100). -/
def OwnTimerStopped (left : RestartState) (r : Rct) : Prop :=
  match left with
  | .arming | .isolating => r.contactor.running = false
  | .recharging => r.recharge.running = false
  | .verifying => r.verify.running = false
  | .awaiting => r.fresh.running = false
  | .proving => r.proving.running = false
  | .unarmed | .normal | .tripped | .resuming | .lockout => True

/-- What the first trip of a sequence sets (R97). -/
structure FirstTrip (s u : State) : Prop where
  mode : u.rct.mode = if s.pins.brakeSet then .standstill else .rideThrough
  passes : u.rct.passCount = 0
  cause : u.rct.cause = none
  direction : u.rct.directionAtTrip = s.rct.direction
  marks : u.rfs.amplitudeMark = PerSlot.all false ∧ u.rfs.angleMark = PerSlot.all false
  budget : u.rct.budget = if s.pins.brakeSet then s.rct.budget else .load s.plan.budget

/-- What a later trip of a sequence keeps (R96). -/
structure LaterTrip (s u : State) : Prop where
  mode : u.rct.mode = s.rct.mode
  passes : u.rct.passCount = s.rct.passCount
  cause : u.rct.cause = s.rct.cause
  direction : u.rct.directionAtTrip = s.rct.directionAtTrip
  marks : u.rfs.amplitudeMark = s.rfs.amplitudeMark ∧ u.rfs.angleMark = s.rfs.angleMark
  budget : u.rct.budget = s.rct.budget

/-- A trip (R96, R97, R54, R90, R155, R156), with its SEQUENCE record behind n other records (R95). -/
structure Trips (n : Nat) (cause : TripCause) (s u : State) : Prop where
  restart : u.rct.restart = .tripped
  tripCause : u.rct.tripCause = some cause
  settling : u.rct.settlingSeen = false ∧ u.rct.scanSinceTrip = false
  copies : u.rct.direction = s.rct.direction ∧ u.rct.restartEnable = s.rct.restartEnable
  blocked : BlocksAll s.mpl.slots u
  cancelled : NoJobsOf JobKind.ofSequence u
  others : OtherJobsStay JobKind.ofSequence s u
  memory : CutsOnly JobKind.ofSequence s u
  holder : ¬Writing JobKind.ofSequence s → u.mpa.holder = s.mpa.holder
  record : RecordMade (n + 1) .sequence (sequenceWords .tripped (tripSlotWord cause) u.rct.directionAtTrip.code s) s u
  released : u.rfs.stage = none ∧ u.rfs.cursor = none
  latches : s.rct.restart.latching = true → u.bpu.latches = PerPhase.all none
  timer : OwnTimerStopped s.rct.restart u.rct
  first : s.rct.restart = .normal → FirstTrip s u
  later : s.rct.restart ≠ .normal → LaterTrip s u
  healthy : u.hif.driveHealthy = driveHealthyLevel .tripped u.rct.mode
  permit : u.hif.permit = (s.hif.permit && u.rct.mode == .rideThrough)
  trigger : s.cap.state = .running → s.cap.post = none → u.cap.kind = .trip ∧ u.cap.stamp = s.itm.frames
  kept : KeepsAllBut [.mem, .latches, .needs, .counts, .holder, .fin, .rct, .phases, .amplitudeMark, .angleMark, .cursor,
    .stage, .wen, .hif, .cap, .log, .cuts] s u

/-- An entry to LOCKOUT (R108, R77, R54, R155, R156), with its SEQUENCE record behind n other records (R95). -/
structure LocksOut (n : Nat) (c : LockoutCause) (s u : State) : Prop where
  restart : u.rct.restart = .lockout
  cause : u.rct.cause = some c
  timers : timersStopped u.rct
  faults : u.rct.pendingFaults = PerSlot.all none
  sequence : u.rct.mode = s.rct.mode ∧ u.rct.passCount = s.rct.passCount ∧ u.rct.watch = s.rct.watch
    ∧ u.rct.direction = s.rct.direction ∧ u.rct.restartEnable = s.rct.restartEnable
  blocked : BlocksAll s.mpl.slots u
  cancelled : NoJobsOf JobKind.ofSequence u
  others : OtherJobsStay JobKind.ofSequence s u
  memory : CutsOnly JobKind.ofSequence s u
  holder : ¬Writing JobKind.ofSequence s → u.mpa.holder = s.mpa.holder
  record : RecordMade (n + 1) .sequence (sequenceWords .lockout noSlot c.code s) s u
  released : u.rfs.stage = none ∧ u.rfs.cursor = none
  latches : s.rct.restart.latching = true → u.bpu.latches = PerPhase.all none
  lines : ∀ p, (u.fin.lines.get p).request = false ∧ (u.fin.lines.get p).window.running = false
    ∧ (u.fin.lines.get p).lastLevel = (s.fin.lines.get p).lastLevel
  intake : u.fin.slots = s.fin.slots
  outputs : u.hif.driveHealthy = false ∧ u.hif.permit = false
  kept : KeepsAllBut [.mem, .latches, .needs, .counts, .holder, .fin, .rct, .phases, .cursor, .stage, .wen, .hif, .log,
    .cuts] s u

/-- A return to UNARMED with the actions of R110, by ARM falling or, with an ARM record, by an end of arming (R110, R170,
R35, R44, R54, R59, R77, R88, R126, R144, R147, R154, R169, R174). -/
structure Disarms (armRecord : Option (Word × Word × Word)) (arg : Word) (s u : State) : Prop where
  restart : u.rct.restart = .unarmed
  timers : timersStopped u.rct
  emptied : u.rct.pendingFaults = PerSlot.all none ∧ u.rct.watch = PerSlot.all none
    ∧ u.rct.progress = PerSlot.all none
  sequence : u.rct.mode = s.rct.mode ∧ u.rct.passCount = s.rct.passCount ∧ u.rct.cause = s.rct.cause
    ∧ u.rct.direction = s.rct.direction ∧ u.rct.restartEnable = s.rct.restartEnable
  window : u.bpu.isOpen = false ∧ u.bpu.latches = PerPhase.all none ∧ u.bpu.counts = .zero ∧ u.bpu.deliveries = []
  scanner : u.ssc = { s.ssc with enabled := false, inProgress := false, position := none, ended := false }
  lines : ∀ p, (u.fin.lines.get p).request = false ∧ (u.fin.lines.get p).window.running = false
  strikes : ∀ i, (u.fin.slots.get i).strikes = 0 ∧ (u.fin.slots.get i).strikeTimer.running = false
    ∧ (u.fin.slots.get i).latch = (s.fin.slots.get i).latch
    ∧ (u.fin.slots.get i).lastCode = (s.fin.slots.get i).lastCode
  links : ∀ i, u.lsv.get i = { s.lsv.get i with recentTimer := (s.lsv.get i).recentTimer.stop }
  references : u.rfs.aux = [] ∧ u.rfs.amplitudeMark = PerSlot.all false ∧ u.rfs.angleMark = PerSlot.all false
    ∧ u.rfs.stage = none ∧ u.rfs.cursor = none
  outputs : u.hif.driveHealthy = false ∧ u.hif.permit = false ∧ u.hif.period.running = false
    ∧ u.hif.stale = s.hif.stale ∧ u.hif.lastTag = s.hif.lastTag
  intervals : u.itm.running = false ∧ u.itm.frames = s.itm.frames ∧ u.itm.millis = s.itm.millis
  log : u.log.running = false
  plan : u.pld.cursor = .none ∧ u.pld.copy = []
  blocked : BlocksAll s.mpl.slots u
  cancelled : NoJobsOf (fun k => k.cls == .two) u
  emptied2 : u.wen.jobs2 = classOne s.wen.jobs2 ∧ ∀ b w, u.wen.buffer b = .ready w ∨ u.wen.buffer b = .writing w → w.kind.cls = .one
  others : OtherJobsStay (fun k => k.cls != .one) s u
  memory : CutsOnly (fun k => k.cls != .one) s u
  holder : ¬Writing (fun k => k.cls != .one) s → u.mpa.holder = s.mpa.holder.map Holder.discarded
  capture : u.cap = if s.cap.state = .dumping then { s.cap with state := .frozen } else s.cap
  closing : ClosesLog armRecord arg (takeRecordCompletions s) u
  image : ImagePending u
  phases : ∀ p, (u.mpl.phases.get p).angleOffset = (s.mpl.phases.get p).angleOffset
    ∧ (u.mpl.phases.get p).scale = (s.mpl.phases.get p).scale
    ∧ (u.mpl.phases.get p).saturation = (s.mpl.phases.get p).saturation
  kept : KeepsAllBut [.mem, .isOpen, .latches, .needs, .counts, .deliveries, .holder, .ssc, .lsv, .fin, .rct, .phases,
    .amplitudeMark, .angleMark, .aux, .cursor, .stage, .wen, .hif, .cap, .log, .pld, .itm, .cuts] s u

/-! ## The records of a planning run (R122, R123, R129) -/

/-- The code and the argument of the MAP record of a slot whose entry a run takes from e to e' (Table 7-3): the lifetime
count after the increase, the home position, or the position held. -/
def mapRecordOf (e e' : SlotEntry) : Option (Word × Word) :=
  match e.role, e'.role with
  | .active _, .bypassedFault => some (1, e'.lifetime.setWidth 16)
  | .active _, .bypassedBalance h => some (2, word h)
  | .spare, .bypassedBalance h => some (2, word h)
  | .bypassedBalance _, .active q => some (3, word q)
  | .spare, .active q => some (4, word q)
  | _, _ => none

/-- What the run that leads from s to u hands the log, behind the map image job it queues (R122): a MAP record of each slot
it changed, ascending; REBALANCE with the source of offsets and scales; INFEASIBLE with the lowest phase below min_active,
A 0, B 1, C 2, if there is one (R123, Table 7-3); and COMMANDED with the number of writes of its contactor job, if it has
one (R129, Table 7-5). -/
def RunIsRecorded (source : Word) (s u : State) : Prop :=
  ∀ moved short commanded v,
    moved = allSlots.filterMap (fun i =>
      (mapRecordOf (s.mpl.slots.get i) (u.mpl.slots.get i)).map fun r => (r.1, word i.val, r.2)) →
    short = (Phase.all.filter fun p => decide (activeCount u.mpl.slots p < s.plan.minActive)).head? →
    commanded = (allSlots.filter fun i =>
      s.mpl.fitted.get i && (s.mpl.slots.get i).bypass != (u.mpl.slots.get i).bypass).length →
    v = handAll .contactor (if commanded = 0 then [] else [(1, noSlot, word commanded)])
      (handAll .map (moved ++ [(5, noSlot, source)] ++ short.toList.map fun p => (6, noSlot, word p.num))
        (queueMapImage false s)) →
    u.log = v.log ∧ u.wen = { v.wen with jobs2 := u.wen.jobs2 }

/-! ## The port at the end of a command (R27 to R29, R33, R34, R46, R150 to R152) -/

/-- The head job of a list for staging: the first with writes not yet staged; a release stands at the head until its gates
are staged (R32). -/
def IsHead (stage : Option ReleaseStage) (js : List Job) (j : Job) : Prop :=
  ∃ before after, js = before ++ j :: after
    ∧ (∀ i ∈ before, i.todo = [] ∧ (i.kind = .release → stage = none ∨ stage = some .gates))
    ∧ (j.todo ≠ [] ∨ j.kind = .release ∧ stage ≠ none ∧ stage ≠ some .gates)

def NoHead (stage : Option ReleaseStage) (js : List Job) : Prop :=
  ∀ i ∈ js, i.todo = [] ∧ (i.kind = .release → stage = none ∨ stage = some .gates)

/-- A buffer is filled from class 3, or stays EMPTY. -/
def FillsFromThree (b : BufferId) (s : State) : Prop :=
  (∀ j, IsHead s.rfs.stage s.wen.jobs3 j → fillBuffer b s = stageJob b .three j s)
    ∧ (NoHead s.rfs.stage s.wen.jobs3 → fillBuffer b s = s)

/-- Which job fills a buffer (R33): only an EMPTY one is filled; from the head job of class 1 or, while the other buffer is
not READY, from class 2 or failing that class 3. A release in stage AUXILIARY gives a drained buffer, and while it waits it
fills none (R151). -/
def FillsInOrder : Prop :=
  ∀ b s,
    (s.wen.buffer b ≠ .empty → fillBuffer b s = s)
      ∧ (s.wen.buffer b = .empty →
          (∀ j, IsHead s.rfs.stage s.wen.jobs1 j → fillBuffer b s = stageJob b .one j s)
            ∧ (NoHead s.rfs.stage s.wen.jobs1 →
                (∀ w, s.wen.buffer b.other = .ready w → fillBuffer b s = s)
                  ∧ ((∀ w, s.wen.buffer b.other ≠ .ready w) →
                      (NoHead s.rfs.stage s.wen.jobs2 → FillsFromThree b s)
                        ∧ ∀ j, IsHead s.rfs.stage s.wen.jobs2 j →
                            (j.kind ≠ .release ∨ (∀ w, s.rfs.stage ≠ some (.auxiliary w)) →
                                fillBuffer b s = stageJob b .two j s)
                              ∧ (j.kind = .release → s.rfs.stage = some (.auxiliary true) → releaseStaged s = true →
                                  FillsFromThree b s)
                              ∧ ∀ w t, j.kind = .release → s.rfs.stage = some (.auxiliary w) →
                                  (w = false ∨ releaseStaged s = false) → t = stageAuxiliary b s →
                                  (t.wen.buffer b ≠ .empty → fillBuffer b s = t)
                                    ∧ (t.wen.buffer b = .empty →
                                        (∀ j, IsHead t.rfs.stage t.wen.jobs3 j → fillBuffer b s = stageJob b .three j t)
                                          ∧ (NoHead t.rfs.stage t.wen.jobs3 → fillBuffer b s = t)))))

/-- What a fill stages (R33, R150): up to eight writes of the head job, in order, each with its value formed now; the job
keeps the rest, no other list or buffer moves, and the last reference write ends stage REFERENCES. -/
def StagesABurst : Prop :=
  ∀ b c j s u before after, s.wen.jobs c = before ++ j :: after → IsHead s.rfs.stage (s.wen.jobs c) j →
    (∀ i ∈ before, i.todo = [] ∧ (i.kind = .release → s.rfs.stage = none ∨ s.rfs.stage = some .gates)) →
    u = stageJob b c j s →
    ∃ w, u.wen.buffer b = .ready w ∧ w.kind = j.kind
      ∧ w.writes.map Prod.fst = (j.todo.take 8).map JobWrite.addr
      ∧ (∀ n x, n < 8 → j.todo[n]? = some x → (∀ o, x.source ≠ .mapImage o) ∨ (∀ y ∈ j.todo, ∀ r, y.source ≠ .refAmplitude r) →
          w.writes[n]? = some (x.addr, (formValue x.source s).2))
      ∧ (w.last = true ↔ j.todo.length ≤ 8 ∧ (j.kind = .release → s.rfs.stage = some .gates))
      ∧ (∀ r, w.cursor = some r ↔ ∃ y x z, j.todo.take 8 = y ++ x :: z ∧ x.source = .refCarrier r
          ∧ ∀ v ∈ z, ∀ q, v.source ≠ .refCarrier q)
      ∧ u.wen.jobs c = before ++ { j with todo := j.todo.drop 8 } :: after
      ∧ (∀ d, d ≠ c → u.wen.jobs d = s.wen.jobs d) ∧ u.wen.buffer b.other = s.wen.buffer b.other
      ∧ u.wen.done = s.wen.done
      ∧ (∀ v, s.wen.buffer b.other = .ready v → u.wen.xOlder = (b == .y))
      ∧ u.rfs.stage = (if j.kind = .release ∧ s.rfs.stage = some .references ∧ j.todo.length ≤ 8 then
          some (.auxiliary false) else s.rfs.stage)
      ∧ ((∀ y ∈ j.todo, ∀ r, y.source ≠ .refAmplitude r) → KeepsAllBut [.stage, .wen] s u)
      ∧ KeepsAllBut [.counts, .phases, .stage, .wen] s u

/-- The value of a write at its fill (R18, R33, R91, R150, R152, R172). An amplitude that saturates is counted (R10, R57). -/
def FormsValues : Prop :=
  (∀ s v i,
      formValue (.const v) s = (s, v) ∧ formValue (.commandedBypass i) s = (s, (s.mpl.slots.get i).bypass.code)
        ∧ formValue .overflowCount s = (s, s.log.overflow)
        ∧ (∀ r, recordOfSlot s i = some r → formValue (.gateIntent i) s = (s, (s.rfs.image.get r).gate))
        ∧ (∀ o, formValue (.mapImage o) s = (s, mapImageWord s o))
        ∧ (∀ w, formValue (.captureHeader w) s = (s, captureHeaderWord s.cap w))
        ∧ (∀ e x, s.cap.ring[e]? = some x → [0, 1, 2, 3].map (fun w => (formValue (.captureEntry e w) s).2)
            = [word x.record.val, word x.word.val, x.value, x.stamp])
        ∧ ∀ e w, (formValue (.captureEntry e w) s).1 = s)
    ∧ (∀ s r a, a = amplitudeOf s r (s.rfs.image.get r).amplitude →
        formValue (.refAngle r) s = (s, angleOf s r (s.rfs.image.get r).angle)
          ∧ formValue (.refCarrier r) s = (s, carrierOf s r (s.rfs.image.get r).carrier)
          ∧ (a.2 = false → formValue (.refAmplitude r) s = (s, a.1))
          ∧ (a.2 = true → ∀ t, t = formValue (.refAmplitude r) s → t.2 = a.1
              ∧ (∀ p, (t.1.mpl.phases.get p).saturation = if p = phaseOf r then
                  satInc (s.mpl.phases.get p).saturation else (s.mpl.phases.get p).saturation)
              ∧ t.1.bpu.counts = (if s.bpu.isOpen then
                  { s.bpu.counts with saturation := satInc s.bpu.counts.saturation } else s.bpu.counts)
              ∧ KeepsAllBut [.counts, .phases] s t.1))
    ∧ (∀ s : State, (List.range 8).map (captureHeaderWord s.cap)
        = [s.cap.state.code, word s.cap.ring.length, s.cap.kind.code, lowHalf s.cap.stamp, highHalf s.cap.stamp,
          s.cap.missed, 0, word (s.cap.post.getD 0)])
    ∧ (∀ s : State, (List.range 8).map (mapImageWord s)
        = [s.rct.restart.code, s.rct.mode.code, word s.rct.passCount, s.mpl.generation, s.pld.result.code, s.pld.arg,
          causeCode s.rct.cause, word s.mpl.k])
    ∧ (∀ (s : State) p r, r = s.mpl.phases.get p → (List.range 8).map (fun w => mapImageWord s (8 * (p.num + 1) + w))
        = [word (activeCount s.mpl.slots p), word (deficit s.mpl.slots s.mpl.k p), r.angleOffset, r.scale, r.saturation,
          r.torn, word (balanceCount s.mpl.slots p), flag (s.fin.lines.get p).request])
    ∧ ∀ (s : State) i e l f, e = s.mpl.slots.get i → l = s.lsv.get i → f = s.fin.slots.get i →
        (List.range 8).map (fun w => mapImageWord s (32 + 8 * i.val + w))
          = [e.role.code, (match e.role with | .active q => word q | .bypassedBalance h => word h | _ => 0xFFFF),
            l.link.code,
            flag l.marginal + 2 * flag l.recentlyLost + 4 * flag e.quarantine + 8 * flag (l.link == .degraded),
            word f.strikes, l.errored, l.missed, word (e.lifetime.toNat * 256 + f.lastCode % 256)]

/-- The auxiliary drain (R151): entries leave from the head; those of a dark position are discarded without a write, each
with a MAP record of code 8, and the others give up to eight writes. A fill that finds nothing to write makes the release
wait for the writes staged so far, and with none of them left stage GATES begins. -/
def DrainsTheList : Prop :=
  (∀ s writes t, drain s = (writes, t) → ∃ taken left, s.rfs.aux = taken ++ left ∧ t.rfs.aux = left
      ∧ writes = taken.filterMap (fun e => (slotOfRecord s e.record).map fun i =>
          (physicalCommandAddr i (5 + e.aux.val), e.value))
      ∧ writes.length ≤ 8 ∧ (left ≠ [] → writes.length = 8)
      ∧ (writes.length = 8 → ∀ e, taken.getLast? = some e → slotOfRecord s e.record ≠ none)
      ∧ t = { s with rfs := { s.rfs with aux := left }, wen := t.wen, log := t.log }
      ∧ ∀ w, w = ((taken.filter fun e => (slotOfRecord s e.record).isNone).foldl
            (fun x e => logRecord .map 8 noSlot (word e.record.val) x) s) → t.wen = w.wen ∧ t.log = w.log)
    ∧ ∀ b s writes t u, drain s = (writes, t) → u = stageAuxiliary b s → s.wen.buffer b = .empty →
        (writes ≠ [] → u.wen.buffer b = .ready ⟨.release, writes, none, false⟩ ∧ u.rfs = t.rfs
            ∧ KeepsAllBut [.wen] t u ∧ (∀ c, u.wen.jobs c = t.wen.jobs c) ∧ u.wen.done = t.wen.done
            ∧ u.wen.buffer b.other = s.wen.buffer b.other)
          ∧ (writes = [] → releaseStaged s = true → u = { t with rfs := { t.rfs with stage := some (.auxiliary true) } })
          ∧ ∀ w before j after, writes = [] → releaseStaged s = false → s.rfs.stage = some (.auxiliary w) →
              s.wen.jobs2 = before ++ j :: after → (∀ i ∈ before, i.todo = [] ∧ i.kind ≠ .release) → j.kind = .release →
              u.rfs.stage = some .gates
                ∧ (activeSlots s.mpl.slots = [] → JobKind.release ∈ u.wen.done
                    ∧ (NoHead (some .gates) after → u.wen.buffer b = .empty ∧ u.wen.jobs2 = before ++ after))
                ∧ (activeSlots s.mpl.slots ≠ [] → ∃ x, u.wen.buffer b = .ready x ∧ x.kind = .release
                    ∧ x.writes = ((activeSlots s.mpl.slots).take 8).map (fun i =>
                        (physicalCommandAddr i 0, (formValue (.gateIntent i) s).2))
                    ∧ (x.last = true ↔ (activeSlots s.mpl.slots).length ≤ 8)
                    ∧ u.wen.jobs2 = before ++ { j with todo :=
                        ((activeSlots s.mpl.slots).drop 8).map fun i => ⟨physicalCommandAddr i 0, .gateIntent i⟩ } :: after)

/-- The READY buffer of a class: of two the one filled first (R33). -/
def ReadyInOrder : Prop :=
  ∀ (w : Wen) c x y,
    (w.x = .ready x → x.kind.cls = c → (∀ z, w.y = .ready z → z.kind.cls ≠ c) → w.readyOf c = some .x)
      ∧ (w.y = .ready y → y.kind.cls = c → (∀ z, w.x = .ready z → z.kind.cls ≠ c) → w.readyOf c = some .y)
      ∧ (w.x = .ready x → w.y = .ready y → x.kind.cls = c → y.kind.cls = c →
          w.readyOf c = some (if w.xOlder then .x else .y))
      ∧ ((∀ b z, w.buffer b = .ready z → z.kind.cls ≠ c) → w.readyOf c = none)

/-- What a grant to the Write Engine starts (R19, R33): the buffer is WRITING and its job has begun. -/
def GrantStartsTheBuffer : Prop :=
  ∀ s b w u, s.mpa.holder = none → choose s = some (.wen b) → s.wen.buffer b = .ready w → u = grant s →
    u.mpa.holder = some (.wen b) ∧ u.wen.buffer b = .writing w ∧ u.wen.buffer b.other = s.wen.buffer b.other
      ∧ u.mpa.fair = (if w.kind.cls = .one then s.mpa.fair else 0)
      ∧ (∀ before j after, s.wen.jobs w.kind.cls = before ++ j :: after → (∀ i ∈ before, i.kind ≠ w.kind) →
          j.kind = w.kind → u.wen.jobs w.kind.cls = before ++ { j with begun := true } :: after)
      ∧ (∀ c, c ≠ w.kind.cls → u.wen.jobs c = s.wen.jobs c) ∧ KeepsAllBut [.holder, .fair, .wen] s u

/-- The recheck of a translated write at its grant (R46): one that is not live any more is stopped and makes no tenure, an
aux word among them is held or refused with AUX_FULL, and a boundary follows at once (log 13). -/
def RecheckStopsTheStale : Prop :=
  (∀ s r w a v i m g p t k d l,
      stillLive s (.translated r w a v) = isLive s r w ∧ stillLive s (.pair r i m g) = isLive s r 2
        ∧ stillLive s (.commitAlone p i m t k) = true ∧ stillLive s (.passWrite a v d) = true
        ∧ stillLive s (.read a l) = true)
    ∧ (∀ s need rest, s.mpa.holder = none → s.bpu.needs = need :: rest → stillLive s need = false →
        (s.pins.resetN = false ∨ s.wen.readyOf .one = none ∧ readInProgress s = none
          ∧ (s.mpa.fair < 8 ∨ lowerReady s = false)) →
        ∃ t, grant s = grant t ∧ t.bpu.needs = rest ∧ t.mpa.holder = none ∧ t.mpa.fair = bpuFair s
          ∧ ((∀ r w a v, need = .translated r w a v → w.val < 5) →
              KeepsAllBut [.needs, .fair] s t)
          ∧ ∀ r (i : Fin 3) a v, need = .translated r ⟨5 + i.val, by omega⟩ a v →
              (s.rfs.aux.length < 32 → t.rfs.aux = s.rfs.aux ++ [⟨r, i, v⟩] ∧ KeepsAllBut [.needs, .fair, .aux] s t)
                ∧ (32 ≤ s.rfs.aux.length →
                    t.bpu.counts = (if s.bpu.isOpen then
                      { s.bpu.counts with auxFull := satInc s.bpu.counts.auxFull } else s.bpu.counts)
                      ∧ KeepsAllBut [.needs, .counts, .fair] s t))
    ∧ ∀ s, bpuFair s = if lowerReady s then min 8 (s.mpa.fair + 1) else 0

/-- The order of a boundary with no host need (R28). -/
def GrantsWithoutHostNeed : Prop :=
  ∀ s, s.mpa.holder = none → s.pins.resetN = true → s.bpu.needs = [] →
    (∀ b, s.wen.readyOf .one = some b → (grant s).mpa.holder = some (.wen b))
      ∧ (s.wen.readyOf .one = none →
          (∀ h, readInProgress s = some h → grant s = { s with mpa := { s.mpa with holder := some h } })
            ∧ (readInProgress s = none →
                (∀ b, s.wen.readyOf .two = some b → (grant s).mpa.holder = some (.wen b) ∧ (grant s).mpa.fair = 0)
                  ∧ (s.wen.readyOf .two = none →
                      (∀ b, s.wen.readyOf .three = some b →
                          (grant s).mpa.holder = some (.wen b) ∧ (grant s).mpa.fair = 0)
                        ∧ (s.wen.readyOf .three = none → grant s = s))))

/-! ## What a frame does (R71, R78, R90, R92, R126, R127, R132 to R140, R168) -/

/-- Entry to AWAITING with its reason, the controller's registers being r but for the state and the fresh-set timer: the
conditions of R148 are tested at once, and if they hold the release starts (R148, R150). -/
def EntersAwaiting (reason : Word) (r : Rct) (s u : State) : Prop :=
  ∀ ready, ready = (freshComplete s = true ∧ s.hif.stale < 3 ∧ noFaultPending s = true) →
    RecordMade 1 .sequence (sequenceWords .awaiting noSlot reason s) s u
      ∧ (¬ready → u.rct = { r with restart := .awaiting, fresh := .load s.plan.freshTimeout }
          ∧ KeepsAllBut [.rct, .wen, .hif, .log] s u)
      ∧ (ready → u.rct = { r with restart := .resuming, fresh := (Timer.load s.plan.freshTimeout).stop }
          ∧ RecordMade 2 .sequence (sequenceWords .resuming noSlot s.rct.mode.code s) s u
          ∧ JobListed .release (referenceWrites s) u ∧ u.rfs.cursor = none
          ∧ u.rfs.stage = some (if referenceWrites s = [] then .auxiliary false else .references)
          ∧ KeepsAllBut [.rct, .cursor, .stage, .wen, .hif, .log] s u)

/-- Entry to RECHARGING from ISOLATING: a progress record for every ACTIVE slot, the RESET job, the gate closed, the
recharge timer in place of the contactor timer (R130, R131, R127). -/
def EntersRecharging (s u : State) : Prop :=
  u.rct = { s.rct with
      restart := .recharging, contactor := s.rct.contactor.stop, recharge := .load s.plan.rechargeTimeout
      progress := u.rct.progress, resetWritten := false, gateOpen := false }
    ∧ (∀ j, u.rct.progress.get j =
        if (s.mpl.slots.get j).role.isActive then some ⟨.resetSent, 0, 0, false⟩ else none)
    ∧ (activeSlots s.mpl.slots = [] → JobKind.resetGate ∈ u.wen.done)
    ∧ (activeSlots s.mpl.slots ≠ [] → JobListed .resetGate (gateTo 2 (activeSlots s.mpl.slots)) u)
    ∧ RecordMade 1 .sequence (sequenceWords .recharging noSlot (word s.rct.passCount) s) s u
    ∧ KeepsAllBut [.rct, .wen, .hif, .log] s u

/-- A scan end as the Restart Controller and the Fault Intake take it (R61, R62): the settling scan becomes seen at the end
of a scan begun after the trip (R98); the expired windows stop and the report names their phases, which in TRIPPED locks
out with UNIDENTIFIED, and otherwise the report is judged (R82, R99); in VERIFYING a verify window at 0 makes a fault of
code 69 for every slot not verified, ascending (R141). -/
def ScanEndTaken (s w : State) : Prop :=
  ∀ r late expired,
    r = { s with
      rct := { s.rct with settlingSeen := s.rct.settlingSeen || s.rct.scanSinceTrip }
      fin := { s.fin with
        lines := s.fin.lines.map fun l => if l.request && l.window.due then { l with window := l.window.stop } else l } } →
    late = (allSlots.filter fun i => (s.rct.progress.get i).any (!·.verified)) →
    expired = (∃ p, (s.fin.lines.get p).request = true ∧ (s.fin.lines.get p).window.due = true) →
    (s.rct.restart = .tripped →
        (expired → LocksOut 0 .unidentified r w) ∧ (¬expired → w = identificationReport false r))
      ∧ (s.rct.restart = .verifying → s.rct.verify.due = true → w = late.foldl (fun t i => takeFault i 69 t) r)
      ∧ (s.rct.restart ≠ .tripped → s.rct.restart ≠ .verifying ∨ s.rct.verify.due = false → w = r)

/-- The FRAME edge behind the scanner: the held latches are committed in the order A, B, C and counted as torn (R53), the
acknowledgement gate opens if the RESET job is written (R131), and the windows and the period timer count down (R82, R138,
R161). -/
def EdgeAfterScan (w u : State) : Prop :=
  u.rct = { w.rct with
      gateOpen := w.rct.gateOpen || (w.rct.restart == .recharging && w.rct.resetWritten)
      verify := w.rct.verify.tick }
    ∧ u.hif = { w.hif with period := w.hif.period.tick }
    ∧ u.fin.slots = w.fin.slots
    ∧ (∀ p, u.fin.lines.get p = { w.fin.lines.get p with window := (w.fin.lines.get p).window.tick })
    ∧ u.bpu.latches = PerPhase.all none
    ∧ u.bpu.needs.map Need.writes = w.bpu.needs.map Need.writes ++ Phase.all.filterMap (fun p =>
        (w.bpu.latches.get p).map fun l => [(physicalCommandAddr l.slot 1, l.amplitude)])
    ∧ (∀ p, u.mpl.phases.get p = { w.mpl.phases.get p with
        torn := if (w.bpu.latches.get p).isSome then satInc (w.mpl.phases.get p).torn
          else (w.mpl.phases.get p).torn })
    ∧ (∀ n, n = (Phase.all.filter fun p => (w.bpu.latches.get p).isSome).length → u.bpu.counts =
        if w.bpu.isOpen then { w.bpu.counts with tornPair := Nat.repeat satInc n w.bpu.counts.tornPair } else w.bpu.counts)
    ∧ KeepsAllBut [.latches, .needs, .counts, .fin, .rct, .phases, .hif] w u

/-- The writes of a capture dump of n entries: the eight header words, four words for each entry, oldest first, and last
the state word FROZEN (R91, Table 2-7). -/
def dumpWrites (n : Nat) : List JobWrite :=
  (List.range 8).map (fun w => ⟨BitVec.ofNat 18 (0xD00 + w), .captureHeader w⟩)
    ++ (List.range n).flatMap (fun e =>
      (List.range 4).map fun w => ⟨BitVec.ofNat 18 (0xD08 + 4 * e + w), .captureEntry e w⟩)
    ++ [⟨0xD00, .const 1⟩]

/-- The end of a status read: the words go through the evaluation of the frame, and the scan moves on or ends (R60, R61,
R98). The evaluation: supervision first; a link that becomes LOST reports code 64 (R79); a link that stays UP or DEGRADED
hands a good frame to the Fault Intake, the Restart Controller and the Capture Unit in turn, and another frame to the
controller alone (R71). A fault that ends arming ends it there (R59, R170). -/
def FramesAreHandedOn : Prop :=
  (∀ s far i v, s.mpa.holder = some (.ssc i false) →
      v = evaluateFrame i (some (readStatus (applyFar far s.mem) i))
        { s with mem := applyFar far s.mem, mpa := { s.mpa with holder := none } } →
      CompletesAs (.sscSlotTenureEnd far) s fun u =>
        (v.ssc.enabled = false → u = v)
          ∧ (v.ssc.enabled = true →
              (∀ j, i < j → v.mpl.fitted.get j = true → (∀ l, i < l → l < j → v.mpl.fitted.get l = false) →
                  u = { v with ssc := { v.ssc with position := some j } })
                ∧ ((∀ j, i < j → v.mpl.fitted.get j = false) →
                    ScanEndTaken { v with ssc := { v.ssc with inProgress := false, position := none, ended := true } } u)))
    ∧ (∀ s i w o t, s.ssc.enabled = true → o = outcomeOf (s.lsv.get i) w → t = supervise i o s →
        ((t.lsv.get i).link = .lost →
            evaluateFrame i w s = if (s.lsv.get i).link = .lost then t else takeFault i 64 t)
          ∧ ((t.lsv.get i).link ≠ .lost → o.isGood = false → evaluateFrame i w s = judgeFrame t.rct.restart i o t)
          ∧ ∀ x v c j, (t.lsv.get i).link ≠ .lost → o = .good x → v = statusReport i x.cell x.code t →
              c = confirmContactor i (Feedback.ofWord x.feedback) v → j = judgeFrame v.rct.restart i o c →
              (v.ssc.enabled = false → evaluateFrame i w s = v)
                ∧ (v.ssc.enabled = true → evaluateFrame i w s = if s.plan.captureSlot = some i then
                    captureRange (if s.plan.captureTemperature then x.temperature else x.dc) j else j))
    ∧ ∀ s i o w r,
        (s.rct.progress.get i = none ∨ r ≠ .recharging ∧ r ≠ .verifying → judgeFrame r i o s = s)
          ∧ ∀ q, s.rct.progress.get i = some q →
              judgeFrame .recharging i (.good w) s = rechargeFrame i w q s
                ∧ (o.isGood = false → judgeFrame .recharging i o s = s)
                ∧ judgeFrame .verifying i o s = verifyFrame i o q s

/-- A good frame's fault report (R78, R84): code 0 in a cell state other than FAULT clears the latch; otherwise a set latch
stops the report, and a clear one is set and the fault taken, with its FAULT record. -/
def StatusReportsAreTaken : Prop :=
  ∀ s i cell code u, u = statusReport i cell code s →
    (code = 0 → cell ≠ 3 → u = { s with
        fin := { s.fin with slots := s.fin.slots.set i { s.fin.slots.get i with latch := false } } })
      ∧ ∀ c, (code = 0 ∧ cell = 3 ∧ c = 63 ∨ 63 < code.toNat ∧ c = 63
            ∨ 1 ≤ code.toNat ∧ code.toNat ≤ 63 ∧ c = code.toNat) →
          ((s.fin.slots.get i).latch = true → u = s)
            ∧ ∀ e t, (s.fin.slots.get i).latch = false → e = { s.fin.slots.get i with latch := true } →
                t = { s with fin := { s.fin with slots := s.fin.slots.set i e } } →
                u = takeFault i c t ∧ (u.fin.slots.get i).latch = true
                  ∧ ((s.mpl.slots.get i).role.reports = true → (u.fin.slots.get i).lastCode = c
                      ∧ (s.rct.restart ≠ .arming → RecordMade 1 .fault [2, word c, word i.val, s.rct.restart.code,
                          (classify s.plan c e).1.arg, lowHalf s.itm.frames, highHalf s.itm.frames,
                          lowHalf s.itm.millis] s u))

/-- A feedback at the watch list (R126): a slot that does not confirm stays with the feedback as its last, one that confirms
leaves. The list that empties while the contactor timer runs leads from ISOLATING to RECHARGING with the RESET job (R127,
R130, R131) and from ARMING to AWAITING, or under stale mode TRIP with a stale host to LOCKOUT (R163, R168). -/
def FeedbackConfirms : Prop :=
  ∀ s i f u, u = confirmContactor i f s →
    (s.rct.watch.get i = none → u = s)
      ∧ ∀ e met, s.rct.watch.get i = some e →
          met = (e.awaits = .opened ∧ f = .opened ∨ e.awaits = .closed ∧ f = .closed) →
          (¬met → u = { s with rct := { s.rct with watch := s.rct.watch.set i (some { e with last := some f }) } })
            ∧ ∀ w t, met → w = s.rct.watch.set i none → t = { s with rct := { s.rct with watch := w } } →
                ((∃ j, w.get j ≠ none) ∨ s.rct.contactor.running = false
                    ∨ s.rct.restart ≠ .isolating ∧ s.rct.restart ≠ .arming → u = t)
                  ∧ ((∀ j, w.get j = none) → s.rct.contactor.running = true →
                      (s.rct.restart = .isolating → EntersRecharging t u)
                        ∧ (s.rct.restart = .arming →
                            (s.plan.staleTrip = true → 3 ≤ s.hif.stale → LocksOut 1 .hostStale t u)
                              ∧ (s.plan.staleTrip = false ∨ s.hif.stale < 3 →
                                  EntersAwaiting 0 { t.rct with contactor := s.rct.contactor.stop } t u)))

/-- A good frame of a slot with a progress record in RECHARGING. Behind the open gate, cell state and fault code 0 with the
latch clear acknowledge the RESET, which lists the slot's BLOCK job (R132, R133). The settle count runs in the ready band,
and the last slot to settle leads to VERIFYING (R134, R137); otherwise the thresholds are judged (R135). -/
def RechargeFramesAreJudged : Prop :=
  (∀ s i w q u, u = rechargeFrame i w q s → ∀ acks, acks = (s.rct.gateOpen = true ∧ q.step = .resetSent ∧ w.cell = 0
        ∧ w.code = 0 ∧ (s.fin.slots.get i).latch = false) →
      (q.step = .resetSent → ¬acks → u = s)
        ∧ (acks → u = judgeRecharge i w.dc { q with step := .acknowledged } { s with wen := { s.wen with
            jobs2 := s.wen.jobs2 ++ [⟨.blockGate, [⟨physicalCommandAddr i 0, .const 0⟩], false⟩] } })
        ∧ (q.step ≠ .resetSent → u = judgeRecharge i w.dc q s))
    ∧ ∀ s i dc q u n q' t, s.rct.restart = .recharging → u = judgeRecharge i dc q s →
        ∀ inBand, inBand = (s.plan.readyLow ≤ dc.toNat ∧ dc.toNat ≤ s.plan.readyHigh) →
        (inBand → n = q.settle + 1) → (¬inBand → n = 0) →
        (q.step = .acknowledged → inBand → s.plan.settleFrames ≤ n → q' = { q with settle := n, step := .settled }) →
        (q.step = .acknowledged → ¬inBand ∨ n < s.plan.settleFrames → q' = { q with settle := n }) →
        (q.step ≠ .acknowledged → q' = q) →
        t = { s with rct := { s.rct with progress := s.rct.progress.set i (some q') } } →
        ∀ done, done = (q.step = .acknowledged ∧ ∀ j p, t.rct.progress.get j = some p → p.step = .settled) →
          (done →
              u.rct = { t.rct with
                  restart := .verifying, recharge := s.rct.recharge.stop, gateOpen := false
                  verify := .load s.plan.verifyWindow, progress := u.rct.progress }
                ∧ (∀ j, u.rct.progress.get j
                    = (t.rct.progress.get j).map fun p => { p with cleanRun := 0, verified := false })
                ∧ RecordMade 1 .sequence (sequenceWords .verifying noSlot (word s.rct.passCount) s) s u
                ∧ KeepsAllBut [.rct, .wen, .hif, .log] s u)
            ∧ (¬done →
                (dc.toNat < s.plan.dcUnder → u = takeFault i 67 t)
                  ∧ (s.plan.dcUnder ≤ dc.toNat → s.plan.dcOver < dc.toNat → u = takeFault i 68 t)
                  ∧ (s.plan.dcUnder ≤ dc.toNat → dc.toNat ≤ s.plan.dcOver → u = t))

/-- A frame of a slot with a progress record in VERIFYING: a clean one lengthens the run and at the verify run the slot is
verified, another sets the run to 0 (R138, R139); the last slot to be verified leads to AWAITING (R140). -/
def VerifyFramesAreJudged : Prop :=
  ∀ s i o q u, s.rct.restart = .verifying → u = verifyFrame i o q s → ∀ clean, clean = (∃ w, o = .good w ∧ w.cell = 0
      ∧ w.code = 0 ∧ s.plan.readyLow ≤ w.dc.toNat ∧ w.dc.toNat ≤ s.plan.readyHigh ∧ (s.lsv.get i).recentlyLost = false) →
    ∀ put : Progress → State, put = (fun p => { s with rct := { s.rct with progress := s.rct.progress.set i (some p) } }) →
      (q.verified = true → u = s)
        ∧ (q.verified = false → ¬clean → u = put { q with cleanRun := 0 })
        ∧ (q.verified = false → clean → q.cleanRun + 1 < s.plan.verifyRun → u = put { q with cleanRun := q.cleanRun + 1 })
        ∧ ∀ t, q.verified = false → clean → s.plan.verifyRun ≤ q.cleanRun + 1 →
            t = put { q with cleanRun := q.cleanRun + 1, verified := true } →
            ((∃ j p, t.rct.progress.get j = some p ∧ p.verified = false) → u = t)
              ∧ ((∀ j p, t.rct.progress.get j = some p → p.verified = true) →
                  EntersAwaiting 0 { t.rct with verify := s.rct.verify.stop, progress := PerSlot.all none } t u)

/-- The range trigger (R92) with what a trigger does (R90): in the ring RUNNING with no post count running it is recorded
with its stamp and freezes the ring or starts the count; otherwise it is counted as missed. -/
def RangeFieldTriggers : Prop :=
  ∀ s v u, u = captureRange v s → ∀ inside, inside = (if s.plan.captureTemperature then
        s.plan.captureLow.toInt ≤ v.toInt ∧ v.toInt ≤ s.plan.captureHigh.toInt
      else s.plan.captureLow.toNat ≤ v.toNat ∧ v.toNat ≤ s.plan.captureHigh.toNat) →
    ∀ crosses, crosses = (if s.plan.captureLeave then s.cap.range = .inside ∧ ¬inside
      else s.cap.range = .outside ∧ inside) →
    (inside → u.cap.range = .inside) ∧ (¬inside → u.cap.range = .outside)
      ∧ (¬crosses → u = { s with cap := { s.cap with range := u.cap.range } })
      ∧ (crosses → s.cap.state ≠ .running ∨ s.cap.post ≠ none →
          u = { s with cap := { s.cap with range := u.cap.range, missed := satInc s.cap.missed } })
      ∧ (crosses → s.cap.state = .running → s.cap.post = none →
          u.cap = { s.cap with
              range := u.cap.range, kind := .range, stamp := s.itm.frames
              state := if s.plan.capturePost = 0 then .dumping else .running
              post := if s.plan.capturePost = 0 then none else some s.plan.capturePost }
            ∧ (s.plan.capturePost = 0 → JobListed .captureDump (dumpWrites s.cap.ring.length) u)
            ∧ RecordMade 1 .capture [8, 1, 0xFFFF, s.rct.restart.code, 1, lowHalf s.itm.frames, highHalf s.itm.frames,
                lowHalf s.itm.millis] s u
            ∧ KeepsAllBut [.wen, .cap, .log] s u)

/-! ## Laws of the hoist lines (R155, R156, L6) -/

/-- DRIVE_HEALTHY has the level of Table 10-2; the permit is high in NORMAL or a RIDE_THROUGH sequence only; the
proof-needed flag is set exactly when the permit is low. -/
def HoistLines (s : State) : Prop :=
  s.hif.driveHealthy = driveHealthyLevel s.rct.restart s.rct.mode
    ∧ (s.hif.permit = true → permitFalls s.rct.restart s.rct.mode = false)
    ∧ s.hif.proofNeeded = !s.hif.permit

/-- A plan read is in progress in ARMING only, with the contactor timer stopped; that timer runs in ARMING and ISOLATING
only (R165, R168, Table 6-5). -/
def ArmingOrder (s : State) : Prop :=
  (s.pld.cursor ≠ .none → s.rct.restart = .arming ∧ s.rct.contactor.running = false)
    ∧ (s.rct.contactor.running = true → s.rct.restart = .arming ∨ s.rct.restart = .isolating)

def HoistLaw (s : State) : Prop := HoistLines s ∧ ArmingOrder s

/-! ## Law of the unarmed part (R44, R59, R94, R154, R169, R174) -/

/-- In UNARMED the window is closed, no scan is enabled, the log and the Interval Timer stand, no plan is read and no
timer runs. -/
def QuietWhenUnarmed (s : State) : Prop :=
  s.rct.restart = .unarmed →
    s.bpu.isOpen = false ∧ s.ssc.enabled = false ∧ s.log.running = false ∧ s.itm.running = false
      ∧ s.pld.cursor = .none ∧ s.hif.period.running = false ∧ timersStopped s.rct

/-! ## Bounds (R29, R89, L4, L8, R161, R172) -/

def Bounded (s : State) : Prop :=
  s.mpa.fair ≤ 8 ∧ s.rfs.aux.length ≤ 32 ∧ s.cap.ring.length ≤ 64 ∧ s.log.writeList.length ≤ 16 ∧ s.hif.stale ≤ 3
    ∧ s.rct.passCount ≤ s.plan.maxPasses

/-! ## The log ring (R172, L5) -/

/-- The indices lie in the ring, the marks cover it, and every record of the write list ends at a position of it. -/
def RingInOrder (s : State) : Prop :=
  0 < s.log.capacity ∧ s.log.producer < s.log.capacity ∧ s.log.written < s.log.capacity
    ∧ s.log.consumer < s.log.capacity ∧ s.log.marks.length = s.log.capacity
    ∧ ∀ e ∈ s.log.writeList, e.position < s.log.capacity ∧ e.next < s.log.capacity

/-! ## Laws of the cell map (L1, L2) -/

/-- L2, with the home positions: a slot with a quarantine mark is BYPASSED(FAULT) or ABSENT. -/
def QuarantineHolds (m : SlotMap) : Prop :=
  ∀ i, (m.get i).quarantine = true → (m.get i).role = .bypassedFault ∨ (m.get i).role = .absent

/-- The position a slot holds (ACTIVE) or left (BYPASSED(BALANCE)). -/
def Role.place : Role → Option Nat
  | .active q => some q
  | .bypassedBalance h => some h
  | .absent | .spare | .bypassedFault => none

/-- L1, with the home positions (R5): within a phase no two slots hold or left the same position, and every position
lies below K. -/
def PositionsDistinct (k : Nat) (m : SlotMap) : Prop :=
  (∀ i q, (m.get i).role.place = some q → q < k)
    ∧ ∀ i j q, phaseOf i = phaseOf j → (m.get i).role.place = some q → (m.get j).role.place = some q → i = j

def MapLaw (s : State) : Prop := QuarantineHolds s.mpl.slots ∧ PositionsDistinct s.mpl.k s.mpl.slots

/-! ## Laws of the slots (R2, R3, R16, R96, R99, R126, R130) -/

/-- A fitted slot is commanded as its role says, an unfitted one is ABSENT and not watched; a watched slot awaits its
commanded bypass; a slot of the pending-fault set is ACTIVE; a slot with a progress record is ACTIVE, in RECHARGING or
VERIFYING. The watch list is empty in UNARMED and while a plan is read, which is in ARMING only. -/
structure SlotLaw (s : State) : Prop where
  commanded : ∀ i, s.mpl.fitted.get i = true → (s.mpl.slots.get i).bypass = (s.mpl.slots.get i).role.bypass
  unfitted : ∀ i, s.mpl.fitted.get i = false → (s.mpl.slots.get i).role = .absent ∧ s.rct.watch.get i = none
  watched : ∀ i e, s.rct.watch.get i = some e → e.awaits = (s.mpl.slots.get i).bypass
  pending : ∀ i f, s.rct.pendingFaults.get i = some f → (s.mpl.slots.get i).role.isActive = true
  progress : ∀ i q, s.rct.progress.get i = some q →
    (s.mpl.slots.get i).role.isActive = true ∧ (s.rct.restart = .recharging ∨ s.rct.restart = .verifying)
  unwatched : s.rct.restart = .unarmed ∨ s.pld.cursor ≠ .none → s.rct.watch = PerSlot.all none
  reading : s.pld.cursor ≠ .none → s.rct.restart = .arming

/-! ## Law of the translated amplitudes (L9) -/

/-- The amplitudes that wait in a latch or in a need of the BPU lie in 0 to 32767. -/
def AmplitudesInRange (s : State) : Prop :=
  (∀ p l, s.bpu.latches.get p = some l → l.amplitude.toNat ≤ 32767)
    ∧ (∀ r i m g, Need.pair r i m g ∈ s.bpu.needs → m.toNat ≤ 32767)
    ∧ ∀ p i m t u, Need.commitAlone p i m t u ∈ s.bpu.needs → m.toNat ≤ 32767

/-! ## Law of the feasible map (L11) -/

/-- L11: in every armed state but LOCKOUT, and in ARMING from the adoption on, each phase has at least min_active ACTIVE
slots. -/
def FeasibleLaw (s : State) : Prop :=
  s.rct.restart ≠ .unarmed → s.rct.restart ≠ .lockout → (s.rct.restart = .arming → s.rct.contactor.running = true) →
    ∀ p, s.plan.minActive ≤ activeCount s.mpl.slots p

/-! ## Law of the port (R27, R31, R33) -/

/-- A buffer is WRITING exactly while it holds the port, and a BPU that holds it has a need. -/
def PortLaw (s : State) : Prop :=
  (∀ b, (∃ w, s.wen.buffer b = .writing w) ↔ s.mpa.holder = some (.wen b))
    ∧ (s.mpa.holder = some .bpu → s.bpu.needs ≠ [])

/-! ## Law of the protected regions (L10) -/

/-- L10: while the part is armed, no host write to a physical command record, the plan region or the map image waits for
the port. -/
def ProtectedLaw (s : State) : Prop := s.rct.restart ≠ .unarmed → ∀ n ∈ waitingNeeds s, n.isProtected = false

/-! ## Law of the gate words (L3, R95, R150 to R153) -/

/-- Word 0 of a physical command record. -/
def IsGateWord (a : Addr) : Prop := ∃ i : Slot, a = physicalCommandAddr i 0

/-- The final gate burst has been reached: RESUMING in stage GATES, and the states behind it. -/
def GatesReleased (s : State) : Prop :=
  s.rct.restart = .normal ∨ s.rct.restart = .proving ∨ s.rct.restart = .resuming ∧ s.rfs.stage = some .gates

/-- A job or a buffer writes BLOCK or RESET to a gate word, a release whose gates have been reached apart. A release is
in a stage in RESUMING only, and a translated write goes to the word it names. -/
structure GateLaw (s : State) : Prop where
  jobs : ∀ c, ∀ j ∈ s.wen.jobs c, (j.kind = .release → ¬GatesReleased s) →
    ∀ w ∈ j.todo, IsGateWord w.addr → w.source = .const 0 ∨ w.source = .const 2
  buffers : ∀ b w, s.wen.buffer b = .ready w ∨ s.wen.buffer b = .writing w → (w.kind = .release → ¬GatesReleased s) →
    ∀ x ∈ w.writes, IsGateWord x.1 → x.2 = 0 ∨ x.2 = 2
  stage : s.rfs.stage ≠ none → s.rct.restart = .resuming
  forwarded : ∀ r w a v, Need.translated r w a v ∈ s.bpu.needs → ∃ i : Slot, a = physicalCommandAddr i w.val
  capacity : s.log.capacity ≤ 255

/-- A BPU tenure that writes a gate word is in progress. -/
def WritesAGate (s : State) : Prop := ∃ n ∈ runningNeeds s, ∃ x ∈ n.writes, IsGateWord x.1

/-- L3 at one step: while the part is armed and the gates are not released, a gate word keeps its value or takes BLOCK or
RESET, a BPU tenure that had begun apart; and no BPU tenure on a gate word begins. -/
def GatesStayShut (s s' : State) : Prop :=
  (s.rct.restart ≠ .unarmed → ¬GatesReleased s → ¬WritesAGate s → ∀ i : Slot,
      s'.mem.read (physicalCommandAddr i 0) = s.mem.read (physicalCommandAddr i 0)
        ∨ s'.mem.read (physicalCommandAddr i 0) = 0 ∨ s'.mem.read (physicalCommandAddr i 0) = 2)
    ∧ (s'.rct.restart ≠ .unarmed → ¬GatesReleased s' → WritesAGate s' → WritesAGate s)

/-! ## The quarantine table over a step (L12) -/

/-- L12: a lifetime count falls at a power-on reset only, and a mark is cleared by that or by the release list of a plan
that the part accepts. -/
def QuarantineKept (s s' : State) : Prop :=
  ∀ i, (s.pending.head? ≠ some .powerOnReset →
        (s.mpl.slots.get i).lifetime.toNat ≤ (s'.mpl.slots.get i).lifetime.toNat)
    ∧ ((s.mpl.slots.get i).quarantine = true → (s'.mpl.slots.get i).quarantine = false →
        s.pending.head? = some .powerOnReset
          ∨ s.pending.head? = some .pldTenureEnd ∧ s.mpa.holder = some (.pld false) ∧ s.pld.cursor = .drive
            ∧ planRefusal s.pld.copy s.mpl.slots = none ∧ planReleases s.pld.copy i = true)

end Sys2Proof.Machine
end

