-- ==== Sys2Proof/Certificates/Slice0/Obligations.lean ====
section
/-! DEFINITION. The statements for the provers. In a statement about a command, `CompletesAs c s P` says that exec
answers a next state, namely the settled port of a state of which P holds. The settling at the end of a command is the
model's choice of an instant (log 7); PortWorkKeepsItsOrder says what it leaves. -/

open Sys2Proof Sys2Proof.Machine

/-! ## The machine -/

/-- A step runs the command at the front of the queue on the state with the queue's rest, and idles on an empty queue.
The queue is the model's (log 1). -/
def Obligations.StepRunsFrontCommand : Prop :=
  (∀ c rest s, s.pending = c :: rest → step s = exec c { s with pending := rest })
    ∧ ∀ s, s.pending = [] → step s = .next s

/-- Every command answers a next state, none stops (log 2), and the queue, which is the model's own (log 1), stays as it
is. -/
def Obligations.EveryCommandAnswersNext : Prop :=
  ∀ c s, ∃ t, exec c s = .next t ∧ t.pending = s.pending

/-- What the settling of the port at the end of a command leaves unchanged; with the port held and no buffer empty it
changes nothing. The order of a boundary (R28) with the fairness rule (R29): class 1, a read in progress, and then the BPU
ahead of class 2 and class 3 unless the count stands at 8 with a lower buffer ready. The BPU's head need is one that is
still live. While RESET_N is low only the BPU is granted (R31). The settling is a fill of both buffers, a grant, and a
fill again (log 7). What a fill stages and with which values (R33, R34, R18, R91, R150), the auxiliary drain (R151), what
a grant starts (R19, R33), and the recheck of a translated write at its grant (R46, log 13). -/
def Obligations.PortWorkKeepsItsOrder : Prop :=
  ((∀ s, KeepsAllBut portFields s (settle s))
        ∧ ∀ s, s.mpa.holder ≠ none → s.wen.x ≠ .empty → s.wen.y ≠ .empty → settle s = s)
    ∧ (∀ s need rest, s.mpa.holder = none → s.pins.resetN = true → s.bpu.needs = need :: rest → stillLive s need = true →
        (∀ b, s.wen.readyOf .one = some b → (grant s).mpa.holder = some (.wen b) ∧ (grant s).mpa.fair = s.mpa.fair)
          ∧ (s.wen.readyOf .one = none →
              (∀ h, readInProgress s = some h → (grant s).mpa.holder = some h ∧ (grant s).mpa.fair = s.mpa.fair)
                ∧ (readInProgress s = none →
                    (lowerReady s = false → (grant s).mpa.holder = some .bpu ∧ (grant s).mpa.fair = 0)
                      ∧ (lowerReady s = true → s.mpa.fair < 8 →
                          (grant s).mpa.holder = some .bpu ∧ (grant s).mpa.fair = s.mpa.fair + 1)
                      ∧ (s.mpa.fair = 8 → ∀ b, s.wen.readyOf .two = some b →
                          (grant s).mpa.holder = some (.wen b) ∧ (grant s).mpa.fair = 0)
                      ∧ (s.mpa.fair = 8 → s.wen.readyOf .two = none → ∀ b, s.wen.readyOf .three = some b →
                          (grant s).mpa.holder = some (.wen b) ∧ (grant s).mpa.fair = 0))))
    ∧ (∀ s, s.mpa.holder = none → s.pins.resetN = false →
        (s.bpu.needs = [] → grant s = s)
          ∧ ∀ need rest, s.bpu.needs = need :: rest → stillLive s need = true → (grant s).mpa.holder = some .bpu)
    ∧ (∀ s, settle s = fill (grant (fill s)) ∧ fill s = fillBuffer .y (fillBuffer .x s)
        ∧ (s.mpa.holder ≠ none → grant s = s))
    ∧ FillsInOrder ∧ StagesABurst ∧ FormsValues ∧ DrainsTheList ∧ ReadyInOrder ∧ GrantStartsTheBuffer
    ∧ RecheckStopsTheStale ∧ GrantsWithoutHostNeed

/-! ## Resets -/

/-- The reset values the specification gives, block by block: cell map (R6, R9, R10, R12), port and passage (R29, R44, R54,
R57), scan and supervision (R59, R64), fault intake (R77), controller (R94, R126, R130), reference store (R142, R144,
R147), hoist lines (R154), capture (R88), log (R171), plan loader (R165), Interval Timer (R169, log 37). -/
def Obligations.ResetStateHoldsTheResetValues : Prop :=
  let s := State.reset
  (∀ i, (s.mpl.slots.get i).role = .absent ∧ (s.mpl.slots.get i).bypass = .closed
      ∧ (s.mpl.slots.get i).quarantine = false ∧ (s.mpl.slots.get i).lifetime = 0 ∧ s.mpl.fitted.get i = false)
    ∧ (∀ p, s.mpl.phases.get p = ⟨0, 4096, 0, 0⟩)
    ∧ s.mpl.k = 0 ∧ s.mpl.generation = 0 ∧ s.mpl.table = []
    ∧ s.mpa.fair = 0 ∧ s.bpu.needs = [] ∧ s.bpu.latches = PerPhase.all none ∧ s.bpu.counts = .zero
    ∧ s.bpu.isOpen = false
    ∧ s.ssc.enabled = false ∧ s.ssc.inProgress = false ∧ s.ssc.position = none ∧ s.ssc.overrun = 0
    ∧ (∀ i, (s.lsv.get i).link = .up ∧ (s.lsv.get i).prevTag = none ∧ (s.lsv.get i).window = none
        ∧ (s.lsv.get i).recentlyLost = false ∧ (s.lsv.get i).marginal = false
        ∧ (s.lsv.get i).notGood = 0 ∧ (s.lsv.get i).erroredRun = 0 ∧ (s.lsv.get i).goodRun = 0
        ∧ (s.lsv.get i).recentTimer.running = false ∧ (s.lsv.get i).errored = 0 ∧ (s.lsv.get i).missed = 0
        ∧ (s.lsv.get i).erroredSecond = 0 ∧ (s.lsv.get i).highRun = 0 ∧ (s.lsv.get i).lowRun = 0)
    ∧ (∀ i, (s.fin.slots.get i).latch = false ∧ (s.fin.slots.get i).strikes = 0 ∧ (s.fin.slots.get i).lastCode = 0
        ∧ (s.fin.slots.get i).strikeTimer.running = false)
    ∧ (∀ p, (s.fin.lines.get p).request = false ∧ (s.fin.lines.get p).window.running = false)
    ∧ s.rct.restart = .unarmed ∧ s.rct.mode = .standstill ∧ s.rct.passCount = 0 ∧ s.rct.cause = none
    ∧ s.rct.tripCause = none ∧ s.rct.settlingSeen = true ∧ s.rct.direction = .raise ∧ s.rct.directionAtTrip = .raise
    ∧ s.rct.restartEnable = false ∧ s.rct.pendingFaults = PerSlot.all none ∧ timersStopped s.rct
    ∧ s.rct.watch = PerSlot.all none ∧ s.rct.progress = PerSlot.all none ∧ s.rct.gateOpen = false
    ∧ s.rct.resetWritten = false
    ∧ s.rfs.amplitudeMark = PerSlot.all false ∧ s.rfs.angleMark = PerSlot.all false
    ∧ (∀ r, s.rfs.image.get r = ⟨0, 0, 0, 0, 0, 0, 0⟩) ∧ s.rfs.aux = [] ∧ s.rfs.cursor = none ∧ s.rfs.stage = none
    ∧ s.hif = ⟨false, false, true, 0, false, 0, .stopped⟩
    ∧ s.cap = ⟨[], .running, none, .trip, 0, 0, .unknown⟩
    ∧ s.log.running = false ∧ s.log.capacity = 16 ∧ s.log.producer = 0 ∧ s.log.written = 0 ∧ s.log.consumer = 0
    ∧ s.log.overflow = 0 ∧ s.log.lastCategory = 0 ∧ s.log.writeList = [] ∧ s.log.irqN = true
    ∧ s.log.irqHeld = false
    ∧ (∀ n, s.log.marks.getD n false = false)
    ∧ s.pld.cursor = .none ∧ s.pld.result = .accepted ∧ s.pld.arg = 0 ∧ s.pld.copy = []
    ∧ s.itm = ⟨false, 0, 0, 0, 0⟩

/-- POWER_ON_RESET takes every block to the values of State.reset; the lines and the queue stay, and memory stays when
no tenure was running. With RESET_N high the reset-block job has the port, as in State.reset. -/
def Obligations.PowerOnResetGivesTheResetState : Prop :=
  ∀ s, ∃ t, exec .powerOnReset s = .next t
    ∧ KeepsAllBut [.pins, .mem, .holder, .wen, .cuts, .pending] State.reset t
    ∧ t.pins = s.pins ∧ t.pending = s.pending
    ∧ (s.mpa.holder = none → t.mem = s.mem ∧ t.cuts = s.cuts)
    ∧ (s.pins.resetN = true → t.mpa.holder = State.reset.mpa.holder ∧ t.wen = State.reset.wen)
    ∧ (s.pins.resetN = false → t.mpa.holder = none)

/-- RESET_N going low is a warm reset: every block at its reset values but the quarantine table (R12), the last fault
codes (R77) and the last category written (R171); both hoist outputs low; only host accesses taken as unarmed wait for the
port. The level last seen of a fault line and the word on HD stay too, which is the model's choice (log 10, log 34). The
return of RESET_N to high submits the reset-block job: BLOCK to word 0 of slots 0 to 23, class 1 (R36). The settings, the
IRQ mask and the plan length go back to the values the model chose for power-on (log 9, log 36). A logical status read
that waited is answered 0 as in UNARMED, and a read whose tenure was cut with the word it read (R31, R37, log 33). Records
whose jobs have been performed count among those written (log 27; CompletionsAreTakenByTheirOwners says what taking their
completions does). -/
def Obligations.WarmResetKeepsTheQuarantineTable : Prop :=
  (∀ s, s.pins.resetN = true → ∃ t, exec .resetNLow s = .next t
        ∧ KeepsAllBut [.pins, .mem, .needs, .hostData, .holder, .slots, .fin, .log, .cuts, .pending] State.held t
        ∧ t.pins = { s.pins with resetN := false } ∧ t.pending = s.pending
        ∧ (∀ i, t.mpl.slots.get i = ⟨.absent, (s.mpl.slots.get i).quarantine, (s.mpl.slots.get i).lifetime, .closed⟩)
        ∧ (∀ i, t.fin.slots.get i = { IntakeSlot.reset with lastCode := (s.fin.slots.get i).lastCode })
        ∧ (∀ p, t.fin.lines.get p = { IntakeLine.reset with lastLevel := (s.fin.lines.get p).lastLevel })
        ∧ t.log = { Log.reset with lastCategory := (takeRecordCompletions s).log.lastCategory }
        ∧ (∀ n ∈ t.bpu.needs, (∃ a v, n = .passWrite a v none) ∨ ∃ a, n = .read a false)
        ∧ ((∀ a, Need.read a true ∉ waitingNeeds s) →
            ((∀ a l, Need.read a l ∉ runningNeeds s) → t.bpu.hostData = s.bpu.hostData)
              ∧ ∀ a l, runningNeeds s = [.read a l] → t.bpu.hostData = s.mem.read a)
        ∧ ((∃ a, Need.read a true ∈ waitingNeeds s) → t.bpu.hostData = 0)
        ∧ (s.mpa.holder = none → t.mem = s.mem ∧ t.cuts = s.cuts))
    ∧ (∀ s, s.pins.resetN = false → CompletesAs .resetNHigh s fun u =>
        u = { s with
          pins := { s.pins with resetN := true }
          wen := { s.wen with jobs1 := s.wen.jobs1 ++ [⟨.resetBlock, gateTo 0 allSlots, false⟩] } })

/-- The model's choices of log 2 and log 12: a line command on a line that has the level already, an expiry that is not
due or whose state or mode is not in force, the end of a tenure that no requester of its kind holds, a completion that has
not come about and a delivery that is not at the head change nothing. -/
def Obligations.EventsNotThereChangeNothing : Prop :=
  ∀ s,
    (s.pins.resetN = false → exec .resetNLow s = .next s)
      ∧ (s.pins.resetN = true → exec .resetNHigh s = .next s)
      ∧ (s.pins.arm = true → exec .armRising s = .next s)
      ∧ (s.pins.arm = false → exec .armFalling s = .next s)
      ∧ (s.pins.brakeSet = true → exec .brakeSetRising s = .next s)
      ∧ (s.pins.brakeSet = false → exec .brakeSetFalling s = .next s)
      ∧ (s.itm.secondsDue = 0 ∨ s.itm.running = false → exec .oneSecondInterval s = .next s)
      ∧ (s.rct.budget.due = false ∨ s.rct.mode ≠ .rideThrough ∨ s.rct.restart.inSequence = false →
          exec .budgetExpiry s = .next s)
      ∧ (s.rct.contactor.due = false ∨ s.rct.restart ≠ .isolating ∧ s.rct.restart ≠ .arming →
          exec .contactorTimeout s = .next s)
      ∧ (s.rct.recharge.due = false ∨ s.rct.restart ≠ .recharging → exec .rechargeTimerExpiry s = .next s)
      ∧ (s.rct.fresh.due = false ∨ s.rct.restart ≠ .awaiting → exec .freshSetTimerExpiry s = .next s)
      ∧ (s.rct.proving.due = false ∨ s.rct.restart ≠ .proving → exec .provingTimerExpiry s = .next s)
      ∧ (∀ i, (s.fin.slots.get i).strikeTimer.due = false → exec (.strikeWindowExpiry i) s = .next s)
      ∧ (∀ i, (s.lsv.get i).recentTimer.due = false → exec (.recentlyLostTimerExpiry i) s = .next s)
      ∧ (s.ssc.ended = false ∨ (∀ p, windowExpired (s.fin.lines.get p) = false) →
          exec .identificationWindowExpiry s = .next s)
      ∧ (s.ssc.ended = false ∨ s.rct.verify.due = false ∨ s.rct.restart ≠ .verifying →
          exec .verifyWindowExpiry s = .next s)
      ∧ (s.hif.period.due = false → exec .controlPeriodEnd s = .next s)
      ∧ ((∀ d, s.mpa.holder ≠ some (.pld d)) → exec .pldTenureEnd s = .next s)
      ∧ ((∀ b w, s.mpa.holder = some (.wen b) → s.wen.buffer b ≠ .writing w) → exec .wenTenureEnd s = .next s)
      ∧ (∀ far, (∀ i d, s.mpa.holder ≠ some (.ssc i d)) → exec (.sscSlotTenureEnd far) s = .next s)
      ∧ (∀ far, s.mpa.holder ≠ some .bpu → exec (.bpuTenureEnd far) s = .next s)
      ∧ (JobKind.release ∉ s.wen.done → exec .releaseComplete s = .next s)
      ∧ (JobKind.resetGate ∉ s.wen.done → exec .resetJobComplete s = .next s)
      ∧ (JobKind.captureDump ∉ s.wen.done → exec .captureDumpComplete s = .next s)
      ∧ ((∀ c, JobKind.logRecord c ∉ s.wen.done) → exec .logRecordComplete s = .next s)
      ∧ ∀ first, first = s.bpu.deliveries.head? →
          ((∀ v, first ≠ some (.periodTag v)) → exec .periodTagWrite s = .next s)
            ∧ ((∀ v, first ≠ some (.direction v)) → exec .directionWrite s = .next s)
            ∧ (first ≠ some .proof → exec .proofEvent s = .next s)
            ∧ ((∀ v, first ≠ some (.restartEnable v)) → exec .restartEnableWrite s = .next s)
            ∧ (first ≠ some .consumed → exec .consumedWrite s = .next s)
            ∧ ((∀ v, first ≠ some (.consumer v)) → exec .consumerWrite s = .next s)

/-! ## Arming and disarm -/

/-- ARM rising in UNARMED with RESET_N high: ARMING, and with BRAKE_SET high the plan read starts; with BRAKE_SET low the
arm result is BRAKE_NOT_SET with argument 0, the state is UNARMED again and a map image job is queued (R165). Elsewhere
the level alone changes (R111). The jobs that a disarm left are cancelled, and a record already performed is not among
them (R20, R174, log 22, log 27). As the plan read starts, a
waiting write to a protected region is absorbed and a write to the drive record is watched; both are the model's choice
(log 39, log 4). -/
def Obligations.ArmRisingStartsThePlanRead : Prop :=
  (∀ s, s.pins.arm = false →
      (s.rct.restart = .unarmed → s.pins.resetN = true → s.pins.brakeSet = true → CompletesAs .armRising s fun u =>
        u.pins = { s.pins with arm := true } ∧ u.rct = { s.rct with restart := .arming }
          ∧ u.pld = { s.pld with cursor := .word 0, copy := [] }
          ∧ u.hif.driveHealthy = false ∧ u.hif.permit = false
          ∧ (s.log.running = false → ∀ l, l = (takeRecordCompletions s).log →
              u.log = { l with writeList := l.writeList.filter (!·.closing) })
          ∧ CutsOnly JobKind.leftByDisarm s u ∧ OtherJobsStay JobKind.leftByDisarm (takeRecordCompletions s) u
          ∧ (¬Writing JobKind.leftByDisarm s → u.mpa.holder = s.mpa.holder
              ∧ u.bpu.needs = (runningNeeds s ++ (waitingNeeds s).filter (!·.isProtected)).map Need.watchedDrive)
          ∧ KeepsAllBut [.pins, .mem, .needs, .holder, .rct, .wen, .hif, .log, .pld, .cuts] s u)
        ∧ (s.rct.restart = .unarmed → s.pins.resetN = true → s.pins.brakeSet = false → CompletesAs .armRising s fun u =>
            u.pins = { s.pins with arm := true } ∧ u.rct.restart = .unarmed ∧ timersStopped u.rct
              ∧ u.pld.result = .brakeNotSet ∧ u.pld.arg = 0 ∧ u.pld.cursor = .none
              ∧ u.hif.driveHealthy = false ∧ u.hif.permit = false ∧ ImagePending u
              ∧ (s.log.running = false → ∀ l, l = (takeRecordCompletions s).log →
                  u.log = { l with writeList := l.writeList.filter (!·.closing) })
              ∧ CutsOnly JobKind.leftByDisarm s u ∧ OtherJobsStay JobKind.leftByDisarm (takeRecordCompletions s) u
              ∧ (¬Writing JobKind.leftByDisarm s → u.mpa.holder = s.mpa.holder.map Holder.discarded)
              ∧ u.mpl.slots = s.mpl.slots ∧ u.mpl.generation = s.mpl.generation ∧ u.plan = s.plan)
        ∧ (s.rct.restart ≠ .unarmed ∨ s.pins.resetN = false →
            exec .armRising s = .next { s with pins := { s.pins with arm := true } }))
    ∧ ∀ (a : Addr) v d,
        ((Need.passWrite a v d).isProtected = true ↔
            0x200 ≤ a.toNat ∧ a.toNat < 0x2C0 ∨ 0x800 ≤ a.toNat ∧ a.toNat < 0xC00 ∨ 0xC00 ≤ a.toNat ∧ a.toNat < 0xCE0)
          ∧ (a.toNat < 0x400 ∨ 0x403 < a.toNat → (Need.passWrite a v d).watchedDrive = .passWrite a v d)
          ∧ (Need.passWrite 0x400 v d).watchedDrive = .passWrite 0x400 v (some (.periodTag v))
          ∧ (Need.passWrite 0x401 v d).watchedDrive = .passWrite 0x401 v (some (.direction v))
          ∧ (Need.passWrite 0x402 v d).watchedDrive = .passWrite 0x402 v (if v = 1 then some .proof else none)
          ∧ (Need.passWrite 0x403 v d).watchedDrive = .passWrite 0x403 v (some (.restartEnable v))
          ∧ ∀ n : Need, (∀ b x e, n ≠ .passWrite b x e) → n.isProtected = false ∧ n.watchedDrive = n

/-- ARM falling in an armed state takes the part to UNARMED with the actions of R110, the closing record with argument
0xFFFF (R174) and the map image job among them (log 35); in UNARMED the level alone changes. Records whose jobs have been
performed are not among those lost (R32, log 27), and a dropped closing record holds IRQ_N high (R174, log 45). -/
def Obligations.ArmFallingDisarms : Prop :=
  ∀ s, s.pins.arm = true →
    (s.rct.restart ≠ .unarmed → CompletesAs .armFalling s fun u =>
      Disarms none 0xFFFF { s with pins := { s.pins with arm := false } } u
        ∧ u.pld.result = s.pld.result ∧ u.pld.arg = s.pld.arg)
      ∧ (s.rct.restart = .unarmed → exec .armFalling s = .next { s with pins := { s.pins with arm := false } })

/-- The plan read (R166): word 0 gives n and must lie in 67 to 1023; later tenures append 8 words or the fewer that are
left, and after the last the drive record is read. Discarded data goes nowhere (R31). -/
def Obligations.PlanTenuresCollectThePlan : Prop :=
  ∀ s,
    (∀ w, s.mpa.holder = some (.pld false) → s.pld.cursor = .word 0 → s.mem.read 0x800 = w → 67 ≤ w.toNat →
      w.toNat ≤ 1023 → CompletesAs .pldTenureEnd s fun u =>
        u = { s with
          mpa := { s.mpa with holder := none }
          pld := { s.pld with planLength := w.toNat + 1, copy := [w], cursor := .word 1 } })
      ∧ (∀ o, s.mpa.holder = some (.pld false) → s.pld.cursor = .word (o + 1) → CompletesAs .pldTenureEnd s fun u =>
          u.pld.copy = s.pld.copy
              ++ (List.range (min 8 (s.pld.planLength - (o + 1)))).map (fun j => s.mem.read (planAddr (o + 1 + j)))
            ∧ (s.pld.planLength ≤ o + 9 → u.pld.cursor = .drive)
            ∧ (o + 9 < s.pld.planLength → u.pld.cursor = .word (o + 9))
            ∧ u.pld.planLength = s.pld.planLength ∧ u.pld.result = s.pld.result ∧ u.pld.arg = s.pld.arg
            ∧ u.mpa.holder = none ∧ KeepsAllBut [.holder, .pld] s u)
      ∧ (s.mpa.holder = some (.pld true) → CompletesAs .pldTenureEnd s fun u =>
          u = { s with mpa := { s.mpa with holder := none } })

/-- The drive record tenure hands over the direction, the restart enable and the period tag (R166); a plan that fails a
check gives its arm result and argument, returns the part to UNARMED with a block-all and a map image job, and leaves the
map, K, the rebalance table and the settings as they were (R167). So does a word 0 out of bounds, with LENGTH (R166). -/
def Obligations.RefusedPlanLeavesTheMap : Prop :=
  ∀ s, s.mpa.holder = some (.pld false) →
    (∀ r a, s.pld.cursor = .drive → planRefusal s.pld.copy s.mpl.slots = some (r, a) →
      CompletesAs .pldTenureEnd s fun u =>
        u.pld.result = r ∧ u.pld.arg = a ∧ u.pld.cursor = .none ∧ u.rct.restart = .unarmed ∧ timersStopped u.rct
          ∧ u.rct.direction = (if s.mem.read 0x401 = 0 then .raise else .lower)
          ∧ u.rct.restartEnable = (s.mem.read 0x403 == 1) ∧ u.hif.lastTag = s.mem.read 0x400
          ∧ BlocksAll s.mpl.slots u ∧ ImagePending u
          ∧ u.mpl.slots = s.mpl.slots ∧ u.mpl.k = s.mpl.k ∧ u.mpl.fitted = s.mpl.fitted ∧ u.mpl.table = s.mpl.table
          ∧ u.mpl.generation = s.mpl.generation ∧ u.plan = s.plan ∧ u.mem = s.mem)
      ∧ (s.pld.cursor = .word 0 → (s.mem.read 0x800).toNat < 67 ∨ 1023 < (s.mem.read 0x800).toNat →
          CompletesAs .pldTenureEnd s fun u =>
            u.pld.result = .length ∧ u.pld.arg = 0 ∧ u.pld.cursor = .none ∧ u.rct.restart = .unarmed
              ∧ BlocksAll s.mpl.slots u ∧ ImagePending u ∧ u.mpl.slots = s.mpl.slots ∧ u.mpl.k = s.mpl.k
              ∧ u.mpl.generation = s.mpl.generation ∧ u.plan = s.plan ∧ u.mem = s.mem)

/-- A plan that passes every check is adopted (R16, R168): roles, commanded bypass, K, fitted set, table, settings; the
window opens, scanning starts, the log starts with its three first records, and every block is cleared as its chapter
gives; the reset-block job and the contactor job are listed and every fitted slot is watched. The records are SEQUENCE
ARMING, ARM ACCEPTED and CONTACTOR COMMANDED with the number of fitted slots (R95, R171, R129), in an order that is the
model's (log 18). -/
def Obligations.AcceptedPlanIsAdopted : Prop :=
  ∀ s p, s.mpa.holder = some (.pld false) → s.pld.cursor = .drive → s.pld.copy = p →
    planRefusal p s.mpl.slots = none → CompletesAs .pldTenureEnd s fun u =>
      u.pld.result = .accepted ∧ u.pld.arg = 0 ∧ u.pld.cursor = .none ∧ u.pld.copy = []
        ∧ (∀ i, (u.mpl.slots.get i).role = ((planBuild p s.mpl.slots).slots.get i).role
            ∧ (u.mpl.slots.get i).bypass = (if (u.mpl.slots.get i).role.isActive then .opened else .closed)
            ∧ (u.mpl.slots.get i).lifetime = (s.mpl.slots.get i).lifetime
            ∧ (u.mpl.slots.get i).quarantine = ((s.mpl.slots.get i).quarantine && !planReleases p i)
            ∧ u.mpl.fitted.get i = planFitted p i)
        ∧ (∀ q, u.mpl.phases.get q
            = ⟨(planBuild p s.mpl.slots).angle.get q, (planBuild p s.mpl.slots).scale.get q, 0, 0⟩)
        ∧ u.mpl.k = planNat p 2 ∧ u.mpl.table = planTable p ∧ u.mpl.generation = s.mpl.generation + 1
        ∧ u.plan = planSettings p
        ∧ u.bpu = { s.bpu with isOpen := true, counts := .zero }
        ∧ u.ssc = { s.ssc with enabled := true, overrun := 0 }
        ∧ (∀ i, u.lsv.get i = .reset)
        ∧ (∀ i, (u.fin.slots.get i).latch = false ∧ (u.fin.slots.get i).strikes = 0
            ∧ (u.fin.slots.get i).lastCode = (s.fin.slots.get i).lastCode)
        ∧ (∀ q, (u.fin.lines.get q).request = false ∧ (u.fin.lines.get q).lastLevel = s.pins.faultLine.get q)
        ∧ u.rct.restart = s.rct.restart ∧ u.rct.mode = .standstill ∧ u.rct.passCount = 0 ∧ u.rct.cause = none
        ∧ u.rct.tripCause = none ∧ u.rct.directionAtTrip = u.rct.direction ∧ u.rct.pendingFaults = PerSlot.all none
        ∧ u.rct.direction = (if s.mem.read 0x401 = 0 then .raise else .lower)
        ∧ u.rct.restartEnable = (s.mem.read 0x403 == 1) ∧ u.hif.lastTag = s.mem.read 0x400
        ∧ u.rct.contactor = .load (planNat p 16)
        ∧ (∀ i, planFitted p i = true → u.rct.watch.get i = some ⟨(u.mpl.slots.get i).bypass, none⟩)
        ∧ u.rfs = .reset ∧ u.cap = .reset ∧ u.itm = ⟨true, 0, 0, 0, 0⟩
        ∧ u.hif.proofNeeded = true ∧ u.hif.tagChanged = false ∧ u.hif.stale = 0 ∧ u.hif.period = .load (planNat p 14)
        ∧ u.log.running = true ∧ u.log.capacity = planNat p 34 ∧ u.log.irqMask = planWord p 35
        ∧ u.log.consumer = 0 ∧ u.log.written = 0 ∧ u.log.overflow = 0 ∧ u.log.irqN = true ∧ u.log.irqHeld = false
        ∧ u.log.writeList = [⟨.sequence, 0, 1, false⟩, ⟨.arm, 1, 2, false⟩, ⟨.contactor, 2, 3, false⟩]
        ∧ (∀ n, n = (allSlots.filter (planFitted p)).length →
            JobListed (.logRecord false) (recordJob 0 1 [1, 1, 0xFFFF, s.rct.restart.code, 0, 0, 0, 0]) u
              ∧ JobListed (.logRecord false) (recordJob 1 2 [9, 0, 0xFFFF, s.rct.restart.code, 0, 0, 0, 0]) u
              ∧ JobListed (.logRecord false) (recordJob 2 3 [5, 1, 0xFFFF, s.rct.restart.code, word n, 0, 0, 0]) u)
        ∧ JobListed .resetBlock (gateTo 0 allSlots) u
        ∧ JobListed .contactor (contactorWrites (allSlots.filter (planFitted p))) u
        ∧ JobListed .captureHeader (captureHeaderWrites ++ [⟨0xD00, .captureHeader 0⟩]) u ∧ ImagePending u
        ∧ u.pins = s.pins

/-- A plan that passes the six checks has every judged field in its range, rising thresholds, distinct rebalance keys,
and an initial map with at least min_active active slots in each phase (R167). The roles of that map before the rebalance
step (R14): an unfitted slot is ABSENT, a fitted slot with a mark that is not released is BYPASSED(FAULT), and of the other
slots of a phase, ascending, the first K are ACTIVE at positions 0, 1, 2 and onward and the rest SPARE. -/
def Obligations.AcceptedPlanLiesInItsRanges : Prop :=
  (∀ p m, planRefusal p m = none →
        planNat p 0 = 67 + 9 * planNat p 67 ∧ planSum p = 0
          ∧ 2 ≤ planNat p 2 ∧ planNat p 2 ≤ 8 ∧ 1 ≤ planNat p 3 ∧ planNat p 3 ≤ planNat p 2
          ∧ planNat p 7 ≤ 1 ∧ planNat p 12 ≤ 2 ∧ planNat p 13 ≤ 1
          ∧ 1 ≤ planNat p 14 ∧ planNat p 14 ≤ 255 ∧ 100 ≤ planNat p 15 ∧ planNat p 15 ≤ 3000
          ∧ 20 ≤ planNat p 16 ∧ planNat p 16 ≤ 1000 ∧ 50 ≤ planNat p 17 ∧ planNat p 17 ≤ 5000
          ∧ 1 ≤ planNat p 18 ∧ planNat p 18 ≤ 255 ∧ 2 ≤ planNat p 19 ∧ planNat p 19 ≤ 32
          ∧ 16 ≤ planNat p 20 ∧ planNat p 20 ≤ 8192 ∧ 10 ≤ planNat p 21 ∧ planNat p 21 ≤ 5000
          ∧ 200 ≤ planNat p 22 ∧ planNat p 22 ≤ 10000 ∧ 1 ≤ planNat p 23 ∧ planNat p 23 ≤ 64
          ∧ 4 ≤ planNat p 24 ∧ planNat p 24 ≤ 255 ∧ planNat p 25 ≤ 1000 ∧ 1 ≤ planNat p 26
          ∧ 1 ≤ planNat p 27 ∧ planNat p 27 ≤ 7 ∧ 1 ≤ planNat p 28 ∧ planNat p 28 ≤ 600
          ∧ 1 ≤ planNat p 29 ∧ planNat p 29 ≤ 4 ∧ 16 ≤ planNat p 34 ∧ planNat p 34 ≤ 255
          ∧ (planNat p 36 < 24 ∨ planNat p 36 = 65535) ∧ planNat p 37 ≤ 1 ∧ planNat p 40 ≤ 1
          ∧ (planNat p 37 = 1 → (planWord p 38).toInt ≤ (planWord p 39).toInt)
          ∧ (planNat p 37 ≠ 1 → planNat p 38 ≤ planNat p 39)
          ∧ planNat p 41 ≤ 63 ∧ planNat p 42 ≤ 24 ∧ planNat p 67 ≤ 32
          ∧ (∀ j, j < planNat p 42 → planNat p (43 + j) < 24)
          ∧ (∀ e ∈ planTable p, e.key ≠ PerPhase.all 0
              ∧ ∀ q, e.key.get q ≤ 7 ∧ 4096 ≤ (e.scale.get q).toNat ∧ (e.scale.get q).toNat ≤ 16384)
          ∧ planNat p 30 < planNat p 31 ∧ planNat p 31 < planNat p 32 ∧ planNat p 32 < planNat p 33
          ∧ ((planTable p).map RebalanceEntry.key).Nodup
          ∧ ∀ q, planNat p 3 ≤ activeCount (planBuild p m).slots q)
    ∧ (∀ (fitted released : Slot → Bool) (k : Nat) (m : SlotMap) (i : Slot),
        let marked := fun j => (m.get j).quarantine && !released j
        let able := fun j => fitted j && !marked j
        let below := ((phaseSlots (phaseOf i)).filter fun j => decide (j < i) && able j).length
        let e := (initialMap fitted released k m).get i
        e.lifetime = (m.get i).lifetime ∧ e.quarantine = marked i
          ∧ (fitted i = false → e.role = .absent)
          ∧ (fitted i = true → marked i = true → e.role = .bypassedFault)
          ∧ (able i = true → below < k → e.role = .active below)
          ∧ (able i = true → k ≤ below → e.role = .spare))

/-! ## Frames, scans and links -/

/-- FRAME rising. With scanning enabled and no scan in progress a scan starts at the lowest fitted slot (R60); with it
disabled none does. Either way the held latches are committed in the order A, B, C and counted as torn (R53), the frame
counter runs (R169), the windows and the period timer count down (R82, R138, R161), and the acknowledgement gate opens
if the RESET job is written (R131). Over a running scan (R62) the data of the running status read will be discarded, and
every fitted slot from the scan position upward, ascending, is evaluated as missed. If that ends arming, scanning has
stopped (R59, R170). Otherwise the scan end is taken with the expiries due before the edge counts (R82, R98, R99, R141),
the overrun is counted (R63) and a new scan starts at the lowest fitted slot. Expiries that stand at a scan end which no
command has taken are taken by the edge ahead of the scan: in TRIPPED an identification window locks out with
UNIDENTIFIED, elsewhere it stops; in VERIFYING the verify window makes its faults (R82, R99, R141). That the edge takes
them there is the model's choice (log 3). The order frame counter, scan or overrun, latches, gate, windows is the
model's reading (log 20), and so is the torn count of a commit as it is queued (log 14). That an edge leaves a due
period timer at 0 until the period end is taken is the model's choice (log 43). Word 3 of the SEQUENCE records is the
state entered (log 24). -/
def Obligations.FrameRisingStartsOrOverrunsAScan : Prop :=
  (∀ s counted, counted = { s.itm with frames := if s.itm.running then s.itm.frames + 1 else s.itm.frames } →
      (s.ssc.enabled = true → s.ssc.inProgress = false ∨ s.ssc.position = none) →
      (s.ssc.enabled = true → s.ssc.ended = true → (∀ p, windowExpired (s.fin.lines.get p) = false)
        ∧ (s.rct.restart ≠ .verifying ∨ s.rct.verify.due = false)) → CompletesAs .frameRising s fun u =>
        (∀ i, s.ssc.enabled = true → s.mpl.fitted.get i = true → (∀ j, j < i → s.mpl.fitted.get j = false) →
            EdgeAfterScan { s with
              itm := counted
              ssc := { s.ssc with inProgress := true, position := some i, ended := false }
              rct := { s.rct with scanSinceTrip := true } } u)
          ∧ (s.ssc.enabled = true → (∀ i, s.mpl.fitted.get i = false) →
              EdgeAfterScan { s with
                itm := counted, ssc := { s.ssc with inProgress := false, position := none, ended := false } } u)
          ∧ (s.ssc.enabled = false → EdgeAfterScan { s with itm := counted } u))
    ∧ (∀ s i first v, s.ssc.enabled = true → s.ssc.inProgress = true → s.ssc.position = some i →
        s.mpl.fitted.get first = true → (∀ j, j < first → s.mpl.fitted.get j = false) →
        v = (allSlots.filter fun j => decide (i ≤ j) && s.mpl.fitted.get j).foldl (fun t j => evaluateFrame j none t)
          { s with
            itm := { s.itm with frames := if s.itm.running then s.itm.frames + 1 else s.itm.frames }
            mpa := { s.mpa with holder := s.mpa.holder.map Holder.discarded } } →
        CompletesAs .frameRising s fun u =>
          (∀ j, u.mpa.holder ≠ some (.ssc j false))
            ∧ (v.ssc.enabled = false → EdgeAfterScan v u)
            ∧ (v.ssc.enabled = true → ∃ w, ScanEndTaken v w ∧ EdgeAfterScan { w with
                ssc := { v.ssc with
                  overrun := satInc s.ssc.overrun, inProgress := true, position := some first, ended := false }
                rct := { w.rct with scanSinceTrip := true } } u)
            ∧ (u.ssc.enabled = true → u.ssc.overrun = satInc s.ssc.overrun ∧ u.ssc.inProgress = true
                ∧ u.ssc.ended = false ∧ u.ssc.position = some first)
            ∧ u.bpu.latches = PerPhase.all none ∧ u.pins = s.pins ∧ u.mpl.fitted = s.mpl.fitted)
    ∧ (∀ s i, s.ssc.enabled = true → s.ssc.ended = true → s.ssc.inProgress = false → s.mpl.fitted.get i = true →
        (∀ j, j < i → s.mpl.fitted.get j = false) →
        ∀ expired, expired = (∃ p, windowExpired (s.fin.lines.get p) = true) →
        ∀ starts : State → State → Prop, (starts = fun v u => EdgeAfterScan { v with
            ssc := { s.ssc with inProgress := true, position := some i, ended := false }
            rct := { v.rct with scanSinceTrip := true } } u) →
        ∀ counted, counted = { s.itm with frames := if s.itm.running then s.itm.frames + 1 else s.itm.frames } →
        (expired → s.rct.restart = .tripped → CompletesAs .frameRising s fun u =>
            ∃ v, LocksOut 0 .unidentified { s with itm := counted } v ∧ starts v u)
          ∧ (expired → s.rct.restart ≠ .tripped → s.rct.restart ≠ .verifying → CompletesAs .frameRising s fun u =>
              starts { s with
                itm := counted
                fin := { s.fin with
                  lines := s.fin.lines.map fun l =>
                    if windowExpired l then { l with window := l.window.stop } else l } } u)
          ∧ ∀ k late, (late = fun j => ∃ q, s.rct.progress.get j = some q ∧ q.verified = false) → SlotLaw s →
              s.rct.restart = .verifying → s.rct.verify.due = true → late k → (∀ j, j < k → ¬late j) →
              CompletesAs .frameRising s fun u =>
                ∃ v, Trips 1 (.slot k) { s with itm := counted } v ∧ starts v u
                  ∧ ∀ j, late j → u.rct.pendingFaults.get j = some ⟨.hard, 69⟩ ∧ (u.fin.slots.get j).lastCode = 69)

/-- The end of a slot's status read (R60, R61, R65, R68, R78): a good frame with no fault, of a slot UP in NORMAL whose
feedback and range nobody awaits, is counted, clears the fault latch and moves the scan on; behind the last fitted slot
the scan ends. Discarded data goes nowhere (R31, R62). For every other frame: what the evaluation hands to whom and in
which order (R71), and what a status report (R78, R84), a feedback (R126, R127, R168), a frame in RECHARGING (R132 to
R137) and in VERIFYING (R138 to R140) and a field of the range trigger (R90, R92) do. Word 3 of a SEQUENCE record is the
state entered (log 24). -/
def Obligations.StatusReadIsEvaluated : Prop :=
  (∀ s far i,
    (∀ w, w = readStatus (applyFar far s.mem) i → s.mpa.holder = some (.ssc i false) → s.ssc.enabled = true →
      s.rct.restart = .normal → (s.lsv.get i).link = .up → s.rct.watch.get i = none → s.plan.captureSlot ≠ some i →
      w.check = w.tag + w.cell + w.code + w.dc + w.temperature + w.feedback → (s.lsv.get i).prevTag ≠ some w.tag →
      w.code = 0 → w.cell ≠ 3 → CompletesAs (.sscSlotTenureEnd far) s fun u =>
        u.lsv.get i = { s.lsv.get i with
            prevTag := some w.tag, notGood := 0, goodRun := boundedInc 2 (s.lsv.get i).goodRun, erroredRun := 0 }
          ∧ (∀ j, j ≠ i → u.lsv.get j = s.lsv.get j)
          ∧ (u.fin.slots.get i).latch = false ∧ (∀ j, j ≠ i → u.fin.slots.get j = s.fin.slots.get j)
          ∧ (∀ j, i < j → s.mpl.fitted.get j = true → (∀ l, i < l → l < j → s.mpl.fitted.get l = false) →
              u.ssc = { s.ssc with position := some j } ∧ u.rct = s.rct ∧ u.fin.lines = s.fin.lines)
          ∧ ((∀ j, i < j → s.mpl.fitted.get j = false) →
              (∀ p, u.fin.lines.get p = if windowExpired (s.fin.lines.get p) then
                { s.fin.lines.get p with window := (s.fin.lines.get p).window.stop } else s.fin.lines.get p)
              ∧ u.ssc = { s.ssc with inProgress := false, position := none, ended := true }
                ∧ u.rct = { s.rct with settlingSeen := s.rct.settlingSeen || s.rct.scanSinceTrip })
          ∧ u.mem = applyFar far s.mem ∧ u.mpa.holder = none
          ∧ KeepsAllBut [.mem, .holder, .ssc, .lsv, .fin, .rct] s u)
      ∧ (s.mpa.holder = some (.ssc i true) → CompletesAs (.sscSlotTenureEnd far) s fun u =>
          u = { s with mem := applyFar far s.mem, mpa := { s.mpa with holder := none } }))
    ∧ FramesAreHandedOn ∧ StatusReportsAreTaken ∧ FeedbackConfirms ∧ RechargeFramesAreJudged ∧ VerifyFramesAreJudged
    ∧ RangeFieldTriggers

/-- The supervision of one frame (R65 to R70): the outcome, the counts, the loss, the runs with DEGRADED, and the
recovery window with the return to UP; no other slot's record changes. Its LINK records in the order of the changes
(R75, Table 4-3): ERRORED_WRAP or MISSED_WRAP as a count wraps from 65535 to 0, and then LOST with the state left,
RECOVERED with the good count of the closing window, DEGRADED or RESTORED, each with the slot; no other record. A missed
frame neither makes a link DEGRADED nor ends that (R68). That the loss is judged ahead of the runs is the model's choice
(log 15). -/
def Obligations.FramesMoveTheLink : Prop :=
  (∀ l w, (w.check ≠ w.tag + w.cell + w.code + w.dc + w.temperature + w.feedback → outcomeOf l (some w) = .errored)
      ∧ (w.check = w.tag + w.cell + w.code + w.dc + w.temperature + w.feedback →
          outcomeOf l (some w) = if l.prevTag = some w.tag then .missed else .good w)
      ∧ outcomeOf l none = .missed)
    ∧ ∀ s i o, ∀ l l' u, l = s.lsv.get i → u = supervise i o s → l' = u.lsv.get i →
      KeepsAllBut [.lsv, .wen, .log] s u ∧ (∀ j, j ≠ i → u.lsv.get j = s.lsv.get j)
        ∧ l'.errored = (if o = .errored then l.errored + 1 else l.errored)
        ∧ l'.erroredSecond = (if o = .errored then satInc l.erroredSecond else l.erroredSecond)
        ∧ l'.missed = (if o = .missed then l.missed + 1 else l.missed)
        ∧ (∀ w, o = .good w → l'.prevTag = some w.tag ∧ l'.notGood = 0)
        ∧ (o.isGood = false → l'.prevTag = l.prevTag
            ∧ (l.link ≠ .lost ∨ l'.link = .lost → l'.notGood = boundedInc 255 l.notGood))
        ∧ (l.link ≠ .lost → o.isGood = false → s.plan.lossFrames ≤ boundedInc 255 l.notGood →
            l'.link = .lost ∧ l'.erroredRun = 0 ∧ l'.goodRun = 0 ∧ l'.window = none
              ∧ l'.recentlyLost = l.recentlyLost ∧ l'.recentTimer.running = false)
        ∧ (l.link ≠ .lost → o.isGood = true →
            l'.goodRun = boundedInc 2 l.goodRun ∧ l'.erroredRun = 0
              ∧ l'.link = (if l.link = .degraded ∧ boundedInc 2 l.goodRun = 2 then .up else l.link))
        ∧ (l.link ≠ .lost → o = .errored → boundedInc 255 l.notGood < s.plan.lossFrames →
            l'.erroredRun = boundedInc 2 l.erroredRun ∧ l'.goodRun = 0
              ∧ l'.link = (if l.link = .up ∧ boundedInc 2 l.erroredRun = 2 then .degraded else l.link))
        ∧ (l.link ≠ .lost → o = .missed → boundedInc 255 l.notGood < s.plan.lossFrames →
            l'.erroredRun = l.erroredRun ∧ l'.goodRun = l.goodRun ∧ l'.link = l.link)
        ∧ (l.link = .lost → l.window = none →
            l'.link = .lost ∧ l'.window = if o.isGood then some ⟨1, 1⟩ else none)
        ∧ (∀ seen good good', l.link = .lost → l.window = some ⟨seen, good⟩ →
            good' = (if o.isGood then good + 1 else good) →
            (seen + 1 < 64 → l'.link = .lost ∧ l'.window = some ⟨seen + 1, good'⟩)
              ∧ (64 ≤ seen + 1 → 56 ≤ good' →
                  l'.link = .up ∧ l'.window = none ∧ l'.notGood = 0 ∧ l'.erroredRun = 0 ∧ l'.goodRun = 0
                    ∧ l'.recentlyLost = decide (0 < s.plan.persistence)
                    ∧ l'.recentTimer = if 0 < s.plan.persistence then .load s.plan.persistence else .stopped)
              ∧ (64 ≤ seen + 1 → good' < 56 → l'.link = .lost ∧ l'.window = none))
        ∧ ∀ (wraps : List Word) (moved : List (Word × Word)) good,
            wraps = (if o = .errored ∧ l.errored = 0xFFFF then [7]
              else if o = .missed ∧ l.missed = 0xFFFF then [8] else []) →
            good = ((l.window.map RecoveryWindow.good).getD 0 + if o.isGood then 1 else 0) →
            moved = (match l.link, l'.link with
              | .up, .lost => [(1, 0)]
              | .degraded, .lost => [(1, 1)]
              | .lost, .up => [(2, word good)]
              | .up, .degraded => [(3, 0)]
              | .degraded, .up => [(4, 0)]
              | _, _ => []) →
            HandsRecords .link
              (wraps.map (fun c => (c, word i.val, 0)) ++ moved.map fun m => (m.1, word i.val, m.2)) s u

/-- A frame that is not good and brings the not-good count of an ACTIVE slot to L makes the link LOST; in NORMAL the
loss, a fault of code 64, trips the drive (R67, R79, R85, R96, R97). Up to three records go ahead of the trip's own: a
wrap, the loss, the fault. Then the scan moves on, or behind the last fitted slot its end is taken (R61, R82). Word 3 of
a SEQUENCE record is the state entered (log 24). -/
def Obligations.LossOfAnActiveSlotTrips : Prop :=
  ∀ s far i q, s.mpa.holder = some (.ssc i false) → s.ssc.enabled = true → s.rct.restart = .normal →
    (s.mpl.slots.get i).role = .active q → (s.lsv.get i).link ≠ .lost →
    (outcomeOf (s.lsv.get i) (some (readStatus (applyFar far s.mem) i))).isGood = false →
    s.plan.lossFrames ≤ boundedInc 255 (s.lsv.get i).notGood → CompletesAs (.sscSlotTenureEnd far) s fun u =>
      ∃ v, Trips 3 (.slot i) { s with
          mem := applyFar far s.mem, mpa := { s.mpa with holder := none }, lsv := v.lsv } v
        ∧ (v.lsv.get i).link = .lost ∧ (v.fin.slots.get i).lastCode = 64
        ∧ (v.rct.pendingFaults.get i).map PendingFault.code = some 64
        ∧ (∀ j, i < j → s.mpl.fitted.get j = true → (∀ l, i < l → l < j → s.mpl.fitted.get l = false) →
            u = { v with ssc := { s.ssc with position := some j } })
        ∧ ((∀ j, i < j → s.mpl.fitted.get j = false) → ∀ w,
            w = { v with ssc := { s.ssc with inProgress := false, position := none, ended := true } } →
            ScanEndTaken w u
              ∧ ((∀ p, p ≠ phaseOf i → windowExpired (s.fin.lines.get p) = false) → u = w))

/-! ## Faults -/

/-- The class of a fault and its strike (R83). The routing by role: a fault of a slot that is BYPASSED(FAULT) or ABSENT
is disregarded; one of a SPARE or balance-bypassed slot makes it BYPASSED(FAULT) with its mark set and its lifetime
count increased, without a trip (R85, R124). One of an ACTIVE slot trips the drive in NORMAL, ISOLATING, RECHARGING,
VERIFYING, AWAITING, RESUMING and PROVING, with its class and code in the pending-fault set (R96), ends arming with
CELL_FAULT, slot and code in ARMING (R170, R172), joins the pending-fault set in TRIPPED, where HARD is not lowered
(R98), and in LOCKOUT makes no transition and no entry (R109). Every fault that is taken strikes the slot's intake
entry, is its last code, identifies a request of the phase (R81) and hands a FAULT record (R84). Word 3 of a SEQUENCE
record is the state entered (log 24), and that of the ARM record of an end of arming the state left, which is the
model's choice (log 46). -/
def Obligations.FaultsAreClassedAndRouted : Prop :=
  (∀ p code e,
        (64 < code → classify p code e = (.hardByClass, e))
          ∧ (1 ≤ code → code ≤ 64 → p.hardFlags.getLsbD (code - 1) = true → classify p code e = (.hardByClass, e))
          ∧ (1 ≤ code → code ≤ 64 → p.hardFlags.getLsbD (code - 1) = false → p.strikeLimit ≤ e.strikes →
              classify p code e = (.hardByStrikes, e))
          ∧ (1 ≤ code → code ≤ 64 → p.hardFlags.getLsbD (code - 1) = false → e.strikes < p.strikeLimit →
              (classify p code e).2 = { e with
                  strikes := e.strikes + 1
                  strikeTimer := if e.strikes = 0 then .load (p.strikeSeconds * 1000) else e.strikeTimer }
                ∧ (classify p code e).1 = if e.strikes + 1 = p.strikeLimit then .hardByStrikes else .transient))
    ∧ (∀ s i code judged struck,
        (judged = (classify s.plan code (s.fin.slots.get i)).1) →
        (struck = ({
          slots := s.fin.slots.set i { (classify s.plan code (s.fin.slots.get i)).2 with lastCode := code }
          lines := s.fin.lines.modify (phaseOf i) fun l =>
            if l.request then { l with request := false, window := l.window.stop } else l } : Intake)) →
        ((s.mpl.slots.get i).role = .bypassedFault ∨ (s.mpl.slots.get i).role = .absent → takeFault i code s = s)
          ∧ (∀ u, (s.mpl.slots.get i).role = .spare ∨ (s.mpl.slots.get i).role.isBalance = true → u = takeFault i code s →
              u.mpl.slots.get i = { s.mpl.slots.get i with
                  role := .bypassedFault, quarantine := true, lifetime := lifetimeInc (s.mpl.slots.get i).lifetime }
                ∧ (∀ j, j ≠ i → u.mpl.slots.get j = s.mpl.slots.get j)
                ∧ u.mpl.generation = s.mpl.generation + 1 ∧ ImagePending u
                ∧ u.fin = struck ∧ HandsFirst .fault (word code) (word i.val) judged.arg s u
                ∧ KeepsAllBut [.fin, .slots, .generation, .wen, .log] s u)
          ∧ ∀ u q cls, (s.mpl.slots.get i).role = .active q → u = takeFault i code s →
              (cls = if judged = .transient then .transient else .hard) →
              (s.rct.restart = .tripped →
                  u.rct = { s.rct with pendingFaults := s.rct.pendingFaults.set i (some ⟨
                      if (s.rct.pendingFaults.get i).any (·.cls == .hard) then .hard else cls, code⟩) }
                    ∧ u.fin = struck
                    ∧ HandsRecord .fault (word code) (word i.val) judged.arg s u
                    ∧ KeepsAllBut [.fin, .rct, .wen, .log] s u)
                ∧ (s.rct.restart = .lockout →
                    u.fin = struck
                      ∧ HandsRecord .fault (word code) (word i.val) judged.arg s u
                      ∧ KeepsAllBut [.fin, .wen, .log] s u)
                ∧ (s.rct.restart = .arming →
                    Disarms (some (9, word i.val, word code)) 9 { logRecord .fault (word code) (word i.val)
                        judged.arg s with fin := struck } u
                      ∧ u.pld.result = .cellFault ∧ u.pld.arg = 0)
                ∧ (s.rct.restart ≠ .unarmed → s.rct.restart ≠ .arming → s.rct.restart ≠ .tripped →
                    s.rct.restart ≠ .lockout →
                    Trips 1 (.slot i) s u ∧ u.fin = struck
                      ∧ u.rct.pendingFaults = s.rct.pendingFaults.set i (some ⟨cls, code⟩)
                      ∧ HandsFirst .fault (word code) (word i.val) judged.arg s u))

/-- FAULT_LINE_EDGE (R80, R81): an edge with the request clear sets it with its window, unless it is identified at once,
makes a FAULT record, and trips the drive or ends arming with CELL_FAULT; in TRIPPED and LOCKOUT it does no more. With
the request set, or no change of level, the last level alone follows; while no edges are taken, the line alone.
FAULT_LINE_INACTIVE_TRANSITION: the line and the last level alone. Word 3 of a SEQUENCE record is the state entered (log
24), and that of the ARM record of an end of arming the state left, which is the model's choice (log 46). -/
def Obligations.FaultLineEdgesMakeRequests : Prop :=
  ∀ s p s' level, level = s.plan.senseRising →
    s' = { s with pins := { s.pins with faultLine := s.pins.faultLine.set p level } } →
    (s.bpu.isOpen = false → CompletesAs (.faultLineEdge p) s fun u => u = s')
      ∧ (s.bpu.isOpen = true →
          (s.fin.lines.get p).lastLevel = level ∨ (s.fin.lines.get p).request = true →
          CompletesAs (.faultLineEdge p) s fun u =>
            KeepsAllBut [.fin] s' u ∧ u.fin.slots = s.fin.slots
              ∧ u.fin.lines = s.fin.lines.set p { s.fin.lines.get p with lastLevel := level })
      ∧ (s.bpu.isOpen = true → (s.fin.lines.get p).lastLevel ≠ level → (s.fin.lines.get p).request = false →
          (s.rct.restart ≠ .unarmed → s.rct.restart ≠ .arming → s.rct.restart ≠ .lockout →
              s.rct.restart ≠ .tripped → CompletesAs (.faultLineEdge p) s fun u =>
                Trips 1 (.phase p) s' u ∧ u.fin.slots = s.fin.slots ∧ HandsFirst .fault 0 noSlot (phaseCode p) s u
                  ∧ u.rct.pendingFaults = s.rct.pendingFaults
                  ∧ u.fin.lines = s.fin.lines.set p (if identifiedAtOnce p s then
                        { s.fin.lines.get p with lastLevel := level }
                      else ⟨true, level, .load s.plan.identWindow⟩))
            ∧ (s.rct.restart = .tripped ∨ s.rct.restart = .lockout → CompletesAs (.faultLineEdge p) s fun u =>
                HandsRecord .fault 0 noSlot (phaseCode p) s u ∧ u.fin.slots = s.fin.slots
                  ∧ u.fin.lines = s.fin.lines.set p (if identifiedAtOnce p s then
                        { s.fin.lines.get p with lastLevel := level }
                      else ⟨true, level, .load s.plan.identWindow⟩)
                  ∧ KeepsAllBut [.fin, .wen, .log] s' u)
            ∧ (s.rct.restart = .arming → CompletesAs (.faultLineEdge p) s fun u =>
                Disarms (some (9, noSlot, phaseCode p)) 9 (logRecord .fault 0 noSlot (phaseCode p) s') u
                  ∧ u.pld.result = .cellFault ∧ u.pld.arg = 0))
      ∧ (∀ t, t = { s with pins := { s.pins with faultLine := s.pins.faultLine.set p (!level) } } →
          CompletesAs (.faultLineInactiveTransition p) s fun u =>
            KeepsAllBut [.fin] t u ∧ u.fin.slots = s.fin.slots
              ∧ u.fin.lines = if s.bpu.isOpen then
                  s.fin.lines.set p { s.fin.lines.get p with lastLevel := !level } else s.fin.lines)

/-- The exit from TRIPPED at an identification report, in the order of R99. The pass that is left counts, makes its
SEQUENCE record and runs the planner on the slots pending HARD (R99, R114); then a phase below min_active locks out with
INFEASIBLE (R121), an empty watch list leads to RECHARGING at once, and otherwise ISOLATING waits with the contactor
timer (R127). The MAP and COMMANDED records of the run stand behind the SEQUENCE record of ISOLATING and ahead of that
of LOCKOUT or RECHARGING (R122, R123, R129). Word 3 of a SEQUENCE record is the state entered (log 24). -/
def Obligations.IdentificationReportDecides : Prop :=
  ∀ s, s.rct.restart = .tripped → ∀ requests, requests = (∃ p, (s.fin.lines.get p).request = true) →
    LocksOut 0 .unidentified s (identificationReport true s)
      ∧ (s.rct.settlingSeen = false ∨ requests → identificationReport false s = s)
      ∧ (s.rct.settlingSeen = true → ¬requests → s.rct.restartEnable = false →
          LocksOut 0 .restartDisabled s (identificationReport false s))
      ∧ (s.rct.settlingSeen = true → ¬requests → s.rct.restartEnable = true → s.plan.maxPasses ≤ s.rct.passCount →
          LocksOut 0 .passesExhausted s (identificationReport false s))
      ∧ (∀ u, s.rct.settlingSeen = true → ¬requests → s.rct.restartEnable = true →
          s.rct.passCount < s.plan.maxPasses → u = identificationReport false s →
          u.rct.passCount = s.rct.passCount + 1 ∧ u.rct.pendingFaults = PerSlot.all none
            ∧ u.rct.mode = s.rct.mode ∧ u.mpl.generation = s.mpl.generation + 1
            ∧ (∀ i, (s.rct.pendingFaults.get i).map PendingFault.cls = some .hard →
                (u.mpl.slots.get i).role = .bypassedFault ∧ (u.mpl.slots.get i).quarantine = true)
            ∧ ∃ t v, t.rct = { s.rct with
                  restart := .isolating, passCount := s.rct.passCount + 1, pendingFaults := PerSlot.all none }
                ∧ t.hif.driveHealthy = driveHealthyLevel .isolating s.rct.mode
                ∧ t.hif.permit = (s.hif.permit && s.rct.mode == .rideThrough)
                ∧ HandsRecord .sequence RestartState.isolating.code noSlot (word (s.rct.passCount + 1))
                    { s with rct := t.rct } t
                ∧ KeepsAllBut [.rct, .wen, .hif, .log] s t
                ∧ v = planRun (fun i => (s.rct.pendingFaults.get i).any (·.cls == .hard)) t
                ∧ RunIsRecorded (rebalance s.mpl.table s.plan.rounding s.mpl.k
                    (planRoles (fun i => (s.rct.pendingFaults.get i).any (·.cls == .hard)) s)).source t v
                ∧ v.log.writeList <+: u.log.writeList ∧ (∀ j ∈ v.wen.jobs3, j ∈ u.wen.jobs3)
                ∧ ((∃ p, activeCount v.mpl.slots p < s.plan.minActive) → LocksOut 0 .infeasible v u)
                ∧ ((∀ p, s.plan.minActive ≤ activeCount v.mpl.slots p) →
                    ((∀ i, v.rct.watch.get i = none) → EntersRecharging v u)
                      ∧ ((∃ i, v.rct.watch.get i ≠ none) →
                          u = { v with rct := { v.rct with contactor := .load s.plan.contactorTimeout } })))

/-- A planning run (R114 to R117, R119, R122, R126), slot by slot: hard-faulted slots are bypassed with mark and count,
no other mark or count moves, an ACTIVE slot keeps its position or leaves it as its home, and the commanded bypass of
every fitted slot follows its role. Before the rebalance step every eligible balance-bypassed slot has returned to its
home position, and in each phase the eligible spares, ascending, hold the positions that no slot holds or left,
ascending, as far as they reach. The slots whose commanded bypass changes are commanded by one contactor job and
watched. The MAP records of the run (R123) and the COMMANDED record of its contactor job (R129) are handed with the
codes and arguments of Tables 7-3 and 7-5; that REBALANCE carries source 3 where the largest deficit is K is the model's
choice (log 40). -/
def Obligations.PlanningRunMovesRoles : Prop :=
  (∀ hard s u, u = planRun hard s → ∀ i e e', e = s.mpl.slots.get i → e' = u.mpl.slots.get i →
      (hard i = true → e'.role = .bypassedFault ∧ e'.quarantine = true ∧ e'.lifetime = lifetimeInc e.lifetime)
        ∧ (hard i = false →
            e'.quarantine = e.quarantine ∧ e'.lifetime = e.lifetime
              ∧ (∀ q, e.role = .active q → e'.role = .active q ∨ e'.role = .bypassedBalance q)
              ∧ (∀ h, e.role = .bypassedBalance h →
                  e'.role = .bypassedBalance h ∨ eligible s i = true ∧ e'.role = .active h)
              ∧ (e.role = .spare → e'.role ≠ .spare → eligible s i = true)
              ∧ (e.role = .absent → e'.role = .absent) ∧ (e.role = .bypassedFault → e'.role = .bypassedFault))
        ∧ (s.mpl.fitted.get i = true → e'.bypass = if e'.role.isActive then .opened else .closed)
        ∧ (s.mpl.fitted.get i = false → e'.bypass = e.bypass)
        ∧ u.mpl.generation = s.mpl.generation + 1 ∧ ImagePending u
        ∧ (∀ p, (u.mpl.phases.get p).saturation = (s.mpl.phases.get p).saturation
            ∧ (u.mpl.phases.get p).torn = (s.mpl.phases.get p).torn)
        ∧ KeepsAllBut [.rct, .slots, .phases, .generation, .wen, .log] s u)
    ∧ (∀ hard s m, m = planRoles hard s →
        (∀ i e, e = s.mpl.slots.get i → hard i = false →
            (∀ q, e.role = .active q → (m.get i).role = .active q)
              ∧ (∀ h, e.role = .bypassedBalance h → eligible s i = true → (m.get i).role = .active h)
              ∧ (∀ h, e.role = .bypassedBalance h → eligible s i = false → (m.get i).role = .bypassedBalance h)
              ∧ (e.role = .spare → eligible s i = false → (m.get i).role = .spare))
          ∧ ∀ p spares open_, (spares = (phaseSlots p).filter fun i =>
                !hard i && (s.mpl.slots.get i).role == .spare && eligible s i) →
              (open_ = (List.range s.mpl.k).filter fun q => (phaseSlots p).all fun i => hard i
                || ((s.mpl.slots.get i).role != .active q && (s.mpl.slots.get i).role != .bypassedBalance q)) →
              ∀ (n : Nat) i, spares[n]? = some i →
                (∀ q, open_[n]? = some q → (m.get i).role = .active q)
                  ∧ (open_[n]? = none → (m.get i).role = .spare))
    ∧ ∀ hard s u changed, u = planRun hard s →
        (changed = allSlots.filter fun i =>
          s.mpl.fitted.get i && (s.mpl.slots.get i).bypass != (u.mpl.slots.get i).bypass) →
        (∀ i, (u.mpl.slots.get i).role
            = ((rebalance s.mpl.table s.plan.rounding s.mpl.k (planRoles hard s)).slots.get i).role)
          ∧ (∀ p, (u.mpl.phases.get p).scale
              = (rebalance s.mpl.table s.plan.rounding s.mpl.k (planRoles hard s)).scale.get p)
          ∧ u.rct = { s.rct with watch := u.rct.watch }
          ∧ (changed = [] → u.rct.watch = s.rct.watch ∧ u.wen.jobs2 = s.wen.jobs2)
          ∧ (changed ≠ [] →
              u.wen.jobs2 = s.wen.jobs2
                  ++ [⟨.contactor, changed.map fun i => ⟨physicalCommandAddr i 4, .commandedBypass i⟩, false⟩]
                ∧ ∀ i, u.rct.watch.get i = if i ∈ changed then some ⟨(u.mpl.slots.get i).bypass, none⟩
                    else s.rct.watch.get i)
          ∧ RunIsRecorded (rebalance s.mpl.table s.plan.rounding s.mpl.k (planRoles hard s)).source s u

/-- The rebalance step (R118 to R120): no deficit, the first lookup, the lookup on the equal key after equalization, and
the computed scale, with the rows of Table 7-2; with the largest deficit equal to K, that an entry is taken, and source 3 without
one, is the model's choice (log 40). Under L1 the fallback leaves every phase with the largest deficit, by
bypassing ACTIVE slots for balance at the positions they held (R119). -/
def Obligations.RebalanceEqualizesTheDeficits : Prop :=
  ((∀ t mode k m d dmax, d = deficits m k → dmax = maxDeficit d →
          (d = PerPhase.all 0 → rebalance t mode k m = ⟨m, PerPhase.all 0, PerPhase.all 4096, 0⟩)
            ∧ (∀ e, d ≠ PerPhase.all 0 → lookupEntry t d = some e → rebalance t mode k m = ⟨m, e.angle, e.scale, 1⟩)
            ∧ (∀ e, d ≠ PerPhase.all 0 → lookupEntry t d = none → lookupEntry t (PerPhase.all dmax) = some e →
                rebalance t mode k m = ⟨equalize k m, e.angle, e.scale, 2⟩)
            ∧ (d ≠ PerPhase.all 0 → lookupEntry t d = none → lookupEntry t (PerPhase.all dmax) = none →
                rebalance t mode k m = ⟨equalize k m, PerPhase.all 0,
                  PerPhase.all (if dmax < k then word (roundDiv mode (4096 * k) (k - dmax)) else 4096), 3⟩))
        ∧ [(6, 1), (6, 2), (7, 1), (8, 1), (8, 3), (8, 7)].map (fun n => computedScale .nearestEven n.1 n.2)
            = [4915, 6144, 4779, 4681, 6554, 32768]
        ∧ [(6, 1), (6, 2), (7, 1), (8, 1), (8, 3), (8, 7)].map (fun n => computedScale .down n.1 n.2)
            = [4915, 6144, 4778, 4681, 6553, 32768]
        ∧ [(6, 1), (6, 2), (7, 1), (8, 1), (8, 3), (8, 7)].map (fun n => computedScale .up n.1 n.2)
            = [4916, 6144, 4779, 4682, 6554, 32768])
    ∧ (∀ k m, PositionsDistinct k m →
        (∀ p, deficit (equalize k m) k p = maxDeficit (deficits m k))
          ∧ ∀ i, (equalize k m).get i = m.get i
              ∨ ∃ q, (m.get i).role = .active q ∧ (equalize k m).get i = { m.get i with role := .bypassedBalance q })

/-! ## Hoist lines, time and expiries -/

/-- BRAKE_SET rising (R157, R104, R159): parking in NORMAL, a conversion in a RIDE_THROUGH sequence, no effect elsewhere. -/
def Obligations.BrakeSetRisingActsByState : Prop :=
  ∀ s s', s.pins.brakeSet = false → s' = { s with pins := { s.pins with brakeSet := true } } →
    (s.rct.restart = .normal → CompletesAs .brakeSetRising s fun u =>
        u.hif.permit = false ∧ (s.hif.permit = true → u.hif.proofNeeded = true)
          ∧ u.hif.driveHealthy = s.hif.driveHealthy ∧ HandsRecord .hoist 3 noSlot 0 s u
          ∧ KeepsAllBut [.hif, .wen, .log] s' u)
      ∧ (s.rct.restart.inSequence = true → s.rct.mode = .rideThrough → CompletesAs .brakeSetRising s fun u =>
          u.rct = { s.rct with mode := .standstill, budget := s.rct.budget.stop }
            ∧ u.hif = { s.hif with driveHealthy := false, permit := false, proofNeeded := true }
            ∧ HandsRecord .hoist 2 noSlot (word s.rct.budget.left) s u ∧ KeepsAllBut [.rct, .hif, .wen, .log] s' u)
      ∧ (s.rct.restart ≠ .normal → s.rct.restart.inSequence = false ∨ s.rct.mode = .standstill →
          CompletesAs .brakeSetRising s fun u => u = s')

/-- BRAKE_SET falling (R158, R101): under the permit it has no effect; in NORMAL with the permit low and in PROVING it
is a brake lifted without permit, with its HOIST record ahead of LOCKOUT; in a STANDSTILL sequence it makes the record.
Word 3 of a SEQUENCE record is the state entered (log 24). -/
def Obligations.BrakeSetFallingActsByState : Prop :=
  ∀ s s', s.pins.brakeSet = true → s' = { s with pins := { s.pins with brakeSet := false } } →
    (s.rct.restart = .proving ∨ s.rct.restart = .normal ∧ s.hif.permit = false → CompletesAs .brakeSetFalling s fun u =>
        LocksOut 1 .brakeLifted s' u ∧ HandsFirst .hoist 5 noSlot s.rct.restart.code s u)
      ∧ (s.rct.restart.inSequence = true → s.rct.mode = .standstill → CompletesAs .brakeSetFalling s fun u =>
          HandsRecord .hoist 5 noSlot s.rct.restart.code s u ∧ KeepsAllBut [.wen, .log] s' u)
      ∧ (s.rct.restart = .normal ∧ s.hif.permit = true ∨ s.rct.restart.inSequence = true ∧ s.rct.mode = .rideThrough
          ∨ s.rct.restart = .arming ∨ s.rct.restart = .lockout ∨ s.rct.restart = .unarmed →
          CompletesAs .brakeSetFalling s fun u => u = s')

/-- MS_TICK (R169, R70, R83, R100): every running millisecond timer counts down to 0; while the Interval Timer runs its
millisecond count rises and each 1000th tick makes a one-second interval. -/
def Obligations.MsTickCounts : Prop :=
  ∀ s, CompletesAs .msTick s fun u =>
    u.rct = { s.rct with
        budget := s.rct.budget.tick, contactor := s.rct.contactor.tick, recharge := s.rct.recharge.tick,
        fresh := s.rct.fresh.tick, proving := s.rct.proving.tick }
      ∧ (∀ i, u.fin.slots.get i
          = { s.fin.slots.get i with strikeTimer := (s.fin.slots.get i).strikeTimer.tick }
          ∧ u.lsv.get i = { s.lsv.get i with recentTimer := (s.lsv.get i).recentTimer.tick })
      ∧ u.fin.lines = s.fin.lines
      ∧ (s.itm.running = false → u.itm = s.itm)
      ∧ (s.itm.running = true → s.itm.subMillis < 999 →
          u.itm = { s.itm with millis := s.itm.millis + 1, subMillis := s.itm.subMillis + 1 })
      ∧ (s.itm.running = true → 999 ≤ s.itm.subMillis →
          u.itm = { s.itm with millis := s.itm.millis + 1, subMillis := 0, secondsDue := s.itm.secondsDue + 1 })
      ∧ KeepsAllBut [.lsv, .fin, .rct, .itm] s u

/-- ONE_SECOND_INTERVAL (R63, R73, R74, R19): the marginal judgement of every fitted slot, the refusal and overrun
counts back to 0, and a map image job. The records of the interval: MARGINAL_SET as a run of high seconds reaches 3 with
the flag clear and MARGINAL_CLEARED as a run of low ones does with it set, ascending by slot, each with the errored
count of the second that ended (R74); the HOST records of the counts that are not 0, ascending by code (R58);
SCAN_OVERRUN with the overrun count if it is not 0 (R63). The order of the three blocks is the model's (log 16). -/
def Obligations.OneSecondIntervalIsTaken : Prop :=
  ∀ s, s.itm.running = true → 0 < s.itm.secondsDue → CompletesAs .oneSecondInterval s fun u =>
    u.itm = { s.itm with secondsDue := s.itm.secondsDue - 1 }
      ∧ u.bpu.counts = .zero ∧ u.ssc = { s.ssc with overrun := 0 } ∧ ImagePending u
      ∧ (∀ i, s.mpl.fitted.get i = false → u.lsv.get i = s.lsv.get i)
      ∧ (∀ i l l', s.mpl.fitted.get i = true → l = s.lsv.get i → l' = u.lsv.get i →
          l'.erroredSecond = 0
            ∧ (s.plan.marginal ≤ l.erroredSecond.toNat → l'.highRun = boundedInc 3 l.highRun ∧ l'.lowRun = 0)
            ∧ (l.erroredSecond.toNat < s.plan.marginal → l'.lowRun = boundedInc 3 l.lowRun ∧ l'.highRun = 0)
            ∧ (l'.highRun = 3 → l'.marginal = true)
            ∧ (l'.highRun ≠ 3 → l'.lowRun = 3 → l'.marginal = false)
            ∧ (l'.highRun ≠ 3 → l'.lowRun ≠ 3 → l'.marginal = l.marginal)
            ∧ l'.link = l.link ∧ l'.errored = l.errored ∧ l'.missed = l.missed)
      ∧ KeepsAllBut [.needs, .counts, .ssc, .lsv, .itm, .wen, .log] s u
      ∧ u = queueMapImage false (secondOfScans (secondOfPassage
          (secondOfLinks { s with itm := { s.itm with secondsDue := s.itm.secondsDue - 1 } })))
      ∧ ∀ links hosts scans v,
          links = allSlots.filterMap (fun i =>
            if s.mpl.fitted.get i = true ∧ (u.lsv.get i).highRun = 3 ∧ (s.lsv.get i).marginal = false then
              some (5, word i.val, (s.lsv.get i).erroredSecond)
            else if s.mpl.fitted.get i = true ∧ (u.lsv.get i).lowRun = 3 ∧ (s.lsv.get i).marginal = true then
              some (6, word i.val, (s.lsv.get i).erroredSecond)
            else none) →
          hosts = ((List.zip [1, 2, 3, 4, 5, 6, 7] [s.bpu.counts.gateValue, s.bpu.counts.bypassWord, s.bpu.counts.auxFull,
            s.bpu.counts.protectedWrite, s.bpu.counts.outside, s.bpu.counts.saturation, s.bpu.counts.tornPair]).filter
              fun k => k.2 != 0).map (fun k => (k.1, noSlot, k.2)) →
          scans = (if s.ssc.overrun = 0 then [] else [(9, noSlot, s.ssc.overrun)]) →
          v = handAll .link scans (handAll .host hosts (handAll .link links s)) →
          u.log = v.log ∧ u.wen = (queueMapImage false v).wen

/-- The HOST records of a second (R58): one for each kind whose count is not 0, ascending in code, with slot 0xFFFF and
the count as argument, and the counts set to 0. A record the log drops takes its count with it (R172). -/
def Obligations.HostRecordsOfTheSecond : Prop :=
  ∀ s u records, u = secondOfPassage s →
    (records = ((List.zip [1, 2, 3, 4, 5, 6, 7] [s.bpu.counts.gateValue, s.bpu.counts.bypassWord, s.bpu.counts.auxFull,
        s.bpu.counts.protectedWrite, s.bpu.counts.outside, s.bpu.counts.saturation, s.bpu.counts.tornPair]).filter
          fun k => k.2 != 0).foldl (fun t k => logRecord .host k.1 noSlot k.2 t) s) →
    u.log = records.log ∧ u.wen = records.wen
      ∧ u.bpu.counts = .zero ∧ KeepsAllBut [.needs, .counts, .wen, .log] s u

/-- BUDGET_EXPIRY converts to STANDSTILL (R104, R159); STRIKE_WINDOW_EXPIRY clears the strikes (R83) and
RECENTLY_LOST_TIMER_EXPIRY the flag (R70), each stopping its timer. The fresh-set timer (R149), the proving timer
(R101), and at a scan end in TRIPPED an identification window (R82, R99) end the sequence in LOCKOUT; in another state
the window alone stops. Word 3 of a SEQUENCE record is the state entered (log 24). -/
def Obligations.ExpiriesTakeTheirEffect : Prop :=
  (∀ s,
        (s.rct.budget.due = true → s.rct.mode = .rideThrough → s.rct.restart.inSequence = true →
            CompletesAs .budgetExpiry s fun u =>
              u.rct = { s.rct with mode := .standstill, budget := s.rct.budget.stop }
                ∧ u.hif = { s.hif with driveHealthy := false, permit := false, proofNeeded := true }
                ∧ HandsRecord .hoist 1 noSlot 0 s u ∧ KeepsAllBut [.rct, .hif, .wen, .log] s u)
          ∧ (∀ i, (s.fin.slots.get i).strikeTimer.due = true → CompletesAs (.strikeWindowExpiry i) s fun u =>
              u.fin.slots.get i = { s.fin.slots.get i with strikes := 0, strikeTimer := .stopped }
                ∧ (∀ j, j ≠ i → u.fin.slots.get j = s.fin.slots.get j) ∧ u.fin.lines = s.fin.lines
                ∧ KeepsAllBut [.fin] s u)
          ∧ ∀ i, (s.lsv.get i).recentTimer.due = true → CompletesAs (.recentlyLostTimerExpiry i) s fun u =>
              u.lsv.get i = { s.lsv.get i with recentlyLost := false, recentTimer := .stopped }
                ∧ (∀ j, j ≠ i → u.lsv.get j = s.lsv.get j) ∧ KeepsAllBut [.lsv] s u)
    ∧ (∀ s,
        (s.rct.fresh.due = true → s.rct.restart = .awaiting → CompletesAs .freshSetTimerExpiry s (LocksOut 0 .noFreshSet s))
          ∧ (s.rct.proving.due = true → s.rct.restart = .proving →
              CompletesAs .provingTimerExpiry s (LocksOut 0 .provingTimeout s))
          ∧ (s.ssc.ended = true → (∃ p, windowExpired (s.fin.lines.get p) = true) → s.rct.restart = .tripped →
              CompletesAs .identificationWindowExpiry s (LocksOut 0 .unidentified s))
          ∧ (s.ssc.ended = true → (∃ p, windowExpired (s.fin.lines.get p) = true) → s.rct.restart ≠ .tripped →
              CompletesAs .identificationWindowExpiry s fun u =>
                (∀ p, u.fin.lines.get p = if windowExpired (s.fin.lines.get p) then
                    { s.fin.lines.get p with window := (s.fin.lines.get p).window.stop } else s.fin.lines.get p)
                  ∧ u.fin.slots = s.fin.slots ∧ KeepsAllBut [.fin] s u))

/-- CONTACTOR_TIMEOUT (R128, R170): in ISOLATING an entry that awaits CLOSE locks out with BYPASS_STUCK, otherwise every
entry left is a HARD fault of code 65, of which the first trips; in ARMING arming ends with CONTACTOR. The CONTACTOR
records of the entries left go ahead, ascending by slot (R129): STUCK_CLOSE 2 or STUCK_OPEN 3 with the last feedback
seen, OPEN 0, CLOSED 1, MOVING 2, none 0xFFFF. In ARMING their place is the model's choice, and they are lost with the
cancelled jobs (log 41); so is word 3 of the ARM record (log 46). Word 3 of a SEQUENCE record is the state entered (log
24). -/
def Obligations.ContactorTimeoutJudgesTheWatchList : Prop :=
  ∀ s, SlotLaw s → s.rct.contactor.due = true → ∀ stuck : List (Word × Word × Word),
    stuck = allSlots.filterMap (fun i => (s.rct.watch.get i).map fun e =>
      (if e.awaits = .closed then 2 else 3, word i.val,
        if e.last = none then 0xFFFF else if e.last = some .opened then 0 else if e.last = some .closed then 1 else 2)) →
    (s.rct.restart = .isolating → (∃ i e, s.rct.watch.get i = some e ∧ e.awaits = .closed) →
        CompletesAs .contactorTimeout s fun u =>
          LocksOut stuck.length .bypassStuck s u ∧ HandsAllFirst .contactor stuck s u)
      ∧ (∀ i, s.rct.restart = .isolating → (∀ j e, s.rct.watch.get j = some e → e.awaits = .opened) →
          (s.rct.watch.get i).isSome = true → (∀ j, j < i → s.rct.watch.get j = none) →
          CompletesAs .contactorTimeout s fun u =>
            Trips (stuck.length + 1) (.slot i) s u ∧ HandsAllFirst .contactor stuck s u
              ∧ ∀ j, (s.rct.watch.get j).isSome = true →
                  u.rct.pendingFaults.get j = some ⟨.hard, 65⟩ ∧ (u.fin.slots.get j).lastCode = 65)
      ∧ (s.rct.restart = .arming → CompletesAs .contactorTimeout s fun u =>
          Disarms (some (8, noSlot, word stuck.length)) 8 (handAll .contactor stuck s) u
            ∧ u.pld.result = .contactor ∧ u.pld.arg = 0)

/-- RECHARGE_TIMER_EXPIRY (R136) and VERIFY_WINDOW_EXPIRY (R141): every slot that has not settled, or not verified, is a
HARD fault of code 66, or 69; the first trips and the rest join the pending-fault set. Word 3 of a SEQUENCE record is
the state entered (log 24). -/
def Obligations.SlotsThatFailARestartStepTrip : Prop :=
  ∀ s i, SlotLaw s →
    (∀ late, (late = fun j => ∃ q, s.rct.progress.get j = some q ∧ q.step ≠ .settled) → s.rct.recharge.due = true →
        s.rct.restart = .recharging → late i → (∀ j, j < i → ¬late j) →
        CompletesAs .rechargeTimerExpiry s fun u =>
          Trips 1 (.slot i) s u ∧ ∀ j, late j →
            u.rct.pendingFaults.get j = some ⟨.hard, 66⟩ ∧ (u.fin.slots.get j).lastCode = 66)
      ∧ (∀ late, (late = fun j => ∃ q, s.rct.progress.get j = some q ∧ q.verified = false) → s.ssc.ended = true →
          s.rct.verify.due = true → s.rct.restart = .verifying → late i → (∀ j, j < i → ¬late j) →
          CompletesAs .verifyWindowExpiry s fun u =>
            Trips 1 (.slot i) s u ∧ ∀ j, late j →
              u.rct.pendingFaults.get j = some ⟨.hard, 69⟩ ∧ (u.fin.slots.get j).lastCode = 69)

/-- CONTROL_PERIOD_END (R161 to R163): the period timer is loaded again and a period with no new tag increases the count
up to 3; the increase to 3 makes a STALE record, and under stale mode TRIP locks out, under EVENT takes RESUMING back to
AWAITING with a block-all and a SEQUENCE record of reason 2, whose word 3 is the state entered (log 24). -/
def Obligations.ControlPeriodsCountStaleness : Prop :=
  ∀ s h, s.hif.period.due = true →
    h = { s.hif with
      stale := if s.hif.tagChanged then s.hif.stale else boundedInc 3 s.hif.stale
      tagChanged := false
      period := .load s.plan.controlPeriod } →
    (s.hif.tagChanged = true ∨ s.hif.stale ≠ 2 → CompletesAs .controlPeriodEnd s fun u => u = { s with hif := h })
      ∧ (s.hif.tagChanged = false → s.hif.stale = 2 →
          (s.plan.staleTrip = false → s.rct.restart ≠ .resuming → CompletesAs .controlPeriodEnd s fun u =>
              u.hif = h ∧ HandsRecord .host 8 noSlot s.hif.lastTag s u ∧ KeepsAllBut [.hif, .wen, .log] s u)
            ∧ (s.plan.staleTrip = false → s.rct.restart = .resuming → CompletesAs .controlPeriodEnd s fun u =>
                u.rct = { s.rct with restart := .awaiting, fresh := .load s.plan.freshTimeout }
                  ∧ BlocksAll s.mpl.slots u ∧ NoJobsOf (· == .release) u ∧ u.rfs.stage = none ∧ u.rfs.cursor = none
                  ∧ u.bpu.latches = PerPhase.all none ∧ HandsFirst .host 8 noSlot s.hif.lastTag s u
                  ∧ RecordMade 2 .sequence (sequenceWords .awaiting noSlot 2 s) s u
                  ∧ u.hif.driveHealthy = (s.rct.mode == .rideThrough) ∧ u.hif.stale = 3
                  ∧ CutsOnly (· == .release) s u ∧ OtherJobsStay (· == .release) s u
                  ∧ (¬Writing (· == .release) s → u.mpa.holder = s.mpa.holder)
                  ∧ KeepsAllBut [.mem, .latches, .needs, .counts, .holder, .rct, .phases, .cursor, .stage, .wen, .hif,
                      .log, .cuts] s u)
            ∧ (s.plan.staleTrip = true → s.rct.restart ≠ .unarmed → s.rct.restart ≠ .arming →
                s.rct.restart ≠ .lockout → CompletesAs .controlPeriodEnd s fun u =>
                  LocksOut 1 .hostStale { s with hif := h } u ∧ HandsFirst .host 8 noSlot s.hif.lastTag s u)
            ∧ (s.plan.staleTrip = true →
                s.rct.restart = .unarmed ∨ s.rct.restart = .arming ∨ s.rct.restart = .lockout →
                CompletesAs .controlPeriodEnd s fun u =>
                  u.hif = h ∧ HandsRecord .host 8 noSlot s.hif.lastTag s u ∧ KeepsAllBut [.hif, .wen, .log] s u))

/-! ## Host accesses -/

/-- A write to the logical command window is absorbed while the window is closed, and counts as OUTSIDE at a position of
K or more while it is open (R44, R57). The row OUTSIDE at a position below K is the write of its word, which is the model's
choice of operands (log 30). -/
def Obligations.WindowWritesOutsideTheMapAreAbsorbed : Prop :=
  ∀ s r v w i, ∀ c ∈ [Instr.logicalGateWrite r v, .logicalAmplitudeWrite r v, .logicalAngleWrite r v,
      .logicalCarrierWrite r v, .bypassWord r v, .logicalAuxWrite r i v, .outside r w v],
    (s.bpu.isOpen = false → CompletesAs c s fun u => u = s)
      ∧ (s.bpu.isOpen = true → s.mpl.k ≤ indexOf r → CompletesAs c s fun u =>
          u.bpu.counts = { s.bpu.counts with outside := satInc s.bpu.counts.outside }
            ∧ KeepsAllBut [.counts] s u)
      ∧ exec (.outside r 0 v) s = exec (.logicalGateWrite r v) s
      ∧ exec (.outside r 1 v) s = exec (.logicalAmplitudeWrite r v) s
      ∧ exec (.outside r 2 v) s = exec (.logicalAngleWrite r v) s
      ∧ exec (.outside r 3 v) s = exec (.logicalCarrierWrite r v) s
      ∧ exec (.outside r 4 v) s = exec (.bypassWord r v) s
      ∧ exec (.outside r ⟨5 + i.val, by omega⟩ v) s = exec (.logicalAuxWrite r i v) s

/-- A held latch is committed alone, as torn, by a write to another record of its phase and left by one to its own
record; an empty latch stays (R51, R53, R57). The capture ring takes a write while RUNNING, with the low half of the
frame count, the oldest entry leaving a full ring; a post count counts down and its last write freezes the ring (R89,
R90). That a torn pair counts as its commit is queued is the model's reading (log 14). -/
def Obligations.LatchCommitsAndCaptureEntries : Prop :=
  (∀ s r u, u = commitOther r s →
        (s.bpu.latches.get (phaseOf r) = none → u = s)
          ∧ ∀ l, s.bpu.latches.get (phaseOf r) = some l →
              (l.record = r → u = s)
                ∧ (l.record ≠ r →
                    u.bpu.latches = s.bpu.latches.set (phaseOf r) none
                      ∧ (∃ a b, u.bpu.needs = s.bpu.needs ++ [.commitAlone (phaseOf r) l.slot l.amplitude a b])
                      ∧ (u.mpl.phases.get (phaseOf r)).torn = satInc (s.mpl.phases.get (phaseOf r)).torn
                      ∧ u.bpu.counts = (if s.bpu.isOpen then
                          { s.bpu.counts with tornPair := satInc s.bpu.counts.tornPair } else s.bpu.counts)
                      ∧ KeepsAllBut [.latches, .needs, .counts, .phases] s u))
    ∧ (∀ s r w v u, u = recordCapture r w v s →
        (s.cap.state ≠ .running → u = s)
          ∧ (s.cap.state = .running → ∀ ring, ring = s.cap.ring.drop (s.cap.ring.length - 63)
                ++ [⟨r, w, v, s.itm.frames.setWidth 16⟩] →
              (s.cap.post = none → u = { s with cap := { s.cap with ring := ring } })
                ∧ (∀ n, s.cap.post = some n → 2 ≤ n → u = { s with cap := { s.cap with ring := ring, post := some (n - 1) } })
                ∧ (s.cap.post = some 1 →
                    u.cap = { s.cap with ring := ring, state := .dumping, post := none }
                      ∧ JobListed .captureDump (dumpWrites ring.length) u ∧ KeepsAllBut [.wen, .cap] s u)))

/-- LOGICAL_GATE_WRITE inside the map (R45, R47, R142, R143, R146): a value above 2 is refused and counted; another is the
gate intent and goes to the slot that holds the position in NORMAL. -/
def Obligations.GateWritesReachTheImage : Prop :=
  ∀ s r v, s.bpu.isOpen = true → indexOf r < s.mpl.k → CompletesAs (.logicalGateWrite r v) s fun u =>
    (2 < v.toNat → u.rfs.image = s.rfs.image ∧ u.bpu.counts.gateValue = satInc s.bpu.counts.gateValue
        ∧ u.bpu.needs = (commitOther r s).bpu.needs)
      ∧ (v.toNat ≤ 2 → u.rfs.image = s.rfs.image.modify r (fun d => { d with gate := v })
          ∧ u.bpu.counts.gateValue = s.bpu.counts.gateValue
          ∧ (s.rct.restart ≠ .normal ∨ slotOfRecord s r = none → u.bpu.needs = (commitOther r s).bpu.needs)
          ∧ ∀ i, s.rct.restart = .normal → slotOfRecord s r = some i →
              u.bpu.needs = (commitOther r s).bpu.needs ++ [.translated r 0 (physicalCommandAddr i 0) v])
      ∧ u.bpu.latches = (commitOther r s).bpu.latches ∧ u.cap = (recordCapture r 0 v s).cap
      ∧ KeepsAllBut [.latches, .needs, .counts, .phases, .image, .wen, .cap] s u

/-- LOGICAL_AMPLITUDE_WRITE inside the map (R45, R48, R51, R142, R144): the clamped value and the mark; live on a slot,
the translated value is latched and a held latch committed alone; otherwise another record's latch is committed. In
AWAITING so does a write that does not start the release, for the fresh set, the host or a fault (R148). Each clamp and
each saturation is counted in the phase and as a SATURATION event (R57, R142); a commit alone counts a torn pair as it
is queued (log 14). -/
def Obligations.AmplitudeWritesAreLatched : Prop :=
  ∀ s r v clamped p, s.bpu.isOpen = true → indexOf r < s.mpl.k → p = phaseOf r →
    clamped = (if 32767 < v.toNat then 32767 else v) →
    ∀ n m, n = (if 32767 < v.toNat then 1 else 0) → m = n + (if (amplitudeOf s r clamped).2 then 1 else 0) →
    (∀ i, isLive s r 1 = true → slotOfRecord s r = some i → CompletesAs (.logicalAmplitudeWrite r v) s fun u =>
        u.bpu.latches = s.bpu.latches.set p (some ⟨r, i, (amplitudeOf s r clamped).1⟩)
          ∧ u.bpu.needs = (commitPhase p s).bpu.needs
          ∧ (u.mpl.phases.get p).saturation = Nat.repeat satInc m (s.mpl.phases.get p).saturation
          ∧ u.bpu.counts = { s.bpu.counts with
              saturation := Nat.repeat satInc m s.bpu.counts.saturation
              tornPair := if s.bpu.latches.get p = none then s.bpu.counts.tornPair else satInc s.bpu.counts.tornPair }
          ∧ u.rfs.image = s.rfs.image.modify r (fun d => { d with amplitude := clamped })
          ∧ u.rfs.amplitudeMark = s.rfs.amplitudeMark.set r true ∧ u.cap = (recordCapture r 1 v s).cap
          ∧ KeepsAllBut [.latches, .needs, .counts, .phases, .image, .amplitudeMark, .wen, .cap] s u)
      ∧ (isLive s r 1 = false ∨ slotOfRecord s r = none →
          (s.rct.restart = .awaiting →
            freshComplete { s with rfs := { s.rfs with amplitudeMark := s.rfs.amplitudeMark.set r true } } = false
              ∨ 3 ≤ s.hif.stale ∨ noFaultPending s = false) →
          CompletesAs (.logicalAmplitudeWrite r v) s fun u =>
            u.bpu.latches = (commitOther r s).bpu.latches ∧ u.bpu.needs = (commitOther r s).bpu.needs
              ∧ (u.mpl.phases.get p).saturation = Nat.repeat satInc n (s.mpl.phases.get p).saturation
              ∧ u.bpu.counts = { s.bpu.counts with
                  saturation := Nat.repeat satInc n s.bpu.counts.saturation
                  tornPair := (commitOther r s).bpu.counts.tornPair }
              ∧ u.rfs.image = s.rfs.image.modify r (fun d => { d with amplitude := clamped })
              ∧ u.rfs.amplitudeMark = s.rfs.amplitudeMark.set r true ∧ u.cap = (recordCapture r 1 v s).cap
              ∧ KeepsAllBut [.latches, .needs, .counts, .phases, .image, .amplitudeMark, .wen, .cap] s u)

/-- LOGICAL_ANGLE_WRITE inside the map (R45, R49, R52, R142, R144): the value and the mark; live on a slot, it goes with
the amplitude its latch holds in one tenure, or alone behind another record's commit, or alone. In AWAITING the last case
is a write that does not start the release (R148). -/
def Obligations.AngleWritesCommitTheirPair : Prop :=
  ∀ s r v, s.bpu.isOpen = true → indexOf r < s.mpl.k →
    ∀ good, (good = fun (u : State) =>
        u.rfs.image = s.rfs.image.modify r (fun d => { d with angle := v })
          ∧ u.rfs.angleMark = s.rfs.angleMark.set r true ∧ u.cap = (recordCapture r 2 v s).cap
          ∧ KeepsAllBut [.latches, .needs, .counts, .phases, .image, .angleMark, .wen, .cap] s u) →
    (∀ i l, isLive s r 2 = true → slotOfRecord s r = some i → s.bpu.latches.get (phaseOf r) = some l → l.record = r →
        CompletesAs (.logicalAngleWrite r v) s fun u => good u
          ∧ u.bpu.latches = s.bpu.latches.set (phaseOf r) none
          ∧ u.bpu.needs = s.bpu.needs ++ [.pair r l.slot l.amplitude (angleOf s r v)]
          ∧ u.bpu.counts = s.bpu.counts ∧ u.mpl.phases = s.mpl.phases)
      ∧ (∀ i, isLive s r 2 = true → slotOfRecord s r = some i →
          (∀ l, s.bpu.latches.get (phaseOf r) = some l → l.record ≠ r) →
          CompletesAs (.logicalAngleWrite r v) s fun u => good u
            ∧ u.bpu.latches = (commitOther r s).bpu.latches
            ∧ u.bpu.needs = (commitOther r s).bpu.needs
                ++ [.translated r 2 (physicalCommandAddr i 2) (angleOf s r v)])
      ∧ (isLive s r 2 = false ∨ slotOfRecord s r = none →
          (s.rct.restart = .awaiting →
            freshComplete { s with rfs := { s.rfs with angleMark := s.rfs.angleMark.set r true } } = false
              ∨ 3 ≤ s.hif.stale ∨ noFaultPending s = false) →
          CompletesAs (.logicalAngleWrite r v) s fun u => good u
            ∧ u.bpu.latches = (commitOther r s).bpu.latches ∧ u.bpu.needs = (commitOther r s).bpu.needs)

/-- LOGICAL_CARRIER_WRITE, LOGICAL_AUX_WRITE and BYPASS_WORD inside the map (R45, R47, R50, R142, R147): the carrier and
the aux word go to the image and, live on a slot, to the cell; a held aux word joins the list or is refused with AUX_FULL
at 32 entries; word 4 is refused and counted. That a live aux word at a dark position does not join the list is deduced
(log 26). -/
def Obligations.CarrierAuxAndBypassWrites : Prop :=
  ∀ s r v n l, s.bpu.isOpen = true → indexOf r < s.mpl.k → n = (commitOther r s).bpu.needs →
    l = (commitOther r s).bpu.latches →
    CompletesAs (.logicalCarrierWrite r v) s (fun u =>
        u.rfs.image = s.rfs.image.modify r (fun d => { d with carrier := v }) ∧ u.bpu.latches = l
          ∧ (∀ i, isLive s r 3 = true → slotOfRecord s r = some i →
              u.bpu.needs = n ++ [.translated r 3 (physicalCommandAddr i 3) (carrierOf s r v)])
          ∧ (isLive s r 3 = false ∨ slotOfRecord s r = none → u.bpu.needs = n)
          ∧ u.cap = (recordCapture r 3 v s).cap
          ∧ KeepsAllBut [.latches, .needs, .counts, .phases, .image, .wen, .cap] s u)
      ∧ (∀ (a : Fin 3) (w : Fin 8), w.val = 5 + a.val → CompletesAs (.logicalAuxWrite r a v) s fun u =>
          u.rfs.image = s.rfs.image.modify r (fun d => d.setAux a v) ∧ u.bpu.latches = l
            ∧ (∀ i, isLive s r w = true → slotOfRecord s r = some i →
                u.bpu.needs = n ++ [.translated r w (physicalCommandAddr i w.val) v] ∧ u.rfs.aux = s.rfs.aux)
            ∧ (isLive s r w = true → slotOfRecord s r = none → u.bpu.needs = n ∧ u.rfs.aux = s.rfs.aux)
            ∧ (isLive s r w = false → s.rfs.aux.length < 32 →
                u.bpu.needs = n ∧ u.rfs.aux = s.rfs.aux ++ [⟨r, a, v⟩]
                  ∧ u.bpu.counts.auxFull = s.bpu.counts.auxFull)
            ∧ (isLive s r w = false → 32 ≤ s.rfs.aux.length →
                u.bpu.needs = n ∧ u.rfs.aux = s.rfs.aux ∧ u.bpu.counts.auxFull = satInc s.bpu.counts.auxFull)
            ∧ u.cap = (recordCapture r w v s).cap
            ∧ KeepsAllBut [.latches, .needs, .counts, .phases, .image, .aux, .wen, .cap] s u)
      ∧ CompletesAs (.bypassWord r v) s fun u =>
          u.bpu.counts.bypassWord = satInc s.bpu.counts.bypassWord ∧ u.bpu.needs = n ∧ u.bpu.latches = l
            ∧ u.cap = (recordCapture r 4 v s).cap
            ∧ KeepsAllBut [.latches, .needs, .counts, .phases, .wen, .cap] s u

/-- When a write is live (Table 9-2, R146). Word 4 is refused in every state, neither live nor held (R45, R146). -/
def Obligations.WritesAreLiveByState : Prop :=
  ∀ s r w,
    isLive s r 4 = false
      ∧ (w ≠ 4 →
          (s.rct.restart = .normal → isLive s r w = true)
            ∧ (s.rct.restart = .proving → isLive s r w = decide (w ≠ 0))
            ∧ (s.rct.restart = .resuming →
                isLive s r 0 = false
                  ∧ (∀ c, 1 ≤ w.val → w.val ≤ 3 → s.rfs.cursor = some c → isLive s r w = decide (r ≤ c))
                  ∧ (1 ≤ w.val → w.val ≤ 3 → s.rfs.cursor = none → isLive s r w = false)
                  ∧ (5 ≤ w.val → isLive s r w = (s.rfs.stage == some .gates))))
      ∧ (s.rct.restart ≠ .normal → s.rct.restart ≠ .proving → s.rct.restart ≠ .resuming → isLive s r w = false)

/-- The translated angle is the host's angle plus the phase's offset, modulo 65536, whatever the rounding mode; the offset
is the one the last map change set (R49). -/
def Obligations.AngleIsShiftedByTheOffset : Prop :=
  (∀ s r v, (angleOf s r v).toNat = (v.toNat + (s.mpl.phases.get (phaseOf r)).angleOffset.toNat) % 65536)
    ∧ (∀ s r v m, angleOf { s with plan := { s.plan with rounding := m } } r v = angleOf s r v)
    ∧ (∀ v, translateAngle 0 v = v) ∧ translateAngle 64986 1000 = 450 ∧ translateAngle 550 65300 = 314
    ∧ (∀ hard s p, ((planRun hard s).mpl.phases.get p).angleOffset
        = (rebalance s.mpl.table s.plan.rounding s.mpl.k (planRoles hard s)).angle.get p)
    ∧ ∀ p m q, ((adoptMap p m).phases.get q).angleOffset = (planBuild p m.slots).angle.get q

/-- The amplitude of a record is translated with the scale of its phase and the plan's rounding mode; it never exceeds
32767, is the rounded quotient below that, and is the host's value at unity (R48). The carrier is translated with the
record's position and the dark positions of its phase, those below K that no ACTIVE slot of the phase holds, ascending;
it is the host's while none is dark and rank × 65536 / n otherwise (R50). -/
def Obligations.AmplitudeAndCarrierTranslation : Prop :=
  (∀ s r v, amplitudeOf s r v = translateAmplitude s.plan.rounding (s.mpl.phases.get (phaseOf r)).scale v
        ∧ carrierOf s r v = translateCarrier s.mpl.k (darkPositions s.mpl.slots s.mpl.k (phaseOf r)) (indexOf r) v)
    ∧ (∀ m k p, darkPositions m k p
        = (List.range k).filter fun q => (phaseSlots p).all fun i => (m.get i).role != .active q)
    ∧ (∀ m scale a, (translateAmplitude m scale a).1.toNat = min 32767 (roundDiv m (a.toNat * scale.toNat) 4096)
      ∧ ((translateAmplitude m scale a).2 = true ↔ 32767 < roundDiv m (a.toNat * scale.toNat) 4096))
    ∧ (∀ m a, a.toNat ≤ 32767 → translateAmplitude m 4096 a = (a, false))
    ∧ (∀ n d, 0 < d → roundDiv .down n d * d ≤ n ∧ n < (roundDiv .down n d + 1) * d
        ∧ n ≤ roundDiv .up n d * d ∧ roundDiv .up n d * d < n + d
        ∧ (roundDiv .nearestEven n d = roundDiv .down n d ∨ roundDiv .nearestEven n d = roundDiv .up n d)
        ∧ (2 * (n % d) = d → roundDiv .nearestEven n d % 2 = 0)
        ∧ (2 * (n % d) < d → roundDiv .nearestEven n d = n / d)
        ∧ (d < 2 * (n % d) → roundDiv .nearestEven n d = n / d + 1))
    ∧ (∀ k q v, translateCarrier k [] q v = v)
    ∧ (∀ k d ds q v, ((List.range q).filter fun i => !(d :: ds).contains i).length < k - (d :: ds).length →
        (translateCarrier k (d :: ds) q v).toNat
          = ((List.range q).filter fun i => !(d :: ds).contains i).length * 65536 / (k - (d :: ds).length))
    ∧ translateCarrier 6 [3] 4 7000 = 39321 ∧ translateCarrier 6 [5] 4 7000 = 52428

/-- LOGICAL_COMMAND_READ is answered at once from the reference image, with the commanded bypass of the slot, or CLOSE at a
dark position, for word 4 (R55); LOGICAL_STATUS_READ goes to the slot that holds the position or is synthesized (R56);
outside the open map both answer 0 (R44); LOGICAL_STATUS_WRITE changes nothing (R56). -/
def Obligations.LogicalReadsAreAnswered : Prop :=
  ∀ s r (w : Fin 8) v,
    exec (.logicalStatusWrite r w v) s = .next s
      ∧ (s.bpu.isOpen = true → indexOf r < s.mpl.k → ∀ d, d = s.rfs.image.get r →
          CompletesAs (.logicalCommandRead r w) s (fun u =>
              (w = 0 → u.bpu.hostData = d.gate) ∧ (w = 1 → u.bpu.hostData = d.amplitude)
                ∧ (w = 2 → u.bpu.hostData = d.angle) ∧ (w = 3 → u.bpu.hostData = d.carrier)
                ∧ (w = 4 → slotOfRecord s r = none → u.bpu.hostData = 1)
                ∧ (∀ i, w = 4 → slotOfRecord s r = some i → u.bpu.hostData = (s.mpl.slots.get i).bypass.code)
                ∧ (w = 5 → u.bpu.hostData = d.aux0) ∧ (w = 6 → u.bpu.hostData = d.aux1)
                ∧ (w = 7 → u.bpu.hostData = d.aux2) ∧ KeepsAllBut [.hostData] s u)
            ∧ (∀ i, slotOfRecord s r = some i → CompletesAs (.logicalStatusRead r w) s fun u =>
                u.bpu.needs = s.bpu.needs ++ [.read (physicalStatusAddr i w.val) true] ∧ KeepsAllBut [.needs] s u)
            ∧ (slotOfRecord s r = none → CompletesAs (.logicalStatusRead r w) s fun u =>
                u.bpu.hostData = (if w = 1 ∨ w = 6 then 7 else 0) ∧ KeepsAllBut [.hostData] s u))
      ∧ (s.bpu.isOpen = false ∨ s.mpl.k ≤ indexOf r → ∀ c ∈ [Instr.logicalCommandRead r w, .logicalStatusRead r w],
          CompletesAs c s fun u => u.bpu.hostData = 0 ∧ KeepsAllBut [.hostData] s u)

/-- Host writes to the regions the part protects: physical command records, plan region and map image (R39, R40), capture
region (R41), log region (R42). Unarmed they pass; armed, the consumed word of 1, the consumer word and the free words pass,
the first two watched once the window is open, and every other write is absorbed and counted as PROTECTED once the window
is open. -/
def Obligations.ProtectedRegionsAbsorbWrites : Prop :=
  ∀ s a v c, ((∃ i w, a = physicalCommandAddr i w.val ∧ c = .physicalCommandWrite i w v)
      ∨ c = .planOrImageWrite a v ∨ c = .captureRegionWrite a v ∨ c = .logRegionWrite a v) → c.wellFormed = true →
    (s.rct.restart = .unarmed → CompletesAs c s fun u =>
        u.bpu.needs = s.bpu.needs ++ [.passWrite a v none] ∧ KeepsAllBut [.needs] s u)
      ∧ (s.rct.restart ≠ .unarmed →
          (a = 0xD06 → v = 1 → CompletesAs c s fun u =>
              u.bpu.needs = s.bpu.needs ++ [.passWrite a v (if s.bpu.isOpen then some .consumed else none)]
                ∧ KeepsAllBut [.needs] s u)
            ∧ (a = 0x1001 → CompletesAs c s fun u =>
                u.bpu.needs = s.bpu.needs ++ [.passWrite a v (if s.bpu.isOpen then some (.consumer v) else none)]
                  ∧ KeepsAllBut [.needs] s u)
            ∧ (a = 0x1005 ∨ a = 0x1006 ∨ a = 0x1007 → CompletesAs c s fun u =>
                u.bpu.needs = s.bpu.needs ++ [.passWrite a v none] ∧ KeepsAllBut [.needs] s u)
            ∧ (¬(a = 0xD06 ∧ v = 1) → a ≠ 0x1001 → a ≠ 0x1005 → a ≠ 0x1006 → a ≠ 0x1007 → CompletesAs c s fun u =>
                u.bpu.counts = (if s.bpu.isOpen then
                    { s.bpu.counts with protectedWrite := satInc s.bpu.counts.protectedWrite } else s.bpu.counts)
                  ∧ KeepsAllBut [.counts] s u))

/-- HOST_PASSED_ACCESS: a read and a write outside the logical windows and the protected regions join the BPU's needs
(R37, R38); a write to the drive record is watched while the part is armed, a value other than 1 of word 2 apart (R43). -/
def Obligations.OtherAccessesPass : Prop :=
  ∀ s a op, (Instr.hostPassedAccess a op).wellFormed = true →
    (op = .read → CompletesAs (.hostPassedAccess a op) s fun u =>
        u.bpu.needs = s.bpu.needs ++ [.read a false] ∧ KeepsAllBut [.needs] s u)
      ∧ ∀ v, op = .write v → CompletesAs (.hostPassedAccess a op) s fun u =>
          (∃ d, u.bpu.needs = s.bpu.needs ++ [.passWrite a v d]
            ∧ (s.rct.restart = .unarmed ∨ a.toNat < 0x400 ∨ 0x403 < a.toNat → d = none)
            ∧ (s.rct.restart ≠ .unarmed →
                (a = 0x400 → d = some (.periodTag v)) ∧ (a = 0x401 → d = some (.direction v))
                  ∧ (a = 0x402 → d = if v = 1 then some .proof else none)
                  ∧ (a = 0x403 → d = some (.restartEnable v))))
            ∧ KeepsAllBut [.needs] s u

/-! ## Watched writes -/

/-- PERIOD_TAG_WRITE (R161, R162): a tag equal to the last has no effect; another is taken, marks the period and sets the
staleness count to 0, and from a count of 3 it makes a LIVE record. In AWAITING such a return tests R148 again. -/
def Obligations.PeriodTagsClearStaleness : Prop :=
  ∀ s v rest b, s.bpu.deliveries = .periodTag v :: rest → b = { s.bpu with deliveries := rest } →
    (v = s.hif.lastTag → CompletesAs .periodTagWrite s fun u => u = { s with bpu := b })
      ∧ (v ≠ s.hif.lastTag →
          (s.hif.stale < 3 → CompletesAs .periodTagWrite s fun u =>
              u = { s with bpu := b, hif := { s.hif with lastTag := v, tagChanged := true, stale := 0 } })
            ∧ (3 ≤ s.hif.stale → s.rct.restart ≠ .awaiting ∨ freshComplete s = false ∨ noFaultPending s = false →
                CompletesAs .periodTagWrite s fun u =>
                  u.bpu = b ∧ u.hif = { s.hif with lastTag := v, tagChanged := true, stale := 0 }
                    ∧ HandsRecord .host 9 noSlot v s u ∧ KeepsAllBut [.deliveries, .hif, .wen, .log] s u)
            ∧ (3 ≤ s.hif.stale → s.rct.restart = .awaiting → freshComplete s = true → noFaultPending s = true →
                CompletesAs .periodTagWrite s fun u =>
                  u.rct = { s.rct with restart := .resuming, fresh := s.rct.fresh.stop } ∧ u.hif.stale = 0
                    ∧ u.hif.lastTag = v ∧ HandsFirst .host 9 noSlot v s u ∧ u.rfs.stage ≠ none
                    ∧ u.rfs.cursor = none))

/-- DIRECTION_WRITE (R106): the copy takes the value; an equal value has no effect beyond it; a change acts by state on
the fresh marks, the fresh-set timer, the release and the restart state. Mode, pass count and the direction at trip
stay. Word 3 of a SEQUENCE record is the state entered (log 24). -/
def Obligations.DirectionChangesActByState : Prop :=
  ∀ s v rest d b, s.bpu.deliveries = .direction v :: rest → b = { s.bpu with deliveries := rest } →
    d = (if v = 0 then Direction.raise else .lower) →
    (d = s.rct.direction → CompletesAs .directionWrite s fun u => u = { s with bpu := b })
      ∧ (d ≠ s.rct.direction →
          (s.rct.restart = .normal ∨ s.rct.restart = .lockout → CompletesAs .directionWrite s fun u =>
              u = { s with bpu := b, rct := { s.rct with direction := d } })
            ∧ (s.rct.restart = .arming ∨ s.rct.restart = .tripped ∨ s.rct.restart = .isolating
                ∨ s.rct.restart = .recharging ∨ s.rct.restart = .verifying → CompletesAs .directionWrite s fun u =>
                  u = { s with
                    bpu := b
                    rct := { s.rct with direction := d }
                    rfs := { s.rfs with amplitudeMark := PerSlot.all false, angleMark := PerSlot.all false } })
            ∧ (s.rct.restart = .awaiting → CompletesAs .directionWrite s fun u =>
                u = { s with
                  bpu := b
                  rct := { s.rct with direction := d, fresh := .load s.plan.freshTimeout }
                  rfs := { s.rfs with amplitudeMark := PerSlot.all false, angleMark := PerSlot.all false } })
            ∧ (s.rct.restart = .resuming ∨ s.rct.restart = .proving → CompletesAs .directionWrite s fun u =>
                u.rct.direction = d ∧ u.rct.directionAtTrip = s.rct.directionAtTrip ∧ u.rct.mode = s.rct.mode
                  ∧ u.rct.passCount = s.rct.passCount
                  ∧ u.rfs.amplitudeMark = PerSlot.all false ∧ u.rfs.angleMark = PerSlot.all false
                  ∧ BlocksAll s.mpl.slots u ∧ u.bpu.latches = PerPhase.all none
                  ∧ (s.rct.mode = .standstill → u.hif.driveHealthy = false ∧ u.hif.permit = false)
                  ∧ HandsFirst .sequence RestartState.awaiting.code noSlot 1
                      { s with rct := { s.rct with restart := .awaiting } } u
                  ∧ ((∃ i, indexOf i < s.mpl.k ∧ slotOfRecord s i ≠ none) →
                      u.rct = { s.rct with
                          restart := .awaiting, direction := d, fresh := .load s.plan.freshTimeout
                          proving := if s.rct.restart = .proving then s.rct.proving.stop else s.rct.proving }
                        ∧ u.rfs.stage = none ∧ u.rfs.cursor = none ∧ NoJobsOf (· == .release) u)
                  ∧ CutsOnly (· == .release) s u ∧ OtherJobsStay (· == .release) s u
                  ∧ (¬Writing (· == .release) s → u.mpa.holder = s.mpa.holder)
                  ∧ KeepsAllBut [.mem, .latches, .needs, .counts, .deliveries, .holder, .rct, .phases, .amplitudeMark,
                      .angleMark, .cursor, .stage, .wen, .hif, .log, .cuts] s u))

/-- PROOF_EVENT (R160): in PROVING with the host not stale it leads to NORMAL with the permit high, in NORMAL with the
proof-needed flag set it raises the permit, each with a PROVEN record; otherwise it has no effect. The PROVEN record
stands ahead of SEQUENCE NORMAL (log 25), and its word 3 is NORMAL, which is the model's choice (log 42). -/
def Obligations.ProofsRaiseThePermit : Prop :=
  ∀ s rest s', s.bpu.deliveries = .proof :: rest → s' = { s with bpu := { s.bpu with deliveries := rest } } →
    (s.rct.restart = .proving → s.hif.stale < 3 → CompletesAs .proofEvent s fun u =>
        u.rct = { s.rct with
            restart := .normal, passCount := 0, proving := s.rct.proving.stop, budget := s.rct.budget.stop
            pendingFaults := PerSlot.all none }
          ∧ u.hif = { s.hif with driveHealthy := true, permit := true, proofNeeded := false }
          ∧ HandsFirst .hoist 4 noSlot 0 { s with rct := { s.rct with restart := .normal } } u
          ∧ KeepsAllBut [.rct, .hif, .wen, .log] s' u)
      ∧ (s.rct.restart = .normal → s.hif.stale < 3 → s.hif.proofNeeded = true → CompletesAs .proofEvent s fun u =>
          u.hif = { s.hif with permit := true, proofNeeded := false } ∧ HandsRecord .hoist 4 noSlot 1 s u
            ∧ KeepsAllBut [.hif, .wen, .log] s' u)
      ∧ (3 ≤ s.hif.stale ∨ s.rct.restart = .normal ∧ s.hif.proofNeeded = false
          ∨ s.rct.restart ≠ .normal ∧ s.rct.restart ≠ .proving → CompletesAs .proofEvent s fun u => u = s')

/-- RESTART_ENABLE_WRITE (R107), CONSUMED_WRITE (R93) and CONSUMER_WRITE (R173). IRQ_N that R174 holds high, from
the end of an armed period to the start of the next log, is not pulled low (log 45). -/
def Obligations.OtherWatchedWritesAreTaken : Prop :=
  ∀ s rest b, b = { s.bpu with deliveries := rest } →
    (∀ v, s.bpu.deliveries = .restartEnable v :: rest → CompletesAs .restartEnableWrite s fun u =>
        u = { s with bpu := b, rct := { s.rct with restartEnable := v == 1 } })
      ∧ (s.bpu.deliveries = .consumed :: rest →
          (s.cap.state ≠ .frozen → CompletesAs .consumedWrite s fun u => u = { s with bpu := b })
            ∧ (s.cap.state = .frozen → CompletesAs .consumedWrite s fun u =>
                u.cap = { s.cap with ring := [], state := .running } ∧ HandsFirst .capture 3 noSlot 0 s u
                  ∧ JobListed .captureHeader (captureHeaderWrites ++ [⟨0xD00, .captureHeader 0⟩]) u
                  ∧ KeepsAllBut [.deliveries, .wen, .cap, .log] s u))
      ∧ ∀ v, s.bpu.deliveries = .consumer v :: rest →
          (s.log.capacity ≤ v.toNat → CompletesAs .consumerWrite s fun u => u = { s with bpu := b })
            ∧ (v.toNat < s.log.capacity → CompletesAs .consumerWrite s fun u =>
                u.log.consumer = v.toNat ∧ u.log = { s.log with consumer := v.toNat, irqN := u.log.irqN }
                  ∧ (u.log.irqN = false ↔ s.log.irqHeld = false ∧
                      ∃ n, n < (s.log.written + s.log.capacity - v.toNat) % s.log.capacity
                        ∧ s.log.marks.getD ((v.toNat + n) % s.log.capacity) false = true)
                  ∧ KeepsAllBut [.deliveries, .log] s u)

/-! ## Tenures and completions -/

/-- BPU_TENURE_END (R30, R43, R52): the need at the head is performed: its words stand in memory, a read answers the host,
a watched write joins the deliveries; every word the tenure and the link engines did not write reads as before. -/
def Obligations.BpuTenuresPerformTheirNeed : Prop :=
  ∀ s far n rest, s.mem.wf = true → s.mpa.holder = some .bpu → s.bpu.needs = n :: rest →
    CompletesAs (.bpuTenureEnd far) s fun u =>
      u.bpu.needs = rest ∧ u.mpa.holder = none
        ∧ (∀ a v d, n = .passWrite a v d → u.mem.read a = v ∧ u.bpu.deliveries = s.bpu.deliveries ++ d.toList)
        ∧ (∀ r w a v, n = .translated r w a v → u.mem.read a = v)
        ∧ (∀ r i m g, n = .pair r i m g →
            u.mem.read (physicalCommandAddr i 1) = m ∧ u.mem.read (physicalCommandAddr i 2) = g)
        ∧ (∀ p i m t k, n = .commitAlone p i m t k → u.mem.read (physicalCommandAddr i 1) = m)
        ∧ (∀ a l, n = .read a l → u.bpu.hostData = (applyFar far s.mem).read a)
        ∧ ((∀ a l, n ≠ .read a l) → u.bpu.hostData = s.bpu.hostData)
        ∧ ((∀ a v d, n ≠ .passWrite a v d) → u.bpu.deliveries = s.bpu.deliveries)
        ∧ SameMemoryOutside (n.writes.map Prod.fst ++ far.map fun f => physicalStatusAddr f.slot f.word.val) s u
        ∧ KeepsAllBut [.mem, .needs, .deliveries, .hostData, .holder] s u

/-- WEN_TENURE_END (R32, R33, R150 to R152): the writes of the buffer stand in memory and no other word changes; the buffer
is EMPTY, and a job whose last write was performed leaves its list and is reported if its owner acts on it. The release
cursor moves to the record whose carrier was written. With no release write left unperformed, stage AUXILIARY gives way to
GATES when the list is empty, and the job drains again when it is not. -/
def Obligations.WenTenuresPerformTheirBuffer : Prop :=
  ∀ s b w, s.mem.wf = true → s.mpa.holder = some (.wen b) → s.wen.buffer b = .writing w →
    ∀ performed advances, performed = ((∃ v, s.rfs.stage = some (.auxiliary v))
        ∧ (s.wen.buffer b.other).holdsRelease = false) →
    advances = (performed ∧ s.rfs.aux = []) →
    CompletesAs .wenTenureEnd s fun u =>
      u.mem = s.mem.writeAll w.writes
        ∧ ((w.writes.map Prod.fst).Nodup → ∀ a ∈ w.writes, u.mem.read a.1 = a.2)
        ∧ SameMemoryOutside (w.writes.map Prod.fst) s u
        ∧ u.mpa.holder = none ∧ u.wen.buffer b = .empty ∧ u.wen.buffer b.other = s.wen.buffer b.other
        ∧ (∀ c, w.cursor = some c → u.rfs.cursor = some c) ∧ (w.cursor = none → u.rfs.cursor = s.rfs.cursor)
        ∧ (advances → u.rfs.stage = some .gates
            ∧ (activeSlots s.mpl.slots = [] → JobKind.release ∈ u.wen.done)
            ∧ ∀ before j after, activeSlots s.mpl.slots ≠ [] → w.last = false → s.wen.jobs2 = before ++ j :: after →
                (∀ i ∈ before, i.kind ≠ .release) → j.kind = .release →
                u.wen.jobs2 = before
                  ++ ⟨.release, (activeSlots s.mpl.slots).map fun i => ⟨physicalCommandAddr i 0, .gateIntent i⟩, j.begun⟩
                    :: after)
        ∧ (¬advances → (performed → u.rfs.stage = some (.auxiliary false)) ∧ (¬performed → u.rfs.stage = s.rfs.stage)
            ∧ (w.last = false → u.wen.done = s.wen.done ∧ u.wen.jobs w.kind.cls = s.wen.jobs w.kind.cls)
            ∧ (w.last = true → u.wen.jobs w.kind.cls = (s.wen.jobs w.kind.cls).eraseP (·.kind == w.kind)
                ∧ u.wen.done = if w.kind.reported then s.wen.done ++ [w.kind] else s.wen.done))
        ∧ KeepsAllBut [.mem, .holder, .cursor, .stage, .wen] s u

/-- RELEASE_COMPLETE (R101, R103, R152, R158): RIDE_THROUGH leads to NORMAL, STANDSTILL to PROVING, and with BRAKE_SET
low at that entry to LOCKOUT. RESET_JOB_COMPLETE (R131), CAPTURE_DUMP_COMPLETE (R91) and LOG_RECORD_COMPLETE (R172 to
R174). Taking all the completions of records at once, as a cancellation does first (log 27), is taking them one by one.
After the closing record's completion IRQ_N is held high until the log starts (R174, log 45). At the entry to PROVING
with BRAKE_SET low the HOIST record LIFTED_WITHOUT_PERMIT stands ahead of the SEQUENCE record (log 25), and its word 3
is PROVING, which is the model's choice (log 42); word 3 of a SEQUENCE record is the state entered (log 24). -/
def Obligations.CompletionsAreTakenByTheirOwners : Prop :=
  (∀ s, JobKind.release ∈ s.wen.done → s.rct.restart = .resuming →
        (s.rct.mode = .rideThrough → CompletesAs .releaseComplete s fun u =>
            u.rct = { s.rct with
                restart := .normal, passCount := 0, budget := s.rct.budget.stop, pendingFaults := PerSlot.all none }
              ∧ u.hif = { s.hif with driveHealthy := true } ∧ u.rfs.stage = none ∧ u.rfs.cursor = none
              ∧ u.log = (logRecord .sequence RestartState.normal.code noSlot (word s.rct.passCount)
                  { s with rct := { s.rct with restart := .normal } }).log
              ∧ KeepsAllBut [.rct, .cursor, .stage, .wen, .hif, .log] s u)
          ∧ (s.rct.mode = .standstill → s.pins.brakeSet = true → CompletesAs .releaseComplete s fun u =>
              u.rct = { s.rct with restart := .proving, proving := .load s.plan.provingWindow }
                ∧ u.hif.driveHealthy = true ∧ u.hif.permit = false ∧ u.rfs.stage = none ∧ u.rfs.cursor = none
                ∧ KeepsAllBut [.rct, .cursor, .stage, .wen, .hif, .log] s u)
          ∧ (s.rct.mode = .standstill → s.pins.brakeSet = false → CompletesAs .releaseComplete s fun u =>
              LocksOut 2 .brakeLifted s u
                ∧ HandsFirst .hoist 5 noSlot RestartState.proving.code
                    { s with rct := { s.rct with restart := .proving } } u))
    ∧ (∀ s,
        (JobKind.resetGate ∈ s.wen.done → CompletesAs .resetJobComplete s fun u =>
            u.rct = { s.rct with resetWritten := true } ∧ u.wen = { s.wen with done := s.wen.done.erase .resetGate }
              ∧ KeepsAllBut [.rct, .wen] s u)
          ∧ (JobKind.captureDump ∈ s.wen.done → CompletesAs .captureDumpComplete s fun u =>
              u.cap = { s.cap with state := .frozen }
                ∧ u.log = (logRecord .capture 2 noSlot (word s.cap.ring.length) s).log
                ∧ KeepsAllBut [.wen, .cap, .log] s u)
          ∧ (∀ k e rest, s.wen.done.find? JobKind.isLogRecord = some k → s.log.writeList = e :: rest →
              CompletesAs .logRecordComplete s fun u =>
                u.log = { s.log with
                    written := e.next, lastCategory := e.category.code, writeList := rest, irqN := u.log.irqN
                    irqHeld := s.log.irqHeld || k == .logRecord true }
                  ∧ u.wen = { s.wen with done := s.wen.done.erase k }
                  ∧ (k = .logRecord true → u.log.irqN = true)
                  ∧ (k ≠ .logRecord true → (u.log.irqN = false ↔ s.log.irqHeld = false ∧
                      ∃ n, n < (e.next + s.log.capacity - s.log.consumer) % s.log.capacity
                        ∧ s.log.marks.getD ((s.log.consumer + n) % s.log.capacity) false = true))
                  ∧ KeepsAllBut [.wen, .log] s u
                  ∧ takeRecordCompletions s = takeRecordCompletions u)
          ∧ ((∀ k ∈ s.wen.done, k.isLogRecord = false) → takeRecordCompletions s = s))

/-- A record handed to the Log Unit (R171, R172): discarded while the log does not run; dropped and counted with 16
records waiting or the ring full, where one header job of word 3 at most is pending, and that one whose write is staged
is not pending any more is the model's choice (log 44); otherwise accepted at the producer's position, with its mark by
the IRQ mask and its job of nine writes. IRQ_N that R174 holds high is not pulled low (log 45). -/
def Obligations.RecordsAreAcceptedOrDropped : Prop :=
  ∀ s c code slot arg u, u = logRecord c code slot arg s →
    (s.log.running = false → u = s)
      ∧ (s.log.running = true →
          16 ≤ s.log.writeList.length ∨ (s.log.producer + 1) % s.log.capacity = s.log.consumer →
          u.log = { s.log with overflow := satInc s.log.overflow }
            ∧ (∀ pending, pending = (∃ j ∈ s.wen.jobs3, j.kind = .logHeader ∧ ⟨0x1003, .overflowCount⟩ ∈ j.todo) →
                (pending → u.wen = s.wen)
                  ∧ (¬pending → u.wen = { s.wen with
                      jobs3 := s.wen.jobs3 ++ [⟨.logHeader, [⟨0x1003, .overflowCount⟩], false⟩] }))
            ∧ KeepsAllBut [.wen, .log] s u)
      ∧ (s.log.running = true → s.log.writeList.length < 16 →
          (s.log.producer + 1) % s.log.capacity ≠ s.log.consumer →
          u.log = { s.log with
              producer := (s.log.producer + 1) % s.log.capacity
              marks := s.log.marks.set s.log.producer (s.log.irqMask.getLsbD (c.code.toNat - 1))
              writeList := s.log.writeList
                ++ [⟨c, s.log.producer, (s.log.producer + 1) % s.log.capacity, false⟩]
              irqN := u.log.irqN }
            ∧ (u.log.irqN = false ↔ s.log.irqHeld = false ∧
                ∃ n, n < (s.log.written + s.log.capacity - s.log.consumer) % s.log.capacity
                  ∧ u.log.marks.getD ((s.log.consumer + n) % s.log.capacity) false = true)
            ∧ u.wen.jobs3 = s.wen.jobs3 ++ [⟨.logRecord false,
                ((List.zip (List.range 8) [c.code, code, slot, s.rct.restart.code, arg, s.itm.frames.setWidth 16,
                    (s.itm.frames >>> 16).setWidth 16, s.itm.millis.setWidth 16]).map fun x =>
                  ⟨logRecordAddr s.log.producer x.1, .const x.2⟩)
                ++ [⟨0x1000, .const (word ((s.log.producer + 1) % s.log.capacity))⟩], false⟩]
            ∧ KeepsAllBut [.wen, .log] s u)

/-- The fresh set (R145): every position below K that is not dark has both marks; a planning run keeps the marks, and no
other state than AWAITING acts on the set. -/
def Obligations.FreshSetCoversTheLitPositions : Prop :=
  (∀ s, freshComplete s = true ↔ ∀ r, indexOf r < s.mpl.k → slotOfRecord s r ≠ none →
      s.rfs.amplitudeMark.get r = true ∧ s.rfs.angleMark.get r = true)
    ∧ (∀ hard s, (planRun hard s).rfs = s.rfs)
    ∧ ∀ s, s.rct.restart ≠ .awaiting → testAwaiting s = s

/-- The mark that completes the fresh set in AWAITING, with the host not stale and no fault pending, changes the state to
RESUMING and submits the release (R148, R150). -/
def Obligations.LastFreshMarkStartsTheRelease : Prop :=
  ∀ s r v, s.bpu.isOpen = true → indexOf r < s.mpl.k → s.rct.restart = .awaiting → s.hif.stale < 3 →
    noFaultPending s = true →
    (freshComplete { s with rfs := { s.rfs with angleMark := s.rfs.angleMark.set r true } } = true →
        CompletesAs (.logicalAngleWrite r v) s fun u =>
          u.rct = { s.rct with restart := .resuming, fresh := s.rct.fresh.stop }
            ∧ u.rfs.angleMark = s.rfs.angleMark.set r true
            ∧ u.rfs.image = s.rfs.image.modify r (fun d => { d with angle := v })
            ∧ u.rfs.cursor = none ∧ u.rfs.stage ≠ none ∧ JobListed .release (referenceWrites s) u)
      ∧ (freshComplete { s with rfs := { s.rfs with amplitudeMark := s.rfs.amplitudeMark.set r true } } = true →
          CompletesAs (.logicalAmplitudeWrite r v) s fun u =>
            u.rct = { s.rct with restart := .resuming, fresh := s.rct.fresh.stop }
              ∧ u.rfs.amplitudeMark = s.rfs.amplitudeMark.set r true
              ∧ u.rfs.cursor = none ∧ u.rfs.stage ≠ none ∧ JobListed .release (referenceWrites s) u)

/-! ## Laws that every step keeps -/

/-- The memory keeps its canonical form: rising addresses below 262144, no entry that an unlisted word reads as. -/
def Obligations.MemoryStaysCanonical : Prop :=
  ∀ s s', s.mem.wf = true → step s = .next s' → s'.mem.wf = true

/-- DRIVE_HEALTHY follows Table 10-2, the permit is high in NORMAL or a RIDE_THROUGH sequence only, and the proof-needed
flag is set exactly when it is low (R155, R156, L6). L3: from a trip to the final gate burst of the next release the part
writes and forwards only BLOCK or RESET into a gate word (R96, R131, R133, R150 to R153). -/
def Obligations.HoistLawIsKept : Prop :=
  (∀ s s', HoistLaw s → step s = .next s' → HoistLaw s')
    ∧ ∀ s s', GateLaw s → HoistLaw s → Bounded s → RingInOrder s → step s = .next s' →
        GateLaw s' ∧ (s.mem.wf = true → ProtectedLaw s → GatesStayShut s s')

/-- The quiet of the unarmed part (R44, R59, R94, R154, R169, R174). The port has one holder, whose buffer is WRITING if it
is the Write Engine (R27, R33). L10: while the part is armed no host write to a protected region waits for the port, given
the port's law (R39, R40; at ARM rising log 39). -/
def Obligations.UnarmedPartStaysQuiet : Prop :=
  (∀ s s', QuietWhenUnarmed s → step s = .next s' → QuietWhenUnarmed s')
    ∧ (∀ s s', PortLaw s → step s = .next s' → PortLaw s')
    ∧ ∀ s s', PortLaw s → ProtectedLaw s → step s = .next s' → ProtectedLaw s'

/-- The bounds of R29, R89, L4, L8, R161 and R172, the order of the log ring (R172), the range of every amplitude that
waits for the port (R48, L9), and min_active for the map in force (R121, L11), given the order of arming. -/
def Obligations.BoundsAreKept : Prop :=
  ((∀ s s', Bounded s → step s = .next s' → Bounded s')
        ∧ (∀ s s', RingInOrder s → step s = .next s' → RingInOrder s'))
    ∧ (∀ s s', AmplitudesInRange s → step s = .next s' → AmplitudesInRange s')
    ∧ (∀ s s', FeasibleLaw s → HoistLaw s → step s = .next s' → FeasibleLaw s')

/-- L1 and L2, with home positions (R4, R5, R11). L12: no step lowers a lifetime count but a power-on reset, and a mark is
cleared by that or by the release list of an accepted plan only (R12, R13). -/
def Obligations.MapLawIsKept : Prop :=
  (∀ s s', MapLaw s → step s = .next s' → MapLaw s') ∧ ∀ s s', step s = .next s' → QuarantineKept s s'

/-- The laws of commanded bypass, watch list, pending-fault set and progress records (R2, R3, R96, R126, R130). -/
def Obligations.SlotLawIsKept : Prop :=
  ∀ s s', SlotLaw s → step s = .next s' → SlotLaw s'

/-- The machine right after reset keeps every one of these laws. -/
def Obligations.ResetStateKeepsTheLaws : Prop :=
  State.reset.mem.wf = true ∧ HoistLaw State.reset ∧ QuietWhenUnarmed State.reset ∧ Bounded State.reset
    ∧ RingInOrder State.reset ∧ MapLaw State.reset ∧ SlotLaw State.reset ∧ AmplitudesInRange State.reset
    ∧ GateLaw State.reset ∧ PortLaw State.reset ∧ ProtectedLaw State.reset ∧ FeasibleLaw State.reset
end

