-- ==== Sys2Proof/Laws/State.lean ====
section
/-! SUPPORT. One lemma per field of State for each block update: the updated block, and every other block as it was. -/

namespace Sys2Proof.Machine.State

section
variable (f : Pins → Pins) (s : State)
@[simp] theorem onPins_pins : (s.onPins f).pins = f s.pins := rfl
@[simp] theorem onPins_mem : (s.onPins f).mem = s.mem := rfl
@[simp] theorem onPins_bpu : (s.onPins f).bpu = s.bpu := rfl
@[simp] theorem onPins_mpa : (s.onPins f).mpa = s.mpa := rfl
@[simp] theorem onPins_ssc : (s.onPins f).ssc = s.ssc := rfl
@[simp] theorem onPins_lsv : (s.onPins f).lsv = s.lsv := rfl
@[simp] theorem onPins_fin : (s.onPins f).fin = s.fin := rfl
@[simp] theorem onPins_rct : (s.onPins f).rct = s.rct := rfl
@[simp] theorem onPins_mpl : (s.onPins f).mpl = s.mpl := rfl
@[simp] theorem onPins_rfs : (s.onPins f).rfs = s.rfs := rfl
@[simp] theorem onPins_wen : (s.onPins f).wen = s.wen := rfl
@[simp] theorem onPins_hif : (s.onPins f).hif = s.hif := rfl
@[simp] theorem onPins_cap : (s.onPins f).cap = s.cap := rfl
@[simp] theorem onPins_log : (s.onPins f).log = s.log := rfl
@[simp] theorem onPins_pld : (s.onPins f).pld = s.pld := rfl
@[simp] theorem onPins_itm : (s.onPins f).itm = s.itm := rfl
@[simp] theorem onPins_plan : (s.onPins f).plan = s.plan := rfl
@[simp] theorem onPins_cuts : (s.onPins f).cuts = s.cuts := rfl
@[simp] theorem onPins_pending : (s.onPins f).pending = s.pending := rfl
end

section
variable (f : Memory → Memory) (s : State)
@[simp] theorem onMem_pins : (s.onMem f).pins = s.pins := rfl
@[simp] theorem onMem_mem : (s.onMem f).mem = f s.mem := rfl
@[simp] theorem onMem_bpu : (s.onMem f).bpu = s.bpu := rfl
@[simp] theorem onMem_mpa : (s.onMem f).mpa = s.mpa := rfl
@[simp] theorem onMem_ssc : (s.onMem f).ssc = s.ssc := rfl
@[simp] theorem onMem_lsv : (s.onMem f).lsv = s.lsv := rfl
@[simp] theorem onMem_fin : (s.onMem f).fin = s.fin := rfl
@[simp] theorem onMem_rct : (s.onMem f).rct = s.rct := rfl
@[simp] theorem onMem_mpl : (s.onMem f).mpl = s.mpl := rfl
@[simp] theorem onMem_rfs : (s.onMem f).rfs = s.rfs := rfl
@[simp] theorem onMem_wen : (s.onMem f).wen = s.wen := rfl
@[simp] theorem onMem_hif : (s.onMem f).hif = s.hif := rfl
@[simp] theorem onMem_cap : (s.onMem f).cap = s.cap := rfl
@[simp] theorem onMem_log : (s.onMem f).log = s.log := rfl
@[simp] theorem onMem_pld : (s.onMem f).pld = s.pld := rfl
@[simp] theorem onMem_itm : (s.onMem f).itm = s.itm := rfl
@[simp] theorem onMem_plan : (s.onMem f).plan = s.plan := rfl
@[simp] theorem onMem_cuts : (s.onMem f).cuts = s.cuts := rfl
@[simp] theorem onMem_pending : (s.onMem f).pending = s.pending := rfl
end

section
variable (f : Bpu → Bpu) (s : State)
@[simp] theorem onBpu_pins : (s.onBpu f).pins = s.pins := rfl
@[simp] theorem onBpu_mem : (s.onBpu f).mem = s.mem := rfl
@[simp] theorem onBpu_bpu : (s.onBpu f).bpu = f s.bpu := rfl
@[simp] theorem onBpu_mpa : (s.onBpu f).mpa = s.mpa := rfl
@[simp] theorem onBpu_ssc : (s.onBpu f).ssc = s.ssc := rfl
@[simp] theorem onBpu_lsv : (s.onBpu f).lsv = s.lsv := rfl
@[simp] theorem onBpu_fin : (s.onBpu f).fin = s.fin := rfl
@[simp] theorem onBpu_rct : (s.onBpu f).rct = s.rct := rfl
@[simp] theorem onBpu_mpl : (s.onBpu f).mpl = s.mpl := rfl
@[simp] theorem onBpu_rfs : (s.onBpu f).rfs = s.rfs := rfl
@[simp] theorem onBpu_wen : (s.onBpu f).wen = s.wen := rfl
@[simp] theorem onBpu_hif : (s.onBpu f).hif = s.hif := rfl
@[simp] theorem onBpu_cap : (s.onBpu f).cap = s.cap := rfl
@[simp] theorem onBpu_log : (s.onBpu f).log = s.log := rfl
@[simp] theorem onBpu_pld : (s.onBpu f).pld = s.pld := rfl
@[simp] theorem onBpu_itm : (s.onBpu f).itm = s.itm := rfl
@[simp] theorem onBpu_plan : (s.onBpu f).plan = s.plan := rfl
@[simp] theorem onBpu_cuts : (s.onBpu f).cuts = s.cuts := rfl
@[simp] theorem onBpu_pending : (s.onBpu f).pending = s.pending := rfl
end

section
variable (f : Mpa → Mpa) (s : State)
@[simp] theorem onMpa_pins : (s.onMpa f).pins = s.pins := rfl
@[simp] theorem onMpa_mem : (s.onMpa f).mem = s.mem := rfl
@[simp] theorem onMpa_bpu : (s.onMpa f).bpu = s.bpu := rfl
@[simp] theorem onMpa_mpa : (s.onMpa f).mpa = f s.mpa := rfl
@[simp] theorem onMpa_ssc : (s.onMpa f).ssc = s.ssc := rfl
@[simp] theorem onMpa_lsv : (s.onMpa f).lsv = s.lsv := rfl
@[simp] theorem onMpa_fin : (s.onMpa f).fin = s.fin := rfl
@[simp] theorem onMpa_rct : (s.onMpa f).rct = s.rct := rfl
@[simp] theorem onMpa_mpl : (s.onMpa f).mpl = s.mpl := rfl
@[simp] theorem onMpa_rfs : (s.onMpa f).rfs = s.rfs := rfl
@[simp] theorem onMpa_wen : (s.onMpa f).wen = s.wen := rfl
@[simp] theorem onMpa_hif : (s.onMpa f).hif = s.hif := rfl
@[simp] theorem onMpa_cap : (s.onMpa f).cap = s.cap := rfl
@[simp] theorem onMpa_log : (s.onMpa f).log = s.log := rfl
@[simp] theorem onMpa_pld : (s.onMpa f).pld = s.pld := rfl
@[simp] theorem onMpa_itm : (s.onMpa f).itm = s.itm := rfl
@[simp] theorem onMpa_plan : (s.onMpa f).plan = s.plan := rfl
@[simp] theorem onMpa_cuts : (s.onMpa f).cuts = s.cuts := rfl
@[simp] theorem onMpa_pending : (s.onMpa f).pending = s.pending := rfl
end

section
variable (f : Ssc → Ssc) (s : State)
@[simp] theorem onSsc_pins : (s.onSsc f).pins = s.pins := rfl
@[simp] theorem onSsc_mem : (s.onSsc f).mem = s.mem := rfl
@[simp] theorem onSsc_bpu : (s.onSsc f).bpu = s.bpu := rfl
@[simp] theorem onSsc_mpa : (s.onSsc f).mpa = s.mpa := rfl
@[simp] theorem onSsc_ssc : (s.onSsc f).ssc = f s.ssc := rfl
@[simp] theorem onSsc_lsv : (s.onSsc f).lsv = s.lsv := rfl
@[simp] theorem onSsc_fin : (s.onSsc f).fin = s.fin := rfl
@[simp] theorem onSsc_rct : (s.onSsc f).rct = s.rct := rfl
@[simp] theorem onSsc_mpl : (s.onSsc f).mpl = s.mpl := rfl
@[simp] theorem onSsc_rfs : (s.onSsc f).rfs = s.rfs := rfl
@[simp] theorem onSsc_wen : (s.onSsc f).wen = s.wen := rfl
@[simp] theorem onSsc_hif : (s.onSsc f).hif = s.hif := rfl
@[simp] theorem onSsc_cap : (s.onSsc f).cap = s.cap := rfl
@[simp] theorem onSsc_log : (s.onSsc f).log = s.log := rfl
@[simp] theorem onSsc_pld : (s.onSsc f).pld = s.pld := rfl
@[simp] theorem onSsc_itm : (s.onSsc f).itm = s.itm := rfl
@[simp] theorem onSsc_plan : (s.onSsc f).plan = s.plan := rfl
@[simp] theorem onSsc_cuts : (s.onSsc f).cuts = s.cuts := rfl
@[simp] theorem onSsc_pending : (s.onSsc f).pending = s.pending := rfl
end

section
variable (f : PerSlot LinkRecord → PerSlot LinkRecord) (s : State)
@[simp] theorem onLsv_pins : (s.onLsv f).pins = s.pins := rfl
@[simp] theorem onLsv_mem : (s.onLsv f).mem = s.mem := rfl
@[simp] theorem onLsv_bpu : (s.onLsv f).bpu = s.bpu := rfl
@[simp] theorem onLsv_mpa : (s.onLsv f).mpa = s.mpa := rfl
@[simp] theorem onLsv_ssc : (s.onLsv f).ssc = s.ssc := rfl
@[simp] theorem onLsv_lsv : (s.onLsv f).lsv = f s.lsv := rfl
@[simp] theorem onLsv_fin : (s.onLsv f).fin = s.fin := rfl
@[simp] theorem onLsv_rct : (s.onLsv f).rct = s.rct := rfl
@[simp] theorem onLsv_mpl : (s.onLsv f).mpl = s.mpl := rfl
@[simp] theorem onLsv_rfs : (s.onLsv f).rfs = s.rfs := rfl
@[simp] theorem onLsv_wen : (s.onLsv f).wen = s.wen := rfl
@[simp] theorem onLsv_hif : (s.onLsv f).hif = s.hif := rfl
@[simp] theorem onLsv_cap : (s.onLsv f).cap = s.cap := rfl
@[simp] theorem onLsv_log : (s.onLsv f).log = s.log := rfl
@[simp] theorem onLsv_pld : (s.onLsv f).pld = s.pld := rfl
@[simp] theorem onLsv_itm : (s.onLsv f).itm = s.itm := rfl
@[simp] theorem onLsv_plan : (s.onLsv f).plan = s.plan := rfl
@[simp] theorem onLsv_cuts : (s.onLsv f).cuts = s.cuts := rfl
@[simp] theorem onLsv_pending : (s.onLsv f).pending = s.pending := rfl
end

section
variable (f : Intake → Intake) (s : State)
@[simp] theorem onFin_pins : (s.onFin f).pins = s.pins := rfl
@[simp] theorem onFin_mem : (s.onFin f).mem = s.mem := rfl
@[simp] theorem onFin_bpu : (s.onFin f).bpu = s.bpu := rfl
@[simp] theorem onFin_mpa : (s.onFin f).mpa = s.mpa := rfl
@[simp] theorem onFin_ssc : (s.onFin f).ssc = s.ssc := rfl
@[simp] theorem onFin_lsv : (s.onFin f).lsv = s.lsv := rfl
@[simp] theorem onFin_fin : (s.onFin f).fin = f s.fin := rfl
@[simp] theorem onFin_rct : (s.onFin f).rct = s.rct := rfl
@[simp] theorem onFin_mpl : (s.onFin f).mpl = s.mpl := rfl
@[simp] theorem onFin_rfs : (s.onFin f).rfs = s.rfs := rfl
@[simp] theorem onFin_wen : (s.onFin f).wen = s.wen := rfl
@[simp] theorem onFin_hif : (s.onFin f).hif = s.hif := rfl
@[simp] theorem onFin_cap : (s.onFin f).cap = s.cap := rfl
@[simp] theorem onFin_log : (s.onFin f).log = s.log := rfl
@[simp] theorem onFin_pld : (s.onFin f).pld = s.pld := rfl
@[simp] theorem onFin_itm : (s.onFin f).itm = s.itm := rfl
@[simp] theorem onFin_plan : (s.onFin f).plan = s.plan := rfl
@[simp] theorem onFin_cuts : (s.onFin f).cuts = s.cuts := rfl
@[simp] theorem onFin_pending : (s.onFin f).pending = s.pending := rfl
end

section
variable (f : Rct → Rct) (s : State)
@[simp] theorem onRct_pins : (s.onRct f).pins = s.pins := rfl
@[simp] theorem onRct_mem : (s.onRct f).mem = s.mem := rfl
@[simp] theorem onRct_bpu : (s.onRct f).bpu = s.bpu := rfl
@[simp] theorem onRct_mpa : (s.onRct f).mpa = s.mpa := rfl
@[simp] theorem onRct_ssc : (s.onRct f).ssc = s.ssc := rfl
@[simp] theorem onRct_lsv : (s.onRct f).lsv = s.lsv := rfl
@[simp] theorem onRct_fin : (s.onRct f).fin = s.fin := rfl
@[simp] theorem onRct_rct : (s.onRct f).rct = f s.rct := rfl
@[simp] theorem onRct_mpl : (s.onRct f).mpl = s.mpl := rfl
@[simp] theorem onRct_rfs : (s.onRct f).rfs = s.rfs := rfl
@[simp] theorem onRct_wen : (s.onRct f).wen = s.wen := rfl
@[simp] theorem onRct_hif : (s.onRct f).hif = s.hif := rfl
@[simp] theorem onRct_cap : (s.onRct f).cap = s.cap := rfl
@[simp] theorem onRct_log : (s.onRct f).log = s.log := rfl
@[simp] theorem onRct_pld : (s.onRct f).pld = s.pld := rfl
@[simp] theorem onRct_itm : (s.onRct f).itm = s.itm := rfl
@[simp] theorem onRct_plan : (s.onRct f).plan = s.plan := rfl
@[simp] theorem onRct_cuts : (s.onRct f).cuts = s.cuts := rfl
@[simp] theorem onRct_pending : (s.onRct f).pending = s.pending := rfl
end

section
variable (f : Mpl → Mpl) (s : State)
@[simp] theorem onMpl_pins : (s.onMpl f).pins = s.pins := rfl
@[simp] theorem onMpl_mem : (s.onMpl f).mem = s.mem := rfl
@[simp] theorem onMpl_bpu : (s.onMpl f).bpu = s.bpu := rfl
@[simp] theorem onMpl_mpa : (s.onMpl f).mpa = s.mpa := rfl
@[simp] theorem onMpl_ssc : (s.onMpl f).ssc = s.ssc := rfl
@[simp] theorem onMpl_lsv : (s.onMpl f).lsv = s.lsv := rfl
@[simp] theorem onMpl_fin : (s.onMpl f).fin = s.fin := rfl
@[simp] theorem onMpl_rct : (s.onMpl f).rct = s.rct := rfl
@[simp] theorem onMpl_mpl : (s.onMpl f).mpl = f s.mpl := rfl
@[simp] theorem onMpl_rfs : (s.onMpl f).rfs = s.rfs := rfl
@[simp] theorem onMpl_wen : (s.onMpl f).wen = s.wen := rfl
@[simp] theorem onMpl_hif : (s.onMpl f).hif = s.hif := rfl
@[simp] theorem onMpl_cap : (s.onMpl f).cap = s.cap := rfl
@[simp] theorem onMpl_log : (s.onMpl f).log = s.log := rfl
@[simp] theorem onMpl_pld : (s.onMpl f).pld = s.pld := rfl
@[simp] theorem onMpl_itm : (s.onMpl f).itm = s.itm := rfl
@[simp] theorem onMpl_plan : (s.onMpl f).plan = s.plan := rfl
@[simp] theorem onMpl_cuts : (s.onMpl f).cuts = s.cuts := rfl
@[simp] theorem onMpl_pending : (s.onMpl f).pending = s.pending := rfl
end

section
variable (f : Rfs → Rfs) (s : State)
@[simp] theorem onRfs_pins : (s.onRfs f).pins = s.pins := rfl
@[simp] theorem onRfs_mem : (s.onRfs f).mem = s.mem := rfl
@[simp] theorem onRfs_bpu : (s.onRfs f).bpu = s.bpu := rfl
@[simp] theorem onRfs_mpa : (s.onRfs f).mpa = s.mpa := rfl
@[simp] theorem onRfs_ssc : (s.onRfs f).ssc = s.ssc := rfl
@[simp] theorem onRfs_lsv : (s.onRfs f).lsv = s.lsv := rfl
@[simp] theorem onRfs_fin : (s.onRfs f).fin = s.fin := rfl
@[simp] theorem onRfs_rct : (s.onRfs f).rct = s.rct := rfl
@[simp] theorem onRfs_mpl : (s.onRfs f).mpl = s.mpl := rfl
@[simp] theorem onRfs_rfs : (s.onRfs f).rfs = f s.rfs := rfl
@[simp] theorem onRfs_wen : (s.onRfs f).wen = s.wen := rfl
@[simp] theorem onRfs_hif : (s.onRfs f).hif = s.hif := rfl
@[simp] theorem onRfs_cap : (s.onRfs f).cap = s.cap := rfl
@[simp] theorem onRfs_log : (s.onRfs f).log = s.log := rfl
@[simp] theorem onRfs_pld : (s.onRfs f).pld = s.pld := rfl
@[simp] theorem onRfs_itm : (s.onRfs f).itm = s.itm := rfl
@[simp] theorem onRfs_plan : (s.onRfs f).plan = s.plan := rfl
@[simp] theorem onRfs_cuts : (s.onRfs f).cuts = s.cuts := rfl
@[simp] theorem onRfs_pending : (s.onRfs f).pending = s.pending := rfl
end

section
variable (f : Wen → Wen) (s : State)
@[simp] theorem onWen_pins : (s.onWen f).pins = s.pins := rfl
@[simp] theorem onWen_mem : (s.onWen f).mem = s.mem := rfl
@[simp] theorem onWen_bpu : (s.onWen f).bpu = s.bpu := rfl
@[simp] theorem onWen_mpa : (s.onWen f).mpa = s.mpa := rfl
@[simp] theorem onWen_ssc : (s.onWen f).ssc = s.ssc := rfl
@[simp] theorem onWen_lsv : (s.onWen f).lsv = s.lsv := rfl
@[simp] theorem onWen_fin : (s.onWen f).fin = s.fin := rfl
@[simp] theorem onWen_rct : (s.onWen f).rct = s.rct := rfl
@[simp] theorem onWen_mpl : (s.onWen f).mpl = s.mpl := rfl
@[simp] theorem onWen_rfs : (s.onWen f).rfs = s.rfs := rfl
@[simp] theorem onWen_wen : (s.onWen f).wen = f s.wen := rfl
@[simp] theorem onWen_hif : (s.onWen f).hif = s.hif := rfl
@[simp] theorem onWen_cap : (s.onWen f).cap = s.cap := rfl
@[simp] theorem onWen_log : (s.onWen f).log = s.log := rfl
@[simp] theorem onWen_pld : (s.onWen f).pld = s.pld := rfl
@[simp] theorem onWen_itm : (s.onWen f).itm = s.itm := rfl
@[simp] theorem onWen_plan : (s.onWen f).plan = s.plan := rfl
@[simp] theorem onWen_cuts : (s.onWen f).cuts = s.cuts := rfl
@[simp] theorem onWen_pending : (s.onWen f).pending = s.pending := rfl
end

section
variable (f : Hif → Hif) (s : State)
@[simp] theorem onHif_pins : (s.onHif f).pins = s.pins := rfl
@[simp] theorem onHif_mem : (s.onHif f).mem = s.mem := rfl
@[simp] theorem onHif_bpu : (s.onHif f).bpu = s.bpu := rfl
@[simp] theorem onHif_mpa : (s.onHif f).mpa = s.mpa := rfl
@[simp] theorem onHif_ssc : (s.onHif f).ssc = s.ssc := rfl
@[simp] theorem onHif_lsv : (s.onHif f).lsv = s.lsv := rfl
@[simp] theorem onHif_fin : (s.onHif f).fin = s.fin := rfl
@[simp] theorem onHif_rct : (s.onHif f).rct = s.rct := rfl
@[simp] theorem onHif_mpl : (s.onHif f).mpl = s.mpl := rfl
@[simp] theorem onHif_rfs : (s.onHif f).rfs = s.rfs := rfl
@[simp] theorem onHif_wen : (s.onHif f).wen = s.wen := rfl
@[simp] theorem onHif_hif : (s.onHif f).hif = f s.hif := rfl
@[simp] theorem onHif_cap : (s.onHif f).cap = s.cap := rfl
@[simp] theorem onHif_log : (s.onHif f).log = s.log := rfl
@[simp] theorem onHif_pld : (s.onHif f).pld = s.pld := rfl
@[simp] theorem onHif_itm : (s.onHif f).itm = s.itm := rfl
@[simp] theorem onHif_plan : (s.onHif f).plan = s.plan := rfl
@[simp] theorem onHif_cuts : (s.onHif f).cuts = s.cuts := rfl
@[simp] theorem onHif_pending : (s.onHif f).pending = s.pending := rfl
end

section
variable (f : Cap → Cap) (s : State)
@[simp] theorem onCap_pins : (s.onCap f).pins = s.pins := rfl
@[simp] theorem onCap_mem : (s.onCap f).mem = s.mem := rfl
@[simp] theorem onCap_bpu : (s.onCap f).bpu = s.bpu := rfl
@[simp] theorem onCap_mpa : (s.onCap f).mpa = s.mpa := rfl
@[simp] theorem onCap_ssc : (s.onCap f).ssc = s.ssc := rfl
@[simp] theorem onCap_lsv : (s.onCap f).lsv = s.lsv := rfl
@[simp] theorem onCap_fin : (s.onCap f).fin = s.fin := rfl
@[simp] theorem onCap_rct : (s.onCap f).rct = s.rct := rfl
@[simp] theorem onCap_mpl : (s.onCap f).mpl = s.mpl := rfl
@[simp] theorem onCap_rfs : (s.onCap f).rfs = s.rfs := rfl
@[simp] theorem onCap_wen : (s.onCap f).wen = s.wen := rfl
@[simp] theorem onCap_hif : (s.onCap f).hif = s.hif := rfl
@[simp] theorem onCap_cap : (s.onCap f).cap = f s.cap := rfl
@[simp] theorem onCap_log : (s.onCap f).log = s.log := rfl
@[simp] theorem onCap_pld : (s.onCap f).pld = s.pld := rfl
@[simp] theorem onCap_itm : (s.onCap f).itm = s.itm := rfl
@[simp] theorem onCap_plan : (s.onCap f).plan = s.plan := rfl
@[simp] theorem onCap_cuts : (s.onCap f).cuts = s.cuts := rfl
@[simp] theorem onCap_pending : (s.onCap f).pending = s.pending := rfl
end

section
variable (f : Log → Log) (s : State)
@[simp] theorem onLog_pins : (s.onLog f).pins = s.pins := rfl
@[simp] theorem onLog_mem : (s.onLog f).mem = s.mem := rfl
@[simp] theorem onLog_bpu : (s.onLog f).bpu = s.bpu := rfl
@[simp] theorem onLog_mpa : (s.onLog f).mpa = s.mpa := rfl
@[simp] theorem onLog_ssc : (s.onLog f).ssc = s.ssc := rfl
@[simp] theorem onLog_lsv : (s.onLog f).lsv = s.lsv := rfl
@[simp] theorem onLog_fin : (s.onLog f).fin = s.fin := rfl
@[simp] theorem onLog_rct : (s.onLog f).rct = s.rct := rfl
@[simp] theorem onLog_mpl : (s.onLog f).mpl = s.mpl := rfl
@[simp] theorem onLog_rfs : (s.onLog f).rfs = s.rfs := rfl
@[simp] theorem onLog_wen : (s.onLog f).wen = s.wen := rfl
@[simp] theorem onLog_hif : (s.onLog f).hif = s.hif := rfl
@[simp] theorem onLog_cap : (s.onLog f).cap = s.cap := rfl
@[simp] theorem onLog_log : (s.onLog f).log = f s.log := rfl
@[simp] theorem onLog_pld : (s.onLog f).pld = s.pld := rfl
@[simp] theorem onLog_itm : (s.onLog f).itm = s.itm := rfl
@[simp] theorem onLog_plan : (s.onLog f).plan = s.plan := rfl
@[simp] theorem onLog_cuts : (s.onLog f).cuts = s.cuts := rfl
@[simp] theorem onLog_pending : (s.onLog f).pending = s.pending := rfl
end

section
variable (f : Pld → Pld) (s : State)
@[simp] theorem onPld_pins : (s.onPld f).pins = s.pins := rfl
@[simp] theorem onPld_mem : (s.onPld f).mem = s.mem := rfl
@[simp] theorem onPld_bpu : (s.onPld f).bpu = s.bpu := rfl
@[simp] theorem onPld_mpa : (s.onPld f).mpa = s.mpa := rfl
@[simp] theorem onPld_ssc : (s.onPld f).ssc = s.ssc := rfl
@[simp] theorem onPld_lsv : (s.onPld f).lsv = s.lsv := rfl
@[simp] theorem onPld_fin : (s.onPld f).fin = s.fin := rfl
@[simp] theorem onPld_rct : (s.onPld f).rct = s.rct := rfl
@[simp] theorem onPld_mpl : (s.onPld f).mpl = s.mpl := rfl
@[simp] theorem onPld_rfs : (s.onPld f).rfs = s.rfs := rfl
@[simp] theorem onPld_wen : (s.onPld f).wen = s.wen := rfl
@[simp] theorem onPld_hif : (s.onPld f).hif = s.hif := rfl
@[simp] theorem onPld_cap : (s.onPld f).cap = s.cap := rfl
@[simp] theorem onPld_log : (s.onPld f).log = s.log := rfl
@[simp] theorem onPld_pld : (s.onPld f).pld = f s.pld := rfl
@[simp] theorem onPld_itm : (s.onPld f).itm = s.itm := rfl
@[simp] theorem onPld_plan : (s.onPld f).plan = s.plan := rfl
@[simp] theorem onPld_cuts : (s.onPld f).cuts = s.cuts := rfl
@[simp] theorem onPld_pending : (s.onPld f).pending = s.pending := rfl
end

section
variable (f : Itm → Itm) (s : State)
@[simp] theorem onItm_pins : (s.onItm f).pins = s.pins := rfl
@[simp] theorem onItm_mem : (s.onItm f).mem = s.mem := rfl
@[simp] theorem onItm_bpu : (s.onItm f).bpu = s.bpu := rfl
@[simp] theorem onItm_mpa : (s.onItm f).mpa = s.mpa := rfl
@[simp] theorem onItm_ssc : (s.onItm f).ssc = s.ssc := rfl
@[simp] theorem onItm_lsv : (s.onItm f).lsv = s.lsv := rfl
@[simp] theorem onItm_fin : (s.onItm f).fin = s.fin := rfl
@[simp] theorem onItm_rct : (s.onItm f).rct = s.rct := rfl
@[simp] theorem onItm_mpl : (s.onItm f).mpl = s.mpl := rfl
@[simp] theorem onItm_rfs : (s.onItm f).rfs = s.rfs := rfl
@[simp] theorem onItm_wen : (s.onItm f).wen = s.wen := rfl
@[simp] theorem onItm_hif : (s.onItm f).hif = s.hif := rfl
@[simp] theorem onItm_cap : (s.onItm f).cap = s.cap := rfl
@[simp] theorem onItm_log : (s.onItm f).log = s.log := rfl
@[simp] theorem onItm_pld : (s.onItm f).pld = s.pld := rfl
@[simp] theorem onItm_itm : (s.onItm f).itm = f s.itm := rfl
@[simp] theorem onItm_plan : (s.onItm f).plan = s.plan := rfl
@[simp] theorem onItm_cuts : (s.onItm f).cuts = s.cuts := rfl
@[simp] theorem onItm_pending : (s.onItm f).pending = s.pending := rfl
end

section
variable (f : Settings → Settings) (s : State)
@[simp] theorem onPlan_pins : (s.onPlan f).pins = s.pins := rfl
@[simp] theorem onPlan_mem : (s.onPlan f).mem = s.mem := rfl
@[simp] theorem onPlan_bpu : (s.onPlan f).bpu = s.bpu := rfl
@[simp] theorem onPlan_mpa : (s.onPlan f).mpa = s.mpa := rfl
@[simp] theorem onPlan_ssc : (s.onPlan f).ssc = s.ssc := rfl
@[simp] theorem onPlan_lsv : (s.onPlan f).lsv = s.lsv := rfl
@[simp] theorem onPlan_fin : (s.onPlan f).fin = s.fin := rfl
@[simp] theorem onPlan_rct : (s.onPlan f).rct = s.rct := rfl
@[simp] theorem onPlan_mpl : (s.onPlan f).mpl = s.mpl := rfl
@[simp] theorem onPlan_rfs : (s.onPlan f).rfs = s.rfs := rfl
@[simp] theorem onPlan_wen : (s.onPlan f).wen = s.wen := rfl
@[simp] theorem onPlan_hif : (s.onPlan f).hif = s.hif := rfl
@[simp] theorem onPlan_cap : (s.onPlan f).cap = s.cap := rfl
@[simp] theorem onPlan_log : (s.onPlan f).log = s.log := rfl
@[simp] theorem onPlan_pld : (s.onPlan f).pld = s.pld := rfl
@[simp] theorem onPlan_itm : (s.onPlan f).itm = s.itm := rfl
@[simp] theorem onPlan_plan : (s.onPlan f).plan = f s.plan := rfl
@[simp] theorem onPlan_cuts : (s.onPlan f).cuts = s.cuts := rfl
@[simp] theorem onPlan_pending : (s.onPlan f).pending = s.pending := rfl
end

section
variable (f : Nat → Nat) (s : State)
@[simp] theorem onCuts_pins : (s.onCuts f).pins = s.pins := rfl
@[simp] theorem onCuts_mem : (s.onCuts f).mem = s.mem := rfl
@[simp] theorem onCuts_bpu : (s.onCuts f).bpu = s.bpu := rfl
@[simp] theorem onCuts_mpa : (s.onCuts f).mpa = s.mpa := rfl
@[simp] theorem onCuts_ssc : (s.onCuts f).ssc = s.ssc := rfl
@[simp] theorem onCuts_lsv : (s.onCuts f).lsv = s.lsv := rfl
@[simp] theorem onCuts_fin : (s.onCuts f).fin = s.fin := rfl
@[simp] theorem onCuts_rct : (s.onCuts f).rct = s.rct := rfl
@[simp] theorem onCuts_mpl : (s.onCuts f).mpl = s.mpl := rfl
@[simp] theorem onCuts_rfs : (s.onCuts f).rfs = s.rfs := rfl
@[simp] theorem onCuts_wen : (s.onCuts f).wen = s.wen := rfl
@[simp] theorem onCuts_hif : (s.onCuts f).hif = s.hif := rfl
@[simp] theorem onCuts_cap : (s.onCuts f).cap = s.cap := rfl
@[simp] theorem onCuts_log : (s.onCuts f).log = s.log := rfl
@[simp] theorem onCuts_pld : (s.onCuts f).pld = s.pld := rfl
@[simp] theorem onCuts_itm : (s.onCuts f).itm = s.itm := rfl
@[simp] theorem onCuts_plan : (s.onCuts f).plan = s.plan := rfl
@[simp] theorem onCuts_cuts : (s.onCuts f).cuts = f s.cuts := rfl
@[simp] theorem onCuts_pending : (s.onCuts f).pending = s.pending := rfl
end

end Sys2Proof.Machine.State
end

