-- ==== Sys2Proof/Laws/Frame.lean ====
section
/-! SUPPORT. For every operation on State: the blocks, and the fields of the blocks shared by many operations, that it
leaves as they are. A proof about an operation cites its lemma `<operation>_frame` and does not unfold it. -/

namespace Sys2Proof.Machine

/-- A field of a choice of states is the choice of the fields. -/
theorem ite_state (c : Prop) [Decidable c] (a b : State) :
    (if c then a else b).pins = (if c then a.pins else b.pins) ∧
    (if c then a else b).mem = (if c then a.mem else b.mem) ∧
    (if c then a else b).bpu = (if c then a.bpu else b.bpu) ∧
    (if c then a else b).mpa = (if c then a.mpa else b.mpa) ∧
    (if c then a else b).ssc = (if c then a.ssc else b.ssc) ∧
    (if c then a else b).lsv = (if c then a.lsv else b.lsv) ∧
    (if c then a else b).fin = (if c then a.fin else b.fin) ∧
    (if c then a else b).rct = (if c then a.rct else b.rct) ∧
    (if c then a else b).mpl = (if c then a.mpl else b.mpl) ∧
    (if c then a else b).rfs = (if c then a.rfs else b.rfs) ∧
    (if c then a else b).wen = (if c then a.wen else b.wen) ∧
    (if c then a else b).hif = (if c then a.hif else b.hif) ∧
    (if c then a else b).cap = (if c then a.cap else b.cap) ∧
    (if c then a else b).log = (if c then a.log else b.log) ∧
    (if c then a else b).pld = (if c then a.pld else b.pld) ∧
    (if c then a else b).itm = (if c then a.itm else b.itm) ∧
    (if c then a else b).plan = (if c then a.plan else b.plan) ∧
    (if c then a else b).cuts = (if c then a.cuts else b.cuts) ∧
    (if c then a else b).pending = (if c then a.pending else b.pending) := by
  by_cases h : c <;> simp [h]

theorem ite_bpu (c : Prop) [Decidable c] (a b : Bpu) :
    (if c then a else b).isOpen = (if c then a.isOpen else b.isOpen) ∧
    (if c then a else b).latches = (if c then a.latches else b.latches) ∧
    (if c then a else b).needs = (if c then a.needs else b.needs) ∧
    (if c then a else b).counts = (if c then a.counts else b.counts) ∧
    (if c then a else b).deliveries = (if c then a.deliveries else b.deliveries) ∧
    (if c then a else b).hostData = (if c then a.hostData else b.hostData) := by
  by_cases h : c <;> simp [h]

theorem ite_mpl (c : Prop) [Decidable c] (a b : Mpl) :
    (if c then a else b).fitted = (if c then a.fitted else b.fitted) ∧
    (if c then a else b).k = (if c then a.k else b.k) ∧
    (if c then a else b).slots = (if c then a.slots else b.slots) ∧
    (if c then a else b).phases = (if c then a.phases else b.phases) ∧
    (if c then a else b).generation = (if c then a.generation else b.generation) ∧
    (if c then a else b).table = (if c then a.table else b.table) := by
  by_cases h : c <;> simp [h]

theorem ite_rfs (c : Prop) [Decidable c] (a b : Rfs) :
    (if c then a else b).image = (if c then a.image else b.image) ∧
    (if c then a else b).amplitudeMark = (if c then a.amplitudeMark else b.amplitudeMark) ∧
    (if c then a else b).angleMark = (if c then a.angleMark else b.angleMark) ∧
    (if c then a else b).aux = (if c then a.aux else b.aux) ∧
    (if c then a else b).cursor = (if c then a.cursor else b.cursor) ∧
    (if c then a else b).stage = (if c then a.stage else b.stage) := by
  by_cases h : c <;> simp [h]

theorem ite_mpa (c : Prop) [Decidable c] (a b : Mpa) :
    (if c then a else b).holder = (if c then a.holder else b.holder) ∧
    (if c then a else b).fair = (if c then a.fair else b.fair) := by
  by_cases h : c <;> simp [h]

/-- A field that every turn of a fold leaves as it is, the fold leaves as it is. -/
theorem foldl_frame {α β : Type} (π : State → β) (g : State → α → State) (h : ∀ t a, π (g t a) = π t) (l : List α)
    (s : State) : π (l.foldl g s) = π s := by
  induction l generalizing s with
  | nil => rfl
  | cons a l ih => simp [List.foldl, ih, h]

@[simp] theorem submit_frame (k : JobKind) (writes : List JobWrite) (s : State) :
    (submit k writes s).pins = s.pins ∧ (submit k writes s).mem = s.mem ∧ (submit k writes s).bpu = s.bpu ∧
    (submit k writes s).mpa = s.mpa ∧ (submit k writes s).ssc = s.ssc ∧ (submit k writes s).lsv = s.lsv ∧
    (submit k writes s).fin = s.fin ∧ (submit k writes s).rct = s.rct ∧ (submit k writes s).mpl = s.mpl ∧
    (submit k writes s).rfs = s.rfs ∧ (submit k writes s).hif = s.hif ∧ (submit k writes s).cap = s.cap ∧
    (submit k writes s).log = s.log ∧ (submit k writes s).pld = s.pld ∧ (submit k writes s).itm = s.itm ∧
    (submit k writes s).plan = s.plan ∧ (submit k writes s).cuts = s.cuts ∧ (submit k writes s).pending = s.pending := by
  simp [submit]

@[simp] theorem cutWrites_frame (ws : List (Addr × Word)) (s : State) :
    (cutWrites ws s).pins = s.pins ∧ (cutWrites ws s).bpu = s.bpu ∧ (cutWrites ws s).mpa = s.mpa ∧
    (cutWrites ws s).ssc = s.ssc ∧ (cutWrites ws s).lsv = s.lsv ∧ (cutWrites ws s).fin = s.fin ∧
    (cutWrites ws s).rct = s.rct ∧ (cutWrites ws s).mpl = s.mpl ∧ (cutWrites ws s).rfs = s.rfs ∧
    (cutWrites ws s).wen = s.wen ∧ (cutWrites ws s).hif = s.hif ∧ (cutWrites ws s).cap = s.cap ∧
    (cutWrites ws s).log = s.log ∧ (cutWrites ws s).pld = s.pld ∧ (cutWrites ws s).itm = s.itm ∧
    (cutWrites ws s).plan = s.plan ∧ (cutWrites ws s).pending = s.pending := by
  simp [cutWrites]

@[simp] theorem cancelBuffer_frame (p : JobKind → Bool) (b : BufferId) (s : State) :
    (cancelBuffer p b s).pins = s.pins ∧ (cancelBuffer p b s).bpu = s.bpu ∧
    (cancelBuffer p b s).mpa.fair = s.mpa.fair ∧ (cancelBuffer p b s).ssc = s.ssc ∧
    (cancelBuffer p b s).lsv = s.lsv ∧ (cancelBuffer p b s).fin = s.fin ∧ (cancelBuffer p b s).rct = s.rct ∧
    (cancelBuffer p b s).mpl = s.mpl ∧ (cancelBuffer p b s).rfs = s.rfs ∧ (cancelBuffer p b s).hif = s.hif ∧
    (cancelBuffer p b s).cap = s.cap ∧ (cancelBuffer p b s).log = s.log ∧ (cancelBuffer p b s).pld = s.pld ∧
    (cancelBuffer p b s).itm = s.itm ∧ (cancelBuffer p b s).plan = s.plan ∧ (cancelBuffer p b s).pending = s.pending := by
  unfold cancelBuffer; (repeat' split) <;> simp [ite_state, ite_bpu, ite_mpl, ite_rfs, ite_mpa]

@[simp] theorem cancel_frame (p : JobKind → Bool) (s : State) :
    (cancel p s).pins = s.pins ∧ (cancel p s).bpu = s.bpu ∧ (cancel p s).mpa.fair = s.mpa.fair ∧
    (cancel p s).ssc = s.ssc ∧ (cancel p s).lsv = s.lsv ∧ (cancel p s).fin = s.fin ∧ (cancel p s).rct = s.rct ∧
    (cancel p s).mpl = s.mpl ∧ (cancel p s).rfs = s.rfs ∧ (cancel p s).hif = s.hif ∧ (cancel p s).cap = s.cap ∧
    (cancel p s).log = s.log ∧ (cancel p s).pld = s.pld ∧ (cancel p s).itm = s.itm ∧ (cancel p s).plan = s.plan ∧
    (cancel p s).pending = s.pending := by
  simp [cancel]

@[simp] theorem queueOverflowHeader_frame (s : State) :
    (queueOverflowHeader s).pins = s.pins ∧ (queueOverflowHeader s).mem = s.mem ∧
    (queueOverflowHeader s).bpu = s.bpu ∧ (queueOverflowHeader s).mpa = s.mpa ∧
    (queueOverflowHeader s).ssc = s.ssc ∧ (queueOverflowHeader s).lsv = s.lsv ∧
    (queueOverflowHeader s).fin = s.fin ∧ (queueOverflowHeader s).rct = s.rct ∧
    (queueOverflowHeader s).mpl = s.mpl ∧ (queueOverflowHeader s).rfs = s.rfs ∧
    (queueOverflowHeader s).hif = s.hif ∧ (queueOverflowHeader s).cap = s.cap ∧
    (queueOverflowHeader s).log = s.log ∧ (queueOverflowHeader s).pld = s.pld ∧
    (queueOverflowHeader s).itm = s.itm ∧ (queueOverflowHeader s).plan = s.plan ∧
    (queueOverflowHeader s).cuts = s.cuts ∧ (queueOverflowHeader s).pending = s.pending := by
  simp only [queueOverflowHeader, ite_state, ite_bpu, ite_mpl, ite_rfs, ite_mpa]
  simp [ite_state, ite_bpu, ite_mpl, ite_rfs, ite_mpa]

@[simp] theorem dropRecord_frame (s : State) :
    (dropRecord s).pins = s.pins ∧ (dropRecord s).mem = s.mem ∧ (dropRecord s).bpu = s.bpu ∧
    (dropRecord s).mpa = s.mpa ∧ (dropRecord s).ssc = s.ssc ∧ (dropRecord s).lsv = s.lsv ∧
    (dropRecord s).fin = s.fin ∧ (dropRecord s).rct = s.rct ∧ (dropRecord s).mpl = s.mpl ∧
    (dropRecord s).rfs = s.rfs ∧ (dropRecord s).hif = s.hif ∧ (dropRecord s).cap = s.cap ∧
    (dropRecord s).pld = s.pld ∧ (dropRecord s).itm = s.itm ∧ (dropRecord s).plan = s.plan ∧
    (dropRecord s).cuts = s.cuts ∧ (dropRecord s).pending = s.pending := by
  simp [dropRecord]

@[simp] theorem acceptRecord_frame (closing : Bool) (c : Category) (code slot arg : Word) (s : State) :
    (acceptRecord closing c code slot arg s).pins = s.pins ∧ (acceptRecord closing c code slot arg s).mem = s.mem ∧
    (acceptRecord closing c code slot arg s).bpu = s.bpu ∧ (acceptRecord closing c code slot arg s).mpa = s.mpa ∧
    (acceptRecord closing c code slot arg s).ssc = s.ssc ∧ (acceptRecord closing c code slot arg s).lsv = s.lsv ∧
    (acceptRecord closing c code slot arg s).fin = s.fin ∧ (acceptRecord closing c code slot arg s).rct = s.rct ∧
    (acceptRecord closing c code slot arg s).mpl = s.mpl ∧ (acceptRecord closing c code slot arg s).rfs = s.rfs ∧
    (acceptRecord closing c code slot arg s).hif = s.hif ∧ (acceptRecord closing c code slot arg s).cap = s.cap ∧
    (acceptRecord closing c code slot arg s).pld = s.pld ∧ (acceptRecord closing c code slot arg s).itm = s.itm ∧
    (acceptRecord closing c code slot arg s).plan = s.plan ∧
    (acceptRecord closing c code slot arg s).cuts = s.cuts ∧
    (acceptRecord closing c code slot arg s).pending = s.pending := by
  simp [acceptRecord]

@[simp] theorem handRecord_frame (closing : Bool) (c : Category) (code slot arg : Word) (s : State) :
    (handRecord closing c code slot arg s).pins = s.pins ∧ (handRecord closing c code slot arg s).mem = s.mem ∧
    (handRecord closing c code slot arg s).bpu = s.bpu ∧ (handRecord closing c code slot arg s).mpa = s.mpa ∧
    (handRecord closing c code slot arg s).ssc = s.ssc ∧ (handRecord closing c code slot arg s).lsv = s.lsv ∧
    (handRecord closing c code slot arg s).fin = s.fin ∧ (handRecord closing c code slot arg s).rct = s.rct ∧
    (handRecord closing c code slot arg s).mpl = s.mpl ∧ (handRecord closing c code slot arg s).rfs = s.rfs ∧
    (handRecord closing c code slot arg s).hif = s.hif ∧ (handRecord closing c code slot arg s).cap = s.cap ∧
    (handRecord closing c code slot arg s).pld = s.pld ∧ (handRecord closing c code slot arg s).itm = s.itm ∧
    (handRecord closing c code slot arg s).plan = s.plan ∧ (handRecord closing c code slot arg s).cuts = s.cuts ∧
    (handRecord closing c code slot arg s).pending = s.pending := by
  simp only [handRecord, ite_state, ite_bpu, ite_mpl, ite_rfs, ite_mpa]
  simp [ite_state, ite_bpu, ite_mpl, ite_rfs, ite_mpa]

@[simp] theorem logRecord_frame (c : Category) (code slot arg : Word) (s : State) :
    (logRecord c code slot arg s).pins = s.pins ∧ (logRecord c code slot arg s).mem = s.mem ∧
    (logRecord c code slot arg s).bpu = s.bpu ∧ (logRecord c code slot arg s).mpa = s.mpa ∧
    (logRecord c code slot arg s).ssc = s.ssc ∧ (logRecord c code slot arg s).lsv = s.lsv ∧
    (logRecord c code slot arg s).fin = s.fin ∧ (logRecord c code slot arg s).rct = s.rct ∧
    (logRecord c code slot arg s).mpl = s.mpl ∧ (logRecord c code slot arg s).rfs = s.rfs ∧
    (logRecord c code slot arg s).hif = s.hif ∧ (logRecord c code slot arg s).cap = s.cap ∧
    (logRecord c code slot arg s).pld = s.pld ∧ (logRecord c code slot arg s).itm = s.itm ∧
    (logRecord c code slot arg s).plan = s.plan ∧ (logRecord c code slot arg s).cuts = s.cuts ∧
    (logRecord c code slot arg s).pending = s.pending := by
  simp [logRecord]

@[simp] theorem queueMapImage_frame (disarm : Bool) (s : State) :
    (queueMapImage disarm s).pins = s.pins ∧ (queueMapImage disarm s).mem = s.mem ∧
    (queueMapImage disarm s).bpu = s.bpu ∧ (queueMapImage disarm s).mpa = s.mpa ∧
    (queueMapImage disarm s).ssc = s.ssc ∧ (queueMapImage disarm s).lsv = s.lsv ∧
    (queueMapImage disarm s).fin = s.fin ∧ (queueMapImage disarm s).rct = s.rct ∧
    (queueMapImage disarm s).mpl = s.mpl ∧ (queueMapImage disarm s).rfs = s.rfs ∧
    (queueMapImage disarm s).hif = s.hif ∧ (queueMapImage disarm s).cap = s.cap ∧
    (queueMapImage disarm s).log = s.log ∧ (queueMapImage disarm s).pld = s.pld ∧
    (queueMapImage disarm s).itm = s.itm ∧ (queueMapImage disarm s).plan = s.plan ∧
    (queueMapImage disarm s).cuts = s.cuts ∧ (queueMapImage disarm s).pending = s.pending := by
  simp only [queueMapImage, ite_state, ite_bpu, ite_mpl, ite_rfs, ite_mpa]
  simp [ite_state, ite_bpu, ite_mpl, ite_rfs, ite_mpa]

@[simp] theorem countRefusal_frame (f : RefusalCounts → RefusalCounts) (s : State) :
    (countRefusal f s).pins = s.pins ∧ (countRefusal f s).mem = s.mem ∧
    (countRefusal f s).bpu.isOpen = s.bpu.isOpen ∧ (countRefusal f s).bpu.latches = s.bpu.latches ∧
    (countRefusal f s).bpu.needs = s.bpu.needs ∧ (countRefusal f s).bpu.deliveries = s.bpu.deliveries ∧
    (countRefusal f s).bpu.hostData = s.bpu.hostData ∧ (countRefusal f s).mpa = s.mpa ∧
    (countRefusal f s).ssc = s.ssc ∧ (countRefusal f s).lsv = s.lsv ∧ (countRefusal f s).fin = s.fin ∧
    (countRefusal f s).rct = s.rct ∧ (countRefusal f s).mpl = s.mpl ∧ (countRefusal f s).rfs = s.rfs ∧
    (countRefusal f s).wen = s.wen ∧ (countRefusal f s).hif = s.hif ∧ (countRefusal f s).cap = s.cap ∧
    (countRefusal f s).log = s.log ∧ (countRefusal f s).pld = s.pld ∧ (countRefusal f s).itm = s.itm ∧
    (countRefusal f s).plan = s.plan ∧ (countRefusal f s).cuts = s.cuts ∧ (countRefusal f s).pending = s.pending := by
  simp only [countRefusal, ite_state, ite_bpu, ite_mpl, ite_rfs, ite_mpa]
  simp [ite_state, ite_bpu, ite_mpl, ite_rfs, ite_mpa]

@[simp] theorem countSaturation_frame (p : Phase) (s : State) :
    (countSaturation p s).pins = s.pins ∧ (countSaturation p s).mem = s.mem ∧
    (countSaturation p s).bpu.isOpen = s.bpu.isOpen ∧ (countSaturation p s).bpu.latches = s.bpu.latches ∧
    (countSaturation p s).bpu.needs = s.bpu.needs ∧ (countSaturation p s).bpu.deliveries = s.bpu.deliveries ∧
    (countSaturation p s).bpu.hostData = s.bpu.hostData ∧ (countSaturation p s).mpa = s.mpa ∧
    (countSaturation p s).ssc = s.ssc ∧ (countSaturation p s).lsv = s.lsv ∧ (countSaturation p s).fin = s.fin ∧
    (countSaturation p s).rct = s.rct ∧ (countSaturation p s).mpl.fitted = s.mpl.fitted ∧
    (countSaturation p s).mpl.k = s.mpl.k ∧ (countSaturation p s).mpl.slots = s.mpl.slots ∧
    (countSaturation p s).mpl.generation = s.mpl.generation ∧ (countSaturation p s).mpl.table = s.mpl.table ∧
    (countSaturation p s).rfs = s.rfs ∧ (countSaturation p s).wen = s.wen ∧ (countSaturation p s).hif = s.hif ∧
    (countSaturation p s).cap = s.cap ∧ (countSaturation p s).log = s.log ∧ (countSaturation p s).pld = s.pld ∧
    (countSaturation p s).itm = s.itm ∧ (countSaturation p s).plan = s.plan ∧ (countSaturation p s).cuts = s.cuts ∧
    (countSaturation p s).pending = s.pending := by
  simp [countSaturation]

@[simp] theorem queueCaptureHeader_frame (s : State) :
    (queueCaptureHeader s).pins = s.pins ∧ (queueCaptureHeader s).mem = s.mem ∧ (queueCaptureHeader s).bpu = s.bpu ∧
    (queueCaptureHeader s).mpa = s.mpa ∧ (queueCaptureHeader s).ssc = s.ssc ∧ (queueCaptureHeader s).lsv = s.lsv ∧
    (queueCaptureHeader s).fin = s.fin ∧ (queueCaptureHeader s).rct = s.rct ∧ (queueCaptureHeader s).mpl = s.mpl ∧
    (queueCaptureHeader s).rfs = s.rfs ∧ (queueCaptureHeader s).hif = s.hif ∧ (queueCaptureHeader s).cap = s.cap ∧
    (queueCaptureHeader s).log = s.log ∧ (queueCaptureHeader s).pld = s.pld ∧ (queueCaptureHeader s).itm = s.itm ∧
    (queueCaptureHeader s).plan = s.plan ∧ (queueCaptureHeader s).cuts = s.cuts ∧
    (queueCaptureHeader s).pending = s.pending := by
  simp [queueCaptureHeader]

@[simp] theorem queueCaptureDump_frame (s : State) :
    (queueCaptureDump s).pins = s.pins ∧ (queueCaptureDump s).mem = s.mem ∧ (queueCaptureDump s).bpu = s.bpu ∧
    (queueCaptureDump s).mpa = s.mpa ∧ (queueCaptureDump s).ssc = s.ssc ∧ (queueCaptureDump s).lsv = s.lsv ∧
    (queueCaptureDump s).fin = s.fin ∧ (queueCaptureDump s).rct = s.rct ∧ (queueCaptureDump s).mpl = s.mpl ∧
    (queueCaptureDump s).rfs = s.rfs ∧ (queueCaptureDump s).hif = s.hif ∧ (queueCaptureDump s).cap = s.cap ∧
    (queueCaptureDump s).log = s.log ∧ (queueCaptureDump s).pld = s.pld ∧ (queueCaptureDump s).itm = s.itm ∧
    (queueCaptureDump s).plan = s.plan ∧ (queueCaptureDump s).cuts = s.cuts ∧
    (queueCaptureDump s).pending = s.pending := by
  simp [queueCaptureDump]

@[simp] theorem freezeRing_frame (s : State) :
    (freezeRing s).pins = s.pins ∧ (freezeRing s).mem = s.mem ∧ (freezeRing s).bpu = s.bpu ∧
    (freezeRing s).mpa = s.mpa ∧ (freezeRing s).ssc = s.ssc ∧ (freezeRing s).lsv = s.lsv ∧
    (freezeRing s).fin = s.fin ∧ (freezeRing s).rct = s.rct ∧ (freezeRing s).mpl = s.mpl ∧
    (freezeRing s).rfs = s.rfs ∧ (freezeRing s).hif = s.hif ∧ (freezeRing s).log = s.log ∧
    (freezeRing s).pld = s.pld ∧ (freezeRing s).itm = s.itm ∧ (freezeRing s).plan = s.plan ∧
    (freezeRing s).cuts = s.cuts ∧ (freezeRing s).pending = s.pending := by
  simp [freezeRing]

@[simp] theorem recordCapture_frame (r : Rec) (w : Fin 8) (v : Word) (s : State) :
    (recordCapture r w v s).pins = s.pins ∧ (recordCapture r w v s).mem = s.mem ∧
    (recordCapture r w v s).bpu = s.bpu ∧ (recordCapture r w v s).mpa = s.mpa ∧
    (recordCapture r w v s).ssc = s.ssc ∧ (recordCapture r w v s).lsv = s.lsv ∧
    (recordCapture r w v s).fin = s.fin ∧ (recordCapture r w v s).rct = s.rct ∧
    (recordCapture r w v s).mpl = s.mpl ∧ (recordCapture r w v s).rfs = s.rfs ∧
    (recordCapture r w v s).hif = s.hif ∧ (recordCapture r w v s).log = s.log ∧
    (recordCapture r w v s).pld = s.pld ∧ (recordCapture r w v s).itm = s.itm ∧
    (recordCapture r w v s).plan = s.plan ∧ (recordCapture r w v s).cuts = s.cuts ∧
    (recordCapture r w v s).pending = s.pending := by
  cases h : s.cap.post <;> simp only [recordCapture, ite_state, ite_bpu, ite_mpl, ite_rfs, ite_mpa, State.onCap_cap, h] <;> simp

@[simp] theorem captureTrigger_frame (k : TriggerKind) (s : State) :
    (captureTrigger k s).pins = s.pins ∧ (captureTrigger k s).mem = s.mem ∧ (captureTrigger k s).bpu = s.bpu ∧
    (captureTrigger k s).mpa = s.mpa ∧ (captureTrigger k s).ssc = s.ssc ∧ (captureTrigger k s).lsv = s.lsv ∧
    (captureTrigger k s).fin = s.fin ∧ (captureTrigger k s).rct = s.rct ∧ (captureTrigger k s).mpl = s.mpl ∧
    (captureTrigger k s).rfs = s.rfs ∧ (captureTrigger k s).hif = s.hif ∧ (captureTrigger k s).pld = s.pld ∧
    (captureTrigger k s).itm = s.itm ∧ (captureTrigger k s).plan = s.plan ∧ (captureTrigger k s).cuts = s.cuts ∧
    (captureTrigger k s).pending = s.pending := by
  simp only [captureTrigger, ite_state, ite_bpu, ite_mpl, ite_rfs, ite_mpa]
  simp [ite_state, ite_bpu, ite_mpl, ite_rfs, ite_mpa]

@[simp] theorem captureRange_frame (v : Word) (s : State) :
    (captureRange v s).pins = s.pins ∧ (captureRange v s).mem = s.mem ∧ (captureRange v s).bpu = s.bpu ∧
    (captureRange v s).mpa = s.mpa ∧ (captureRange v s).ssc = s.ssc ∧ (captureRange v s).lsv = s.lsv ∧
    (captureRange v s).fin = s.fin ∧ (captureRange v s).rct = s.rct ∧ (captureRange v s).mpl = s.mpl ∧
    (captureRange v s).rfs = s.rfs ∧ (captureRange v s).hif = s.hif ∧ (captureRange v s).pld = s.pld ∧
    (captureRange v s).itm = s.itm ∧ (captureRange v s).plan = s.plan ∧ (captureRange v s).cuts = s.cuts ∧
    (captureRange v s).pending = s.pending := by
  simp only [captureRange, ite_state, ite_bpu, ite_mpl, ite_rfs, ite_mpa]
  simp [ite_state, ite_bpu, ite_mpl, ite_rfs, ite_mpa]

@[simp] theorem consumeCapture_frame (s : State) :
    (consumeCapture s).pins = s.pins ∧ (consumeCapture s).mem = s.mem ∧ (consumeCapture s).bpu = s.bpu ∧
    (consumeCapture s).mpa = s.mpa ∧ (consumeCapture s).ssc = s.ssc ∧ (consumeCapture s).lsv = s.lsv ∧
    (consumeCapture s).fin = s.fin ∧ (consumeCapture s).rct = s.rct ∧ (consumeCapture s).mpl = s.mpl ∧
    (consumeCapture s).rfs = s.rfs ∧ (consumeCapture s).hif = s.hif ∧ (consumeCapture s).pld = s.pld ∧
    (consumeCapture s).itm = s.itm ∧ (consumeCapture s).plan = s.plan ∧ (consumeCapture s).cuts = s.cuts ∧
    (consumeCapture s).pending = s.pending := by
  simp only [consumeCapture, ite_state, ite_bpu, ite_mpl, ite_rfs, ite_mpa]
  simp [ite_state, ite_bpu, ite_mpl, ite_rfs, ite_mpa]

@[simp] theorem captureDumpCancelled_frame (s : State) :
    (captureDumpCancelled s).pins = s.pins ∧ (captureDumpCancelled s).mem = s.mem ∧
    (captureDumpCancelled s).bpu = s.bpu ∧ (captureDumpCancelled s).mpa = s.mpa ∧
    (captureDumpCancelled s).ssc = s.ssc ∧ (captureDumpCancelled s).lsv = s.lsv ∧
    (captureDumpCancelled s).fin = s.fin ∧ (captureDumpCancelled s).rct = s.rct ∧
    (captureDumpCancelled s).mpl = s.mpl ∧ (captureDumpCancelled s).rfs = s.rfs ∧
    (captureDumpCancelled s).wen = s.wen ∧ (captureDumpCancelled s).hif = s.hif ∧
    (captureDumpCancelled s).log = s.log ∧ (captureDumpCancelled s).pld = s.pld ∧
    (captureDumpCancelled s).itm = s.itm ∧ (captureDumpCancelled s).plan = s.plan ∧
    (captureDumpCancelled s).cuts = s.cuts ∧ (captureDumpCancelled s).pending = s.pending := by
  simp [captureDumpCancelled]

@[simp] theorem captureDumped_frame (s : State) :
    (captureDumped s).pins = s.pins ∧ (captureDumped s).mem = s.mem ∧ (captureDumped s).bpu = s.bpu ∧
    (captureDumped s).mpa = s.mpa ∧ (captureDumped s).ssc = s.ssc ∧ (captureDumped s).lsv = s.lsv ∧
    (captureDumped s).fin = s.fin ∧ (captureDumped s).rct = s.rct ∧ (captureDumped s).mpl = s.mpl ∧
    (captureDumped s).rfs = s.rfs ∧ (captureDumped s).hif = s.hif ∧ (captureDumped s).pld = s.pld ∧
    (captureDumped s).itm = s.itm ∧ (captureDumped s).plan = s.plan ∧ (captureDumped s).cuts = s.cuts ∧
    (captureDumped s).pending = s.pending := by
  simp [captureDumped]

@[simp] theorem hoistRecord_frame (code arg : Word) (s : State) :
    (hoistRecord code arg s).pins = s.pins ∧ (hoistRecord code arg s).mem = s.mem ∧
    (hoistRecord code arg s).bpu = s.bpu ∧ (hoistRecord code arg s).mpa = s.mpa ∧
    (hoistRecord code arg s).ssc = s.ssc ∧ (hoistRecord code arg s).lsv = s.lsv ∧
    (hoistRecord code arg s).fin = s.fin ∧ (hoistRecord code arg s).rct = s.rct ∧
    (hoistRecord code arg s).mpl = s.mpl ∧ (hoistRecord code arg s).rfs = s.rfs ∧
    (hoistRecord code arg s).hif = s.hif ∧ (hoistRecord code arg s).cap = s.cap ∧
    (hoistRecord code arg s).pld = s.pld ∧ (hoistRecord code arg s).itm = s.itm ∧
    (hoistRecord code arg s).plan = s.plan ∧ (hoistRecord code arg s).cuts = s.cuts ∧
    (hoistRecord code arg s).pending = s.pending := by
  simp [hoistRecord]

@[simp] theorem hoistEnter_frame (old new : RestartState) (s : State) :
    (hoistEnter old new s).pins = s.pins ∧ (hoistEnter old new s).mem = s.mem ∧ (hoistEnter old new s).bpu = s.bpu ∧
    (hoistEnter old new s).mpa = s.mpa ∧ (hoistEnter old new s).ssc = s.ssc ∧ (hoistEnter old new s).lsv = s.lsv ∧
    (hoistEnter old new s).fin = s.fin ∧ (hoistEnter old new s).rct = s.rct ∧ (hoistEnter old new s).mpl = s.mpl ∧
    (hoistEnter old new s).rfs = s.rfs ∧ (hoistEnter old new s).cap = s.cap ∧ (hoistEnter old new s).pld = s.pld ∧
    (hoistEnter old new s).itm = s.itm ∧ (hoistEnter old new s).plan = s.plan ∧
    (hoistEnter old new s).cuts = s.cuts ∧ (hoistEnter old new s).pending = s.pending := by
  simp only [hoistEnter, ite_state, ite_bpu, ite_mpl, ite_rfs, ite_mpa]
  simp [ite_state, ite_bpu, ite_mpl, ite_rfs, ite_mpa]

@[simp] theorem convertMode_frame (code arg : Word) (s : State) :
    (convertMode code arg s).pins = s.pins ∧ (convertMode code arg s).mem = s.mem ∧
    (convertMode code arg s).bpu = s.bpu ∧ (convertMode code arg s).mpa = s.mpa ∧
    (convertMode code arg s).ssc = s.ssc ∧ (convertMode code arg s).lsv = s.lsv ∧
    (convertMode code arg s).fin = s.fin ∧ (convertMode code arg s).mpl = s.mpl ∧
    (convertMode code arg s).rfs = s.rfs ∧ (convertMode code arg s).cap = s.cap ∧
    (convertMode code arg s).pld = s.pld ∧ (convertMode code arg s).itm = s.itm ∧
    (convertMode code arg s).plan = s.plan ∧ (convertMode code arg s).cuts = s.cuts ∧
    (convertMode code arg s).pending = s.pending := by
  simp [convertMode]

@[simp] theorem parkDrive_frame (s : State) :
    (parkDrive s).pins = s.pins ∧ (parkDrive s).mem = s.mem ∧ (parkDrive s).bpu = s.bpu ∧
    (parkDrive s).mpa = s.mpa ∧ (parkDrive s).ssc = s.ssc ∧ (parkDrive s).lsv = s.lsv ∧ (parkDrive s).fin = s.fin ∧
    (parkDrive s).rct = s.rct ∧ (parkDrive s).mpl = s.mpl ∧ (parkDrive s).rfs = s.rfs ∧ (parkDrive s).cap = s.cap ∧
    (parkDrive s).pld = s.pld ∧ (parkDrive s).itm = s.itm ∧ (parkDrive s).plan = s.plan ∧
    (parkDrive s).cuts = s.cuts ∧ (parkDrive s).pending = s.pending := by
  simp [parkDrive]

@[simp] theorem reproof_frame (s : State) :
    (reproof s).pins = s.pins ∧ (reproof s).mem = s.mem ∧ (reproof s).bpu = s.bpu ∧ (reproof s).mpa = s.mpa ∧
    (reproof s).ssc = s.ssc ∧ (reproof s).lsv = s.lsv ∧ (reproof s).fin = s.fin ∧ (reproof s).rct = s.rct ∧
    (reproof s).mpl = s.mpl ∧ (reproof s).rfs = s.rfs ∧ (reproof s).cap = s.cap ∧ (reproof s).pld = s.pld ∧
    (reproof s).itm = s.itm ∧ (reproof s).plan = s.plan ∧ (reproof s).cuts = s.cuts ∧
    (reproof s).pending = s.pending := by
  simp [reproof]

@[simp] theorem logMapChange_frame (before after : SlotMap) (i : Slot) (s : State) :
    (logMapChange before after i s).pins = s.pins ∧ (logMapChange before after i s).mem = s.mem ∧
    (logMapChange before after i s).bpu = s.bpu ∧ (logMapChange before after i s).mpa = s.mpa ∧
    (logMapChange before after i s).ssc = s.ssc ∧ (logMapChange before after i s).lsv = s.lsv ∧
    (logMapChange before after i s).fin = s.fin ∧ (logMapChange before after i s).rct = s.rct ∧
    (logMapChange before after i s).mpl = s.mpl ∧ (logMapChange before after i s).rfs = s.rfs ∧
    (logMapChange before after i s).hif = s.hif ∧ (logMapChange before after i s).cap = s.cap ∧
    (logMapChange before after i s).pld = s.pld ∧ (logMapChange before after i s).itm = s.itm ∧
    (logMapChange before after i s).plan = s.plan ∧ (logMapChange before after i s).cuts = s.cuts ∧
    (logMapChange before after i s).pending = s.pending := by
  unfold logMapChange; (repeat' split) <;> simp [ite_state, ite_bpu, ite_mpl, ite_rfs, ite_mpa]

@[simp] theorem logMapChange_fold_frame (before after : SlotMap) (l : List Slot) (s : State) :
    (l.foldl (fun t i => logMapChange before after i t) s).pins = s.pins ∧
    (l.foldl (fun t i => logMapChange before after i t) s).mem = s.mem ∧
    (l.foldl (fun t i => logMapChange before after i t) s).bpu = s.bpu ∧
    (l.foldl (fun t i => logMapChange before after i t) s).mpa = s.mpa ∧
    (l.foldl (fun t i => logMapChange before after i t) s).ssc = s.ssc ∧
    (l.foldl (fun t i => logMapChange before after i t) s).lsv = s.lsv ∧
    (l.foldl (fun t i => logMapChange before after i t) s).fin = s.fin ∧
    (l.foldl (fun t i => logMapChange before after i t) s).rct = s.rct ∧
    (l.foldl (fun t i => logMapChange before after i t) s).mpl = s.mpl ∧
    (l.foldl (fun t i => logMapChange before after i t) s).rfs = s.rfs ∧
    (l.foldl (fun t i => logMapChange before after i t) s).hif = s.hif ∧
    (l.foldl (fun t i => logMapChange before after i t) s).cap = s.cap ∧
    (l.foldl (fun t i => logMapChange before after i t) s).pld = s.pld ∧
    (l.foldl (fun t i => logMapChange before after i t) s).itm = s.itm ∧
    (l.foldl (fun t i => logMapChange before after i t) s).plan = s.plan ∧
    (l.foldl (fun t i => logMapChange before after i t) s).cuts = s.cuts ∧
    (l.foldl (fun t i => logMapChange before after i t) s).pending = s.pending := by
  refine ⟨foldl_frame (·.pins) _ (fun t a => by simp) l s, foldl_frame (·.mem) _ (fun t a => by simp) l s, foldl_frame (·.bpu) _ (fun t a => by simp) l s, foldl_frame (·.mpa) _ (fun t a => by simp) l s, foldl_frame (·.ssc) _ (fun t a => by simp) l s, foldl_frame (·.lsv) _ (fun t a => by simp) l s, foldl_frame (·.fin) _ (fun t a => by simp) l s, foldl_frame (·.rct) _ (fun t a => by simp) l s, foldl_frame (·.mpl) _ (fun t a => by simp) l s, foldl_frame (·.rfs) _ (fun t a => by simp) l s, foldl_frame (·.hif) _ (fun t a => by simp) l s, foldl_frame (·.cap) _ (fun t a => by simp) l s, foldl_frame (·.pld) _ (fun t a => by simp) l s, foldl_frame (·.itm) _ (fun t a => by simp) l s, foldl_frame (·.plan) _ (fun t a => by simp) l s, foldl_frame (·.cuts) _ (fun t a => by simp) l s, foldl_frame (·.pending) _ (fun t a => by simp) l s⟩

@[simp] theorem commandContactors_frame (slots : List Slot) (s : State) :
    (commandContactors slots s).pins = s.pins ∧ (commandContactors slots s).mem = s.mem ∧
    (commandContactors slots s).bpu = s.bpu ∧ (commandContactors slots s).mpa = s.mpa ∧
    (commandContactors slots s).ssc = s.ssc ∧ (commandContactors slots s).lsv = s.lsv ∧
    (commandContactors slots s).fin = s.fin ∧ (commandContactors slots s).mpl = s.mpl ∧
    (commandContactors slots s).rfs = s.rfs ∧ (commandContactors slots s).hif = s.hif ∧
    (commandContactors slots s).cap = s.cap ∧ (commandContactors slots s).log = s.log ∧
    (commandContactors slots s).pld = s.pld ∧ (commandContactors slots s).itm = s.itm ∧
    (commandContactors slots s).plan = s.plan ∧ (commandContactors slots s).cuts = s.cuts ∧
    (commandContactors slots s).pending = s.pending := by
  simp only [commandContactors, ite_state, ite_bpu, ite_mpl, ite_rfs, ite_mpa]
  simp [ite_state, ite_bpu, ite_mpl, ite_rfs, ite_mpa]

@[simp] theorem logCommanded_frame (slots : List Slot) (s : State) :
    (logCommanded slots s).pins = s.pins ∧ (logCommanded slots s).mem = s.mem ∧ (logCommanded slots s).bpu = s.bpu ∧
    (logCommanded slots s).mpa = s.mpa ∧ (logCommanded slots s).ssc = s.ssc ∧ (logCommanded slots s).lsv = s.lsv ∧
    (logCommanded slots s).fin = s.fin ∧ (logCommanded slots s).rct = s.rct ∧ (logCommanded slots s).mpl = s.mpl ∧
    (logCommanded slots s).rfs = s.rfs ∧ (logCommanded slots s).hif = s.hif ∧ (logCommanded slots s).cap = s.cap ∧
    (logCommanded slots s).pld = s.pld ∧ (logCommanded slots s).itm = s.itm ∧ (logCommanded slots s).plan = s.plan ∧
    (logCommanded slots s).cuts = s.cuts ∧ (logCommanded slots s).pending = s.pending := by
  simp only [logCommanded, ite_state, ite_bpu, ite_mpl, ite_rfs, ite_mpa]
  simp [ite_state, ite_bpu, ite_mpl, ite_rfs, ite_mpa]

@[simp] theorem bumpGeneration_frame (s : State) :
    (bumpGeneration s).pins = s.pins ∧ (bumpGeneration s).mem = s.mem ∧ (bumpGeneration s).bpu = s.bpu ∧
    (bumpGeneration s).mpa = s.mpa ∧ (bumpGeneration s).ssc = s.ssc ∧ (bumpGeneration s).lsv = s.lsv ∧
    (bumpGeneration s).fin = s.fin ∧ (bumpGeneration s).rct = s.rct ∧ (bumpGeneration s).mpl.fitted = s.mpl.fitted ∧
    (bumpGeneration s).mpl.k = s.mpl.k ∧ (bumpGeneration s).mpl.slots = s.mpl.slots ∧
    (bumpGeneration s).mpl.phases = s.mpl.phases ∧ (bumpGeneration s).mpl.table = s.mpl.table ∧
    (bumpGeneration s).rfs = s.rfs ∧ (bumpGeneration s).hif = s.hif ∧ (bumpGeneration s).cap = s.cap ∧
    (bumpGeneration s).log = s.log ∧ (bumpGeneration s).pld = s.pld ∧ (bumpGeneration s).itm = s.itm ∧
    (bumpGeneration s).plan = s.plan ∧ (bumpGeneration s).cuts = s.cuts ∧ (bumpGeneration s).pending = s.pending := by
  simp [bumpGeneration]

@[simp] theorem logRun_frame (before : SlotMap) (source : Word) (short : Option Phase) (s : State) :
    (logRun before source short s).pins = s.pins ∧ (logRun before source short s).mem = s.mem ∧
    (logRun before source short s).bpu = s.bpu ∧ (logRun before source short s).mpa = s.mpa ∧
    (logRun before source short s).ssc = s.ssc ∧ (logRun before source short s).lsv = s.lsv ∧
    (logRun before source short s).fin = s.fin ∧ (logRun before source short s).rct = s.rct ∧
    (logRun before source short s).mpl = s.mpl ∧ (logRun before source short s).rfs = s.rfs ∧
    (logRun before source short s).hif = s.hif ∧ (logRun before source short s).cap = s.cap ∧
    (logRun before source short s).pld = s.pld ∧ (logRun before source short s).itm = s.itm ∧
    (logRun before source short s).plan = s.plan ∧ (logRun before source short s).cuts = s.cuts ∧
    (logRun before source short s).pending = s.pending := by
  unfold logRun; (repeat' split) <;> simp [ite_state, ite_bpu, ite_mpl, ite_rfs, ite_mpa]

@[simp] theorem planRun_frame (hard : Slot → Bool) (s : State) :
    (planRun hard s).pins = s.pins ∧ (planRun hard s).mem = s.mem ∧ (planRun hard s).bpu = s.bpu ∧
    (planRun hard s).mpa = s.mpa ∧ (planRun hard s).ssc = s.ssc ∧ (planRun hard s).lsv = s.lsv ∧
    (planRun hard s).fin = s.fin ∧ (planRun hard s).mpl.fitted = s.mpl.fitted ∧ (planRun hard s).mpl.k = s.mpl.k ∧
    (planRun hard s).mpl.table = s.mpl.table ∧ (planRun hard s).rfs = s.rfs ∧ (planRun hard s).hif = s.hif ∧
    (planRun hard s).cap = s.cap ∧ (planRun hard s).pld = s.pld ∧ (planRun hard s).itm = s.itm ∧
    (planRun hard s).plan = s.plan ∧ (planRun hard s).cuts = s.cuts ∧ (planRun hard s).pending = s.pending := by
  simp [planRun]

@[simp] theorem nonActiveFault_frame (i : Slot) (s : State) :
    (nonActiveFault i s).pins = s.pins ∧ (nonActiveFault i s).mem = s.mem ∧ (nonActiveFault i s).bpu = s.bpu ∧
    (nonActiveFault i s).mpa = s.mpa ∧ (nonActiveFault i s).ssc = s.ssc ∧ (nonActiveFault i s).lsv = s.lsv ∧
    (nonActiveFault i s).fin = s.fin ∧ (nonActiveFault i s).rct = s.rct ∧
    (nonActiveFault i s).mpl.fitted = s.mpl.fitted ∧ (nonActiveFault i s).mpl.k = s.mpl.k ∧
    (nonActiveFault i s).mpl.phases = s.mpl.phases ∧ (nonActiveFault i s).mpl.table = s.mpl.table ∧
    (nonActiveFault i s).rfs = s.rfs ∧ (nonActiveFault i s).hif = s.hif ∧ (nonActiveFault i s).cap = s.cap ∧
    (nonActiveFault i s).pld = s.pld ∧ (nonActiveFault i s).itm = s.itm ∧ (nonActiveFault i s).plan = s.plan ∧
    (nonActiveFault i s).cuts = s.cuts ∧ (nonActiveFault i s).pending = s.pending := by
  simp [nonActiveFault]

@[simp] theorem blockAll_frame (s : State) :
    (blockAll s).pins = s.pins ∧ (blockAll s).mem = s.mem ∧ (blockAll s).bpu = s.bpu ∧ (blockAll s).mpa = s.mpa ∧
    (blockAll s).ssc = s.ssc ∧ (blockAll s).lsv = s.lsv ∧ (blockAll s).fin = s.fin ∧ (blockAll s).rct = s.rct ∧
    (blockAll s).mpl = s.mpl ∧ (blockAll s).rfs = s.rfs ∧ (blockAll s).hif = s.hif ∧ (blockAll s).cap = s.cap ∧
    (blockAll s).log = s.log ∧ (blockAll s).pld = s.pld ∧ (blockAll s).itm = s.itm ∧ (blockAll s).plan = s.plan ∧
    (blockAll s).cuts = s.cuts ∧ (blockAll s).pending = s.pending := by
  simp [blockAll]

@[simp] theorem clearRelease_frame (s : State) :
    (clearRelease s).pins = s.pins ∧ (clearRelease s).mem = s.mem ∧ (clearRelease s).bpu = s.bpu ∧
    (clearRelease s).mpa = s.mpa ∧ (clearRelease s).ssc = s.ssc ∧ (clearRelease s).lsv = s.lsv ∧
    (clearRelease s).fin = s.fin ∧ (clearRelease s).rct = s.rct ∧ (clearRelease s).mpl = s.mpl ∧
    (clearRelease s).rfs.image = s.rfs.image ∧ (clearRelease s).rfs.amplitudeMark = s.rfs.amplitudeMark ∧
    (clearRelease s).rfs.angleMark = s.rfs.angleMark ∧ (clearRelease s).rfs.aux = s.rfs.aux ∧
    (clearRelease s).wen = s.wen ∧ (clearRelease s).hif = s.hif ∧ (clearRelease s).cap = s.cap ∧
    (clearRelease s).log = s.log ∧ (clearRelease s).pld = s.pld ∧ (clearRelease s).itm = s.itm ∧
    (clearRelease s).plan = s.plan ∧ (clearRelease s).cuts = s.cuts ∧ (clearRelease s).pending = s.pending := by
  simp [clearRelease]

@[simp] theorem cancelSequenceJobs_frame (s : State) :
    (cancelSequenceJobs s).pins = s.pins ∧ (cancelSequenceJobs s).bpu = s.bpu ∧
    (cancelSequenceJobs s).mpa.fair = s.mpa.fair ∧ (cancelSequenceJobs s).ssc = s.ssc ∧
    (cancelSequenceJobs s).lsv = s.lsv ∧ (cancelSequenceJobs s).fin = s.fin ∧ (cancelSequenceJobs s).rct = s.rct ∧
    (cancelSequenceJobs s).mpl = s.mpl ∧ (cancelSequenceJobs s).rfs.image = s.rfs.image ∧
    (cancelSequenceJobs s).rfs.amplitudeMark = s.rfs.amplitudeMark ∧
    (cancelSequenceJobs s).rfs.angleMark = s.rfs.angleMark ∧ (cancelSequenceJobs s).rfs.aux = s.rfs.aux ∧
    (cancelSequenceJobs s).hif = s.hif ∧ (cancelSequenceJobs s).cap = s.cap ∧ (cancelSequenceJobs s).log = s.log ∧
    (cancelSequenceJobs s).pld = s.pld ∧ (cancelSequenceJobs s).itm = s.itm ∧ (cancelSequenceJobs s).plan = s.plan ∧
    (cancelSequenceJobs s).pending = s.pending := by
  simp [cancelSequenceJobs]

@[simp] theorem abandonRelease_frame (s : State) :
    (abandonRelease s).pins = s.pins ∧ (abandonRelease s).bpu = s.bpu ∧ (abandonRelease s).mpa.fair = s.mpa.fair ∧
    (abandonRelease s).ssc = s.ssc ∧ (abandonRelease s).lsv = s.lsv ∧ (abandonRelease s).fin = s.fin ∧
    (abandonRelease s).rct = s.rct ∧ (abandonRelease s).mpl = s.mpl ∧ (abandonRelease s).rfs.image = s.rfs.image ∧
    (abandonRelease s).rfs.amplitudeMark = s.rfs.amplitudeMark ∧
    (abandonRelease s).rfs.angleMark = s.rfs.angleMark ∧ (abandonRelease s).rfs.aux = s.rfs.aux ∧
    (abandonRelease s).hif = s.hif ∧ (abandonRelease s).cap = s.cap ∧ (abandonRelease s).log = s.log ∧
    (abandonRelease s).pld = s.pld ∧ (abandonRelease s).itm = s.itm ∧ (abandonRelease s).plan = s.plan ∧
    (abandonRelease s).pending = s.pending := by
  simp [abandonRelease]

@[simp] theorem clearMarks_frame (s : State) :
    (clearMarks s).pins = s.pins ∧ (clearMarks s).mem = s.mem ∧ (clearMarks s).bpu = s.bpu ∧
    (clearMarks s).mpa = s.mpa ∧ (clearMarks s).ssc = s.ssc ∧ (clearMarks s).lsv = s.lsv ∧
    (clearMarks s).fin = s.fin ∧ (clearMarks s).rct = s.rct ∧ (clearMarks s).mpl = s.mpl ∧
    (clearMarks s).rfs.image = s.rfs.image ∧ (clearMarks s).rfs.aux = s.rfs.aux ∧
    (clearMarks s).rfs.cursor = s.rfs.cursor ∧ (clearMarks s).rfs.stage = s.rfs.stage ∧ (clearMarks s).wen = s.wen ∧
    (clearMarks s).hif = s.hif ∧ (clearMarks s).cap = s.cap ∧ (clearMarks s).log = s.log ∧
    (clearMarks s).pld = s.pld ∧ (clearMarks s).itm = s.itm ∧ (clearMarks s).plan = s.plan ∧
    (clearMarks s).cuts = s.cuts ∧ (clearMarks s).pending = s.pending := by
  simp [clearMarks]

@[simp] theorem uncountCommit_frame (n : Need) (s : State) :
    (uncountCommit n s).pins = s.pins ∧ (uncountCommit n s).mem = s.mem ∧
    (uncountCommit n s).bpu.isOpen = s.bpu.isOpen ∧ (uncountCommit n s).bpu.latches = s.bpu.latches ∧
    (uncountCommit n s).bpu.needs = s.bpu.needs ∧ (uncountCommit n s).bpu.deliveries = s.bpu.deliveries ∧
    (uncountCommit n s).bpu.hostData = s.bpu.hostData ∧ (uncountCommit n s).mpa = s.mpa ∧
    (uncountCommit n s).ssc = s.ssc ∧ (uncountCommit n s).lsv = s.lsv ∧ (uncountCommit n s).fin = s.fin ∧
    (uncountCommit n s).rct = s.rct ∧ (uncountCommit n s).mpl.fitted = s.mpl.fitted ∧
    (uncountCommit n s).mpl.k = s.mpl.k ∧ (uncountCommit n s).mpl.slots = s.mpl.slots ∧
    (uncountCommit n s).mpl.generation = s.mpl.generation ∧ (uncountCommit n s).mpl.table = s.mpl.table ∧
    (uncountCommit n s).rfs = s.rfs ∧ (uncountCommit n s).wen = s.wen ∧ (uncountCommit n s).hif = s.hif ∧
    (uncountCommit n s).cap = s.cap ∧ (uncountCommit n s).log = s.log ∧ (uncountCommit n s).pld = s.pld ∧
    (uncountCommit n s).itm = s.itm ∧ (uncountCommit n s).plan = s.plan ∧ (uncountCommit n s).cuts = s.cuts ∧
    (uncountCommit n s).pending = s.pending := by
  unfold uncountCommit; (repeat' split) <;> simp [ite_state, ite_bpu, ite_mpl, ite_rfs, ite_mpa]

@[simp] theorem uncountCommit_fold_frame  (l : List Need) (s : State) :
    (l.foldl (fun t n => uncountCommit n t) s).pins = s.pins ∧
    (l.foldl (fun t n => uncountCommit n t) s).mem = s.mem ∧
    (l.foldl (fun t n => uncountCommit n t) s).bpu.isOpen = s.bpu.isOpen ∧
    (l.foldl (fun t n => uncountCommit n t) s).bpu.latches = s.bpu.latches ∧
    (l.foldl (fun t n => uncountCommit n t) s).bpu.needs = s.bpu.needs ∧
    (l.foldl (fun t n => uncountCommit n t) s).bpu.deliveries = s.bpu.deliveries ∧
    (l.foldl (fun t n => uncountCommit n t) s).bpu.hostData = s.bpu.hostData ∧
    (l.foldl (fun t n => uncountCommit n t) s).mpa = s.mpa ∧
    (l.foldl (fun t n => uncountCommit n t) s).ssc = s.ssc ∧
    (l.foldl (fun t n => uncountCommit n t) s).lsv = s.lsv ∧
    (l.foldl (fun t n => uncountCommit n t) s).fin = s.fin ∧
    (l.foldl (fun t n => uncountCommit n t) s).rct = s.rct ∧
    (l.foldl (fun t n => uncountCommit n t) s).mpl.fitted = s.mpl.fitted ∧
    (l.foldl (fun t n => uncountCommit n t) s).mpl.k = s.mpl.k ∧
    (l.foldl (fun t n => uncountCommit n t) s).mpl.slots = s.mpl.slots ∧
    (l.foldl (fun t n => uncountCommit n t) s).mpl.generation = s.mpl.generation ∧
    (l.foldl (fun t n => uncountCommit n t) s).mpl.table = s.mpl.table ∧
    (l.foldl (fun t n => uncountCommit n t) s).rfs = s.rfs ∧
    (l.foldl (fun t n => uncountCommit n t) s).wen = s.wen ∧
    (l.foldl (fun t n => uncountCommit n t) s).hif = s.hif ∧
    (l.foldl (fun t n => uncountCommit n t) s).cap = s.cap ∧
    (l.foldl (fun t n => uncountCommit n t) s).log = s.log ∧
    (l.foldl (fun t n => uncountCommit n t) s).pld = s.pld ∧
    (l.foldl (fun t n => uncountCommit n t) s).itm = s.itm ∧
    (l.foldl (fun t n => uncountCommit n t) s).plan = s.plan ∧
    (l.foldl (fun t n => uncountCommit n t) s).cuts = s.cuts ∧
    (l.foldl (fun t n => uncountCommit n t) s).pending = s.pending := by
  refine ⟨foldl_frame (·.pins) _ (fun t a => by simp) l s, foldl_frame (·.mem) _ (fun t a => by simp) l s, foldl_frame (·.bpu.isOpen) _ (fun t a => by simp) l s, foldl_frame (·.bpu.latches) _ (fun t a => by simp) l s, foldl_frame (·.bpu.needs) _ (fun t a => by simp) l s, foldl_frame (·.bpu.deliveries) _ (fun t a => by simp) l s, foldl_frame (·.bpu.hostData) _ (fun t a => by simp) l s, foldl_frame (·.mpa) _ (fun t a => by simp) l s, foldl_frame (·.ssc) _ (fun t a => by simp) l s, foldl_frame (·.lsv) _ (fun t a => by simp) l s, foldl_frame (·.fin) _ (fun t a => by simp) l s, foldl_frame (·.rct) _ (fun t a => by simp) l s, foldl_frame (·.mpl.fitted) _ (fun t a => by simp) l s, foldl_frame (·.mpl.k) _ (fun t a => by simp) l s, foldl_frame (·.mpl.slots) _ (fun t a => by simp) l s, foldl_frame (·.mpl.generation) _ (fun t a => by simp) l s, foldl_frame (·.mpl.table) _ (fun t a => by simp) l s, foldl_frame (·.rfs) _ (fun t a => by simp) l s, foldl_frame (·.wen) _ (fun t a => by simp) l s, foldl_frame (·.hif) _ (fun t a => by simp) l s, foldl_frame (·.cap) _ (fun t a => by simp) l s, foldl_frame (·.log) _ (fun t a => by simp) l s, foldl_frame (·.pld) _ (fun t a => by simp) l s, foldl_frame (·.itm) _ (fun t a => by simp) l s, foldl_frame (·.plan) _ (fun t a => by simp) l s, foldl_frame (·.cuts) _ (fun t a => by simp) l s, foldl_frame (·.pending) _ (fun t a => by simp) l s⟩

@[simp] theorem emptyLatches_frame (s : State) :
    (emptyLatches s).pins = s.pins ∧ (emptyLatches s).mem = s.mem ∧ (emptyLatches s).bpu.isOpen = s.bpu.isOpen ∧
    (emptyLatches s).bpu.deliveries = s.bpu.deliveries ∧ (emptyLatches s).bpu.hostData = s.bpu.hostData ∧
    (emptyLatches s).mpa = s.mpa ∧ (emptyLatches s).ssc = s.ssc ∧ (emptyLatches s).lsv = s.lsv ∧
    (emptyLatches s).fin = s.fin ∧ (emptyLatches s).rct = s.rct ∧ (emptyLatches s).mpl.fitted = s.mpl.fitted ∧
    (emptyLatches s).mpl.k = s.mpl.k ∧ (emptyLatches s).mpl.slots = s.mpl.slots ∧
    (emptyLatches s).mpl.generation = s.mpl.generation ∧ (emptyLatches s).mpl.table = s.mpl.table ∧
    (emptyLatches s).rfs = s.rfs ∧ (emptyLatches s).wen = s.wen ∧ (emptyLatches s).hif = s.hif ∧
    (emptyLatches s).cap = s.cap ∧ (emptyLatches s).log = s.log ∧ (emptyLatches s).pld = s.pld ∧
    (emptyLatches s).itm = s.itm ∧ (emptyLatches s).plan = s.plan ∧ (emptyLatches s).cuts = s.cuts ∧
    (emptyLatches s).pending = s.pending := by
  simp [emptyLatches]

@[simp] theorem enter_frame (new : RestartState) (slot arg : Word) (s : State) :
    (enter new slot arg s).pins = s.pins ∧ (enter new slot arg s).mem = s.mem ∧
    (enter new slot arg s).bpu.isOpen = s.bpu.isOpen ∧ (enter new slot arg s).bpu.deliveries = s.bpu.deliveries ∧
    (enter new slot arg s).bpu.hostData = s.bpu.hostData ∧ (enter new slot arg s).mpa = s.mpa ∧
    (enter new slot arg s).ssc = s.ssc ∧ (enter new slot arg s).lsv = s.lsv ∧ (enter new slot arg s).fin = s.fin ∧
    (enter new slot arg s).mpl.fitted = s.mpl.fitted ∧ (enter new slot arg s).mpl.k = s.mpl.k ∧
    (enter new slot arg s).mpl.slots = s.mpl.slots ∧ (enter new slot arg s).mpl.generation = s.mpl.generation ∧
    (enter new slot arg s).mpl.table = s.mpl.table ∧ (enter new slot arg s).rfs = s.rfs ∧
    (enter new slot arg s).cap = s.cap ∧ (enter new slot arg s).pld = s.pld ∧ (enter new slot arg s).itm = s.itm ∧
    (enter new slot arg s).plan = s.plan ∧ (enter new slot arg s).cuts = s.cuts ∧
    (enter new slot arg s).pending = s.pending := by
  simp only [enter, ite_state, ite_bpu, ite_mpl, ite_rfs, ite_mpa]
  simp [ite_state, ite_bpu, ite_mpl, ite_rfs, ite_mpa]

@[simp] theorem enterLockout_frame (c : LockoutCause) (s : State) :
    (enterLockout c s).pins = s.pins ∧ (enterLockout c s).bpu.isOpen = s.bpu.isOpen ∧
    (enterLockout c s).bpu.deliveries = s.bpu.deliveries ∧ (enterLockout c s).bpu.hostData = s.bpu.hostData ∧
    (enterLockout c s).mpa.fair = s.mpa.fair ∧ (enterLockout c s).ssc = s.ssc ∧ (enterLockout c s).lsv = s.lsv ∧
    (enterLockout c s).mpl.fitted = s.mpl.fitted ∧ (enterLockout c s).mpl.k = s.mpl.k ∧
    (enterLockout c s).mpl.slots = s.mpl.slots ∧ (enterLockout c s).mpl.generation = s.mpl.generation ∧
    (enterLockout c s).mpl.table = s.mpl.table ∧ (enterLockout c s).rfs.image = s.rfs.image ∧
    (enterLockout c s).rfs.amplitudeMark = s.rfs.amplitudeMark ∧
    (enterLockout c s).rfs.angleMark = s.rfs.angleMark ∧ (enterLockout c s).rfs.aux = s.rfs.aux ∧
    (enterLockout c s).cap = s.cap ∧ (enterLockout c s).pld = s.pld ∧ (enterLockout c s).itm = s.itm ∧
    (enterLockout c s).plan = s.plan ∧ (enterLockout c s).pending = s.pending := by
  simp [enterLockout]

@[simp] theorem firstTrip_frame (s : State) :
    (firstTrip s).pins = s.pins ∧ (firstTrip s).mem = s.mem ∧ (firstTrip s).bpu = s.bpu ∧
    (firstTrip s).mpa = s.mpa ∧ (firstTrip s).ssc = s.ssc ∧ (firstTrip s).lsv = s.lsv ∧ (firstTrip s).fin = s.fin ∧
    (firstTrip s).mpl = s.mpl ∧ (firstTrip s).rfs.image = s.rfs.image ∧ (firstTrip s).rfs.aux = s.rfs.aux ∧
    (firstTrip s).rfs.cursor = s.rfs.cursor ∧ (firstTrip s).rfs.stage = s.rfs.stage ∧ (firstTrip s).wen = s.wen ∧
    (firstTrip s).hif = s.hif ∧ (firstTrip s).cap = s.cap ∧ (firstTrip s).log = s.log ∧ (firstTrip s).pld = s.pld ∧
    (firstTrip s).itm = s.itm ∧ (firstTrip s).plan = s.plan ∧ (firstTrip s).cuts = s.cuts ∧
    (firstTrip s).pending = s.pending := by
  simp [firstTrip]

@[simp] theorem trip_frame (cause : TripCause) (entry : Option (Slot × PendingFault)) (s : State) :
    (trip cause entry s).pins = s.pins ∧ (trip cause entry s).bpu.isOpen = s.bpu.isOpen ∧
    (trip cause entry s).bpu.deliveries = s.bpu.deliveries ∧ (trip cause entry s).bpu.hostData = s.bpu.hostData ∧
    (trip cause entry s).mpa.fair = s.mpa.fair ∧ (trip cause entry s).ssc = s.ssc ∧
    (trip cause entry s).lsv = s.lsv ∧ (trip cause entry s).fin = s.fin ∧
    (trip cause entry s).mpl.fitted = s.mpl.fitted ∧ (trip cause entry s).mpl.k = s.mpl.k ∧
    (trip cause entry s).mpl.slots = s.mpl.slots ∧ (trip cause entry s).mpl.generation = s.mpl.generation ∧
    (trip cause entry s).mpl.table = s.mpl.table ∧ (trip cause entry s).rfs.image = s.rfs.image ∧
    (trip cause entry s).rfs.aux = s.rfs.aux ∧ (trip cause entry s).pld = s.pld ∧ (trip cause entry s).itm = s.itm ∧
    (trip cause entry s).plan = s.plan ∧ (trip cause entry s).pending = s.pending := by
  simp only [trip, ite_state, ite_bpu, ite_mpl, ite_rfs, ite_mpa]
  simp [ite_state, ite_bpu, ite_mpl, ite_rfs, ite_mpa]

@[simp] theorem quiesce_frame (s : State) :
    (quiesce s).pins = s.pins ∧ (quiesce s).mem = s.mem ∧ (quiesce s).bpu.hostData = s.bpu.hostData ∧
    (quiesce s).mpa.fair = s.mpa.fair ∧ (quiesce s).mpl.fitted = s.mpl.fitted ∧ (quiesce s).mpl.k = s.mpl.k ∧
    (quiesce s).mpl.slots = s.mpl.slots ∧ (quiesce s).mpl.generation = s.mpl.generation ∧
    (quiesce s).mpl.table = s.mpl.table ∧ (quiesce s).rfs.image = s.rfs.image ∧
    (quiesce s).rfs.amplitudeMark = s.rfs.amplitudeMark ∧ (quiesce s).rfs.angleMark = s.rfs.angleMark ∧
    (quiesce s).rfs.aux = s.rfs.aux ∧ (quiesce s).wen = s.wen ∧ (quiesce s).cap = s.cap ∧ (quiesce s).log = s.log ∧
    (quiesce s).plan = s.plan ∧ (quiesce s).cuts = s.cuts ∧ (quiesce s).pending = s.pending := by
  simp [quiesce]

@[simp] theorem loseRecords_frame (s : State) :
    (loseRecords s).pins = s.pins ∧ (loseRecords s).mem = s.mem ∧ (loseRecords s).bpu = s.bpu ∧
    (loseRecords s).mpa = s.mpa ∧ (loseRecords s).ssc = s.ssc ∧ (loseRecords s).lsv = s.lsv ∧
    (loseRecords s).fin = s.fin ∧ (loseRecords s).rct = s.rct ∧ (loseRecords s).mpl = s.mpl ∧
    (loseRecords s).rfs = s.rfs ∧ (loseRecords s).wen = s.wen ∧ (loseRecords s).hif = s.hif ∧
    (loseRecords s).cap = s.cap ∧ (loseRecords s).pld = s.pld ∧ (loseRecords s).itm = s.itm ∧
    (loseRecords s).plan = s.plan ∧ (loseRecords s).cuts = s.cuts ∧ (loseRecords s).pending = s.pending := by
  simp [loseRecords]

@[simp] theorem stopLog_frame (dropped : Bool) (s : State) :
    (stopLog dropped s).pins = s.pins ∧ (stopLog dropped s).mem = s.mem ∧ (stopLog dropped s).bpu = s.bpu ∧
    (stopLog dropped s).mpa = s.mpa ∧ (stopLog dropped s).ssc = s.ssc ∧ (stopLog dropped s).lsv = s.lsv ∧
    (stopLog dropped s).fin = s.fin ∧ (stopLog dropped s).rct = s.rct ∧ (stopLog dropped s).mpl = s.mpl ∧
    (stopLog dropped s).rfs = s.rfs ∧ (stopLog dropped s).wen = s.wen ∧ (stopLog dropped s).hif = s.hif ∧
    (stopLog dropped s).cap = s.cap ∧ (stopLog dropped s).pld = s.pld ∧ (stopLog dropped s).itm = s.itm ∧
    (stopLog dropped s).plan = s.plan ∧ (stopLog dropped s).cuts = s.cuts ∧ (stopLog dropped s).pending = s.pending := by
  simp [stopLog]

@[simp] theorem closeLog_frame (armRecord : Option (Word × Word × Word)) (arg : Word) (s : State) :
    (closeLog armRecord arg s).pins = s.pins ∧ (closeLog armRecord arg s).mem = s.mem ∧
    (closeLog armRecord arg s).bpu = s.bpu ∧ (closeLog armRecord arg s).mpa = s.mpa ∧
    (closeLog armRecord arg s).ssc = s.ssc ∧ (closeLog armRecord arg s).lsv = s.lsv ∧
    (closeLog armRecord arg s).fin = s.fin ∧ (closeLog armRecord arg s).rct = s.rct ∧
    (closeLog armRecord arg s).mpl = s.mpl ∧ (closeLog armRecord arg s).rfs = s.rfs ∧
    (closeLog armRecord arg s).hif = s.hif ∧ (closeLog armRecord arg s).cap = s.cap ∧
    (closeLog armRecord arg s).pld = s.pld ∧ (closeLog armRecord arg s).itm = s.itm ∧
    (closeLog armRecord arg s).plan = s.plan ∧ (closeLog armRecord arg s).cuts = s.cuts ∧
    (closeLog armRecord arg s).pending = s.pending := by
  cases armRecord <;> simp only [closeLog, ite_state, ite_bpu, ite_mpl, ite_rfs, ite_mpa] <;> simp [ite_state, ite_bpu, ite_mpl, ite_rfs, ite_mpa]

@[simp] theorem flushReferences_frame (s : State) :
    (flushReferences s).pins = s.pins ∧ (flushReferences s).mem = s.mem ∧ (flushReferences s).bpu = s.bpu ∧
    (flushReferences s).mpa = s.mpa ∧ (flushReferences s).ssc = s.ssc ∧ (flushReferences s).lsv = s.lsv ∧
    (flushReferences s).fin = s.fin ∧ (flushReferences s).rct = s.rct ∧ (flushReferences s).mpl = s.mpl ∧
    (flushReferences s).rfs.image = s.rfs.image ∧ (flushReferences s).rfs.cursor = s.rfs.cursor ∧
    (flushReferences s).rfs.stage = s.rfs.stage ∧ (flushReferences s).wen = s.wen ∧
    (flushReferences s).hif = s.hif ∧ (flushReferences s).cap = s.cap ∧ (flushReferences s).log = s.log ∧
    (flushReferences s).pld = s.pld ∧ (flushReferences s).itm = s.itm ∧ (flushReferences s).plan = s.plan ∧
    (flushReferences s).cuts = s.cuts ∧ (flushReferences s).pending = s.pending := by
  simp [flushReferences]

@[simp] theorem takeDone_frame (k : JobKind) (s : State) :
    (takeDone k s).pins = s.pins ∧ (takeDone k s).mem = s.mem ∧ (takeDone k s).bpu = s.bpu ∧
    (takeDone k s).mpa = s.mpa ∧ (takeDone k s).ssc = s.ssc ∧ (takeDone k s).lsv = s.lsv ∧
    (takeDone k s).fin = s.fin ∧ (takeDone k s).rct = s.rct ∧ (takeDone k s).mpl = s.mpl ∧
    (takeDone k s).rfs = s.rfs ∧ (takeDone k s).hif = s.hif ∧ (takeDone k s).cap = s.cap ∧
    (takeDone k s).log = s.log ∧ (takeDone k s).pld = s.pld ∧ (takeDone k s).itm = s.itm ∧
    (takeDone k s).plan = s.plan ∧ (takeDone k s).cuts = s.cuts ∧ (takeDone k s).pending = s.pending := by
  simp [takeDone]

@[simp] theorem logCompleted_frame (closing : Bool) (s : State) :
    (logCompleted closing s).pins = s.pins ∧ (logCompleted closing s).mem = s.mem ∧
    (logCompleted closing s).bpu = s.bpu ∧ (logCompleted closing s).mpa = s.mpa ∧
    (logCompleted closing s).ssc = s.ssc ∧ (logCompleted closing s).lsv = s.lsv ∧
    (logCompleted closing s).fin = s.fin ∧ (logCompleted closing s).rct = s.rct ∧
    (logCompleted closing s).mpl = s.mpl ∧ (logCompleted closing s).rfs = s.rfs ∧
    (logCompleted closing s).wen = s.wen ∧ (logCompleted closing s).hif = s.hif ∧
    (logCompleted closing s).cap = s.cap ∧ (logCompleted closing s).pld = s.pld ∧
    (logCompleted closing s).itm = s.itm ∧ (logCompleted closing s).plan = s.plan ∧
    (logCompleted closing s).cuts = s.cuts ∧ (logCompleted closing s).pending = s.pending := by
  simp [logCompleted]

@[simp] theorem takeRecordCompletion_frame (k : JobKind) (s : State) :
    (takeRecordCompletion k s).pins = s.pins ∧ (takeRecordCompletion k s).mem = s.mem ∧
    (takeRecordCompletion k s).bpu = s.bpu ∧ (takeRecordCompletion k s).mpa = s.mpa ∧
    (takeRecordCompletion k s).ssc = s.ssc ∧ (takeRecordCompletion k s).lsv = s.lsv ∧
    (takeRecordCompletion k s).fin = s.fin ∧ (takeRecordCompletion k s).rct = s.rct ∧
    (takeRecordCompletion k s).mpl = s.mpl ∧ (takeRecordCompletion k s).rfs = s.rfs ∧
    (takeRecordCompletion k s).hif = s.hif ∧ (takeRecordCompletion k s).cap = s.cap ∧
    (takeRecordCompletion k s).pld = s.pld ∧ (takeRecordCompletion k s).itm = s.itm ∧
    (takeRecordCompletion k s).plan = s.plan ∧ (takeRecordCompletion k s).cuts = s.cuts ∧
    (takeRecordCompletion k s).pending = s.pending := by
  simp [takeRecordCompletion]

/-- Taking the completions of the records leaves every block but the log and the list of completions as it is. -/
@[simp] theorem takeRecordCompletions_frame (s : State) :
    (takeRecordCompletions s).pins = s.pins ∧ (takeRecordCompletions s).mem = s.mem ∧
    (takeRecordCompletions s).bpu = s.bpu ∧ (takeRecordCompletions s).mpa = s.mpa ∧
    (takeRecordCompletions s).ssc = s.ssc ∧ (takeRecordCompletions s).lsv = s.lsv ∧
    (takeRecordCompletions s).fin = s.fin ∧ (takeRecordCompletions s).rct = s.rct ∧
    (takeRecordCompletions s).mpl = s.mpl ∧ (takeRecordCompletions s).rfs = s.rfs ∧
    (takeRecordCompletions s).hif = s.hif ∧ (takeRecordCompletions s).cap = s.cap ∧
    (takeRecordCompletions s).pld = s.pld ∧ (takeRecordCompletions s).itm = s.itm ∧
    (takeRecordCompletions s).plan = s.plan ∧ (takeRecordCompletions s).cuts = s.cuts ∧
    (takeRecordCompletions s).pending = s.pending := by
  refine ⟨foldl_frame (·.pins) _ (fun t a => by simp) _ s, foldl_frame (·.mem) _ (fun t a => by simp) _ s, foldl_frame (·.bpu) _ (fun t a => by simp) _ s, foldl_frame (·.mpa) _ (fun t a => by simp) _ s, foldl_frame (·.ssc) _ (fun t a => by simp) _ s, foldl_frame (·.lsv) _ (fun t a => by simp) _ s, foldl_frame (·.fin) _ (fun t a => by simp) _ s, foldl_frame (·.rct) _ (fun t a => by simp) _ s, foldl_frame (·.mpl) _ (fun t a => by simp) _ s, foldl_frame (·.rfs) _ (fun t a => by simp) _ s, foldl_frame (·.hif) _ (fun t a => by simp) _ s, foldl_frame (·.cap) _ (fun t a => by simp) _ s, foldl_frame (·.pld) _ (fun t a => by simp) _ s, foldl_frame (·.itm) _ (fun t a => by simp) _ s, foldl_frame (·.plan) _ (fun t a => by simp) _ s, foldl_frame (·.cuts) _ (fun t a => by simp) _ s, foldl_frame (·.pending) _ (fun t a => by simp) _ s⟩

@[simp] theorem cancelLowerJobs_frame (s : State) :
    (cancelLowerJobs s).pins = s.pins ∧ (cancelLowerJobs s).bpu = s.bpu ∧
    (cancelLowerJobs s).mpa.fair = s.mpa.fair ∧ (cancelLowerJobs s).ssc = s.ssc ∧ (cancelLowerJobs s).lsv = s.lsv ∧
    (cancelLowerJobs s).fin = s.fin ∧ (cancelLowerJobs s).rct = s.rct ∧ (cancelLowerJobs s).mpl = s.mpl ∧
    (cancelLowerJobs s).rfs = s.rfs ∧ (cancelLowerJobs s).hif = s.hif ∧ (cancelLowerJobs s).log = s.log ∧
    (cancelLowerJobs s).pld = s.pld ∧ (cancelLowerJobs s).itm = s.itm ∧ (cancelLowerJobs s).plan = s.plan ∧
    (cancelLowerJobs s).pending = s.pending := by
  simp [cancelLowerJobs]

@[simp] theorem disarmWith_frame (armRecord : Option (Word × Word × Word)) (arg : Word) (disarm : Bool) (s : State) :
    (disarmWith armRecord arg disarm s).pins = s.pins ∧
    (disarmWith armRecord arg disarm s).bpu.hostData = s.bpu.hostData ∧
    (disarmWith armRecord arg disarm s).mpa.fair = s.mpa.fair ∧
    (disarmWith armRecord arg disarm s).mpl.fitted = s.mpl.fitted ∧
    (disarmWith armRecord arg disarm s).mpl.k = s.mpl.k ∧
    (disarmWith armRecord arg disarm s).mpl.slots = s.mpl.slots ∧
    (disarmWith armRecord arg disarm s).mpl.generation = s.mpl.generation ∧
    (disarmWith armRecord arg disarm s).mpl.table = s.mpl.table ∧
    (disarmWith armRecord arg disarm s).rfs.image = s.rfs.image ∧
    (disarmWith armRecord arg disarm s).plan = s.plan ∧ (disarmWith armRecord arg disarm s).pending = s.pending := by
  simp [disarmWith]

@[simp] theorem disarm_frame (s : State) :
    (disarm s).pins = s.pins ∧ (disarm s).bpu.hostData = s.bpu.hostData ∧ (disarm s).mpa.fair = s.mpa.fair ∧
    (disarm s).mpl.fitted = s.mpl.fitted ∧ (disarm s).mpl.k = s.mpl.k ∧ (disarm s).mpl.slots = s.mpl.slots ∧
    (disarm s).mpl.generation = s.mpl.generation ∧ (disarm s).mpl.table = s.mpl.table ∧
    (disarm s).rfs.image = s.rfs.image ∧ (disarm s).plan = s.plan ∧ (disarm s).pending = s.pending := by
  simp [disarm]

@[simp] theorem endArming_frame (result : ArmResult) (slot arg : Word) (s : State) :
    (endArming result slot arg s).pins = s.pins ∧ (endArming result slot arg s).bpu.hostData = s.bpu.hostData ∧
    (endArming result slot arg s).mpa.fair = s.mpa.fair ∧ (endArming result slot arg s).mpl.fitted = s.mpl.fitted ∧
    (endArming result slot arg s).mpl.k = s.mpl.k ∧ (endArming result slot arg s).mpl.slots = s.mpl.slots ∧
    (endArming result slot arg s).mpl.generation = s.mpl.generation ∧
    (endArming result slot arg s).mpl.table = s.mpl.table ∧ (endArming result slot arg s).rfs.image = s.rfs.image ∧
    (endArming result slot arg s).plan = s.plan ∧ (endArming result slot arg s).pending = s.pending := by
  simp [endArming]

@[simp] theorem submitRelease_frame (s : State) :
    (submitRelease s).pins = s.pins ∧ (submitRelease s).mem = s.mem ∧ (submitRelease s).bpu = s.bpu ∧
    (submitRelease s).mpa = s.mpa ∧ (submitRelease s).ssc = s.ssc ∧ (submitRelease s).lsv = s.lsv ∧
    (submitRelease s).fin = s.fin ∧ (submitRelease s).rct = s.rct ∧ (submitRelease s).mpl = s.mpl ∧
    (submitRelease s).rfs.image = s.rfs.image ∧ (submitRelease s).rfs.amplitudeMark = s.rfs.amplitudeMark ∧
    (submitRelease s).rfs.angleMark = s.rfs.angleMark ∧ (submitRelease s).rfs.aux = s.rfs.aux ∧
    (submitRelease s).hif = s.hif ∧ (submitRelease s).cap = s.cap ∧ (submitRelease s).log = s.log ∧
    (submitRelease s).pld = s.pld ∧ (submitRelease s).itm = s.itm ∧ (submitRelease s).plan = s.plan ∧
    (submitRelease s).cuts = s.cuts ∧ (submitRelease s).pending = s.pending := by
  simp [submitRelease]

@[simp] theorem enterResuming_frame (s : State) :
    (enterResuming s).pins = s.pins ∧ (enterResuming s).mem = s.mem ∧ (enterResuming s).bpu.isOpen = s.bpu.isOpen ∧
    (enterResuming s).bpu.deliveries = s.bpu.deliveries ∧ (enterResuming s).bpu.hostData = s.bpu.hostData ∧
    (enterResuming s).mpa = s.mpa ∧ (enterResuming s).ssc = s.ssc ∧ (enterResuming s).lsv = s.lsv ∧
    (enterResuming s).fin = s.fin ∧ (enterResuming s).mpl.fitted = s.mpl.fitted ∧
    (enterResuming s).mpl.k = s.mpl.k ∧ (enterResuming s).mpl.slots = s.mpl.slots ∧
    (enterResuming s).mpl.generation = s.mpl.generation ∧ (enterResuming s).mpl.table = s.mpl.table ∧
    (enterResuming s).rfs.image = s.rfs.image ∧ (enterResuming s).rfs.amplitudeMark = s.rfs.amplitudeMark ∧
    (enterResuming s).rfs.angleMark = s.rfs.angleMark ∧ (enterResuming s).rfs.aux = s.rfs.aux ∧
    (enterResuming s).cap = s.cap ∧ (enterResuming s).pld = s.pld ∧ (enterResuming s).itm = s.itm ∧
    (enterResuming s).plan = s.plan ∧ (enterResuming s).cuts = s.cuts ∧ (enterResuming s).pending = s.pending := by
  simp [enterResuming]

@[simp] theorem testAwaiting_frame (s : State) :
    (testAwaiting s).pins = s.pins ∧ (testAwaiting s).mem = s.mem ∧ (testAwaiting s).bpu.isOpen = s.bpu.isOpen ∧
    (testAwaiting s).bpu.deliveries = s.bpu.deliveries ∧ (testAwaiting s).bpu.hostData = s.bpu.hostData ∧
    (testAwaiting s).mpa = s.mpa ∧ (testAwaiting s).ssc = s.ssc ∧ (testAwaiting s).lsv = s.lsv ∧
    (testAwaiting s).fin = s.fin ∧ (testAwaiting s).mpl.fitted = s.mpl.fitted ∧ (testAwaiting s).mpl.k = s.mpl.k ∧
    (testAwaiting s).mpl.slots = s.mpl.slots ∧ (testAwaiting s).mpl.generation = s.mpl.generation ∧
    (testAwaiting s).mpl.table = s.mpl.table ∧ (testAwaiting s).rfs.image = s.rfs.image ∧
    (testAwaiting s).rfs.amplitudeMark = s.rfs.amplitudeMark ∧ (testAwaiting s).rfs.angleMark = s.rfs.angleMark ∧
    (testAwaiting s).rfs.aux = s.rfs.aux ∧ (testAwaiting s).cap = s.cap ∧ (testAwaiting s).pld = s.pld ∧
    (testAwaiting s).itm = s.itm ∧ (testAwaiting s).plan = s.plan ∧ (testAwaiting s).cuts = s.cuts ∧
    (testAwaiting s).pending = s.pending := by
  simp only [testAwaiting, ite_state, ite_bpu, ite_mpl, ite_rfs, ite_mpa]
  simp [ite_state, ite_bpu, ite_mpl, ite_rfs, ite_mpa]

@[simp] theorem startAwaiting_frame (reason : Word) (s : State) :
    (startAwaiting reason s).pins = s.pins ∧ (startAwaiting reason s).mem = s.mem ∧
    (startAwaiting reason s).bpu.isOpen = s.bpu.isOpen ∧
    (startAwaiting reason s).bpu.deliveries = s.bpu.deliveries ∧
    (startAwaiting reason s).bpu.hostData = s.bpu.hostData ∧ (startAwaiting reason s).mpa = s.mpa ∧
    (startAwaiting reason s).ssc = s.ssc ∧ (startAwaiting reason s).lsv = s.lsv ∧
    (startAwaiting reason s).fin = s.fin ∧ (startAwaiting reason s).mpl.fitted = s.mpl.fitted ∧
    (startAwaiting reason s).mpl.k = s.mpl.k ∧ (startAwaiting reason s).mpl.slots = s.mpl.slots ∧
    (startAwaiting reason s).mpl.generation = s.mpl.generation ∧ (startAwaiting reason s).mpl.table = s.mpl.table ∧
    (startAwaiting reason s).rfs = s.rfs ∧ (startAwaiting reason s).cap = s.cap ∧
    (startAwaiting reason s).pld = s.pld ∧ (startAwaiting reason s).itm = s.itm ∧
    (startAwaiting reason s).plan = s.plan ∧ (startAwaiting reason s).cuts = s.cuts ∧
    (startAwaiting reason s).pending = s.pending := by
  simp [startAwaiting]

@[simp] theorem enterAwaiting_frame (reason : Word) (s : State) :
    (enterAwaiting reason s).pins = s.pins ∧ (enterAwaiting reason s).mem = s.mem ∧
    (enterAwaiting reason s).bpu.isOpen = s.bpu.isOpen ∧
    (enterAwaiting reason s).bpu.deliveries = s.bpu.deliveries ∧
    (enterAwaiting reason s).bpu.hostData = s.bpu.hostData ∧ (enterAwaiting reason s).mpa = s.mpa ∧
    (enterAwaiting reason s).ssc = s.ssc ∧ (enterAwaiting reason s).lsv = s.lsv ∧
    (enterAwaiting reason s).fin = s.fin ∧ (enterAwaiting reason s).mpl.fitted = s.mpl.fitted ∧
    (enterAwaiting reason s).mpl.k = s.mpl.k ∧ (enterAwaiting reason s).mpl.slots = s.mpl.slots ∧
    (enterAwaiting reason s).mpl.generation = s.mpl.generation ∧ (enterAwaiting reason s).mpl.table = s.mpl.table ∧
    (enterAwaiting reason s).rfs.image = s.rfs.image ∧
    (enterAwaiting reason s).rfs.amplitudeMark = s.rfs.amplitudeMark ∧
    (enterAwaiting reason s).rfs.angleMark = s.rfs.angleMark ∧ (enterAwaiting reason s).rfs.aux = s.rfs.aux ∧
    (enterAwaiting reason s).cap = s.cap ∧ (enterAwaiting reason s).pld = s.pld ∧
    (enterAwaiting reason s).itm = s.itm ∧ (enterAwaiting reason s).plan = s.plan ∧
    (enterAwaiting reason s).cuts = s.cuts ∧ (enterAwaiting reason s).pending = s.pending := by
  simp [enterAwaiting]

@[simp] theorem finishArming_frame (s : State) :
    (finishArming s).pins = s.pins ∧ (finishArming s).bpu.isOpen = s.bpu.isOpen ∧
    (finishArming s).bpu.deliveries = s.bpu.deliveries ∧ (finishArming s).bpu.hostData = s.bpu.hostData ∧
    (finishArming s).mpa.fair = s.mpa.fair ∧ (finishArming s).ssc = s.ssc ∧ (finishArming s).lsv = s.lsv ∧
    (finishArming s).mpl.fitted = s.mpl.fitted ∧ (finishArming s).mpl.k = s.mpl.k ∧
    (finishArming s).mpl.slots = s.mpl.slots ∧ (finishArming s).mpl.generation = s.mpl.generation ∧
    (finishArming s).mpl.table = s.mpl.table ∧ (finishArming s).rfs.image = s.rfs.image ∧
    (finishArming s).rfs.amplitudeMark = s.rfs.amplitudeMark ∧ (finishArming s).rfs.angleMark = s.rfs.angleMark ∧
    (finishArming s).rfs.aux = s.rfs.aux ∧ (finishArming s).cap = s.cap ∧ (finishArming s).pld = s.pld ∧
    (finishArming s).itm = s.itm ∧ (finishArming s).plan = s.plan ∧ (finishArming s).pending = s.pending := by
  simp only [finishArming, ite_state, ite_bpu, ite_mpl, ite_rfs, ite_mpa]
  simp [ite_state, ite_bpu, ite_mpl, ite_rfs, ite_mpa]

@[simp] theorem enterRecharging_frame (s : State) :
    (enterRecharging s).pins = s.pins ∧ (enterRecharging s).mem = s.mem ∧
    (enterRecharging s).bpu.isOpen = s.bpu.isOpen ∧ (enterRecharging s).bpu.deliveries = s.bpu.deliveries ∧
    (enterRecharging s).bpu.hostData = s.bpu.hostData ∧ (enterRecharging s).mpa = s.mpa ∧
    (enterRecharging s).ssc = s.ssc ∧ (enterRecharging s).lsv = s.lsv ∧ (enterRecharging s).fin = s.fin ∧
    (enterRecharging s).mpl.fitted = s.mpl.fitted ∧ (enterRecharging s).mpl.k = s.mpl.k ∧
    (enterRecharging s).mpl.slots = s.mpl.slots ∧ (enterRecharging s).mpl.generation = s.mpl.generation ∧
    (enterRecharging s).mpl.table = s.mpl.table ∧ (enterRecharging s).rfs = s.rfs ∧
    (enterRecharging s).cap = s.cap ∧ (enterRecharging s).pld = s.pld ∧ (enterRecharging s).itm = s.itm ∧
    (enterRecharging s).plan = s.plan ∧ (enterRecharging s).cuts = s.cuts ∧ (enterRecharging s).pending = s.pending := by
  simp [enterRecharging]

@[simp] theorem enterVerifying_frame (s : State) :
    (enterVerifying s).pins = s.pins ∧ (enterVerifying s).mem = s.mem ∧
    (enterVerifying s).bpu.isOpen = s.bpu.isOpen ∧ (enterVerifying s).bpu.deliveries = s.bpu.deliveries ∧
    (enterVerifying s).bpu.hostData = s.bpu.hostData ∧ (enterVerifying s).mpa = s.mpa ∧
    (enterVerifying s).ssc = s.ssc ∧ (enterVerifying s).lsv = s.lsv ∧ (enterVerifying s).fin = s.fin ∧
    (enterVerifying s).mpl.fitted = s.mpl.fitted ∧ (enterVerifying s).mpl.k = s.mpl.k ∧
    (enterVerifying s).mpl.slots = s.mpl.slots ∧ (enterVerifying s).mpl.generation = s.mpl.generation ∧
    (enterVerifying s).mpl.table = s.mpl.table ∧ (enterVerifying s).rfs = s.rfs ∧ (enterVerifying s).cap = s.cap ∧
    (enterVerifying s).pld = s.pld ∧ (enterVerifying s).itm = s.itm ∧ (enterVerifying s).plan = s.plan ∧
    (enterVerifying s).cuts = s.cuts ∧ (enterVerifying s).pending = s.pending := by
  simp [enterVerifying]

@[simp] theorem afterRun_frame (s : State) :
    (afterRun s).pins = s.pins ∧ (afterRun s).bpu.isOpen = s.bpu.isOpen ∧
    (afterRun s).bpu.deliveries = s.bpu.deliveries ∧ (afterRun s).bpu.hostData = s.bpu.hostData ∧
    (afterRun s).mpa.fair = s.mpa.fair ∧ (afterRun s).ssc = s.ssc ∧ (afterRun s).lsv = s.lsv ∧
    (afterRun s).mpl.fitted = s.mpl.fitted ∧ (afterRun s).mpl.k = s.mpl.k ∧ (afterRun s).mpl.slots = s.mpl.slots ∧
    (afterRun s).mpl.generation = s.mpl.generation ∧ (afterRun s).mpl.table = s.mpl.table ∧
    (afterRun s).rfs.image = s.rfs.image ∧ (afterRun s).rfs.amplitudeMark = s.rfs.amplitudeMark ∧
    (afterRun s).rfs.angleMark = s.rfs.angleMark ∧ (afterRun s).rfs.aux = s.rfs.aux ∧ (afterRun s).cap = s.cap ∧
    (afterRun s).pld = s.pld ∧ (afterRun s).itm = s.itm ∧ (afterRun s).plan = s.plan ∧
    (afterRun s).pending = s.pending := by
  unfold afterRun; (repeat' split) <;> simp [ite_state, ite_bpu, ite_mpl, ite_rfs, ite_mpa]

@[simp] theorem enterIsolating_frame (s : State) :
    (enterIsolating s).pins = s.pins ∧ (enterIsolating s).bpu.isOpen = s.bpu.isOpen ∧
    (enterIsolating s).bpu.deliveries = s.bpu.deliveries ∧ (enterIsolating s).bpu.hostData = s.bpu.hostData ∧
    (enterIsolating s).mpa.fair = s.mpa.fair ∧ (enterIsolating s).ssc = s.ssc ∧ (enterIsolating s).lsv = s.lsv ∧
    (enterIsolating s).mpl.fitted = s.mpl.fitted ∧ (enterIsolating s).mpl.k = s.mpl.k ∧
    (enterIsolating s).mpl.table = s.mpl.table ∧ (enterIsolating s).rfs.image = s.rfs.image ∧
    (enterIsolating s).rfs.amplitudeMark = s.rfs.amplitudeMark ∧
    (enterIsolating s).rfs.angleMark = s.rfs.angleMark ∧ (enterIsolating s).rfs.aux = s.rfs.aux ∧
    (enterIsolating s).cap = s.cap ∧ (enterIsolating s).pld = s.pld ∧ (enterIsolating s).itm = s.itm ∧
    (enterIsolating s).plan = s.plan ∧ (enterIsolating s).pending = s.pending := by
  simp [enterIsolating]

@[simp] theorem takeScanEnd_frame (s : State) :
    (takeScanEnd s).pins = s.pins ∧ (takeScanEnd s).mem = s.mem ∧ (takeScanEnd s).bpu = s.bpu ∧
    (takeScanEnd s).mpa = s.mpa ∧ (takeScanEnd s).ssc = s.ssc ∧ (takeScanEnd s).lsv = s.lsv ∧
    (takeScanEnd s).fin = s.fin ∧ (takeScanEnd s).mpl = s.mpl ∧ (takeScanEnd s).rfs = s.rfs ∧
    (takeScanEnd s).wen = s.wen ∧ (takeScanEnd s).hif = s.hif ∧ (takeScanEnd s).cap = s.cap ∧
    (takeScanEnd s).log = s.log ∧ (takeScanEnd s).pld = s.pld ∧ (takeScanEnd s).itm = s.itm ∧
    (takeScanEnd s).plan = s.plan ∧ (takeScanEnd s).cuts = s.cuts ∧ (takeScanEnd s).pending = s.pending := by
  simp [takeScanEnd]

@[simp] theorem identificationReport_frame (expired : Bool) (s : State) :
    (identificationReport expired s).pins = s.pins ∧ (identificationReport expired s).bpu.isOpen = s.bpu.isOpen ∧
    (identificationReport expired s).bpu.deliveries = s.bpu.deliveries ∧
    (identificationReport expired s).bpu.hostData = s.bpu.hostData ∧
    (identificationReport expired s).mpa.fair = s.mpa.fair ∧ (identificationReport expired s).ssc = s.ssc ∧
    (identificationReport expired s).lsv = s.lsv ∧ (identificationReport expired s).mpl.fitted = s.mpl.fitted ∧
    (identificationReport expired s).mpl.k = s.mpl.k ∧ (identificationReport expired s).mpl.table = s.mpl.table ∧
    (identificationReport expired s).rfs.image = s.rfs.image ∧
    (identificationReport expired s).rfs.amplitudeMark = s.rfs.amplitudeMark ∧
    (identificationReport expired s).rfs.angleMark = s.rfs.angleMark ∧
    (identificationReport expired s).rfs.aux = s.rfs.aux ∧ (identificationReport expired s).cap = s.cap ∧
    (identificationReport expired s).pld = s.pld ∧ (identificationReport expired s).itm = s.itm ∧
    (identificationReport expired s).plan = s.plan ∧ (identificationReport expired s).pending = s.pending := by
  simp only [identificationReport, ite_state, ite_bpu, ite_mpl, ite_rfs, ite_mpa]
  simp [ite_state, ite_bpu, ite_mpl, ite_rfs, ite_mpa]

@[simp] theorem enterNormal_frame (s : State) :
    (enterNormal s).pins = s.pins ∧ (enterNormal s).mem = s.mem ∧ (enterNormal s).bpu.isOpen = s.bpu.isOpen ∧
    (enterNormal s).bpu.deliveries = s.bpu.deliveries ∧ (enterNormal s).bpu.hostData = s.bpu.hostData ∧
    (enterNormal s).mpa = s.mpa ∧ (enterNormal s).ssc = s.ssc ∧ (enterNormal s).lsv = s.lsv ∧
    (enterNormal s).fin = s.fin ∧ (enterNormal s).mpl.fitted = s.mpl.fitted ∧ (enterNormal s).mpl.k = s.mpl.k ∧
    (enterNormal s).mpl.slots = s.mpl.slots ∧ (enterNormal s).mpl.generation = s.mpl.generation ∧
    (enterNormal s).mpl.table = s.mpl.table ∧ (enterNormal s).rfs = s.rfs ∧ (enterNormal s).cap = s.cap ∧
    (enterNormal s).pld = s.pld ∧ (enterNormal s).itm = s.itm ∧ (enterNormal s).plan = s.plan ∧
    (enterNormal s).cuts = s.cuts ∧ (enterNormal s).pending = s.pending := by
  simp [enterNormal]

@[simp] theorem enterProving_frame (s : State) :
    (enterProving s).pins = s.pins ∧ (enterProving s).bpu.isOpen = s.bpu.isOpen ∧
    (enterProving s).bpu.deliveries = s.bpu.deliveries ∧ (enterProving s).bpu.hostData = s.bpu.hostData ∧
    (enterProving s).mpa.fair = s.mpa.fair ∧ (enterProving s).ssc = s.ssc ∧ (enterProving s).lsv = s.lsv ∧
    (enterProving s).mpl.fitted = s.mpl.fitted ∧ (enterProving s).mpl.k = s.mpl.k ∧
    (enterProving s).mpl.slots = s.mpl.slots ∧ (enterProving s).mpl.generation = s.mpl.generation ∧
    (enterProving s).mpl.table = s.mpl.table ∧ (enterProving s).rfs.image = s.rfs.image ∧
    (enterProving s).rfs.amplitudeMark = s.rfs.amplitudeMark ∧ (enterProving s).rfs.angleMark = s.rfs.angleMark ∧
    (enterProving s).rfs.aux = s.rfs.aux ∧ (enterProving s).cap = s.cap ∧ (enterProving s).pld = s.pld ∧
    (enterProving s).itm = s.itm ∧ (enterProving s).plan = s.plan ∧ (enterProving s).pending = s.pending := by
  simp only [enterProving, ite_state, ite_bpu, ite_mpl, ite_rfs, ite_mpa]
  simp [ite_state, ite_bpu, ite_mpl, ite_rfs, ite_mpa]

@[simp] theorem releaseCompleted_frame (s : State) :
    (releaseCompleted s).pins = s.pins ∧ (releaseCompleted s).bpu.isOpen = s.bpu.isOpen ∧
    (releaseCompleted s).bpu.deliveries = s.bpu.deliveries ∧ (releaseCompleted s).bpu.hostData = s.bpu.hostData ∧
    (releaseCompleted s).mpa.fair = s.mpa.fair ∧ (releaseCompleted s).ssc = s.ssc ∧
    (releaseCompleted s).lsv = s.lsv ∧ (releaseCompleted s).mpl.fitted = s.mpl.fitted ∧
    (releaseCompleted s).mpl.k = s.mpl.k ∧ (releaseCompleted s).mpl.slots = s.mpl.slots ∧
    (releaseCompleted s).mpl.generation = s.mpl.generation ∧ (releaseCompleted s).mpl.table = s.mpl.table ∧
    (releaseCompleted s).rfs.image = s.rfs.image ∧ (releaseCompleted s).rfs.amplitudeMark = s.rfs.amplitudeMark ∧
    (releaseCompleted s).rfs.angleMark = s.rfs.angleMark ∧ (releaseCompleted s).rfs.aux = s.rfs.aux ∧
    (releaseCompleted s).cap = s.cap ∧ (releaseCompleted s).pld = s.pld ∧ (releaseCompleted s).itm = s.itm ∧
    (releaseCompleted s).plan = s.plan ∧ (releaseCompleted s).pending = s.pending := by
  refine ⟨?_, ?_, ?_, ?_, ?_, ?_, ?_, ?_, ?_, ?_, ?_, ?_, ?_, ?_, ?_, ?_, ?_, ?_, ?_, ?_, ?_⟩ <;>
    (simp only [releaseCompleted, ite_state, ite_bpu, ite_mpl, ite_rfs, ite_mpa]; (repeat' split) <;> simp [ite_state, ite_bpu, ite_mpl, ite_rfs, ite_mpa])

@[simp] theorem returnToAwaiting_frame (reason : Word) (s : State) :
    (returnToAwaiting reason s).pins = s.pins ∧ (returnToAwaiting reason s).bpu.isOpen = s.bpu.isOpen ∧
    (returnToAwaiting reason s).bpu.deliveries = s.bpu.deliveries ∧
    (returnToAwaiting reason s).bpu.hostData = s.bpu.hostData ∧ (returnToAwaiting reason s).mpa.fair = s.mpa.fair ∧
    (returnToAwaiting reason s).ssc = s.ssc ∧ (returnToAwaiting reason s).lsv = s.lsv ∧
    (returnToAwaiting reason s).fin = s.fin ∧ (returnToAwaiting reason s).mpl.fitted = s.mpl.fitted ∧
    (returnToAwaiting reason s).mpl.k = s.mpl.k ∧ (returnToAwaiting reason s).mpl.slots = s.mpl.slots ∧
    (returnToAwaiting reason s).mpl.generation = s.mpl.generation ∧
    (returnToAwaiting reason s).mpl.table = s.mpl.table ∧ (returnToAwaiting reason s).rfs.image = s.rfs.image ∧
    (returnToAwaiting reason s).rfs.amplitudeMark = s.rfs.amplitudeMark ∧
    (returnToAwaiting reason s).rfs.angleMark = s.rfs.angleMark ∧ (returnToAwaiting reason s).rfs.aux = s.rfs.aux ∧
    (returnToAwaiting reason s).cap = s.cap ∧ (returnToAwaiting reason s).pld = s.pld ∧
    (returnToAwaiting reason s).itm = s.itm ∧ (returnToAwaiting reason s).plan = s.plan ∧
    (returnToAwaiting reason s).pending = s.pending := by
  simp [returnToAwaiting]

@[simp] theorem stalenessEvent_frame (s : State) :
    (stalenessEvent s).pins = s.pins ∧ (stalenessEvent s).bpu.isOpen = s.bpu.isOpen ∧
    (stalenessEvent s).bpu.deliveries = s.bpu.deliveries ∧ (stalenessEvent s).bpu.hostData = s.bpu.hostData ∧
    (stalenessEvent s).mpa.fair = s.mpa.fair ∧ (stalenessEvent s).ssc = s.ssc ∧ (stalenessEvent s).lsv = s.lsv ∧
    (stalenessEvent s).mpl.fitted = s.mpl.fitted ∧ (stalenessEvent s).mpl.k = s.mpl.k ∧
    (stalenessEvent s).mpl.slots = s.mpl.slots ∧ (stalenessEvent s).mpl.generation = s.mpl.generation ∧
    (stalenessEvent s).mpl.table = s.mpl.table ∧ (stalenessEvent s).rfs.image = s.rfs.image ∧
    (stalenessEvent s).rfs.amplitudeMark = s.rfs.amplitudeMark ∧
    (stalenessEvent s).rfs.angleMark = s.rfs.angleMark ∧ (stalenessEvent s).rfs.aux = s.rfs.aux ∧
    (stalenessEvent s).cap = s.cap ∧ (stalenessEvent s).pld = s.pld ∧ (stalenessEvent s).itm = s.itm ∧
    (stalenessEvent s).plan = s.plan ∧ (stalenessEvent s).pending = s.pending := by
  unfold stalenessEvent; (repeat' split) <;> simp [ite_state, ite_bpu, ite_mpl, ite_rfs, ite_mpa]

@[simp] theorem directionChanged_frame (s : State) :
    (directionChanged s).pins = s.pins ∧ (directionChanged s).bpu.isOpen = s.bpu.isOpen ∧
    (directionChanged s).bpu.deliveries = s.bpu.deliveries ∧ (directionChanged s).bpu.hostData = s.bpu.hostData ∧
    (directionChanged s).mpa.fair = s.mpa.fair ∧ (directionChanged s).ssc = s.ssc ∧
    (directionChanged s).lsv = s.lsv ∧ (directionChanged s).fin = s.fin ∧
    (directionChanged s).mpl.fitted = s.mpl.fitted ∧ (directionChanged s).mpl.k = s.mpl.k ∧
    (directionChanged s).mpl.slots = s.mpl.slots ∧ (directionChanged s).mpl.generation = s.mpl.generation ∧
    (directionChanged s).mpl.table = s.mpl.table ∧ (directionChanged s).rfs.image = s.rfs.image ∧
    (directionChanged s).rfs.aux = s.rfs.aux ∧ (directionChanged s).cap = s.cap ∧ (directionChanged s).pld = s.pld ∧
    (directionChanged s).itm = s.itm ∧ (directionChanged s).plan = s.plan ∧ (directionChanged s).pending = s.pending := by
  unfold directionChanged; (repeat' split) <;> simp [ite_state, ite_bpu, ite_mpl, ite_rfs, ite_mpa]

@[simp] theorem directionWrite_frame (d : Direction) (s : State) :
    (directionWrite d s).pins = s.pins ∧ (directionWrite d s).bpu.isOpen = s.bpu.isOpen ∧
    (directionWrite d s).bpu.deliveries = s.bpu.deliveries ∧ (directionWrite d s).bpu.hostData = s.bpu.hostData ∧
    (directionWrite d s).mpa.fair = s.mpa.fair ∧ (directionWrite d s).ssc = s.ssc ∧
    (directionWrite d s).lsv = s.lsv ∧ (directionWrite d s).fin = s.fin ∧
    (directionWrite d s).mpl.fitted = s.mpl.fitted ∧ (directionWrite d s).mpl.k = s.mpl.k ∧
    (directionWrite d s).mpl.slots = s.mpl.slots ∧ (directionWrite d s).mpl.generation = s.mpl.generation ∧
    (directionWrite d s).mpl.table = s.mpl.table ∧ (directionWrite d s).rfs.image = s.rfs.image ∧
    (directionWrite d s).rfs.aux = s.rfs.aux ∧ (directionWrite d s).cap = s.cap ∧ (directionWrite d s).pld = s.pld ∧
    (directionWrite d s).itm = s.itm ∧ (directionWrite d s).plan = s.plan ∧ (directionWrite d s).pending = s.pending := by
  simp only [directionWrite, ite_state, ite_bpu, ite_mpl, ite_rfs, ite_mpa]
  simp [ite_state, ite_bpu, ite_mpl, ite_rfs, ite_mpa]

@[simp] theorem faultEvent_frame (i : Slot) (f : PendingFault) (s : State) :
    (faultEvent i f s).pins = s.pins ∧ (faultEvent i f s).bpu.hostData = s.bpu.hostData ∧
    (faultEvent i f s).mpa.fair = s.mpa.fair ∧ (faultEvent i f s).mpl.fitted = s.mpl.fitted ∧
    (faultEvent i f s).mpl.k = s.mpl.k ∧ (faultEvent i f s).mpl.slots = s.mpl.slots ∧
    (faultEvent i f s).mpl.generation = s.mpl.generation ∧ (faultEvent i f s).mpl.table = s.mpl.table ∧
    (faultEvent i f s).rfs.image = s.rfs.image ∧ (faultEvent i f s).plan = s.plan ∧
    (faultEvent i f s).pending = s.pending := by
  unfold faultEvent; (repeat' split) <;> simp [ite_state, ite_bpu, ite_mpl, ite_rfs, ite_mpa]

@[simp] theorem lineEvent_frame (p : Phase) (s : State) :
    (lineEvent p s).pins = s.pins ∧ (lineEvent p s).bpu.hostData = s.bpu.hostData ∧
    (lineEvent p s).mpa.fair = s.mpa.fair ∧ (lineEvent p s).mpl.fitted = s.mpl.fitted ∧
    (lineEvent p s).mpl.k = s.mpl.k ∧ (lineEvent p s).mpl.slots = s.mpl.slots ∧
    (lineEvent p s).mpl.generation = s.mpl.generation ∧ (lineEvent p s).mpl.table = s.mpl.table ∧
    (lineEvent p s).rfs.image = s.rfs.image ∧ (lineEvent p s).plan = s.plan ∧ (lineEvent p s).pending = s.pending := by
  unfold lineEvent; (repeat' split) <;> simp [ite_state, ite_bpu, ite_mpl, ite_rfs, ite_mpa]

@[simp] theorem recordFault_frame (i : Slot) (code : Nat) (s : State) :
    (recordFault i code s).pins = s.pins ∧ (recordFault i code s).mem = s.mem ∧ (recordFault i code s).bpu = s.bpu ∧
    (recordFault i code s).mpa = s.mpa ∧ (recordFault i code s).ssc = s.ssc ∧ (recordFault i code s).lsv = s.lsv ∧
    (recordFault i code s).rct = s.rct ∧ (recordFault i code s).mpl = s.mpl ∧ (recordFault i code s).rfs = s.rfs ∧
    (recordFault i code s).hif = s.hif ∧ (recordFault i code s).cap = s.cap ∧ (recordFault i code s).pld = s.pld ∧
    (recordFault i code s).itm = s.itm ∧ (recordFault i code s).plan = s.plan ∧
    (recordFault i code s).cuts = s.cuts ∧ (recordFault i code s).pending = s.pending := by
  simp [recordFault]

@[simp] theorem takeFault_frame (i : Slot) (code : Nat) (s : State) :
    (takeFault i code s).pins = s.pins ∧ (takeFault i code s).bpu.hostData = s.bpu.hostData ∧
    (takeFault i code s).mpa.fair = s.mpa.fair ∧ (takeFault i code s).mpl.fitted = s.mpl.fitted ∧
    (takeFault i code s).mpl.k = s.mpl.k ∧ (takeFault i code s).mpl.table = s.mpl.table ∧
    (takeFault i code s).rfs.image = s.rfs.image ∧ (takeFault i code s).plan = s.plan ∧
    (takeFault i code s).pending = s.pending := by
  simp only [takeFault, ite_state, ite_bpu, ite_mpl, ite_rfs, ite_mpa]
  simp [ite_state, ite_bpu, ite_mpl, ite_rfs, ite_mpa]

@[simp] theorem takeFault_fold_frame (code : Nat) (l : List Slot) (s : State) :
    (l.foldl (fun t i => takeFault i code t) s).pins = s.pins ∧
    (l.foldl (fun t i => takeFault i code t) s).bpu.hostData = s.bpu.hostData ∧
    (l.foldl (fun t i => takeFault i code t) s).mpa.fair = s.mpa.fair ∧
    (l.foldl (fun t i => takeFault i code t) s).mpl.fitted = s.mpl.fitted ∧
    (l.foldl (fun t i => takeFault i code t) s).mpl.k = s.mpl.k ∧
    (l.foldl (fun t i => takeFault i code t) s).mpl.table = s.mpl.table ∧
    (l.foldl (fun t i => takeFault i code t) s).rfs.image = s.rfs.image ∧
    (l.foldl (fun t i => takeFault i code t) s).plan = s.plan ∧
    (l.foldl (fun t i => takeFault i code t) s).pending = s.pending := by
  refine ⟨foldl_frame (·.pins) _ (fun t a => by simp) l s, foldl_frame (·.bpu.hostData) _ (fun t a => by simp) l s, foldl_frame (·.mpa.fair) _ (fun t a => by simp) l s, foldl_frame (·.mpl.fitted) _ (fun t a => by simp) l s, foldl_frame (·.mpl.k) _ (fun t a => by simp) l s, foldl_frame (·.mpl.table) _ (fun t a => by simp) l s, foldl_frame (·.rfs.image) _ (fun t a => by simp) l s, foldl_frame (·.plan) _ (fun t a => by simp) l s, foldl_frame (·.pending) _ (fun t a => by simp) l s⟩

@[simp] theorem statusReport_frame (i : Slot) (cell code : Word) (s : State) :
    (statusReport i cell code s).pins = s.pins ∧ (statusReport i cell code s).bpu.hostData = s.bpu.hostData ∧
    (statusReport i cell code s).mpa.fair = s.mpa.fair ∧ (statusReport i cell code s).mpl.fitted = s.mpl.fitted ∧
    (statusReport i cell code s).mpl.k = s.mpl.k ∧ (statusReport i cell code s).mpl.table = s.mpl.table ∧
    (statusReport i cell code s).rfs.image = s.rfs.image ∧ (statusReport i cell code s).plan = s.plan ∧
    (statusReport i cell code s).pending = s.pending := by
  unfold statusReport; (repeat' split) <;> simp [ite_state, ite_bpu, ite_mpl, ite_rfs, ite_mpa]

@[simp] theorem takeFaults_frame (slots : List Slot) (code : Nat) (s : State) :
    (takeFaults slots code s).pins = s.pins ∧ (takeFaults slots code s).bpu.hostData = s.bpu.hostData ∧
    (takeFaults slots code s).mpa.fair = s.mpa.fair ∧ (takeFaults slots code s).mpl.fitted = s.mpl.fitted ∧
    (takeFaults slots code s).mpl.k = s.mpl.k ∧ (takeFaults slots code s).mpl.table = s.mpl.table ∧
    (takeFaults slots code s).rfs.image = s.rfs.image ∧ (takeFaults slots code s).plan = s.plan ∧
    (takeFaults slots code s).pending = s.pending := by
  simp [takeFaults]

@[simp] theorem newRequest_frame (p : Phase) (s : State) :
    (newRequest p s).pins = s.pins ∧ (newRequest p s).bpu.hostData = s.bpu.hostData ∧
    (newRequest p s).mpa.fair = s.mpa.fair ∧ (newRequest p s).mpl.fitted = s.mpl.fitted ∧
    (newRequest p s).mpl.k = s.mpl.k ∧ (newRequest p s).mpl.slots = s.mpl.slots ∧
    (newRequest p s).mpl.generation = s.mpl.generation ∧ (newRequest p s).mpl.table = s.mpl.table ∧
    (newRequest p s).rfs.image = s.rfs.image ∧ (newRequest p s).plan = s.plan ∧ (newRequest p s).pending = s.pending := by
  simp only [newRequest, ite_state, ite_bpu, ite_mpl, ite_rfs, ite_mpa]
  simp [ite_state, ite_bpu, ite_mpl, ite_rfs, ite_mpa]

@[simp] theorem takeLevel_frame (p : Phase) (level : Bool) (s : State) :
    (takeLevel p level s).pins = s.pins ∧ (takeLevel p level s).bpu.hostData = s.bpu.hostData ∧
    (takeLevel p level s).mpa.fair = s.mpa.fair ∧ (takeLevel p level s).mpl.fitted = s.mpl.fitted ∧
    (takeLevel p level s).mpl.k = s.mpl.k ∧ (takeLevel p level s).mpl.slots = s.mpl.slots ∧
    (takeLevel p level s).mpl.generation = s.mpl.generation ∧ (takeLevel p level s).mpl.table = s.mpl.table ∧
    (takeLevel p level s).rfs.image = s.rfs.image ∧ (takeLevel p level s).plan = s.plan ∧
    (takeLevel p level s).pending = s.pending := by
  simp only [takeLevel, ite_state, ite_bpu, ite_mpl, ite_rfs, ite_mpa]
  simp [ite_state, ite_bpu, ite_mpl, ite_rfs, ite_mpa]

@[simp] theorem lineTransition_frame (p : Phase) (level : Bool) (s : State) :
    (lineTransition p level s).bpu.hostData = s.bpu.hostData ∧ (lineTransition p level s).mpa.fair = s.mpa.fair ∧
    (lineTransition p level s).mpl.fitted = s.mpl.fitted ∧ (lineTransition p level s).mpl.k = s.mpl.k ∧
    (lineTransition p level s).mpl.slots = s.mpl.slots ∧
    (lineTransition p level s).mpl.generation = s.mpl.generation ∧
    (lineTransition p level s).mpl.table = s.mpl.table ∧ (lineTransition p level s).rfs.image = s.rfs.image ∧
    (lineTransition p level s).plan = s.plan ∧ (lineTransition p level s).pending = s.pending := by
  simp only [lineTransition, ite_state, ite_bpu, ite_mpl, ite_rfs, ite_mpa]
  simp [ite_state, ite_bpu, ite_mpl, ite_rfs, ite_mpa]

@[simp] theorem takeIdentExpiry_frame (s : State) :
    (takeIdentExpiry s).pins = s.pins ∧ (takeIdentExpiry s).bpu.isOpen = s.bpu.isOpen ∧
    (takeIdentExpiry s).bpu.deliveries = s.bpu.deliveries ∧ (takeIdentExpiry s).bpu.hostData = s.bpu.hostData ∧
    (takeIdentExpiry s).mpa.fair = s.mpa.fair ∧ (takeIdentExpiry s).ssc = s.ssc ∧ (takeIdentExpiry s).lsv = s.lsv ∧
    (takeIdentExpiry s).mpl.fitted = s.mpl.fitted ∧ (takeIdentExpiry s).mpl.k = s.mpl.k ∧
    (takeIdentExpiry s).mpl.table = s.mpl.table ∧ (takeIdentExpiry s).rfs.image = s.rfs.image ∧
    (takeIdentExpiry s).rfs.amplitudeMark = s.rfs.amplitudeMark ∧
    (takeIdentExpiry s).rfs.angleMark = s.rfs.angleMark ∧ (takeIdentExpiry s).rfs.aux = s.rfs.aux ∧
    (takeIdentExpiry s).cap = s.cap ∧ (takeIdentExpiry s).pld = s.pld ∧ (takeIdentExpiry s).itm = s.itm ∧
    (takeIdentExpiry s).plan = s.plan ∧ (takeIdentExpiry s).pending = s.pending := by
  simp [takeIdentExpiry]

@[simp] theorem linkRecord_frame (code : Word) (i : Slot) (arg : Word) (s : State) :
    (linkRecord code i arg s).pins = s.pins ∧ (linkRecord code i arg s).mem = s.mem ∧
    (linkRecord code i arg s).bpu = s.bpu ∧ (linkRecord code i arg s).mpa = s.mpa ∧
    (linkRecord code i arg s).ssc = s.ssc ∧ (linkRecord code i arg s).lsv = s.lsv ∧
    (linkRecord code i arg s).fin = s.fin ∧ (linkRecord code i arg s).rct = s.rct ∧
    (linkRecord code i arg s).mpl = s.mpl ∧ (linkRecord code i arg s).rfs = s.rfs ∧
    (linkRecord code i arg s).hif = s.hif ∧ (linkRecord code i arg s).cap = s.cap ∧
    (linkRecord code i arg s).pld = s.pld ∧ (linkRecord code i arg s).itm = s.itm ∧
    (linkRecord code i arg s).plan = s.plan ∧ (linkRecord code i arg s).cuts = s.cuts ∧
    (linkRecord code i arg s).pending = s.pending := by
  simp [linkRecord]

@[simp] theorem setLink_frame (i : Slot) (l : LinkRecord) (s : State) :
    (setLink i l s).pins = s.pins ∧ (setLink i l s).mem = s.mem ∧ (setLink i l s).bpu = s.bpu ∧
    (setLink i l s).mpa = s.mpa ∧ (setLink i l s).ssc = s.ssc ∧ (setLink i l s).fin = s.fin ∧
    (setLink i l s).rct = s.rct ∧ (setLink i l s).mpl = s.mpl ∧ (setLink i l s).rfs = s.rfs ∧
    (setLink i l s).wen = s.wen ∧ (setLink i l s).hif = s.hif ∧ (setLink i l s).cap = s.cap ∧
    (setLink i l s).log = s.log ∧ (setLink i l s).pld = s.pld ∧ (setLink i l s).itm = s.itm ∧
    (setLink i l s).plan = s.plan ∧ (setLink i l s).cuts = s.cuts ∧ (setLink i l s).pending = s.pending := by
  simp [setLink]

@[simp] theorem logWraps_frame (i : Slot) (o : FrameOutcome) (s : State) :
    (logWraps i o s).pins = s.pins ∧ (logWraps i o s).mem = s.mem ∧ (logWraps i o s).bpu = s.bpu ∧
    (logWraps i o s).mpa = s.mpa ∧ (logWraps i o s).ssc = s.ssc ∧ (logWraps i o s).lsv = s.lsv ∧
    (logWraps i o s).fin = s.fin ∧ (logWraps i o s).rct = s.rct ∧ (logWraps i o s).mpl = s.mpl ∧
    (logWraps i o s).rfs = s.rfs ∧ (logWraps i o s).hif = s.hif ∧ (logWraps i o s).cap = s.cap ∧
    (logWraps i o s).pld = s.pld ∧ (logWraps i o s).itm = s.itm ∧ (logWraps i o s).plan = s.plan ∧
    (logWraps i o s).cuts = s.cuts ∧ (logWraps i o s).pending = s.pending := by
  unfold logWraps; (repeat' split) <;> simp [ite_state, ite_bpu, ite_mpl, ite_rfs, ite_mpa]

@[simp] theorem superviseLost_frame (i : Slot) (o : FrameOutcome) (s : State) :
    (superviseLost i o s).pins = s.pins ∧ (superviseLost i o s).mem = s.mem ∧ (superviseLost i o s).bpu = s.bpu ∧
    (superviseLost i o s).mpa = s.mpa ∧ (superviseLost i o s).ssc = s.ssc ∧ (superviseLost i o s).fin = s.fin ∧
    (superviseLost i o s).rct = s.rct ∧ (superviseLost i o s).mpl = s.mpl ∧ (superviseLost i o s).rfs = s.rfs ∧
    (superviseLost i o s).hif = s.hif ∧ (superviseLost i o s).cap = s.cap ∧ (superviseLost i o s).pld = s.pld ∧
    (superviseLost i o s).itm = s.itm ∧ (superviseLost i o s).plan = s.plan ∧ (superviseLost i o s).cuts = s.cuts ∧
    (superviseLost i o s).pending = s.pending := by
  refine ⟨?_, ?_, ?_, ?_, ?_, ?_, ?_, ?_, ?_, ?_, ?_, ?_, ?_, ?_, ?_, ?_⟩ <;>
    (simp only [superviseLost, ite_state, ite_bpu, ite_mpl, ite_rfs, ite_mpa]; (repeat' split) <;> simp [ite_state, ite_bpu, ite_mpl, ite_rfs, ite_mpa])

@[simp] theorem superviseLive_frame (i : Slot) (o : FrameOutcome) (s : State) :
    (superviseLive i o s).pins = s.pins ∧ (superviseLive i o s).mem = s.mem ∧ (superviseLive i o s).bpu = s.bpu ∧
    (superviseLive i o s).mpa = s.mpa ∧ (superviseLive i o s).ssc = s.ssc ∧ (superviseLive i o s).fin = s.fin ∧
    (superviseLive i o s).rct = s.rct ∧ (superviseLive i o s).mpl = s.mpl ∧ (superviseLive i o s).rfs = s.rfs ∧
    (superviseLive i o s).hif = s.hif ∧ (superviseLive i o s).cap = s.cap ∧ (superviseLive i o s).pld = s.pld ∧
    (superviseLive i o s).itm = s.itm ∧ (superviseLive i o s).plan = s.plan ∧ (superviseLive i o s).cuts = s.cuts ∧
    (superviseLive i o s).pending = s.pending := by
  simp only [superviseLive, ite_state, ite_bpu, ite_mpl, ite_rfs, ite_mpa]
  simp [ite_state, ite_bpu, ite_mpl, ite_rfs, ite_mpa]

@[simp] theorem supervise_frame (i : Slot) (o : FrameOutcome) (s : State) :
    (supervise i o s).pins = s.pins ∧ (supervise i o s).mem = s.mem ∧ (supervise i o s).bpu = s.bpu ∧
    (supervise i o s).mpa = s.mpa ∧ (supervise i o s).ssc = s.ssc ∧ (supervise i o s).fin = s.fin ∧
    (supervise i o s).rct = s.rct ∧ (supervise i o s).mpl = s.mpl ∧ (supervise i o s).rfs = s.rfs ∧
    (supervise i o s).hif = s.hif ∧ (supervise i o s).cap = s.cap ∧ (supervise i o s).pld = s.pld ∧
    (supervise i o s).itm = s.itm ∧ (supervise i o s).plan = s.plan ∧ (supervise i o s).cuts = s.cuts ∧
    (supervise i o s).pending = s.pending := by
  simp only [supervise, ite_state, ite_bpu, ite_mpl, ite_rfs, ite_mpa]
  simp [ite_state, ite_bpu, ite_mpl, ite_rfs, ite_mpa]

@[simp] theorem confirmContactor_frame (i : Slot) (f : Feedback) (s : State) :
    (confirmContactor i f s).pins = s.pins ∧ (confirmContactor i f s).bpu.isOpen = s.bpu.isOpen ∧
    (confirmContactor i f s).bpu.deliveries = s.bpu.deliveries ∧
    (confirmContactor i f s).bpu.hostData = s.bpu.hostData ∧ (confirmContactor i f s).mpa.fair = s.mpa.fair ∧
    (confirmContactor i f s).ssc = s.ssc ∧ (confirmContactor i f s).lsv = s.lsv ∧
    (confirmContactor i f s).mpl.fitted = s.mpl.fitted ∧ (confirmContactor i f s).mpl.k = s.mpl.k ∧
    (confirmContactor i f s).mpl.slots = s.mpl.slots ∧ (confirmContactor i f s).mpl.generation = s.mpl.generation ∧
    (confirmContactor i f s).mpl.table = s.mpl.table ∧ (confirmContactor i f s).rfs.image = s.rfs.image ∧
    (confirmContactor i f s).rfs.amplitudeMark = s.rfs.amplitudeMark ∧
    (confirmContactor i f s).rfs.angleMark = s.rfs.angleMark ∧ (confirmContactor i f s).rfs.aux = s.rfs.aux ∧
    (confirmContactor i f s).cap = s.cap ∧ (confirmContactor i f s).pld = s.pld ∧
    (confirmContactor i f s).itm = s.itm ∧ (confirmContactor i f s).plan = s.plan ∧
    (confirmContactor i f s).pending = s.pending := by
  refine ⟨?_, ?_, ?_, ?_, ?_, ?_, ?_, ?_, ?_, ?_, ?_, ?_, ?_, ?_, ?_, ?_, ?_, ?_, ?_, ?_, ?_⟩ <;>
    (simp only [confirmContactor, ite_state, ite_bpu, ite_mpl, ite_rfs, ite_mpa]; (repeat' split) <;> simp [ite_state, ite_bpu, ite_mpl, ite_rfs, ite_mpa])

@[simp] theorem setProgress_frame (i : Slot) (q : Progress) (s : State) :
    (setProgress i q s).pins = s.pins ∧ (setProgress i q s).mem = s.mem ∧ (setProgress i q s).bpu = s.bpu ∧
    (setProgress i q s).mpa = s.mpa ∧ (setProgress i q s).ssc = s.ssc ∧ (setProgress i q s).lsv = s.lsv ∧
    (setProgress i q s).fin = s.fin ∧ (setProgress i q s).mpl = s.mpl ∧ (setProgress i q s).rfs = s.rfs ∧
    (setProgress i q s).wen = s.wen ∧ (setProgress i q s).hif = s.hif ∧ (setProgress i q s).cap = s.cap ∧
    (setProgress i q s).log = s.log ∧ (setProgress i q s).pld = s.pld ∧ (setProgress i q s).itm = s.itm ∧
    (setProgress i q s).plan = s.plan ∧ (setProgress i q s).cuts = s.cuts ∧ (setProgress i q s).pending = s.pending := by
  simp [setProgress]

@[simp] theorem judgeThresholds_frame (i : Slot) (dc : Word) (s : State) :
    (judgeThresholds i dc s).pins = s.pins ∧ (judgeThresholds i dc s).bpu.hostData = s.bpu.hostData ∧
    (judgeThresholds i dc s).mpa.fair = s.mpa.fair ∧ (judgeThresholds i dc s).mpl.fitted = s.mpl.fitted ∧
    (judgeThresholds i dc s).mpl.k = s.mpl.k ∧ (judgeThresholds i dc s).mpl.table = s.mpl.table ∧
    (judgeThresholds i dc s).rfs.image = s.rfs.image ∧ (judgeThresholds i dc s).plan = s.plan ∧
    (judgeThresholds i dc s).pending = s.pending := by
  simp only [judgeThresholds, ite_state, ite_bpu, ite_mpl, ite_rfs, ite_mpa]
  simp [ite_state, ite_bpu, ite_mpl, ite_rfs, ite_mpa]

@[simp] theorem judgeRecharge_frame (i : Slot) (dc : Word) (q : Progress) (s : State) :
    (judgeRecharge i dc q s).pins = s.pins ∧ (judgeRecharge i dc q s).bpu.hostData = s.bpu.hostData ∧
    (judgeRecharge i dc q s).mpa.fair = s.mpa.fair ∧ (judgeRecharge i dc q s).mpl.fitted = s.mpl.fitted ∧
    (judgeRecharge i dc q s).mpl.k = s.mpl.k ∧ (judgeRecharge i dc q s).mpl.table = s.mpl.table ∧
    (judgeRecharge i dc q s).rfs.image = s.rfs.image ∧ (judgeRecharge i dc q s).plan = s.plan ∧
    (judgeRecharge i dc q s).pending = s.pending := by
  simp only [judgeRecharge, ite_state, ite_bpu, ite_mpl, ite_rfs, ite_mpa]
  simp [ite_state, ite_bpu, ite_mpl, ite_rfs, ite_mpa]

@[simp] theorem rechargeFrame_frame (i : Slot) (w : StatusWords) (q : Progress) (s : State) :
    (rechargeFrame i w q s).pins = s.pins ∧ (rechargeFrame i w q s).bpu.hostData = s.bpu.hostData ∧
    (rechargeFrame i w q s).mpa.fair = s.mpa.fair ∧ (rechargeFrame i w q s).mpl.fitted = s.mpl.fitted ∧
    (rechargeFrame i w q s).mpl.k = s.mpl.k ∧ (rechargeFrame i w q s).mpl.table = s.mpl.table ∧
    (rechargeFrame i w q s).rfs.image = s.rfs.image ∧ (rechargeFrame i w q s).plan = s.plan ∧
    (rechargeFrame i w q s).pending = s.pending := by
  simp only [rechargeFrame, ite_state, ite_bpu, ite_mpl, ite_rfs, ite_mpa]
  simp [ite_state, ite_bpu, ite_mpl, ite_rfs, ite_mpa]

@[simp] theorem verifyFrame_frame (i : Slot) (o : FrameOutcome) (q : Progress) (s : State) :
    (verifyFrame i o q s).pins = s.pins ∧ (verifyFrame i o q s).mem = s.mem ∧
    (verifyFrame i o q s).bpu.isOpen = s.bpu.isOpen ∧ (verifyFrame i o q s).bpu.deliveries = s.bpu.deliveries ∧
    (verifyFrame i o q s).bpu.hostData = s.bpu.hostData ∧ (verifyFrame i o q s).mpa = s.mpa ∧
    (verifyFrame i o q s).ssc = s.ssc ∧ (verifyFrame i o q s).lsv = s.lsv ∧ (verifyFrame i o q s).fin = s.fin ∧
    (verifyFrame i o q s).mpl.fitted = s.mpl.fitted ∧ (verifyFrame i o q s).mpl.k = s.mpl.k ∧
    (verifyFrame i o q s).mpl.slots = s.mpl.slots ∧ (verifyFrame i o q s).mpl.generation = s.mpl.generation ∧
    (verifyFrame i o q s).mpl.table = s.mpl.table ∧ (verifyFrame i o q s).rfs.image = s.rfs.image ∧
    (verifyFrame i o q s).rfs.amplitudeMark = s.rfs.amplitudeMark ∧
    (verifyFrame i o q s).rfs.angleMark = s.rfs.angleMark ∧ (verifyFrame i o q s).rfs.aux = s.rfs.aux ∧
    (verifyFrame i o q s).cap = s.cap ∧ (verifyFrame i o q s).pld = s.pld ∧ (verifyFrame i o q s).itm = s.itm ∧
    (verifyFrame i o q s).plan = s.plan ∧ (verifyFrame i o q s).cuts = s.cuts ∧
    (verifyFrame i o q s).pending = s.pending := by
  simp only [verifyFrame, ite_state, ite_bpu, ite_mpl, ite_rfs, ite_mpa]
  simp [ite_state, ite_bpu, ite_mpl, ite_rfs, ite_mpa]

@[simp] theorem judgeFrame_frame (state : RestartState) (i : Slot) (o : FrameOutcome) (s : State) :
    (judgeFrame state i o s).pins = s.pins ∧ (judgeFrame state i o s).bpu.hostData = s.bpu.hostData ∧
    (judgeFrame state i o s).mpa.fair = s.mpa.fair ∧ (judgeFrame state i o s).mpl.fitted = s.mpl.fitted ∧
    (judgeFrame state i o s).mpl.k = s.mpl.k ∧ (judgeFrame state i o s).mpl.table = s.mpl.table ∧
    (judgeFrame state i o s).rfs.image = s.rfs.image ∧ (judgeFrame state i o s).plan = s.plan ∧
    (judgeFrame state i o s).pending = s.pending := by
  unfold judgeFrame; (repeat' split) <;> simp [ite_state, ite_bpu, ite_mpl, ite_rfs, ite_mpa]

@[simp] theorem controllerFrame_frame (i : Slot) (o : FrameOutcome) (s : State) :
    (controllerFrame i o s).pins = s.pins ∧ (controllerFrame i o s).bpu.hostData = s.bpu.hostData ∧
    (controllerFrame i o s).mpa.fair = s.mpa.fair ∧ (controllerFrame i o s).mpl.fitted = s.mpl.fitted ∧
    (controllerFrame i o s).mpl.k = s.mpl.k ∧ (controllerFrame i o s).mpl.table = s.mpl.table ∧
    (controllerFrame i o s).rfs.image = s.rfs.image ∧ (controllerFrame i o s).plan = s.plan ∧
    (controllerFrame i o s).pending = s.pending := by
  unfold controllerFrame; (repeat' split) <;> simp [ite_state, ite_bpu, ite_mpl, ite_rfs, ite_mpa]

@[simp] theorem captureFrame_frame (i : Slot) (o : FrameOutcome) (s : State) :
    (captureFrame i o s).pins = s.pins ∧ (captureFrame i o s).mem = s.mem ∧ (captureFrame i o s).bpu = s.bpu ∧
    (captureFrame i o s).mpa = s.mpa ∧ (captureFrame i o s).ssc = s.ssc ∧ (captureFrame i o s).lsv = s.lsv ∧
    (captureFrame i o s).fin = s.fin ∧ (captureFrame i o s).rct = s.rct ∧ (captureFrame i o s).mpl = s.mpl ∧
    (captureFrame i o s).rfs = s.rfs ∧ (captureFrame i o s).hif = s.hif ∧ (captureFrame i o s).pld = s.pld ∧
    (captureFrame i o s).itm = s.itm ∧ (captureFrame i o s).plan = s.plan ∧ (captureFrame i o s).cuts = s.cuts ∧
    (captureFrame i o s).pending = s.pending := by
  unfold captureFrame; (repeat' split) <;> simp [ite_state, ite_bpu, ite_mpl, ite_rfs, ite_mpa]

@[simp] theorem intakeFrame_frame (i : Slot) (o : FrameOutcome) (s : State) :
    (intakeFrame i o s).pins = s.pins ∧ (intakeFrame i o s).bpu.hostData = s.bpu.hostData ∧
    (intakeFrame i o s).mpa.fair = s.mpa.fair ∧ (intakeFrame i o s).mpl.fitted = s.mpl.fitted ∧
    (intakeFrame i o s).mpl.k = s.mpl.k ∧ (intakeFrame i o s).mpl.table = s.mpl.table ∧
    (intakeFrame i o s).rfs.image = s.rfs.image ∧ (intakeFrame i o s).plan = s.plan ∧
    (intakeFrame i o s).pending = s.pending := by
  unfold intakeFrame; (repeat' split) <;> simp [ite_state, ite_bpu, ite_mpl, ite_rfs, ite_mpa]

@[simp] theorem handOn_frame (i : Slot) (wasLost : Bool) (o : FrameOutcome) (s : State) :
    (handOn i wasLost o s).pins = s.pins ∧ (handOn i wasLost o s).bpu.hostData = s.bpu.hostData ∧
    (handOn i wasLost o s).mpa.fair = s.mpa.fair ∧ (handOn i wasLost o s).mpl.fitted = s.mpl.fitted ∧
    (handOn i wasLost o s).mpl.k = s.mpl.k ∧ (handOn i wasLost o s).mpl.table = s.mpl.table ∧
    (handOn i wasLost o s).rfs.image = s.rfs.image ∧ (handOn i wasLost o s).plan = s.plan ∧
    (handOn i wasLost o s).pending = s.pending := by
  simp only [handOn, ite_state, ite_bpu, ite_mpl, ite_rfs, ite_mpa]
  simp [ite_state, ite_bpu, ite_mpl, ite_rfs, ite_mpa]

@[simp] theorem evaluateFrame_frame (i : Slot) (w : Option StatusWords) (s : State) :
    (evaluateFrame i w s).pins = s.pins ∧ (evaluateFrame i w s).bpu.hostData = s.bpu.hostData ∧
    (evaluateFrame i w s).mpa.fair = s.mpa.fair ∧ (evaluateFrame i w s).mpl.fitted = s.mpl.fitted ∧
    (evaluateFrame i w s).mpl.k = s.mpl.k ∧ (evaluateFrame i w s).mpl.table = s.mpl.table ∧
    (evaluateFrame i w s).rfs.image = s.rfs.image ∧ (evaluateFrame i w s).plan = s.plan ∧
    (evaluateFrame i w s).pending = s.pending := by
  simp only [evaluateFrame, ite_state, ite_bpu, ite_mpl, ite_rfs, ite_mpa]
  simp [ite_state, ite_bpu, ite_mpl, ite_rfs, ite_mpa]

@[simp] theorem evaluateFrame_fold_frame  (l : List Slot) (s : State) :
    (l.foldl (fun t j => evaluateFrame j none t) s).pins = s.pins ∧
    (l.foldl (fun t j => evaluateFrame j none t) s).bpu.hostData = s.bpu.hostData ∧
    (l.foldl (fun t j => evaluateFrame j none t) s).mpa.fair = s.mpa.fair ∧
    (l.foldl (fun t j => evaluateFrame j none t) s).mpl.fitted = s.mpl.fitted ∧
    (l.foldl (fun t j => evaluateFrame j none t) s).mpl.k = s.mpl.k ∧
    (l.foldl (fun t j => evaluateFrame j none t) s).mpl.table = s.mpl.table ∧
    (l.foldl (fun t j => evaluateFrame j none t) s).rfs.image = s.rfs.image ∧
    (l.foldl (fun t j => evaluateFrame j none t) s).plan = s.plan ∧
    (l.foldl (fun t j => evaluateFrame j none t) s).pending = s.pending := by
  refine ⟨foldl_frame (·.pins) _ (fun t a => by simp) l s, foldl_frame (·.bpu.hostData) _ (fun t a => by simp) l s, foldl_frame (·.mpa.fair) _ (fun t a => by simp) l s, foldl_frame (·.mpl.fitted) _ (fun t a => by simp) l s, foldl_frame (·.mpl.k) _ (fun t a => by simp) l s, foldl_frame (·.mpl.table) _ (fun t a => by simp) l s, foldl_frame (·.rfs.image) _ (fun t a => by simp) l s, foldl_frame (·.plan) _ (fun t a => by simp) l s, foldl_frame (·.pending) _ (fun t a => by simp) l s⟩

@[simp] theorem secondOfSlot_frame (i : Slot) (s : State) :
    (secondOfSlot i s).pins = s.pins ∧ (secondOfSlot i s).mem = s.mem ∧ (secondOfSlot i s).bpu = s.bpu ∧
    (secondOfSlot i s).mpa = s.mpa ∧ (secondOfSlot i s).ssc = s.ssc ∧ (secondOfSlot i s).fin = s.fin ∧
    (secondOfSlot i s).rct = s.rct ∧ (secondOfSlot i s).mpl = s.mpl ∧ (secondOfSlot i s).rfs = s.rfs ∧
    (secondOfSlot i s).hif = s.hif ∧ (secondOfSlot i s).cap = s.cap ∧ (secondOfSlot i s).pld = s.pld ∧
    (secondOfSlot i s).itm = s.itm ∧ (secondOfSlot i s).plan = s.plan ∧ (secondOfSlot i s).cuts = s.cuts ∧
    (secondOfSlot i s).pending = s.pending := by
  simp only [secondOfSlot, ite_state, ite_bpu, ite_mpl, ite_rfs, ite_mpa]
  simp [ite_state, ite_bpu, ite_mpl, ite_rfs, ite_mpa]

@[simp] theorem secondOfSlot_fold_frame  (l : List Slot) (s : State) :
    (l.foldl (fun t i => secondOfSlot i t) s).pins = s.pins ∧
    (l.foldl (fun t i => secondOfSlot i t) s).mem = s.mem ∧ (l.foldl (fun t i => secondOfSlot i t) s).bpu = s.bpu ∧
    (l.foldl (fun t i => secondOfSlot i t) s).mpa = s.mpa ∧ (l.foldl (fun t i => secondOfSlot i t) s).ssc = s.ssc ∧
    (l.foldl (fun t i => secondOfSlot i t) s).fin = s.fin ∧ (l.foldl (fun t i => secondOfSlot i t) s).rct = s.rct ∧
    (l.foldl (fun t i => secondOfSlot i t) s).mpl = s.mpl ∧ (l.foldl (fun t i => secondOfSlot i t) s).rfs = s.rfs ∧
    (l.foldl (fun t i => secondOfSlot i t) s).hif = s.hif ∧ (l.foldl (fun t i => secondOfSlot i t) s).cap = s.cap ∧
    (l.foldl (fun t i => secondOfSlot i t) s).pld = s.pld ∧ (l.foldl (fun t i => secondOfSlot i t) s).itm = s.itm ∧
    (l.foldl (fun t i => secondOfSlot i t) s).plan = s.plan ∧
    (l.foldl (fun t i => secondOfSlot i t) s).cuts = s.cuts ∧
    (l.foldl (fun t i => secondOfSlot i t) s).pending = s.pending := by
  refine ⟨foldl_frame (·.pins) _ (fun t a => by simp) l s, foldl_frame (·.mem) _ (fun t a => by simp) l s, foldl_frame (·.bpu) _ (fun t a => by simp) l s, foldl_frame (·.mpa) _ (fun t a => by simp) l s, foldl_frame (·.ssc) _ (fun t a => by simp) l s, foldl_frame (·.fin) _ (fun t a => by simp) l s, foldl_frame (·.rct) _ (fun t a => by simp) l s, foldl_frame (·.mpl) _ (fun t a => by simp) l s, foldl_frame (·.rfs) _ (fun t a => by simp) l s, foldl_frame (·.hif) _ (fun t a => by simp) l s, foldl_frame (·.cap) _ (fun t a => by simp) l s, foldl_frame (·.pld) _ (fun t a => by simp) l s, foldl_frame (·.itm) _ (fun t a => by simp) l s, foldl_frame (·.plan) _ (fun t a => by simp) l s, foldl_frame (·.cuts) _ (fun t a => by simp) l s, foldl_frame (·.pending) _ (fun t a => by simp) l s⟩

@[simp] theorem secondOfLinks_frame (s : State) :
    (secondOfLinks s).pins = s.pins ∧ (secondOfLinks s).mem = s.mem ∧ (secondOfLinks s).bpu = s.bpu ∧
    (secondOfLinks s).mpa = s.mpa ∧ (secondOfLinks s).ssc = s.ssc ∧ (secondOfLinks s).fin = s.fin ∧
    (secondOfLinks s).rct = s.rct ∧ (secondOfLinks s).mpl = s.mpl ∧ (secondOfLinks s).rfs = s.rfs ∧
    (secondOfLinks s).hif = s.hif ∧ (secondOfLinks s).cap = s.cap ∧ (secondOfLinks s).pld = s.pld ∧
    (secondOfLinks s).itm = s.itm ∧ (secondOfLinks s).plan = s.plan ∧ (secondOfLinks s).cuts = s.cuts ∧
    (secondOfLinks s).pending = s.pending := by
  simp [secondOfLinks]

@[simp] theorem startScan_frame (s : State) :
    (startScan s).pins = s.pins ∧ (startScan s).mem = s.mem ∧ (startScan s).bpu = s.bpu ∧
    (startScan s).mpa = s.mpa ∧ (startScan s).lsv = s.lsv ∧ (startScan s).fin = s.fin ∧ (startScan s).mpl = s.mpl ∧
    (startScan s).rfs = s.rfs ∧ (startScan s).wen = s.wen ∧ (startScan s).hif = s.hif ∧ (startScan s).cap = s.cap ∧
    (startScan s).log = s.log ∧ (startScan s).pld = s.pld ∧ (startScan s).itm = s.itm ∧
    (startScan s).plan = s.plan ∧ (startScan s).cuts = s.cuts ∧ (startScan s).pending = s.pending := by
  unfold startScan; (repeat' split) <;> simp [ite_state, ite_bpu, ite_mpl, ite_rfs, ite_mpa]

@[simp] theorem takeVerifyExpiry_frame (s : State) :
    (takeVerifyExpiry s).pins = s.pins ∧ (takeVerifyExpiry s).bpu.hostData = s.bpu.hostData ∧
    (takeVerifyExpiry s).mpa.fair = s.mpa.fair ∧ (takeVerifyExpiry s).mpl.fitted = s.mpl.fitted ∧
    (takeVerifyExpiry s).mpl.k = s.mpl.k ∧ (takeVerifyExpiry s).mpl.table = s.mpl.table ∧
    (takeVerifyExpiry s).rfs.image = s.rfs.image ∧ (takeVerifyExpiry s).plan = s.plan ∧
    (takeVerifyExpiry s).pending = s.pending := by
  simp [takeVerifyExpiry]

@[simp] theorem scanEnd_frame (s : State) :
    (scanEnd s).pins = s.pins ∧ (scanEnd s).bpu.hostData = s.bpu.hostData ∧
    (scanEnd s).mpa.fair = s.mpa.fair ∧ (scanEnd s).mpl.fitted = s.mpl.fitted ∧
    (scanEnd s).mpl.k = s.mpl.k ∧ (scanEnd s).mpl.table = s.mpl.table ∧
    (scanEnd s).rfs.image = s.rfs.image ∧ (scanEnd s).plan = s.plan ∧
    (scanEnd s).pending = s.pending := by
  simp only [scanEnd, ite_state, ite_bpu, ite_mpl, ite_rfs, ite_mpa]
  simp [ite_state, ite_bpu, ite_mpl, ite_rfs, ite_mpa]

@[simp] theorem deliverScanEnd_frame (s : State) :
    (deliverScanEnd s).pins = s.pins ∧ (deliverScanEnd s).bpu.hostData = s.bpu.hostData ∧
    (deliverScanEnd s).mpa.fair = s.mpa.fair ∧ (deliverScanEnd s).mpl.fitted = s.mpl.fitted ∧
    (deliverScanEnd s).mpl.k = s.mpl.k ∧ (deliverScanEnd s).mpl.table = s.mpl.table ∧
    (deliverScanEnd s).rfs.image = s.rfs.image ∧ (deliverScanEnd s).plan = s.plan ∧
    (deliverScanEnd s).pending = s.pending := by
  simp [deliverScanEnd]

@[simp] theorem discardRead_frame (s : State) :
    (discardRead s).pins = s.pins ∧ (discardRead s).mem = s.mem ∧ (discardRead s).bpu = s.bpu ∧
    (discardRead s).mpa.fair = s.mpa.fair ∧ (discardRead s).ssc = s.ssc ∧ (discardRead s).lsv = s.lsv ∧
    (discardRead s).fin = s.fin ∧ (discardRead s).rct = s.rct ∧ (discardRead s).mpl = s.mpl ∧
    (discardRead s).rfs = s.rfs ∧ (discardRead s).wen = s.wen ∧ (discardRead s).hif = s.hif ∧
    (discardRead s).cap = s.cap ∧ (discardRead s).log = s.log ∧ (discardRead s).pld = s.pld ∧
    (discardRead s).itm = s.itm ∧ (discardRead s).plan = s.plan ∧ (discardRead s).cuts = s.cuts ∧
    (discardRead s).pending = s.pending := by
  simp [discardRead]

@[simp] theorem overrunScan_frame (i : Slot) (s : State) :
    (overrunScan i s).pins = s.pins ∧ (overrunScan i s).bpu.hostData = s.bpu.hostData ∧
    (overrunScan i s).mpa.fair = s.mpa.fair ∧ (overrunScan i s).mpl.fitted = s.mpl.fitted ∧
    (overrunScan i s).mpl.k = s.mpl.k ∧ (overrunScan i s).mpl.table = s.mpl.table ∧
    (overrunScan i s).rfs.image = s.rfs.image ∧ (overrunScan i s).plan = s.plan ∧
    (overrunScan i s).pending = s.pending := by
  simp only [overrunScan, ite_state, ite_bpu, ite_mpl, ite_rfs, ite_mpa]
  simp [ite_state, ite_bpu, ite_mpl, ite_rfs, ite_mpa]

@[simp] theorem lateExpiries_frame (s : State) :
    (lateExpiries s).pins = s.pins ∧ (lateExpiries s).bpu.hostData = s.bpu.hostData ∧
    (lateExpiries s).mpa.fair = s.mpa.fair ∧ (lateExpiries s).mpl.fitted = s.mpl.fitted ∧ (lateExpiries s).mpl.k = s.mpl.k ∧
    (lateExpiries s).mpl.table = s.mpl.table ∧ (lateExpiries s).rfs.image = s.rfs.image ∧ (lateExpiries s).plan = s.plan ∧
    (lateExpiries s).pending = s.pending := by
  simp only [lateExpiries, ite_state, ite_bpu, ite_mpl, ite_rfs, ite_mpa]
  simp [ite_state, ite_bpu, ite_mpl, ite_rfs, ite_mpa]

@[simp] theorem frameScan_frame (s : State) :
    (frameScan s).pins = s.pins ∧ (frameScan s).bpu.hostData = s.bpu.hostData ∧
    (frameScan s).mpa.fair = s.mpa.fair ∧ (frameScan s).mpl.fitted = s.mpl.fitted ∧ (frameScan s).mpl.k = s.mpl.k ∧
    (frameScan s).mpl.table = s.mpl.table ∧ (frameScan s).rfs.image = s.rfs.image ∧ (frameScan s).plan = s.plan ∧
    (frameScan s).pending = s.pending := by
  unfold frameScan; (repeat' split) <;> simp [ite_state, ite_bpu, ite_mpl, ite_rfs, ite_mpa]

@[simp] theorem advanceScan_frame (i : Slot) (s : State) :
    (advanceScan i s).pins = s.pins ∧ (advanceScan i s).bpu.hostData = s.bpu.hostData ∧
    (advanceScan i s).mpa.fair = s.mpa.fair ∧ (advanceScan i s).mpl.fitted = s.mpl.fitted ∧
    (advanceScan i s).mpl.k = s.mpl.k ∧ (advanceScan i s).mpl.table = s.mpl.table ∧
    (advanceScan i s).rfs.image = s.rfs.image ∧ (advanceScan i s).plan = s.plan ∧
    (advanceScan i s).pending = s.pending := by
  unfold advanceScan; (repeat' split) <;> simp [ite_state, ite_bpu, ite_mpl, ite_rfs, ite_mpa]

@[simp] theorem setArmResult_frame (r : ArmResult) (arg : Word) (s : State) :
    (setArmResult r arg s).pins = s.pins ∧ (setArmResult r arg s).mem = s.mem ∧ (setArmResult r arg s).bpu = s.bpu ∧
    (setArmResult r arg s).mpa = s.mpa ∧ (setArmResult r arg s).ssc = s.ssc ∧ (setArmResult r arg s).lsv = s.lsv ∧
    (setArmResult r arg s).fin = s.fin ∧ (setArmResult r arg s).rct = s.rct ∧ (setArmResult r arg s).mpl = s.mpl ∧
    (setArmResult r arg s).rfs = s.rfs ∧ (setArmResult r arg s).wen = s.wen ∧ (setArmResult r arg s).hif = s.hif ∧
    (setArmResult r arg s).cap = s.cap ∧ (setArmResult r arg s).log = s.log ∧ (setArmResult r arg s).itm = s.itm ∧
    (setArmResult r arg s).plan = s.plan ∧ (setArmResult r arg s).cuts = s.cuts ∧
    (setArmResult r arg s).pending = s.pending := by
  simp [setArmResult]

@[simp] theorem endBeforeAdoption_frame (r : ArmResult) (arg : Word) (s : State) :
    (endBeforeAdoption r arg s).pins = s.pins ∧ (endBeforeAdoption r arg s).mem = s.mem ∧
    (endBeforeAdoption r arg s).bpu.hostData = s.bpu.hostData ∧ (endBeforeAdoption r arg s).mpa.fair = s.mpa.fair ∧
    (endBeforeAdoption r arg s).mpl.fitted = s.mpl.fitted ∧ (endBeforeAdoption r arg s).mpl.k = s.mpl.k ∧
    (endBeforeAdoption r arg s).mpl.slots = s.mpl.slots ∧
    (endBeforeAdoption r arg s).mpl.generation = s.mpl.generation ∧
    (endBeforeAdoption r arg s).mpl.table = s.mpl.table ∧ (endBeforeAdoption r arg s).rfs.image = s.rfs.image ∧
    (endBeforeAdoption r arg s).rfs.amplitudeMark = s.rfs.amplitudeMark ∧
    (endBeforeAdoption r arg s).rfs.angleMark = s.rfs.angleMark ∧ (endBeforeAdoption r arg s).rfs.aux = s.rfs.aux ∧
    (endBeforeAdoption r arg s).cap = s.cap ∧ (endBeforeAdoption r arg s).plan = s.plan ∧
    (endBeforeAdoption r arg s).cuts = s.cuts ∧ (endBeforeAdoption r arg s).pending = s.pending := by
  simp [endBeforeAdoption]

@[simp] theorem refusePlan_frame (r : ArmResult) (arg : Word) (s : State) :
    (refusePlan r arg s).pins = s.pins ∧ (refusePlan r arg s).mem = s.mem ∧
    (refusePlan r arg s).bpu.hostData = s.bpu.hostData ∧ (refusePlan r arg s).mpa.fair = s.mpa.fair ∧
    (refusePlan r arg s).mpl.fitted = s.mpl.fitted ∧ (refusePlan r arg s).mpl.k = s.mpl.k ∧
    (refusePlan r arg s).mpl.slots = s.mpl.slots ∧ (refusePlan r arg s).mpl.generation = s.mpl.generation ∧
    (refusePlan r arg s).mpl.table = s.mpl.table ∧ (refusePlan r arg s).rfs.image = s.rfs.image ∧
    (refusePlan r arg s).rfs.amplitudeMark = s.rfs.amplitudeMark ∧
    (refusePlan r arg s).rfs.angleMark = s.rfs.angleMark ∧ (refusePlan r arg s).rfs.aux = s.rfs.aux ∧
    (refusePlan r arg s).cap = s.cap ∧ (refusePlan r arg s).plan = s.plan ∧ (refusePlan r arg s).cuts = s.cuts ∧
    (refusePlan r arg s).pending = s.pending := by
  simp [refusePlan]

@[simp] theorem adoptBlocks_frame (s : State) :
    (adoptBlocks s).pins = s.pins ∧ (adoptBlocks s).mem = s.mem ∧ (adoptBlocks s).bpu.latches = s.bpu.latches ∧
    (adoptBlocks s).bpu.needs = s.bpu.needs ∧ (adoptBlocks s).bpu.deliveries = s.bpu.deliveries ∧
    (adoptBlocks s).bpu.hostData = s.bpu.hostData ∧ (adoptBlocks s).mpa = s.mpa ∧
    (adoptBlocks s).mpl.generation = s.mpl.generation ∧ (adoptBlocks s).wen = s.wen ∧ (adoptBlocks s).log = s.log ∧
    (adoptBlocks s).cuts = s.cuts ∧ (adoptBlocks s).pending = s.pending := by
  simp [adoptBlocks, adoptMap]

@[simp] theorem startLog_frame (capacity : Nat) (mask : Word) (s : State) :
    (startLog capacity mask s).pins = s.pins ∧ (startLog capacity mask s).bpu = s.bpu ∧
    (startLog capacity mask s).mpa.fair = s.mpa.fair ∧ (startLog capacity mask s).ssc = s.ssc ∧
    (startLog capacity mask s).lsv = s.lsv ∧ (startLog capacity mask s).fin = s.fin ∧
    (startLog capacity mask s).rct = s.rct ∧ (startLog capacity mask s).mpl = s.mpl ∧
    (startLog capacity mask s).rfs = s.rfs ∧ (startLog capacity mask s).hif = s.hif ∧
    (startLog capacity mask s).cap = s.cap ∧ (startLog capacity mask s).pld = s.pld ∧
    (startLog capacity mask s).itm = s.itm ∧ (startLog capacity mask s).plan = s.plan ∧
    (startLog capacity mask s).pending = s.pending := by
  simp [startLog]

@[simp] theorem submitResetBlock_frame (s : State) :
    (submitResetBlock s).pins = s.pins ∧ (submitResetBlock s).mem = s.mem ∧ (submitResetBlock s).bpu = s.bpu ∧
    (submitResetBlock s).mpa = s.mpa ∧ (submitResetBlock s).ssc = s.ssc ∧ (submitResetBlock s).lsv = s.lsv ∧
    (submitResetBlock s).fin = s.fin ∧ (submitResetBlock s).rct = s.rct ∧ (submitResetBlock s).mpl = s.mpl ∧
    (submitResetBlock s).rfs = s.rfs ∧ (submitResetBlock s).hif = s.hif ∧ (submitResetBlock s).cap = s.cap ∧
    (submitResetBlock s).log = s.log ∧ (submitResetBlock s).pld = s.pld ∧ (submitResetBlock s).itm = s.itm ∧
    (submitResetBlock s).plan = s.plan ∧ (submitResetBlock s).cuts = s.cuts ∧
    (submitResetBlock s).pending = s.pending := by
  simp [submitResetBlock]

@[simp] theorem adopt_frame (s : State) :
    (adopt s).pins = s.pins ∧ (adopt s).bpu.latches = s.bpu.latches ∧ (adopt s).bpu.needs = s.bpu.needs ∧
    (adopt s).bpu.deliveries = s.bpu.deliveries ∧ (adopt s).bpu.hostData = s.bpu.hostData ∧
    (adopt s).mpa.fair = s.mpa.fair ∧ (adopt s).pending = s.pending := by
  simp [adopt]

@[simp] theorem handOverDrive_frame (s : State) :
    (handOverDrive s).pins = s.pins ∧ (handOverDrive s).mem = s.mem ∧ (handOverDrive s).bpu = s.bpu ∧
    (handOverDrive s).mpa = s.mpa ∧ (handOverDrive s).ssc = s.ssc ∧ (handOverDrive s).lsv = s.lsv ∧
    (handOverDrive s).fin = s.fin ∧ (handOverDrive s).mpl = s.mpl ∧ (handOverDrive s).rfs = s.rfs ∧
    (handOverDrive s).wen = s.wen ∧ (handOverDrive s).cap = s.cap ∧ (handOverDrive s).log = s.log ∧
    (handOverDrive s).pld = s.pld ∧ (handOverDrive s).itm = s.itm ∧ (handOverDrive s).plan = s.plan ∧
    (handOverDrive s).cuts = s.cuts ∧ (handOverDrive s).pending = s.pending := by
  simp [handOverDrive]

@[simp] theorem judgePlan_frame (s : State) :
    (judgePlan s).pins = s.pins ∧ (judgePlan s).bpu.hostData = s.bpu.hostData ∧
    (judgePlan s).mpa.fair = s.mpa.fair ∧ (judgePlan s).pending = s.pending := by
  unfold judgePlan; (repeat' split) <;> simp [ite_state, ite_bpu, ite_mpl, ite_rfs, ite_mpa]

@[simp] theorem takeLength_frame (w : Word) (s : State) :
    (takeLength w s).pins = s.pins ∧ (takeLength w s).mem = s.mem ∧ (takeLength w s).bpu.hostData = s.bpu.hostData ∧
    (takeLength w s).mpa.fair = s.mpa.fair ∧ (takeLength w s).mpl.fitted = s.mpl.fitted ∧
    (takeLength w s).mpl.k = s.mpl.k ∧ (takeLength w s).mpl.slots = s.mpl.slots ∧
    (takeLength w s).mpl.generation = s.mpl.generation ∧ (takeLength w s).mpl.table = s.mpl.table ∧
    (takeLength w s).rfs.image = s.rfs.image ∧ (takeLength w s).rfs.amplitudeMark = s.rfs.amplitudeMark ∧
    (takeLength w s).rfs.angleMark = s.rfs.angleMark ∧ (takeLength w s).rfs.aux = s.rfs.aux ∧
    (takeLength w s).cap = s.cap ∧ (takeLength w s).plan = s.plan ∧ (takeLength w s).cuts = s.cuts ∧
    (takeLength w s).pending = s.pending := by
  simp only [takeLength, ite_state, ite_bpu, ite_mpl, ite_rfs, ite_mpa]
  simp [ite_state, ite_bpu, ite_mpl, ite_rfs, ite_mpa]

@[simp] theorem takePlanWords_frame (o : Nat) (s : State) :
    (takePlanWords o s).pins = s.pins ∧ (takePlanWords o s).mem = s.mem ∧ (takePlanWords o s).bpu = s.bpu ∧
    (takePlanWords o s).mpa = s.mpa ∧ (takePlanWords o s).ssc = s.ssc ∧ (takePlanWords o s).lsv = s.lsv ∧
    (takePlanWords o s).fin = s.fin ∧ (takePlanWords o s).rct = s.rct ∧ (takePlanWords o s).mpl = s.mpl ∧
    (takePlanWords o s).rfs = s.rfs ∧ (takePlanWords o s).wen = s.wen ∧ (takePlanWords o s).hif = s.hif ∧
    (takePlanWords o s).cap = s.cap ∧ (takePlanWords o s).log = s.log ∧ (takePlanWords o s).itm = s.itm ∧
    (takePlanWords o s).plan = s.plan ∧ (takePlanWords o s).cuts = s.cuts ∧ (takePlanWords o s).pending = s.pending := by
  simp [takePlanWords]

@[simp] theorem takePlanTenure_frame (s : State) :
    (takePlanTenure s).pins = s.pins ∧ (takePlanTenure s).bpu.hostData = s.bpu.hostData ∧
    (takePlanTenure s).mpa.fair = s.mpa.fair ∧ (takePlanTenure s).pending = s.pending := by
  unfold takePlanTenure; (repeat' split) <;> simp [ite_state, ite_bpu, ite_mpl, ite_rfs, ite_mpa]

@[simp] theorem cancelDisarmReports_frame (s : State) :
    (cancelDisarmReports s).pins = s.pins ∧ (cancelDisarmReports s).bpu = s.bpu ∧
    (cancelDisarmReports s).mpa.fair = s.mpa.fair ∧ (cancelDisarmReports s).ssc = s.ssc ∧
    (cancelDisarmReports s).lsv = s.lsv ∧ (cancelDisarmReports s).fin = s.fin ∧
    (cancelDisarmReports s).rct = s.rct ∧ (cancelDisarmReports s).mpl = s.mpl ∧
    (cancelDisarmReports s).rfs = s.rfs ∧ (cancelDisarmReports s).hif = s.hif ∧
    (cancelDisarmReports s).cap = s.cap ∧ (cancelDisarmReports s).pld = s.pld ∧
    (cancelDisarmReports s).itm = s.itm ∧ (cancelDisarmReports s).plan = s.plan ∧
    (cancelDisarmReports s).pending = s.pending := by
  simp [cancelDisarmReports]

@[simp] theorem armRise_frame (s : State) :
    (armRise s).pins = s.pins ∧ (armRise s).bpu.hostData = s.bpu.hostData ∧ (armRise s).mpa.fair = s.mpa.fair ∧
    (armRise s).mpl.fitted = s.mpl.fitted ∧ (armRise s).mpl.k = s.mpl.k ∧ (armRise s).mpl.slots = s.mpl.slots ∧
    (armRise s).mpl.generation = s.mpl.generation ∧ (armRise s).mpl.table = s.mpl.table ∧
    (armRise s).rfs.image = s.rfs.image ∧ (armRise s).rfs.amplitudeMark = s.rfs.amplitudeMark ∧
    (armRise s).rfs.angleMark = s.rfs.angleMark ∧ (armRise s).rfs.aux = s.rfs.aux ∧ (armRise s).cap = s.cap ∧
    (armRise s).plan = s.plan ∧ (armRise s).pending = s.pending := by
  simp only [armRise, ite_state, ite_bpu, ite_mpl, ite_rfs, ite_mpa]
  simp [ite_state, ite_bpu, ite_mpl, ite_rfs, ite_mpa]

@[simp] theorem holdAux_frame (r : Rec) (i : Fin 3) (v : Word) (s : State) :
    (holdAux r i v s).pins = s.pins ∧ (holdAux r i v s).mem = s.mem ∧ (holdAux r i v s).bpu.isOpen = s.bpu.isOpen ∧
    (holdAux r i v s).bpu.latches = s.bpu.latches ∧ (holdAux r i v s).bpu.needs = s.bpu.needs ∧
    (holdAux r i v s).bpu.deliveries = s.bpu.deliveries ∧ (holdAux r i v s).bpu.hostData = s.bpu.hostData ∧
    (holdAux r i v s).mpa = s.mpa ∧ (holdAux r i v s).ssc = s.ssc ∧ (holdAux r i v s).lsv = s.lsv ∧
    (holdAux r i v s).fin = s.fin ∧ (holdAux r i v s).rct = s.rct ∧ (holdAux r i v s).mpl = s.mpl ∧
    (holdAux r i v s).rfs.image = s.rfs.image ∧ (holdAux r i v s).rfs.amplitudeMark = s.rfs.amplitudeMark ∧
    (holdAux r i v s).rfs.angleMark = s.rfs.angleMark ∧ (holdAux r i v s).rfs.cursor = s.rfs.cursor ∧
    (holdAux r i v s).rfs.stage = s.rfs.stage ∧ (holdAux r i v s).wen = s.wen ∧ (holdAux r i v s).hif = s.hif ∧
    (holdAux r i v s).cap = s.cap ∧ (holdAux r i v s).log = s.log ∧ (holdAux r i v s).pld = s.pld ∧
    (holdAux r i v s).itm = s.itm ∧ (holdAux r i v s).plan = s.plan ∧ (holdAux r i v s).cuts = s.cuts ∧
    (holdAux r i v s).pending = s.pending := by
  simp only [holdAux, ite_state, ite_bpu, ite_mpl, ite_rfs, ite_mpa]
  simp [ite_state, ite_bpu, ite_mpl, ite_rfs, ite_mpa]

@[simp] theorem formValue_frame (src : Source) (s : State) :
    (formValue src s).1.pins = s.pins ∧ (formValue src s).1.mem = s.mem ∧
    (formValue src s).1.bpu.isOpen = s.bpu.isOpen ∧ (formValue src s).1.bpu.latches = s.bpu.latches ∧
    (formValue src s).1.bpu.needs = s.bpu.needs ∧ (formValue src s).1.bpu.deliveries = s.bpu.deliveries ∧
    (formValue src s).1.bpu.hostData = s.bpu.hostData ∧ (formValue src s).1.mpa = s.mpa ∧
    (formValue src s).1.ssc = s.ssc ∧ (formValue src s).1.lsv = s.lsv ∧ (formValue src s).1.fin = s.fin ∧
    (formValue src s).1.rct = s.rct ∧ (formValue src s).1.mpl.fitted = s.mpl.fitted ∧
    (formValue src s).1.mpl.k = s.mpl.k ∧ (formValue src s).1.mpl.slots = s.mpl.slots ∧
    (formValue src s).1.mpl.generation = s.mpl.generation ∧ (formValue src s).1.mpl.table = s.mpl.table ∧
    (formValue src s).1.rfs = s.rfs ∧ (formValue src s).1.wen = s.wen ∧ (formValue src s).1.hif = s.hif ∧
    (formValue src s).1.cap = s.cap ∧ (formValue src s).1.log = s.log ∧ (formValue src s).1.pld = s.pld ∧
    (formValue src s).1.itm = s.itm ∧ (formValue src s).1.plan = s.plan ∧ (formValue src s).1.cuts = s.cuts ∧
    (formValue src s).1.pending = s.pending := by
  unfold formValue; (repeat' split) <;> simp [ite_state, ite_bpu, ite_mpl, ite_rfs, ite_mpa]

@[simp] theorem formWrites_frame  (ws : List JobWrite) (s : State) :
    (formWrites ws s).1.pins = s.pins ∧ (formWrites ws s).1.mem = s.mem ∧
    (formWrites ws s).1.bpu.isOpen = s.bpu.isOpen ∧ (formWrites ws s).1.bpu.latches = s.bpu.latches ∧
    (formWrites ws s).1.bpu.needs = s.bpu.needs ∧ (formWrites ws s).1.bpu.deliveries = s.bpu.deliveries ∧
    (formWrites ws s).1.bpu.hostData = s.bpu.hostData ∧ (formWrites ws s).1.mpa = s.mpa ∧
    (formWrites ws s).1.ssc = s.ssc ∧ (formWrites ws s).1.lsv = s.lsv ∧ (formWrites ws s).1.fin = s.fin ∧
    (formWrites ws s).1.rct = s.rct ∧ (formWrites ws s).1.mpl.fitted = s.mpl.fitted ∧
    (formWrites ws s).1.mpl.k = s.mpl.k ∧ (formWrites ws s).1.mpl.slots = s.mpl.slots ∧
    (formWrites ws s).1.mpl.generation = s.mpl.generation ∧ (formWrites ws s).1.mpl.table = s.mpl.table ∧
    (formWrites ws s).1.rfs = s.rfs ∧ (formWrites ws s).1.wen = s.wen ∧ (formWrites ws s).1.hif = s.hif ∧
    (formWrites ws s).1.cap = s.cap ∧ (formWrites ws s).1.log = s.log ∧ (formWrites ws s).1.pld = s.pld ∧
    (formWrites ws s).1.itm = s.itm ∧ (formWrites ws s).1.plan = s.plan ∧ (formWrites ws s).1.cuts = s.cuts ∧
    (formWrites ws s).1.pending = s.pending := by
  induction ws generalizing s with
  | nil => simp [formWrites]
  | cons w ws ih => simp [formWrites, ih]

@[simp] theorem stageJob_frame (b : BufferId) (c : JobClass) (j : Job) (s : State) :
    (stageJob b c j s).pins = s.pins ∧ (stageJob b c j s).mem = s.mem ∧
    (stageJob b c j s).bpu.isOpen = s.bpu.isOpen ∧ (stageJob b c j s).bpu.latches = s.bpu.latches ∧
    (stageJob b c j s).bpu.needs = s.bpu.needs ∧ (stageJob b c j s).bpu.deliveries = s.bpu.deliveries ∧
    (stageJob b c j s).bpu.hostData = s.bpu.hostData ∧ (stageJob b c j s).mpa = s.mpa ∧
    (stageJob b c j s).ssc = s.ssc ∧ (stageJob b c j s).lsv = s.lsv ∧ (stageJob b c j s).fin = s.fin ∧
    (stageJob b c j s).rct = s.rct ∧ (stageJob b c j s).mpl.fitted = s.mpl.fitted ∧
    (stageJob b c j s).mpl.k = s.mpl.k ∧ (stageJob b c j s).mpl.slots = s.mpl.slots ∧
    (stageJob b c j s).mpl.generation = s.mpl.generation ∧ (stageJob b c j s).mpl.table = s.mpl.table ∧
    (stageJob b c j s).rfs.image = s.rfs.image ∧ (stageJob b c j s).rfs.amplitudeMark = s.rfs.amplitudeMark ∧
    (stageJob b c j s).rfs.angleMark = s.rfs.angleMark ∧ (stageJob b c j s).rfs.aux = s.rfs.aux ∧
    (stageJob b c j s).rfs.cursor = s.rfs.cursor ∧ (stageJob b c j s).hif = s.hif ∧ (stageJob b c j s).cap = s.cap ∧
    (stageJob b c j s).log = s.log ∧ (stageJob b c j s).pld = s.pld ∧ (stageJob b c j s).itm = s.itm ∧
    (stageJob b c j s).plan = s.plan ∧ (stageJob b c j s).cuts = s.cuts ∧ (stageJob b c j s).pending = s.pending := by
  simp only [stageJob, ite_state, ite_bpu, ite_mpl, ite_rfs, ite_mpa]
  simp [ite_state, ite_bpu, ite_mpl, ite_rfs, ite_mpa]

@[simp] theorem logDiscarded_frame (r : Rec) (s : State) :
    (logDiscarded r s).pins = s.pins ∧ (logDiscarded r s).mem = s.mem ∧ (logDiscarded r s).bpu = s.bpu ∧
    (logDiscarded r s).mpa = s.mpa ∧ (logDiscarded r s).ssc = s.ssc ∧ (logDiscarded r s).lsv = s.lsv ∧
    (logDiscarded r s).fin = s.fin ∧ (logDiscarded r s).rct = s.rct ∧ (logDiscarded r s).mpl = s.mpl ∧
    (logDiscarded r s).rfs = s.rfs ∧ (logDiscarded r s).hif = s.hif ∧ (logDiscarded r s).cap = s.cap ∧
    (logDiscarded r s).pld = s.pld ∧ (logDiscarded r s).itm = s.itm ∧ (logDiscarded r s).plan = s.plan ∧
    (logDiscarded r s).cuts = s.cuts ∧ (logDiscarded r s).pending = s.pending := by
  simp [logDiscarded]

@[simp] theorem logDiscarded_fold_frame  (l : List Rec) (s : State) :
    (l.foldl (fun t r => logDiscarded r t) s).pins = s.pins ∧
    (l.foldl (fun t r => logDiscarded r t) s).mem = s.mem ∧ (l.foldl (fun t r => logDiscarded r t) s).bpu = s.bpu ∧
    (l.foldl (fun t r => logDiscarded r t) s).mpa = s.mpa ∧ (l.foldl (fun t r => logDiscarded r t) s).ssc = s.ssc ∧
    (l.foldl (fun t r => logDiscarded r t) s).lsv = s.lsv ∧ (l.foldl (fun t r => logDiscarded r t) s).fin = s.fin ∧
    (l.foldl (fun t r => logDiscarded r t) s).rct = s.rct ∧ (l.foldl (fun t r => logDiscarded r t) s).mpl = s.mpl ∧
    (l.foldl (fun t r => logDiscarded r t) s).rfs = s.rfs ∧ (l.foldl (fun t r => logDiscarded r t) s).hif = s.hif ∧
    (l.foldl (fun t r => logDiscarded r t) s).cap = s.cap ∧ (l.foldl (fun t r => logDiscarded r t) s).pld = s.pld ∧
    (l.foldl (fun t r => logDiscarded r t) s).itm = s.itm ∧
    (l.foldl (fun t r => logDiscarded r t) s).plan = s.plan ∧
    (l.foldl (fun t r => logDiscarded r t) s).cuts = s.cuts ∧
    (l.foldl (fun t r => logDiscarded r t) s).pending = s.pending := by
  refine ⟨foldl_frame (·.pins) _ (fun t a => by simp) l s, foldl_frame (·.mem) _ (fun t a => by simp) l s, foldl_frame (·.bpu) _ (fun t a => by simp) l s, foldl_frame (·.mpa) _ (fun t a => by simp) l s, foldl_frame (·.ssc) _ (fun t a => by simp) l s, foldl_frame (·.lsv) _ (fun t a => by simp) l s, foldl_frame (·.fin) _ (fun t a => by simp) l s, foldl_frame (·.rct) _ (fun t a => by simp) l s, foldl_frame (·.mpl) _ (fun t a => by simp) l s, foldl_frame (·.rfs) _ (fun t a => by simp) l s, foldl_frame (·.hif) _ (fun t a => by simp) l s, foldl_frame (·.cap) _ (fun t a => by simp) l s, foldl_frame (·.pld) _ (fun t a => by simp) l s, foldl_frame (·.itm) _ (fun t a => by simp) l s, foldl_frame (·.plan) _ (fun t a => by simp) l s, foldl_frame (·.cuts) _ (fun t a => by simp) l s, foldl_frame (·.pending) _ (fun t a => by simp) l s⟩

@[simp] theorem drain_frame (s : State) :
    (drain s).2.pins = s.pins ∧ (drain s).2.mem = s.mem ∧ (drain s).2.bpu = s.bpu ∧ (drain s).2.mpa = s.mpa ∧
    (drain s).2.ssc = s.ssc ∧ (drain s).2.lsv = s.lsv ∧ (drain s).2.fin = s.fin ∧ (drain s).2.rct = s.rct ∧
    (drain s).2.mpl = s.mpl ∧ (drain s).2.rfs.image = s.rfs.image ∧
    (drain s).2.rfs.amplitudeMark = s.rfs.amplitudeMark ∧ (drain s).2.rfs.angleMark = s.rfs.angleMark ∧
    (drain s).2.rfs.cursor = s.rfs.cursor ∧ (drain s).2.rfs.stage = s.rfs.stage ∧ (drain s).2.hif = s.hif ∧
    (drain s).2.cap = s.cap ∧ (drain s).2.pld = s.pld ∧ (drain s).2.itm = s.itm ∧ (drain s).2.plan = s.plan ∧
    (drain s).2.cuts = s.cuts ∧ (drain s).2.pending = s.pending := by
  simp [drain]

@[simp] theorem startGates_frame (s : State) :
    (startGates s).pins = s.pins ∧ (startGates s).mem = s.mem ∧ (startGates s).bpu = s.bpu ∧
    (startGates s).mpa = s.mpa ∧ (startGates s).ssc = s.ssc ∧ (startGates s).lsv = s.lsv ∧
    (startGates s).fin = s.fin ∧ (startGates s).rct = s.rct ∧ (startGates s).mpl = s.mpl ∧
    (startGates s).rfs.image = s.rfs.image ∧ (startGates s).rfs.amplitudeMark = s.rfs.amplitudeMark ∧
    (startGates s).rfs.angleMark = s.rfs.angleMark ∧ (startGates s).rfs.aux = s.rfs.aux ∧
    (startGates s).rfs.cursor = s.rfs.cursor ∧ (startGates s).hif = s.hif ∧ (startGates s).cap = s.cap ∧
    (startGates s).log = s.log ∧ (startGates s).pld = s.pld ∧ (startGates s).itm = s.itm ∧
    (startGates s).plan = s.plan ∧ (startGates s).cuts = s.cuts ∧ (startGates s).pending = s.pending := by
  simp [startGates]

@[simp] theorem releaseAdvance_frame (s : State) :
    (releaseAdvance s).pins = s.pins ∧ (releaseAdvance s).mem = s.mem ∧ (releaseAdvance s).bpu = s.bpu ∧
    (releaseAdvance s).mpa = s.mpa ∧ (releaseAdvance s).ssc = s.ssc ∧ (releaseAdvance s).lsv = s.lsv ∧
    (releaseAdvance s).fin = s.fin ∧ (releaseAdvance s).rct = s.rct ∧ (releaseAdvance s).mpl = s.mpl ∧
    (releaseAdvance s).rfs.image = s.rfs.image ∧ (releaseAdvance s).rfs.amplitudeMark = s.rfs.amplitudeMark ∧
    (releaseAdvance s).rfs.angleMark = s.rfs.angleMark ∧ (releaseAdvance s).rfs.aux = s.rfs.aux ∧
    (releaseAdvance s).rfs.cursor = s.rfs.cursor ∧ (releaseAdvance s).hif = s.hif ∧ (releaseAdvance s).cap = s.cap ∧
    (releaseAdvance s).log = s.log ∧ (releaseAdvance s).pld = s.pld ∧ (releaseAdvance s).itm = s.itm ∧
    (releaseAdvance s).plan = s.plan ∧ (releaseAdvance s).cuts = s.cuts ∧ (releaseAdvance s).pending = s.pending := by
  unfold releaseAdvance; (repeat' split) <;> simp

@[simp] theorem stageAuxiliary_frame (b : BufferId) (s : State) :
    (stageAuxiliary b s).pins = s.pins ∧ (stageAuxiliary b s).mem = s.mem ∧
    (stageAuxiliary b s).bpu.isOpen = s.bpu.isOpen ∧ (stageAuxiliary b s).bpu.latches = s.bpu.latches ∧
    (stageAuxiliary b s).bpu.needs = s.bpu.needs ∧ (stageAuxiliary b s).bpu.deliveries = s.bpu.deliveries ∧
    (stageAuxiliary b s).bpu.hostData = s.bpu.hostData ∧ (stageAuxiliary b s).mpa = s.mpa ∧
    (stageAuxiliary b s).ssc = s.ssc ∧ (stageAuxiliary b s).lsv = s.lsv ∧ (stageAuxiliary b s).fin = s.fin ∧
    (stageAuxiliary b s).rct = s.rct ∧ (stageAuxiliary b s).mpl.fitted = s.mpl.fitted ∧
    (stageAuxiliary b s).mpl.k = s.mpl.k ∧ (stageAuxiliary b s).mpl.slots = s.mpl.slots ∧
    (stageAuxiliary b s).mpl.generation = s.mpl.generation ∧ (stageAuxiliary b s).mpl.table = s.mpl.table ∧
    (stageAuxiliary b s).rfs.image = s.rfs.image ∧ (stageAuxiliary b s).rfs.amplitudeMark = s.rfs.amplitudeMark ∧
    (stageAuxiliary b s).rfs.angleMark = s.rfs.angleMark ∧ (stageAuxiliary b s).rfs.cursor = s.rfs.cursor ∧
    (stageAuxiliary b s).hif = s.hif ∧ (stageAuxiliary b s).cap = s.cap ∧ (stageAuxiliary b s).pld = s.pld ∧
    (stageAuxiliary b s).itm = s.itm ∧ (stageAuxiliary b s).plan = s.plan ∧ (stageAuxiliary b s).cuts = s.cuts ∧
    (stageAuxiliary b s).pending = s.pending := by
  refine ⟨?_, ?_, ?_, ?_, ?_, ?_, ?_, ?_, ?_, ?_, ?_, ?_, ?_, ?_, ?_, ?_, ?_, ?_, ?_, ?_, ?_, ?_, ?_, ?_, ?_, ?_, ?_, ?_⟩ <;>
    (simp only [stageAuxiliary, ite_state, ite_bpu, ite_mpl, ite_rfs, ite_mpa]; (repeat' split) <;> simp [ite_state, ite_bpu, ite_mpl, ite_rfs, ite_mpa])

@[simp] theorem stageTwo_frame (b : BufferId) (s : State) :
    (stageTwo b s).pins = s.pins ∧ (stageTwo b s).mem = s.mem ∧ (stageTwo b s).bpu.isOpen = s.bpu.isOpen ∧
    (stageTwo b s).bpu.latches = s.bpu.latches ∧ (stageTwo b s).bpu.needs = s.bpu.needs ∧
    (stageTwo b s).bpu.deliveries = s.bpu.deliveries ∧ (stageTwo b s).bpu.hostData = s.bpu.hostData ∧
    (stageTwo b s).mpa = s.mpa ∧ (stageTwo b s).ssc = s.ssc ∧ (stageTwo b s).lsv = s.lsv ∧
    (stageTwo b s).fin = s.fin ∧ (stageTwo b s).rct = s.rct ∧ (stageTwo b s).mpl.fitted = s.mpl.fitted ∧
    (stageTwo b s).mpl.k = s.mpl.k ∧ (stageTwo b s).mpl.slots = s.mpl.slots ∧
    (stageTwo b s).mpl.generation = s.mpl.generation ∧ (stageTwo b s).mpl.table = s.mpl.table ∧
    (stageTwo b s).rfs.image = s.rfs.image ∧ (stageTwo b s).rfs.amplitudeMark = s.rfs.amplitudeMark ∧
    (stageTwo b s).rfs.angleMark = s.rfs.angleMark ∧ (stageTwo b s).rfs.cursor = s.rfs.cursor ∧
    (stageTwo b s).hif = s.hif ∧ (stageTwo b s).cap = s.cap ∧ (stageTwo b s).pld = s.pld ∧
    (stageTwo b s).itm = s.itm ∧ (stageTwo b s).plan = s.plan ∧ (stageTwo b s).cuts = s.cuts ∧
    (stageTwo b s).pending = s.pending := by
  unfold stageTwo; (repeat' split) <;> simp [ite_state, ite_bpu, ite_mpl, ite_rfs, ite_mpa]

@[simp] theorem stageThree_frame (b : BufferId) (s : State) :
    (stageThree b s).pins = s.pins ∧ (stageThree b s).mem = s.mem ∧ (stageThree b s).bpu.isOpen = s.bpu.isOpen ∧
    (stageThree b s).bpu.latches = s.bpu.latches ∧ (stageThree b s).bpu.needs = s.bpu.needs ∧
    (stageThree b s).bpu.deliveries = s.bpu.deliveries ∧ (stageThree b s).bpu.hostData = s.bpu.hostData ∧
    (stageThree b s).mpa = s.mpa ∧ (stageThree b s).ssc = s.ssc ∧ (stageThree b s).lsv = s.lsv ∧
    (stageThree b s).fin = s.fin ∧ (stageThree b s).rct = s.rct ∧ (stageThree b s).mpl.fitted = s.mpl.fitted ∧
    (stageThree b s).mpl.k = s.mpl.k ∧ (stageThree b s).mpl.slots = s.mpl.slots ∧
    (stageThree b s).mpl.generation = s.mpl.generation ∧ (stageThree b s).mpl.table = s.mpl.table ∧
    (stageThree b s).rfs.image = s.rfs.image ∧ (stageThree b s).rfs.amplitudeMark = s.rfs.amplitudeMark ∧
    (stageThree b s).rfs.angleMark = s.rfs.angleMark ∧ (stageThree b s).rfs.aux = s.rfs.aux ∧
    (stageThree b s).rfs.cursor = s.rfs.cursor ∧ (stageThree b s).hif = s.hif ∧ (stageThree b s).cap = s.cap ∧
    (stageThree b s).log = s.log ∧ (stageThree b s).pld = s.pld ∧ (stageThree b s).itm = s.itm ∧
    (stageThree b s).plan = s.plan ∧ (stageThree b s).cuts = s.cuts ∧ (stageThree b s).pending = s.pending := by
  unfold stageThree; (repeat' split) <;> simp [ite_state, ite_bpu, ite_mpl, ite_rfs, ite_mpa]

@[simp] theorem fillBuffer_frame (b : BufferId) (s : State) :
    (fillBuffer b s).pins = s.pins ∧ (fillBuffer b s).mem = s.mem ∧ (fillBuffer b s).bpu.isOpen = s.bpu.isOpen ∧
    (fillBuffer b s).bpu.latches = s.bpu.latches ∧ (fillBuffer b s).bpu.needs = s.bpu.needs ∧
    (fillBuffer b s).bpu.deliveries = s.bpu.deliveries ∧ (fillBuffer b s).bpu.hostData = s.bpu.hostData ∧
    (fillBuffer b s).mpa = s.mpa ∧ (fillBuffer b s).ssc = s.ssc ∧ (fillBuffer b s).lsv = s.lsv ∧
    (fillBuffer b s).fin = s.fin ∧ (fillBuffer b s).rct = s.rct ∧ (fillBuffer b s).mpl.fitted = s.mpl.fitted ∧
    (fillBuffer b s).mpl.k = s.mpl.k ∧ (fillBuffer b s).mpl.slots = s.mpl.slots ∧
    (fillBuffer b s).mpl.generation = s.mpl.generation ∧ (fillBuffer b s).mpl.table = s.mpl.table ∧
    (fillBuffer b s).rfs.image = s.rfs.image ∧ (fillBuffer b s).rfs.amplitudeMark = s.rfs.amplitudeMark ∧
    (fillBuffer b s).rfs.angleMark = s.rfs.angleMark ∧ (fillBuffer b s).rfs.cursor = s.rfs.cursor ∧
    (fillBuffer b s).hif = s.hif ∧ (fillBuffer b s).cap = s.cap ∧ (fillBuffer b s).pld = s.pld ∧
    (fillBuffer b s).itm = s.itm ∧ (fillBuffer b s).plan = s.plan ∧ (fillBuffer b s).cuts = s.cuts ∧
    (fillBuffer b s).pending = s.pending := by
  unfold fillBuffer; (repeat' split) <;> simp [ite_state, ite_bpu, ite_mpl, ite_rfs, ite_mpa]

@[simp] theorem fill_frame (s : State) :
    (fill s).pins = s.pins ∧ (fill s).mem = s.mem ∧ (fill s).bpu.isOpen = s.bpu.isOpen ∧
    (fill s).bpu.latches = s.bpu.latches ∧ (fill s).bpu.needs = s.bpu.needs ∧
    (fill s).bpu.deliveries = s.bpu.deliveries ∧ (fill s).bpu.hostData = s.bpu.hostData ∧ (fill s).mpa = s.mpa ∧
    (fill s).ssc = s.ssc ∧ (fill s).lsv = s.lsv ∧ (fill s).fin = s.fin ∧ (fill s).rct = s.rct ∧
    (fill s).mpl.fitted = s.mpl.fitted ∧ (fill s).mpl.k = s.mpl.k ∧ (fill s).mpl.slots = s.mpl.slots ∧
    (fill s).mpl.generation = s.mpl.generation ∧ (fill s).mpl.table = s.mpl.table ∧
    (fill s).rfs.image = s.rfs.image ∧ (fill s).rfs.amplitudeMark = s.rfs.amplitudeMark ∧
    (fill s).rfs.angleMark = s.rfs.angleMark ∧ (fill s).rfs.cursor = s.rfs.cursor ∧ (fill s).hif = s.hif ∧
    (fill s).cap = s.cap ∧ (fill s).pld = s.pld ∧ (fill s).itm = s.itm ∧ (fill s).plan = s.plan ∧
    (fill s).cuts = s.cuts ∧ (fill s).pending = s.pending := by
  simp [fill]

@[simp] theorem stopNeed_frame (n : Need) (s : State) :
    (stopNeed n s).pins = s.pins ∧ (stopNeed n s).mem = s.mem ∧ (stopNeed n s).bpu.isOpen = s.bpu.isOpen ∧
    (stopNeed n s).bpu.latches = s.bpu.latches ∧ (stopNeed n s).bpu.deliveries = s.bpu.deliveries ∧
    (stopNeed n s).bpu.hostData = s.bpu.hostData ∧ (stopNeed n s).mpa = s.mpa ∧ (stopNeed n s).ssc = s.ssc ∧
    (stopNeed n s).lsv = s.lsv ∧ (stopNeed n s).fin = s.fin ∧ (stopNeed n s).rct = s.rct ∧
    (stopNeed n s).mpl = s.mpl ∧ (stopNeed n s).rfs.image = s.rfs.image ∧
    (stopNeed n s).rfs.amplitudeMark = s.rfs.amplitudeMark ∧ (stopNeed n s).rfs.angleMark = s.rfs.angleMark ∧
    (stopNeed n s).rfs.cursor = s.rfs.cursor ∧ (stopNeed n s).rfs.stage = s.rfs.stage ∧ (stopNeed n s).wen = s.wen ∧
    (stopNeed n s).hif = s.hif ∧ (stopNeed n s).cap = s.cap ∧ (stopNeed n s).log = s.log ∧
    (stopNeed n s).pld = s.pld ∧ (stopNeed n s).itm = s.itm ∧ (stopNeed n s).plan = s.plan ∧
    (stopNeed n s).cuts = s.cuts ∧ (stopNeed n s).pending = s.pending := by
  unfold stopNeed; (repeat' split) <;> simp [ite_state, ite_bpu, ite_mpl, ite_rfs, ite_mpa]

@[simp] theorem grantLoop_frame  (n : Nat) (s : State) :
    (grantLoop n s).pins = s.pins ∧ (grantLoop n s).mem = s.mem ∧ (grantLoop n s).bpu.isOpen = s.bpu.isOpen ∧
    (grantLoop n s).bpu.latches = s.bpu.latches ∧ (grantLoop n s).bpu.deliveries = s.bpu.deliveries ∧
    (grantLoop n s).bpu.hostData = s.bpu.hostData ∧ (grantLoop n s).ssc = s.ssc ∧ (grantLoop n s).lsv = s.lsv ∧
    (grantLoop n s).fin = s.fin ∧ (grantLoop n s).rct = s.rct ∧ (grantLoop n s).mpl = s.mpl ∧
    (grantLoop n s).rfs.image = s.rfs.image ∧ (grantLoop n s).rfs.amplitudeMark = s.rfs.amplitudeMark ∧
    (grantLoop n s).rfs.angleMark = s.rfs.angleMark ∧ (grantLoop n s).rfs.cursor = s.rfs.cursor ∧
    (grantLoop n s).rfs.stage = s.rfs.stage ∧ (grantLoop n s).hif = s.hif ∧ (grantLoop n s).cap = s.cap ∧
    (grantLoop n s).log = s.log ∧ (grantLoop n s).pld = s.pld ∧ (grantLoop n s).itm = s.itm ∧
    (grantLoop n s).plan = s.plan ∧ (grantLoop n s).cuts = s.cuts ∧ (grantLoop n s).pending = s.pending := by
  induction n generalizing s with
  | zero => simp [grantLoop]
  | succ n ih =>
    refine ⟨?_, ?_, ?_, ?_, ?_, ?_, ?_, ?_, ?_, ?_, ?_, ?_, ?_, ?_, ?_, ?_, ?_, ?_, ?_, ?_, ?_, ?_, ?_, ?_⟩ <;> (simp only [grantLoop]; (repeat' split) <;> simp [ih])

@[simp] theorem grant_frame (s : State) :
    (grant s).pins = s.pins ∧ (grant s).mem = s.mem ∧ (grant s).bpu.isOpen = s.bpu.isOpen ∧
    (grant s).bpu.latches = s.bpu.latches ∧ (grant s).bpu.deliveries = s.bpu.deliveries ∧
    (grant s).bpu.hostData = s.bpu.hostData ∧ (grant s).ssc = s.ssc ∧ (grant s).lsv = s.lsv ∧
    (grant s).fin = s.fin ∧ (grant s).rct = s.rct ∧ (grant s).mpl = s.mpl ∧ (grant s).rfs.image = s.rfs.image ∧
    (grant s).rfs.amplitudeMark = s.rfs.amplitudeMark ∧ (grant s).rfs.angleMark = s.rfs.angleMark ∧
    (grant s).rfs.cursor = s.rfs.cursor ∧ (grant s).rfs.stage = s.rfs.stage ∧ (grant s).hif = s.hif ∧
    (grant s).cap = s.cap ∧ (grant s).log = s.log ∧ (grant s).pld = s.pld ∧ (grant s).itm = s.itm ∧
    (grant s).plan = s.plan ∧ (grant s).cuts = s.cuts ∧ (grant s).pending = s.pending := by
  unfold grant; (repeat' split) <;> simp [ite_state, ite_bpu, ite_mpl, ite_rfs, ite_mpa]

@[simp] theorem settle_frame (s : State) :
    (settle s).pins = s.pins ∧ (settle s).mem = s.mem ∧ (settle s).bpu.isOpen = s.bpu.isOpen ∧
    (settle s).bpu.latches = s.bpu.latches ∧ (settle s).bpu.deliveries = s.bpu.deliveries ∧
    (settle s).bpu.hostData = s.bpu.hostData ∧ (settle s).ssc = s.ssc ∧ (settle s).lsv = s.lsv ∧
    (settle s).fin = s.fin ∧ (settle s).rct = s.rct ∧ (settle s).mpl.fitted = s.mpl.fitted ∧
    (settle s).mpl.k = s.mpl.k ∧ (settle s).mpl.slots = s.mpl.slots ∧ (settle s).mpl.generation = s.mpl.generation ∧
    (settle s).mpl.table = s.mpl.table ∧ (settle s).rfs.image = s.rfs.image ∧
    (settle s).rfs.amplitudeMark = s.rfs.amplitudeMark ∧ (settle s).rfs.angleMark = s.rfs.angleMark ∧
    (settle s).rfs.cursor = s.rfs.cursor ∧ (settle s).hif = s.hif ∧ (settle s).cap = s.cap ∧
    (settle s).pld = s.pld ∧ (settle s).itm = s.itm ∧ (settle s).plan = s.plan ∧ (settle s).cuts = s.cuts ∧
    (settle s).pending = s.pending := by
  simp [settle]

@[simp] theorem pushNeed_frame (n : Need) (s : State) :
    (pushNeed n s).pins = s.pins ∧ (pushNeed n s).mem = s.mem ∧ (pushNeed n s).bpu.isOpen = s.bpu.isOpen ∧
    (pushNeed n s).bpu.latches = s.bpu.latches ∧ (pushNeed n s).bpu.counts = s.bpu.counts ∧
    (pushNeed n s).bpu.deliveries = s.bpu.deliveries ∧ (pushNeed n s).bpu.hostData = s.bpu.hostData ∧
    (pushNeed n s).mpa = s.mpa ∧ (pushNeed n s).ssc = s.ssc ∧ (pushNeed n s).lsv = s.lsv ∧
    (pushNeed n s).fin = s.fin ∧ (pushNeed n s).rct = s.rct ∧ (pushNeed n s).mpl = s.mpl ∧
    (pushNeed n s).rfs = s.rfs ∧ (pushNeed n s).wen = s.wen ∧ (pushNeed n s).hif = s.hif ∧
    (pushNeed n s).cap = s.cap ∧ (pushNeed n s).log = s.log ∧ (pushNeed n s).pld = s.pld ∧
    (pushNeed n s).itm = s.itm ∧ (pushNeed n s).plan = s.plan ∧ (pushNeed n s).cuts = s.cuts ∧
    (pushNeed n s).pending = s.pending := by
  simp [pushNeed]

@[simp] theorem answerHost_frame (v : Word) (s : State) :
    (answerHost v s).pins = s.pins ∧ (answerHost v s).mem = s.mem ∧ (answerHost v s).bpu.isOpen = s.bpu.isOpen ∧
    (answerHost v s).bpu.latches = s.bpu.latches ∧ (answerHost v s).bpu.needs = s.bpu.needs ∧
    (answerHost v s).bpu.counts = s.bpu.counts ∧ (answerHost v s).bpu.deliveries = s.bpu.deliveries ∧
    (answerHost v s).mpa = s.mpa ∧ (answerHost v s).ssc = s.ssc ∧ (answerHost v s).lsv = s.lsv ∧
    (answerHost v s).fin = s.fin ∧ (answerHost v s).rct = s.rct ∧ (answerHost v s).mpl = s.mpl ∧
    (answerHost v s).rfs = s.rfs ∧ (answerHost v s).wen = s.wen ∧ (answerHost v s).hif = s.hif ∧
    (answerHost v s).cap = s.cap ∧ (answerHost v s).log = s.log ∧ (answerHost v s).pld = s.pld ∧
    (answerHost v s).itm = s.itm ∧ (answerHost v s).plan = s.plan ∧ (answerHost v s).cuts = s.cuts ∧
    (answerHost v s).pending = s.pending := by
  simp [answerHost]

@[simp] theorem setLatch_frame (p : Phase) (l : Option Latch) (s : State) :
    (setLatch p l s).pins = s.pins ∧ (setLatch p l s).mem = s.mem ∧ (setLatch p l s).bpu.isOpen = s.bpu.isOpen ∧
    (setLatch p l s).bpu.needs = s.bpu.needs ∧ (setLatch p l s).bpu.counts = s.bpu.counts ∧
    (setLatch p l s).bpu.deliveries = s.bpu.deliveries ∧ (setLatch p l s).bpu.hostData = s.bpu.hostData ∧
    (setLatch p l s).mpa = s.mpa ∧ (setLatch p l s).ssc = s.ssc ∧ (setLatch p l s).lsv = s.lsv ∧
    (setLatch p l s).fin = s.fin ∧ (setLatch p l s).rct = s.rct ∧ (setLatch p l s).mpl = s.mpl ∧
    (setLatch p l s).rfs = s.rfs ∧ (setLatch p l s).wen = s.wen ∧ (setLatch p l s).hif = s.hif ∧
    (setLatch p l s).cap = s.cap ∧ (setLatch p l s).log = s.log ∧ (setLatch p l s).pld = s.pld ∧
    (setLatch p l s).itm = s.itm ∧ (setLatch p l s).plan = s.plan ∧ (setLatch p l s).cuts = s.cuts ∧
    (setLatch p l s).pending = s.pending := by
  simp [setLatch]

@[simp] theorem commitAlone_frame (p : Phase) (l : Latch) (s : State) :
    (commitAlone p l s).pins = s.pins ∧ (commitAlone p l s).mem = s.mem ∧
    (commitAlone p l s).bpu.isOpen = s.bpu.isOpen ∧ (commitAlone p l s).bpu.deliveries = s.bpu.deliveries ∧
    (commitAlone p l s).bpu.hostData = s.bpu.hostData ∧ (commitAlone p l s).mpa = s.mpa ∧
    (commitAlone p l s).ssc = s.ssc ∧ (commitAlone p l s).lsv = s.lsv ∧ (commitAlone p l s).fin = s.fin ∧
    (commitAlone p l s).rct = s.rct ∧ (commitAlone p l s).mpl.fitted = s.mpl.fitted ∧
    (commitAlone p l s).mpl.k = s.mpl.k ∧ (commitAlone p l s).mpl.slots = s.mpl.slots ∧
    (commitAlone p l s).mpl.generation = s.mpl.generation ∧ (commitAlone p l s).mpl.table = s.mpl.table ∧
    (commitAlone p l s).rfs = s.rfs ∧ (commitAlone p l s).wen = s.wen ∧ (commitAlone p l s).hif = s.hif ∧
    (commitAlone p l s).cap = s.cap ∧ (commitAlone p l s).log = s.log ∧ (commitAlone p l s).pld = s.pld ∧
    (commitAlone p l s).itm = s.itm ∧ (commitAlone p l s).plan = s.plan ∧ (commitAlone p l s).cuts = s.cuts ∧
    (commitAlone p l s).pending = s.pending := by
  simp [commitAlone]

@[simp] theorem commitOther_frame (r : Rec) (s : State) :
    (commitOther r s).pins = s.pins ∧ (commitOther r s).mem = s.mem ∧ (commitOther r s).bpu.isOpen = s.bpu.isOpen ∧
    (commitOther r s).bpu.deliveries = s.bpu.deliveries ∧ (commitOther r s).bpu.hostData = s.bpu.hostData ∧
    (commitOther r s).mpa = s.mpa ∧ (commitOther r s).ssc = s.ssc ∧ (commitOther r s).lsv = s.lsv ∧
    (commitOther r s).fin = s.fin ∧ (commitOther r s).rct = s.rct ∧ (commitOther r s).mpl.fitted = s.mpl.fitted ∧
    (commitOther r s).mpl.k = s.mpl.k ∧ (commitOther r s).mpl.slots = s.mpl.slots ∧
    (commitOther r s).mpl.generation = s.mpl.generation ∧ (commitOther r s).mpl.table = s.mpl.table ∧
    (commitOther r s).rfs = s.rfs ∧ (commitOther r s).wen = s.wen ∧ (commitOther r s).hif = s.hif ∧
    (commitOther r s).cap = s.cap ∧ (commitOther r s).log = s.log ∧ (commitOther r s).pld = s.pld ∧
    (commitOther r s).itm = s.itm ∧ (commitOther r s).plan = s.plan ∧ (commitOther r s).cuts = s.cuts ∧
    (commitOther r s).pending = s.pending := by
  unfold commitOther; (repeat' split) <;> simp [ite_state, ite_bpu, ite_mpl, ite_rfs, ite_mpa]

@[simp] theorem commitPhase_frame (p : Phase) (s : State) :
    (commitPhase p s).pins = s.pins ∧ (commitPhase p s).mem = s.mem ∧ (commitPhase p s).bpu.isOpen = s.bpu.isOpen ∧
    (commitPhase p s).bpu.deliveries = s.bpu.deliveries ∧ (commitPhase p s).bpu.hostData = s.bpu.hostData ∧
    (commitPhase p s).mpa = s.mpa ∧ (commitPhase p s).ssc = s.ssc ∧ (commitPhase p s).lsv = s.lsv ∧
    (commitPhase p s).fin = s.fin ∧ (commitPhase p s).rct = s.rct ∧ (commitPhase p s).mpl.fitted = s.mpl.fitted ∧
    (commitPhase p s).mpl.k = s.mpl.k ∧ (commitPhase p s).mpl.slots = s.mpl.slots ∧
    (commitPhase p s).mpl.generation = s.mpl.generation ∧ (commitPhase p s).mpl.table = s.mpl.table ∧
    (commitPhase p s).rfs = s.rfs ∧ (commitPhase p s).wen = s.wen ∧ (commitPhase p s).hif = s.hif ∧
    (commitPhase p s).cap = s.cap ∧ (commitPhase p s).log = s.log ∧ (commitPhase p s).pld = s.pld ∧
    (commitPhase p s).itm = s.itm ∧ (commitPhase p s).plan = s.plan ∧ (commitPhase p s).cuts = s.cuts ∧
    (commitPhase p s).pending = s.pending := by
  unfold commitPhase; (repeat' split) <;> simp [ite_state, ite_bpu, ite_mpl, ite_rfs, ite_mpa]

@[simp] theorem commitPhase_fold_frame  (l : List Phase) (s : State) :
    (l.foldl (fun t p => commitPhase p t) s).pins = s.pins ∧ (l.foldl (fun t p => commitPhase p t) s).mem = s.mem ∧
    (l.foldl (fun t p => commitPhase p t) s).bpu.isOpen = s.bpu.isOpen ∧
    (l.foldl (fun t p => commitPhase p t) s).bpu.deliveries = s.bpu.deliveries ∧
    (l.foldl (fun t p => commitPhase p t) s).bpu.hostData = s.bpu.hostData ∧
    (l.foldl (fun t p => commitPhase p t) s).mpa = s.mpa ∧ (l.foldl (fun t p => commitPhase p t) s).ssc = s.ssc ∧
    (l.foldl (fun t p => commitPhase p t) s).lsv = s.lsv ∧ (l.foldl (fun t p => commitPhase p t) s).fin = s.fin ∧
    (l.foldl (fun t p => commitPhase p t) s).rct = s.rct ∧
    (l.foldl (fun t p => commitPhase p t) s).mpl.fitted = s.mpl.fitted ∧
    (l.foldl (fun t p => commitPhase p t) s).mpl.k = s.mpl.k ∧
    (l.foldl (fun t p => commitPhase p t) s).mpl.slots = s.mpl.slots ∧
    (l.foldl (fun t p => commitPhase p t) s).mpl.generation = s.mpl.generation ∧
    (l.foldl (fun t p => commitPhase p t) s).mpl.table = s.mpl.table ∧
    (l.foldl (fun t p => commitPhase p t) s).rfs = s.rfs ∧ (l.foldl (fun t p => commitPhase p t) s).wen = s.wen ∧
    (l.foldl (fun t p => commitPhase p t) s).hif = s.hif ∧ (l.foldl (fun t p => commitPhase p t) s).cap = s.cap ∧
    (l.foldl (fun t p => commitPhase p t) s).log = s.log ∧ (l.foldl (fun t p => commitPhase p t) s).pld = s.pld ∧
    (l.foldl (fun t p => commitPhase p t) s).itm = s.itm ∧ (l.foldl (fun t p => commitPhase p t) s).plan = s.plan ∧
    (l.foldl (fun t p => commitPhase p t) s).cuts = s.cuts ∧
    (l.foldl (fun t p => commitPhase p t) s).pending = s.pending := by
  refine ⟨foldl_frame (·.pins) _ (fun t a => by simp) l s, foldl_frame (·.mem) _ (fun t a => by simp) l s, foldl_frame (·.bpu.isOpen) _ (fun t a => by simp) l s, foldl_frame (·.bpu.deliveries) _ (fun t a => by simp) l s, foldl_frame (·.bpu.hostData) _ (fun t a => by simp) l s, foldl_frame (·.mpa) _ (fun t a => by simp) l s, foldl_frame (·.ssc) _ (fun t a => by simp) l s, foldl_frame (·.lsv) _ (fun t a => by simp) l s, foldl_frame (·.fin) _ (fun t a => by simp) l s, foldl_frame (·.rct) _ (fun t a => by simp) l s, foldl_frame (·.mpl.fitted) _ (fun t a => by simp) l s, foldl_frame (·.mpl.k) _ (fun t a => by simp) l s, foldl_frame (·.mpl.slots) _ (fun t a => by simp) l s, foldl_frame (·.mpl.generation) _ (fun t a => by simp) l s, foldl_frame (·.mpl.table) _ (fun t a => by simp) l s, foldl_frame (·.rfs) _ (fun t a => by simp) l s, foldl_frame (·.wen) _ (fun t a => by simp) l s, foldl_frame (·.hif) _ (fun t a => by simp) l s, foldl_frame (·.cap) _ (fun t a => by simp) l s, foldl_frame (·.log) _ (fun t a => by simp) l s, foldl_frame (·.pld) _ (fun t a => by simp) l s, foldl_frame (·.itm) _ (fun t a => by simp) l s, foldl_frame (·.plan) _ (fun t a => by simp) l s, foldl_frame (·.cuts) _ (fun t a => by simp) l s, foldl_frame (·.pending) _ (fun t a => by simp) l s⟩

@[simp] theorem commitAll_frame (s : State) :
    (commitAll s).pins = s.pins ∧ (commitAll s).mem = s.mem ∧ (commitAll s).bpu.isOpen = s.bpu.isOpen ∧
    (commitAll s).bpu.deliveries = s.bpu.deliveries ∧ (commitAll s).bpu.hostData = s.bpu.hostData ∧
    (commitAll s).mpa = s.mpa ∧ (commitAll s).ssc = s.ssc ∧ (commitAll s).lsv = s.lsv ∧ (commitAll s).fin = s.fin ∧
    (commitAll s).rct = s.rct ∧ (commitAll s).mpl.fitted = s.mpl.fitted ∧ (commitAll s).mpl.k = s.mpl.k ∧
    (commitAll s).mpl.slots = s.mpl.slots ∧ (commitAll s).mpl.generation = s.mpl.generation ∧
    (commitAll s).mpl.table = s.mpl.table ∧ (commitAll s).rfs = s.rfs ∧ (commitAll s).wen = s.wen ∧
    (commitAll s).hif = s.hif ∧ (commitAll s).cap = s.cap ∧ (commitAll s).log = s.log ∧ (commitAll s).pld = s.pld ∧
    (commitAll s).itm = s.itm ∧ (commitAll s).plan = s.plan ∧ (commitAll s).cuts = s.cuts ∧
    (commitAll s).pending = s.pending := by
  simp [commitAll]

@[simp] theorem setImage_frame (r : Rec) (f : RefRecord → RefRecord) (s : State) :
    (setImage r f s).pins = s.pins ∧ (setImage r f s).mem = s.mem ∧ (setImage r f s).bpu = s.bpu ∧
    (setImage r f s).mpa = s.mpa ∧ (setImage r f s).ssc = s.ssc ∧ (setImage r f s).lsv = s.lsv ∧
    (setImage r f s).fin = s.fin ∧ (setImage r f s).rct = s.rct ∧ (setImage r f s).mpl = s.mpl ∧
    (setImage r f s).rfs.amplitudeMark = s.rfs.amplitudeMark ∧ (setImage r f s).rfs.angleMark = s.rfs.angleMark ∧
    (setImage r f s).rfs.aux = s.rfs.aux ∧ (setImage r f s).rfs.cursor = s.rfs.cursor ∧
    (setImage r f s).rfs.stage = s.rfs.stage ∧ (setImage r f s).wen = s.wen ∧ (setImage r f s).hif = s.hif ∧
    (setImage r f s).cap = s.cap ∧ (setImage r f s).log = s.log ∧ (setImage r f s).pld = s.pld ∧
    (setImage r f s).itm = s.itm ∧ (setImage r f s).plan = s.plan ∧ (setImage r f s).cuts = s.cuts ∧
    (setImage r f s).pending = s.pending := by
  simp [setImage]

@[simp] theorem forward_frame (r : Rec) (w : Fin 8) (v : Word) (s : State) :
    (forward r w v s).pins = s.pins ∧ (forward r w v s).mem = s.mem ∧ (forward r w v s).bpu.isOpen = s.bpu.isOpen ∧
    (forward r w v s).bpu.latches = s.bpu.latches ∧ (forward r w v s).bpu.counts = s.bpu.counts ∧
    (forward r w v s).bpu.deliveries = s.bpu.deliveries ∧ (forward r w v s).bpu.hostData = s.bpu.hostData ∧
    (forward r w v s).mpa = s.mpa ∧ (forward r w v s).ssc = s.ssc ∧ (forward r w v s).lsv = s.lsv ∧
    (forward r w v s).fin = s.fin ∧ (forward r w v s).rct = s.rct ∧ (forward r w v s).mpl = s.mpl ∧
    (forward r w v s).rfs = s.rfs ∧ (forward r w v s).wen = s.wen ∧ (forward r w v s).hif = s.hif ∧
    (forward r w v s).cap = s.cap ∧ (forward r w v s).log = s.log ∧ (forward r w v s).pld = s.pld ∧
    (forward r w v s).itm = s.itm ∧ (forward r w v s).plan = s.plan ∧ (forward r w v s).cuts = s.cuts ∧
    (forward r w v s).pending = s.pending := by
  unfold forward; (repeat' split) <;> simp [ite_state, ite_bpu, ite_mpl, ite_rfs, ite_mpa]

@[simp] theorem writeGate_frame (r : Rec) (v : Word) (s : State) :
    (writeGate r v s).pins = s.pins ∧ (writeGate r v s).mem = s.mem ∧ (writeGate r v s).bpu.isOpen = s.bpu.isOpen ∧
    (writeGate r v s).bpu.deliveries = s.bpu.deliveries ∧ (writeGate r v s).bpu.hostData = s.bpu.hostData ∧
    (writeGate r v s).mpa = s.mpa ∧ (writeGate r v s).ssc = s.ssc ∧ (writeGate r v s).lsv = s.lsv ∧
    (writeGate r v s).fin = s.fin ∧ (writeGate r v s).rct = s.rct ∧ (writeGate r v s).mpl.fitted = s.mpl.fitted ∧
    (writeGate r v s).mpl.k = s.mpl.k ∧ (writeGate r v s).mpl.slots = s.mpl.slots ∧
    (writeGate r v s).mpl.generation = s.mpl.generation ∧ (writeGate r v s).mpl.table = s.mpl.table ∧
    (writeGate r v s).rfs.amplitudeMark = s.rfs.amplitudeMark ∧ (writeGate r v s).rfs.angleMark = s.rfs.angleMark ∧
    (writeGate r v s).rfs.aux = s.rfs.aux ∧ (writeGate r v s).rfs.cursor = s.rfs.cursor ∧
    (writeGate r v s).rfs.stage = s.rfs.stage ∧ (writeGate r v s).wen = s.wen ∧ (writeGate r v s).hif = s.hif ∧
    (writeGate r v s).cap = s.cap ∧ (writeGate r v s).log = s.log ∧ (writeGate r v s).pld = s.pld ∧
    (writeGate r v s).itm = s.itm ∧ (writeGate r v s).plan = s.plan ∧ (writeGate r v s).cuts = s.cuts ∧
    (writeGate r v s).pending = s.pending := by
  simp only [writeGate, ite_state, ite_bpu, ite_mpl, ite_rfs, ite_mpa]
  simp [ite_state, ite_bpu, ite_mpl, ite_rfs, ite_mpa]

@[simp] theorem latchAmplitude_frame (r : Rec) (i : Slot) (v : Word) (s : State) :
    (latchAmplitude r i v s).pins = s.pins ∧ (latchAmplitude r i v s).mem = s.mem ∧
    (latchAmplitude r i v s).bpu.isOpen = s.bpu.isOpen ∧
    (latchAmplitude r i v s).bpu.deliveries = s.bpu.deliveries ∧
    (latchAmplitude r i v s).bpu.hostData = s.bpu.hostData ∧ (latchAmplitude r i v s).mpa = s.mpa ∧
    (latchAmplitude r i v s).ssc = s.ssc ∧ (latchAmplitude r i v s).lsv = s.lsv ∧
    (latchAmplitude r i v s).fin = s.fin ∧ (latchAmplitude r i v s).rct = s.rct ∧
    (latchAmplitude r i v s).mpl.fitted = s.mpl.fitted ∧ (latchAmplitude r i v s).mpl.k = s.mpl.k ∧
    (latchAmplitude r i v s).mpl.slots = s.mpl.slots ∧ (latchAmplitude r i v s).mpl.generation = s.mpl.generation ∧
    (latchAmplitude r i v s).mpl.table = s.mpl.table ∧ (latchAmplitude r i v s).rfs = s.rfs ∧
    (latchAmplitude r i v s).wen = s.wen ∧ (latchAmplitude r i v s).hif = s.hif ∧
    (latchAmplitude r i v s).cap = s.cap ∧ (latchAmplitude r i v s).log = s.log ∧
    (latchAmplitude r i v s).pld = s.pld ∧ (latchAmplitude r i v s).itm = s.itm ∧
    (latchAmplitude r i v s).plan = s.plan ∧ (latchAmplitude r i v s).cuts = s.cuts ∧
    (latchAmplitude r i v s).pending = s.pending := by
  simp only [latchAmplitude, ite_state, ite_bpu, ite_mpl, ite_rfs, ite_mpa]
  simp [ite_state, ite_bpu, ite_mpl, ite_rfs, ite_mpa]

@[simp] theorem storeAmplitude_frame (r : Rec) (v : Word) (s : State) :
    (storeAmplitude r v s).pins = s.pins ∧ (storeAmplitude r v s).mem = s.mem ∧
    (storeAmplitude r v s).bpu.isOpen = s.bpu.isOpen ∧ (storeAmplitude r v s).bpu.latches = s.bpu.latches ∧
    (storeAmplitude r v s).bpu.needs = s.bpu.needs ∧ (storeAmplitude r v s).bpu.deliveries = s.bpu.deliveries ∧
    (storeAmplitude r v s).bpu.hostData = s.bpu.hostData ∧ (storeAmplitude r v s).mpa = s.mpa ∧
    (storeAmplitude r v s).ssc = s.ssc ∧ (storeAmplitude r v s).lsv = s.lsv ∧ (storeAmplitude r v s).fin = s.fin ∧
    (storeAmplitude r v s).rct = s.rct ∧ (storeAmplitude r v s).mpl.fitted = s.mpl.fitted ∧
    (storeAmplitude r v s).mpl.k = s.mpl.k ∧ (storeAmplitude r v s).mpl.slots = s.mpl.slots ∧
    (storeAmplitude r v s).mpl.generation = s.mpl.generation ∧ (storeAmplitude r v s).mpl.table = s.mpl.table ∧
    (storeAmplitude r v s).rfs.angleMark = s.rfs.angleMark ∧ (storeAmplitude r v s).rfs.aux = s.rfs.aux ∧
    (storeAmplitude r v s).rfs.cursor = s.rfs.cursor ∧ (storeAmplitude r v s).rfs.stage = s.rfs.stage ∧
    (storeAmplitude r v s).wen = s.wen ∧ (storeAmplitude r v s).hif = s.hif ∧ (storeAmplitude r v s).cap = s.cap ∧
    (storeAmplitude r v s).log = s.log ∧ (storeAmplitude r v s).pld = s.pld ∧ (storeAmplitude r v s).itm = s.itm ∧
    (storeAmplitude r v s).plan = s.plan ∧ (storeAmplitude r v s).cuts = s.cuts ∧
    (storeAmplitude r v s).pending = s.pending := by
  simp only [storeAmplitude, ite_state, ite_bpu, ite_mpl, ite_rfs, ite_mpa]
  simp [ite_state, ite_bpu, ite_mpl, ite_rfs, ite_mpa]

@[simp] theorem writeAmplitude_frame (r : Rec) (v : Word) (s : State) :
    (writeAmplitude r v s).pins = s.pins ∧ (writeAmplitude r v s).mem = s.mem ∧
    (writeAmplitude r v s).bpu.isOpen = s.bpu.isOpen ∧ (writeAmplitude r v s).bpu.deliveries = s.bpu.deliveries ∧
    (writeAmplitude r v s).bpu.hostData = s.bpu.hostData ∧ (writeAmplitude r v s).mpa = s.mpa ∧
    (writeAmplitude r v s).ssc = s.ssc ∧ (writeAmplitude r v s).lsv = s.lsv ∧ (writeAmplitude r v s).fin = s.fin ∧
    (writeAmplitude r v s).mpl.fitted = s.mpl.fitted ∧ (writeAmplitude r v s).mpl.k = s.mpl.k ∧
    (writeAmplitude r v s).mpl.slots = s.mpl.slots ∧ (writeAmplitude r v s).mpl.generation = s.mpl.generation ∧
    (writeAmplitude r v s).mpl.table = s.mpl.table ∧ (writeAmplitude r v s).rfs.angleMark = s.rfs.angleMark ∧
    (writeAmplitude r v s).rfs.aux = s.rfs.aux ∧ (writeAmplitude r v s).cap = s.cap ∧
    (writeAmplitude r v s).pld = s.pld ∧ (writeAmplitude r v s).itm = s.itm ∧ (writeAmplitude r v s).plan = s.plan ∧
    (writeAmplitude r v s).cuts = s.cuts ∧ (writeAmplitude r v s).pending = s.pending := by
  refine ⟨?_, ?_, ?_, ?_, ?_, ?_, ?_, ?_, ?_, ?_, ?_, ?_, ?_, ?_, ?_, ?_, ?_, ?_, ?_, ?_, ?_, ?_⟩ <;>
    (simp only [writeAmplitude, ite_state, ite_bpu, ite_mpl, ite_rfs, ite_mpa]; (repeat' split) <;> simp [ite_state, ite_bpu, ite_mpl, ite_rfs, ite_mpa])

@[simp] theorem commitAngle_frame (r : Rec) (i : Slot) (v : Word) (s : State) :
    (commitAngle r i v s).pins = s.pins ∧ (commitAngle r i v s).mem = s.mem ∧
    (commitAngle r i v s).bpu.isOpen = s.bpu.isOpen ∧ (commitAngle r i v s).bpu.deliveries = s.bpu.deliveries ∧
    (commitAngle r i v s).bpu.hostData = s.bpu.hostData ∧ (commitAngle r i v s).mpa = s.mpa ∧
    (commitAngle r i v s).ssc = s.ssc ∧ (commitAngle r i v s).lsv = s.lsv ∧ (commitAngle r i v s).fin = s.fin ∧
    (commitAngle r i v s).rct = s.rct ∧ (commitAngle r i v s).mpl.fitted = s.mpl.fitted ∧
    (commitAngle r i v s).mpl.k = s.mpl.k ∧ (commitAngle r i v s).mpl.slots = s.mpl.slots ∧
    (commitAngle r i v s).mpl.generation = s.mpl.generation ∧ (commitAngle r i v s).mpl.table = s.mpl.table ∧
    (commitAngle r i v s).rfs = s.rfs ∧ (commitAngle r i v s).wen = s.wen ∧ (commitAngle r i v s).hif = s.hif ∧
    (commitAngle r i v s).cap = s.cap ∧ (commitAngle r i v s).log = s.log ∧ (commitAngle r i v s).pld = s.pld ∧
    (commitAngle r i v s).itm = s.itm ∧ (commitAngle r i v s).plan = s.plan ∧ (commitAngle r i v s).cuts = s.cuts ∧
    (commitAngle r i v s).pending = s.pending := by
  unfold commitAngle; (repeat' split) <;> simp [ite_state, ite_bpu, ite_mpl, ite_rfs, ite_mpa]

@[simp] theorem storeAngle_frame (r : Rec) (v : Word) (s : State) :
    (storeAngle r v s).pins = s.pins ∧ (storeAngle r v s).mem = s.mem ∧ (storeAngle r v s).bpu = s.bpu ∧
    (storeAngle r v s).mpa = s.mpa ∧ (storeAngle r v s).ssc = s.ssc ∧ (storeAngle r v s).lsv = s.lsv ∧
    (storeAngle r v s).fin = s.fin ∧ (storeAngle r v s).rct = s.rct ∧ (storeAngle r v s).mpl = s.mpl ∧
    (storeAngle r v s).rfs.amplitudeMark = s.rfs.amplitudeMark ∧ (storeAngle r v s).rfs.aux = s.rfs.aux ∧
    (storeAngle r v s).rfs.cursor = s.rfs.cursor ∧ (storeAngle r v s).rfs.stage = s.rfs.stage ∧
    (storeAngle r v s).wen = s.wen ∧ (storeAngle r v s).hif = s.hif ∧ (storeAngle r v s).cap = s.cap ∧
    (storeAngle r v s).log = s.log ∧ (storeAngle r v s).pld = s.pld ∧ (storeAngle r v s).itm = s.itm ∧
    (storeAngle r v s).plan = s.plan ∧ (storeAngle r v s).cuts = s.cuts ∧ (storeAngle r v s).pending = s.pending := by
  simp [storeAngle]

@[simp] theorem writeAngle_frame (r : Rec) (v : Word) (s : State) :
    (writeAngle r v s).pins = s.pins ∧ (writeAngle r v s).mem = s.mem ∧
    (writeAngle r v s).bpu.isOpen = s.bpu.isOpen ∧ (writeAngle r v s).bpu.deliveries = s.bpu.deliveries ∧
    (writeAngle r v s).bpu.hostData = s.bpu.hostData ∧ (writeAngle r v s).mpa = s.mpa ∧
    (writeAngle r v s).ssc = s.ssc ∧ (writeAngle r v s).lsv = s.lsv ∧ (writeAngle r v s).fin = s.fin ∧
    (writeAngle r v s).mpl.fitted = s.mpl.fitted ∧ (writeAngle r v s).mpl.k = s.mpl.k ∧
    (writeAngle r v s).mpl.slots = s.mpl.slots ∧ (writeAngle r v s).mpl.generation = s.mpl.generation ∧
    (writeAngle r v s).mpl.table = s.mpl.table ∧ (writeAngle r v s).rfs.amplitudeMark = s.rfs.amplitudeMark ∧
    (writeAngle r v s).rfs.aux = s.rfs.aux ∧ (writeAngle r v s).cap = s.cap ∧ (writeAngle r v s).pld = s.pld ∧
    (writeAngle r v s).itm = s.itm ∧ (writeAngle r v s).plan = s.plan ∧ (writeAngle r v s).cuts = s.cuts ∧
    (writeAngle r v s).pending = s.pending := by
  refine ⟨?_, ?_, ?_, ?_, ?_, ?_, ?_, ?_, ?_, ?_, ?_, ?_, ?_, ?_, ?_, ?_, ?_, ?_, ?_, ?_, ?_, ?_⟩ <;>
    (simp only [writeAngle, ite_state, ite_bpu, ite_mpl, ite_rfs, ite_mpa]; (repeat' split) <;> simp [ite_state, ite_bpu, ite_mpl, ite_rfs, ite_mpa])

@[simp] theorem writeCarrier_frame (r : Rec) (v : Word) (s : State) :
    (writeCarrier r v s).pins = s.pins ∧ (writeCarrier r v s).mem = s.mem ∧
    (writeCarrier r v s).bpu.isOpen = s.bpu.isOpen ∧ (writeCarrier r v s).bpu.deliveries = s.bpu.deliveries ∧
    (writeCarrier r v s).bpu.hostData = s.bpu.hostData ∧ (writeCarrier r v s).mpa = s.mpa ∧
    (writeCarrier r v s).ssc = s.ssc ∧ (writeCarrier r v s).lsv = s.lsv ∧ (writeCarrier r v s).fin = s.fin ∧
    (writeCarrier r v s).rct = s.rct ∧ (writeCarrier r v s).mpl.fitted = s.mpl.fitted ∧
    (writeCarrier r v s).mpl.k = s.mpl.k ∧ (writeCarrier r v s).mpl.slots = s.mpl.slots ∧
    (writeCarrier r v s).mpl.generation = s.mpl.generation ∧ (writeCarrier r v s).mpl.table = s.mpl.table ∧
    (writeCarrier r v s).rfs.amplitudeMark = s.rfs.amplitudeMark ∧
    (writeCarrier r v s).rfs.angleMark = s.rfs.angleMark ∧ (writeCarrier r v s).rfs.aux = s.rfs.aux ∧
    (writeCarrier r v s).rfs.cursor = s.rfs.cursor ∧ (writeCarrier r v s).rfs.stage = s.rfs.stage ∧
    (writeCarrier r v s).wen = s.wen ∧ (writeCarrier r v s).hif = s.hif ∧ (writeCarrier r v s).cap = s.cap ∧
    (writeCarrier r v s).log = s.log ∧ (writeCarrier r v s).pld = s.pld ∧ (writeCarrier r v s).itm = s.itm ∧
    (writeCarrier r v s).plan = s.plan ∧ (writeCarrier r v s).cuts = s.cuts ∧
    (writeCarrier r v s).pending = s.pending := by
  simp only [writeCarrier, ite_state, ite_bpu, ite_mpl, ite_rfs, ite_mpa]
  simp [ite_state, ite_bpu, ite_mpl, ite_rfs, ite_mpa]

@[simp] theorem writeBypass_frame (r : Rec) (s : State) :
    (writeBypass r s).pins = s.pins ∧ (writeBypass r s).mem = s.mem ∧ (writeBypass r s).bpu.isOpen = s.bpu.isOpen ∧
    (writeBypass r s).bpu.deliveries = s.bpu.deliveries ∧ (writeBypass r s).bpu.hostData = s.bpu.hostData ∧
    (writeBypass r s).mpa = s.mpa ∧ (writeBypass r s).ssc = s.ssc ∧ (writeBypass r s).lsv = s.lsv ∧
    (writeBypass r s).fin = s.fin ∧ (writeBypass r s).rct = s.rct ∧ (writeBypass r s).mpl.fitted = s.mpl.fitted ∧
    (writeBypass r s).mpl.k = s.mpl.k ∧ (writeBypass r s).mpl.slots = s.mpl.slots ∧
    (writeBypass r s).mpl.generation = s.mpl.generation ∧ (writeBypass r s).mpl.table = s.mpl.table ∧
    (writeBypass r s).rfs = s.rfs ∧ (writeBypass r s).wen = s.wen ∧ (writeBypass r s).hif = s.hif ∧
    (writeBypass r s).cap = s.cap ∧ (writeBypass r s).log = s.log ∧ (writeBypass r s).pld = s.pld ∧
    (writeBypass r s).itm = s.itm ∧ (writeBypass r s).plan = s.plan ∧ (writeBypass r s).cuts = s.cuts ∧
    (writeBypass r s).pending = s.pending := by
  simp [writeBypass]

@[simp] theorem writeAux_frame (r : Rec) (i : Fin 3) (v : Word) (s : State) :
    (writeAux r i v s).pins = s.pins ∧ (writeAux r i v s).mem = s.mem ∧
    (writeAux r i v s).bpu.isOpen = s.bpu.isOpen ∧ (writeAux r i v s).bpu.deliveries = s.bpu.deliveries ∧
    (writeAux r i v s).bpu.hostData = s.bpu.hostData ∧ (writeAux r i v s).mpa = s.mpa ∧
    (writeAux r i v s).ssc = s.ssc ∧ (writeAux r i v s).lsv = s.lsv ∧ (writeAux r i v s).fin = s.fin ∧
    (writeAux r i v s).rct = s.rct ∧ (writeAux r i v s).mpl.fitted = s.mpl.fitted ∧
    (writeAux r i v s).mpl.k = s.mpl.k ∧ (writeAux r i v s).mpl.slots = s.mpl.slots ∧
    (writeAux r i v s).mpl.generation = s.mpl.generation ∧ (writeAux r i v s).mpl.table = s.mpl.table ∧
    (writeAux r i v s).rfs.amplitudeMark = s.rfs.amplitudeMark ∧
    (writeAux r i v s).rfs.angleMark = s.rfs.angleMark ∧ (writeAux r i v s).rfs.cursor = s.rfs.cursor ∧
    (writeAux r i v s).rfs.stage = s.rfs.stage ∧ (writeAux r i v s).wen = s.wen ∧ (writeAux r i v s).hif = s.hif ∧
    (writeAux r i v s).cap = s.cap ∧ (writeAux r i v s).log = s.log ∧ (writeAux r i v s).pld = s.pld ∧
    (writeAux r i v s).itm = s.itm ∧ (writeAux r i v s).plan = s.plan ∧ (writeAux r i v s).cuts = s.cuts ∧
    (writeAux r i v s).pending = s.pending := by
  simp only [writeAux, ite_state, ite_bpu, ite_mpl, ite_rfs, ite_mpa]
  simp [ite_state, ite_bpu, ite_mpl, ite_rfs, ite_mpa]

@[simp] theorem writeInside_frame (r : Rec) (w : Fin 8) (v : Word) (s : State) :
    (writeInside r w v s).pins = s.pins ∧ (writeInside r w v s).mem = s.mem ∧
    (writeInside r w v s).bpu.isOpen = s.bpu.isOpen ∧ (writeInside r w v s).bpu.deliveries = s.bpu.deliveries ∧
    (writeInside r w v s).bpu.hostData = s.bpu.hostData ∧ (writeInside r w v s).mpa = s.mpa ∧
    (writeInside r w v s).ssc = s.ssc ∧ (writeInside r w v s).lsv = s.lsv ∧ (writeInside r w v s).fin = s.fin ∧
    (writeInside r w v s).mpl.fitted = s.mpl.fitted ∧ (writeInside r w v s).mpl.k = s.mpl.k ∧
    (writeInside r w v s).mpl.slots = s.mpl.slots ∧ (writeInside r w v s).mpl.generation = s.mpl.generation ∧
    (writeInside r w v s).mpl.table = s.mpl.table ∧ (writeInside r w v s).cap = s.cap ∧
    (writeInside r w v s).pld = s.pld ∧ (writeInside r w v s).itm = s.itm ∧ (writeInside r w v s).plan = s.plan ∧
    (writeInside r w v s).cuts = s.cuts ∧ (writeInside r w v s).pending = s.pending := by
  have h : w.val = 0 ∨ w.val = 1 ∨ w.val = 2 ∨ w.val = 3 ∨ w.val = 4 ∨ w.val = 5 ∨ w.val = 6 ∨ w.val = 7 := by omega
  rcases h with h | h | h | h | h | h | h | h <;> simp [writeInside, h]

@[simp] theorem writeLogical_frame (r : Rec) (w : Fin 8) (v : Word) (s : State) :
    (writeLogical r w v s).pins = s.pins ∧ (writeLogical r w v s).mem = s.mem ∧
    (writeLogical r w v s).bpu.isOpen = s.bpu.isOpen ∧ (writeLogical r w v s).bpu.deliveries = s.bpu.deliveries ∧
    (writeLogical r w v s).bpu.hostData = s.bpu.hostData ∧ (writeLogical r w v s).mpa = s.mpa ∧
    (writeLogical r w v s).ssc = s.ssc ∧ (writeLogical r w v s).lsv = s.lsv ∧ (writeLogical r w v s).fin = s.fin ∧
    (writeLogical r w v s).mpl.fitted = s.mpl.fitted ∧ (writeLogical r w v s).mpl.k = s.mpl.k ∧
    (writeLogical r w v s).mpl.slots = s.mpl.slots ∧ (writeLogical r w v s).mpl.generation = s.mpl.generation ∧
    (writeLogical r w v s).mpl.table = s.mpl.table ∧ (writeLogical r w v s).pld = s.pld ∧
    (writeLogical r w v s).itm = s.itm ∧ (writeLogical r w v s).plan = s.plan ∧
    (writeLogical r w v s).cuts = s.cuts ∧ (writeLogical r w v s).pending = s.pending := by
  simp only [writeLogical, throughWindow, ite_state, ite_bpu, ite_mpl, ite_rfs, ite_mpa]; simp [ite_state, ite_bpu, ite_mpl, ite_rfs, ite_mpa]

@[simp] theorem readCommand_frame (r : Rec) (w : Fin 8) (s : State) :
    (readCommand r w s).pins = s.pins ∧ (readCommand r w s).mem = s.mem ∧
    (readCommand r w s).bpu.isOpen = s.bpu.isOpen ∧ (readCommand r w s).bpu.latches = s.bpu.latches ∧
    (readCommand r w s).bpu.needs = s.bpu.needs ∧ (readCommand r w s).bpu.counts = s.bpu.counts ∧
    (readCommand r w s).bpu.deliveries = s.bpu.deliveries ∧ (readCommand r w s).mpa = s.mpa ∧
    (readCommand r w s).ssc = s.ssc ∧ (readCommand r w s).lsv = s.lsv ∧ (readCommand r w s).fin = s.fin ∧
    (readCommand r w s).rct = s.rct ∧ (readCommand r w s).mpl = s.mpl ∧ (readCommand r w s).rfs = s.rfs ∧
    (readCommand r w s).wen = s.wen ∧ (readCommand r w s).hif = s.hif ∧ (readCommand r w s).cap = s.cap ∧
    (readCommand r w s).log = s.log ∧ (readCommand r w s).pld = s.pld ∧ (readCommand r w s).itm = s.itm ∧
    (readCommand r w s).plan = s.plan ∧ (readCommand r w s).cuts = s.cuts ∧ (readCommand r w s).pending = s.pending := by
  simp [readCommand]

@[simp] theorem readLogicalStatus_frame (r : Rec) (w : Fin 8) (s : State) :
    (readLogicalStatus r w s).pins = s.pins ∧ (readLogicalStatus r w s).mem = s.mem ∧
    (readLogicalStatus r w s).bpu.isOpen = s.bpu.isOpen ∧ (readLogicalStatus r w s).bpu.latches = s.bpu.latches ∧
    (readLogicalStatus r w s).bpu.counts = s.bpu.counts ∧
    (readLogicalStatus r w s).bpu.deliveries = s.bpu.deliveries ∧ (readLogicalStatus r w s).mpa = s.mpa ∧
    (readLogicalStatus r w s).ssc = s.ssc ∧ (readLogicalStatus r w s).lsv = s.lsv ∧
    (readLogicalStatus r w s).fin = s.fin ∧ (readLogicalStatus r w s).rct = s.rct ∧
    (readLogicalStatus r w s).mpl = s.mpl ∧ (readLogicalStatus r w s).rfs = s.rfs ∧
    (readLogicalStatus r w s).wen = s.wen ∧ (readLogicalStatus r w s).hif = s.hif ∧
    (readLogicalStatus r w s).cap = s.cap ∧ (readLogicalStatus r w s).log = s.log ∧
    (readLogicalStatus r w s).pld = s.pld ∧ (readLogicalStatus r w s).itm = s.itm ∧
    (readLogicalStatus r w s).plan = s.plan ∧ (readLogicalStatus r w s).cuts = s.cuts ∧
    (readLogicalStatus r w s).pending = s.pending := by
  unfold readLogicalStatus; (repeat' split) <;> simp [ite_state, ite_bpu, ite_mpl, ite_rfs, ite_mpa]

@[simp] theorem passWrite_frame (a : Addr) (v : Word) (watch : Option Delivery) (s : State) :
    (passWrite a v watch s).pins = s.pins ∧ (passWrite a v watch s).mem = s.mem ∧
    (passWrite a v watch s).bpu.isOpen = s.bpu.isOpen ∧ (passWrite a v watch s).bpu.latches = s.bpu.latches ∧
    (passWrite a v watch s).bpu.counts = s.bpu.counts ∧ (passWrite a v watch s).bpu.deliveries = s.bpu.deliveries ∧
    (passWrite a v watch s).bpu.hostData = s.bpu.hostData ∧ (passWrite a v watch s).mpa = s.mpa ∧
    (passWrite a v watch s).ssc = s.ssc ∧ (passWrite a v watch s).lsv = s.lsv ∧
    (passWrite a v watch s).fin = s.fin ∧ (passWrite a v watch s).rct = s.rct ∧
    (passWrite a v watch s).mpl = s.mpl ∧ (passWrite a v watch s).rfs = s.rfs ∧
    (passWrite a v watch s).wen = s.wen ∧ (passWrite a v watch s).hif = s.hif ∧
    (passWrite a v watch s).cap = s.cap ∧ (passWrite a v watch s).log = s.log ∧
    (passWrite a v watch s).pld = s.pld ∧ (passWrite a v watch s).itm = s.itm ∧
    (passWrite a v watch s).plan = s.plan ∧ (passWrite a v watch s).cuts = s.cuts ∧
    (passWrite a v watch s).pending = s.pending := by
  simp [passWrite]

@[simp] theorem absorbProtected_frame (s : State) :
    (absorbProtected s).pins = s.pins ∧ (absorbProtected s).mem = s.mem ∧
    (absorbProtected s).bpu.isOpen = s.bpu.isOpen ∧ (absorbProtected s).bpu.latches = s.bpu.latches ∧
    (absorbProtected s).bpu.needs = s.bpu.needs ∧ (absorbProtected s).bpu.deliveries = s.bpu.deliveries ∧
    (absorbProtected s).bpu.hostData = s.bpu.hostData ∧ (absorbProtected s).mpa = s.mpa ∧
    (absorbProtected s).ssc = s.ssc ∧ (absorbProtected s).lsv = s.lsv ∧ (absorbProtected s).fin = s.fin ∧
    (absorbProtected s).rct = s.rct ∧ (absorbProtected s).mpl = s.mpl ∧ (absorbProtected s).rfs = s.rfs ∧
    (absorbProtected s).wen = s.wen ∧ (absorbProtected s).hif = s.hif ∧ (absorbProtected s).cap = s.cap ∧
    (absorbProtected s).log = s.log ∧ (absorbProtected s).pld = s.pld ∧ (absorbProtected s).itm = s.itm ∧
    (absorbProtected s).plan = s.plan ∧ (absorbProtected s).cuts = s.cuts ∧ (absorbProtected s).pending = s.pending := by
  simp [absorbProtected]

@[simp] theorem writeProtected_frame (a : Addr) (v : Word) (s : State) :
    (writeProtected a v s).pins = s.pins ∧ (writeProtected a v s).mem = s.mem ∧
    (writeProtected a v s).bpu.isOpen = s.bpu.isOpen ∧ (writeProtected a v s).bpu.latches = s.bpu.latches ∧
    (writeProtected a v s).bpu.deliveries = s.bpu.deliveries ∧
    (writeProtected a v s).bpu.hostData = s.bpu.hostData ∧ (writeProtected a v s).mpa = s.mpa ∧
    (writeProtected a v s).ssc = s.ssc ∧ (writeProtected a v s).lsv = s.lsv ∧ (writeProtected a v s).fin = s.fin ∧
    (writeProtected a v s).rct = s.rct ∧ (writeProtected a v s).mpl = s.mpl ∧ (writeProtected a v s).rfs = s.rfs ∧
    (writeProtected a v s).wen = s.wen ∧ (writeProtected a v s).hif = s.hif ∧ (writeProtected a v s).cap = s.cap ∧
    (writeProtected a v s).log = s.log ∧ (writeProtected a v s).pld = s.pld ∧ (writeProtected a v s).itm = s.itm ∧
    (writeProtected a v s).plan = s.plan ∧ (writeProtected a v s).cuts = s.cuts ∧
    (writeProtected a v s).pending = s.pending := by
  simp only [writeProtected, ite_state, ite_bpu, ite_mpl, ite_rfs, ite_mpa]
  simp [ite_state, ite_bpu, ite_mpl, ite_rfs, ite_mpa]

@[simp] theorem writeCapture_frame (a : Addr) (v : Word) (s : State) :
    (writeCapture a v s).pins = s.pins ∧ (writeCapture a v s).mem = s.mem ∧
    (writeCapture a v s).bpu.isOpen = s.bpu.isOpen ∧ (writeCapture a v s).bpu.latches = s.bpu.latches ∧
    (writeCapture a v s).bpu.deliveries = s.bpu.deliveries ∧ (writeCapture a v s).bpu.hostData = s.bpu.hostData ∧
    (writeCapture a v s).mpa = s.mpa ∧ (writeCapture a v s).ssc = s.ssc ∧ (writeCapture a v s).lsv = s.lsv ∧
    (writeCapture a v s).fin = s.fin ∧ (writeCapture a v s).rct = s.rct ∧ (writeCapture a v s).mpl = s.mpl ∧
    (writeCapture a v s).rfs = s.rfs ∧ (writeCapture a v s).wen = s.wen ∧ (writeCapture a v s).hif = s.hif ∧
    (writeCapture a v s).cap = s.cap ∧ (writeCapture a v s).log = s.log ∧ (writeCapture a v s).pld = s.pld ∧
    (writeCapture a v s).itm = s.itm ∧ (writeCapture a v s).plan = s.plan ∧ (writeCapture a v s).cuts = s.cuts ∧
    (writeCapture a v s).pending = s.pending := by
  simp only [writeCapture, ite_state, ite_bpu, ite_mpl, ite_rfs, ite_mpa]
  simp [ite_state, ite_bpu, ite_mpl, ite_rfs, ite_mpa]

@[simp] theorem writeLogRegion_frame (a : Addr) (v : Word) (s : State) :
    (writeLogRegion a v s).pins = s.pins ∧ (writeLogRegion a v s).mem = s.mem ∧
    (writeLogRegion a v s).bpu.isOpen = s.bpu.isOpen ∧ (writeLogRegion a v s).bpu.latches = s.bpu.latches ∧
    (writeLogRegion a v s).bpu.deliveries = s.bpu.deliveries ∧
    (writeLogRegion a v s).bpu.hostData = s.bpu.hostData ∧ (writeLogRegion a v s).mpa = s.mpa ∧
    (writeLogRegion a v s).ssc = s.ssc ∧ (writeLogRegion a v s).lsv = s.lsv ∧ (writeLogRegion a v s).fin = s.fin ∧
    (writeLogRegion a v s).rct = s.rct ∧ (writeLogRegion a v s).mpl = s.mpl ∧ (writeLogRegion a v s).rfs = s.rfs ∧
    (writeLogRegion a v s).wen = s.wen ∧ (writeLogRegion a v s).hif = s.hif ∧ (writeLogRegion a v s).cap = s.cap ∧
    (writeLogRegion a v s).log = s.log ∧ (writeLogRegion a v s).pld = s.pld ∧ (writeLogRegion a v s).itm = s.itm ∧
    (writeLogRegion a v s).plan = s.plan ∧ (writeLogRegion a v s).cuts = s.cuts ∧
    (writeLogRegion a v s).pending = s.pending := by
  simp only [writeLogRegion, ite_state, ite_bpu, ite_mpl, ite_rfs, ite_mpa]
  simp [ite_state, ite_bpu, ite_mpl, ite_rfs, ite_mpa]

@[simp] theorem writeDrive_frame (a : Addr) (w : Fin 4) (v : Word) (s : State) :
    (writeDrive a w v s).pins = s.pins ∧ (writeDrive a w v s).mem = s.mem ∧
    (writeDrive a w v s).bpu.isOpen = s.bpu.isOpen ∧ (writeDrive a w v s).bpu.latches = s.bpu.latches ∧
    (writeDrive a w v s).bpu.counts = s.bpu.counts ∧ (writeDrive a w v s).bpu.deliveries = s.bpu.deliveries ∧
    (writeDrive a w v s).bpu.hostData = s.bpu.hostData ∧ (writeDrive a w v s).mpa = s.mpa ∧
    (writeDrive a w v s).ssc = s.ssc ∧ (writeDrive a w v s).lsv = s.lsv ∧ (writeDrive a w v s).fin = s.fin ∧
    (writeDrive a w v s).rct = s.rct ∧ (writeDrive a w v s).mpl = s.mpl ∧ (writeDrive a w v s).rfs = s.rfs ∧
    (writeDrive a w v s).wen = s.wen ∧ (writeDrive a w v s).hif = s.hif ∧ (writeDrive a w v s).cap = s.cap ∧
    (writeDrive a w v s).log = s.log ∧ (writeDrive a w v s).pld = s.pld ∧ (writeDrive a w v s).itm = s.itm ∧
    (writeDrive a w v s).plan = s.plan ∧ (writeDrive a w v s).cuts = s.cuts ∧
    (writeDrive a w v s).pending = s.pending := by
  simp [writeDrive]

@[simp] theorem hostWrite_frame (a : Addr) (v : Word) (s : State) :
    (hostWrite a v s).pins = s.pins ∧ (hostWrite a v s).mem = s.mem ∧ (hostWrite a v s).bpu.isOpen = s.bpu.isOpen ∧
    (hostWrite a v s).bpu.deliveries = s.bpu.deliveries ∧ (hostWrite a v s).bpu.hostData = s.bpu.hostData ∧
    (hostWrite a v s).mpa = s.mpa ∧ (hostWrite a v s).ssc = s.ssc ∧ (hostWrite a v s).lsv = s.lsv ∧
    (hostWrite a v s).fin = s.fin ∧ (hostWrite a v s).mpl.fitted = s.mpl.fitted ∧
    (hostWrite a v s).mpl.k = s.mpl.k ∧ (hostWrite a v s).mpl.slots = s.mpl.slots ∧
    (hostWrite a v s).mpl.generation = s.mpl.generation ∧ (hostWrite a v s).mpl.table = s.mpl.table ∧
    (hostWrite a v s).pld = s.pld ∧ (hostWrite a v s).itm = s.itm ∧ (hostWrite a v s).plan = s.plan ∧
    (hostWrite a v s).cuts = s.cuts ∧ (hostWrite a v s).pending = s.pending := by
  unfold hostWrite; (repeat' split) <;> simp [ite_state, ite_bpu, ite_mpl, ite_rfs, ite_mpa]

@[simp] theorem hostRead_frame (a : Addr) (s : State) :
    (hostRead a s).pins = s.pins ∧ (hostRead a s).mem = s.mem ∧ (hostRead a s).bpu.isOpen = s.bpu.isOpen ∧
    (hostRead a s).bpu.latches = s.bpu.latches ∧ (hostRead a s).bpu.counts = s.bpu.counts ∧
    (hostRead a s).bpu.deliveries = s.bpu.deliveries ∧ (hostRead a s).mpa = s.mpa ∧ (hostRead a s).ssc = s.ssc ∧
    (hostRead a s).lsv = s.lsv ∧ (hostRead a s).fin = s.fin ∧ (hostRead a s).rct = s.rct ∧
    (hostRead a s).mpl = s.mpl ∧ (hostRead a s).rfs = s.rfs ∧ (hostRead a s).wen = s.wen ∧
    (hostRead a s).hif = s.hif ∧ (hostRead a s).cap = s.cap ∧ (hostRead a s).log = s.log ∧
    (hostRead a s).pld = s.pld ∧ (hostRead a s).itm = s.itm ∧ (hostRead a s).plan = s.plan ∧
    (hostRead a s).cuts = s.cuts ∧ (hostRead a s).pending = s.pending := by
  unfold hostRead; (repeat' split) <;> simp [ite_state, ite_bpu, ite_mpl, ite_rfs, ite_mpa]

@[simp] theorem answerRead_frame (n : Need) (s : State) :
    (answerRead n s).pins = s.pins ∧ (answerRead n s).mem = s.mem ∧ (answerRead n s).bpu.isOpen = s.bpu.isOpen ∧
    (answerRead n s).bpu.latches = s.bpu.latches ∧ (answerRead n s).bpu.needs = s.bpu.needs ∧
    (answerRead n s).bpu.counts = s.bpu.counts ∧ (answerRead n s).bpu.deliveries = s.bpu.deliveries ∧
    (answerRead n s).mpa = s.mpa ∧ (answerRead n s).ssc = s.ssc ∧ (answerRead n s).lsv = s.lsv ∧
    (answerRead n s).fin = s.fin ∧ (answerRead n s).rct = s.rct ∧ (answerRead n s).mpl = s.mpl ∧
    (answerRead n s).rfs = s.rfs ∧ (answerRead n s).wen = s.wen ∧ (answerRead n s).hif = s.hif ∧
    (answerRead n s).cap = s.cap ∧ (answerRead n s).log = s.log ∧ (answerRead n s).pld = s.pld ∧
    (answerRead n s).itm = s.itm ∧ (answerRead n s).plan = s.plan ∧ (answerRead n s).cuts = s.cuts ∧
    (answerRead n s).pending = s.pending := by
  unfold answerRead; (repeat' split) <;> simp [ite_state, ite_bpu, ite_mpl, ite_rfs, ite_mpa]

@[simp] theorem deliver_frame (n : Need) (s : State) :
    (deliver n s).pins = s.pins ∧ (deliver n s).mem = s.mem ∧ (deliver n s).bpu.isOpen = s.bpu.isOpen ∧
    (deliver n s).bpu.latches = s.bpu.latches ∧ (deliver n s).bpu.needs = s.bpu.needs ∧
    (deliver n s).bpu.counts = s.bpu.counts ∧ (deliver n s).bpu.hostData = s.bpu.hostData ∧
    (deliver n s).mpa = s.mpa ∧ (deliver n s).ssc = s.ssc ∧ (deliver n s).lsv = s.lsv ∧ (deliver n s).fin = s.fin ∧
    (deliver n s).rct = s.rct ∧ (deliver n s).mpl = s.mpl ∧ (deliver n s).rfs = s.rfs ∧ (deliver n s).wen = s.wen ∧
    (deliver n s).hif = s.hif ∧ (deliver n s).cap = s.cap ∧ (deliver n s).log = s.log ∧ (deliver n s).pld = s.pld ∧
    (deliver n s).itm = s.itm ∧ (deliver n s).plan = s.plan ∧ (deliver n s).cuts = s.cuts ∧
    (deliver n s).pending = s.pending := by
  unfold deliver; (repeat' split) <;> simp [ite_state, ite_bpu, ite_mpl, ite_rfs, ite_mpa]

@[simp] theorem performNeed_frame (n : Need) (s : State) :
    (performNeed n s).pins = s.pins ∧ (performNeed n s).bpu.isOpen = s.bpu.isOpen ∧
    (performNeed n s).bpu.latches = s.bpu.latches ∧ (performNeed n s).bpu.counts = s.bpu.counts ∧
    (performNeed n s).mpa = s.mpa ∧ (performNeed n s).ssc = s.ssc ∧ (performNeed n s).lsv = s.lsv ∧
    (performNeed n s).fin = s.fin ∧ (performNeed n s).rct = s.rct ∧ (performNeed n s).mpl = s.mpl ∧
    (performNeed n s).rfs = s.rfs ∧ (performNeed n s).wen = s.wen ∧ (performNeed n s).hif = s.hif ∧
    (performNeed n s).cap = s.cap ∧ (performNeed n s).log = s.log ∧ (performNeed n s).pld = s.pld ∧
    (performNeed n s).itm = s.itm ∧ (performNeed n s).plan = s.plan ∧ (performNeed n s).cuts = s.cuts ∧
    (performNeed n s).pending = s.pending := by
  simp [performNeed]

@[simp] theorem releasePort_frame (s : State) :
    (releasePort s).pins = s.pins ∧ (releasePort s).mem = s.mem ∧ (releasePort s).bpu = s.bpu ∧
    (releasePort s).mpa.fair = s.mpa.fair ∧ (releasePort s).ssc = s.ssc ∧ (releasePort s).lsv = s.lsv ∧
    (releasePort s).fin = s.fin ∧ (releasePort s).rct = s.rct ∧ (releasePort s).mpl = s.mpl ∧
    (releasePort s).rfs = s.rfs ∧ (releasePort s).wen = s.wen ∧ (releasePort s).hif = s.hif ∧
    (releasePort s).cap = s.cap ∧ (releasePort s).log = s.log ∧ (releasePort s).pld = s.pld ∧
    (releasePort s).itm = s.itm ∧ (releasePort s).plan = s.plan ∧ (releasePort s).cuts = s.cuts ∧
    (releasePort s).pending = s.pending := by
  simp [releasePort]

@[simp] theorem endBpuTenure_frame (s : State) :
    (endBpuTenure s).pins = s.pins ∧ (endBpuTenure s).bpu.isOpen = s.bpu.isOpen ∧
    (endBpuTenure s).bpu.latches = s.bpu.latches ∧ (endBpuTenure s).bpu.counts = s.bpu.counts ∧
    (endBpuTenure s).mpa.fair = s.mpa.fair ∧ (endBpuTenure s).ssc = s.ssc ∧ (endBpuTenure s).lsv = s.lsv ∧
    (endBpuTenure s).fin = s.fin ∧ (endBpuTenure s).rct = s.rct ∧ (endBpuTenure s).mpl = s.mpl ∧
    (endBpuTenure s).rfs = s.rfs ∧ (endBpuTenure s).wen = s.wen ∧ (endBpuTenure s).hif = s.hif ∧
    (endBpuTenure s).cap = s.cap ∧ (endBpuTenure s).log = s.log ∧ (endBpuTenure s).pld = s.pld ∧
    (endBpuTenure s).itm = s.itm ∧ (endBpuTenure s).plan = s.plan ∧ (endBpuTenure s).cuts = s.cuts ∧
    (endBpuTenure s).pending = s.pending := by
  unfold endBpuTenure; (repeat' split) <;> simp [ite_state, ite_bpu, ite_mpl, ite_rfs, ite_mpa]

@[simp] theorem dropDelivery_frame (s : State) :
    (dropDelivery s).pins = s.pins ∧ (dropDelivery s).mem = s.mem ∧ (dropDelivery s).bpu.isOpen = s.bpu.isOpen ∧
    (dropDelivery s).bpu.latches = s.bpu.latches ∧ (dropDelivery s).bpu.needs = s.bpu.needs ∧
    (dropDelivery s).bpu.counts = s.bpu.counts ∧ (dropDelivery s).bpu.hostData = s.bpu.hostData ∧
    (dropDelivery s).mpa = s.mpa ∧ (dropDelivery s).ssc = s.ssc ∧ (dropDelivery s).lsv = s.lsv ∧
    (dropDelivery s).fin = s.fin ∧ (dropDelivery s).rct = s.rct ∧ (dropDelivery s).mpl = s.mpl ∧
    (dropDelivery s).rfs = s.rfs ∧ (dropDelivery s).wen = s.wen ∧ (dropDelivery s).hif = s.hif ∧
    (dropDelivery s).cap = s.cap ∧ (dropDelivery s).log = s.log ∧ (dropDelivery s).pld = s.pld ∧
    (dropDelivery s).itm = s.itm ∧ (dropDelivery s).plan = s.plan ∧ (dropDelivery s).cuts = s.cuts ∧
    (dropDelivery s).pending = s.pending := by
  simp [dropDelivery]

@[simp] theorem takePeriodTag_frame (v : Word) (s : State) :
    (takePeriodTag v s).pins = s.pins ∧ (takePeriodTag v s).mem = s.mem ∧
    (takePeriodTag v s).bpu.isOpen = s.bpu.isOpen ∧ (takePeriodTag v s).bpu.deliveries = s.bpu.deliveries ∧
    (takePeriodTag v s).bpu.hostData = s.bpu.hostData ∧ (takePeriodTag v s).mpa = s.mpa ∧
    (takePeriodTag v s).ssc = s.ssc ∧ (takePeriodTag v s).lsv = s.lsv ∧ (takePeriodTag v s).fin = s.fin ∧
    (takePeriodTag v s).mpl.fitted = s.mpl.fitted ∧ (takePeriodTag v s).mpl.k = s.mpl.k ∧
    (takePeriodTag v s).mpl.slots = s.mpl.slots ∧ (takePeriodTag v s).mpl.generation = s.mpl.generation ∧
    (takePeriodTag v s).mpl.table = s.mpl.table ∧ (takePeriodTag v s).rfs.image = s.rfs.image ∧
    (takePeriodTag v s).rfs.amplitudeMark = s.rfs.amplitudeMark ∧
    (takePeriodTag v s).rfs.angleMark = s.rfs.angleMark ∧ (takePeriodTag v s).rfs.aux = s.rfs.aux ∧
    (takePeriodTag v s).cap = s.cap ∧ (takePeriodTag v s).pld = s.pld ∧ (takePeriodTag v s).itm = s.itm ∧
    (takePeriodTag v s).plan = s.plan ∧ (takePeriodTag v s).cuts = s.cuts ∧ (takePeriodTag v s).pending = s.pending := by
  simp only [takePeriodTag, ite_state, ite_bpu, ite_mpl, ite_rfs, ite_mpa]
  simp [ite_state, ite_bpu, ite_mpl, ite_rfs, ite_mpa]

@[simp] theorem takeProof_frame (s : State) :
    (takeProof s).pins = s.pins ∧ (takeProof s).mem = s.mem ∧ (takeProof s).bpu.isOpen = s.bpu.isOpen ∧
    (takeProof s).bpu.deliveries = s.bpu.deliveries ∧ (takeProof s).bpu.hostData = s.bpu.hostData ∧
    (takeProof s).mpa = s.mpa ∧ (takeProof s).ssc = s.ssc ∧ (takeProof s).lsv = s.lsv ∧ (takeProof s).fin = s.fin ∧
    (takeProof s).mpl.fitted = s.mpl.fitted ∧ (takeProof s).mpl.k = s.mpl.k ∧
    (takeProof s).mpl.slots = s.mpl.slots ∧ (takeProof s).mpl.generation = s.mpl.generation ∧
    (takeProof s).mpl.table = s.mpl.table ∧ (takeProof s).rfs = s.rfs ∧ (takeProof s).cap = s.cap ∧
    (takeProof s).pld = s.pld ∧ (takeProof s).itm = s.itm ∧ (takeProof s).plan = s.plan ∧
    (takeProof s).cuts = s.cuts ∧ (takeProof s).pending = s.pending := by
  unfold takeProof; (repeat' split) <;> simp [ite_state, ite_bpu, ite_mpl, ite_rfs, ite_mpa]

@[simp] theorem takeRestartEnable_frame (v : Word) (s : State) :
    (takeRestartEnable v s).pins = s.pins ∧ (takeRestartEnable v s).mem = s.mem ∧
    (takeRestartEnable v s).bpu = s.bpu ∧ (takeRestartEnable v s).mpa = s.mpa ∧
    (takeRestartEnable v s).ssc = s.ssc ∧ (takeRestartEnable v s).lsv = s.lsv ∧
    (takeRestartEnable v s).fin = s.fin ∧ (takeRestartEnable v s).mpl = s.mpl ∧
    (takeRestartEnable v s).rfs = s.rfs ∧ (takeRestartEnable v s).wen = s.wen ∧
    (takeRestartEnable v s).hif = s.hif ∧ (takeRestartEnable v s).cap = s.cap ∧
    (takeRestartEnable v s).log = s.log ∧ (takeRestartEnable v s).pld = s.pld ∧
    (takeRestartEnable v s).itm = s.itm ∧ (takeRestartEnable v s).plan = s.plan ∧
    (takeRestartEnable v s).cuts = s.cuts ∧ (takeRestartEnable v s).pending = s.pending := by
  simp [takeRestartEnable]

@[simp] theorem takeConsumer_frame (v : Word) (s : State) :
    (takeConsumer v s).pins = s.pins ∧ (takeConsumer v s).mem = s.mem ∧ (takeConsumer v s).bpu = s.bpu ∧
    (takeConsumer v s).mpa = s.mpa ∧ (takeConsumer v s).ssc = s.ssc ∧ (takeConsumer v s).lsv = s.lsv ∧
    (takeConsumer v s).fin = s.fin ∧ (takeConsumer v s).rct = s.rct ∧ (takeConsumer v s).mpl = s.mpl ∧
    (takeConsumer v s).rfs = s.rfs ∧ (takeConsumer v s).wen = s.wen ∧ (takeConsumer v s).hif = s.hif ∧
    (takeConsumer v s).cap = s.cap ∧ (takeConsumer v s).pld = s.pld ∧ (takeConsumer v s).itm = s.itm ∧
    (takeConsumer v s).plan = s.plan ∧ (takeConsumer v s).cuts = s.cuts ∧ (takeConsumer v s).pending = s.pending := by
  simp only [takeConsumer, ite_state, ite_bpu, ite_mpl, ite_rfs, ite_mpa]
  simp [ite_state, ite_bpu, ite_mpl, ite_rfs, ite_mpa]

@[simp] theorem cutTenure_frame (s : State) :
    (cutTenure s).pins = s.pins ∧ (cutTenure s).bpu.isOpen = s.bpu.isOpen ∧
    (cutTenure s).bpu.latches = s.bpu.latches ∧ (cutTenure s).bpu.counts = s.bpu.counts ∧
    (cutTenure s).bpu.deliveries = s.bpu.deliveries ∧ (cutTenure s).mpa.fair = s.mpa.fair ∧
    (cutTenure s).ssc = s.ssc ∧ (cutTenure s).lsv = s.lsv ∧ (cutTenure s).fin = s.fin ∧ (cutTenure s).rct = s.rct ∧
    (cutTenure s).mpl = s.mpl ∧ (cutTenure s).rfs = s.rfs ∧ (cutTenure s).wen = s.wen ∧ (cutTenure s).hif = s.hif ∧
    (cutTenure s).cap = s.cap ∧ (cutTenure s).log = s.log ∧ (cutTenure s).pld = s.pld ∧ (cutTenure s).itm = s.itm ∧
    (cutTenure s).plan = s.plan ∧ (cutTenure s).pending = s.pending := by
  unfold cutTenure; (repeat' split) <;> simp [ite_state, ite_bpu, ite_mpl, ite_rfs, ite_mpa]

@[simp] theorem retakeNeed_frame (s : State) (n : Need) :
    (retakeNeed s n).pins = s.pins ∧ (retakeNeed s n).mem = s.mem ∧ (retakeNeed s n).bpu.isOpen = s.bpu.isOpen ∧
    (retakeNeed s n).bpu.latches = s.bpu.latches ∧ (retakeNeed s n).bpu.counts = s.bpu.counts ∧
    (retakeNeed s n).bpu.deliveries = s.bpu.deliveries ∧ (retakeNeed s n).mpa = s.mpa ∧
    (retakeNeed s n).ssc = s.ssc ∧ (retakeNeed s n).lsv = s.lsv ∧ (retakeNeed s n).fin = s.fin ∧
    (retakeNeed s n).rct = s.rct ∧ (retakeNeed s n).mpl = s.mpl ∧ (retakeNeed s n).rfs = s.rfs ∧
    (retakeNeed s n).wen = s.wen ∧ (retakeNeed s n).hif = s.hif ∧ (retakeNeed s n).cap = s.cap ∧
    (retakeNeed s n).log = s.log ∧ (retakeNeed s n).pld = s.pld ∧ (retakeNeed s n).itm = s.itm ∧
    (retakeNeed s n).plan = s.plan ∧ (retakeNeed s n).cuts = s.cuts ∧ (retakeNeed s n).pending = s.pending := by
  unfold retakeNeed; (repeat' split) <;> simp [ite_state, ite_bpu, ite_mpl, ite_rfs, ite_mpa]

@[simp] theorem retakeNeed_fold_frame  (l : List Need) (s : State) :
    (l.foldl (retakeNeed) s).pins = s.pins ∧ (l.foldl (retakeNeed) s).mem = s.mem ∧
    (l.foldl (retakeNeed) s).bpu.isOpen = s.bpu.isOpen ∧ (l.foldl (retakeNeed) s).bpu.latches = s.bpu.latches ∧
    (l.foldl (retakeNeed) s).bpu.counts = s.bpu.counts ∧
    (l.foldl (retakeNeed) s).bpu.deliveries = s.bpu.deliveries ∧ (l.foldl (retakeNeed) s).mpa = s.mpa ∧
    (l.foldl (retakeNeed) s).ssc = s.ssc ∧ (l.foldl (retakeNeed) s).lsv = s.lsv ∧
    (l.foldl (retakeNeed) s).fin = s.fin ∧ (l.foldl (retakeNeed) s).rct = s.rct ∧
    (l.foldl (retakeNeed) s).mpl = s.mpl ∧ (l.foldl (retakeNeed) s).rfs = s.rfs ∧
    (l.foldl (retakeNeed) s).wen = s.wen ∧ (l.foldl (retakeNeed) s).hif = s.hif ∧
    (l.foldl (retakeNeed) s).cap = s.cap ∧ (l.foldl (retakeNeed) s).log = s.log ∧
    (l.foldl (retakeNeed) s).pld = s.pld ∧ (l.foldl (retakeNeed) s).itm = s.itm ∧
    (l.foldl (retakeNeed) s).plan = s.plan ∧ (l.foldl (retakeNeed) s).cuts = s.cuts ∧
    (l.foldl (retakeNeed) s).pending = s.pending := by
  refine ⟨foldl_frame (·.pins) _ (fun t a => by simp) l s, foldl_frame (·.mem) _ (fun t a => by simp) l s, foldl_frame (·.bpu.isOpen) _ (fun t a => by simp) l s, foldl_frame (·.bpu.latches) _ (fun t a => by simp) l s, foldl_frame (·.bpu.counts) _ (fun t a => by simp) l s, foldl_frame (·.bpu.deliveries) _ (fun t a => by simp) l s, foldl_frame (·.mpa) _ (fun t a => by simp) l s, foldl_frame (·.ssc) _ (fun t a => by simp) l s, foldl_frame (·.lsv) _ (fun t a => by simp) l s, foldl_frame (·.fin) _ (fun t a => by simp) l s, foldl_frame (·.rct) _ (fun t a => by simp) l s, foldl_frame (·.mpl) _ (fun t a => by simp) l s, foldl_frame (·.rfs) _ (fun t a => by simp) l s, foldl_frame (·.wen) _ (fun t a => by simp) l s, foldl_frame (·.hif) _ (fun t a => by simp) l s, foldl_frame (·.cap) _ (fun t a => by simp) l s, foldl_frame (·.log) _ (fun t a => by simp) l s, foldl_frame (·.pld) _ (fun t a => by simp) l s, foldl_frame (·.itm) _ (fun t a => by simp) l s, foldl_frame (·.plan) _ (fun t a => by simp) l s, foldl_frame (·.cuts) _ (fun t a => by simp) l s, foldl_frame (·.pending) _ (fun t a => by simp) l s⟩

@[simp] theorem countFrame_frame (s : State) :
    (countFrame s).pins = s.pins ∧ (countFrame s).mem = s.mem ∧ (countFrame s).bpu = s.bpu ∧
    (countFrame s).mpa = s.mpa ∧ (countFrame s).ssc = s.ssc ∧ (countFrame s).lsv = s.lsv ∧
    (countFrame s).fin = s.fin ∧ (countFrame s).rct = s.rct ∧ (countFrame s).mpl = s.mpl ∧
    (countFrame s).rfs = s.rfs ∧ (countFrame s).wen = s.wen ∧ (countFrame s).hif = s.hif ∧
    (countFrame s).cap = s.cap ∧ (countFrame s).log = s.log ∧ (countFrame s).pld = s.pld ∧
    (countFrame s).plan = s.plan ∧ (countFrame s).cuts = s.cuts ∧ (countFrame s).pending = s.pending := by
  simp [countFrame]

@[simp] theorem openGate_frame (s : State) :
    (openGate s).pins = s.pins ∧ (openGate s).mem = s.mem ∧ (openGate s).bpu = s.bpu ∧ (openGate s).mpa = s.mpa ∧
    (openGate s).ssc = s.ssc ∧ (openGate s).lsv = s.lsv ∧ (openGate s).fin = s.fin ∧ (openGate s).mpl = s.mpl ∧
    (openGate s).rfs = s.rfs ∧ (openGate s).wen = s.wen ∧ (openGate s).hif = s.hif ∧ (openGate s).cap = s.cap ∧
    (openGate s).log = s.log ∧ (openGate s).pld = s.pld ∧ (openGate s).itm = s.itm ∧ (openGate s).plan = s.plan ∧
    (openGate s).cuts = s.cuts ∧ (openGate s).pending = s.pending := by
  simp [openGate]

@[simp] theorem countWindows_frame (s : State) :
    (countWindows s).pins = s.pins ∧ (countWindows s).mem = s.mem ∧ (countWindows s).bpu = s.bpu ∧
    (countWindows s).mpa = s.mpa ∧ (countWindows s).ssc = s.ssc ∧ (countWindows s).lsv = s.lsv ∧
    (countWindows s).mpl = s.mpl ∧ (countWindows s).rfs = s.rfs ∧ (countWindows s).wen = s.wen ∧
    (countWindows s).cap = s.cap ∧ (countWindows s).log = s.log ∧ (countWindows s).pld = s.pld ∧
    (countWindows s).itm = s.itm ∧ (countWindows s).plan = s.plan ∧ (countWindows s).cuts = s.cuts ∧
    (countWindows s).pending = s.pending := by
  simp [countWindows]

@[simp] theorem frameEdge_frame (s : State) :
    (frameEdge s).pins = s.pins ∧ (frameEdge s).bpu.hostData = s.bpu.hostData ∧
    (frameEdge s).mpa.fair = s.mpa.fair ∧ (frameEdge s).mpl.fitted = s.mpl.fitted ∧ (frameEdge s).mpl.k = s.mpl.k ∧
    (frameEdge s).mpl.table = s.mpl.table ∧ (frameEdge s).rfs.image = s.rfs.image ∧ (frameEdge s).plan = s.plan ∧
    (frameEdge s).pending = s.pending := by
  simp [frameEdge]

@[simp] theorem brakeRise_frame (s : State) :
    (brakeRise s).pins = s.pins ∧ (brakeRise s).mem = s.mem ∧ (brakeRise s).bpu = s.bpu ∧
    (brakeRise s).mpa = s.mpa ∧ (brakeRise s).ssc = s.ssc ∧ (brakeRise s).lsv = s.lsv ∧ (brakeRise s).fin = s.fin ∧
    (brakeRise s).mpl = s.mpl ∧ (brakeRise s).rfs = s.rfs ∧ (brakeRise s).cap = s.cap ∧ (brakeRise s).pld = s.pld ∧
    (brakeRise s).itm = s.itm ∧ (brakeRise s).plan = s.plan ∧ (brakeRise s).cuts = s.cuts ∧
    (brakeRise s).pending = s.pending := by
  unfold brakeRise; (repeat' split) <;> simp [ite_state, ite_bpu, ite_mpl, ite_rfs, ite_mpa]

@[simp] theorem liftedWithoutPermit_frame (s : State) :
    (liftedWithoutPermit s).pins = s.pins ∧ (liftedWithoutPermit s).bpu.isOpen = s.bpu.isOpen ∧
    (liftedWithoutPermit s).bpu.deliveries = s.bpu.deliveries ∧
    (liftedWithoutPermit s).bpu.hostData = s.bpu.hostData ∧ (liftedWithoutPermit s).mpa.fair = s.mpa.fair ∧
    (liftedWithoutPermit s).ssc = s.ssc ∧ (liftedWithoutPermit s).lsv = s.lsv ∧
    (liftedWithoutPermit s).mpl.fitted = s.mpl.fitted ∧ (liftedWithoutPermit s).mpl.k = s.mpl.k ∧
    (liftedWithoutPermit s).mpl.slots = s.mpl.slots ∧ (liftedWithoutPermit s).mpl.generation = s.mpl.generation ∧
    (liftedWithoutPermit s).mpl.table = s.mpl.table ∧ (liftedWithoutPermit s).rfs.image = s.rfs.image ∧
    (liftedWithoutPermit s).rfs.amplitudeMark = s.rfs.amplitudeMark ∧
    (liftedWithoutPermit s).rfs.angleMark = s.rfs.angleMark ∧ (liftedWithoutPermit s).rfs.aux = s.rfs.aux ∧
    (liftedWithoutPermit s).cap = s.cap ∧ (liftedWithoutPermit s).pld = s.pld ∧
    (liftedWithoutPermit s).itm = s.itm ∧ (liftedWithoutPermit s).plan = s.plan ∧
    (liftedWithoutPermit s).pending = s.pending := by
  simp [liftedWithoutPermit]

@[simp] theorem brakeFall_frame (s : State) :
    (brakeFall s).pins = s.pins ∧ (brakeFall s).bpu.isOpen = s.bpu.isOpen ∧
    (brakeFall s).bpu.deliveries = s.bpu.deliveries ∧ (brakeFall s).bpu.hostData = s.bpu.hostData ∧
    (brakeFall s).mpa.fair = s.mpa.fair ∧ (brakeFall s).ssc = s.ssc ∧ (brakeFall s).lsv = s.lsv ∧
    (brakeFall s).mpl.fitted = s.mpl.fitted ∧ (brakeFall s).mpl.k = s.mpl.k ∧
    (brakeFall s).mpl.slots = s.mpl.slots ∧ (brakeFall s).mpl.generation = s.mpl.generation ∧
    (brakeFall s).mpl.table = s.mpl.table ∧ (brakeFall s).rfs.image = s.rfs.image ∧
    (brakeFall s).rfs.amplitudeMark = s.rfs.amplitudeMark ∧ (brakeFall s).rfs.angleMark = s.rfs.angleMark ∧
    (brakeFall s).rfs.aux = s.rfs.aux ∧ (brakeFall s).cap = s.cap ∧ (brakeFall s).pld = s.pld ∧
    (brakeFall s).itm = s.itm ∧ (brakeFall s).plan = s.plan ∧ (brakeFall s).pending = s.pending := by
  unfold brakeFall; (repeat' split) <;> simp [ite_state, ite_bpu, ite_mpl, ite_rfs, ite_mpa]

@[simp] theorem millisecond_frame (s : State) :
    (millisecond s).pins = s.pins ∧ (millisecond s).mem = s.mem ∧ (millisecond s).bpu = s.bpu ∧
    (millisecond s).mpa = s.mpa ∧ (millisecond s).ssc = s.ssc ∧ (millisecond s).mpl = s.mpl ∧
    (millisecond s).rfs = s.rfs ∧ (millisecond s).wen = s.wen ∧ (millisecond s).hif = s.hif ∧
    (millisecond s).cap = s.cap ∧ (millisecond s).log = s.log ∧ (millisecond s).pld = s.pld ∧
    (millisecond s).plan = s.plan ∧ (millisecond s).cuts = s.cuts ∧ (millisecond s).pending = s.pending := by
  simp [millisecond]

@[simp] theorem hostCount_frame (code count : Word) (s : State) :
    (hostCount code count s).pins = s.pins ∧ (hostCount code count s).mem = s.mem ∧
    (hostCount code count s).bpu = s.bpu ∧ (hostCount code count s).mpa = s.mpa ∧
    (hostCount code count s).ssc = s.ssc ∧ (hostCount code count s).lsv = s.lsv ∧
    (hostCount code count s).fin = s.fin ∧ (hostCount code count s).rct = s.rct ∧
    (hostCount code count s).mpl = s.mpl ∧ (hostCount code count s).rfs = s.rfs ∧
    (hostCount code count s).hif = s.hif ∧ (hostCount code count s).cap = s.cap ∧
    (hostCount code count s).pld = s.pld ∧ (hostCount code count s).itm = s.itm ∧
    (hostCount code count s).plan = s.plan ∧ (hostCount code count s).cuts = s.cuts ∧
    (hostCount code count s).pending = s.pending := by
  simp only [hostCount, ite_state, ite_bpu, ite_mpl, ite_rfs, ite_mpa]
  simp [ite_state, ite_bpu, ite_mpl, ite_rfs, ite_mpa]

@[simp] theorem secondOfPassage_frame (s : State) :
    (secondOfPassage s).pins = s.pins ∧ (secondOfPassage s).mem = s.mem ∧
    (secondOfPassage s).bpu.isOpen = s.bpu.isOpen ∧ (secondOfPassage s).bpu.latches = s.bpu.latches ∧
    (secondOfPassage s).bpu.deliveries = s.bpu.deliveries ∧ (secondOfPassage s).bpu.hostData = s.bpu.hostData ∧
    (secondOfPassage s).mpa = s.mpa ∧ (secondOfPassage s).ssc = s.ssc ∧ (secondOfPassage s).lsv = s.lsv ∧
    (secondOfPassage s).fin = s.fin ∧ (secondOfPassage s).rct = s.rct ∧ (secondOfPassage s).mpl = s.mpl ∧
    (secondOfPassage s).rfs = s.rfs ∧ (secondOfPassage s).hif = s.hif ∧ (secondOfPassage s).cap = s.cap ∧
    (secondOfPassage s).pld = s.pld ∧ (secondOfPassage s).itm = s.itm ∧ (secondOfPassage s).plan = s.plan ∧
    (secondOfPassage s).cuts = s.cuts ∧ (secondOfPassage s).pending = s.pending := by
  simp [secondOfPassage]

@[simp] theorem secondOfScans_frame (s : State) :
    (secondOfScans s).pins = s.pins ∧ (secondOfScans s).mem = s.mem ∧ (secondOfScans s).bpu = s.bpu ∧
    (secondOfScans s).mpa = s.mpa ∧ (secondOfScans s).lsv = s.lsv ∧ (secondOfScans s).fin = s.fin ∧
    (secondOfScans s).rct = s.rct ∧ (secondOfScans s).mpl = s.mpl ∧ (secondOfScans s).rfs = s.rfs ∧
    (secondOfScans s).hif = s.hif ∧ (secondOfScans s).cap = s.cap ∧ (secondOfScans s).pld = s.pld ∧
    (secondOfScans s).itm = s.itm ∧ (secondOfScans s).plan = s.plan ∧ (secondOfScans s).cuts = s.cuts ∧
    (secondOfScans s).pending = s.pending := by
  simp only [secondOfScans, ite_state, ite_bpu, ite_mpl, ite_rfs, ite_mpa]
  simp [ite_state, ite_bpu, ite_mpl, ite_rfs, ite_mpa]

@[simp] theorem secondPassed_frame (s : State) :
    (secondPassed s).pins = s.pins ∧ (secondPassed s).mem = s.mem ∧ (secondPassed s).bpu.isOpen = s.bpu.isOpen ∧
    (secondPassed s).bpu.latches = s.bpu.latches ∧ (secondPassed s).bpu.deliveries = s.bpu.deliveries ∧
    (secondPassed s).bpu.hostData = s.bpu.hostData ∧ (secondPassed s).mpa = s.mpa ∧ (secondPassed s).fin = s.fin ∧
    (secondPassed s).rct = s.rct ∧ (secondPassed s).mpl = s.mpl ∧ (secondPassed s).rfs = s.rfs ∧
    (secondPassed s).hif = s.hif ∧ (secondPassed s).cap = s.cap ∧ (secondPassed s).pld = s.pld ∧
    (secondPassed s).itm = s.itm ∧ (secondPassed s).plan = s.plan ∧ (secondPassed s).cuts = s.cuts ∧
    (secondPassed s).pending = s.pending := by
  simp [secondPassed]

@[simp] theorem logStuck_frame (i : Slot) (s : State) :
    (logStuck i s).pins = s.pins ∧ (logStuck i s).mem = s.mem ∧ (logStuck i s).bpu = s.bpu ∧
    (logStuck i s).mpa = s.mpa ∧ (logStuck i s).ssc = s.ssc ∧ (logStuck i s).lsv = s.lsv ∧
    (logStuck i s).fin = s.fin ∧ (logStuck i s).rct = s.rct ∧ (logStuck i s).mpl = s.mpl ∧
    (logStuck i s).rfs = s.rfs ∧ (logStuck i s).hif = s.hif ∧ (logStuck i s).cap = s.cap ∧
    (logStuck i s).pld = s.pld ∧ (logStuck i s).itm = s.itm ∧ (logStuck i s).plan = s.plan ∧
    (logStuck i s).cuts = s.cuts ∧ (logStuck i s).pending = s.pending := by
  unfold logStuck; (repeat' split) <;> simp [ite_state, ite_bpu, ite_mpl, ite_rfs, ite_mpa]

@[simp] theorem logStuck_fold_frame  (l : List Slot) (s : State) :
    (l.foldl (fun t i => logStuck i t) s).pins = s.pins ∧ (l.foldl (fun t i => logStuck i t) s).mem = s.mem ∧
    (l.foldl (fun t i => logStuck i t) s).bpu = s.bpu ∧ (l.foldl (fun t i => logStuck i t) s).mpa = s.mpa ∧
    (l.foldl (fun t i => logStuck i t) s).ssc = s.ssc ∧ (l.foldl (fun t i => logStuck i t) s).lsv = s.lsv ∧
    (l.foldl (fun t i => logStuck i t) s).fin = s.fin ∧ (l.foldl (fun t i => logStuck i t) s).rct = s.rct ∧
    (l.foldl (fun t i => logStuck i t) s).mpl = s.mpl ∧ (l.foldl (fun t i => logStuck i t) s).rfs = s.rfs ∧
    (l.foldl (fun t i => logStuck i t) s).hif = s.hif ∧ (l.foldl (fun t i => logStuck i t) s).cap = s.cap ∧
    (l.foldl (fun t i => logStuck i t) s).pld = s.pld ∧ (l.foldl (fun t i => logStuck i t) s).itm = s.itm ∧
    (l.foldl (fun t i => logStuck i t) s).plan = s.plan ∧ (l.foldl (fun t i => logStuck i t) s).cuts = s.cuts ∧
    (l.foldl (fun t i => logStuck i t) s).pending = s.pending := by
  refine ⟨foldl_frame (·.pins) _ (fun t a => by simp) l s, foldl_frame (·.mem) _ (fun t a => by simp) l s, foldl_frame (·.bpu) _ (fun t a => by simp) l s, foldl_frame (·.mpa) _ (fun t a => by simp) l s, foldl_frame (·.ssc) _ (fun t a => by simp) l s, foldl_frame (·.lsv) _ (fun t a => by simp) l s, foldl_frame (·.fin) _ (fun t a => by simp) l s, foldl_frame (·.rct) _ (fun t a => by simp) l s, foldl_frame (·.mpl) _ (fun t a => by simp) l s, foldl_frame (·.rfs) _ (fun t a => by simp) l s, foldl_frame (·.hif) _ (fun t a => by simp) l s, foldl_frame (·.cap) _ (fun t a => by simp) l s, foldl_frame (·.pld) _ (fun t a => by simp) l s, foldl_frame (·.itm) _ (fun t a => by simp) l s, foldl_frame (·.plan) _ (fun t a => by simp) l s, foldl_frame (·.cuts) _ (fun t a => by simp) l s, foldl_frame (·.pending) _ (fun t a => by simp) l s⟩

@[simp] theorem logStuckAll_frame (slots : List Slot) (s : State) :
    (logStuckAll slots s).pins = s.pins ∧ (logStuckAll slots s).mem = s.mem ∧ (logStuckAll slots s).bpu = s.bpu ∧
    (logStuckAll slots s).mpa = s.mpa ∧ (logStuckAll slots s).ssc = s.ssc ∧ (logStuckAll slots s).lsv = s.lsv ∧
    (logStuckAll slots s).fin = s.fin ∧ (logStuckAll slots s).rct = s.rct ∧ (logStuckAll slots s).mpl = s.mpl ∧
    (logStuckAll slots s).rfs = s.rfs ∧ (logStuckAll slots s).hif = s.hif ∧ (logStuckAll slots s).cap = s.cap ∧
    (logStuckAll slots s).pld = s.pld ∧ (logStuckAll slots s).itm = s.itm ∧ (logStuckAll slots s).plan = s.plan ∧
    (logStuckAll slots s).cuts = s.cuts ∧ (logStuckAll slots s).pending = s.pending := by
  simp [logStuckAll]

@[simp] theorem contactorExpired_frame (s : State) :
    (contactorExpired s).pins = s.pins ∧ (contactorExpired s).bpu.hostData = s.bpu.hostData ∧
    (contactorExpired s).mpa.fair = s.mpa.fair ∧ (contactorExpired s).mpl.fitted = s.mpl.fitted ∧
    (contactorExpired s).mpl.k = s.mpl.k ∧ (contactorExpired s).mpl.table = s.mpl.table ∧
    (contactorExpired s).rfs.image = s.rfs.image ∧ (contactorExpired s).plan = s.plan ∧
    (contactorExpired s).pending = s.pending := by
  simp only [contactorExpired, ite_state, ite_bpu, ite_mpl, ite_rfs, ite_mpa]
  simp [ite_state, ite_bpu, ite_mpl, ite_rfs, ite_mpa]

@[simp] theorem armingExpired_frame (s : State) :
    (armingExpired s).pins = s.pins ∧ (armingExpired s).bpu.hostData = s.bpu.hostData ∧
    (armingExpired s).mpa.fair = s.mpa.fair ∧ (armingExpired s).mpl.fitted = s.mpl.fitted ∧
    (armingExpired s).mpl.k = s.mpl.k ∧ (armingExpired s).mpl.slots = s.mpl.slots ∧
    (armingExpired s).mpl.generation = s.mpl.generation ∧ (armingExpired s).mpl.table = s.mpl.table ∧
    (armingExpired s).rfs.image = s.rfs.image ∧ (armingExpired s).plan = s.plan ∧
    (armingExpired s).pending = s.pending := by
  simp [armingExpired]

@[simp] theorem periodEnded_frame (s : State) :
    (periodEnded s).pins = s.pins ∧ (periodEnded s).bpu.isOpen = s.bpu.isOpen ∧
    (periodEnded s).bpu.deliveries = s.bpu.deliveries ∧ (periodEnded s).bpu.hostData = s.bpu.hostData ∧
    (periodEnded s).mpa.fair = s.mpa.fair ∧ (periodEnded s).ssc = s.ssc ∧ (periodEnded s).lsv = s.lsv ∧
    (periodEnded s).mpl.fitted = s.mpl.fitted ∧ (periodEnded s).mpl.k = s.mpl.k ∧
    (periodEnded s).mpl.slots = s.mpl.slots ∧ (periodEnded s).mpl.generation = s.mpl.generation ∧
    (periodEnded s).mpl.table = s.mpl.table ∧ (periodEnded s).rfs.image = s.rfs.image ∧
    (periodEnded s).rfs.amplitudeMark = s.rfs.amplitudeMark ∧ (periodEnded s).rfs.angleMark = s.rfs.angleMark ∧
    (periodEnded s).rfs.aux = s.rfs.aux ∧ (periodEnded s).cap = s.cap ∧ (periodEnded s).pld = s.pld ∧
    (periodEnded s).itm = s.itm ∧ (periodEnded s).plan = s.plan ∧ (periodEnded s).pending = s.pending := by
  simp only [periodEnded, ite_state, ite_bpu, ite_mpl, ite_rfs, ite_mpa]
  simp [ite_state, ite_bpu, ite_mpl, ite_rfs, ite_mpa]

@[simp] theorem moveCursor_frame (u : Burst) (s : State) :
    (moveCursor u s).pins = s.pins ∧ (moveCursor u s).mem = s.mem ∧ (moveCursor u s).bpu = s.bpu ∧
    (moveCursor u s).mpa = s.mpa ∧ (moveCursor u s).ssc = s.ssc ∧ (moveCursor u s).lsv = s.lsv ∧
    (moveCursor u s).fin = s.fin ∧ (moveCursor u s).rct = s.rct ∧ (moveCursor u s).mpl = s.mpl ∧
    (moveCursor u s).rfs.image = s.rfs.image ∧ (moveCursor u s).rfs.amplitudeMark = s.rfs.amplitudeMark ∧
    (moveCursor u s).rfs.angleMark = s.rfs.angleMark ∧ (moveCursor u s).rfs.aux = s.rfs.aux ∧
    (moveCursor u s).rfs.stage = s.rfs.stage ∧ (moveCursor u s).wen = s.wen ∧ (moveCursor u s).hif = s.hif ∧
    (moveCursor u s).cap = s.cap ∧ (moveCursor u s).log = s.log ∧ (moveCursor u s).pld = s.pld ∧
    (moveCursor u s).itm = s.itm ∧ (moveCursor u s).plan = s.plan ∧ (moveCursor u s).cuts = s.cuts ∧
    (moveCursor u s).pending = s.pending := by
  unfold moveCursor; (repeat' split) <;> simp [ite_state, ite_bpu, ite_mpl, ite_rfs, ite_mpa]

@[simp] theorem endBuffer_frame (b : BufferId) (u : Burst) (s : State) :
    (endBuffer b u s).pins = s.pins ∧ (endBuffer b u s).bpu = s.bpu ∧ (endBuffer b u s).mpa.fair = s.mpa.fair ∧
    (endBuffer b u s).ssc = s.ssc ∧ (endBuffer b u s).lsv = s.lsv ∧ (endBuffer b u s).fin = s.fin ∧
    (endBuffer b u s).rct = s.rct ∧ (endBuffer b u s).mpl = s.mpl ∧ (endBuffer b u s).rfs.image = s.rfs.image ∧
    (endBuffer b u s).rfs.amplitudeMark = s.rfs.amplitudeMark ∧ (endBuffer b u s).rfs.angleMark = s.rfs.angleMark ∧
    (endBuffer b u s).rfs.aux = s.rfs.aux ∧ (endBuffer b u s).hif = s.hif ∧ (endBuffer b u s).cap = s.cap ∧
    (endBuffer b u s).log = s.log ∧ (endBuffer b u s).pld = s.pld ∧ (endBuffer b u s).itm = s.itm ∧
    (endBuffer b u s).plan = s.plan ∧ (endBuffer b u s).cuts = s.cuts ∧ (endBuffer b u s).pending = s.pending := by
  simp [endBuffer]

end Sys2Proof.Machine
end

