-- ==== Sys2Proof/Laws/Memory.lean ====
section
/-! SUPPORT. The exchange memory: every write keeps its canonical form; what a read gives after a write. -/

namespace Sys2Proof.Machine.Memory

theorem wfFrom_mono {low low' : Nat} (h : low' ≤ low) {m : Memory} (hm : m.wfFrom low = true) :
    m.wfFrom low' = true := by
  cases m with
  | nil => rfl
  | cons e rest =>
    obtain ⟨k, v⟩ := e
    simp only [wfFrom, Bool.and_eq_true, decide_eq_true_eq] at hm ⊢
    exact ⟨⟨⟨by omega, hm.1.1.2⟩, hm.1.2⟩, hm.2⟩

theorem put_wfFrom {low a : Nat} (v : Word) (hl : low ≤ a) (ha : a < 262144) {m : Memory}
    (hm : m.wfFrom low = true) : (m.put a v).wfFrom low = true := by
  induction m generalizing low with
  | nil =>
    unfold put
    split
    · rfl
    · next h => simp [wfFrom, hl, ha, h]
  | cons e rest ih =>
    obtain ⟨k, w⟩ := e
    have hm' := hm
    simp only [wfFrom, Bool.and_eq_true, decide_eq_true_eq] at hm
    obtain ⟨⟨⟨h1, h2⟩, h3⟩, h4⟩ := hm
    unfold put
    split
    · next hlt =>
      split
      · exact hm'
      · next hv =>
        simp only [wfFrom, Bool.and_eq_true, decide_eq_true_eq]
        exact ⟨⟨⟨hl, ha⟩, hv⟩, ⟨⟨by omega, h2⟩, h3⟩, h4⟩
    · split
      · next hlt heq =>
        split
        · exact wfFrom_mono (by omega) h4
        · next hv =>
          simp only [wfFrom, Bool.and_eq_true, decide_eq_true_eq]
          subst heq
          exact ⟨⟨⟨hl, ha⟩, hv⟩, h4⟩
      · next hlt hne =>
        simp only [wfFrom, Bool.and_eq_true, decide_eq_true_eq]
        exact ⟨⟨⟨h1, h2⟩, h3⟩, ih (by omega) h4⟩

/-- A write keeps the canonical form. -/
theorem write_wf {m : Memory} (a : Addr) (v : Word) (hm : m.wf = true) : (m.write a v).wf = true :=
  put_wfFrom v (Nat.zero_le _) a.isLt hm

/-- Writes in a row keep the canonical form. -/
theorem writeAll_wf {m : Memory} (ws : List (Addr × Word)) (hm : m.wf = true) : (m.writeAll ws).wf = true := by
  induction ws generalizing m with
  | nil => exact hm
  | cons w ws ih => exact ih (write_wf w.1 w.2 hm)

/-- The link engines' writes keep the canonical form. -/
theorem applyFar_wf {m : Memory} (far : List FarWrite) (hm : m.wf = true) : (applyFar far m).wf = true :=
  writeAll_wf _ hm

theorem find_low {low b : Nat} (hb : b < low) {m : Memory} (hm : m.wfFrom low = true) :
    m.find b = Config.unwritten := by
  induction m generalizing low with
  | nil => rfl
  | cons e rest ih =>
    obtain ⟨k, w⟩ := e
    simp only [wfFrom, Bool.and_eq_true, decide_eq_true_eq] at hm
    unfold find
    rw [if_neg (by omega)]
    exact ih (by omega) hm.2

theorem find_put_same {low a : Nat} (v : Word) {m : Memory} (hm : m.wfFrom low = true) :
    (m.put a v).find a = v := by
  induction m generalizing low with
  | nil =>
    unfold put
    split
    · next h => simp [find, h]
    · simp [find]
  | cons e rest ih =>
    obtain ⟨k, w⟩ := e
    simp only [wfFrom, Bool.and_eq_true, decide_eq_true_eq] at hm
    unfold put
    split
    · next hlt =>
      split
      · next hv =>
        unfold find
        rw [if_neg (by omega), find_low (by omega) hm.2, hv]
      · simp [find]
    · split
      · next hlt heq =>
        subst heq
        split
        · next hv => rw [find_low (by omega) hm.2, hv]
        · simp [find]
      · next hlt hne =>
        unfold find
        rw [if_neg (by omega)]
        exact ih hm.2

theorem find_put_other {a b : Nat} (v : Word) (h : a ≠ b) (m : Memory) : (m.put a v).find b = m.find b := by
  induction m with
  | nil =>
    unfold put
    split <;> simp [find, h]
  | cons e rest ih =>
    obtain ⟨k, w⟩ := e
    unfold put
    split
    · split <;> simp [find, h]
    · split
      · next heq =>
        subst heq
        split <;> simp [find, h]
      · simp only [find, ih]

/-- A read of the word just written. -/
theorem read_write_same {m : Memory} (a : Addr) (v : Word) (hm : m.wf = true) : (m.write a v).read a = v :=
  find_put_same v hm

/-- A read of another word. -/
theorem read_write_other {a b : Addr} (v : Word) (h : a ≠ b) (m : Memory) : (m.write a v).read b = m.read b :=
  find_put_other v (fun e => h (BitVec.eq_of_toNat_eq e)) m

/-- A read of a word that none of some writes names. -/
theorem read_writeAll_outside (ws : List (Addr × Word)) {b : Addr} (h : b ∉ ws.map Prod.fst) (m : Memory) :
    (m.writeAll ws).read b = m.read b := by
  induction ws generalizing m with
  | nil => rfl
  | cons w ws ih =>
    simp only [List.map_cons, List.mem_cons, not_or] at h
    show ((m.write w.1 w.2).writeAll ws).read b = m.read b
    rw [ih h.2, read_write_other w.2 (fun e => h.1 e.symm)]

end Sys2Proof.Machine.Memory

namespace Sys2Proof.Machine

/-- A tenure that is cut keeps the canonical form. -/
theorem cutWrites_wf (ws : List (Addr × Word)) (s : State) (hm : s.mem.wf = true) :
    (cutWrites ws s).mem.wf = true := Memory.writeAll_wf _ hm

end Sys2Proof.Machine
end

