-- ==== Sys2Proof/Laws/Tables.lean ====
section
/-! SUPPORT. The two fixed-size tables: what a read gives after each update; the slots of a phase. -/

namespace Sys2Proof

namespace PerPhase

variable {α β : Type}

@[simp] theorem get_set_same (v : PerPhase α) (p : Phase) (x : α) : (v.set p x).get p = x := by cases p <;> rfl

theorem get_set_other (v : PerPhase α) {p q : Phase} (x : α) (h : q ≠ p) : (v.set p x).get q = v.get q := by
  cases p <;> cases q <;> first | rfl | exact absurd rfl h

theorem get_set (v : PerPhase α) (p q : Phase) (x : α) : (v.set p x).get q = if q = p then x else v.get q := by
  cases p <;> cases q <;> rfl

theorem get_modify (v : PerPhase α) (p q : Phase) (f : α → α) :
    (v.modify p f).get q = if q = p then f (v.get q) else v.get q := by
  cases p <;> cases q <;> rfl

@[simp] theorem get_all (x : α) (p : Phase) : (PerPhase.all x).get p = x := by cases p <;> rfl

@[simp] theorem get_map (f : α → β) (v : PerPhase α) (p : Phase) : (v.map f).get p = f (v.get p) := by cases p <;> rfl

@[simp] theorem get_ofFn (f : Phase → α) (p : Phase) : (PerPhase.ofFn f).get p = f p := by cases p <;> rfl

theorem ext_get {v w : PerPhase α} (h : ∀ p, v.get p = w.get p) : v = w := by
  obtain ⟨a, b, c⟩ := v
  obtain ⟨a', b', c'⟩ := w
  have ha := h .a
  have hb := h .b
  have hc := h .c
  simp only [PerPhase.get] at ha hb hc
  subst ha hb hc
  rfl

end PerPhase

namespace PerSlot

variable {α β : Type}

@[simp] theorem get_set_same (v : PerSlot α) (i : Fin 24) (x : α) : (v.set i x).get i = x := by
  simp [PerSlot.get, PerSlot.set]

theorem get_set (v : PerSlot α) (i j : Fin 24) (x : α) : (v.set i x).get j = if j = i then x else v.get j := by
  simp only [PerSlot.get, PerSlot.set, List.getElem_set]
  by_cases h : j = i
  · subst h; simp
  · have h' : ¬ (i.val = j.val) := fun e => h (Fin.ext e.symm)
    simp [h, h']

theorem get_set_other (v : PerSlot α) {i j : Fin 24} (x : α) (h : j ≠ i) : (v.set i x).get j = v.get j := by
  rw [get_set, if_neg h]

theorem get_modify (v : PerSlot α) (i j : Fin 24) (f : α → α) :
    (v.modify i f).get j = if j = i then f (v.get j) else v.get j := by
  rw [PerSlot.modify, get_set]
  split
  · next h => rw [h]
  · rfl

@[simp] theorem get_all (x : α) (i : Fin 24) : (PerSlot.all x).get i = x := by
  simp only [PerSlot.get, PerSlot.all, List.getElem_replicate]

@[simp] theorem get_map (f : α → β) (v : PerSlot α) (i : Fin 24) : (v.map f).get i = f (v.get i) := by
  simp [PerSlot.get, PerSlot.map]

@[simp] theorem get_ofFn (f : Fin 24 → α) (i : Fin 24) : (PerSlot.ofFn f).get i = f i := by
  fin_cases i <;> rfl

theorem ext_get {v w : PerSlot α} (h : ∀ i, v.get i = w.get i) : v = w := by
  obtain ⟨l, hl⟩ := v
  obtain ⟨m, hm⟩ := w
  have : l = m := by
    apply List.ext_getElem (by omega)
    intro n h1 h2
    exact h ⟨n, by omega⟩
  subst this
  rfl

end PerSlot

theorem mem_allSlots (i : Fin 24) : i ∈ allSlots := by fin_cases i <;> simp [allSlots]

theorem mem_phaseSlots (p : Phase) (i : Fin 24) : i ∈ phaseSlots p ↔ phaseOf i = p := by
  cases p <;> fin_cases i <;> decide

theorem phaseSlots_nodup (p : Phase) : (phaseSlots p).Nodup := by cases p <;> decide

namespace Machine

theorem holderOf_some {m : SlotMap} {p : Phase} {q : Nat} {i : Slot} (h : holderOf m p q = some i) :
    phaseOf i = p ∧ (m.get i).role = .active q := by
  have h1 := List.mem_of_find?_eq_some h
  have h2 := List.find?_some h
  exact ⟨(mem_phaseSlots p i).mp h1, by simpa using h2⟩

theorem holderOf_none {m : SlotMap} {p : Phase} {q : Nat} (h : holderOf m p q = none) (i : Slot)
    (hp : phaseOf i = p) : (m.get i).role ≠ .active q := by
  have := List.find?_eq_none.mp h i ((mem_phaseSlots p i).mpr hp)
  simpa using this

theorem mem_activeSlots (m : SlotMap) (i : Slot) : i ∈ activeSlots m ↔ (m.get i).role.isActive = true := by
  simp [activeSlots, mem_allSlots]

end Machine

end Sys2Proof
end

