-- ==== Sys2Proof/Laws/Effects.lean ====
section
/-! SUPPORT. What the shared operations do, said once: the hoist outputs at a change of state, jobs and their
cancellation, records, a change of restart state, a trip, an entry to LOCKOUT, a return to UNARMED. -/

namespace Sys2Proof.Machine

/-! ## Hoist outputs -/

@[simp] theorem dropPermit_fields (h : Hif) :
    h.dropPermit.permit = false ∧ h.dropPermit.driveHealthy = h.driveHealthy ∧ h.dropPermit.lastTag = h.lastTag
      ∧ h.dropPermit.tagChanged = h.tagChanged ∧ h.dropPermit.stale = h.stale ∧ h.dropPermit.period = h.period
      ∧ h.dropPermit.proofNeeded = (h.permit || h.proofNeeded) := by
  unfold Hif.dropPermit; split <;> simp_all

/-- The outputs after a change of state that is no accepted proof. -/
theorem hif_enter_of_not_proof {old new : RestartState} {m : Mode} (h : Hif) (hp : ¬(old = .proving ∧ new = .normal)) :
    h.enter old new m = { (if permitFalls new m then h.dropPermit else h) with driveHealthy := driveHealthyLevel new m } := by
  simp [Hif.enter, hp]

theorem hif_enter_driveHealthy (h : Hif) (old new : RestartState) (m : Mode) :
    (h.enter old new m).driveHealthy = driveHealthyLevel new m := by
  by_cases hp : old = .proving ∧ new = .normal <;> simp [Hif.enter, hp, Hif.raisePermit]

theorem hif_enter_permit (h : Hif) {old new : RestartState} (m : Mode) (hp : ¬(old = .proving ∧ new = .normal)) :
    (h.enter old new m).permit = (h.permit && !permitFalls new m) := by
  rw [hif_enter_of_not_proof h hp]; cases permitFalls new m <;> simp

/-! ## Jobs -/

/-- Submission touches the Write Engine alone: the list of the job's class, or the completions for an empty job. -/
theorem submit_jobs (k : JobKind) (ws : List JobWrite) (s : State) (c : JobClass) :
    (submit k ws s).wen.jobs c = if ws ≠ [] ∧ c = k.cls then s.wen.jobs c ++ [⟨k, ws, false⟩] else s.wen.jobs c := by
  by_cases h : ws = []
  · simp [submit, h, Wen.note]; split <;> cases c <;> simp [Wen.jobs]
  · cases c <;> cases hk : k.cls <;> simp [submit, h, Wen.append, Wen.jobs, Wen.setJobs, hk]

@[simp] theorem submit_buffer (k : JobKind) (ws : List JobWrite) (s : State) (b : BufferId) :
    (submit k ws s).wen.buffer b = s.wen.buffer b := by
  by_cases h : ws = []
  · simp [submit, h, Wen.note]; split <;> cases b <;> simp [Wen.buffer]
  · cases b <;> cases hk : k.cls <;> simp [submit, h, Wen.append, Wen.buffer, Wen.setJobs, hk]

theorem submit_done (k : JobKind) (ws : List JobWrite) (s : State) :
    (submit k ws s).wen.done = if ws = [] ∧ k.reported = true then s.wen.done ++ [k] else s.wen.done := by
  by_cases h : ws = []
  · simp [submit, h, Wen.note]; split <;> simp
  · cases hk : k.cls <;> simp [submit, h, Wen.append, Wen.setJobs, hk]

theorem mem_jobs_all (w : Wen) (j : Job) : j ∈ w.jobs1 ++ w.jobs2 ++ w.jobs3 ↔ ∃ c, j ∈ w.jobs c := by
  constructor
  · intro h; simp at h; rcases h with h | h | h
    · exact ⟨.one, h⟩
    · exact ⟨.two, h⟩
    · exact ⟨.three, h⟩
  · rintro ⟨c, h⟩; cases c <;> simp_all [Wen.jobs]

theorem noJobsOf_iff (p : JobKind → Bool) (u : State) :
    NoJobsOf p u ↔ (∀ c, ∀ j ∈ u.wen.jobs c, p j.kind = false)
      ∧ (∀ b w, u.wen.buffer b = .ready w ∨ u.wen.buffer b = .writing w → p w.kind = false)
      ∧ ∀ k ∈ u.wen.done, p k = false := by
  simp only [NoJobsOf, mem_jobs_all]
  constructor
  · rintro ⟨a, b, c⟩; exact ⟨fun c j h => a j ⟨c, h⟩, b, c⟩
  · rintro ⟨a, b, c⟩; exact ⟨fun j ⟨c, h⟩ => a c j h, b, c⟩

theorem NoJobsOf.submit {p : JobKind → Bool} {s : State} (h : NoJobsOf p s) (k : JobKind) (ws : List JobWrite)
    (hk : p k = false) : NoJobsOf p (submit k ws s) := by
  rw [noJobsOf_iff] at h ⊢
  obtain ⟨h1, h2, h3⟩ := h
  refine ⟨?_, ?_, ?_⟩
  · intro c j hj; rw [submit_jobs] at hj; split at hj
    · simp at hj; rcases hj with hj | rfl
      · exact h1 c j hj
      · exact hk
    · exact h1 c j hj
  · intro b w; simpa using h2 b w
  · intro j hj; rw [submit_done] at hj; split at hj
    · simp at hj; rcases hj with hj | rfl
      · exact h3 j hj
      · exact hk
    · exact h3 j hj

theorem JobListed.submit {k : JobKind} {ws : List JobWrite} {s : State} (h : JobListed k ws s) (k' : JobKind)
    (ws' : List JobWrite) : JobListed k ws (submit k' ws' s) := by
  unfold JobListed at *; rw [submit_jobs]; split <;> simp [h]

theorem jobListed_submit (k : JobKind) {ws : List JobWrite} (s : State) (h : ws ≠ []) : JobListed k ws (submit k ws s) := by
  unfold JobListed; rw [submit_jobs]; simp [h]

theorem gateTo_eq_nil (v : Word) (l : List Slot) : gateTo v l = [] ↔ l = [] := by simp [gateTo]

theorem blocksAll_blockAll (s : State) : BlocksAll s.mpl.slots (blockAll s) := by
  by_cases h : activeSlots s.mpl.slots = []
  · exact .inl h
  · exact .inr (jobListed_submit .blockAll s (ws := gateTo 0 (activeSlots s.mpl.slots)) fun e => h ((gateTo_eq_nil _ _).1 e))

/-! ## Cancellation (R35) -/

theorem cancelBuffer_jobs (p : JobKind → Bool) (b : BufferId) (s : State) (c : JobClass) :
    (cancelBuffer p b s).wen.jobs c = s.wen.jobs c := by
  unfold cancelBuffer
  repeat' split
  all_goals (try rfl)
  all_goals cases b <;> cases c <;> simp [cutWrites, Wen.setBuffer, Wen.jobs]

theorem cancelBuffer_done (p : JobKind → Bool) (b : BufferId) (s : State) :
    (cancelBuffer p b s).wen.done = s.wen.done := by
  unfold cancelBuffer
  repeat' split
  all_goals (try rfl)
  all_goals cases b <;> simp [cutWrites, Wen.setBuffer]

theorem cancelBuffer_other (p : JobKind → Bool) (b b' : BufferId) (s : State) (h : b' ≠ b) :
    (cancelBuffer p b s).wen.buffer b' = s.wen.buffer b' := by
  unfold cancelBuffer
  repeat' split
  all_goals (try rfl)
  all_goals cases b <;> cases b' <;> simp_all [cutWrites, Wen.setBuffer, Wen.buffer]

theorem cancelBuffer_same (p : JobKind → Bool) (b : BufferId) (s : State) :
    (cancelBuffer p b s).wen.buffer b = (match s.wen.buffer b with
      | .empty => .empty
      | .ready w => if p w.kind then .empty else .ready w
      | .writing w => if p w.kind then .empty else .writing w) := by
  unfold cancelBuffer
  cases h : s.wen.buffer b with
  | empty => simp [h]
  | ready w => by_cases hp : p w.kind <;> cases b <;> simp_all [Wen.setBuffer, Wen.buffer]
  | writing w => by_cases hp : p w.kind <;> cases b <;> simp_all [cutWrites, Wen.setBuffer, Wen.buffer]

/-- After a cancellation: the lists and the completions filtered, the buffers of those kinds EMPTY. -/
theorem cancel_jobs (p : JobKind → Bool) (s : State) (c : JobClass) :
    (cancel p s).wen.jobs c = (s.wen.jobs c).filter (!p ·.kind) := by
  have := fun c => cancelBuffer_jobs p .y (cancelBuffer p .x s) c
  have h2 := fun c => cancelBuffer_jobs p .x s c
  cases c
  · have a := (this .one).trans (h2 .one); simp only [Wen.jobs] at a ⊢; simp [cancel, a]
  · have a := (this .two).trans (h2 .two); simp only [Wen.jobs] at a ⊢; simp [cancel, a]
  · have a := (this .three).trans (h2 .three); simp only [Wen.jobs] at a ⊢; simp [cancel, a]

theorem cancel_done (p : JobKind → Bool) (s : State) : (cancel p s).wen.done = s.wen.done.filter (!p ·) := by
  simp [cancel, cancelBuffer_done]

theorem cancel_buffer (p : JobKind → Bool) (s : State) (b : BufferId) :
    (cancel p s).wen.buffer b = (match s.wen.buffer b with
      | .empty => .empty
      | .ready w => if p w.kind then .empty else .ready w
      | .writing w => if p w.kind then .empty else .writing w) := by
  have e : (cancel p s).wen.buffer b = (cancelBuffer p .y (cancelBuffer p .x s)).wen.buffer b := by
    cases b <;> simp [cancel, Wen.buffer]
  rw [e]
  cases b
  · rw [cancelBuffer_other p .y .x _ (by decide), cancelBuffer_same]
  · rw [cancelBuffer_same, cancelBuffer_other p .x .y _ (by decide)]

theorem noJobsOf_cancel (p : JobKind → Bool) (s : State) : NoJobsOf p (cancel p s) := by
  rw [noJobsOf_iff]
  refine ⟨?_, ?_, ?_⟩
  · intro c j hj; rw [cancel_jobs] at hj; simp at hj; exact hj.2
  · intro b w hw; rw [cancel_buffer] at hw
    cases h : s.wen.buffer b with
    | empty => simp [h] at hw
    | ready v =>
      simp only [h] at hw; by_cases hp : p v.kind
      · simp [hp] at hw
      · simp [hp] at hw; subst hw; simpa using hp
    | writing v =>
      simp only [h] at hw; by_cases hp : p v.kind
      · simp [hp] at hw
      · simp [hp] at hw; subst hw; simpa using hp
  · intro k hk; rw [cancel_done] at hk; simp at hk; exact hk.2

theorem JobListed.cancel {k : JobKind} {ws : List JobWrite} {s : State} (h : JobListed k ws s) (p : JobKind → Bool)
    (hk : p k = false) : JobListed k ws (cancel p s) := by
  unfold JobListed at *; rw [cancel_jobs]; simp [h, hk]

/-! ## Records (R172) -/

/-- From s to t nothing happens but records handed to the Log Unit: jobs of records and of the header join class 3, and
the write list grows at its tail. -/
structure Records (s t : State) : Prop where
  wen : ∃ jobs, t.wen = { s.wen with jobs3 := s.wen.jobs3 ++ jobs }
    ∧ ∀ j ∈ jobs, j.begun = false ∧ (j.kind = .logHeader ∨ ∃ c, j.kind = .logRecord c)
  grows : s.log.writeList <+: t.log.writeList
  log : t.log.running = s.log.running ∧ t.log.capacity = s.log.capacity ∧ t.log.written = s.log.written
    ∧ t.log.consumer = s.log.consumer ∧ t.log.lastCategory = s.log.lastCategory ∧ t.log.irqMask = s.log.irqMask
  rest : t = { s with wen := t.wen, log := t.log }

theorem Records.refl (s : State) : Records s s := by
  refine ⟨⟨[], by simp, by simp⟩, List.prefix_refl _, by simp, rfl⟩

theorem Records.trans {s t u : State} (a : Records s t) (b : Records t u) : Records s u := by
  obtain ⟨⟨ja, a1, a2⟩, a3, a4, a5⟩ := a
  obtain ⟨⟨jb, b1, b2⟩, b3, b4, b5⟩ := b
  refine ⟨⟨ja ++ jb, by rw [b1, a1]; simp, ?_⟩, a3.trans b3, ?_, ?_⟩
  · intro j hj; simp at hj; rcases hj with hj | hj
    · exact a2 j hj
    · exact b2 j hj
  · obtain ⟨a1, a2, a3, a4, a5, a6⟩ := a4
    obtain ⟨b1, b2, b3, b4, b5, b6⟩ := b4
    exact ⟨b1.trans a1, b2.trans a2, b3.trans a3, b4.trans a4, b5.trans a5, b6.trans a6⟩
  · rw [b5, a5]

theorem queueOverflowHeader_jobs3 (s : State) :
    (queueOverflowHeader s).wen.jobs3
      = if s.wen.jobs3.any (fun j => j.kind == .logHeader && j.todo.contains overflowWrite) = true
        then s.wen.jobs3 else s.wen.jobs3 ++ [⟨.logHeader, [overflowWrite], false⟩] := by
  unfold queueOverflowHeader; split <;> simp_all [submit, Wen.append, Wen.setJobs, JobKind.cls, Wen.jobs]

theorem records_queueOverflowHeader (s : State) : Records s (queueOverflowHeader s) := by
  unfold queueOverflowHeader
  split
  · exact .refl s
  · refine ⟨⟨[⟨.logHeader, [overflowWrite], false⟩], ?_, by simp⟩, ?_, ?_, ?_⟩ <;>
      simp [submit, Wen.append, Wen.setJobs, JobKind.cls, Wen.jobs, State.onWen]

theorem records_handRecord (closing : Bool) (c : Category) (code slot arg : Word) (s : State) :
    Records s (handRecord closing c code slot arg s) := by
  unfold handRecord
  split
  · split
    · unfold dropRecord
      refine Records.trans (t := s.onLog fun l => { l with overflow := satInc l.overflow }) ?_
        (records_queueOverflowHeader _)
      exact ⟨⟨[], by simp, by simp⟩, by simp, by simp, rfl⟩
    · unfold acceptRecord
      refine ⟨⟨[⟨.logRecord closing, recordJob s.log.producer ((s.log.producer + 1) % s.log.capacity)
        (recordWords c code slot arg s), false⟩], ?_, ?_⟩, ?_, ?_, ?_⟩
      · simp [submit, recordJob, Wen.append, Wen.setJobs, JobKind.cls, Wen.jobs]
      · simp
      · simp [submit, recordJob, Log.updateIrq, Wen.append, Wen.setJobs, JobKind.cls]
      · simp [submit, recordJob, Log.updateIrq, Wen.append, Wen.setJobs, JobKind.cls]
      · simp [submit, recordJob, Wen.append, Wen.setJobs, JobKind.cls, State.onWen, State.onLog]
  · exact .refl s

theorem records_logRecord (c : Category) (code slot arg : Word) (s : State) :
    Records s (logRecord c code slot arg s) := records_handRecord ..

/-- What a record does to the log and the Write Engine depends on these two, the restart state and the stamps alone. -/
theorem logRecord_congr {s t : State} (hl : s.log = t.log) (hw : s.wen = t.wen) (hr : s.rct.restart = t.rct.restart)
    (hi : s.itm = t.itm) (c : Category) (code slot arg : Word) :
    (logRecord c code slot arg s).log = (logRecord c code slot arg t).log
      ∧ (logRecord c code slot arg s).wen = (logRecord c code slot arg t).wen := by
  cases s
  cases t
  simp only at hl hw hr hi
  subst hl hw hi
  have hne : ∀ pos next ws, recordJob pos next ws ≠ [] := by simp [recordJob]
  simp only [logRecord, handRecord, logFull, dropRecord, acceptRecord, queueOverflowHeader, recordWords, submit, State.onLog,
    State.onWen, hr, hne, ↓reduceIte]
  split_ifs <;> exact ⟨rfl, rfl⟩

theorem handAll_cons (c : Category) (r : Word × Word × Word) (rs : List (Word × Word × Word)) (s : State) :
    handAll c (r :: rs) s = handAll c rs (logRecord c r.1 r.2.1 r.2.2 s) := rfl

theorem handAll_append (c : Category) (rs qs : List (Word × Word × Word)) (s : State) :
    handAll c (rs ++ qs) s = handAll c qs (handAll c rs s) := List.foldl_append ..

/-- The same of records handed in turn. -/
theorem handAll_congr {s t : State} (hl : s.log = t.log) (hw : s.wen = t.wen) (hr : s.rct.restart = t.rct.restart)
    (hi : s.itm = t.itm) (c : Category) (rs : List (Word × Word × Word)) :
    (handAll c rs s).log = (handAll c rs t).log ∧ (handAll c rs s).wen = (handAll c rs t).wen := by
  induction rs generalizing s t with
  | nil => exact ⟨hl, hw⟩
  | cons r rs ih =>
    obtain ⟨h1, h2⟩ := logRecord_congr hl hw hr hi c r.1 r.2.1 r.2.2
    exact ih h1 h2 (by simpa using hr) (by simpa using hi)

theorem records_foldl {α : Type} (f : State → α → State) (hf : ∀ s a, Records s (f s a)) (l : List α) (s : State) :
    Records s (l.foldl f s) := by
  induction l generalizing s with
  | nil => exact .refl s
  | cons a l ih => exact (hf s a).trans (ih _)

theorem Records.mem_jobs {s t : State} (h : Records s t) {c : JobClass} {j : Job} (hj : j ∈ s.wen.jobs c) :
    j ∈ t.wen.jobs c := by
  obtain ⟨⟨jobs, h1, _⟩, _⟩ := h
  rw [h1]; clear h1
  cases c
  · exact hj
  · exact hj
  · exact List.mem_append_left _ hj

theorem Records.jobListed {s t : State} (h : Records s t) {k : JobKind} {ws : List JobWrite} (hj : JobListed k ws s) :
    JobListed k ws t := h.mem_jobs hj

theorem Records.blocksAll {s t : State} (h : Records s t) {m : SlotMap} (hb : BlocksAll m s) : BlocksAll m t :=
  hb.imp id h.jobListed

theorem Records.imagePending {s t : State} (h : Records s t) (hi : ImagePending s) : ImagePending t := by
  obtain ⟨⟨jobs, h1, _⟩, _⟩ := h
  unfold ImagePending at *; rw [h1, List.any_append, hi]; rfl

theorem Records.noJobsOf {s t : State} (h : Records s t) {p : JobKind → Bool} (hn : NoJobsOf p s)
    (hp : ∀ c, p (.logRecord c) = false) (hh : p .logHeader = false) : NoJobsOf p t := by
  obtain ⟨⟨jobs, h1, h2⟩, _⟩ := h
  rw [noJobsOf_iff] at hn ⊢
  obtain ⟨n1, n2, n3⟩ := hn
  refine ⟨?_, ?_, ?_⟩
  · intro c j hj; rw [h1] at hj
    cases c
    · exact n1 .one j hj
    · exact n1 .two j hj
    · simp only [Wen.jobs, List.mem_append] at hj; rcases hj with hj | hj
      · exact n1 .three j hj
      · rcases (h2 j hj).2 with e | ⟨c, e⟩ <;> simp [e, hp, hh]
  · intro b w hw; rw [h1] at hw; exact n2 b w (by cases b <;> exact hw)
  · intro k hk; rw [h1] at hk; exact n3 k hk

/-- The fields that records leave. -/
theorem Records.fields {s t : State} (h : Records s t) :
    t.pins = s.pins ∧ t.mem = s.mem ∧ t.bpu = s.bpu ∧ t.mpa = s.mpa ∧ t.ssc = s.ssc ∧ t.lsv = s.lsv ∧ t.fin = s.fin
      ∧ t.rct = s.rct ∧ t.mpl = s.mpl ∧ t.rfs = s.rfs ∧ t.hif = s.hif ∧ t.cap = s.cap ∧ t.pld = s.pld ∧ t.itm = s.itm
      ∧ t.plan = s.plan ∧ t.cuts = s.cuts ∧ t.pending = s.pending := by
  rw [h.rest]; simp

theorem Records.keeps {s t : State} (h : Records s t) : KeepsAllBut [.wen, .log] s t := by
  obtain ⟨h1, h2, h3, h4, h5, h6, h7, h8, h9, h10, h11, h12, h13, h14, h15, h16, h17⟩ := h.fields
  intro f hf; cases f <;> simp_all [Field.same]

/-- A record handed, and records after it. -/
theorem handsFirst_of_records {c : Category} {code slot arg : Word} {s t u : State} (hl : t.log = s.log)
    (hw : t.wen.jobs3 = s.wen.jobs3) (hr : t.rct.restart = s.rct.restart) (hi : t.itm = s.itm)
    (h : Records (logRecord c code slot arg t) u) : HandsFirst c code slot arg s u := by
  have key : (logRecord c code slot arg s).log = (logRecord c code slot arg t).log
      ∧ (logRecord c code slot arg s).wen.jobs3 = (logRecord c code slot arg t).wen.jobs3 := by
    unfold logRecord handRecord logFull
    rw [hl]
    split
    · split
      · constructor
        · simp [dropRecord, hl]
        · simp only [dropRecord, queueOverflowHeader_jobs3, State.onLog_wen, hw]
          rfl
      · constructor
        · simp [acceptRecord, hl]
        · simp [acceptRecord, submit, recordJob, Wen.append, Wen.setJobs, JobKind.cls, Wen.jobs, hw, hl, recordWords, hr, hi]
    · exact ⟨hl.symm, hw.symm⟩
  refine ⟨by rw [key.1]; exact h.grows, ?_⟩
  intro j hj hn
  rw [key.2] at hj
  exact h.mem_jobs (c := .three) hj

/-! ## The Write Engine grows -/

/-- From s to t jobs join the lists at their tails, and the buffers and completions stay. -/
structure JobsGrow (s t : State) : Prop where
  jobs : ∀ c, s.wen.jobs c <+: t.wen.jobs c
  buffer : ∀ b, t.wen.buffer b = s.wen.buffer b
  done : t.wen.done = s.wen.done

theorem JobsGrow.of_wen {s t : State} (h : t.wen = s.wen) : JobsGrow s t :=
  ⟨fun c => by rw [h], fun b => by rw [h], by rw [h]⟩

theorem JobsGrow.refl (s : State) : JobsGrow s s := .of_wen rfl

theorem JobsGrow.trans {s t u : State} (a : JobsGrow s t) (b : JobsGrow t u) : JobsGrow s u :=
  ⟨fun c => (a.jobs c).trans (b.jobs c), fun c => (b.buffer c).trans (a.buffer c), b.done.trans a.done⟩

theorem JobsGrow.submit (k : JobKind) (ws : List JobWrite) (s : State) (h : ws ≠ [] ∨ k.reported = false) :
    JobsGrow s (submit k ws s) := by
  refine ⟨?_, by simp, ?_⟩
  · intro c; rw [submit_jobs]; split <;> simp
  · rw [submit_done]; rcases h with h | h <;> simp [h]

theorem JobsGrow.blockAll (s : State) : JobsGrow s (blockAll s) := .submit _ _ _ (.inr rfl)

theorem Records.jobsGrow {s t : State} (h : Records s t) : JobsGrow s t := by
  obtain ⟨⟨jobs, h1, _⟩, _⟩ := h
  refine ⟨?_, ?_, ?_⟩
  · intro c; rw [h1]; cases c <;> simp [Wen.jobs]
  · intro b; rw [h1]; cases b <;> rfl
  · rw [h1]

theorem JobsGrow.jobListed {s t : State} (h : JobsGrow s t) {k : JobKind} {ws : List JobWrite} (hj : JobListed k ws s) :
    JobListed k ws t := (h.jobs _).subset hj

/-- Other jobs stay over growth before and after. -/
theorem OtherJobsStay.grow {p : JobKind → Bool} {s s' u u' : State} (h : OtherJobsStay p s' u) (a : JobsGrow s s')
    (b : JobsGrow u u') : OtherJobsStay p s u' := by
  obtain ⟨h1, h2, h3⟩ := h
  refine ⟨fun c => (((a.jobs c).filter _).trans (h1 c)).trans (b.jobs c), fun i hi => ?_, ?_⟩
  · rw [b.buffer, h2 i (by simpa [a.buffer] using hi), a.buffer]
  · rw [b.done, h3, a.done]

theorem otherJobsStay_cancel (p : JobKind → Bool) (s : State) : OtherJobsStay p s (cancel p s) := by
  refine ⟨fun c => by rw [cancel_jobs], fun b hb => ?_, cancel_done p s⟩
  rw [cancel_buffer]
  cases h : s.wen.buffer b with
  | empty => rfl
  | ready w => simp [hb w (.inl h)]
  | writing w => simp [hb w (.inr h)]

/-! ## Memory at a cancellation (R35) -/

theorem cancelBuffer_uncut {p : JobKind → Bool} {b : BufferId} {s : State}
    (h : ∀ w, s.wen.buffer b = .writing w → p w.kind = false) :
    (cancelBuffer p b s).mem = s.mem ∧ (cancelBuffer p b s).cuts = s.cuts ∧ (cancelBuffer p b s).mpa = s.mpa := by
  unfold cancelBuffer
  split
  · simp
  · split <;> simp
  · next w hw => simp [h w hw]

theorem cancelBuffer_holder (p : JobKind → Bool) (b : BufferId) (s : State) (h : s.mpa.holder = none) :
    (cancelBuffer p b s).mpa.holder = none := by
  unfold cancelBuffer
  split
  · exact h
  · split <;> simpa using h
  · split
    · simp
    · exact h

theorem cancelBuffer_cut {p : JobKind → Bool} {b : BufferId} {s : State} {w : Burst} (h : s.wen.buffer b = .writing w)
    (hp : p w.kind = true) : (cancelBuffer p b s).mpa.holder = none := by
  simp [cancelBuffer, h, hp]

theorem cancelBuffer_read {p : JobKind → Bool} {b : BufferId} {s : State} {a : Addr}
    (h : ∀ w, s.wen.buffer b = .writing w → p w.kind = true → a ∉ w.writes.map Prod.fst) :
    (cancelBuffer p b s).mem.read a = s.mem.read a := by
  unfold cancelBuffer
  split
  · rfl
  · split <;> simp
  · next w hw =>
    split
    · next hp =>
      simp only [State.onMpa_mem, State.onWen_mem, cutWrites]
      refine Memory.read_writeAll_outside _ (fun ha => h w hw hp ?_) _
      rw [List.map_take] at ha
      exact List.mem_of_mem_take ha
    · rfl

/-- What a cancellation leaves of the memory and the port. -/
theorem cutsOnly_cancel (p : JobKind → Bool) (s : State) :
    CutsOnly p s (cancel p s) ∧ (¬Writing p s → (cancel p s).mpa = s.mpa) := by
  have hy := cancelBuffer_other p .x .y s (by decide)
  have key : ¬Writing p s → (cancel p s).mem = s.mem ∧ (cancel p s).cuts = s.cuts ∧ (cancel p s).mpa = s.mpa := by
    intro h
    have hx : ∀ b w, s.wen.buffer b = .writing w → p w.kind = false := fun b w hw => by
      by_contra hp; exact h ⟨b, w, hw, by simpa using hp⟩
    obtain ⟨x1, x2, x3⟩ := cancelBuffer_uncut (hx .x)
    obtain ⟨y1, y2, y3⟩ := cancelBuffer_uncut (p := p) (b := .y) (s := cancelBuffer p .x s) (by rw [hy]; exact hx .y)
    exact ⟨y1.trans x1, y2.trans x2, y3.trans x3⟩
  refine ⟨⟨?_, fun h => ⟨(key h).1, (key h).2.1⟩, ?_⟩, fun h => (key h).2.2⟩
  · rintro ⟨b, w, hw, hp⟩
    have e : (cancel p s).mpa = (cancelBuffer p .y (cancelBuffer p .x s)).mpa := by simp [cancel]
    rw [e]
    cases b
    · exact cancelBuffer_holder _ _ _ (cancelBuffer_cut hw hp)
    · exact cancelBuffer_cut (hy.trans hw) hp
  · intro a h
    have e : (cancel p s).mem = (cancelBuffer p .y (cancelBuffer p .x s)).mem := by simp [cancel]
    rw [e, cancelBuffer_read (by rw [hy]; exact h .y), cancelBuffer_read (h .x)]

/-- The same, said of states that agree at the buffers, the memory and the port. -/
theorem CutsOnly.of_same {p : JobKind → Bool} {s s' u u' : State} (h : CutsOnly p s' u)
    (hb : ∀ b, s'.wen.buffer b = s.wen.buffer b) (hm : s'.mem = s.mem) (hc : s'.cuts = s.cuts) (um : u'.mem = u.mem)
    (uc : u'.cuts = u.cuts) (uh : u.mpa.holder = none → u'.mpa.holder = none) : CutsOnly p s u' := by
  obtain ⟨h1, h2, h3⟩ := h
  simp only [CutsOnly, Writing, hb, hm, hc, um, uc] at *
  exact ⟨fun h => uh (h1 h), h2, h3⟩

theorem Writing.iff_of_same {p : JobKind → Bool} {s s' : State} (hb : ∀ b, s'.wen.buffer b = s.wen.buffer b) :
    Writing p s' ↔ Writing p s := by simp only [Writing, hb]

/-! ## Records with room (R172) -/

theorem LogRoom.mono {n m : Nat} {s : State} (h : LogRoom n s) (hm : m ≤ n) : LogRoom m s :=
  ⟨h.1, by have := h.2.1; omega, fun k hk => h.2.2 k (by omega)⟩

/-- A record handed with room is accepted: its entry, its job, and the room left. -/
theorem logRecord_room {n : Nat} {s : State} (h : LogRoom (n + 1) s) (c : Category) (code slot arg : Word) :
    let pos := s.log.producer
    let next := (pos + 1) % s.log.capacity
    let t := logRecord c code slot arg s
    LogRoom n t ∧ t.log.writeList = s.log.writeList ++ [⟨c, pos, next, false⟩] ∧ t.log.producer = next
      ∧ t.log.capacity = s.log.capacity
      ∧ t.wen.jobs3 = s.wen.jobs3 ++ [⟨.logRecord false, recordJob pos next (recordWords c code slot arg s), false⟩] := by
  obtain ⟨h1, h2, h3⟩ := h
  have h0 := h3 0 (by omega)
  have hf : logFull s = false := by
    simp only [logFull, Bool.or_eq_false_iff, beq_eq_false_iff_ne, Config.writeListCapacity]
    exact ⟨decide_eq_false (by omega), by simpa using h0⟩
  have e : logRecord c code slot arg s = acceptRecord false c code slot arg s := by simp [logRecord, handRecord, h1, hf]
  simp only [e]
  refine ⟨⟨?_, ?_, ?_⟩, ?_, ?_, ?_, ?_⟩
  · simp [acceptRecord, h1, Log.updateIrq]
  · simp [acceptRecord, Log.updateIrq]; omega
  · intro m hm
    have := h3 (m + 1) (by omega)
    simp only [acceptRecord, submit_frame, State.onLog_log, Log.updateIrq]
    rw [Nat.add_assoc, Nat.mod_add_mod]
    simpa [Nat.add_comm, Nat.add_left_comm] using this
  · simp [acceptRecord, Log.updateIrq]
  · simp [acceptRecord, Log.updateIrq]
  · simp [acceptRecord, Log.updateIrq]
  · simp [acceptRecord, submit, recordJob, Wen.append, Wen.setJobs, JobKind.cls, Wen.jobs, recordWords]

/-- The record handed first, with growth after it. -/
theorem recordMade_first {n : Nat} {c : Category} {code slot arg : Word} {s t u : State} (hl : t.log = s.log)
    (g : (logRecord c code slot arg t).log.writeList <+: u.log.writeList) (j : JobsGrow (logRecord c code slot arg t) u) :
    RecordMade (n + 1) c (recordWords c code slot arg t) s u := by
  intro h
  have h' : LogRoom (n + 1) t := by simpa [LogRoom, hl] using h
  obtain ⟨-, r2, -, -, r5⟩ := logRecord_room h' c code slot arg
  refine ⟨0, s.log.producer, _, by omega, rfl, ?_, ?_⟩
  · rw [r2] at g
    obtain ⟨tl, e⟩ := g
    rw [← e, hl]
    simp
  · refine j.jobListed ?_
    show _ ∈ (logRecord c code slot arg t).wen.jobs3
    rw [r5, hl]; simp

/-- A record handed ahead. -/
theorem RecordMade.after {n : Nat} {c : Category} {ws : List Word} {s u : State} {c' : Category} {code slot arg : Word}
    (h : RecordMade n c ws (logRecord c' code slot arg s) u) : RecordMade (n + 1) c ws s u := by
  intro hr
  obtain ⟨r1, r2, r3, r4, -⟩ := logRecord_room hr c' code slot arg
  obtain ⟨m, pos, next, hm, e, hw, hj⟩ := h r1
  refine ⟨m + 1, pos, next, by omega, ?_, ?_, hj⟩
  · rw [e, r3, r4, Nat.add_assoc, Nat.mod_add_mod]; congr 1; omega
  · rw [r2] at hw; rw [← hw]; congr 1; simp; omega

theorem RecordMade.mono {n m : Nat} {c : Category} {ws : List Word} {s u : State} (h : RecordMade n c ws s u)
    (hm : n ≤ m) : RecordMade m c ws s u := by
  intro hr
  obtain ⟨k, pos, next, hk, rest⟩ := h (hr.mono hm)
  exact ⟨k, pos, next, by omega, rest⟩

/-- The log alone decides what room there is and where a record goes. -/
theorem RecordMade.of_log {n : Nat} {c : Category} {ws : List Word} {s t u : State} (h : RecordMade n c ws t u)
    (e : t.log = s.log) : RecordMade n c ws s u := by
  simpa [RecordMade, LogRoom, e] using h

/-! ## A change of restart state (R95, R100, R155, R156) -/

@[simp] theorem leave_mode (r : Rct) (new : RestartState) : (r.leave new).mode = r.mode := by
  unfold Rct.leave; split <;> rfl

/-- What leaving a state keeps: everything but its own timer, the gate and the progress records. -/
theorem leave_fields (r : Rct) (new : RestartState) :
    (r.leave new).passCount = r.passCount ∧ (r.leave new).cause = r.cause
      ∧ (r.leave new).pendingFaults = r.pendingFaults ∧ (r.leave new).tripCause = r.tripCause
      ∧ (r.leave new).settlingSeen = r.settlingSeen ∧ (r.leave new).scanSinceTrip = r.scanSinceTrip
      ∧ (r.leave new).direction = r.direction ∧ (r.leave new).directionAtTrip = r.directionAtTrip
      ∧ (r.leave new).restartEnable = r.restartEnable ∧ (r.leave new).budget = r.budget
      ∧ (r.leave new).watch = r.watch ∧ (r.leave new).resetWritten = r.resetWritten := by
  unfold Rct.leave; split <;> simp

theorem leave_stops (r : Rct) (new : RestartState) : OwnTimerStopped r.restart (r.leave new) := by
  unfold Rct.leave OwnTimerStopped; cases h : r.restart <;> simp [Timer.stop]

theorem emptyLatches_latches (s : State) : (emptyLatches s).bpu.latches = PerPhase.all none := rfl

theorem hoistEnter_records (old new : RestartState) (s : State) :
    Records (s.onHif fun h => h.enter old new s.rct.mode) (hoistEnter old new s) := by
  unfold hoistEnter hoistRecord
  dsimp only
  split
  · exact records_logRecord ..
  · split
    · exact records_logRecord ..
    · exact .refl _

theorem enter_records (new : RestartState) (slot arg : Word) (s : State) :
    Records (((if (s.rct.restart.latching && !new.latching) = true then emptyLatches s else s).onRct
      fun r => { r.leave new with restart := new }).onHif fun h => h.enter s.rct.restart new s.rct.mode)
      (enter new slot arg s) := by
  have h := hoistEnter_records s.rct.restart new ((if (s.rct.restart.latching && !new.latching) = true then
    emptyLatches s else s).onRct fun r => { r.leave new with restart := new })
  refine Records.trans ?_ (records_logRecord ..)
  convert h using 2
  funext x
  congr 1
  by_cases hl : (s.rct.restart.latching && !new.latching) = true <;> simp [hl]

theorem enter_rct (new : RestartState) (slot arg : Word) (s : State) :
    (enter new slot arg s).rct = { s.rct.leave new with restart := new } := by
  have h := (enter_records new slot arg s).fields
  obtain ⟨-, -, -, -, -, -, -, h, -⟩ := h
  rw [h]
  by_cases hl : (s.rct.restart.latching && !new.latching) = true <;> simp [hl]

theorem enter_hif (new : RestartState) (slot arg : Word) (s : State) :
    (enter new slot arg s).hif = s.hif.enter s.rct.restart new s.rct.mode := by
  have h := (enter_records new slot arg s).fields
  obtain ⟨-, -, -, -, -, -, -, -, -, -, h, -⟩ := h
  rw [h]
  by_cases hl : (s.rct.restart.latching && !new.latching) = true <;> simp [hl]

theorem enter_latches (new : RestartState) (slot arg : Word) (s : State) :
    (enter new slot arg s).bpu.latches = if s.rct.restart.latching && !new.latching then PerPhase.all none else s.bpu.latches := by
  have h := (enter_records new slot arg s).fields
  obtain ⟨-, -, h, -⟩ := h
  rw [h]
  by_cases hl : (s.rct.restart.latching && !new.latching) = true <;> simp [hl, emptyLatches_latches]

/-- At the Write Engine a change of state is its records. -/
theorem enter_keepsJobs (new : RestartState) (slot arg : Word) (s : State) {k : JobKind} {ws : List JobWrite}
    (h : JobListed k ws s) : JobListed k ws (enter new slot arg s) := by
  refine (enter_records new slot arg s).jobListed ?_
  by_cases hl : (s.rct.restart.latching && !new.latching) = true <;> simpa [hl, JobListed] using h

theorem enter_noJobsOf (new : RestartState) (slot arg : Word) (s : State) {p : JobKind → Bool} (hn : NoJobsOf p s)
    (hp : ∀ c, p (.logRecord c) = false) (hh : p .logHeader = false) : NoJobsOf p (enter new slot arg s) := by
  refine (enter_records new slot arg s).noJobsOf ?_ hp hh
  by_cases hl : (s.rct.restart.latching && !new.latching) = true <;> simpa [hl, NoJobsOf] using hn

theorem cancelSequenceJobs_noJobs (s : State) : NoJobsOf JobKind.ofSequence (cancelSequenceJobs s) := by
  have := noJobsOf_cancel JobKind.ofSequence s
  simpa [cancelSequenceJobs, clearRelease, NoJobsOf] using this

theorem cancelSequenceJobs_released (s : State) :
    (cancelSequenceJobs s).rfs.stage = none ∧ (cancelSequenceJobs s).rfs.cursor = none := ⟨rfl, rfl⟩

theorem cancelSequenceJobs_blocks {s : State} {m : SlotMap} (h : BlocksAll m s) : BlocksAll m (cancelSequenceJobs s) := by
  refine h.imp id fun h => ?_
  have := h.cancel JobKind.ofSequence rfl
  simpa [cancelSequenceJobs, clearRelease, JobListed] using this

/-- A change to a state other than NORMAL and PROVING hands its SEQUENCE record first (R95). -/
theorem enter_sequence {new : RestartState} (h1 : new ≠ .normal) (h2 : new ≠ .proving) (slot arg : Word) (s : State) :
    ∃ x, enter new slot arg s = logRecord .sequence new.code slot arg x ∧ x.log = s.log ∧ x.wen = s.wen
      ∧ x.itm = s.itm ∧ x.rct.restart = new := by
  refine ⟨_, rfl, ?_⟩
  by_cases hl : (s.rct.restart.latching && !new.latching) = true <;> simp [hoistEnter, h1, h2, hl]

theorem recordMade_enter {n : Nat} {new : RestartState} (h1 : new ≠ .normal) (h2 : new ≠ .proving) {slot arg : Word}
    {s t u : State} (hl : t.log = s.log) (hi : t.itm = s.itm)
    (g : (enter new slot arg t).log.writeList <+: u.log.writeList) (j : JobsGrow (enter new slot arg t) u) :
    RecordMade (n + 1) .sequence (sequenceWords new slot arg s) s u := by
  obtain ⟨x, e, xl, -, xi, xr⟩ := enter_sequence h1 h2 slot arg t
  rw [e] at g j
  have := recordMade_first (n := n) (s := s) (t := x) (xl.trans hl) g j
  simpa [sequenceWords, recordWords, xr, xi, hi, Category.code] using this

theorem enter_grows (new : RestartState) (slot arg : Word) (s : State) : JobsGrow s (enter new slot arg s) := by
  refine JobsGrow.trans (.of_wen ?_) (enter_records new slot arg s).jobsGrow
  by_cases hl : (s.rct.restart.latching && !new.latching) = true <;> simp [hl]

/-- The cancellation of a sequence's jobs behind a block-all, as the memory, the port and the Write Engine show it. -/
theorem cancelSequenceJobs_stays (s : State) :
    OtherJobsStay JobKind.ofSequence s (cancelSequenceJobs (blockAll s))
      ∧ CutsOnly JobKind.ofSequence s (cancelSequenceJobs (blockAll s))
      ∧ (¬Writing JobKind.ofSequence s → (cancelSequenceJobs (blockAll s)).mpa.holder = s.mpa.holder) := by
  have hb : ∀ b, (blockAll s).wen.buffer b = s.wen.buffer b := (JobsGrow.blockAll s).buffer
  obtain ⟨h1, h2⟩ := cutsOnly_cancel JobKind.ofSequence (blockAll s)
  refine ⟨(otherJobsStay_cancel _ _).grow (.blockAll s) (.of_wen (by simp [cancelSequenceJobs, clearRelease])),
    h1.of_same hb (by simp) (by simp) (by simp [cancelSequenceJobs, clearRelease])
      (by simp [cancelSequenceJobs, clearRelease]) (by simp [cancelSequenceJobs, clearRelease]), fun hw => ?_⟩
  have := h2 (by rwa [Writing.iff_of_same hb])
  simp [cancelSequenceJobs, clearRelease, this]

/-! ## Lockout (R108) -/

@[simp] theorem stopTimers_fields (r : Rct) :
    r.stopTimers.restart = r.restart ∧ r.stopTimers.mode = r.mode ∧ r.stopTimers.passCount = r.passCount
      ∧ r.stopTimers.cause = r.cause ∧ r.stopTimers.pendingFaults = r.pendingFaults
      ∧ r.stopTimers.tripCause = r.tripCause ∧ r.stopTimers.settlingSeen = r.settlingSeen
      ∧ r.stopTimers.scanSinceTrip = r.scanSinceTrip ∧ r.stopTimers.direction = r.direction
      ∧ r.stopTimers.directionAtTrip = r.directionAtTrip ∧ r.stopTimers.restartEnable = r.restartEnable
      ∧ r.stopTimers.watch = r.watch ∧ r.stopTimers.progress = r.progress
      ∧ r.stopTimers.resetWritten = r.resetWritten ∧ r.stopTimers.gateOpen = r.gateOpen := by
  simp [Rct.stopTimers]

theorem stopTimers_stopped (r : Rct) : timersStopped r.stopTimers := by simp [timersStopped, Rct.stopTimers, Timer.stop]

theorem leave_timersStopped {r : Rct} (h : timersStopped r) (new : RestartState) : timersStopped (r.leave new) := by
  obtain ⟨h1, h2, h3, h4, h5, h6⟩ := h
  unfold Rct.leave; split <;> simp [timersStopped, Timer.stop, *]

/-- What an entry to LOCKOUT does. -/
theorem lockout_spec (n : Nat) (c : LockoutCause) (s : State) : LocksOut n c s (enterLockout c s) := by
  have none := cancelSequenceJobs_noJobs (blockAll s)
  have stays := cancelSequenceJobs_stays s
  constructor
  · simp [enterLockout, enter_rct]
  · simp [enterLockout, enter_rct, leave_fields]
  · simp only [enterLockout, State.onFin_rct, enter_rct]
    exact leave_timersStopped (by simpa [timersStopped] using stopTimers_stopped s.rct) _
  · simp [enterLockout, enter_rct, leave_fields]
  · simp [enterLockout, enter_rct, leave_fields]
  · refine (cancelSequenceJobs_blocks (blocksAll_blockAll s)).imp id fun h => ?_
    exact enter_keepsJobs _ _ _ _ h
  · exact enter_noJobsOf _ _ _ _ none (by decide) (by decide)
  · refine stays.1.grow (.refl _) ?_
    unfold enterLockout
    exact ((JobsGrow.of_wen (State.onRct_wen _ _)).trans (enter_grows _ _ _ _)).trans (.of_wen (State.onFin_wen _ _))
  · refine stays.2.1.of_same (s := s) (fun b => rfl) rfl rfl ?_ ?_ ?_ <;> simp [enterLockout]
  · intro h; simpa [enterLockout] using stays.2.2 h
  · refine recordMade_enter (t := (cancelSequenceJobs (blockAll s)).onRct fun r =>
      { r.stopTimers with cause := some c, pendingFaults := PerSlot.all Option.none }) (by decide) (by decide) ?_ ?_ ?_ ?_
    · simp
    · simp
    · simp [enterLockout]
    · unfold enterLockout; exact .of_wen (State.onFin_wen _ _)
  · simp [enterLockout, cancelSequenceJobs_released]
  · intro h; simp [enterLockout, enter_latches, h, show RestartState.lockout.latching = false from rfl]
  · intro p; cases p <;> simp [enterLockout, Intake.clearLines, PerPhase.map, PerPhase.get, Timer.stop]
  · simp [enterLockout, Intake.clearLines]
  · simp [enterLockout, enter_hif, Hif.enter, driveHealthyLevel, permitFalls]
  · intro f hf; cases f <;> first | (exfalso; exact hf (by decide)) | simp [Field.same]

/-- A record handed ahead of an entry to LOCKOUT. -/
theorem LocksOut.after {n : Nat} {c : LockoutCause} {s u : State} {c' : Category} {code slot arg : Word}
    (h : LocksOut n c (logRecord c' code slot arg s) u) : LocksOut (n + 1) c s u := by
  have r := records_logRecord c' code slot arg s
  obtain ⟨h1, h2, h3, h4, h5, h6, h7, h8, h9, h10, h11, h12, h13, h14, h15, h16, h17⟩ := r.fields
  have k := h.sequence; have b := h.blocked; have la := h.latches; have li := h.lines; have it := h.intake
  have ho := h.holder
  have hb := r.jobsGrow.buffer
  rw [h8] at k la; rw [h9] at b; rw [h7] at li it; rw [Writing.iff_of_same hb, h4] at ho
  refine ⟨h.restart, h.cause, h.timers, h.faults, k, b, h.cancelled, h.others.grow r.jobsGrow (.refl _),
    h.memory.of_same hb h2 h16 rfl rfl id, ho, ?_, h.released, la, li, it, h.outputs, ?_⟩
  · have := h.record; rw [sequenceWords, h14] at this; exact this.after
  · intro f hf; have := h.kept f hf; rw [r.rest] at this; cases f <;> first | (exfalso; exact hf (by decide)) | exact this

theorem LocksOut.mono {n m : Nat} {c : LockoutCause} {s u : State} (h : LocksOut n c s u) (hm : n ≤ m) : LocksOut m c s u :=
  { h with record := h.record.mono (by omega) }

/-! ## The trip (R96, R97) -/

theorem captureTrigger_records (k : TriggerKind) (s : State) :
    (captureTrigger k s).rct = s.rct ∧ (captureTrigger k s).hif = s.hif ∧ (captureTrigger k s).bpu = s.bpu
      ∧ (∀ k' ws, JobListed k' ws s → JobListed k' ws (captureTrigger k s))
      ∧ (∀ p, NoJobsOf p s → (∀ c, p (.logRecord c) = false) → p .logHeader = false → p .captureDump = false →
          NoJobsOf p (captureTrigger k s)) := by
  refine ⟨by simp, by simp, by simp, ?_, ?_⟩
  · intro k' ws h
    unfold captureTrigger
    split
    · have h' : JobListed k' ws (logRecord .capture 1 noSlot k.code (s.onCap fun c => { c with kind := k, stamp := s.itm.frames })) :=
        (records_logRecord ..).jobListed (by simpa [JobListed] using h)
      dsimp only
      split
      · exact JobListed.submit (by simpa [JobListed] using h') _ _
      · simpa [JobListed] using h'
    · simpa [JobListed] using h
  · intro p h h1 h2 h3
    unfold captureTrigger
    split
    · have h' : NoJobsOf p (logRecord .capture 1 noSlot k.code (s.onCap fun c => { c with kind := k, stamp := s.itm.frames })) :=
        (records_logRecord ..).noJobsOf (by simpa [NoJobsOf] using h) h1 h2
      dsimp only
      split
      · exact NoJobsOf.submit (by simpa [NoJobsOf] using h') _ _ h3
      · simpa [NoJobsOf] using h'
    · simpa [NoJobsOf] using h

/-- At the Write Engine and the log a trigger is its record and its dump job. -/
theorem captureTrigger_grows (k : TriggerKind) (s : State) :
    JobsGrow s (captureTrigger k s) ∧ s.log.writeList <+: (captureTrigger k s).log.writeList := by
  unfold captureTrigger
  split
  · have h := records_logRecord .capture 1 noSlot k.code (s.onCap fun c => { c with kind := k, stamp := s.itm.frames })
    have g : JobsGrow s (logRecord .capture 1 noSlot k.code (s.onCap fun c => { c with kind := k, stamp := s.itm.frames })) :=
      (JobsGrow.of_wen (State.onCap_wen _ _)).trans h.jobsGrow
    have p := h.grows
    rw [State.onCap_log] at p
    dsimp only
    split
    · refine ⟨g.trans ((JobsGrow.of_wen (State.onCap_wen _ _)).trans (.submit _ _ _ (.inl ?_))), by simpa [freezeRing, queueCaptureDump] using p⟩
      simp
    · exact ⟨g.trans (.of_wen (State.onCap_wen _ _)), by simpa using p⟩
  · exact ⟨.of_wen (State.onCap_wen _ _), by simp⟩

/-- A trip is a change of state behind the cancellations, and a trigger. -/
theorem trip_enters (cause : TripCause) (entry : Option (Slot × PendingFault)) (s : State) :
    ∃ x, trip cause entry s = captureTrigger .trip (enter .tripped (tripSlotWord cause) x.rct.directionAtTrip.code x)
      ∧ x.wen = (cancelSequenceJobs (blockAll s)).wen ∧ x.mem = (cancelSequenceJobs (blockAll s)).mem
      ∧ x.cuts = (cancelSequenceJobs (blockAll s)).cuts ∧ x.mpa = (cancelSequenceJobs (blockAll s)).mpa
      ∧ x.log = s.log ∧ x.itm = s.itm := by
  refine ⟨_, rfl, ?_⟩
  by_cases hn : s.rct.restart = .normal <;> simp [hn, firstTrip, clearMarks]

/-- What a trip does to the memory, the port, the Write Engine and the log. -/
theorem trip_stays (n : Nat) (cause : TripCause) (entry : Option (Slot × PendingFault)) (s u : State)
    (e : u = trip cause entry s) :
    OtherJobsStay JobKind.ofSequence s u ∧ CutsOnly JobKind.ofSequence s u
      ∧ (¬Writing JobKind.ofSequence s → u.mpa.holder = s.mpa.holder)
      ∧ RecordMade (n + 1) .sequence (sequenceWords .tripped (tripSlotWord cause) u.rct.directionAtTrip.code s) s u := by
  obtain ⟨x, ex, xw, xm, xc, xa, xl, xi⟩ := trip_enters cause entry s
  obtain ⟨h1, h2, h3⟩ := cancelSequenceJobs_stays s
  have g := (enter_grows .tripped (tripSlotWord cause) x.rct.directionAtTrip.code x).trans (captureTrigger_grows .trip _).1
  rw [← ex, ← e] at g
  have hd : u.rct.directionAtTrip = x.rct.directionAtTrip := by rw [e, ex]; simp [enter_rct, leave_fields]
  refine ⟨h1.grow (.refl _) ((JobsGrow.of_wen xw).trans g), ?_, ?_, ?_⟩
  · refine h2.of_same (s := s) (fun b => rfl) rfl rfl ?_ ?_ ?_ <;> rw [e, ex]
    · simpa using xm
    · simpa using xc
    · intro h; simpa [xa] using h
  · intro h; rw [e, ex]; simpa [xa] using h3 h
  · rw [hd]
    have p := (captureTrigger_grows .trip (enter .tripped (tripSlotWord cause) x.rct.directionAtTrip.code x))
    rw [← ex, ← e] at p
    exact recordMade_enter (by decide) (by decide) xl xi p.2 p.1

/-- What a trip does. -/
theorem trip_spec (n : Nat) (cause : TripCause) (entry : Option (Slot × PendingFault)) (s : State) :
    Trips n cause s (trip cause entry s) := by
  obtain ⟨stay1, stay2, stay3, stay4⟩ := trip_stays n cause entry s _ rfl
  have none := cancelSequenceJobs_noJobs (blockAll s)
  have blocks := cancelSequenceJobs_blocks (blocksAll_blockAll s)
  by_cases hn : s.rct.restart = .normal
  · constructor
    · simp [trip, enter_rct]
    · simp [trip, enter_rct, leave_fields, hn, firstTrip, clearMarks]
    · simp [trip, enter_rct, leave_fields, hn, firstTrip, clearMarks]
    · simp [trip, enter_rct, leave_fields, hn, firstTrip, clearMarks]
    · refine blocks.imp id fun h => ?_
      exact (captureTrigger_records _ _).2.2.2.1 _ _ (enter_keepsJobs _ _ _ _ (by simpa [hn, JobListed, firstTrip, clearMarks] using h))
    · exact (captureTrigger_records _ _).2.2.2.2 _ (enter_noJobsOf _ _ _ _ (by simpa [hn, NoJobsOf, firstTrip, clearMarks] using none) (by decide) (by decide)) (by decide) (by decide) (by decide)
    · exact stay1
    · exact stay2
    · exact stay3
    · exact stay4
    · simp [trip, hn, firstTrip, clearMarks, cancelSequenceJobs_released]
    · intro h; simp [trip, enter_latches, hn, firstTrip, clearMarks, show RestartState.tripped.latching = false from rfl, show RestartState.normal.latching = true from rfl]
    · simp [hn, OwnTimerStopped]
    · intro _; constructor
      · simp [trip, enter_rct, leave_fields, hn, firstTrip, clearMarks]
      · simp [trip, enter_rct, leave_fields, hn, firstTrip, clearMarks]
      · simp [trip, enter_rct, leave_fields, hn, firstTrip, clearMarks]
      · simp [trip, enter_rct, leave_fields, hn, firstTrip, clearMarks]
      · simp [trip, hn, firstTrip, clearMarks]
      · simp [trip, enter_rct, leave_fields, hn, firstTrip, clearMarks]; split <;> simp_all
    · intro h; exact absurd hn h
    · simp [trip, enter_rct, enter_hif, Hif.enter, hn, firstTrip, clearMarks]
    · simp [trip, enter_rct, enter_hif, Hif.enter, hn, firstTrip, clearMarks, permitFalls]
      split <;> simp_all
    · intro h1 h2; simp [trip, captureTrigger, hn, h1, h2, freezeRing]; split <;> simp [State.onCap, queueCaptureDump]
    · intro f hf; cases f <;> first | (exfalso; exact hf (by decide)) | simp [Field.same]
  · constructor
    · simp [trip, enter_rct]
    · simp [trip, enter_rct, leave_fields, hn]
    · simp [trip, enter_rct, leave_fields, hn]
    · simp [trip, enter_rct, leave_fields, hn]
    · refine blocks.imp id fun h => ?_
      exact (captureTrigger_records _ _).2.2.2.1 _ _
        (enter_keepsJobs _ _ _ _ (by simpa [hn, JobListed] using h))
    · exact (captureTrigger_records _ _).2.2.2.2 _
        (enter_noJobsOf _ _ _ _ (by simpa [hn, NoJobsOf] using none) (fun _ => rfl) rfl) (fun _ => rfl) rfl rfl
    · exact stay1
    · exact stay2
    · exact stay3
    · exact stay4
    · simp [trip, hn, cancelSequenceJobs_released]
    · intro h; simp [trip, enter_latches, hn, h, show RestartState.tripped.latching = false from rfl]
    · clear stay1 stay2 stay3 stay4
      have h := leave_stops { s.rct with tripCause := some cause, settlingSeen := false, scanSinceTrip := false, pendingFaults := match entry with | some (i, f) => s.rct.pendingFaults.set i (some f) | .none => s.rct.pendingFaults } .tripped
      simp [trip, enter_rct, hn]
      exact h
    · intro h; exact absurd h hn
    · intro _; constructor <;> simp [trip, enter_rct, leave_fields, hn]
    · simp [trip, enter_rct, enter_hif, Hif.enter, hn]
    · simp [trip, enter_rct, enter_hif, Hif.enter, hn, permitFalls]
      cases s.rct.mode <;> simp
    · intro h1 h2
      simp [trip, captureTrigger, hn, h1, h2, freezeRing]; split <;> simp [State.onCap, queueCaptureDump]
    · intro f hf; cases f <;> first | (exfalso; exact hf (by decide)) | simp [Field.same]

/-- A record handed ahead of a trip. -/
theorem Trips.after {n : Nat} {c : TripCause} {s u : State} {c' : Category} {code slot arg : Word}
    (h : Trips n c (logRecord c' code slot arg s) u) : Trips (n + 1) c s u := by
  have r := records_logRecord c' code slot arg s
  obtain ⟨h1, h2, h3, h4, h5, h6, h7, h8, h9, h10, h11, h12, h13, h14, h15, h16, h17⟩ := r.fields
  have k := h.copies; have b := h.blocked; have la := h.latches; have li := h.timer; have f1 := h.first; have f2 := h.later
  have ho := h.holder; have pe := h.permit; have tr := h.trigger
  have hb := r.jobsGrow.buffer
  rw [h8] at k la li f1 f2; rw [h9] at b; rw [Writing.iff_of_same hb, h4] at ho; rw [h11] at pe; rw [h12, h14] at tr
  refine ⟨h.restart, h.tripCause, h.settling, k, b, h.cancelled, h.others.grow r.jobsGrow (.refl _),
    h.memory.of_same hb h2 h16 rfl rfl id, ho, ?_, h.released, la, li, ?_, ?_, h.healthy, pe, tr, ?_⟩
  · have := h.record; rw [sequenceWords, h14] at this; exact this.after
  · intro hn; obtain ⟨a1, a2, a3, a4, a5, a6⟩ := f1 hn; rw [h1] at a1 a6; rw [h8] at a4 a6; rw [h15] at a6; exact ⟨a1, a2, a3, a4, a5, a6⟩
  · intro hn; obtain ⟨a1, a2, a3, a4, a5, a6⟩ := f2 hn; rw [h8] at a1 a2 a3 a4 a6; rw [h10] at a5; exact ⟨a1, a2, a3, a4, a5, a6⟩
  · intro f hf; have := h.kept f hf; rw [r.rest] at this; cases f <;> first | (exfalso; exact hf (by decide)) | exact this

theorem Trips.mono {n m : Nat} {c : TripCause} {s u : State} (h : Trips n c s u) (hm : n ≤ m) : Trips m c s u :=
  { h with record := h.record.mono (by omega) }

/-! ## Return to UNARMED (R110, R170) -/

theorem imagePending_queue (d : Bool) (s : State) : ImagePending (queueMapImage d s) := by
  unfold ImagePending queueMapImage
  split
  · assumption
  · simp [submit, Wen.append, Wen.setJobs, Wen.jobs, JobKind.cls, JobKind.isMapImage]

theorem queueMapImage_blocks {m : SlotMap} {s : State} (d : Bool) (h : BlocksAll m s) : BlocksAll m (queueMapImage d s) := by
  refine h.imp id fun h => ?_
  unfold queueMapImage
  split
  · exact h
  · exact h.submit _ _

/-- Between the loss of the cancelled records and the stop, the closing of a running log hands records only. -/
theorem closeLog_cases (armRecord : Option (Word × Word × Word)) (arg : Word) (s : State) :
    (s.log.running = false ∧ closeLog armRecord arg s = s)
      ∨ ∃ t d, Records (loseRecords s) t ∧ closeLog armRecord arg s = stopLog d t := by
  by_cases hr : s.log.running = true
  · refine .inr ?_
    simp only [closeLog, hr, ite_true]
    refine ⟨_, _, ?_, rfl⟩
    have h1 : ∀ t, Records (loseRecords s) t → Records (loseRecords s)
        (if s.log.writeList.length = 0 then t else queueOverflowHeader t) := by
      intro t h; split
      · exact h
      · exact h.trans (records_queueOverflowHeader _)
    refine h1 _ (Records.trans ?_ (records_handRecord ..))
    split
    · exact records_logRecord ..
    · exact .refl _
  · exact .inl ⟨by simpa using hr, by simp [closeLog, hr]⟩

theorem closeLog_stopped (armRecord : Option (Word × Word × Word)) (arg : Word) (s : State) :
    (closeLog armRecord arg s).log.running = false := by
  rcases closeLog_cases armRecord arg s with ⟨h, e⟩ | ⟨t, d, h, e⟩ <;> rw [e]
  · exact h
  · rfl

theorem closeLog_blocks {m : SlotMap} {s : State} (armRecord : Option (Word × Word × Word)) (arg : Word)
    (h : BlocksAll m s) : BlocksAll m (closeLog armRecord arg s) := by
  rcases closeLog_cases armRecord arg s with ⟨-, e⟩ | ⟨t, d, ht, e⟩ <;> rw [e]
  · exact h
  · exact ht.blocksAll (m := m) h

theorem closeLog_noJobsOf {p : JobKind → Bool} {s : State} (armRecord : Option (Word × Word × Word)) (arg : Word)
    (h : NoJobsOf p s) (hp : ∀ c, p (.logRecord c) = false) (hh : p .logHeader = false) :
    NoJobsOf p (closeLog armRecord arg s) := by
  rcases closeLog_cases armRecord arg s with ⟨-, e⟩ | ⟨t, d, ht, e⟩ <;> rw [e]
  · exact h
  · exact ht.noJobsOf (s := loseRecords s) h hp hh

theorem queueMapImage_noJobsOf {p : JobKind → Bool} {s : State} (d : Bool) (h : NoJobsOf p s)
    (hp : p (.mapImage d) = false) : NoJobsOf p (queueMapImage d s) := by
  unfold queueMapImage
  split
  · exact h
  · exact h.submit _ _ hp

/-! ### The closing of the log (R170, R174) -/

theorem queueMapImage_jobs3 (d : Bool) (s : State)
    (h : s.wen.jobs3.any (fun j => j.kind.isMapImage && !j.begun) = false) :
    (queueMapImage d s).wen.jobs3 = s.wen.jobs3 ++ [imageJob d] := by
  simp [queueMapImage, h, submit, imageJob, Wen.append, Wen.setJobs, Wen.jobs, JobKind.cls]

theorem logFull_lost (s : State) :
    logFull (loseRecords s) = ((s.log.written + 1) % s.log.capacity == s.log.consumer) := by
  simp [logFull, loseRecords, Config.writeListCapacity]

/-- A record accepted while the log runs and is not full: the log and class 3. -/
theorem handRecord_room {s : State} (closing : Bool) (c : Category) (code slot arg : Word) (hr : s.log.running = true)
    (hf : logFull s = false) :
    let pos := s.log.producer
    let next := (pos + 1) % s.log.capacity
    let t := handRecord closing c code slot arg s
    t.log = Log.updateIrq { s.log with
        marks := s.log.marks.set pos (s.log.irqMask.getLsbD c.bit), producer := next
        writeList := s.log.writeList ++ [⟨c, pos, next, closing⟩] }
      ∧ t.wen.jobs3 = s.wen.jobs3 ++ [⟨.logRecord closing, recordJob pos next (recordWords c code slot arg s), false⟩] := by
  have e : handRecord closing c code slot arg s = acceptRecord closing c code slot arg s := by
    simp [handRecord, hr, hf]
  simp only [e]
  constructor
  · simp [acceptRecord]
  · simp [acceptRecord, submit, recordJob, Wen.append, Wen.setJobs, JobKind.cls, Wen.jobs, recordWords]

/-- A record dropped. -/
theorem handRecord_full {s : State} (closing : Bool) (c : Category) (code slot arg : Word) (hr : s.log.running = true)
    (hf : logFull s = true) : handRecord closing c code slot arg s = dropRecord s := by
  simp [handRecord, hr, hf]

/-- No job of the header's overflow word is listed. -/
def noOverflowJob (js : List Job) : Bool := !js.any fun j => j.kind == .logHeader && j.todo.contains overflowWrite

theorem queueOverflowHeader_of_none {s : State} (h : noOverflowJob s.wen.jobs3 = true) :
    (queueOverflowHeader s).wen.jobs3 = s.wen.jobs3 ++ [⟨.logHeader, [overflowWrite], false⟩] := by
  rw [queueOverflowHeader_jobs3]
  simp only [noOverflowJob, Bool.not_eq_true'] at h
  simp only [h, Bool.false_eq_true, ite_false]

theorem queueOverflowHeader_of_some {s : State} (h : noOverflowJob s.wen.jobs3 = false) :
    (queueOverflowHeader s).wen.jobs3 = s.wen.jobs3 := by
  rw [queueOverflowHeader_jobs3]
  simp only [noOverflowJob, Bool.not_eq_false'] at h
  simp only [h, ite_true]

theorem noOverflowJob_append_record {js : List Job} (h : noOverflowJob js = true) (c : Bool) (ws : List JobWrite) :
    noOverflowJob (js ++ [⟨.logRecord c, ws, false⟩]) = true := by
  simp_all [noOverflowJob]

theorem noOverflowJob_append_header (js : List Job) :
    noOverflowJob (js ++ [⟨.logHeader, [overflowWrite], false⟩]) = false := by
  simp [noOverflowJob]

/-- The header job that follows lost records. -/
theorem headerForLost (n : Nat) {t : State} (h : noOverflowJob t.wen.jobs3 = true) :
    (if n = 0 then t else queueOverflowHeader t).wen.jobs3
      = t.wen.jobs3 ++ if n = 0 then [] else [⟨.logHeader, [overflowWrite], false⟩] := by
  split
  · simp
  · exact queueOverflowHeader_of_none h

theorem headerForLost_some (n : Nat) {t : State} (h : noOverflowJob t.wen.jobs3 = false) :
    (if n = 0 then t else queueOverflowHeader t).wen.jobs3 = t.wen.jobs3 := by
  split
  · rfl
  · exact queueOverflowHeader_of_some h

theorem headerForLost_log (n : Nat) (t : State) : (if n = 0 then t else queueOverflowHeader t).log = t.log := by
  split <;> simp

/-- What the closing leaves of the log and of class 3, the map image job apart. -/
structure ClosedLog (taken : List (LogEntry × List Word)) (dropped : Nat) (s t : State) : Prop where
  log : t.log = { s.log with
    running := false
    producer := (taken.getLast?.map (·.1.next)).getD s.log.written
    overflow := Nat.repeat satInc dropped (satAdd s.log.overflow s.log.writeList.length)
    writeList := taken.map Prod.fst
    marks := taken.foldl (fun m r => m.set r.1.position (s.log.irqMask.getLsbD r.1.category.bit)) s.log.marks
    irqN := t.log.irqN
    irqHeld := s.log.irqHeld || decide (0 < dropped) }
  irq : t.log.irqN = (t.log.irqHeld || t.log.irqLevel)
  jobs : t.wen.jobs3 = s.wen.jobs3
    ++ taken.map (fun r => ⟨.logRecord r.1.closing, recordJob r.1.position r.1.next r.2, false⟩)
    ++ (if s.log.writeList = [] ∧ dropped = 0 then [] else [⟨.logHeader, [overflowWrite], false⟩])

theorem closeLog_closed (armRecord : Option (Word × Word × Word)) (arg : Word) (s : State) (hr : s.log.running = true)
    (hn : noOverflowJob s.wen.jobs3 = true) :
    let p := s.log.written
    let q := (p + 1) % s.log.capacity
    let r := (q + 1) % s.log.capacity
    let last := recordWords .sequence RestartState.unarmed.code noSlot arg s
    let t := closeLog armRecord arg s
    (armRecord = none →
        (q ≠ s.log.consumer → ClosedLog [(⟨.sequence, p, q, true⟩, last)] 0 s t)
          ∧ (q = s.log.consumer → ClosedLog [] 1 s t))
      ∧ ∀ code slot a, armRecord = some (code, slot, a) →
          let first := recordWords .arm code slot a s
          (q ≠ s.log.consumer → r ≠ s.log.consumer →
              ClosedLog [(⟨.arm, p, q, false⟩, first), (⟨.sequence, q, r, true⟩, last)] 0 s t)
            ∧ (q ≠ s.log.consumer → r = s.log.consumer → ClosedLog [(⟨.arm, p, q, false⟩, first)] 1 s t)
            ∧ (q = s.log.consumer → ClosedLog [] 2 s t) := by
  intro p q r last t
  have lr : (loseRecords s).log.running = true := by simpa [loseRecords] using hr
  have ln : noOverflowJob (loseRecords s).wen.jobs3 = true := by simpa [loseRecords] using hn
  have lf := logFull_lost s
  have lw : ∀ c code slot arg, recordWords c code slot arg (loseRecords s) = recordWords c code slot arg s := by
    intros; simp [recordWords, loseRecords]
  have hl : s.log.writeList.length = 0 ↔ s.log.writeList = [] := List.length_eq_zero_iff
  refine ⟨?_, ?_⟩
  · rintro rfl
    have et : t = stopLog (logFull (loseRecords s))
        (if s.log.writeList.length = 0 then handRecord true .sequence RestartState.unarmed.code noSlot arg (loseRecords s)
          else queueOverflowHeader (handRecord true .sequence RestartState.unarmed.code noSlot arg (loseRecords s))) := by
      simp only [t, closeLog, hr, ite_true]
    constructor
    · intro hq
      have f : logFull (loseRecords s) = false := by rw [lf]; simpa using hq
      obtain ⟨h1, h2⟩ := handRecord_room true .sequence RestartState.unarmed.code noSlot arg lr f
      have h3 := noOverflowJob_append_record ln true (recordJob (loseRecords s).log.producer
        (((loseRecords s).log.producer + 1) % (loseRecords s).log.capacity)
        (recordWords .sequence RestartState.unarmed.code noSlot arg (loseRecords s)))
      rw [← h2] at h3
      constructor
      · rw [et, f]
        simp only [stopLog, State.onLog_log, headerForLost_log, h1]
        simp [loseRecords, Log.updateIrq, p, q, Nat.repeat]
      · rw [et, f]
        simp only [stopLog, State.onLog_log, headerForLost_log, h1]
        simp [Log.updateIrq, Log.irqLevel, Log.unconsumed]
      · rw [et, f]
        simp only [stopLog, State.onLog_wen, headerForLost _ h3, h2, lw]
        simp [loseRecords, p, q, last]
    · intro hq
      have f : logFull (loseRecords s) = true := by rw [lf]; simpa using hq
      have e := handRecord_full true .sequence RestartState.unarmed.code noSlot arg lr f
      have h2 : (dropRecord (loseRecords s)).wen.jobs3 = s.wen.jobs3 ++ [⟨.logHeader, [overflowWrite], false⟩] := by
        unfold dropRecord
        rw [queueOverflowHeader_of_none (by simpa using ln)]; simp [loseRecords]
      have h3 : noOverflowJob (dropRecord (loseRecords s)).wen.jobs3 = false := by
        rw [h2]; exact noOverflowJob_append_header _
      constructor
      · rw [et, f, e]
        simp only [stopLog, State.onLog_log, headerForLost_log]
        simp [dropRecord, loseRecords, Nat.repeat]
      · rw [et, f, e]; simp [stopLog]
      · rw [et, f, e]
        simp only [stopLog, State.onLog_wen, headerForLost_some _ h3, h2]
        simp
  · rintro code slot a rfl
    intro first
    have et : t = stopLog (logFull (logRecord .arm code slot a (loseRecords s)))
        (if s.log.writeList.length = 0 then handRecord true .sequence RestartState.unarmed.code noSlot arg
            (logRecord .arm code slot a (loseRecords s))
          else queueOverflowHeader (handRecord true .sequence RestartState.unarmed.code noSlot arg
            (logRecord .arm code slot a (loseRecords s)))) := by
      simp only [t, closeLog, hr, ite_true]
    have accepted : q ≠ s.log.consumer → ∀ y, y = logRecord .arm code slot a (loseRecords s) →
        y.log = Log.updateIrq { (loseRecords s).log with
            marks := s.log.marks.set p (s.log.irqMask.getLsbD Category.arm.bit), producer := q
            writeList := [⟨.arm, p, q, false⟩] }
          ∧ y.wen.jobs3 = s.wen.jobs3 ++ [⟨.logRecord false, recordJob p q first, false⟩]
          ∧ noOverflowJob y.wen.jobs3 = true ∧ y.log.running = true ∧ y.rct = s.rct ∧ y.itm = s.itm
          ∧ logFull y = (r == s.log.consumer) := by
      intro hq y hy
      have f : logFull (loseRecords s) = false := by rw [lf]; simpa using hq
      obtain ⟨h1, h2⟩ := handRecord_room false .arm code slot a lr f
      rw [lw] at h2
      have k1 : y.log = Log.updateIrq { (loseRecords s).log with
            marks := s.log.marks.set p (s.log.irqMask.getLsbD Category.arm.bit), producer := q
            writeList := [⟨.arm, p, q, false⟩] } := by
        rw [hy]; refine h1.trans ?_; simp [loseRecords, p, q]
      have k2 : y.wen.jobs3 = s.wen.jobs3 ++ [⟨.logRecord false, recordJob p q first, false⟩] := by
        rw [hy]; refine h2.trans ?_; simp [loseRecords, p, q, first]
      refine ⟨k1, k2, ?_, ?_, ?_, ?_, ?_⟩
      · rw [k2]; exact noOverflowJob_append_record hn _ _
      · rw [k1]; simpa [Log.updateIrq] using lr
      · rw [hy]; simp [loseRecords]
      · rw [hy]; simp [loseRecords]
      · simp [logFull, k1, Log.updateIrq, loseRecords, Config.writeListCapacity, r]
    refine ⟨?_, ?_, ?_⟩
    · intro hq hR
      obtain ⟨y1, y2, y3, y4, y5, y6, y7⟩ := accepted hq _ rfl
      have f : logFull (logRecord .arm code slot a (loseRecords s)) = false := by rw [y7]; simpa using hR
      obtain ⟨h1, h2⟩ := handRecord_room true .sequence RestartState.unarmed.code noSlot arg y4 f
      have h3 := noOverflowJob_append_record y3 true (recordJob (logRecord .arm code slot a (loseRecords s)).log.producer
        (((logRecord .arm code slot a (loseRecords s)).log.producer + 1)
          % (logRecord .arm code slot a (loseRecords s)).log.capacity)
        (recordWords .sequence RestartState.unarmed.code noSlot arg (logRecord .arm code slot a (loseRecords s))))
      rw [← h2] at h3
      have hw : recordWords .sequence RestartState.unarmed.code noSlot arg (logRecord .arm code slot a (loseRecords s))
          = last := by simp [recordWords, last]
      constructor
      · rw [et, f]
        simp only [stopLog, State.onLog_log, headerForLost_log, h1, y1]
        simp [loseRecords, Log.updateIrq, q, r, Nat.repeat]
      · rw [et, f]
        simp only [stopLog, State.onLog_log, headerForLost_log, h1]
        simp [Log.updateIrq, Log.irqLevel, Log.unconsumed]
      · rw [et, f]
        simp only [stopLog, State.onLog_wen, headerForLost _ h3, h2, hw, y1, y2]
        simp [loseRecords, Log.updateIrq, q, r]
    · intro hq hR
      obtain ⟨y1, y2, y3, y4, y5, y6, y7⟩ := accepted hq _ rfl
      have f : logFull (logRecord .arm code slot a (loseRecords s)) = true := by rw [y7]; simpa using hR
      have e := handRecord_full true .sequence RestartState.unarmed.code noSlot arg y4 f
      have h2 : (dropRecord (logRecord .arm code slot a (loseRecords s))).wen.jobs3
          = s.wen.jobs3 ++ [⟨.logRecord false, recordJob p q first, false⟩] ++ [⟨.logHeader, [overflowWrite], false⟩] := by
        unfold dropRecord
        rw [queueOverflowHeader_of_none (by simpa using y3), State.onLog_wen, y2]
      have h3 : noOverflowJob (dropRecord (logRecord .arm code slot a (loseRecords s))).wen.jobs3 = false := by
        rw [h2]; exact noOverflowJob_append_header _
      constructor
      · rw [et, f, e]
        simp only [stopLog, State.onLog_log, headerForLost_log]
        simp only [dropRecord, queueOverflowHeader_frame, State.onLog_log, y1]
        simp [loseRecords, Log.updateIrq, Nat.repeat]
      · rw [et, f, e]; simp [stopLog]
      · rw [et, f, e]
        simp only [stopLog, State.onLog_wen, headerForLost_some _ h3, h2]
        simp
    · intro hq
      have f : logFull (loseRecords s) = true := by rw [lf]; simpa using hq
      have ea : logRecord .arm code slot a (loseRecords s) = dropRecord (loseRecords s) := handRecord_full false .arm code slot a lr f
      have h2 : (dropRecord (loseRecords s)).wen.jobs3 = s.wen.jobs3 ++ [⟨.logHeader, [overflowWrite], false⟩] := by
        unfold dropRecord
        rw [queueOverflowHeader_of_none (by simpa using ln)]; simp [loseRecords]
      have h3 : noOverflowJob (dropRecord (loseRecords s)).wen.jobs3 = false := by
        rw [h2]; exact noOverflowJob_append_header _
      have f2 : logFull (dropRecord (loseRecords s)) = true := by
        rw [← f]; simp [logFull, dropRecord]
      have r2 : (dropRecord (loseRecords s)).log.running = true := by simpa [dropRecord] using lr
      have e := handRecord_full true .sequence RestartState.unarmed.code noSlot arg r2 f2
      have h4 : (dropRecord (dropRecord (loseRecords s))).wen.jobs3 = (dropRecord (loseRecords s)).wen.jobs3 := by
        conv_lhs => unfold dropRecord
        rw [queueOverflowHeader_of_some (by simpa [dropRecord] using h3)]; simp [dropRecord]
      constructor
      · rw [et, ea, f2, e]
        simp only [stopLog, State.onLog_log, headerForLost_log]
        simp [dropRecord, loseRecords, Nat.repeat]
      · rw [et, ea, f2, e]; simp [stopLog]
      · rw [et, ea, f2, e]
        simp only [stopLog, State.onLog_wen, headerForLost_some _ (h4 ▸ h3), h4, h2]
        simp

theorem uncountCommit_phases (n : Need) (s : State) (p : Phase) :
    ((uncountCommit n s).mpl.phases.get p).angleOffset = (s.mpl.phases.get p).angleOffset
      ∧ ((uncountCommit n s).mpl.phases.get p).scale = (s.mpl.phases.get p).scale
      ∧ ((uncountCommit n s).mpl.phases.get p).saturation = (s.mpl.phases.get p).saturation := by
  cases n with
  | commitAlone q i m t u =>
    cases t <;> cases u <;> simp [uncountCommit] <;> cases p <;> cases q <;>
      simp [PerPhase.modify, PerPhase.set, PerPhase.get]
  | _ => simp [uncountCommit]

/-- Emptying the latches keeps all of a phase record but its torn pair count. -/
theorem emptyLatches_phases (s : State) (p : Phase) :
    ((emptyLatches s).mpl.phases.get p).angleOffset = (s.mpl.phases.get p).angleOffset
      ∧ ((emptyLatches s).mpl.phases.get p).scale = (s.mpl.phases.get p).scale
      ∧ ((emptyLatches s).mpl.phases.get p).saturation = (s.mpl.phases.get p).saturation := by
  suffices h : ∀ (l : List Need) (t : State),
      ((l.foldl (fun t n => uncountCommit n t) t).mpl.phases.get p).angleOffset = (t.mpl.phases.get p).angleOffset
        ∧ ((l.foldl (fun t n => uncountCommit n t) t).mpl.phases.get p).scale = (t.mpl.phases.get p).scale
        ∧ ((l.foldl (fun t n => uncountCommit n t) t).mpl.phases.get p).saturation = (t.mpl.phases.get p).saturation
    from h _ s
  intro l
  induction l with
  | nil => intro t; exact ⟨rfl, rfl, rfl⟩
  | cons n l ih =>
    intro t
    obtain ⟨a, b, c⟩ := ih (uncountCommit n t)
    obtain ⟨a', b', c'⟩ := uncountCommit_phases n t p
    exact ⟨a.trans a', b.trans b', c.trans c'⟩

theorem closeLog_grows (armRecord : Option (Word × Word × Word)) (arg : Word) (s : State) :
    JobsGrow s (closeLog armRecord arg s) := by
  rcases closeLog_cases armRecord arg s with ⟨-, e⟩ | ⟨t, d, ht, e⟩ <;> rw [e]
  · exact .refl s
  · exact ((JobsGrow.of_wen (by simp)).trans ht.jobsGrow).trans (.of_wen (by simp))

theorem queueMapImage_grows (d : Bool) (s : State) : JobsGrow s (queueMapImage d s) := by
  unfold queueMapImage
  split
  · exact .refl s
  · exact .submit _ _ _ (.inr rfl)

/-- The cancellation of classes 2 and 3 behind a block-all, before the log closes. -/
theorem cancelLower_stays (s : State) :
    let x := flushReferences (cancelLowerJobs (blockAll s))
    OtherJobsStay (fun k => k.cls != .one) s x ∧ CutsOnly (fun k => k.cls != .one) s x
      ∧ (¬Writing (fun k => k.cls != .one) s → x.mpa.holder = s.mpa.holder)
      ∧ x.wen.jobs2 = classOne s.wen.jobs2 ∧ x.wen.jobs3 = classOne s.wen.jobs3
      ∧ x.cap = if s.cap.state = .dumping then { s.cap with state := .frozen } else s.cap := by
  intro x
  have hb : ∀ b, (blockAll s).wen.buffer b = s.wen.buffer b := (JobsGrow.blockAll s).buffer
  obtain ⟨h1, h2⟩ := cutsOnly_cancel (fun k => k.cls != .one) (blockAll s)
  have xw : x.wen = (cancel (fun k => k.cls != .one) (blockAll s)).wen := by simp [x, cancelLowerJobs, captureDumpCancelled]
  have xj : ∀ c, c ≠ .one → x.wen.jobs c = classOne (s.wen.jobs c) := by
    intro c hc
    rw [xw, cancel_jobs, blockAll, submit_jobs]
    have hk : ¬(gateTo 0 (activeSlots s.mpl.slots) ≠ [] ∧ c = JobKind.blockAll.cls) := fun h => hc h.2
    rw [if_neg (by simpa [gateTo] using hk)]
    refine List.filter_congr fun j _ => ?_
    cases j.kind.cls <;> rfl
  refine ⟨(otherJobsStay_cancel _ _).grow (.blockAll s) (.of_wen xw),
    h1.of_same hb (by simp) (by simp) (by simp [x, cancelLowerJobs, captureDumpCancelled])
      (by simp [x, cancelLowerJobs, captureDumpCancelled]) (by simp [x, cancelLowerJobs, captureDumpCancelled]),
    fun hw => ?_, xj .two (by decide), xj .three (by decide), ?_⟩
  · have := h2 (by rwa [Writing.iff_of_same hb])
    simp [x, cancelLowerJobs, captureDumpCancelled, this]
  · simp [x, cancelLowerJobs, captureDumpCancelled]

theorem classOne_kind {js : List Job} {j : Job} (h : j ∈ classOne js) : j.kind.cls = .one := by
  simp [classOne] at h; exact h.2

theorem noOverflowJob_classOne (js : List Job) : noOverflowJob (classOne js) = true := by
  simp only [noOverflowJob, Bool.not_eq_true', List.any_eq_false]
  intro j hj
  have := classOne_kind hj
  cases hk : j.kind <;> simp_all [JobKind.cls]

/-- The closing log with the map image job behind it. -/
theorem ClosedLog.imaged {taken : List (LogEntry × List Word)} {dropped : Nat} {s x t u : State} {d : Bool}
    (h : ClosedLog taken dropped x t) (hl : x.log = s.log) (hj : x.wen.jobs3 = classOne s.wen.jobs3)
    (ul : u.log = t.log) (uw : u.wen = (queueMapImage d t).wen) : Closed d taken dropped s u := by
  constructor
  · rw [ul, ← hl]; exact h.log
  · rw [ul]; exact h.irq
  · rw [uw, queueMapImage_jobs3, h.jobs, hj, hl]
    rw [h.jobs, hj]
    simp only [List.any_append, Bool.or_eq_false_iff, List.any_eq_false]
    refine ⟨⟨?_, ?_⟩, ?_⟩
    · intro j hj
      have := classOne_kind hj
      cases hk : j.kind <;> simp_all [JobKind.cls, JobKind.isMapImage]
    · intro j hj; simp at hj; obtain ⟨a, b, -, rfl⟩ := hj; simp [JobKind.isMapImage]
    · intro j hj; split at hj <;> simp at hj; subst hj; simp [JobKind.isMapImage]

/-! ### Completions of records taken ahead of a cancellation (R32, R172, R174) -/

theorem takeRecordCompletion_wen (k : JobKind) (s : State) :
    (takeRecordCompletion k s).wen = { s.wen with done := s.wen.done.erase k } := by
  simp [takeRecordCompletion, takeDone]

theorem foldl_erase_filter {α : Type} [DecidableEq α] (p : α → Bool) (l : List α) :
    (l.filter p).foldl List.erase l = l.filter (!p ·) := by
  have cons : ∀ (a : α) (m l : List α), a ∉ m → m.foldl List.erase (a :: l) = a :: m.foldl List.erase l := by
    intro a m
    induction m with
    | nil => intros; rfl
    | cons b m ih =>
      intro l h
      have hb : a ≠ b := fun e => h (by simp [e])
      rw [List.foldl, List.erase_cons_tail (by simpa using hb), ih _ (fun x => h (by simp [x]))]
      rfl
  induction l with
  | nil => rfl
  | cons a l ih =>
    by_cases h : p a
    · simp [h, ih]
    · simp only [List.filter_cons, h, Bool.not_false, if_true]
      rw [if_neg (by simp), cons _ _ _ (by simp [h]), ih]

/-- The Write Engine after the completions of records have been taken: no such completion is left. -/
@[simp] theorem takeRecordCompletions_wen (s : State) :
    (takeRecordCompletions s).wen = { s.wen with done := s.wen.done.filter (!·.isLogRecord) } := by
  have key : ∀ (l : List JobKind) (t : State), (l.foldl (fun t k => takeRecordCompletion k t) t).wen
      = { t.wen with done := l.foldl List.erase t.wen.done } := by
    intro l
    induction l with
    | nil => intro t; rfl
    | cons k l ih => intro t; rw [List.foldl, ih, takeRecordCompletion_wen]; rfl
  rw [takeRecordCompletions, key, foldl_erase_filter]

/-- What taking the completions of records may change of the log. -/
theorem takeRecordCompletions_log (s : State) :
    (takeRecordCompletions s).log = { s.log with
      written := (takeRecordCompletions s).log.written, lastCategory := (takeRecordCompletions s).log.lastCategory
      writeList := (takeRecordCompletions s).log.writeList, irqN := (takeRecordCompletions s).log.irqN
      irqHeld := (takeRecordCompletions s).log.irqHeld } := by
  have one : ∀ k t, (takeRecordCompletion k t).log = { t.log with
      written := (takeRecordCompletion k t).log.written, lastCategory := (takeRecordCompletion k t).log.lastCategory
      writeList := (takeRecordCompletion k t).log.writeList, irqN := (takeRecordCompletion k t).log.irqN
      irqHeld := (takeRecordCompletion k t).log.irqHeld } := by
    intro k t
    simp only [takeRecordCompletion, logCompleted, State.onLog_log, takeDone_frame]
    unfold Log.retire Log.holdIrq Log.updateIrq
    cases t.log.writeList <;> split <;> rfl
  suffices key : ∀ (l : List JobKind) (t : State), ∀ u, u = l.foldl (fun t k => takeRecordCompletion k t) t →
      u.log = { t.log with
        written := u.log.written, lastCategory := u.log.lastCategory, writeList := u.log.writeList
        irqN := u.log.irqN, irqHeld := u.log.irqHeld } from key _ _ _ rfl
  intro l
  induction l with
  | nil => rintro t u rfl; rfl
  | cons k l ih =>
    intro t u hu
    have h := ih _ u hu
    have h1 := one k t
    rw [h1] at h
    exact h

@[simp] theorem takeRecordCompletions_running (s : State) :
    (takeRecordCompletions s).log.running = s.log.running := by rw [takeRecordCompletions_log]

@[simp] theorem takeRecordCompletions_capacity (s : State) :
    (takeRecordCompletions s).log.capacity = s.log.capacity := by rw [takeRecordCompletions_log]

/-- With no completion of a record standing there is nothing to take. -/
theorem takeRecordCompletions_none (s : State) (h : ∀ k ∈ s.wen.done, k.isLogRecord = false) :
    takeRecordCompletions s = s := by
  have : s.wen.done.filter JobKind.isLogRecord = [] := by simpa using h
  simp [takeRecordCompletions, this]

theorem takeRecordCompletions_jobs (s : State) (c : JobClass) :
    (takeRecordCompletions s).wen.jobs c = s.wen.jobs c := by cases c <;> simp [Wen.jobs]

theorem takeRecordCompletions_buffer (s : State) (b : BufferId) :
    (takeRecordCompletions s).wen.buffer b = s.wen.buffer b := by cases b <;> simp [Wen.buffer]

/-- The same with the completions of records taken first. -/
theorem cancelLower_taken (s : State) :
    let x := flushReferences (cancelLowerJobs (blockAll (takeRecordCompletions s)))
    OtherJobsStay (fun k => k.cls != .one) s x ∧ CutsOnly (fun k => k.cls != .one) s x
      ∧ (¬Writing (fun k => k.cls != .one) s → x.mpa.holder = s.mpa.holder)
      ∧ x.wen.jobs2 = classOne s.wen.jobs2 ∧ x.wen.jobs3 = classOne s.wen.jobs3
      ∧ x.cap = if s.cap.state = .dumping then { s.cap with state := .frozen } else s.cap := by
  intro x
  have hb := takeRecordCompletions_buffer s
  obtain ⟨⟨a1, a2, a3⟩, h2, h3, h4, h5, h6⟩ := cancelLower_stays (takeRecordCompletions s)
  refine ⟨⟨fun c => ?_, fun b hw => ?_, ?_⟩, ?_, fun hw => ?_, ?_, ?_, ?_⟩
  · rw [← takeRecordCompletions_jobs]; exact a1 c
  · rw [← hb]; exact a2 b fun w hw' => hw w (by rwa [hb] at hw')
  · refine a3.trans ?_
    simp only [takeRecordCompletions_wen, List.filter_filter]
    refine List.filter_congr fun k _ => ?_
    cases k <;> rfl
  · exact h2.of_same hb (by simp) (by simp) rfl rfl id
  · refine (h3 fun h => hw ?_).trans (by simp)
    exact (Writing.iff_of_same hb).mp h
  · simpa [x] using h4
  · simpa [x] using h5
  · simpa [x] using h6

/-- What a return to UNARMED with the actions of R110 does. -/
theorem disarm_spec (armRecord : Option (Word × Word × Word)) (arg : Word) (s : State) :
    Disarms armRecord arg s (disarmWith armRecord arg armRecord.isNone s) := by
  obtain ⟨stay1, stay2, stay3, stay4, stay5, stay6⟩ := cancelLower_taken s
  have grows : JobsGrow (flushReferences (cancelLowerJobs (blockAll (takeRecordCompletions s)))) (disarmWith armRecord arg armRecord.isNone s) := by
    unfold disarmWith
    exact ((closeLog_grows armRecord arg _).trans (.of_wen (quiesce_frame _).2.2.2.2.2.2.2.2.2.2.2.2.2.1)).trans
      (queueMapImage_grows _ _)
  have tm : (takeRecordCompletions s).mpl = s.mpl := by simp
  have blocks : BlocksAll s.mpl.slots (flushReferences (cancelLowerJobs (blockAll (takeRecordCompletions s)))) :=
    (tm ▸ blocksAll_blockAll (takeRecordCompletions s)).imp id fun h => by
      have h' := h.cancel (fun k => k.cls != .one) rfl
      simpa [JobListed, flushReferences, cancelLowerJobs] using h'
  have lower : NoJobsOf (fun k => k.cls != .one) (flushReferences (cancelLowerJobs (blockAll (takeRecordCompletions s)))) :=
    by simpa [NoJobsOf, flushReferences, cancelLowerJobs] using noJobsOf_cancel (fun k => k.cls != .one) (blockAll (takeRecordCompletions s))
  have two : NoJobsOf (fun k => k.cls == .two) (flushReferences (cancelLowerJobs (blockAll (takeRecordCompletions s)))) := by
    obtain ⟨h1, h2, h3⟩ := lower
    have key : ∀ k : JobKind, (k.cls != .one) = false → (k.cls == .two) = false := by
      intro k; cases k <;> simp [JobKind.cls]
    exact ⟨fun j hj => key _ (h1 j hj), fun b w hw => key _ (h2 b w hw), fun k hk => key _ (h3 k hk)⟩
  constructor
  · simp [disarmWith, quiesce]
  · simpa [disarmWith, quiesce, timersStopped] using stopTimers_stopped s.rct
  · simp [disarmWith, quiesce]
  · simp [disarmWith, quiesce]
  · simp [disarmWith, quiesce, emptyLatches_latches]
  · simp [disarmWith, quiesce]
  · intro p
    cases p <;> simp [disarmWith, quiesce, Intake.disarm, Intake.clearLines, PerPhase.map, PerPhase.get, Timer.stop]
  · intro i; simp [disarmWith, quiesce, Intake.disarm, Intake.clearLines, Timer.stop]
  · intro i; simp [disarmWith, quiesce]
  · simp [disarmWith, quiesce, flushReferences, clearMarks, clearRelease]
  · simp [disarmWith, quiesce, Hif.bothLow, Timer.stop]
  · simp [disarmWith, quiesce]
  · simpa [disarmWith] using closeLog_stopped armRecord arg _
  · simp [disarmWith, quiesce]
  · exact queueMapImage_blocks _ (by simpa [quiesce, BlocksAll, JobListed] using closeLog_blocks armRecord arg blocks)
  · refine queueMapImage_noJobsOf _ ?_ rfl
    simpa [quiesce, NoJobsOf] using closeLog_noJobsOf armRecord arg two (fun _ => rfl) rfl
  · refine ⟨?_, fun b w hw => ?_⟩
    · rw [← stay4]
      unfold disarmWith
      have h1 : ∀ t, (queueMapImage armRecord.isNone t).wen.jobs2 = t.wen.jobs2 := by
        intro t; have := submit_jobs (.mapImage armRecord.isNone) ((List.range 224).map fun o => ⟨mapImageAddr o, .mapImage o⟩) t .two
        unfold queueMapImage; split <;> simp_all [Wen.jobs, JobKind.cls]
      rw [h1, (quiesce_frame _).2.2.2.2.2.2.2.2.2.2.2.2.2.1]
      rcases closeLog_cases armRecord arg (flushReferences (cancelLowerJobs (blockAll (takeRecordCompletions s)))) with ⟨-, e⟩ | ⟨t, d, ht, e⟩ <;> rw [e]
      obtain ⟨⟨jobs, h1, _⟩, _⟩ := ht
      simp [h1]
    · rw [grows.buffer] at hw
      simpa using lower.2.1 b w hw
  · exact stay1.grow (.refl _) grows
  · refine stay2.of_same (s := s) (fun b => rfl) rfl rfl ?_ ?_ ?_
    · simp [disarmWith]
    · simp [disarmWith]
    · intro h; simp only [flushReferences_frame] at h; simp [disarmWith, quiesce, h]
  · intro h; have := stay3 h; simp only [flushReferences_frame] at this; simp [disarmWith, quiesce, this]
  · rw [← stay6]; simp [disarmWith]
  · have xl : (flushReferences (cancelLowerJobs (blockAll (takeRecordCompletions s)))).log
        = (takeRecordCompletions s).log := by simp
    have xj : (flushReferences (cancelLowerJobs (blockAll (takeRecordCompletions s)))).wen.jobs3
        = classOne (takeRecordCompletions s).wen.jobs3 := by simpa using stay5
    have xn : noOverflowJob (flushReferences (cancelLowerJobs (blockAll (takeRecordCompletions s)))).wen.jobs3 = true := by
      rw [stay5]; exact noOverflowJob_classOne _
    have ul : (disarmWith armRecord arg armRecord.isNone s).log
        = (closeLog armRecord arg (flushReferences (cancelLowerJobs (blockAll (takeRecordCompletions s))))).log := by simp [disarmWith]
    have uw : (disarmWith armRecord arg armRecord.isNone s).wen
        = (queueMapImage armRecord.isNone (closeLog armRecord arg (flushReferences (cancelLowerJobs (blockAll (takeRecordCompletions s)))))).wen := by
      have key : ∀ d y z, y.wen = z.wen → (queueMapImage d y).wen = (queueMapImage d z).wen := by
        intro d y z h; unfold queueMapImage; rw [h]; split
        · exact h
        · simp [submit, h]
      exact key _ _ _ (by simp)
    have hw : ∀ c code slot a, recordWords c code slot a (flushReferences (cancelLowerJobs (blockAll (takeRecordCompletions s))))
        = recordWords c code slot a (takeRecordCompletions s) := by intros; simp [recordWords]
    constructor
    · intro hr
      have e : closeLog armRecord arg (flushReferences (cancelLowerJobs (blockAll (takeRecordCompletions s))))
          = flushReferences (cancelLowerJobs (blockAll (takeRecordCompletions s))) := by simp_all [closeLog]
      refine ⟨by rw [ul, e, xl], ?_⟩
      rw [uw, e, queueMapImage_jobs3, xj]
      rw [xj]
      simp only [List.any_eq_false]
      intro j hj
      have := classOne_kind hj
      cases hk : j.kind <;> simp_all [JobKind.cls, JobKind.isMapImage]
    · rintro p q r hr rfl rfl rfl last rfl
      obtain ⟨c1, c2⟩ := closeLog_closed armRecord arg _ (by rw [xl]; exact hr) xn
      simp only [xl, hw] at c1 c2
      refine ⟨?_, ?_⟩
      · rintro rfl
        exact ⟨fun h => ((c1 rfl).1 h).imaged xl xj ul uw, fun h => ((c1 rfl).2 h).imaged xl xj ul uw⟩
      · rintro code slot a first rfl rfl
        exact ⟨fun h h' => ((c2 _ _ _ rfl).1 h h').imaged xl xj ul uw,
          fun h h' => ((c2 _ _ _ rfl).2.1 h h').imaged xl xj ul uw,
          fun h => ((c2 _ _ _ rfl).2.2 h).imaged xl xj ul uw⟩
  · exact imagePending_queue _ _
  · intro p
    have h := emptyLatches_phases (closeLog armRecord arg (flushReferences (cancelLowerJobs (blockAll (takeRecordCompletions s))))) p
    simpa [disarmWith, quiesce] using h
  · intro f hf; cases f <;> first | (exfalso; exact hf (by decide)) | simp [Field.same]
end Sys2Proof.Machine
end

