-- ==== Sys2Proof/Tests/Slice0.lean ====
section
/-! SUPPORT. The model's own tests: ill-formed commands that the check refuses, worked examples of the specification, one
step of each family of commands, and for every statement with hypotheses a state that meets them, clause by clause. -/

namespace Sys2Proof.Tests

open Sys2Proof.Machine

set_option Elab.async false

/-! ## Well-formedness -/

theorem test_wellFormed_planOrImageWrite :
    (Instr.planOrImageWrite 0x7FF 1).wellFormed = false ∧ (Instr.planOrImageWrite 0x800 1).wellFormed = true
      ∧ (Instr.planOrImageWrite 0xBFF 1).wellFormed = true ∧ (Instr.planOrImageWrite 0xC00 1).wellFormed = true
      ∧ (Instr.planOrImageWrite 0xCE0 1).wellFormed = false := by decide

theorem test_wellFormed_captureRegionWrite :
    (Instr.captureRegionWrite 0xCFF 1).wellFormed = false ∧ (Instr.captureRegionWrite 0xD00 1).wellFormed = true
      ∧ (Instr.captureRegionWrite 0xE07 1).wellFormed = true
      ∧ (Instr.captureRegionWrite 0xE08 1).wellFormed = false := by decide

theorem test_wellFormed_logRegionWrite :
    (Instr.logRegionWrite 0xFFF 1).wellFormed = false ∧ (Instr.logRegionWrite 0x1000 1).wellFormed = true
      ∧ (Instr.logRegionWrite 0x17FF 1).wellFormed = true
      ∧ (Instr.logRegionWrite 0x1800 1).wellFormed = false := by decide

theorem test_wellFormed_hostPassedAccess :
    (Instr.hostPassedAccess 0xBF .read).wellFormed = false ∧ (Instr.hostPassedAccess 0x1BF .read).wellFormed = false
      ∧ (Instr.hostPassedAccess 0x200 .read).wellFormed = true
      ∧ (Instr.hostPassedAccess 0x200 (.write 1)).wellFormed = false
      ∧ (Instr.hostPassedAccess 0xC00 (.write 1)).wellFormed = false
      ∧ (Instr.hostPassedAccess 0x400 (.write 1)).wellFormed = true
      ∧ (Instr.hostPassedAccess 0x3FFFF (.write 1)).wellFormed = true := by decide

/-- The table gives no row any bits. -/
theorem test_decodeTableWord : decodeTableWord 8 0 = none ∧ decodeTableWord 32 0xFFFFFFFF = none := by decide

/-! ## Worked examples -/

/-- Table 3-3, row by row: with the clamp of the Reference Store, by the three modes. -/
theorem test_table_3_3 :
    [(20000, 4915), (10000, 4681), (3, 6144), (5, 6144), (27307, 4915), (27308, 4915), (32767, 4915)].map
        (fun a : Word × Word => [Rounding.nearestEven, .down, .up].map fun m => translateAmplitude m a.2 a.1)
      = [[(23999, false), (23999, false), (24000, false)], [(11428, false), (11428, false), (11429, false)],
         [(4, false), (4, false), (5, false)], [(8, false), (7, false), (8, false)],
         [(32767, false), (32767, false), (32767, true)], [(32767, true), (32767, true), (32767, true)],
         [(32767, true), (32767, true), (32767, true)]]
      ∧ clampAmplitude 40000 = (32767, true) ∧ clampAmplitude 32767 = (32767, false) := by decide

/-- 3.3.1: the carriers of phase B with position 3 dark and K 6. -/
theorem test_example_3_3_1 :
    [0, 1, 2, 4, 5].map (fun q => translateCarrier 6 [3] q 7000) = [0, 13107, 26214, 39321, 52428] := by decide

/-- 7.6.3: the carriers of phase B with position 5 dark and K 8. -/
theorem test_example_7_6_3 :
    [0, 1, 2, 3, 4, 6, 7].map (fun q => translateCarrier 8 [5] q 1) = [0, 9362, 18724, 28086, 37449, 46811, 56173] := by
  decide

/-- The map before the arming of 1.5.1: slots 3, 18 and 19 are marked. -/
def marked151 : SlotMap :=
  ((PerSlot.all SlotEntry.reset).set 3 ⟨.absent, true, 1, .closed⟩).set 18 ⟨.absent, true, 2, .closed⟩
    |>.set 19 ⟨.absent, true, 1, .closed⟩

def fitted151 (i : Slot) : Bool := decide (i.val < 14) || i == 15 || (decide (16 ≤ i.val) && decide (i.val < 21))

/-- 1.5.1: the roles of R14, slot by slot. -/
theorem test_example_1_5_1_roles :
    allSlots.map (fun i => ((initialMap fitted151 (· == 19) 6 marked151).get i).role)
      = [.active 0, .active 1, .active 2, .bypassedFault, .active 3, .active 4, .active 5, .spare,
         .active 0, .active 1, .active 2, .active 3, .active 4, .active 5, .absent, .spare,
         .active 0, .active 1, .bypassedFault, .active 2, .active 3, .absent, .absent, .absent] := by decide +kernel

/-- 1.5.1: the map after the rebalance step. -/
theorem test_example_1_5_1_rebalance :
    let r := rebalance [] .nearestEven 6 (initialMap fitted151 (· == 19) 6 marked151)
    allSlots.map (fun i => (r.slots.get i).role)
        = [.active 0, .active 1, .active 2, .bypassedFault, .active 3, .bypassedBalance 4, .bypassedBalance 5, .spare,
           .active 0, .active 1, .active 2, .active 3, .bypassedBalance 4, .bypassedBalance 5, .absent, .spare,
           .active 0, .active 1, .bypassedFault, .active 2, .active 3, .absent, .absent, .absent]
      ∧ r.scale = PerPhase.all 6144 ∧ r.angle = PerPhase.all 0 ∧ r.source = 3 := by decide +kernel

/-! ## A drive to run commands on -/

/-- A map with positions 0 to k − 1 of every phase held by slots 0 to k − 1 of it, and the rest spare. -/
def fullMap (k : Nat) : SlotMap :=
  PerSlot.ofFn fun i =>
    let r : Role := if indexOf i < k then .active (indexOf i) else .spare
    ⟨r, false, 0, r.bypass⟩

def samplePlan : Settings :=
  { Settings.reset with
    minActive := 4, hardFlags := 1, controlPeriod := 10, budget := 300, contactorTimeout := 100, rechargeTimeout := 200,
    settleFrames := 2, verifyRun := 2, verifyWindow := 16, freshTimeout := 100, provingWindow := 500, identWindow := 3,
    lossFrames := 4, persistence := 60, marginal := 3, strikeLimit := 2, strikeSeconds := 1, maxPasses := 2,
    dcUnder := 1500, readyLow := 1900, readyHigh := 2300, dcOver := 2600 }

/-- An armed drive with K 6 in a restart state, in STANDSTILL mode, with nothing on its way. -/
def drive (r : RestartState) : State :=
  { State.held with
    pins := ⟨true, true, true, PerPhase.all true⟩
    bpu := { Bpu.reset with isOpen := true }
    ssc := { Ssc.reset with enabled := true }
    rct := { Rct.reset with restart := r, restartEnable := true }
    mpl := { Mpl.reset with fitted := PerSlot.all true, k := 6, slots := fullMap 6, generation := 42 }
    hif := { Hif.reset with driveHealthy := driveHealthyLevel r .standstill, lastTag := 7 }
    log := { Log.reset with running := true }
    itm := ⟨true, 0x12345678, 5, 0, 0⟩
    plan := samplePlan }

/-- The state a command leaves, or the state before it if it stopped. -/
def after (c : Instr) (s : State) : State :=
  match exec c s with
  | .next t => t
  | .fault _ | .refused _ => s

/-- 7.6.1: slot 3 fails hard and slot 6 takes its position. -/
theorem test_example_7_6_1 :
    let s := planRun (· == 3) (drive .isolating)
    ((s.mpl.slots.get 3).role, (s.mpl.slots.get 6).role, (s.mpl.slots.get 7).role)
        = (.bypassedFault, .active 3, .spare)
      ∧ s.wen.jobs2 = [⟨.contactor, [⟨0x21C, .commandedBypass 3⟩, ⟨0x234, .commandedBypass 6⟩], false⟩]
      ∧ s.mpl.generation = 43 ∧ s.rct.watch.get 3 = some ⟨.closed, none⟩ ∧ s.rct.watch.get 6 = some ⟨.opened, none⟩
      ∧ s.log.writeList.map LogEntry.category = [.map, .map, .map, .contactor]
      ∧ allSlots.filterMap (fun i => mapRecordOf ((drive .isolating).mpl.slots.get i) (s.mpl.slots.get i))
          = [(1, 1), (4, 3)] := by decide +kernel

/-- 4.4.1, frames 2 and 9, and the close of a window: the LINK records of a degradation, of a loss whose missed count wraps
and of a return to UP, and a missed frame in UP with the errored run at 1. -/
theorem test_step_linkRecords :
    let s (l : LinkRecord) : State := { drive .normal with lsv := (PerSlot.all LinkRecord.reset).set 9 l }
    let r := LinkRecord.reset
    (supervise 9 .errored (s { r with erroredRun := 1 })).wen.jobs3
        = (handAll .link [(3, 9, 0)] (drive .normal)).wen.jobs3
      ∧ (supervise 9 .missed (s { r with link := .degraded, notGood := 3, missed := 0xFFFF })).wen.jobs3
          = (handAll .link [(8, 9, 0), (1, 9, 1)] (drive .normal)).wen.jobs3
      ∧ (supervise 9 (.good ⟨9, 0, 0, 2000, 0, 0, 2009⟩) (s { r with link := .lost, window := some ⟨63, 57⟩ })).wen.jobs3
          = (handAll .link [(2, 9, 58)] (drive .normal)).wen.jobs3
      ∧ (supervise 9 .missed (s { r with erroredRun := 2 })).wen.jobs3 = []
      ∧ ((supervise 9 .missed (s { r with erroredRun := 2 })).lsv.get 9).link = .up := by decide +kernel

/-! ## One step of each family of commands -/

theorem test_step_powerOnReset :
    after .powerOnReset (drive .normal) = { State.reset with pins := (drive .normal).pins } := by decide +kernel

/-- The reset-block job right after reset: three tenures of eight BLOCK writes, and nothing is left. -/
theorem test_step_wenTenureEnd :
    let s := after .wenTenureEnd (after .wenTenureEnd (after .wenTenureEnd State.reset))
    s.wen = { Wen.reset with xOlder := s.wen.xOlder } ∧ s.mpa.holder = none ∧ s.mem = [] := by decide +kernel

theorem test_step_resetNLow_resetNHigh :
    let s := after .resetNLow (drive .normal)
    s.rct = .reset ∧ s.hif = .reset ∧ s.pins.resetN = false ∧ s.wen = .reset
      ∧ (after .resetNHigh s).mpa.holder = some (.wen .x) := by decide +kernel

theorem test_step_armRising_armFalling :
    let s := after .armRising { State.held with pins := ⟨false, true, true, PerPhase.all true⟩ }
    s.rct.restart = .arming ∧ s.pld.cursor = .word 0 ∧ s.mpa.holder = some (.pld false)
      ∧ (after .armFalling s).rct.restart = .unarmed ∧ (after .armFalling s).mpa.holder = some (.pld true)
      ∧ (after .pldTenureEnd (after .armFalling s)).pld.cursor = .none := by decide +kernel

/-- At ARM rising a waiting write to the plan region is absorbed and one to the drive record is watched (log 39, log 4). -/
theorem test_step_armRising_waitingWrites :
    let n : List Need := [.passWrite 0x2000 5 none, .passWrite 0x800 1 none, .passWrite 0x401 2 none]
    let s := after .armRising { State.held with
      pins := ⟨false, true, true, PerPhase.all true⟩
      bpu := { Bpu.reset with needs := n }
      mpa := ⟨some .bpu, 0⟩ }
    s.bpu.needs = [.passWrite 0x2000 5 none, .passWrite 0x401 2 (some (.direction 2))] ∧ s.mpa.holder = some .bpu := by
  decide +kernel

theorem test_step_frameRising :
    let s := after .frameRising (drive .normal)
    s.ssc.position = some 0 ∧ s.mpa.holder = some (.ssc 0 false) ∧ s.itm.frames = 0x12345679
      ∧ (after .frameRising s).ssc.overrun = 1 ∧ (after .frameRising s).mpa.holder = some (.ssc 0 true)
      ∧ ((after .frameRising s).lsv.get 23).missed = 1 := by decide +kernel

/-- The words a link engine writes of a blocked, sound cell with a bus of 1000 V. -/
def goodStatus (i : Slot) (tag code : Word) : List FarWrite :=
  [⟨i, 0, tag⟩, ⟨i, 2, code⟩, ⟨i, 3, 2000⟩, ⟨i, 6, tag + code + 2000⟩]

/-- A good frame; then one with fault code 12, whose hard-class flag is clear: a first strike, and a trip. -/
theorem test_step_sscSlotTenureEnd :
    let s := after (.sscSlotTenureEnd (goodStatus 0 9 0)) (after .frameRising (drive .normal))
    let u := after (.sscSlotTenureEnd (goodStatus 1 9 12)) s
    s.ssc.position = some 1 ∧ (s.lsv.get 0).prevTag = some 9 ∧ s.rct.restart = .normal
      ∧ u.rct.restart = .tripped ∧ u.rct.pendingFaults.get 1 = some ⟨.transient, 12⟩ ∧ (u.fin.slots.get 1).strikes = 1
      ∧ u.rct.mode = .standstill ∧ u.rct.tripCause = some (.slot 1) ∧ u.hif.driveHealthy = false
      ∧ u.wen.x.readyClass = none ∧ u.mpa.holder = some (.wen .x) := by decide +kernel

theorem test_step_faultLine :
    let s := after (.faultLineEdge .b) (drive .normal)
    s.rct.restart = .tripped ∧ s.fin.lines.get .b = ⟨true, false, .load 3⟩ ∧ s.pins.faultLine = ⟨true, false, true⟩
      ∧ after (.faultLineInactiveTransition .b) s
        = { s with
            pins := { s.pins with faultLine := PerPhase.all true }
            fin := { s.fin with lines := s.fin.lines.set .b ⟨true, true, .load 3⟩ } } := by decide +kernel

theorem test_step_brakeSet :
    (after .brakeSetFalling (drive .normal)).rct.cause = some .brakeLifted
      ∧ (after .brakeSetRising { drive .normal with
          pins := ⟨true, true, false, PerPhase.all true⟩
          hif := ⟨true, true, false, 7, false, 0, .load 3⟩ }).hif = ⟨true, false, true, 7, false, 0, .load 3⟩ := by
  decide +kernel

theorem test_step_msTick_oneSecondInterval :
    let s := after .msTick { drive .normal with itm := ⟨true, 0, 0xFFFFFFFF, 999, 0⟩, ssc := ⟨true, false, none, 3, true⟩ }
    s.itm = ⟨true, 0, 0, 0, 1⟩ ∧ (after .oneSecondInterval s).itm.secondsDue = 0
      ∧ (after .oneSecondInterval s).ssc.overrun = 0
      ∧ (after .oneSecondInterval s).log.writeList = [⟨.link, 0, 1, false⟩] := by decide +kernel

theorem test_step_expiries :
    (after .freshSetTimerExpiry { drive .awaiting with rct := { (drive .awaiting).rct with fresh := ⟨true, 0⟩ } }).rct.cause
        = some .noFreshSet
      ∧ (after .provingTimerExpiry { drive .proving with rct := { (drive .proving).rct with proving := ⟨true, 0⟩ } }).rct.cause
        = some .provingTimeout
      ∧ (after .budgetExpiry { drive .tripped with
          rct := { (drive .tripped).rct with mode := .rideThrough, budget := ⟨true, 0⟩ } }).rct.mode = .standstill := by
  decide +kernel

theorem test_step_scanEndExpiries :
    (after .identificationWindowExpiry { drive .tripped with
        ssc := ⟨true, false, none, 0, true⟩
        fin := { Intake.reset with lines := Intake.reset.lines.set .c ⟨true, false, ⟨true, 0⟩⟩ } }).rct.cause
        = some .unidentified
      ∧ (after .verifyWindowExpiry { drive .verifying with
          ssc := ⟨true, false, none, 0, true⟩
          rct := { (drive .verifying).rct with
            verify := ⟨true, 0⟩, progress := (PerSlot.all none).set 4 (some ⟨.settled, 0, 0, false⟩) } }).rct.pendingFaults.get 4
        = some ⟨.hard, 69⟩ := by decide +kernel

/-- The tenure end of the last slot takes what has expired at its scan end (R82, R141). -/
theorem test_step_scanEnd_takesExpiries :
    let s (r : RestartState) : State :=
      { drive r with ssc := ⟨true, true, some 23, 0, false⟩, mpa := ⟨some (.ssc 23 false), 0⟩ }
    (after (.sscSlotTenureEnd (goodStatus 23 9 0)) { s .tripped with
        fin := { Intake.reset with lines := Intake.reset.lines.set .a ⟨true, false, ⟨true, 0⟩⟩ } }).rct.cause
        = some .unidentified
      ∧ (after (.sscSlotTenureEnd (goodStatus 23 9 0)) { s .verifying with
          rct := { (drive .verifying).rct with
            verify := ⟨true, 0⟩, progress := (PerSlot.all none).set 4 (some ⟨.settled, 0, 0, false⟩) } }).rct.pendingFaults.get 4
        = some ⟨.hard, 69⟩ := by decide +kernel

/-- A window that stands expired at a scan end is taken by the next FRAME edge (log 3). -/
theorem test_step_frameRising_lateExpiry :
    let s := after .frameRising { drive .tripped with
      ssc := ⟨true, false, none, 0, true⟩
      fin := { Intake.reset with lines := Intake.reset.lines.set .c ⟨true, false, ⟨true, 0⟩⟩ } }
    s.rct.cause = some .unidentified ∧ s.ssc.position = some 0 ∧ s.ssc.ended = false := by decide +kernel

theorem test_step_watchExpiries :
    (after .contactorTimeout { drive .isolating with
        rct := { (drive .isolating).rct with
          contactor := ⟨true, 0⟩, watch := (PerSlot.all none).set 4 (some ⟨.opened, some .closed⟩) } }).rct.pendingFaults.get 4
        = some ⟨.hard, 65⟩
      ∧ (after .rechargeTimerExpiry { drive .recharging with
          rct := { (drive .recharging).rct with
            recharge := ⟨true, 0⟩, progress := (PerSlot.all none).set 4 (some ⟨.resetSent, 0, 0, false⟩) } }).rct.pendingFaults.get 4
        = some ⟨.hard, 66⟩ := by decide +kernel

theorem test_step_slotTimers :
    ((after (.strikeWindowExpiry 3) { drive .normal with
        fin := { Intake.reset with slots := Intake.reset.slots.set 3 ⟨true, 1, ⟨true, 0⟩, 12⟩ } }).fin.slots.get 3)
        = ⟨true, 0, .stopped, 12⟩
      ∧ ((after (.recentlyLostTimerExpiry 3) { drive .normal with
          lsv := (PerSlot.all .reset).set 3 { LinkRecord.reset with recentlyLost := true, recentTimer := ⟨true, 0⟩ } }).lsv.get 3)
        = .reset := by decide +kernel

theorem test_step_controlPeriodEnd :
    (after .controlPeriodEnd { drive .normal with hif := ⟨true, false, true, 7, false, 2, ⟨true, 0⟩⟩ }).hif
      = ⟨true, false, true, 7, false, 3, .load 10⟩ := by decide +kernel

/-- 3.4: an amplitude waits in its latch for its angle, and both go in one tenure. -/
theorem test_step_pair :
    let s := after (.logicalAmplitudeWrite 9 20000) (drive .normal)
    let u := after (.logicalAngleWrite 9 1000) s
    s.bpu.latches.get .b = some ⟨9, 9, 20000⟩ ∧ s.bpu.needs = []
      ∧ u.bpu.needs = [.pair 9 9 20000 1000] ∧ u.mpa.holder = some .bpu
      ∧ (after (.bpuTenureEnd []) u).mem = [(0x249, 20000), (0x24A, 1000)] := by decide +kernel

theorem test_step_window :
    (after (.logicalGateWrite 9 1) (drive .normal)).bpu.needs = [.translated 9 0 0x248 1]
      ∧ (after (.logicalGateWrite 9 3) (drive .normal)).bpu.counts.gateValue = 1
      ∧ (after (.logicalCarrierWrite 9 7000) (drive .normal)).bpu.needs = [.translated 9 3 0x24B 7000]
      ∧ (after (.logicalAuxWrite 9 2 5) (drive .normal)).bpu.needs = [.translated 9 7 0x24F 5]
      ∧ (after (.logicalAuxWrite 9 2 5) (drive .awaiting)).rfs.aux = [⟨9, 2, 5⟩]
      ∧ (after (.bypassWord 9 1) (drive .normal)).bpu.counts.bypassWord = 1
      ∧ (after (.outside 6 1 1) (drive .normal)).bpu.counts.outside = 1 := by decide +kernel

theorem test_step_logicalReads :
    (after (.logicalCommandRead 9 4) (drive .normal)).bpu.hostData = 0
      ∧ (after (.logicalCommandRead 9 2) (after (.logicalAngleWrite 9 44) (drive .normal))).bpu.hostData = 44
      ∧ (after (.logicalStatusRead 9 3) (drive .normal)).bpu.needs = [.read 0x34B true]
      ∧ (after (.logicalStatusWrite 9 3 1) (drive .normal)) = drive .normal := by decide +kernel

theorem test_step_regions :
    (after (.physicalCommandWrite 3 0 1) (drive .normal)).bpu.counts.protectedWrite = 1
      ∧ (after (.planOrImageWrite 0x800 1) (drive .normal)).bpu.counts.protectedWrite = 1
      ∧ (after (.planOrImageWrite 0x800 1) State.held).bpu.needs = [.passWrite 0x800 1 none]
      ∧ (after (.captureRegionWrite 0xD06 1) (drive .normal)).bpu.needs = [.passWrite 0xD06 1 (some .consumed)]
      ∧ (after (.logRegionWrite 0x1001 4) (drive .normal)).bpu.needs = [.passWrite 0x1001 4 (some (.consumer 4))]
      ∧ (after (.hostPassedAccess 0x402 (.write 1)) (drive .normal)).bpu.needs = [.passWrite 0x402 1 (some .proof)]
      ∧ (after (.hostPassedAccess 0x2000 .read) (drive .normal)).bpu.needs = [.read 0x2000 false] := by decide +kernel

/-- A drive whose oldest delivery is d. -/
def delivering (r : RestartState) (d : Delivery) : State :=
  { drive r with bpu := { (drive r).bpu with deliveries := [d] } }

theorem test_step_deliveries :
    (after .periodTagWrite (delivering .normal (.periodTag 8))).hif.lastTag = 8
      ∧ (after .directionWrite (delivering .normal (.direction 2))).rct.direction = .lower
      ∧ (after .proofEvent (delivering .proving .proof)).rct.restart = .normal
      ∧ (after .proofEvent (delivering .proving .proof)).hif.permit = true
      ∧ (after .restartEnableWrite (delivering .normal (.restartEnable 0))).rct.restartEnable = false
      ∧ (after .consumerWrite (delivering .normal (.consumer 9))).log.consumer = 9 := by decide +kernel

theorem test_step_consumedWrite :
    let s := { delivering .normal .consumed with cap := { Cap.reset with state := .frozen, ring := [⟨3, 1, 7, 9⟩] } }
    (after .consumedWrite s).cap = .reset ∧ (after .consumedWrite s).log.writeList = [⟨.capture, 0, 1, false⟩] := by
  decide +kernel

/-- A drive whose Write Engine reports a completion. -/
def completed (r : RestartState) (k : JobKind) : State := { drive r with wen := { Wen.reset with done := [k] } }

theorem test_step_completions :
    (after .releaseComplete (completed .resuming .release)).rct.restart = .proving
      ∧ (after .resetJobComplete (completed .recharging .resetGate)).rct.resetWritten = true
      ∧ (after .captureDumpComplete { completed .normal .captureDump with
          cap := { Cap.reset with state := .dumping } }).cap.state = .frozen
      ∧ (after .logRecordComplete { completed .normal (.logRecord false) with
          log := { Log.reset with running := true, irqMask := 1, producer := 1, marks := true :: List.replicate 15 false,
                                  writeList := [⟨.sequence, 0, 1, false⟩] } }).log.irqN = false := by decide +kernel

/-- A record performed whole before the disarm is written, not lost; only the closing record then waits (R32, R174). -/
theorem test_step_armFalling_performedRecord :
    let s := after .armFalling { completed .normal (.logRecord false) with
      log := { Log.reset with running := true, producer := 2, writeList := [⟨.map, 0, 1, false⟩, ⟨.link, 1, 2, false⟩] } }
    s.log.lastCategory = 3 ∧ s.log.written = 1 ∧ s.log.overflow = 1 ∧ s.log.writeList = [⟨.sequence, 1, 2, true⟩] := by
  decide +kernel

/-- Arming ends with room for the ARM record alone: IRQ_N is high at once and stays high at that record's completion
(R174). -/
theorem test_step_droppedClosingRecord :
    let s := after .contactorTimeout { drive .arming with
      rct := { (drive .arming).rct with contactor := ⟨true, 0⟩ }
      log := { Log.reset with
        running := true, producer := 14, written := 14, irqMask := 0x1FF, marks := List.replicate 16 true } }
    s.log.writeList = [⟨.arm, 14, 15, false⟩] ∧ s.log.irqN = true
      ∧ (after .logRecordComplete { s with wen := { s.wen with done := [.logRecord false] } }).log.written = 15
      ∧ (after .logRecordComplete { s with wen := { s.wen with done := [.logRecord false] } }).log.irqN = true := by
  decide +kernel

/-! ## States for the witnesses -/

/-- The map of 7.6.4 after step 1: deficits (0, 1, 0). -/
def fallbackMap : SlotMap := (fullMap 6).set 11 ⟨.bypassedFault, true, 1, .closed⟩

/-- The brake lines of a drive, and its mode. -/
def braked (r : RestartState) (m : Mode) (brakeSet permit : Bool) : State :=
  { drive r with
    pins := ⟨true, true, brakeSet, PerPhase.all true⟩
    rct := { (drive r).rct with mode := m, budget := ⟨true, 40⟩ }
    hif := ⟨driveHealthyLevel r m, permit, !permit, 7, false, 0, .load 3⟩ }

/-- A check of SlotLaw that can be computed. -/
def slotLawHolds (s : State) : Bool :=
  allSlots.all (fun i =>
    let e := s.mpl.slots.get i
    (if s.mpl.fitted.get i then e.bypass == e.role.bypass else e.role == .absent && (s.rct.watch.get i).isNone)
      && (match s.rct.watch.get i with | some w => w.awaits == e.bypass | none => true)
      && ((s.rct.pendingFaults.get i).isNone || e.role.isActive)
      && ((s.rct.progress.get i).isNone
          || e.role.isActive && (s.rct.restart == .recharging || s.rct.restart == .verifying)))
    && (!(s.rct.restart == .unarmed || s.pld.cursor != .none) || s.rct.watch == PerSlot.all none)
    && (s.pld.cursor == .none || s.rct.restart == .arming)

theorem slotLaw_of_holds {s : State} (h : slotLawHolds s = true) : SlotLaw s := by
  simp only [slotLawHolds, Bool.and_eq_true, List.all_eq_true] at h
  obtain ⟨⟨h1, h2⟩, h3⟩ := h
  have all : ∀ i : Slot, i ∈ allSlots := by decide
  constructor
  · intro i hf; have := h1 i (all i); simp_all
  · intro i hf; have := h1 i (all i); simp_all
  · intro i e he; have := h1 i (all i); simp_all
  · intro i e he; have := h1 i (all i); simp_all
  · intro i e he; have := h1 i (all i); simp_all
  · intro h; simp at h2; rcases h with h | h <;> simp_all
  · intro h; simp at h3; simp_all

/-- A drive in ISOLATING whose contactor timer has expired with slot 3 or slot 4 on the watch list. -/
def stuck (r : RestartState) (close open_ : Option WatchEntry) : State :=
  { drive r with
    mpl := { (drive r).mpl with slots := (fullMap 6).set 3 ⟨.bypassedFault, true, 1, .closed⟩ }
    rct := { (drive r).rct with contactor := ⟨true, 0⟩, watch := ((PerSlot.all none).set 3 close).set 4 open_ } }

/-- A drive in which slot 4 is the one active slot with a progress record. -/
def slow (r : RestartState) : State :=
  { drive r with
    ssc := ⟨true, false, none, 0, true⟩
    rct := { (drive r).rct with
      recharge := ⟨true, 0⟩, verify := ⟨true, 0⟩, progress := (PerSlot.all none).set 4 (some ⟨.acknowledged, 1, 0, false⟩) } }

/-- A latch of phase B that holds record 9. -/
def latched (r : RestartState) : State :=
  { drive r with bpu := { (drive r).bpu with latches := (PerPhase.all none).set .b (some ⟨9, 9, 20000⟩) } }

/-! ## Witnesses: for every statement with hypotheses, a state that meets those of each clause -/

/-- A plan of 68 words with K 6, min_active 4 and every slot fitted; its words then sum to 0. -/
def basePlan : List Word :=
  [67, 0, 6, 4, 255, 255, 255, 0, 1, 0, 0, 0, 0, 0, 10, 300, 100, 200, 2, 2, 16, 100, 500, 3, 4, 60, 3, 2, 1, 2]
    ++ [1500, 1900, 2300, 2600, 16, 1, 65535, 0, 0, 0, 0, 0, 0] ++ List.replicate 25 0

def summed (p : List Word) : List Word := p.set 1 (0 - planSum (p.set 1 0))

/-- A plan read with a copy, and the port held for the drive record. -/
def judging (p : List Word) : State :=
  { State.held with
    pins := ⟨true, true, true, PerPhase.all true⟩
    rct := { Rct.reset with restart := .arming }
    mpa := ⟨some (.pld false), 0⟩
    pld := { Pld.reset with cursor := .drive, copy := p, planLength := p.length } }

theorem test_witness_StepRunsFrontCommand :
    { drive .normal with pending := [.msTick, .msTick] }.pending = [Instr.msTick, .msTick]
      ∧ (drive .normal).pending = [] := by decide

def readyBuffer (k : JobKind) : Buffer := .ready ⟨k, [(0x200, 0)], none, true⟩

/-- A part at a boundary with a host read waiting. -/
def boundary (fair : Nat) (x : Buffer) (scanning : Bool) : State :=
  { drive .normal with
    mpa := ⟨none, fair⟩
    bpu := { (drive .normal).bpu with needs := [.read 0x300 false] }
    ssc := ⟨true, scanning, some 4, 0, false⟩
    wen := { Wen.reset with x := x } }

theorem test_witness_PortWorkKeepsItsOrder :
    (State.reset.mpa.holder ≠ none ∧ State.reset.wen.x ≠ .empty ∧ State.reset.wen.y ≠ .empty)
      ∧ (boundary 0 (readyBuffer .blockAll) true).wen.readyOf .one = some .x
      ∧ ((boundary 0 .empty true).wen.readyOf .one = none
          ∧ readInProgress (boundary 0 .empty true) = some (.ssc 4 false))
      ∧ (readInProgress (boundary 8 .empty false) = none ∧ lowerReady (boundary 8 .empty false) = false)
      ∧ lowerReady (boundary 7 (readyBuffer .contactor) false) = true
      ∧ (boundary 8 (readyBuffer .contactor) false).wen.readyOf .two = some .x
      ∧ ((boundary 8 (readyBuffer .logHeader) false).wen.readyOf .two = none
          ∧ (boundary 8 (readyBuffer .logHeader) false).wen.readyOf .three = some .x)
      ∧ stillLive (boundary 8 .empty false) (.read 0x300 false) = true := by decide +kernel

def headerJob : Job := ⟨.logHeader, [⟨0x1003, .overflowCount⟩], false⟩
def releaseJob (ws : List JobWrite) : Job := ⟨.release, ws, true⟩

/-- A head job with a write left, and a release that stands at the head with nothing to stage. -/
theorem test_witness_jobs :
    IsHead none [⟨.mapImage false, [], true⟩, headerJob] headerJob ∧ NoHead (some .gates) [releaseJob []]
      ∧ IsHead (some (.auxiliary true)) [releaseJob []] (releaseJob []) := by
  refine ⟨⟨[_], [], rfl, ?_, ?_⟩, ?_, ⟨[], [], rfl, ?_, ?_⟩⟩ <;> simp [headerJob, releaseJob, NoHead]

/-- A release in stage AUXILIARY with an auxiliary list, buffer Y given, and X EMPTY. -/
def draining (waits : Bool) (aux : List AuxEntry) (y : Buffer) : State :=
  { drive .resuming with
    mpl := { (drive .resuming).mpl with slots := fallbackMap }
    rfs := { Rfs.reset with stage := some (.auxiliary waits), aux := aux }
    wen := { Wen.reset with jobs2 := [releaseJob []], jobs3 := [headerJob], y := y } }

def releaseBuffer : Burst := ⟨.release, [(0x24B, 5)], none, false⟩

/-- The release waits, drains, and goes on to the gates; the list holds an entry of a dark position and one of a lit one. -/
theorem test_witness_fillsAndDrains :
    (draining true [] (.writing releaseBuffer)).wen.buffer .x = .empty
      ∧ releaseStaged (draining true [] (.writing releaseBuffer)) = true
      ∧ releaseStaged (draining false [] .empty) = false
      ∧ (drain (draining false [⟨11, 2, 5⟩, ⟨9, 2, 5⟩] .empty)).1 = [(0x24F, 5)]
      ∧ slotOfRecord (draining false [] .empty) 11 = none
      ∧ (stageAuxiliary .x (draining false [⟨9, 2, 5⟩] .empty)).wen.x ≠ .empty
      ∧ (drain (draining false [⟨11, 2, 5⟩] .empty)).1 = []
      ∧ (stageAuxiliary .x (draining false [] (.writing releaseBuffer))).wen.x = .empty
      ∧ (stageAuxiliary .x (draining false [] (.writing releaseBuffer))).rfs.stage = some (.auxiliary true)
      ∧ (stageAuxiliary .x (draining false [] .empty)).rfs.stage = some .gates
      ∧ activeSlots (draining false [] .empty).mpl.slots ≠ [] ∧ activeSlots State.held.mpl.slots = [] := by
  decide +kernel

/-- An auxiliary write that arrives while the release waits is staged only after the staged writes (R151). -/
theorem test_step_releaseWaits :
    let s := after (.logicalAuxWrite 9 2 5) { draining true [] (.writing releaseBuffer) with mpa := ⟨some (.wen .y), 0⟩ }
    s.rfs.aux = [⟨9, 2, 5⟩] ∧ s.wen.x.holdsRelease = false
      ∧ (after .wenTenureEnd s).rfs.aux = [] ∧ (after .wenTenureEnd s).rfs.stage = some (.auxiliary false) := by
  decide +kernel

/-- Two READY buffers of one class, one of either, and none. -/
theorem test_witness_ReadyInOrder :
    let b : Burst := ⟨.contactor, [(0x204, 1)], none, true⟩
    ({ Wen.reset with x := .ready b }.x = .ready b ∧ b.kind.cls = .two)
      ∧ { Wen.reset with y := .ready b, x := .ready ⟨.logHeader, [], none, true⟩ }.y = .ready b
      ∧ ({ Wen.reset with x := .ready b, y := .ready b }.x = .ready b
          ∧ { Wen.reset with x := .ready b, y := .ready b }.y = .ready b) := by decide

/-- A drive in AWAITING whose translated write is not live any more, with 0 and 32 auxiliary entries. -/
def stopping (w : Fin 8) (entries : Nat) (resetN : Bool) : State :=
  { drive .awaiting with
    pins := ⟨true, resetN, true, PerPhase.all true⟩
    bpu := { (drive .awaiting).bpu with needs := [.translated 9 w (physicalCommandAddr 9 w.val) 5] }
    rfs := { Rfs.reset with aux := List.replicate entries ⟨8, 0, 1⟩ } }

theorem test_witness_grants :
    (choose (boundary 0 (readyBuffer .blockAll) true) = some (.wen .x)
        ∧ (boundary 0 (readyBuffer .blockAll) true).mpa.holder = none)
      ∧ (∀ w : Fin 8, w = 3 ∨ w = 7 → stillLive (stopping w 0 true) (.translated 9 w (physicalCommandAddr 9 w.val) 5) = false
          ∧ (stopping w 0 true).wen.readyOf .one = none ∧ readInProgress (stopping w 0 true) = none
          ∧ (stopping w 0 true).mpa.fair < 8)
      ∧ (stopping 7 31 false).pins.resetN = false ∧ (stopping 7 31 false).rfs.aux.length < 32
      ∧ 32 ≤ (stopping 7 32 true).rfs.aux.length
      ∧ ((drive .normal).mpa.holder = none ∧ (drive .normal).bpu.needs = [] ∧ (drive .normal).wen.readyOf .three = none)
      ∧ ({ drive .normal with wen := { Wen.reset with x := readyBuffer .contactor } }.wen.readyOf .two = some .x)
      ∧ { drive .normal with wen := { Wen.reset with x := readyBuffer .logHeader } }.wen.readyOf .three = some .x := by
  decide +kernel

/-- Values at the fill: a saturated and an unsaturated amplitude, the gate intent of a lit slot, a capture entry. -/
theorem test_witness_FormsValues :
    recordOfSlot (drive .normal) 9 = some 9 ∧ (amplitudeOf (drive .normal) 9 5).2 = false
      ∧ (translateAmplitude .nearestEven 6144 32767).2 = true
      ∧ [CaptureEntry.mk 9 1 5 7][0]? = some (CaptureEntry.mk 9 1 5 7) := by decide +kernel

theorem test_witness_PowerOnResetGivesTheResetState :
    (drive .normal).mpa.holder = none ∧ (drive .normal).pins.resetN = true
      ∧ { drive .normal with pins := ⟨true, false, true, PerPhase.all true⟩ }.pins.resetN = false := by decide

theorem test_witness_WarmResetKeepsTheQuarantineTable :
    (drive .normal).pins.resetN = true ∧ (drive .normal).mpa.holder = none
      ∧ { drive .normal with pins := ⟨true, false, true, PerPhase.all true⟩ }.pins.resetN = false
      ∧ (completed .normal (.logRecord false)).wen.done = [.logRecord false]
      ∧ waitingNeeds { drive .normal with bpu := { Bpu.reset with needs := [.read 0x300 true] } } = [.read 0x300 true]
      ∧ runningNeeds { drive .normal with
          bpu := { Bpu.reset with needs := [.read 0x300 true] }, mpa := ⟨some .bpu, 0⟩ } = [.read 0x300 true] := by decide

/-- Right after the warm reset nothing is due; the lines, once at each level. -/
theorem test_witness_EventsNotThereChangeNothing :
    let s := State.held
    let l := { s with pins := ⟨true, false, true, PerPhase.all true⟩ }
    s.pins.resetN = true ∧ l.pins.resetN = false ∧ s.pins.arm = false ∧ l.pins.arm = true ∧ s.pins.brakeSet = false
      ∧ l.pins.brakeSet = true ∧ s.itm.secondsDue = 0 ∧ s.rct.budget.due = false ∧ s.rct.contactor.due = false
      ∧ s.rct.recharge.due = false ∧ s.rct.fresh.due = false ∧ s.rct.proving.due = false ∧ s.rct.verify.due = false
      ∧ (∀ i, (s.fin.slots.get i).strikeTimer.due = false) ∧ (∀ i, (s.lsv.get i).recentTimer.due = false)
      ∧ s.ssc.ended = false ∧ s.hif.period.due = false ∧ s.mpa.holder = none ∧ s.wen.done = []
      ∧ s.bpu.deliveries = [] := by decide +kernel

/-- The port with another requester, another completion, another delivery at the head, and timers due out of their state. -/
theorem test_witness_eventsOfAnotherKind :
    (some Holder.bpu ≠ some (.wen .x) ∧ State.reset.mpa.holder ≠ some .bpu)
      ∧ (JobKind.release ∉ (completed .recharging .resetGate).wen.done)
      ∧ (delivering .normal .proof).bpu.deliveries.head? = some .proof
      ∧ ({ drive .normal with rct := { (drive .normal).rct with contactor := ⟨true, 0⟩ } }.rct.contactor.due = true
          ∧ (drive .normal).rct.restart ≠ .isolating ∧ (drive .normal).rct.restart ≠ .arming)
      ∧ ((braked .tripped .standstill true false).rct.mode ≠ .rideThrough)
      ∧ ({ Itm.reset with secondsDue := 1 }.running = false) := by decide

theorem test_witness_ArmRisingStartsThePlanRead :
    let s := State.held
    let b := { s with pins := ⟨false, true, true, PerPhase.all true⟩ }
    let l := { s with pins := ⟨false, false, true, PerPhase.all true⟩ }
    (b.pins.arm = false ∧ b.rct.restart = .unarmed ∧ b.pins.resetN = true ∧ b.pins.brakeSet = true)
      ∧ (s.pins.arm = false ∧ s.rct.restart = .unarmed ∧ s.pins.resetN = true ∧ s.pins.brakeSet = false)
      ∧ (l.pins.arm = false ∧ l.pins.resetN = false)
      ∧ ({ drive .normal with pins := b.pins }.pins.arm = false
          ∧ { drive .normal with pins := b.pins }.rct.restart ≠ .unarmed)
      ∧ [(0x1FF, false), (0x200, true), (0x2BF, true), (0x2C0, false), (0x7FF, false), (0x800, true), (0xCDF, true),
          (0xCE0, false)].all (fun x : Addr × Bool => (Need.passWrite x.1 1 none).isProtected == x.2) = true := by
  decide +kernel

theorem test_witness_ArmFallingDisarms :
    ((drive .normal).pins.arm = true ∧ (drive .normal).rct.restart ≠ .unarmed)
      ∧ (drive .unarmed).pins.arm = true ∧ (drive .unarmed).rct.restart = .unarmed := by decide

/-- A log that runs with room for no, one and two closing records, and one that does not run. -/
theorem test_witness_ClosesLog :
    State.held.log.running = false ∧ (drive .normal).log.running = true
      ∧ ((drive .normal).log.written + 1) % (drive .normal).log.capacity ≠ (drive .normal).log.consumer
      ∧ ({ (drive .normal).log with written := 15 }.written + 1) % (drive .normal).log.capacity = (drive .normal).log.consumer
      ∧ ({ (drive .normal).log with written := 14 }.written + 1 + 1) % (drive .normal).log.capacity
          = (drive .normal).log.consumer
      ∧ LogRoom 4 (drive .normal) := by
  refine ⟨by decide, by decide, by decide, by decide, by decide, by decide, by decide, ?_⟩
  show ∀ m, m < 4 → (0 + m + 1) % 16 ≠ 0
  omega

/-- A plan read at an offset, with the port held, and word 0 of the plan in memory. -/
def reading (c : LoadCursor) (n : Nat) (w : Word) (discard : Bool) : State :=
  { judging [] with
    mem := if w = 0 then [] else [(0x800, w)]
    mpa := ⟨some (.pld discard), 0⟩
    pld := { Pld.reset with cursor := c, planLength := n } }

theorem test_witness_PlanTenuresCollectThePlan :
    ((reading (.word 0) 1 67 false).pld.cursor = .word 0 ∧ (reading (.word 0) 1 67 false).mem.read 0x800 = 67)
      ∧ (reading (.word 0) 1 1023 false).mem.read 0x800 = 1023
      ∧ (reading (.word 0) 1 1023 false).mpa.holder = some (.pld false)
      ∧ (reading (.word (59 + 1)) 68 67 false).pld.cursor = .word (59 + 1)
      ∧ (reading (.word (59 + 1)) 68 67 false).pld.planLength ≤ 59 + 9
      ∧ 59 + 9 < (reading (.word (59 + 1)) 69 67 false).pld.planLength
      ∧ (reading (.word 9) 68 67 true).mpa.holder = some (.pld true) := by decide +kernel

theorem test_witness_RefusedPlanLeavesTheMap :
    ((judging basePlan).mpa.holder = some (.pld false) ∧ (judging basePlan).pld.cursor = .drive
        ∧ planRefusal (judging basePlan).pld.copy (judging basePlan).mpl.slots = some (.check, 0))
      ∧ planRefusal (summed (basePlan.set 0 76)) State.held.mpl.slots = some (.length, 0)
      ∧ planRefusal (summed (basePlan.set 2 9)) State.held.mpl.slots = some (.range, 2)
      ∧ planRefusal (summed (basePlan.set 31 1500)) State.held.mpl.slots = some (.thresholdOrder, 0)
      ∧ planRefusal (summed (basePlan.set 5 7)) State.held.mpl.slots = some (.infeasible, 0)
      ∧ ((reading (.word 0) 1 66 false).mem.read 0x800).toNat < 67
      ∧ 1023 < ((reading (.word 0) 1 1024 false).mem.read 0x800).toNat := by decide +kernel

theorem test_witness_AcceptedPlanIsAdopted :
    (judging (summed basePlan)).mpa.holder = some (.pld false) ∧ (judging (summed basePlan)).pld.cursor = .drive
      ∧ planRefusal (judging (summed basePlan)).pld.copy (judging (summed basePlan)).mpl.slots = none
      ∧ planFitted (summed basePlan) 0 = true
      ∧ (adopt (judging (summed basePlan))).log.writeList
          = [⟨.sequence, 0, 1, false⟩, ⟨.arm, 1, 2, false⟩, ⟨.contactor, 2, 3, false⟩]
      ∧ (adopt (judging (summed basePlan))).wen.jobs3.getLast?
          = some ⟨.logRecord false, recordJob 2 3 [5, 1, 0xFFFF, 1, 24, 0, 0, 0], false⟩ := by decide +kernel

/-- For the second part: slots that are unfitted, marked, active and spare. -/
theorem test_witness_AcceptedPlanLiesInItsRanges :
    planRefusal (summed basePlan) State.held.mpl.slots = none
      ∧ planRefusal (summed (((basePlan.set 0 76).set 42 2).set 44 23 |>.set 67 1) ++ [0, 1, 7, 5, 6, 7, 4096, 16384, 4681])
          State.held.mpl.slots = some (.check, 0)
      ∧ planRefusal (summed ((((basePlan.set 0 76).set 42 2).set 44 23 |>.set 67 1) ++ [0, 1, 7, 5, 6, 7, 4096, 16384, 4681]))
          State.held.mpl.slots = none
      ∧ fitted151 14 = false ∧ (fitted151 3 = true ∧ (marked151.get 3).quarantine = true)
      ∧ (fitted151 7 = true ∧ (marked151.get 7).quarantine = false) := by decide +kernel

theorem test_witness_FrameRisingStartsOrOverrunsAScan :
    ((drive .normal).ssc.enabled = true ∧ (drive .normal).ssc.inProgress = false
        ∧ (drive .normal).mpl.fitted.get 0 = true ∧ ∀ j : Slot, j < 0 → (drive .normal).mpl.fitted.get j = false)
      ∧ State.held.ssc.enabled = false
      ∧ ((boundary 0 .empty true).ssc.enabled = true ∧ (boundary 0 .empty true).ssc.inProgress = true
          ∧ (boundary 0 .empty true).ssc.position = some 4 ∧ (boundary 0 .empty true).mpl.fitted.get 0 = true
          ∧ (evaluateFrame 4 none (boundary 0 .empty true)).ssc.enabled = true)
      ∧ (evaluateFrame 4 none { drive .arming with
          lsv := (PerSlot.all LinkRecord.reset).set 4 { LinkRecord.reset with notGood := 3 } }).ssc.enabled = false
      ∧ ({ State.held with ssc := { Ssc.reset with enabled := true } }.ssc.inProgress = false
          ∧ ∀ i, State.held.mpl.fitted.get i = false) := by
  decide +kernel

/-- A drive behind a scan end at which the identification window of phase C stands at 0. -/
def late (r : RestartState) : State :=
  { drive r with
    ssc := ⟨true, false, none, 0, true⟩
    fin := { Intake.reset with lines := Intake.reset.lines.set .c ⟨true, false, ⟨true, 0⟩⟩ } }

theorem test_witness_lateExpiries :
    (∀ r, r = .tripped ∨ r = .awaiting → (late r).ssc.enabled = true ∧ (late r).ssc.ended = true
        ∧ (late r).ssc.inProgress = false ∧ (late r).mpl.fitted.get 0 = true
        ∧ windowExpired ((late r).fin.lines.get .c) = true ∧ (late r).rct.restart = r)
      ∧ (∀ p, windowExpired ((slow .verifying).fin.lines.get p) = false)
      ∧ ((slow .verifying).ssc.enabled = true ∧ (slow .verifying).ssc.inProgress = false
          ∧ slotLawHolds (slow .verifying) = true ∧ (slow .verifying).rct.verify.due = true
          ∧ (slow .verifying).rct.progress.get 4 = some ⟨.acknowledged, 1, 0, false⟩
          ∧ ∀ j : Slot, j < 4 → (slow .verifying).rct.progress.get j = none)
      ∧ ((slow .normal).ssc.ended = true ∧ (slow .normal).rct.restart ≠ .verifying) := by
  refine ⟨?_, ?_, by decide +kernel, by decide⟩
  · rintro r (rfl | rfl) <;> decide +kernel
  · intro p; cases p <;> decide

/-- A drive in NORMAL whose scanner reads the record of slot i. -/
def scanning (i : Slot) (discard : Bool) : State :=
  { drive .normal with ssc := ⟨true, true, some i, 0, false⟩, mpa := ⟨some (.ssc i discard), 0⟩ }

/-- The last slot, and one with a next; a good frame of each. -/
theorem test_witness_StatusReadIsEvaluated :
    (∀ i : Slot, i = 22 ∨ i = 23 →
        (scanning i false).mpa.holder = some (.ssc i false) ∧ (scanning i false).ssc.enabled = true
          ∧ (scanning i false).rct.restart = .normal ∧ ((scanning i false).lsv.get i).link = .up
          ∧ (scanning i false).rct.watch.get i = none ∧ (scanning i false).plan.captureSlot ≠ some i
          ∧ outcomeOf ((scanning i false).lsv.get i) (some (readStatus (applyFar (goodStatus i 9 0) []) i))
              = .good ⟨9, 0, 0, 2000, 0, 0, 2009⟩)
      ∧ (scanning 22 false).mpl.fitted.get 23 = true ∧ (∀ j : Slot, 23 < j → (scanning 23 false).mpl.fitted.get j = false)
      ∧ (scanning 4 true).mpa.holder = some (.ssc 4 true) := by decide +kernel

/-- Frames of a lost slot, of one that has just been lost, of one without a good outcome; progress records of each kind. -/
theorem test_witness_FramesAreHandedOn :
    let s := drive .normal
    let l : State := { s with lsv := (PerSlot.all LinkRecord.reset).set 4 { LinkRecord.reset with notGood := 3 } }
    s.ssc.enabled = true ∧ ((supervise 4 .missed l).lsv.get 4).link = .lost
      ∧ ((supervise 4 .missed s).lsv.get 4).link ≠ .lost ∧ FrameOutcome.missed.isGood = false
      ∧ outcomeOf (s.lsv.get 4) (some ⟨9, 0, 0, 2000, 0, 0, 2009⟩) = .good ⟨9, 0, 0, 2000, 0, 0, 2009⟩
      ∧ (statusReport 4 0 12 (drive .arming)).ssc.enabled = false ∧ (statusReport 4 0 0 s).ssc.enabled = true
      ∧ s.rct.progress.get 4 = none ∧ (slow .recharging).rct.progress.get 4 = some ⟨.acknowledged, 1, 0, false⟩
      ∧ (scanning 22 false).mpa.holder = some (.ssc 22 false)
      ∧ (∀ j : Slot, 23 < j → s.mpl.fitted.get j = false) := by decide +kernel

/-- Codes 0, 1, 63 and 64 with the latch clear and set; a slot whose role reports, outside ARMING. -/
theorem test_witness_StatusReportsAreTaken :
    let e := { IntakeSlot.reset with latch := true }
    (1 ≤ (1 : Word).toNat ∧ (63 : Word).toNat ≤ 63 ∧ 63 < (64 : Word).toNat) ∧ e.latch = true
      ∧ ((drive .normal).fin.slots.get 4).latch = false ∧ ((drive .normal).mpl.slots.get 4).role.reports = true
      ∧ (drive .normal).rct.restart ≠ .arming := by decide +kernel

/-- A watch list with one entry, confirmed and not, in ISOLATING and ARMING, with and without a timer. -/
theorem test_witness_FeedbackConfirms :
    let s := stuck .isolating none (some ⟨.opened, none⟩)
    s.rct.watch.get 3 = none ∧ s.rct.watch.get 4 = some ⟨.opened, none⟩
      ∧ (Bypass.opened = .opened ∧ Feedback.opened = .opened) ∧ ¬(Bypass.opened = .closed)
      ∧ (∀ j : Slot, (s.rct.watch.set 4 none).get j = none) ∧ s.rct.contactor.running = true ∧ s.rct.restart = .isolating
      ∧ activeSlots s.mpl.slots ≠ [] ∧ activeSlots State.held.mpl.slots = []
      ∧ (stuck .arming none none).rct.restart = .arming ∧ s.plan.staleTrip = false
      ∧ ((stuck .isolating (some ⟨.closed, none⟩) (some ⟨.opened, none⟩)).rct.watch.set 4 none).get 3 ≠ none := by
  decide +kernel

/-- A gate open for slot 4, readings 1499, 1900, 2300 and 2601, and settle counts short of and at the plan's 2. -/
theorem test_witness_RechargeFramesAreJudged :
    let s := slow .recharging
    ({ s.rct with gateOpen := true }.gateOpen = true ∧ (Progress.mk .resetSent 0 0 false).step = .resetSent
        ∧ (s.fin.slots.get 4).latch = false ∧ s.rct.gateOpen = false)
      ∧ s.rct.restart = .recharging ∧ (Progress.mk .acknowledged 1 0 false).step = .acknowledged
      ∧ (s.plan.readyLow ≤ (1900 : Word).toNat ∧ (2300 : Word).toNat ≤ s.plan.readyHigh)
      ∧ s.plan.settleFrames ≤ 1 + 1 ∧ 0 + 1 < s.plan.settleFrames
      ∧ (1499 : Word).toNat < s.plan.dcUnder ∧ s.plan.dcOver < (2601 : Word).toNat
      ∧ (∀ j : Slot, j ≠ 4 → s.rct.progress.get j = none) := by decide +kernel

/-- A clean frame and one that is not, and runs short of and at the verify run of 2. -/
theorem test_witness_VerifyFramesAreJudged :
    let s := slow .verifying
    s.rct.restart = .verifying
      ∧ (s.plan.readyLow ≤ (2000 : Word).toNat ∧ (2000 : Word).toNat ≤ s.plan.readyHigh
          ∧ (s.lsv.get 4).recentlyLost = false)
      ∧ 0 + 1 < s.plan.verifyRun ∧ s.plan.verifyRun ≤ 1 + 1
      ∧ (Progress.mk .settled 0 1 true).verified = true ∧ (Progress.mk .settled 0 1 false).verified = false
      ∧ (∀ j : Slot, j ≠ 4 → s.rct.progress.get j = none)
      ∧ freshComplete s = false ∧ noFaultPending s = true
      ∧ freshComplete { s with
          rfs := { Rfs.reset with amplitudeMark := PerSlot.all true, angleMark := PerSlot.all true } } = true := by
  decide +kernel

/-- A field that enters the range, with the ring RUNNING, frozen, and with a post count. -/
theorem test_witness_RangeFieldTriggers :
    let s := { drive .normal with
      plan := { samplePlan with captureLow := 100, captureHigh := 200, captureLeave := false, capturePost := 0 }
      cap := { Cap.reset with range := .outside } }
    s.plan.captureTemperature = false ∧ s.plan.captureLow.toNat ≤ (150 : Word).toNat
      ∧ (150 : Word).toNat ≤ s.plan.captureHigh.toNat ∧ s.cap.range = .outside ∧ s.cap.state = .running
      ∧ s.cap.post = none ∧ s.plan.capturePost = 0 ∧ { s.cap with post := some 3 }.post ≠ none
      ∧ LogRoom 1 s ∧ (captureRange 150 s).cap.state = .dumping := by
  unfold LogRoom; decide +kernel

/-- Outcomes of each kind, and supervision records at the boundaries of the clauses. -/
theorem test_witness_FramesMoveTheLink :
    let l := LinkRecord.reset
    let w : StatusWords := ⟨9, 0, 0, 2000, 0, 0, 2009⟩
    w.check = w.tag + w.cell + w.code + w.dc + w.temperature + w.feedback
      ∧ ({ w with check := 0 } : StatusWords).check ≠ w.tag + w.cell + w.code + w.dc + w.temperature + w.feedback
      ∧ samplePlan.lossFrames ≤ boundedInc 255 { l with notGood := 3 }.notGood
      ∧ boundedInc 255 { l with notGood := 2 }.notGood < samplePlan.lossFrames
      ∧ boundedInc 2 { l with goodRun := 1, link := .degraded }.goodRun = 2
      ∧ boundedInc 2 { l with erroredRun := 1 }.erroredRun = 2
      ∧ { l with link := .lost }.window = none
      ∧ ({ l with errored := 0xFFFF }.errored + 1 = 0 ∧ { l with missed := 0xFFFE }.missed ≠ 0xFFFF)
      ∧ (62 + 1 < 64 ∧ 64 ≤ 63 + 1 ∧ 56 ≤ 55 + 1 ∧ 54 + 1 < 56) := by decide

theorem test_witness_LossOfAnActiveSlotTrips :
    let s := { scanning 4 false with lsv := (PerSlot.all LinkRecord.reset).set 4 { LinkRecord.reset with notGood := 3 } }
    s.mpa.holder = some (.ssc 4 false) ∧ s.ssc.enabled = true ∧ s.rct.restart = .normal
      ∧ (s.mpl.slots.get 4).role = .active 4 ∧ (s.lsv.get 4).link ≠ .lost
      ∧ (outcomeOf (s.lsv.get 4) (some (readStatus (applyFar [⟨4, 6, 1⟩] s.mem) 4))).isGood = false
      ∧ s.plan.lossFrames ≤ boundedInc 255 (s.lsv.get 4).notGood
      ∧ (s.mpl.fitted.get 5 = true ∧ ∀ j : Slot, 23 < j → s.mpl.fitted.get j = false)
      ∧ (phaseOf 23 = .c ∧ windowExpired ((Intake.reset.lines.set .a ⟨true, false, ⟨true, 0⟩⟩).get .a) = true
          ∧ windowExpired (s.fin.lines.get .a) = false ∧ windowExpired (s.fin.lines.get .b) = false) := by decide +kernel

/-- Codes 1, 2, 64 and 65; roles of each kind. -/
theorem test_witness_FaultsAreClassedAndRouted :
    samplePlan.hardFlags.getLsbD (1 - 1) = true ∧ samplePlan.hardFlags.getLsbD (64 - 1) = false
      ∧ samplePlan.strikeLimit ≤ { IntakeSlot.reset with strikes := 2 }.strikes
      ∧ { IntakeSlot.reset with strikes := 1 }.strikes < samplePlan.strikeLimit ∧ 64 < 65
      ∧ ({ drive .tripped with mpl := Mpl.reset }.mpl.slots.get 0).role = .absent
      ∧ ((drive .tripped).mpl.slots.get 6).role = .spare
      ∧ (((drive .tripped).mpl.slots.get 0).role = .active 0 ∧ (drive .tripped).rct.restart = .tripped)
      ∧ ((takeFault 0 5 (drive .normal)).rct.restart = .tripped ∧ (takeFault 0 5 (drive .proving)).rct.restart = .tripped)
      ∧ ((takeFault 0 5 (drive .arming)).rct.restart = .unarmed ∧ (takeFault 0 5 (drive .lockout)).rct.restart = .lockout)
      ∧ (takeFault 0 5 (takeFault 0 65 (drive .normal))).rct.pendingFaults.get 0 = some ⟨.hard, 5⟩ := by
  decide +kernel

theorem test_witness_FaultLineEdgesMakeRequests :
    State.held.bpu.isOpen = false
      ∧ ((drive .normal).bpu.isOpen = true ∧ ((drive .normal).fin.lines.get .b).lastLevel ≠ (drive .normal).plan.senseRising
          ∧ ((drive .normal).fin.lines.get .b).request = false)
      ∧ ({ drive .normal with plan := { samplePlan with senseRising := true } }.fin.lines.get .b).lastLevel = true
      ∧ ((drive .tripped).rct.restart = .tripped ∧ (drive .tripped).bpu.isOpen = true)
      ∧ ((drive .arming).rct.restart = .arming ∧ (drive .arming).bpu.isOpen = true)
      ∧ identifiedAtOnce .b (drive .normal) = false
      ∧ identifiedAtOnce .b { drive .normal with
          fin := { Intake.reset with slots := Intake.reset.slots.set 8 ⟨true, 0, .stopped, 5⟩ } } = true := by
  decide +kernel

/-- A pass with no slot pending, with one, and with five of a phase pending HARD: each of the three ways on. The last fills
the ring of 16 with its records. -/
theorem test_witness_passesLeft :
    let s (n : Nat) : State := { drive .tripped with
      rct := { (drive .tripped).rct with
        pendingFaults := PerSlot.ofFn fun i => if i.val < n then some ⟨.hard, 65⟩ else none } }
    (identificationReport false (s 0)).rct.restart = .recharging
      ∧ (identificationReport false (s 1)).rct.restart = .isolating
      ∧ (identificationReport false (s 5)).rct.cause = some .infeasible
      ∧ ((identificationReport false (s 0)).log.writeList.map LogEntry.category = [.sequence, .map, .sequence]
          ∧ (identificationReport false (s 5)).log.writeList.map LogEntry.category
              = .sequence :: List.replicate 14 .map) := by decide +kernel

/-- With settling seen, no request, and each value of restart enable; 1 and 2 passes made against 2. -/
theorem test_witness_IdentificationReportDecides :
    (drive .tripped).rct.restart = .tripped ∧ (drive .tripped).rct.settlingSeen = true
      ∧ (∀ p, p = .a ∨ p = .b ∨ p = .c → ((drive .tripped).fin.lines.get p).request = false)
      ∧ (drive .tripped).rct.restartEnable = true ∧ { (drive .tripped).rct with restartEnable := false }.restartEnable = false
      ∧ { (drive .tripped).rct with settlingSeen := false }.settlingSeen = false
      ∧ samplePlan.maxPasses ≤ { (drive .tripped).rct with passCount := 2 }.passCount
      ∧ { (drive .tripped).rct with passCount := 1 }.passCount < samplePlan.maxPasses := by
  refine ⟨by decide, by decide, ?_, by decide, by decide, by decide, by decide, by decide⟩
  intro p _; cases p <;> decide

theorem test_witness_PlanningRunMovesRoles :
    (decide ((3 : Slot) = 3) = true ∧ ((drive .isolating).mpl.slots.get 3).role = .active 3)
      ∧ (decide ((4 : Slot) = 3) = false ∧ ((drive .isolating).mpl.slots.get 4).role = .active 4)
      ∧ ((drive .isolating).mpl.slots.get 6).role = .spare ∧ (drive .isolating).mpl.fitted.get 6 = true
      ∧ State.held.mpl.fitted.get 6 = false ∧ (State.held.mpl.slots.get 6).role = .absent := by decide +kernel

/-- Slots 3 and 4 of phase A fail hard, and the spares 6 and 7 take positions 3 and 4; slot 13 returns to its home. -/
theorem test_witness_sparesAndHomes :
    let s := { drive .isolating with
      mpl := { (drive .isolating).mpl with slots := (fullMap 6).set 13 ⟨.bypassedBalance 5, false, 0, .closed⟩ } }
    let hard := fun i : Slot => decide (i = 3 ∨ i = 4)
    (phaseSlots .a).filter (fun i => !hard i && (s.mpl.slots.get i).role == .spare && eligible s i) = [6, 7]
      ∧ (List.range s.mpl.k).filter (fun q => (phaseSlots .a).all fun i => hard i
          || ((s.mpl.slots.get i).role != .active q && (s.mpl.slots.get i).role != .bypassedBalance q)) = [3, 4]
      ∧ ((planRoles hard s).get 6).role = .active 3 ∧ ((planRoles hard s).get 7).role = .active 4
      ∧ eligible s 13 = true ∧ ((planRoles hard s).get 13).role = .active 5
      ∧ ((planRoles hard s).get 14).role = .spare
      ∧ allSlots.filter (fun i => s.mpl.fitted.get i && (s.mpl.slots.get i).bypass
          != ((planRun hard s).mpl.slots.get i).bypass) = [3, 4, 6, 7, 13] := by decide +kernel

theorem test_witness_RebalanceEqualizesTheDeficits :
    deficits (fullMap 6) 6 = PerPhase.all 0 ∧ deficits fallbackMap 6 = ⟨0, 1, 0⟩
      ∧ lookupEntry [⟨⟨0, 1, 0⟩, PerPhase.all 5, PerPhase.all 4681⟩] ⟨0, 1, 0⟩
          = some ⟨⟨0, 1, 0⟩, PerPhase.all 5, PerPhase.all 4681⟩
      ∧ lookupEntry [⟨PerPhase.all 1, PerPhase.all 5, PerPhase.all 4681⟩] ⟨0, 1, 0⟩ = none
      ∧ lookupEntry [⟨PerPhase.all 1, PerPhase.all 5, PerPhase.all 4681⟩] (PerPhase.all (maxDeficit ⟨0, 1, 0⟩))
          = some ⟨PerPhase.all 1, PerPhase.all 5, PerPhase.all 4681⟩
      ∧ (equalize 6 fallbackMap).get 5 = ⟨.bypassedBalance 5, false, 0, .opened⟩
      ∧ (equalize 6 fallbackMap).get 21 = ⟨.bypassedBalance 5, false, 0, .opened⟩ := by decide +kernel

theorem test_witness_BrakeSetRisingActsByState :
    ((braked .normal .standstill false true).pins.brakeSet = false
        ∧ (braked .normal .standstill false true).rct.restart = .normal
        ∧ (braked .normal .standstill false true).hif.permit = true)
      ∧ ((braked .resuming .rideThrough false true).rct.restart.inSequence = true
          ∧ (braked .resuming .rideThrough false true).rct.mode = .rideThrough)
      ∧ (braked .tripped .rideThrough false true).rct.restart.inSequence = true
      ∧ ((braked .proving .standstill false false).rct.restart ≠ .normal
          ∧ (braked .proving .standstill false false).rct.restart.inSequence = false)
      ∧ (braked .tripped .standstill false false).rct.mode = .standstill := by decide

theorem test_witness_BrakeSetFallingActsByState :
    ((braked .proving .standstill true false).pins.brakeSet = true
        ∧ (braked .proving .standstill true false).rct.restart = .proving)
      ∧ (braked .normal .standstill true false).hif.permit = false
      ∧ ((braked .awaiting .standstill true false).rct.restart.inSequence = true
          ∧ (braked .awaiting .standstill true false).rct.mode = .standstill)
      ∧ (braked .normal .standstill true true).hif.permit = true
      ∧ (braked .awaiting .rideThrough true true).rct.mode = .rideThrough
      ∧ (drive .arming).rct.restart = .arming ∧ (drive .lockout).rct.restart = .lockout := by decide

theorem test_witness_MsTickCounts :
    State.held.itm.running = false ∧ (drive .normal).itm.running = true ∧ (Itm.mk true 0 0 998 0).subMillis < 999
      ∧ 999 ≤ (Itm.mk true 0 0 999 0).subMillis := by decide

/-- Errored counts at and below the threshold, and runs one short of 3. -/
theorem test_witness_OneSecondIntervalIsTaken :
    { drive .normal with itm := ⟨true, 0, 0, 0, 1⟩ }.itm.running = true
      ∧ 0 < { drive .normal with itm := ⟨true, 0, 0, 0, 1⟩ }.itm.secondsDue
      ∧ State.held.mpl.fitted.get 0 = false ∧ (drive .normal).mpl.fitted.get 0 = true
      ∧ samplePlan.marginal ≤ { LinkRecord.reset with erroredSecond := 3 }.erroredSecond.toNat
      ∧ { LinkRecord.reset with erroredSecond := 2 }.erroredSecond.toNat < samplePlan.marginal
      ∧ ({ LinkRecord.reset with erroredSecond := 3, highRun := 2 }.judgeSecond 3).highRun = 3
      ∧ ({ LinkRecord.reset with erroredSecond := 2, lowRun := 2 }.judgeSecond 3).lowRun = 3
      ∧ ({ LinkRecord.reset with erroredSecond := 2, lowRun := 1 }.judgeSecond 3).lowRun ≠ 3
      ∧ (LinkRecord.reset.marginal = false ∧ { LinkRecord.reset with marginal := true }.marginal = true)
      ∧ ((secondPassed (drive .normal)).log.writeList = []
          ∧ (secondPassed { drive .normal with
              ssc := ⟨true, false, none, 3, false⟩
              lsv := (PerSlot.all LinkRecord.reset).set 17 { LinkRecord.reset with erroredSecond := 70, highRun := 2 }
              bpu := { (drive .normal).bpu with counts := { RefusalCounts.zero with saturation := 2 } } }).log.writeList.map
                LogEntry.category = [.link, .host, .link]) := by decide +kernel

/-- The expiries of the tests of steps above, as the statement names them. -/
theorem test_witness_ExpiriesTakeTheirEffect :
    let b := braked .isolating .rideThrough false true
    let f := { IntakeSlot.reset with strikes := 1, strikeTimer := ⟨true, 0⟩ }
    let l := { LinkRecord.reset with recentlyLost := true, recentTimer := ⟨true, 0⟩ }
    let w : IntakeLine := ⟨true, false, ⟨true, 0⟩⟩
    ({ b.rct with budget := ⟨true, 0⟩ }.budget.due = true ∧ b.rct.mode = .rideThrough ∧ b.rct.restart.inSequence = true)
      ∧ (((PerSlot.all f).get 23).strikeTimer.due = true ∧ ((PerSlot.all l).get 0).recentTimer.due = true)
      ∧ ({ Rct.reset with restart := .awaiting, fresh := ⟨true, 0⟩ }.fresh.due = true
          ∧ { Rct.reset with restart := .proving, proving := ⟨true, 0⟩ }.proving.due = true)
      ∧ windowExpired ((PerPhase.all w).get .c) = true
      ∧ (drive .tripped).rct.restart = .tripped ∧ (drive .isolating).rct.restart ≠ .tripped := by decide

theorem test_witness_ContactorTimeoutJudgesTheWatchList :
    (slotLawHolds (stuck .isolating (some ⟨.closed, none⟩) (some ⟨.opened, none⟩)) = true
        ∧ (stuck .isolating (some ⟨.closed, none⟩) none).rct.contactor.due = true
        ∧ (stuck .isolating (some ⟨.closed, none⟩) none).rct.restart = .isolating)
      ∧ (slotLawHolds (stuck .isolating none (some ⟨.opened, some .closed⟩)) = true
          ∧ ((stuck .isolating none (some ⟨.opened, some .closed⟩)).rct.watch.get 4).isSome = true
          ∧ ∀ j : Slot, j < 4 → (stuck .isolating none (some ⟨.opened, some .closed⟩)).rct.watch.get j = none)
      ∧ logStuckAll [3, 4] (stuck .isolating (some ⟨.closed, none⟩) (some ⟨.opened, some .closed⟩))
          = handAll .contactor [(2, 3, 0xFFFF), (3, 4, 1)]
              (stuck .isolating (some ⟨.closed, none⟩) (some ⟨.opened, some .closed⟩))
      ∧ slotLawHolds (stuck .arming none none) = true ∧ (stuck .arming none none).rct.restart = .arming := by
  decide +kernel

theorem test_witness_SlotsThatFailARestartStepTrip :
    (slotLawHolds (slow .recharging) = true ∧ (slow .recharging).rct.recharge.due = true
        ∧ (slow .recharging).rct.progress.get 4 = some ⟨.acknowledged, 1, 0, false⟩
        ∧ ∀ j : Slot, j < 4 → (slow .recharging).rct.progress.get j = none)
      ∧ slotLawHolds (slow .verifying) = true ∧ (slow .verifying).ssc.ended = true
      ∧ (slow .verifying).rct.verify.due = true := by decide +kernel

/-- Counts 1 and 2 at the end of a period, in states and stale modes of each clause. -/
theorem test_witness_ControlPeriodsCountStaleness :
    (Hif.mk true false true 7 false 2 ⟨true, 0⟩).period.due = true
      ∧ (Hif.mk true false true 7 true 2 ⟨true, 0⟩).tagChanged = true ∧ (Hif.mk true false true 7 false 1 ⟨true, 0⟩).stale ≠ 2
      ∧ samplePlan.staleTrip = false ∧ { samplePlan with staleTrip := true }.staleTrip = true
      ∧ (drive .awaiting).rct.restart ≠ .resuming ∧ (drive .resuming).rct.restart = .resuming
      ∧ ((drive .resuming).log.running = true ∧ (drive .resuming).log.writeList.length + 2 ≤ 16)
      ∧ (drive .arming).rct.restart = .arming := by decide

/-- K is 6: positions 5 and 6 of a phase. -/
theorem test_witness_windowWrites :
    State.held.bpu.isOpen = false ∧ (drive .normal).bpu.isOpen = true ∧ indexOf 13 < (drive .normal).mpl.k
      ∧ (drive .normal).mpl.k ≤ indexOf 14 ∧ slotOfRecord (drive .normal) 13 = some 13
      ∧ slotOfRecord { drive .normal with mpl := { (drive .normal).mpl with slots := fallbackMap } } 11 = none := by
  decide +kernel

theorem test_witness_LatchCommitsAndCaptureEntries :
    (drive .normal).bpu.latches.get (phaseOf 10) = none
      ∧ (latched .normal).bpu.latches.get (phaseOf 10) = some ⟨9, 9, 20000⟩ ∧ ((9 : Rec) = 9 ∧ (9 : Rec) ≠ 10)
      ∧ { Cap.reset with state := .frozen }.state ≠ .running ∧ Cap.reset.post = none
      ∧ { Cap.reset with post := some 2 }.post = some 2 ∧ { Cap.reset with post := some 1 }.post = some 1 := by
  decide

/-- Gate values 2 and 3; the closed map and a dark position stand in test_witness_windowWrites. -/
theorem test_witness_GateWritesReachTheImage :
    2 < (3 : Word).toNat ∧ (2 : Word).toNat ≤ 2 ∧ (drive .normal).rct.restart = .normal
      ∧ (drive .proving).rct.restart ≠ .normal := by decide

theorem test_witness_AmplitudeWritesAreLatched :
    ((latched .normal).bpu.latches.get (phaseOf 9) ≠ none ∧ (drive .normal).bpu.latches.get (phaseOf 9) = none)
      ∧ (isLive (drive .normal) 9 1 = true ∧ slotOfRecord (drive .normal) 9 = some 9)
      ∧ (isLive (drive .recharging) 9 1 = false ∧ (drive .recharging).rct.restart ≠ .awaiting)
      ∧ (32767 < (32768 : Word).toNat ∧ ¬32767 < (32767 : Word).toNat) := by decide +kernel

/-- Writes held in AWAITING that do not complete the fresh set, or that come while the host is stale or a fault pends. -/
theorem test_witness_writesHeldInAwaiting :
    let s := drive .awaiting
    let marked := { Rfs.reset with amplitudeMark := PerSlot.all true, angleMark := PerSlot.all true }
    (s.rct.restart = .awaiting ∧ isLive s 9 1 = false ∧ isLive s 9 2 = false)
      ∧ freshComplete { s with rfs := { s.rfs with amplitudeMark := s.rfs.amplitudeMark.set 9 true } } = false
      ∧ freshComplete { s with rfs := { s.rfs with angleMark := s.rfs.angleMark.set 9 true } } = false
      ∧ freshComplete { s with rfs := marked } = true ∧ 3 ≤ { s.hif with stale := 3 }.stale
      ∧ noFaultPending { s with rct := { s.rct with
          pendingFaults := (PerSlot.all none).set 4 (some ⟨.transient, 12⟩) } } = false := by decide +kernel

theorem test_witness_AngleWritesCommitTheirPair :
    (isLive (latched .normal) 9 2 = true ∧ slotOfRecord (latched .normal) 9 = some 9
        ∧ (latched .normal).bpu.latches.get (phaseOf 9) = some ⟨9, 9, 20000⟩)
      ∧ (isLive (latched .normal) 10 2 = true ∧ slotOfRecord (latched .normal) 10 = some 10
          ∧ (latched .normal).bpu.latches.get (phaseOf 10) = some ⟨9, 9, 20000⟩)
      ∧ (isLive (drive .recharging) 9 2 = false ∧ (drive .recharging).rct.restart ≠ .awaiting) := by decide +kernel

/-- An auxiliary list of 31 and one of 32 entries. -/
theorem test_witness_CarrierAuxAndBypassWrites :
    isLive (drive .normal) 9 3 = true ∧ isLive (drive .tripped) 9 3 = false ∧ isLive (drive .normal) 9 7 = true
      ∧ isLive (drive .tripped) 9 7 = false ∧ (List.replicate 31 (AuxEntry.mk 9 2 5)).length < 32
      ∧ 32 ≤ (List.replicate 32 (AuxEntry.mk 9 2 5)).length := by decide

theorem test_witness_WritesAreLiveByState :
    let s := { drive .resuming with rfs := { Rfs.reset with cursor := some 9, stage := some .gates } }
    s.rct.restart = .resuming ∧ s.rfs.cursor = some 9 ∧ (drive .resuming).rfs.cursor = none
      ∧ isLive s 9 1 = true ∧ isLive s 10 3 = false ∧ isLive s 10 5 = true ∧ isLive (drive .resuming) 10 5 = false
      ∧ (drive .proving).rct.restart = .proving ∧ (drive .lockout).rct.restart ≠ .resuming := by decide +kernel

/-- Halves, values below and above a half, and a rank below n. -/
theorem test_witness_AmplitudeAndCarrierTranslation :
    (32767 : Word).toNat ≤ 32767 ∧ 2 * (9 % 6) = 6 ∧ 2 * (8 % 6) < 6 ∧ 6 < 2 * (10 % 6) ∧ 0 < 6
      ∧ ((List.range 5).filter fun i => !([3] : List Nat).contains i).length < 6 - [3].length := by decide

/-- Every word of a record inside the map, of a lit and of a dark position, and the closed window. -/
theorem test_witness_LogicalReadsAreAnswered :
    (drive .normal).bpu.isOpen = true ∧ indexOf 9 < (drive .normal).mpl.k ∧ slotOfRecord (drive .normal) 9 = some 9
      ∧ indexOf 11 < 6 ∧ holderOf fallbackMap (phaseOf 11) (indexOf 11) = none ∧ State.held.bpu.isOpen = false
      ∧ (drive .normal).mpl.k ≤ indexOf 14 := by decide +kernel

theorem test_witness_ProtectedRegionsAbsorbWrites :
    ((Instr.physicalCommandWrite 23 7 1).wellFormed = true ∧ physicalCommandAddr 23 7 = 0x2BF)
      ∧ (Instr.planOrImageWrite 0xCDF 1).wellFormed = true ∧ (Instr.captureRegionWrite 0xD06 1).wellFormed = true
      ∧ (Instr.logRegionWrite 0x1001 1).wellFormed = true ∧ (Instr.logRegionWrite 0x1005 1).wellFormed = true
      ∧ (Instr.logRegionWrite 0x1007 1).wellFormed = true ∧ (Instr.logRegionWrite 0x1008 1).wellFormed = true
      ∧ ¬((0xD06 : Addr) = 0xD06 ∧ (2 : Word) = 1) ∧ State.held.rct.restart = .unarmed
      ∧ (drive .arming).rct.restart ≠ .unarmed := by decide

theorem test_witness_OtherAccessesPass :
    (Instr.hostPassedAccess 0x400 (.write 1)).wellFormed = true ∧ (Instr.hostPassedAccess 0x401 (.write 1)).wellFormed = true
      ∧ (Instr.hostPassedAccess 0x402 (.write 2)).wellFormed = true ∧ (Instr.hostPassedAccess 0x403 (.write 1)).wellFormed = true
      ∧ (Instr.hostPassedAccess 0x3FF (.write 1)).wellFormed = true ∧ (Instr.hostPassedAccess 0x404 (.write 1)).wellFormed = true
      ∧ (Instr.hostPassedAccess 0x402 .read).wellFormed = true := by decide

/-- Tags equal to and other than the last, and counts 2 and 3. -/
theorem test_witness_PeriodTagsClearStaleness :
    (delivering .normal (.periodTag 7)).bpu.deliveries = [.periodTag 7] ∧ (7 : Word) = (drive .normal).hif.lastTag
      ∧ (8 : Word) ≠ (drive .normal).hif.lastTag ∧ { (drive .normal).hif with stale := 2 }.stale < 3
      ∧ 3 ≤ { (drive .normal).hif with stale := 3 }.stale ∧ (drive .normal).rct.restart ≠ .awaiting
      ∧ freshComplete (drive .awaiting) = false ∧ noFaultPending (drive .awaiting) = true
      ∧ freshComplete { drive .awaiting with
          rfs := { Rfs.reset with amplitudeMark := PerSlot.all true, angleMark := PerSlot.all true } } = true := by
  decide +kernel

theorem test_witness_DirectionChangesActByState :
    (delivering .normal (.direction 1)).bpu.deliveries = [.direction 1]
      ∧ Direction.raise = (drive .normal).rct.direction ∧ Direction.lower ≠ (drive .normal).rct.direction
      ∧ [RestartState.normal, .lockout, .arming, .tripped, .isolating, .recharging, .verifying, .awaiting, .resuming,
          .proving].all (fun r => (drive r).rct.restart == r) = true
      ∧ (drive .resuming).rct.mode = .standstill ∧ indexOf 0 < (drive .resuming).mpl.k
      ∧ slotOfRecord (drive .resuming) 0 ≠ none := by decide +kernel

theorem test_witness_ProofsRaiseThePermit :
    (delivering .proving .proof).bpu.deliveries = [.proof] ∧ (drive .proving).rct.restart = .proving
      ∧ { (drive .proving).hif with stale := 2 }.stale < 3 ∧ (drive .normal).hif.proofNeeded = true
      ∧ 3 ≤ { (drive .proving).hif with stale := 3 }.stale
      ∧ (braked .normal .standstill false true).hif.proofNeeded = false
      ∧ (drive .awaiting).rct.restart ≠ .normal ∧ (drive .awaiting).rct.restart ≠ .proving := by decide

/-- The capacity is 16: consumer values 15 and 16. -/
theorem test_witness_OtherWatchedWritesAreTaken :
    (delivering .normal (.restartEnable 1)).bpu.deliveries = [.restartEnable 1]
      ∧ (delivering .normal .consumed).bpu.deliveries = [.consumed] ∧ Cap.reset.state ≠ .frozen
      ∧ { Cap.reset with state := .frozen }.state = .frozen
      ∧ (delivering .normal (.consumer 15)).bpu.deliveries = [.consumer 15] ∧ (15 : Word).toNat < (drive .normal).log.capacity
      ∧ (drive .normal).log.capacity ≤ (16 : Word).toNat := by decide

/-- A drive whose BPU holds the port for a need. -/
def passing (n : Need) : State :=
  { drive .normal with bpu := { (drive .normal).bpu with needs := [n] }, mpa := ⟨some .bpu, 0⟩ }

theorem test_witness_BpuTenuresPerformTheirNeed :
    ∀ n ∈ [Need.passWrite 0x400 1 (some .proof), .read 0x300 true, .translated 9 0 0x248 1, .pair 9 9 20000 1000,
        .commitAlone .b 9 20000 true true],
      (passing n).mem.wf = true ∧ (passing n).mpa.holder = some .bpu ∧ (passing n).bpu.needs = [n] := by decide

/-- A drive whose buffer X is being written. -/
def burst (w : Burst) (stage : Option ReleaseStage) : State :=
  { drive .resuming with
    mpa := ⟨some (.wen .x), 0⟩
    rfs := { Rfs.reset with stage := stage }
    wen := { Wen.reset with jobs2 := [⟨.release, [], true⟩], x := .writing w } }

/-- Bursts with and without a cursor and the job's last write, in stages AUXILIARY and GATES. -/
theorem test_witness_WenTenuresPerformTheirBuffer :
    let w : Burst := ⟨.release, [(0x24B, 5)], some 9, false⟩
    let l : Burst := ⟨.release, [(0x248, 1)], none, true⟩
    ((burst w (some (.auxiliary false))).mem.wf = true ∧ (burst w (some (.auxiliary false))).mpa.holder = some (.wen .x)
        ∧ (burst w (some (.auxiliary false))).wen.buffer .x = .writing w
        ∧ (burst w (some (.auxiliary false))).rfs.stage = some (.auxiliary false) ∧ (burst w (some (.auxiliary false))).rfs.aux = []
        ∧ ((burst w (some (.auxiliary false))).wen.buffer BufferId.x.other).holdsRelease = false)
      ∧ (burst w (some (.auxiliary true))).rfs.stage = some (.auxiliary true)
      ∧ { (burst w (some (.auxiliary true))).rfs with aux := [⟨9, 2, 5⟩] }.aux ≠ []
      ∧ ((burst w none).wen.jobs2 = [] ++ ⟨.release, [], true⟩ :: [] ∧ activeSlots (burst w none).mpl.slots ≠ [])
      ∧ ((burst l (some .gates)).wen.buffer .x = .writing l ∧ (burst l (some .gates)).rfs.stage ≠ some (.auxiliary false))
      ∧ (w.writes.map Prod.fst).Nodup ∧ w.last = false ∧ l.last = true ∧ l.cursor = none := by decide +kernel

theorem test_witness_CompletionsAreTakenByTheirOwners :
    (JobKind.release ∈ (completed .resuming .release).wen.done ∧ (drive .resuming).rct.restart = .resuming)
      ∧ ((braked .resuming .rideThrough false true).rct.mode = .rideThrough
          ∧ (braked .resuming .standstill true false).pins.brakeSet = true
          ∧ (braked .resuming .standstill false false).pins.brakeSet = false)
      ∧ JobKind.resetGate ∈ (completed .recharging .resetGate).wen.done
      ∧ JobKind.captureDump ∈ (completed .normal .captureDump).wen.done
      ∧ (∀ k ∈ (completed .normal .captureDump).wen.done, k.isLogRecord = false)
      ∧ (completed .normal (.logRecord true)).wen.done.find? JobKind.isLogRecord = some (.logRecord true)
      ∧ (completed .normal (.logRecord false)).wen.done.find? JobKind.isLogRecord = some (.logRecord false)
      ∧ { Log.reset with writeList := [⟨.sequence, 0, 1, false⟩] }.writeList = [⟨.sequence, 0, 1, false⟩] := by decide

/-- 15 and 16 records waiting, and a ring with one and with no place free. -/
theorem test_witness_RecordsAreAcceptedOrDropped :
    State.held.log.running = false ∧ (drive .normal).log.running = true
      ∧ 16 ≤ (List.replicate 16 (LogEntry.mk .fault 0 1 false)).length
      ∧ (List.replicate 15 (LogEntry.mk .fault 0 1 false)).length < 16
      ∧ ({ (drive .normal).log with producer := 15 }.producer + 1) % (drive .normal).log.capacity = (drive .normal).log.consumer
      ∧ ({ (drive .normal).log with producer := 14 }.producer + 1) % (drive .normal).log.capacity ≠ (drive .normal).log.consumer
      ∧ ((∃ j ∈ [headerJob], j.kind = .logHeader ∧ ⟨0x1003, .overflowCount⟩ ∈ j.todo)
          ∧ ¬∃ j ∈ [{ headerJob with todo := [] }], j.kind = .logHeader ∧ ⟨0x1003, .overflowCount⟩ ∈ j.todo) := by
  decide

theorem test_witness_FreshSetCoversTheLitPositions :
    freshComplete (drive .awaiting) = false ∧ indexOf 0 < (drive .awaiting).mpl.k
      ∧ slotOfRecord (drive .awaiting) 0 ≠ none ∧ (drive .resuming).rct.restart ≠ .awaiting := by decide +kernel

/-- Every mark is set but one mark of record 13. -/
theorem test_witness_LastFreshMarkStartsTheRelease :
    let s := { drive .awaiting with rfs := { Rfs.reset with
      amplitudeMark := PerSlot.all true, angleMark := (PerSlot.all true).set 13 false } }
    s.bpu.isOpen = true ∧ indexOf 13 < s.mpl.k ∧ s.rct.restart = .awaiting ∧ s.hif.stale < 3 ∧ noFaultPending s = true
      ∧ freshComplete s = false
      ∧ freshComplete { s with rfs := { s.rfs with angleMark := s.rfs.angleMark.set 13 true } } = true
      ∧ freshComplete { s with rfs := { s.rfs with
          amplitudeMark := s.rfs.amplitudeMark.set 13 true, angleMark := PerSlot.all true } } = true := by decide +kernel

/-! ## Witnesses of the laws: a state that keeps each law, is no reset state, and takes a step -/

/-- A drive in RECHARGING with a host word in memory, a latch, a watched slot, and a tick before it. -/
def lawful : State :=
  { slow .recharging with
    mem := [(0x400, 7)]
    bpu := (latched .normal).bpu
    pending := [.msTick] }

theorem lawful_steps : ∃ t, step lawful = .next t := ⟨_, rfl⟩

theorem test_witness_MemoryStaysCanonical : lawful.mem.wf = true ∧ lawful.mem ≠ [] := by decide

theorem test_witness_HoistLawIsKept : HoistLaw lawful ∧ HoistLaw (braked .normal .standstill false true) := by
  unfold HoistLaw HoistLines ArmingOrder; decide +kernel

theorem test_witness_UnarmedPartStaysQuiet :
    QuietWhenUnarmed lawful ∧ QuietWhenUnarmed State.held ∧ State.held.rct.restart = .unarmed := by
  unfold QuietWhenUnarmed timersStopped; decide +kernel

/-- A drive in RECHARGING that forwards a carrier and blocks a slot, behind a boundary. -/
def guarded : State :=
  { lawful with
    bpu := { (latched .normal).bpu with needs := [.translated 9 3 0x24B 7, .passWrite 0x400 8 none] }
    mpa := ⟨some (.wen .x), 0⟩
    wen := { Wen.reset with
      jobs1 := [⟨.blockAll, [], true⟩], jobs2 := [⟨.blockGate, [⟨0x220, .const 0⟩], false⟩]
      x := .writing ⟨.blockAll, [(0x220, 0)], none, true⟩ } }

theorem test_witness_portAndProtected : PortLaw guarded ∧ ProtectedLaw guarded ∧ guarded.rct.restart ≠ .unarmed := by
  refine ⟨⟨fun b => ?_, fun h => ?_⟩, fun _ n hn => ?_, by decide⟩
  · cases b <;> simp [guarded, Wen.buffer, Wen.reset]
  · simp [guarded] at h
  · have h : waitingNeeds guarded = [.translated 9 3 0x24B 7, .passWrite 0x400 8 none] := by decide
    rw [h] at hn; simp at hn; rcases hn with rfl | rfl <;> decide

theorem test_witness_GateLaw :
    GateLaw guarded ∧ HoistLaw guarded ∧ Bounded guarded ∧ RingInOrder guarded ∧ guarded.mem.wf = true
      ∧ ¬GatesReleased guarded ∧ runningNeeds guarded = [] := by
  refine ⟨⟨?_, ?_, ?_, ?_, by decide⟩, by unfold HoistLaw HoistLines ArmingOrder; decide +kernel,
    by unfold Bounded; decide +kernel, by unfold RingInOrder; decide +kernel, by decide,
    by unfold GatesReleased; decide, by decide⟩
  · intro c j hj _ w hw _
    cases c <;> simp [guarded, Wen.jobs, Wen.reset] at hj
    · subst hj; simp at hw
    · subst hj; simp at hw; subst hw; exact .inl rfl
  · intro b w hb _ x hx _
    cases b <;> simp [guarded, Wen.buffer, Wen.reset] at hb
    subst hb; simp at hx; subst hx; exact .inl rfl
  · intro h; exact absurd rfl h
  · intro r w a v h
    simp [guarded] at h
    obtain ⟨rfl, rfl, rfl, rfl⟩ := h; exact ⟨9, by decide⟩

theorem test_witness_FeasibleLaw : FeasibleLaw guarded ∧ guarded.rct.restart ≠ .lockout := by
  refine ⟨fun _ _ _ p => ?_, by decide⟩
  cases p <;> decide +kernel

/-- A quarantine mark that a release list clears (L12). -/
theorem test_witness_QuarantineKept :
    let p := summed ((basePlan.set 42 1).set 43 3)
    let s := { judging p with
      mpl := { Mpl.reset with slots := (PerSlot.all SlotEntry.reset).set 3 ⟨.bypassedFault, true, 1, .closed⟩ }
      pending := [.pldTenureEnd] }
    (s.mpl.slots.get 3).quarantine = true ∧ planRefusal p s.mpl.slots = none ∧ planReleases p 3 = true
      ∧ ((after .pldTenureEnd s).mpl.slots.get 3).quarantine = false
      ∧ ((after .pldTenureEnd s).mpl.slots.get 3).lifetime = 1 := by decide +kernel

theorem test_witness_BoundsAreKept : Bounded lawful ∧ RingInOrder lawful ∧ AmplitudesInRange lawful := by
  refine ⟨by unfold Bounded; decide +kernel, by unfold RingInOrder; decide +kernel, ?_, ?_, ?_⟩
  · intro p l h
    cases p <;> simp [lawful, latched, drive, PerPhase.all, PerPhase.set, PerPhase.get] at h
    subst h; decide
  · simp [lawful, latched, drive, Bpu.reset]
  · simp [lawful, latched, drive, Bpu.reset]

theorem positionsDistinct_of_check {k : Nat} {m : SlotMap}
    (h : (allSlots.all fun i => match (m.get i).role.place with
      | none => true
      | some q => decide (q < k) && allSlots.all fun j =>
          i == j || phaseOf i != phaseOf j || (m.get j).role.place != some q) = true) : PositionsDistinct k m := by
  have all : ∀ i : Slot, i ∈ allSlots := by decide
  rw [List.all_eq_true] at h
  refine ⟨fun i q hi => ?_, fun i j q hp hi hj => ?_⟩
  · have := h i (all i); rw [hi] at this; simp at this; exact this.1
  · have := h i (all i); rw [hi] at this; simp at this
    rcases this.2 j (all j) with (e | e) | e
    · exact e
    · exact absurd hp e
    · exact absurd hj e

theorem test_witness_MapLawIsKept : MapLaw lawful ∧ PositionsDistinct 6 fallbackMap := by
  refine ⟨⟨?_, positionsDistinct_of_check (by decide +kernel)⟩, positionsDistinct_of_check (by decide +kernel)⟩
  unfold QuarantineHolds; decide +kernel

theorem test_witness_SlotLawIsKept : SlotLaw lawful := slotLaw_of_holds (by decide +kernel)

end Sys2Proof.Tests
end

