-- ==== Sys2Proof/Proofs/Passage.lean ====
section
/-! The HOST records of a second (R58) and the translated angle (R49). -/

namespace Sys2Proof.Machine

/-! ## The HOST records of a second (R58) -/

theorem hostCount_zero (code : Word) (s : State) : hostCount code 0 s = s := rfl

theorem hostCount_of_ne_zero {count : Word} (h : count ≠ 0) (code : Word) (s : State) :
    hostCount code count s = logRecord .host code noSlot count s := if_neg h

/-- Reporting every kind in turn hands a record for the kinds whose count is not 0, and for no other. -/
theorem foldl_hostCount (kinds : List (Word × Word)) (s : State) :
    kinds.foldl (fun t k => hostCount k.1 k.2 t) s
      = (kinds.filter fun k => k.2 != 0).foldl (fun t k => logRecord .host k.1 noSlot k.2 t) s := by
  induction kinds generalizing s with
  | nil => rfl
  | cons kind kinds ih =>
    obtain ⟨code, count⟩ := kind
    by_cases h : count = 0
    · rw [List.foldl_cons, List.filter_cons_of_neg (by simp [h]), ← ih, h, hostCount_zero]
    · rw [List.foldl_cons, List.filter_cons_of_pos (by simpa using h), List.foldl_cons, ← ih, hostCount_of_ne_zero h]

/-- The kinds of refusal count with their codes, ascending in code (R58). -/
def hostKinds (c : RefusalCounts) : List (Word × Word) :=
  List.zip [1, 2, 3, 4, 5, 6, 7]
    [c.gateValue, c.bypassWord, c.auxFull, c.protectedWrite, c.outside, c.saturation, c.tornPair]

/-- The second of the BPU reports the counts it began with, and only then touches the BPU (R58, log 14). -/
theorem secondOfPassage_eq (s : State) :
    secondOfPassage s = ((hostKinds s.bpu.counts).foldl (fun t k => hostCount k.1 k.2 t) s).onBpu
      fun b => { b with counts := .zero, needs := b.needs.map Need.reported } := rfl

theorem secondOfPassage_counts (s : State) : (secondOfPassage s).bpu.counts = .zero := rfl

theorem secondOfPassage_keeps (s : State) : KeepsAllBut [.needs, .counts, .wen, .log] s (secondOfPassage s) := by
  intro f hf
  cases f <;> simp_all [Field.same]

/-- Settles O27: the seven reports are one fold over the kinds, and that fold passes over the kinds whose count is 0. -/
theorem hostRecordsOfTheSecond : Obligations.HostRecordsOfTheSecond := by
  rintro s u records rfl rfl
  have handed := foldl_hostCount (hostKinds s.bpu.counts) s
  refine ⟨?log, ?wen, secondOfPassage_counts s, secondOfPassage_keeps s⟩
  case log => rw [secondOfPassage_eq, State.onBpu_log, handed]; rfl
  case wen => rw [secondOfPassage_eq, State.onBpu_wen, handed]; rfl

/-! ## The translated angle (R49) -/

/-- An angle offset is added as a word, so the sum wraps at 65536. -/
theorem translateAngle_toNat (offset angle : Word) :
    (translateAngle offset angle).toNat = (angle.toNat + offset.toNat) % 65536 :=
  BitVec.toNat_add angle offset

theorem translateAngle_zero (v : Word) : translateAngle 0 v = v := BitVec.add_zero v

/-- The angle of a record depends on the phase records of the map and on nothing else of the state. -/
theorem angleOf_congr {s t : State} (h : t.mpl.phases = s.mpl.phases) (r : Rec) (v : Word) :
    angleOf t r v = angleOf s r v := by
  rw [angleOf, angleOf, phaseRecord, phaseRecord, h]

@[simp] theorem setRebalance_angleOffset (r : Rebalanced) (phases : PerPhase PhaseRecord) (p : Phase) :
    ((setRebalance r phases).get p).angleOffset = r.angle.get p := by
  simp [setRebalance]

/-- Everything a planning run does after its rebalance step leaves the phase records as that step has set them. -/
theorem planRun_phases (hard : Slot → Bool) (s : State) :
    (planRun hard s).mpl.phases
      = setRebalance (rebalance s.mpl.table s.plan.rounding s.mpl.k (planRoles hard s)) s.mpl.phases := by
  simp [planRun]

theorem adoptMap_angleOffset (p : List Word) (m : Mpl) (q : Phase) :
    ((adoptMap p m).phases.get q).angleOffset = (planBuild p m.slots).angle.get q := by
  simp [adoptMap]

/-- Settles O39: the sum is that of words, and both changes of the map take the offset from their rebalance step. -/
theorem angleIsShiftedByTheOffset : Obligations.AngleIsShiftedByTheOffset := by
  refine ⟨?sum, ?rounding, translateAngle_zero, by decide, by decide, ?run, adoptMap_angleOffset⟩
  case sum => exact fun s r v => translateAngle_toNat (phaseRecord s r).angleOffset v
  case rounding => exact fun s r v m => angleOf_congr rfl r v
  case run =>
    intro hard s p
    rw [planRun_phases, setRebalance_angleOffset]

end Sys2Proof.Machine
end

