-- ==== Sys2Proof/Proofs/FreshSet.lean ====
section
/-! The fresh set (R145). -/

namespace Sys2Proof.Machine

/-- What the fresh set asks of one record: a position outside the map (R44) and a dark one (R4) ask nothing. -/
theorem freshRecord_iff (s : State) (r : Rec) :
    (!(decide (indexOf r < s.mpl.k)) || (slotOfRecord s r).isNone
        || (s.rfs.amplitudeMark.get r && s.rfs.angleMark.get r)) = true
      ↔ (indexOf r < s.mpl.k → slotOfRecord s r ≠ none →
          s.rfs.amplitudeMark.get r = true ∧ s.rfs.angleMark.get r = true) := by
  by_cases inMap : indexOf r < s.mpl.k
  · cases holder : slotOfRecord s r with
    | none => simp
    | some i => simp [inMap]
  · simp [inMap]

/-- The model's check runs over a list of records, and that list leaves no record out. -/
theorem freshComplete_iff (s : State) :
    freshComplete s = true ↔ ∀ r, indexOf r < s.mpl.k → slotOfRecord s r ≠ none →
      s.rfs.amplitudeMark.get r = true ∧ s.rfs.angleMark.get r = true := by
  simp only [freshComplete, List.all_eq_true, freshRecord_iff, mem_allSlots, forall_const]

/-- A planning run keeps the whole Reference Store, so no mark is lost at a change of the map. -/
theorem planRun_rfs (hard : Slot → Bool) (s : State) : (planRun hard s).rfs = s.rfs := by
  simp only [planRun_frame]

theorem testAwaiting_of_ne_awaiting {s : State} (h : s.rct.restart ≠ .awaiting) : testAwaiting s = s :=
  if_neg fun ⟨awaiting, _⟩ => h awaiting

/-- Settles O52: the mark condition record by record, the frame of a planning run, and the guard of the test. -/
theorem freshSetCoversTheLitPositions : Obligations.FreshSetCoversTheLitPositions :=
  ⟨freshComplete_iff, planRun_rfs, fun _ => testAwaiting_of_ne_awaiting⟩

end Sys2Proof.Machine
end

