-- ==== Sys2Proof/Proofs/Commands.lean ====
section
/-! The queue of commands: what a step takes from it, and the commands that find their event not there (log 1, log 2). -/

namespace Sys2Proof.Machine

/-- Settles O1: the step function opens the queue. -/
theorem stepRunsFrontCommand : Obligations.StepRunsFrontCommand := by
  refine ⟨fun c rest s h => ?_, fun s h => ?_⟩
  · unfold step; rw [h]
  · unfold step; rw [h]

theorem head?_ne_iff {α : Type} {l : List α} {a : α} : l.head? ≠ some a ↔ ∀ r, l ≠ a :: r := by
  cases l <;> simp

/-- Settles O7: each command tests for its event first. -/
theorem eventsNotThereChangeNothing : Obligations.EventsNotThereChangeNothing := by
  intro s
  refine ⟨?_, ?_, ?_, ?_, ?_, ?_, ?_, ?_, ?_, ?_, ?_, ?_, ?_, ?_, ?_, ?_, ?_, ?_, ?_, ?_, ?_, ?_, ?_, ?_, ?_, ?_⟩
  · intro h; simp [exec, execResetNLow, h]
  · intro h; simp [exec, execResetNHigh, h]
  · intro h; simp [exec, execArmRising, h]
  · intro h; simp [exec, execArmFalling, h]
  · intro h; simp [exec, execBrakeSetRising, h]
  · intro h; simp [exec, execBrakeSetFalling, h]
  · intro h; rcases h with h | h <;> simp [exec, execOneSecondInterval, h]
  · intro h; rcases h with h | h | h <;> simp [exec, execBudgetExpiry, h]
  · rintro (h | ⟨h, h'⟩)
    · simp [exec, execContactorTimeout, h]
    · simp only [exec, execContactorTimeout]
      cases hr : s.rct.restart <;> simp_all
  · intro h; rcases h with h | h <;> simp [exec, execRechargeTimerExpiry, h]
  · intro h; rcases h with h | h <;> simp [exec, execFreshSetTimerExpiry, h]
  · intro h; rcases h with h | h <;> simp [exec, execProvingTimerExpiry, h]
  · intro i h; simp [exec, execStrikeWindowExpiry, h]
  · intro i h; simp [exec, execRecentlyLostTimerExpiry, h]
  · rintro (h | h)
    · simp [exec, execIdentificationWindowExpiry, h]
    · have : anyExpired s = false := by simp [anyExpired, Phase.all, h]
      simp [exec, execIdentificationWindowExpiry, this]
  · intro h
    have : s.ssc.ended = false ∨ verifyExpired s = false := by
      rcases h with h | h | h <;> simp [verifyExpired, h]
    rcases this with h | h <;> simp [exec, execVerifyWindowExpiry, h]
  · intro h; simp [exec, execControlPeriodEnd, h]
  · intro h; simp only [exec, execPldTenureEnd]
    cases hh : s.mpa.holder with
    | none => rfl
    | some x => cases x <;> simp_all
  · intro h; simp only [exec, execWenTenureEnd]
    cases hh : s.mpa.holder with
    | none => rfl
    | some x =>
      cases x with
      | wen b =>
        cases hb : s.wen.buffer b with
        | writing u => exact absurd hb (h b u hh)
        | empty | ready => simp [hb]
      | bpu | ssc | pld => rfl
  · intro far h; simp only [exec, execSscSlotTenureEnd]
    cases hh : s.mpa.holder with
    | none => rfl
    | some x => cases x <;> simp_all
  · intro far h; simp only [exec, execBpuTenureEnd]
    cases hh : s.mpa.holder with
    | none => rfl
    | some x => cases x <;> simp_all
  · intro h; simp [exec, execReleaseComplete, h]
  · intro h; simp [exec, execResetJobComplete, h]
  · intro h; simp [exec, execCaptureDumpComplete, h]
  · intro h
    have : s.wen.done.find? JobKind.isLogRecord = none := by
      rw [List.find?_eq_none]
      intro k hk
      cases k with
      | logRecord c => exact absurd hk (h c)
      | _ => simp [JobKind.isLogRecord]
    simp [exec, execLogRecordComplete, this]
  · rintro first rfl
    refine ⟨?_, ?_, ?_, ?_, ?_, ?_⟩ <;> intro h <;> simp only [head?_ne_iff] at h
    · simp only [exec, execPeriodTagWrite]
    · simp only [exec, execDirectionWrite]
    · simp only [exec, execProofEvent]
    · simp only [exec, execRestartEnableWrite]
    · simp only [exec, execConsumedWrite]
    · simp only [exec, execConsumerWrite]

/-- Settles O38: the table of the states in which a write is live, read off row by row. -/
theorem writesAreLiveByState : Obligations.WritesAreLiveByState := by
  intro s r w
  refine ⟨by simp [isLive], fun hw => ⟨fun h => ?_, fun h => ?_, fun h => ⟨?_, fun c h1 h3 hc => ?_, fun h1 h3 hc => ?_,
    fun h5 => ?_⟩⟩, fun h1 h2 h3 => ?_⟩
  · simp [isLive, hw, h]
  · by_cases h0 : w = 0 <;> simp [isLive, hw, h, h0]
  · simp [isLive, h]
  · have h0 : w ≠ 0 := by rintro rfl; simp at h1
    have h4 : w.val < 4 := by omega
    simp [isLive, hw, h, h0, h4, hc]
  · have h0 : w ≠ 0 := by rintro rfl; simp at h1
    have h4 : w.val < 4 := by omega
    simp [isLive, hw, h, h0, h4, hc]
  · have h0 : w ≠ 0 := by rintro rfl; simp at h5
    have h4 : ¬w.val < 4 := by omega
    simp [isLive, hw, h, h0, h4]
  · unfold isLive
    cases hr : s.rct.restart <;> simp_all

/-- The blocks of the reset state are those of the held state but for the port and the Write Engine. -/
theorem reset_blocks :
    State.reset = { State.held with mpa := State.reset.mpa, wen := State.reset.wen } := rfl

/-- Settles O4: the reset values are read off the blocks of the held state. -/
theorem resetStateHoldsTheResetValues : Obligations.ResetStateHoldsTheResetValues := by
  unfold Obligations.ResetStateHoldsTheResetValues
  rw [reset_blocks]
  simp only [State.held, Mpl.reset, Bpu.reset, Ssc.reset, Intake.reset, Rct.reset, Rfs.reset, Hif.reset, Cap.reset,
    Log.reset, Pld.reset, Itm.reset, PerSlot.get_all, PerPhase.get_all, SlotEntry.reset, LinkRecord.reset,
    IntakeSlot.reset, IntakeLine.reset, RefRecord.zero, PhaseRecord.reset, timersStopped, Timer.stopped]
  have marks : ∀ n, (List.replicate 16 false).getD n false = false := fun n => by
    rw [List.getD_eq_getElem?_getD, List.getElem?_replicate]
    split <;> rfl
  simp [State.reset, -List.reduceReplicate, -List.getD_eq_getElem?_getD, marks]

/-- The bursts and the job of the reset state write BLOCK to gate words only. -/
theorem reset_gateLaw : GateLaw State.reset := by
  have hbuf : ∀ w, w = Burst.mk .resetBlock ((phaseSlots .a).map resetBlockWrite) none false
      ∨ w = Burst.mk .resetBlock ((phaseSlots .b).map resetBlockWrite) none false → ∀ x ∈ w.writes, x.2 = 0 := by
    rintro w (rfl | rfl) x hx <;>
    · obtain ⟨i, _, rfl⟩ := List.mem_map.1 hx
      rfl
  constructor
  · intro c j hj _ w hw _
    cases c <;> simp [State.reset, Wen.reset, Wen.jobs] at hj
    subst hj
    obtain ⟨i, _, rfl⟩ := List.mem_map.1 hw
    exact .inl rfl
  · intro b w hb _ x hx _
    left
    cases b <;> simp [State.reset, Wen.reset, Wen.buffer] at hb
    · exact hbuf w (.inl hb.symm) x hx
    · exact hbuf w (.inr hb.symm) x hx
  · intro h; exact absurd rfl h
  · intro r w a v h; exact absurd h (by simp [State.reset, State.held, Bpu.reset])
  · decide

theorem reset_portLaw : PortLaw State.reset := by
  refine ⟨fun b => ?_, fun h => by simp [State.reset] at h⟩
  cases b <;> simp [State.reset, Wen.reset, Wen.buffer]

/-- No slot of the reset state holds or left a position, has a mark, is fitted, watched or pending. -/
theorem reset_tables (i : Slot) :
    State.reset.mpl.slots.get i = .reset ∧ State.reset.rct.watch.get i = none
      ∧ State.reset.rct.pendingFaults.get i = none ∧ State.reset.rct.progress.get i = none := by
  simp [State.reset, State.held, Mpl.reset, Rct.reset]

theorem reset_slotLaw : SlotLaw State.reset := by
  constructor
  · intro i _; simp [reset_tables, SlotEntry.reset, Role.bypass, Role.isActive]
  · intro i _; simp [reset_tables, SlotEntry.reset]
  · intro i e h; simp [reset_tables] at h
  · intro i e h; simp [reset_tables] at h
  · intro i e h; simp [reset_tables] at h
  · intro _; rfl
  · intro h; exact absurd rfl h

/-- Settles O60: every law by the values of the reset state. -/
theorem resetStateKeepsTheLaws : Obligations.ResetStateKeepsTheLaws := by
  refine ⟨rfl, ⟨⟨rfl, by simp [State.reset, State.held, Hif.reset], rfl⟩, fun h => absurd rfl h, fun h => ?_⟩,
    fun _ => ⟨rfl, rfl, rfl, rfl, rfl, rfl, rfl, rfl, rfl, rfl, rfl, rfl⟩, ?_, ?_, ⟨fun i h => ?_, ?_, ?_⟩, reset_slotLaw,
    ⟨?_, ?_, ?_⟩, reset_gateLaw, reset_portLaw, fun h => absurd rfl h, fun h => absurd rfl h⟩
  · simp [State.reset, State.held, Rct.reset, Timer.stopped] at h
  · simp [Bounded, State.reset, State.held, Rfs.reset, Cap.reset, Log.reset, Hif.reset, Rct.reset]
  · simp [RingInOrder, State.reset, State.held, Log.reset]
  · simp [reset_tables, SlotEntry.reset] at h
  · intro i q h; simp [reset_tables, SlotEntry.reset, Role.place] at h
  · intro i j q _ h; simp [reset_tables, SlotEntry.reset, Role.place] at h
  · intro p l h; simp [State.reset, State.held, Bpu.reset] at h
  · intro r i m g h; simp [State.reset, State.held, Bpu.reset] at h
  · intro p i m t u h; simp [State.reset, State.held, Bpu.reset] at h

/-- A command answers a next state with the same queue. -/
def Answers (s : State) (o : Host.Outcome State Fault Refusal) : Prop := ∃ t, o = .next t ∧ t.pending = s.pending

theorem Answers.next {s t : State} (h : t.pending = s.pending) : Answers s (.next t) := ⟨t, rfl, h⟩

theorem Answers.idle (s : State) : Answers s (.next s) := ⟨s, rfl, rfl⟩

theorem Answers.ite {s : State} {c : Prop} [Decidable c] {o o' : Host.Outcome State Fault Refusal} (h : Answers s o)
    (h' : Answers s o') : Answers s (if c then o else o') := by
  split
  · exact h
  · exact h'

/-- Settles O2: every arm answers its own state or a settled one, and no operation touches the queue. -/
theorem everyCommandAnswersNext : Obligations.EveryCommandAnswersNext := by
  intro c s
  show Answers s (exec c s)
  cases c with
  | powerOnReset => exact .next (by simp [blocksReset])
  | resetNLow =>
    simp only [exec, execResetNLow]; split
    · exact .next (by simp [warmReset, blocksReset])
    · exact .idle s
  | sscSlotTenureEnd far =>
    simp only [exec, execSscSlotTenureEnd]; split
    · exact .next (by simp [ite_state])
    all_goals exact .idle s
  | pldTenureEnd =>
    simp only [exec, execPldTenureEnd]; split
    · exact .next (by simp [ite_state])
    all_goals exact .idle s
  | wenTenureEnd =>
    simp only [exec, execWenTenureEnd]; split
    · split
      · exact .next (by simp)
      all_goals exact .idle s
    all_goals exact .idle s
  | hostPassedAccess a op => cases op <;> exact .next (by simp)
  | armRising =>
    refine .ite (.idle s) ?_
    split <;> exact .next (by simp)
  | armFalling =>
    refine .ite ?_ (.idle s)
    split <;> exact .next (by simp)
  | contactorTimeout =>
    refine .ite ?_ (.idle s)
    split
    · exact .next (by simp)
    · exact .next (by simp)
    all_goals exact .idle s
  | bpuTenureEnd far => simp only [exec, execBpuTenureEnd]; split <;> exact .next (by simp)
  | logRecordComplete => simp only [exec, execLogRecordComplete]; split <;> exact .next (by simp)
  | periodTagWrite => simp only [exec, execPeriodTagWrite]; split <;> exact .next (by simp)
  | directionWrite => simp only [exec, execDirectionWrite]; split <;> exact .next (by simp)
  | proofEvent => simp only [exec, execProofEvent]; split <;> exact .next (by simp)
  | restartEnableWrite => simp only [exec, execRestartEnableWrite]; split <;> exact .next (by simp)
  | consumedWrite => simp only [exec, execConsumedWrite]; split <;> exact .next (by simp)
  | consumerWrite => simp only [exec, execConsumerWrite]; split <;> exact .next (by simp)
  | resetNHigh | brakeSetRising => exact .ite (.idle s) (.next (by simp))
  | brakeSetFalling | oneSecondInterval | budgetExpiry | rechargeTimerExpiry | freshSetTimerExpiry | provingTimerExpiry
  | strikeWindowExpiry | recentlyLostTimerExpiry | identificationWindowExpiry | verifyWindowExpiry | controlPeriodEnd
  | releaseComplete | resetJobComplete | captureDumpComplete => exact .ite (.next (by simp)) (.idle s)
  | frameRising | faultLineEdge | msTick | logicalGateWrite | logicalAmplitudeWrite | logicalAngleWrite
  | logicalCarrierWrite | bypassWord | logicalAuxWrite | outside | logicalCommandRead | logicalStatusRead
  | physicalCommandWrite | planOrImageWrite | captureRegionWrite | logRegionWrite | faultLineInactiveTransition =>
    exact .next (by simp [throughWindow, ite_state])
  | logicalStatusWrite => exact .idle s

end Sys2Proof.Machine
end

