-- ==== Sys2Proof/Proofs/Moves.lean ====
section
/-! What a command can do to the state, said once: the moves of which every command but the two resets is made, each with
what is known where it is made. A law is kept by every step if every move keeps it. -/

namespace Sys2Proof.Machine

/-! ## What a move of one block may do -/

/-- The states behind ARMING and short of LOCKOUT, in which a trip, a lockout or the next state of the sequence comes. -/
def RestartState.underWay : RestartState → Bool
  | .unarmed | .arming | .lockout => false
  | .normal | .tripped | .isolating | .recharging | .verifying | .awaiting | .resuming | .proving => true

/-- What a need accesses, whatever it reports when it is performed. -/
def Need.access : Need → Need
  | .passWrite a v _ => .passWrite a v none
  | .read a l => .read a l
  | .translated r w a v => .translated r w a v
  | .pair r i m g => .pair r i m g
  | .commitAlone p i m _ _ => .commitAlone p i m false false

/-- The fields that no law reads. -/
def freeFields : List Field :=
  [.pins, .counts, .deliveries, .hostData, .lsv, .fin, .phases, .generation, .image, .amplitudeMark, .angleMark, .cursor,
    .cuts, .pending]

/-- Latches empty, and needs leave or are told apart; the access whose tenure runs stays. -/
structure BpuCalm (s : State) (b : Bpu) : Prop where
  isOpen : b.isOpen = s.bpu.isOpen
  latches : ∀ p l, b.latches.get p = some l → s.bpu.latches.get p = some l
  running : (runningNeeds { s with bpu := b }).map Need.access = (runningNeeds s).map Need.access
  waiting : ∀ n ∈ waitingNeeds { s with bpu := b }, ∃ m ∈ waitingNeeds s, m.access = n.access

/-- Timers stop or, outside UNARMED, are loaded; entries leave the sets of the controller, or join them where their laws
let them. -/
structure RctCalm (s : State) (r : Rct) : Prop where
  restart : r.restart = s.rct.restart
  mode : r.mode = s.rct.mode ∨ s.rct.restart = .normal
  passes : r.passCount ≤ s.rct.passCount ∨ r.passCount ≤ s.plan.maxPasses
  contactor : r.contactor.running = true → s.rct.contactor.running = true
  timers : s.rct.restart = .unarmed → timersStopped s.rct → timersStopped r
  watch : ∀ i e, r.watch.get i = some e → ∃ e', s.rct.watch.get i = some e' ∧ e'.awaits = e.awaits
  pending : ∀ i f, r.pendingFaults.get i = some f →
    (∃ f', s.rct.pendingFaults.get i = some f') ∨ (s.mpl.slots.get i).role.isActive = true
  progress : ∀ i q, r.progress.get i = some q → (∃ q', s.rct.progress.get i = some q')
    ∨ (s.mpl.slots.get i).role.isActive = true ∧ (s.rct.restart = .recharging ∨ s.rct.restart = .verifying)

/-- The outputs stay. -/
structure HifCalm (h h' : Hif) : Prop where
  outputs : h'.driveHealthy = h.driveHealthy ∧ h'.permit = h.permit ∧ h'.proofNeeded = h.proofNeeded
  stale : h.stale ≤ 3 → h'.stale ≤ 3
  period : h.period.running = false → h'.period.running = false

/-- The indices lie in the ring, the marks cover it, and every record of the write list ends at a position of it. -/
def Log.inOrder (l : Log) : Prop :=
  0 < l.capacity ∧ l.producer < l.capacity ∧ l.written < l.capacity ∧ l.consumer < l.capacity
    ∧ l.marks.length = l.capacity ∧ ∀ e ∈ l.writeList, e.position < l.capacity ∧ e.next < l.capacity

/-- The log does not start, its write list does not grow, and its ring stays in order. -/
structure LogCalm (l l' : Log) : Prop where
  running : l'.running = true → l.running = true
  capacity : l'.capacity = l.capacity
  writeList : l'.writeList.length ≤ l.writeList.length
  inOrder : l.inOrder → l'.inOrder

/-- The writes of a job bring only BLOCK or RESET to a gate word; a dump is as long as the ring. -/
def GateSafe (s : State) (ws : List JobWrite) : Prop :=
  s.cap.ring.length ≤ 64 → ∀ w ∈ ws, IsGateWord w.addr → w.source = .const 0 ∨ w.source = .const 2

/-- A need that may join: no host write to a protected region while armed (R39, R40), an amplitude of a latch, a translated
word at the slot it names. -/
structure NeedAllowed (s : State) (n : Need) : Prop where
  guarded : s.rct.restart ≠ .unarmed → n.isProtected = false
  pair : ∀ r i m g, n = .pair r i m g → ∃ p l, s.bpu.latches.get p = some l ∧ l.amplitude = m
  alone : ∀ p i m a b, n = .commitAlone p i m a b → ∃ q l, s.bpu.latches.get q = some l ∧ l.amplitude = m
  forwarded : ∀ r w a v, n = .translated r w a v → ∃ i : Slot, a = physicalCommandAddr i w.val

/-- A need that writes no gate word. -/
def Need.LeavesGates (n : Need) : Prop := ∀ x ∈ n.writes, ¬IsGateWord x.1

/-- The state after a change to a new restart state, its records apart; the release in flight leaves with it if told. -/
def changed (new : RestartState) (clear : Bool) (s : State) : State :=
  { s with
    rct := { s.rct.leave new with restart := new }
    hif := s.hif.enter s.rct.restart new s.rct.mode
    rfs := if clear then { s.rfs with stage := none, cursor := none } else s.rfs }

/-- The map that a planning run leaves in force, with the contactor job for what it changes (R115 to R122, R126); the image
job and the records of the run come behind it. -/
def mapTaken (hard : Slot → Bool) (s : State) : State :=
  let r := rebalance s.mpl.table s.plan.rounding s.mpl.k (planRoles hard s)
  let after := commandFitted s.mpl.fitted r.slots
  commandContactors (contactorChanges s.mpl.fitted s.mpl.slots after)
    (s.onMpl fun m => { m with slots := after, phases := setRebalance r m.phases })

/-- Where a change of restart state is made: from a state under way, or as the last contactor is confirmed in ARMING; the release has left with its
jobs before any but the two ends of RESUMING. -/
structure Changes (s : State) (new : RestartState) (clear : Bool) : Prop where
  start : s.rct.restart.underWay = true
    ∨ s.rct.restart = .arming ∧ s.rct.contactor.running = true ∧ ∃ i e, s.rct.watch.get i = some e
  target : new ≠ .unarmed ∧ new ≠ .arming
  resuming : s.rct.restart = .resuming → s.rfs.stage = none ∨ clear = true ∧ (new = .normal ∨ new = .proving)
  clears : clear = true → s.rct.restart = .resuming
  released : s.rct.restart = .normal ∨ s.rct.restart = .proving → new = .normal ∨ new = .proving ∨ NoJobsOf (· == .release) s
  verifying : new = .verifying → s.rct.restart = .recharging
  raised : s.rct.restart = .normal → new ≠ .normal

/-- The pending-fault set is emptied at the pass to ISOLATING; the run takes the HARD faults that stood in it (R99, R114). -/
abbrev clearPending (s : State) : State := s.onRct fun r => { r with pendingFaults := PerSlot.all none }

/-! ## The moves -/

/-- One move. -/
inductive Move : State → State → Prop
  | free {s t : State} : KeepsAllBut freeFields s t → Move s t
  | far {s : State} (far : List FarWrite) : Move s (s.onMem (applyFar far))
  | ssc {s : State} (c : Ssc) : c.enabled = s.ssc.enabled → Move s { s with ssc := c }
  | itm {s : State} (t : Itm) : t.running = s.itm.running → Move s { s with itm := t }
  | cap {s : State} (c : Cap) : (s.cap.ring.length ≤ 64 → c.ring.length ≤ 64) → Move s { s with cap := c }
  | pld {s : State} (p : Pld) : (p.cursor ≠ .none → s.pld.cursor ≠ .none) → Move s { s with pld := p }
  | log {s : State} (l : Log) : LogCalm s.log l → Move s { s with log := l }
  | hif {s : State} (h : Hif) : HifCalm s.hif h → Move s { s with hif := h }
  | rct {s : State} (r : Rct) : RctCalm s r → Move s { s with rct := r }
  | bpu {s : State} (b : Bpu) : BpuCalm s b → Move s { s with bpu := b }
  | aux {s : State} (a : List AuxEntry) : (s.rfs.aux.length ≤ 32 → a.length ≤ 32) →
      Move s { s with rfs := { s.rfs with aux := a } }
  | done {s : State} (d : List JobKind) : Move s { s with wen := { s.wen with done := d } }
  | hand {s : State} (closing : Bool) (c : Category) (code slot arg : Word) : Move s (handRecord closing c code slot arg s)
  | submit {s : State} (k : JobKind) (ws : List JobWrite) : k ≠ .release → GateSafe s ws → Move s (submit k ws s)
  | cancel {s : State} (p : JobKind → Bool) : Move s (cancel p s)
  | push {s : State} (n : Need) : NeedAllowed s n → n.LeavesGates → Move s (pushNeed n s)
  | latch {s : State} (p : Phase) (l : Latch) : l.amplitude.toNat ≤ 32767 → Move s (setLatch p (some l) s)
  | clear {s : State} : NoJobsOf (· == .release) s ∨ s.rct.restart ≠ .resuming → Move s (clearRelease s)
  | change {s : State} (new : RestartState) (clear : Bool) : Changes s new clear → Move s (changed new clear s)
  | contactor {s : State} (t : Timer) : s.rct.restart = .isolating → Move s { s with rct := { s.rct with contactor := t } }
  | park {s : State} : Move s (s.onHif Hif.dropPermit)
  | reproof {s : State} : s.rct.restart = .normal → Move s (s.onHif Hif.raisePermit)
  | convert {s : State} : s.rct.restart.inSequence = true →
      Move s ((s.onRct fun r => { r with mode := .standstill, budget := r.budget.stop }).onHif
        fun h => { h.bothLow with proofNeeded := true })
  | quarantine {s : State} (i : Slot) : (s.mpl.slots.get i).role.reports = true → (s.mpl.slots.get i).role.isActive = false →
      Move s (s.onMpl fun m => { m with slots := m.slots.modify i SlotEntry.bypassFault })
  | planned {s : State} : s.rct.restart = .isolating →
      shortPhase s.plan.minActive (mapTaken (hardPending s.rct) (clearPending s)).mpl.slots = none →
      Move s (mapTaken (hardPending s.rct) (clearPending s))
  | quiesce {s : State} : s.log.running = false →
      (NoJobsOf (· == .release) s ∨ s.rct.restart = .arming ∨ s.pld.cursor ≠ .none) → Move s (quiesce s)
  | discard {s : State} : Move s (discardRead s)
  | endRead {s : State} : (∃ i d, s.mpa.holder = some (.ssc i d)) ∨ (∃ d, s.mpa.holder = some (.pld d)) →
      Move s (releasePort s)
  | endWen {s : State} (b : BufferId) (u : Burst) : s.mpa.holder = some (.wen b) → s.wen.buffer b = .writing u →
      Move s (endBuffer b u s)

/-- One move at the port, with which a command ends: a need that may write a gate word joins, a BPU tenure ends, and the
settling's stagings, steps of the release and grants. -/
inductive PortMove : State → State → Prop
  | join {s : State} (n : Need) : NeedAllowed s n → (∀ r a v, n = .translated r 0 a v → s.rct.restart = .normal) →
      PortMove s (pushNeed n s)
  | endBpu {s : State} : s.mpa.holder = some .bpu → PortMove s (endBpuTenure s)
  | stage {s : State} (b : BufferId) (c : JobClass) (j : Job) : s.wen.buffer b = .empty → j ∈ s.wen.jobs c →
      PortMove s (stageJob b c j s)
  | drained {s : State} (b : BufferId) (ws : List (Addr × Word)) : s.wen.buffer b = .empty →
      (∀ x ∈ ws, ∃ (i : Slot) (a : Fin 3), x.1 = physicalCommandAddr i (5 + a.val)) →
      PortMove s (s.onWen fun w => w.ready b ⟨.release, ws, none, false⟩)
  | wait {s : State} : inAuxiliary s = true → PortMove s (s.onRfs fun f => { f with stage := some (.auxiliary true) })
  | advance {s : State} : PortMove s (releaseAdvance s)
  | grantRead {s : State} (h : Holder) : s.mpa.holder = none → readInProgress s = some h →
      PortMove s (s.onMpa fun m => { m with holder := some h })
  | grantWen {s : State} (b : BufferId) (u : Burst) : s.mpa.holder = none → s.wen.buffer b = .ready u →
      PortMove s ((s.onMpa fun _ => ⟨some (.wen b), wenFair b s⟩).onWen (startBuffer b))
  | grantBpu {s : State} (n : Need) (rest : List Need) : s.mpa.holder = none → s.bpu.needs = n :: rest →
      stillLive s n = true → PortMove s (s.onMpa fun _ => ⟨some .bpu, bpuFair s⟩)
  | stop {s : State} (n : Need) (rest : List Need) : s.mpa.holder = none → s.bpu.needs = n :: rest →
      stillLive s n = false → PortMove s (stopNeed n (s.onMpa fun m => { m with fair := bpuFair s }))

/-- Some moves in a row. -/
abbrev Moves : State → State → Prop := Relation.ReflTransGen Move

theorem Move.moves {s t : State} (h : Move s t) : Moves s t := .single h

/-- A law that every move keeps is kept by moves in a row. -/
theorem Moves.keeps {P : State → Prop} (hP : ∀ s t, Move s t → P s → P t) {s t : State} (h : Moves s t) (hs : P s) : P t := by
  induction h with
  | refl => exact hs
  | tail _ m ih => exact hP _ _ m ih

/-- A move that leaves the controller, the needs and the port: the list and the records of the drain, an answer. -/
def DrainMove (s t : State) : Prop := Move s t ∧ t.rct = s.rct ∧ t.bpu.needs = s.bpu.needs ∧ t.mpa = s.mpa

/-- The settling of the port: moves at the port, and those of the drain. -/
abbrev Settling : State → State → Prop := Relation.ReflTransGen fun s t => DrainMove s t ∨ PortMove s t

theorem PortMove.settling {s t : State} (h : PortMove s t) : Settling s t := .single (.inr h)

/-- A law that every move keeps, those of the port's work too, is kept by the settling. -/
theorem Settling.keeps {P : State → Prop} (hm : ∀ s t, Move s t → P s → P t) (hp : ∀ s t, PortMove s t → P s → P t)
    {s t : State} (h : Settling s t) (hs : P s) : P t := by
  induction h with
  | refl => exact hs
  | tail _ m ih => exact m.elim (fun m => hm _ _ m.1 ih) fun m => hp _ _ m ih

/-- Settling of a choice. -/
theorem settling_ite {c : Prop} [Decidable c] {s t u : State} (h : c → Settling s t) (h' : ¬c → Settling s u) :
    Settling s (if c then t else u) := by
  split
  · next hc => exact h hc
  · next hc => exact h' hc

/-- A fold of moves. -/
theorem foldl_moves {α : Type} (f : State → α → State) (hf : ∀ s a, Moves s (f s a)) (l : List α) (s : State) :
    Moves s (l.foldl f s) := by
  induction l generalizing s with
  | nil => exact .refl
  | cons a l ih => exact (hf s a).trans (ih _)

end Sys2Proof.Machine
end

