-- ==== Sys2Proof/Proofs/SharedMoves.lean ====
section
/-! The moves of which the shared operations are made: counts, records, jobs, the capture ring, the pair latches, and a
change of restart state with its records. -/

namespace Sys2Proof.Machine

/-! ## Updates of the fields that no law reads -/

theorem pins_move (f : Pins → Pins) (s : State) : Move s (s.onPins f) :=
  .free fun g hg => by cases g <;> simp_all [freeFields, Field.same]

theorem fin_move (f : Intake → Intake) (s : State) : Move s (s.onFin f) :=
  .free fun g hg => by cases g <;> simp_all [freeFields, Field.same]

theorem lsv_move (f : PerSlot LinkRecord → PerSlot LinkRecord) (s : State) : Move s (s.onLsv f) :=
  .free fun g hg => by cases g <;> simp_all [freeFields, Field.same]

/-- A count of the refusals or of the phase records, the deliveries and the word on HD. -/
theorem counted_move (c : RefusalCounts) (ph : PerPhase PhaseRecord) (s : State) :
    Move s { s with bpu := { s.bpu with counts := c }, mpl := { s.mpl with phases := ph } } :=
  .free fun g hg => by cases g <;> simp_all [freeFields, Field.same]

theorem counts_move (f : Bpu → Bpu) (s : State)
    (h : ∃ c, f s.bpu = { s.bpu with counts := c }) : Move s (s.onBpu f) := by
  obtain ⟨c, hc⟩ := h
  have := counted_move c s.mpl.phases s
  rwa [← hc] at this

theorem phases_move (f : Mpl → Mpl) (s : State) (h : ∃ ph, f s.mpl = { s.mpl with phases := ph }) :
    Move s (s.onMpl f) := by
  obtain ⟨ph, hp⟩ := h
  have := counted_move s.bpu.counts ph s
  rwa [← hp] at this

theorem generation_move (f : Mpl → Mpl) (s : State) (h : ∃ n, f s.mpl = { s.mpl with generation := n }) :
    Move s (s.onMpl f) := by
  obtain ⟨n, hn⟩ := h
  exact .free fun g hg => by cases g <;> simp_all [freeFields, Field.same]

theorem deliveries_move (f : Bpu → Bpu) (s : State) (h : ∃ d, f s.bpu = { s.bpu with deliveries := d }) :
    Move s (s.onBpu f) := by
  obtain ⟨n, hn⟩ := h
  exact .free fun g hg => by cases g <;> simp_all [freeFields, Field.same]

theorem answerHost_move (v : Word) (s : State) : Move s (answerHost v s) :=
  .free fun g hg => by cases g <;> simp_all [freeFields, Field.same, answerHost]

/-- An update of the Reference Store but for the auxiliary list and the stage of a release. -/
theorem marks_move (f : Rfs → Rfs) (ha : ∀ r, (f r).aux = r.aux) (hs : ∀ r, (f r).stage = r.stage) (s : State) :
    Move s (s.onRfs f) :=
  .free fun g hg => by cases g <;> simp_all [freeFields, Field.same]

theorem setImage_move (r : Rec) (f : RefRecord → RefRecord) (s : State) : Move s (setImage r f s) :=
  marks_move _ (by exact fun _ => rfl) (by exact fun _ => rfl) s

theorem clearMarks_move (s : State) : Move s (clearMarks s) := 
  marks_move _ (by exact fun _ => rfl) (by exact fun _ => rfl) s

theorem countRefusal_moves (f : RefusalCounts → RefusalCounts) (s : State) : Moves s (countRefusal f s) := by
  refine (counts_move _ s ?_).moves
  split
  · exact ⟨_, rfl⟩
  · exact ⟨s.bpu.counts, rfl⟩

theorem countSaturation_moves (p : Phase) (s : State) : Moves s (countSaturation p s) :=
  (phases_move _ s ⟨_, rfl⟩).moves.trans (countRefusal_moves ..)

/-- Moves of a choice. -/
theorem moves_ite {c : Prop} [Decidable c] {s t u : State} (h : c → Moves s t) (h' : ¬c → Moves s u) :
    Moves s (if c then t else u) := by
  split
  · next hc => exact h hc
  · next hc => exact h' hc

/-! ## Records -/

theorem handRecord_moves (closing : Bool) (c : Category) (code slot arg : Word) (s : State) :
    Moves s (handRecord closing c code slot arg s) := (Move.hand closing c code slot arg).moves

theorem logRecord_moves (c : Category) (code slot arg : Word) (s : State) : Moves s (logRecord c code slot arg s) :=
  handRecord_moves ..

theorem hoistRecord_moves (code arg : Word) (s : State) : Moves s (hoistRecord code arg s) := logRecord_moves ..

theorem linkRecord_moves (code : Word) (i : Slot) (arg : Word) (s : State) : Moves s (linkRecord code i arg s) :=
  logRecord_moves ..

/-- What leaves the ring in order and neither starts the log nor adds to its write list. -/
theorem LogCalm.of_fields {l l' : Log} (running : l'.running = true → l.running = true) (capacity : l'.capacity = l.capacity)
    (producer : l.inOrder → l'.producer < l.capacity) (written : l.inOrder → l'.written < l.capacity)
    (consumer : l.inOrder → l'.consumer < l.capacity) (marks : l'.marks.length = l.marks.length)
    (writeList : l'.writeList <:+ l.writeList ∨ l'.writeList = [] ∨ ∃ p, l'.writeList = l.writeList.filter p) :
    LogCalm l l' := by
  have hsub : l'.writeList.Sublist l.writeList := by
    rcases writeList with h | h | ⟨p, h⟩
    · exact h.sublist
    · rw [h]; exact List.nil_sublist _
    · rw [h]; exact List.filter_sublist
  refine ⟨running, capacity, hsub.length_le, fun h => ?_⟩
  have h' := h
  obtain ⟨h1, -, -, -, h5, h6⟩ := h'
  refine ⟨capacity ▸ h1, capacity ▸ producer h, capacity ▸ written h, capacity ▸ consumer h, by omega, fun e he => ?_⟩
  rw [capacity]
  exact h6 e (hsub.subset he)

theorem logCompleted_moves (closing : Bool) (s : State) : Moves s (logCompleted closing s) := by
  refine (Move.log _ ?_).moves
  have base : ∀ l : Log, (l.writeList = [] ∧ l.retire = l)
      ∨ ∃ e r, l.writeList = e :: r ∧ l.retire = { l with written := e.next, lastCategory := e.category.code, writeList := r } := by
    intro l
    cases h : l.writeList with
    | nil => left; exact ⟨rfl, by simp [Log.retire, h]⟩
    | cons e r => right; exact ⟨e, r, rfl, by simp [Log.retire, h]⟩
  dsimp only
  rcases base s.log with ⟨h, hr⟩ | ⟨e, r, h, hr⟩ <;> rw [hr] <;> split <;>
    refine LogCalm.of_fields id rfl (fun h => h.2.1) ?_ (fun h => h.2.2.2.1) rfl (.inl (by simp [Log.holdIrq, Log.updateIrq, h]))
  · exact fun h => h.2.2.1
  · exact fun h => h.2.2.1
  · intro ho; exact (ho.2.2.2.2.2 e (by simp [h])).2
  · intro ho; exact (ho.2.2.2.2.2 e (by simp [h])).2

theorem takeDone_moves (k : JobKind) (s : State) : Moves s (takeDone k s) := (Move.done _).moves

theorem takeRecordCompletion_moves (k : JobKind) (s : State) : Moves s (takeRecordCompletion k s) :=
  (takeDone_moves k s).trans (logCompleted_moves ..)

theorem takeRecordCompletions_moves (s : State) : Moves s (takeRecordCompletions s) :=
  foldl_moves (fun t k => takeRecordCompletion k t) (fun t k => takeRecordCompletion_moves k t) _ s

/-! ## Jobs -/

theorem IsGateWord.bounds {a : Addr} (h : IsGateWord a) : 0x200 ≤ a.toNat ∧ a.toNat < 0x2C0 ∧ a.toNat % 8 = 0 := by
  obtain ⟨i, rfl⟩ := h
  simp [physicalCommandAddr]
  omega

/-- Word w of a command record is no gate word but word 0. -/
theorem not_isGateWord_of_word (i : Slot) {w : Nat} (h : 0 < w) (h8 : w < 8) : ¬IsGateWord (physicalCommandAddr i w) := by
  intro hg
  have := hg.bounds
  simp [physicalCommandAddr] at this
  omega

/-- A job that writes BLOCK or RESET only. -/
theorem GateSafe.of_const {s : State} {ws : List JobWrite} {v : Word} (hv : v = 0 ∨ v = 2) (h : ∀ w ∈ ws, w.source = .const v) :
    GateSafe s ws := by
  intro _ w hw _
  rcases hv with rfl | rfl
  · exact .inl (h w hw)
  · exact .inr (h w hw)

/-- A job that writes no gate word. -/
theorem GateSafe.of_addr {s : State} {ws : List JobWrite} (h : s.cap.ring.length ≤ 64 → ∀ w ∈ ws, ¬IsGateWord w.addr) :
    GateSafe s ws := fun hl w hw hg => absurd hg (h hl w hw)

/-- A job that writes one value to word 0 of some slots. -/
theorem submit_gates_moves (k : JobKind) (hk : k ≠ .release) {v : Word} (hv : v = 0 ∨ v = 2) (l : List Slot) (s : State) :
    Moves s (submit k (gateTo v l) s) :=
  (Move.submit k _ hk (.of_const hv fun w hw => by
    obtain ⟨i, _, rfl⟩ := List.mem_map.1 hw
    rfl)).moves

theorem blockAll_moves (s : State) : Moves s (blockAll s) := submit_gates_moves .blockAll (by simp) (.inl rfl) _ s

theorem submitResetBlock_moves (s : State) : Moves s (submitResetBlock s) :=
  submit_gates_moves .resetBlock (by simp) (.inl rfl) _ s

theorem queueOverflowHeader_moves (s : State) : Moves s (queueOverflowHeader s) := by
  unfold queueOverflowHeader
  split
  · exact .refl
  · refine (Move.submit _ _ (by simp) (.of_addr fun _ w hw hg => ?_)).moves
    have := hg.bounds
    simp [overflowWrite] at hw
    subst hw
    simp [logHeaderAddr] at this

theorem queueMapImage_moves (d : Bool) (s : State) : Moves s (queueMapImage d s) := by
  unfold queueMapImage
  split
  · exact .refl
  · refine (Move.submit _ _ (by simp) (.of_addr fun _ w hw hg => ?_)).moves
    have := hg.bounds
    obtain ⟨o, ho, rfl⟩ := List.mem_map.1 hw
    simp at ho
    simp [mapImageAddr] at this
    omega

theorem bumpGeneration_moves (s : State) : Moves s (bumpGeneration s) :=
  (generation_move _ s ⟨_, rfl⟩).moves.trans (queueMapImage_moves ..)

/-! ## The capture ring (R88 to R93) -/

theorem captureHeaderWrite_addr {w : JobWrite} (hw : w ∈ captureHeaderWrites) : ¬IsGateWord w.addr := by
  intro hg
  have := hg.bounds
  obtain ⟨o, ho, rfl⟩ := List.mem_map.1 hw
  simp at ho
  simp [captureHeaderAddr] at this
  omega

theorem captureStateWord_addr : ¬IsGateWord (captureHeaderAddr 0) := fun hg => by
  have := hg.bounds
  simp [captureHeaderAddr] at this

theorem queueCaptureHeader_moves (s : State) : Moves s (queueCaptureHeader s) := by
  refine (Move.submit _ _ (by simp) (.of_addr fun _ w hw => ?_)).moves
  rcases List.mem_append.1 hw with hw | hw
  · exact captureHeaderWrite_addr hw
  · simp at hw; subst hw; exact captureStateWord_addr

theorem queueCaptureDump_moves (s : State) : Moves s (queueCaptureDump s) := by
  refine (Move.submit _ _ (by simp) (.of_addr fun hl w hw => ?_)).moves
  simp only [List.append_assoc, List.mem_append] at hw
  rcases hw with hw | hw | hw
  · exact captureHeaderWrite_addr hw
  · intro hg
    have := hg.bounds
    simp at hw
    obtain ⟨e, he, o, ho, rfl⟩ := hw
    simp [captureEntryAddr] at this
    omega
  · simp at hw; subst hw; exact captureStateWord_addr

theorem cap_moves (f : Cap → Cap) (h : ∀ c, (f c).ring.length ≤ 64 ∨ (f c).ring.length ≤ c.ring.length) (s : State) :
    Moves s (s.onCap f) :=
  (Move.cap _ fun hl => (h s.cap).elim id fun h => by omega).moves

theorem freezeRing_moves (s : State) : Moves s (freezeRing s) :=
  (cap_moves _ (by exact fun _ => .inr le_rfl) s).trans (queueCaptureDump_moves _)

theorem appendCapture_length (l : List CaptureEntry) (e : CaptureEntry) : (appendCapture l e).length ≤ 64 := by
  simp [appendCapture, Config.ringCapacity]; omega

theorem recordCapture_moves (r : Rec) (w : Fin 8) (v : Word) (s : State) : Moves s (recordCapture r w v s) := by
  have h : Moves s (s.onCap fun c => { c with ring := appendCapture c.ring ⟨r, w, v, lowHalf s.itm.frames⟩ }) :=
    cap_moves _ (by exact fun c => .inl (appendCapture_length ..)) s
  refine moves_ite (fun _ => ?_) fun _ => .refl
  dsimp only
  split
  · exact h
  · exact h.trans (moves_ite (fun _ => freezeRing_moves _) fun _ => cap_moves _ (by exact fun _ => .inr le_rfl) _)

theorem captureTrigger_moves (k : TriggerKind) (s : State) : Moves s (captureTrigger k s) := by
  refine moves_ite (fun _ => ?_) fun _ => cap_moves _ (by exact fun _ => .inr le_rfl) s
  have h : Moves s (s.onCap fun c => { c with kind := k, stamp := s.itm.frames }) :=
    cap_moves _ (by exact fun _ => .inr le_rfl) s
  exact (h.trans (logRecord_moves ..)).trans
    (moves_ite (fun _ => freezeRing_moves _) fun _ => cap_moves _ (by exact fun _ => .inr le_rfl) _)

theorem captureRange_moves (v : Word) (s : State) : Moves s (captureRange v s) :=
  (cap_moves (fun c => { c with range := if rangeInside s.plan v then .inside else .outside })
    (by exact fun _ => .inr le_rfl) s).trans (moves_ite (fun _ => captureTrigger_moves ..) fun _ => .refl)

theorem consumeCapture_moves (s : State) : Moves s (consumeCapture s) := by
  have h : Moves s (s.onCap fun c => { c with ring := [], state := .running }) :=
    cap_moves _ (by exact fun _ => .inl (by simp)) s
  exact moves_ite (fun _ => (h.trans (queueCaptureHeader_moves _)).trans (logRecord_moves ..)) fun _ => .refl

theorem captureDumpCancelled_moves (s : State) : Moves s (captureDumpCancelled s) :=
  cap_moves _ (by intro c; right; split <;> rfl) s

theorem captureDumped_moves (s : State) : Moves s (captureDumped s) :=
  (cap_moves _ (by exact fun _ => .inr le_rfl) s).trans (logRecord_moves ..)

/-! ## The needs and the pair latches of the passage -/

/-- An update of the passage that leaves its needs and sets no latch. -/
theorem bpu_moves (f : Bpu → Bpu) (s : State) (ho : (f s.bpu).isOpen = s.bpu.isOpen) (hn : (f s.bpu).needs = s.bpu.needs)
    (hl : ∀ p l, (f s.bpu).latches.get p = some l → s.bpu.latches.get p = some l) : Moves s (s.onBpu f) := by
  refine (Move.bpu _ ⟨ho, hl, ?_, fun n hn' => ⟨n, ?_, rfl⟩⟩).moves
  · simp [runningNeeds, hn]
  · simpa [waitingNeeds, hn] using hn'

theorem setLatch_none_moves (p : Phase) (s : State) : Moves s (setLatch p none s) :=
  bpu_moves _ s rfl rfl fun q l h => by
    rw [PerPhase.get_set] at h
    split at h
    · exact absurd h (by simp)
    · exact h

theorem pushNeed_moves {n : Need} {s : State} (h : NeedAllowed s n) (hg : n.LeavesGates) : Moves s (pushNeed n s) :=
  (Move.push n h hg).moves

/-- The words of a need that goes to words of one command record, word 0 apart. -/
theorem Need.leavesGates_of_word {n : Need} (i : Slot)
    (h : ∀ x ∈ n.writes, ∃ w, 0 < w ∧ w < 8 ∧ x.1 = physicalCommandAddr i w) : n.LeavesGates := fun x hx hg => by
  obtain ⟨w, h0, h8, e⟩ := h x hx
  exact not_isGateWord_of_word i h0 h8 (e ▸ hg)

theorem leavesGates_commitAlone (p : Phase) (i : Slot) (m : Word) (a b : Bool) : (Need.commitAlone p i m a b).LeavesGates :=
  Need.leavesGates_of_word i (by simpa [Need.writes] using ⟨1, by simp⟩)

theorem leavesGates_pair (r : Rec) (i : Slot) (m g : Word) : (Need.pair r i m g).LeavesGates :=
  Need.leavesGates_of_word i (by simpa [Need.writes] using ⟨⟨1, by simp⟩, ⟨2, by simp⟩⟩)

theorem leavesGates_translated (r : Rec) {w : Fin 8} (i : Slot) (v : Word) (hw : w ≠ 0) :
    (Need.translated r w (physicalCommandAddr i w.val) v).LeavesGates :=
  Need.leavesGates_of_word i (by
    have : 0 < w.val := Nat.pos_of_ne_zero fun e => hw (Fin.ext e)
    simpa [Need.writes] using ⟨w.val, this, w.isLt, rfl⟩)

theorem leavesGates_read (a : Addr) (l : Bool) : (Need.read a l).LeavesGates := by simp [Need.LeavesGates, Need.writes]

theorem commitAlone_moves (p : Phase) (l : Latch) (s : State) (h : latchOf s p = some l) : Moves s (commitAlone p l s) := by
  have h1 : Moves s (s.onMpl fun m => { m with phases := m.phases.modify p fun r => { r with torn := satInc r.torn } }) :=
    (phases_move _ s ⟨_, rfl⟩).moves
  refine (h1.trans (countRefusal_moves ..)).trans 
    (Relation.ReflTransGen.trans (pushNeed_moves ?_ (leavesGates_commitAlone _ _ _ _ _)) (setLatch_none_moves ..))
  refine ⟨fun _ => rfl, ?_, ?_, ?_⟩
  · intro r i m g e; exact absurd e (by simp)
  · intro q i m a b e
    obtain ⟨-, -, rfl, -, -⟩ := Need.commitAlone.inj e
    exact ⟨p, l, by simpa [latchOf] using h, rfl⟩
  · intro r w a v e; exact absurd e (by simp)

theorem commitOther_moves (r : Rec) (s : State) : Moves s (commitOther r s) := by
  unfold commitOther
  split
  · next l hl =>
    split
    · exact .refl
    · exact commitAlone_moves _ l s hl
  · exact .refl

theorem commitPhase_moves (p : Phase) (s : State) : Moves s (commitPhase p s) := by
  unfold commitPhase
  split
  · next l hl => exact commitAlone_moves p l s hl
  · exact .refl

theorem commitAll_moves (s : State) : Moves s (commitAll s) :=
  foldl_moves (fun t p => commitPhase p t) (fun t p => commitPhase_moves p t) _ s

theorem uncountCommit_moves (n : Need) (s : State) : Moves s (uncountCommit n s) := by
  unfold uncountCommit
  split
  · refine (moves_ite (fun _ => ?_) fun _ => .refl).trans (moves_ite (fun _ => ?_) fun _ => .refl)
    · exact (phases_move _ s ⟨_, rfl⟩).moves
    · exact (counts_move _ _ ⟨_, rfl⟩).moves
  all_goals exact .refl

theorem emptyLatches_moves (s : State) : Moves s (emptyLatches s) := by
  unfold emptyLatches
  refine (foldl_moves (fun t n => uncountCommit n t) (fun t n => uncountCommit_moves n t) _ s).trans (Move.bpu _ ?_).moves
  refine ⟨by simp, fun p l h => by simp at h, ?_, ?_⟩
  · by_cases h : s.mpa.holder = some .bpu
    · cases hs : s.bpu.needs <;> simp [runningNeeds, waitingNeeds, h, hs]
    · simp [runningNeeds, h]
  · intro n hn
    refine ⟨n, ?_, rfl⟩
    by_cases h : s.mpa.holder = some .bpu
    · cases hs : s.bpu.needs with
      | nil => simp [waitingNeeds, runningNeeds, h, hs] at hn
      | cons a l => simp [waitingNeeds, runningNeeds, h, hs] at hn ⊢; exact hn.1
    · simp [waitingNeeds, runningNeeds, h] at hn ⊢
      exact hn.1

/-! ## A change of restart state (R95, R100, R155) -/

theorem hoistEnter_moves (old new : RestartState) {m : Mode} (s : State) (hm : s.rct.mode = m) :
    Moves (s.onHif fun h => h.enter old new m) (hoistEnter old new s) := by
  subst hm
  unfold hoistEnter
  dsimp only
  split
  · exact hoistRecord_moves ..
  · split
    · exact hoistRecord_moves ..
    · exact .refl

/-- The latches at a change of state (R54). -/
def latchesLeft (new : RestartState) (s : State) : State :=
  if s.rct.restart.latching && !new.latching then emptyLatches s else s

theorem latchesLeft_moves (new : RestartState) (s : State) : Moves s (latchesLeft new s) := by
  unfold latchesLeft
  split
  · exact emptyLatches_moves s
  · exact .refl

@[simp] theorem latchesLeft_frame (new : RestartState) (s : State) :
    (latchesLeft new s).rct = s.rct ∧ (latchesLeft new s).rfs = s.rfs ∧ (latchesLeft new s).wen = s.wen
      ∧ (latchesLeft new s).hif = s.hif ∧ (latchesLeft new s).mpa = s.mpa ∧ (latchesLeft new s).pld = s.pld := by
  unfold latchesLeft; split <;> simp

/-- A change of state is the latches, the change itself and its records. -/
theorem enter_moves_changed (new : RestartState) (slot arg : Word) (s : State) :
    Moves (changed new false (latchesLeft new s)) (enter new slot arg s) := by
  have h := hoistEnter_moves s.rct.restart new (m := s.rct.mode)
    ((latchesLeft new s).onRct fun r => { r.leave new with restart := new }) (by simp)
  have e : ((latchesLeft new s).onRct fun r => { r.leave new with restart := new }).onHif
      (fun h => h.enter s.rct.restart new s.rct.mode) = changed new false (latchesLeft new s) := by
    simp [changed, State.onRct, State.onHif]
  rw [e] at h
  exact h.trans (logRecord_moves ..)

theorem Changes.of_frame {s t : State} {new : RestartState} {clear : Bool} (h : Changes s new clear) (hr : t.rct = s.rct)
    (hf : t.rfs.stage = s.rfs.stage) (hw : t.wen = s.wen) : Changes t new clear := by
  obtain ⟨h1, h2, h3, h4, h5, h6, h7⟩ := h
  refine ⟨by rwa [hr], h2, by rwa [hr, hf], by rwa [hr], ?_, by rwa [hr], by rwa [hr]⟩
  rw [hr]
  refine fun h => (h5 h).imp id (Or.imp id fun hn => ?_)
  simpa [NoJobsOf, hw] using hn

theorem enter_moves {new : RestartState} {s : State} (h : Changes s new false) (slot arg : Word) :
    Moves s (enter new slot arg s) :=
  ((latchesLeft_moves new s).tail (Move.change new false (h.of_frame (by simp) (by simp) (by simp)))).trans
    (enter_moves_changed ..)

end Sys2Proof.Machine
end

