-- ==== Sys2Proof/Proofs/BlockMoves.lean ====
section
/-! The moves of the Restart Controller: lockout, trip, the return to UNARMED, and the pass from TRIPPED to RESUMING. -/

namespace Sys2Proof.Machine

/-! ## Updates of one block -/

/-- An update of the controller that stops or keeps its timers and keeps or empties its sets. -/
theorem RctCalm.of_fields {s : State} {r : Rct} (restart : r.restart = s.rct.restart) (mode : r.mode = s.rct.mode)
    (passes : r.passCount ≤ s.rct.passCount ∨ r.passCount ≤ s.plan.maxPasses)
    (contactor : r.contactor.running = true → s.rct.contactor.running = true)
    (timers : s.rct.restart = .unarmed → timersStopped s.rct → timersStopped r)
    (watch : r.watch = s.rct.watch) (pending : r.pendingFaults = s.rct.pendingFaults ∨ r.pendingFaults = PerSlot.all none)
    (progress : r.progress = s.rct.progress ∨ r.progress = PerSlot.all none) : RctCalm s r := by
  refine ⟨restart, .inl mode, passes, contactor, timers, fun i e h => ⟨e, watch ▸ h, rfl⟩, fun i f h => ?_, fun i q h => ?_⟩
  · rcases pending with e | e
    · exact .inl ⟨f, e ▸ h⟩
    · simp [e] at h
  · rcases progress with e | e
    · exact .inl ⟨q, e ▸ h⟩
    · simp [e] at h

/-- An update of the controller that touches neither its timers nor its sets. -/
theorem RctCalm.of_same {s : State} {r : Rct} (h : ∃ a b c d e f g o w, r = { s.rct with
    cause := a, tripCause := b, settlingSeen := c, scanSinceTrip := d, direction := e, directionAtTrip := f
    restartEnable := g, gateOpen := o, resetWritten := w }) : RctCalm s r := by
  obtain ⟨a, b, c, d, e, f, g, o, w, rfl⟩ := h
  exact .of_fields rfl rfl (.inl le_rfl) id (fun _ h => h) rfl (.inl rfl) (.inl rfl)

theorem rct_moves (f : Rct → Rct) (s : State) (h : RctCalm s (f s.rct)) : Moves s (s.onRct f) := (Move.rct _ h).moves

/-- An update of registers of the controller that no law reads. -/
theorem registers_moves (f : Rct → Rct) (s : State) (h : ∃ a b c d e g i o w, f s.rct = { s.rct with
    cause := a, tripCause := b, settlingSeen := c, scanSinceTrip := d, direction := e, directionAtTrip := g
    restartEnable := i, gateOpen := o, resetWritten := w }) : Moves s (s.onRct f) := rct_moves f s (.of_same h)

theorem hif_moves (f : Hif → Hif) (s : State) (h : HifCalm s.hif (f s.hif)) : Moves s (s.onHif f) := (Move.hif _ h).moves

theorem ssc_moves (f : Ssc → Ssc) (s : State) (h : (f s.ssc).enabled = s.ssc.enabled) : Moves s (s.onSsc f) :=
  (Move.ssc _ h).moves

theorem log_moves (f : Log → Log) (s : State) (h : LogCalm s.log (f s.log)) : Moves s (s.onLog f) := (Move.log _ h).moves

theorem pld_moves (f : Pld → Pld) (s : State) (h : (f s.pld).cursor ≠ .none → s.pld.cursor ≠ .none) : Moves s (s.onPld f) :=
  (Move.pld _ h).moves

/-! ## Jobs that leave -/

theorem NoJobsOf.mono {p q : JobKind → Bool} {s : State} (h : NoJobsOf p s) (hq : ∀ k, p k = false → q k = false) :
    NoJobsOf q s := by
  obtain ⟨h1, h2, h3⟩ := h
  exact ⟨fun j hj => hq _ (h1 j hj), fun b w hw => hq _ (h2 b w hw), fun k hk => hq _ (h3 k hk)⟩

theorem NoJobsOf.of_wen {p : JobKind → Bool} {s t : State} (h : NoJobsOf p s) (e : t.wen = s.wen) : NoJobsOf p t := by
  simpa [NoJobsOf, e] using h

theorem NoJobsOf.release {p : JobKind → Bool} {s : State} (h : NoJobsOf p s) (hp : p .release = true) :
    NoJobsOf (· == .release) s :=
  h.mono fun k hk => by cases k <;> simp_all

theorem cancelSequenceJobs_noRelease (s : State) : NoJobsOf (· == .release) (cancelSequenceJobs s) :=
  (cancelSequenceJobs_noJobs s).release rfl

theorem cancelSequenceJobs_moves (s : State) : Moves s (cancelSequenceJobs s) :=
  (Relation.ReflTransGen.single (Move.cancel JobKind.ofSequence)).tail
    (Move.clear (.inl ((noJobsOf_cancel JobKind.ofSequence s).release rfl)))

theorem abandonRelease_moves (s : State) : Moves s (abandonRelease s) :=
  (Relation.ReflTransGen.single (Move.cancel _)).tail (Move.clear (.inl (noJobsOf_cancel _ s)))

theorem abandonRelease_noRelease (s : State) : NoJobsOf (· == .release) (abandonRelease s) :=
  (noJobsOf_cancel (· == .release) s).of_wen (by simp [abandonRelease])

/-! ## Lockout and trip (R96, R97, R108) -/

/-- From a state under way whose release has left, any state but the unarmed ones can be entered. -/
theorem Changes.of_underWay {s : State} {new : RestartState} (h : s.rct.restart.underWay = true) (hn : new.underWay = true ∨ new = .lockout)
    (hv : new = .verifying → s.rct.restart = .recharging) (hr : s.rct.restart = .normal → new ≠ .normal)
    (hs : s.rfs.stage = none) (hj : NoJobsOf (· == .release) s) : Changes s new false := by
  refine ⟨.inl h, ?_, fun _ => .inl hs, fun h => by simp at h, fun _ => .inr (.inr hj), hv, hr⟩
  cases new <;> simp_all [RestartState.underWay]

theorem enterLockout_moves {s : State} (h : s.rct.restart.underWay = true) (c : LockoutCause) :
    Moves s (enterLockout c s) := by
  have h1 : Moves s (cancelSequenceJobs (blockAll s)) := (blockAll_moves s).trans (cancelSequenceJobs_moves _)
  refine Relation.ReflTransGen.tail ?_ (fin_move _ _)
  refine (h1.trans (rct_moves _ _ ?_)).trans (enter_moves ?_ _ _)
  · exact .of_fields rfl rfl (.inl le_rfl) (fun h => by simp [Rct.stopTimers, Timer.stop] at h)
      (fun _ _ => stopTimers_stopped _) rfl (.inr rfl) (.inl rfl)
  · refine .of_underWay (by simpa using h) (.inr rfl) (by simp) (by simp) ?_ ?_
    · exact (cancelSequenceJobs_released _).1
    · exact cancelSequenceJobs_noRelease _

theorem firstTrip_moves {s : State} (h : s.rct.restart = .normal) : Moves s (firstTrip s) := by
  refine (rct_moves _ _ ?_).tail (clearMarks_move _)
  refine ⟨rfl, .inr h, .inl (Nat.zero_le _), id, fun hu => ?_, fun i e he => ⟨e, he, rfl⟩, fun i f hf => .inl ⟨f, hf⟩,
    fun i q hq => .inl ⟨q, hq⟩⟩
  exact absurd (h.symm.trans hu) (by simp)

theorem trip_moves {s : State} (h : s.rct.restart.underWay = true) (cause : TripCause) {entry : Option (Slot × PendingFault)}
    (he : ∀ i f, entry = some (i, f) → (s.mpl.slots.get i).role.isActive = true) : Moves s (trip cause entry s) := by
  have h1 : Moves s (cancelSequenceJobs (blockAll s)) := (blockAll_moves s).trans (cancelSequenceJobs_moves _)
  refine Relation.ReflTransGen.trans ?_ (captureTrigger_moves _ _)
  refine Relation.ReflTransGen.trans ?_ (enter_moves ?_ _ _)
  · refine Relation.ReflTransGen.trans ?_ (registers_moves _ _ ⟨_, _, _, _, _, _, _, _, _, rfl⟩)
    refine Relation.ReflTransGen.trans (h1.trans (rct_moves _ _ ?_))
      (moves_ite (fun hn => firstTrip_moves (by simpa using hn)) fun _ => .refl)
    refine ⟨rfl, .inl rfl, .inl le_rfl, id, fun _ h => h, fun i e he => ⟨e, he, rfl⟩, fun i f hf => ?_,
      fun i q hq => .inl ⟨q, hq⟩⟩
    rcases entry with _ | ⟨j, g⟩
    · exact .inl ⟨f, hf⟩
    · simp only [PerSlot.get_set] at hf
      split at hf
      · next hij => right; subst hij; simpa using he _ _ rfl
      · exact .inl ⟨f, hf⟩
  · refine .of_underWay ?_ (.inl rfl) (by simp) (by simp) ?_ ?_
    · by_cases hn : s.rct.restart = .normal
      · simp [hn, firstTrip, RestartState.underWay]
      · simpa [hn] using h
    · by_cases hn : s.rct.restart = .normal
      · simp only [hn, ite_true]; exact (cancelSequenceJobs_released (blockAll s)).1
      · simp only [hn, ite_false]; exact (cancelSequenceJobs_released (blockAll s)).1
    · refine (cancelSequenceJobs_noRelease (blockAll s)).of_wen ?_
      by_cases hn : s.rct.restart = .normal <;> simp [hn, firstTrip]

theorem joinPending_moves {s : State} (i : Slot) (f : PendingFault) (h : (s.mpl.slots.get i).role.isActive = true) :
    Moves s (s.onRct (joinPending i f)) := by
  refine rct_moves _ _ ⟨rfl, .inl rfl, .inl le_rfl, id, fun _ h => h, fun i e he => ⟨e, he, rfl⟩, fun j g hg => ?_,
    fun i q hq => .inl ⟨q, hq⟩⟩
  simp only [joinPending, PerSlot.get_set] at hg
  split at hg
  · next hij => right; subst hij; exact h
  · exact .inl ⟨g, hg⟩

/-! ## Return to UNARMED (R110, R170, R174) -/

theorem loseRecords_moves (s : State) : Moves s (loseRecords s) :=
  log_moves _ s (.of_fields id rfl (fun h => h.2.2.1) (fun h => h.2.2.1) (fun h => h.2.2.2.1) rfl (.inr (.inl rfl)))

theorem stopLog_moves (d : Bool) (s : State) : Moves s (stopLog d s) :=
  log_moves _ s (.of_fields (fun h => by simp at h) rfl (fun h => h.2.1) (fun h => h.2.2.1) (fun h => h.2.2.2.1) rfl
    (.inl List.suffix_rfl))

theorem closeLog_moves (armRecord : Option (Word × Word × Word)) (arg : Word) (s : State) :
    Moves s (closeLog armRecord arg s) := by
  unfold closeLog
  refine moves_ite (fun _ => ?_) fun _ => .refl
  refine Relation.ReflTransGen.trans ?_ (stopLog_moves _ _)
  refine Relation.ReflTransGen.trans ?_ (moves_ite (fun _ => .refl) fun _ => queueOverflowHeader_moves _)
  refine Relation.ReflTransGen.trans ((loseRecords_moves s).trans ?_) (handRecord_moves ..)
  cases armRecord with
  | none => exact .refl
  | some r => exact logRecord_moves ..

theorem flushReferences_moves (s : State) : Moves s (flushReferences s) :=
  (Relation.ReflTransGen.single (Move.aux [] (by simp))).tail (clearMarks_move _)

theorem cancelLowerJobs_moves (s : State) : Moves s (cancelLowerJobs s) :=
  (Relation.ReflTransGen.single (Move.cancel _)).trans (captureDumpCancelled_moves _)

theorem disarmWith_moves (armRecord : Option (Word × Word × Word)) (arg : Word) (d : Bool) (s : State) :
    Moves s (disarmWith armRecord arg d s) := by
  refine Relation.ReflTransGen.trans ?_ (queueMapImage_moves ..)
  refine Relation.ReflTransGen.tail ?_ (Move.quiesce (closeLog_stopped ..) (.inl (closeLog_noJobsOf _ _ ?_ (by simp) (by simp))))
  · exact ((((takeRecordCompletions_moves s).trans (blockAll_moves _)).trans (cancelLowerJobs_moves _)).trans
      (flushReferences_moves _)).trans (closeLog_moves ..)
  · refine ((noJobsOf_cancel (·.cls != .one) (blockAll (takeRecordCompletions s))).release rfl).of_wen ?_
    simp [flushReferences, cancelLowerJobs, captureDumpCancelled, clearMarks]

theorem endArming_moves (result : ArmResult) (slot arg : Word) (s : State) : Moves s (endArming result slot arg s) :=
  (pld_moves (fun p => { p with result := result, arg := 0 }) s id).trans (disarmWith_moves ..)

theorem endBeforeAdoption_moves (r : ArmResult) (arg : Word) {s : State} (h : s.rct.restart = .arming ∨ s.pld.cursor ≠ .none) :
    Moves s (endBeforeAdoption r arg s) := by
  refine Relation.ReflTransGen.trans ?_ (queueMapImage_moves ..)
  refine Relation.ReflTransGen.tail ((pld_moves (fun p => { p with result := r, arg := arg }) s id).trans (closeLog_moves ..))
    (Move.quiesce (closeLog_stopped ..) (.inr ?_))
  simpa [setArmResult] using h

theorem refusePlan_moves (r : ArmResult) (arg : Word) {s : State} (h : s.pld.cursor ≠ .none) : Moves s (refusePlan r arg s) :=
  (blockAll_moves s).trans (endBeforeAdoption_moves r arg (.inr (by simpa using h)))

end Sys2Proof.Machine
end

