-- ==== Sys2Proof/Proofs/Turns.lean ====
section
/-! Turns: moves, and the four changes that are larger than a move. Every operation of the Restart Controller, the Fault
Intake, the Link Supervisor and the Status Scanner is made of turns. -/

namespace Sys2Proof.Machine

/-- A move, the entry to RESUMING, an infeasible run with its lockout, or ARM rising. -/
inductive Turn : State → State → Prop
  | move {s t : State} : Move s t → Turn s t
  | resume {s : State} : s.rct.restart = .awaiting → Turn s (enterResuming s)
  | short {s : State} (p : Phase) : s.rct.restart = .isolating →
      shortPhase s.plan.minActive (mapTaken (hardPending s.rct) (clearPending s)).mpl.slots = some p →
      Turn s (enterLockout .infeasible (planRun (hardPending s.rct) (clearPending s)))
  | arm {s : State} : s.rct.restart = .unarmed → Turn s (armRise s)

/-- Some turns in a row. -/
abbrev Turns : State → State → Prop := Relation.ReflTransGen Turn

theorem Moves.turns {s t : State} (h : Moves s t) : Turns s t := by
  induction h with
  | refl => exact .refl
  | tail _ m ih => exact ih.tail (.move m)

theorem Turns.keeps {P : State → Prop} (hP : ∀ s t, Turn s t → P s → P t) {s t : State} (h : Turns s t) (hs : P s) : P t := by
  induction h with
  | refl => exact hs
  | tail _ m ih => exact hP _ _ m ih

theorem foldl_turns {α : Type} (f : State → α → State) (hf : ∀ s a, Turns s (f s a)) (l : List α) (s : State) :
    Turns s (l.foldl f s) := by
  induction l generalizing s with
  | nil => exact .refl
  | cons a l ih => exact (hf s a).trans (ih _)

/-- Turns of a choice. -/
theorem turns_ite {c : Prop} [Decidable c] {s t u : State} (h : c → Turns s t) (h' : ¬c → Turns s u) :
    Turns s (if c then t else u) := by
  split
  · next hc => exact h hc
  · next hc => exact h' hc

/-! ## The planning run at the controller -/

/-- The watch list once a contactor job has been commanded: the slots of the job await what they are commanded (R126). -/
theorem commandContactors_watch (l : List Slot) (s : State) (i : Slot) :
    (commandContactors l s).rct.watch.get i
      = if i ∈ l then some ⟨(s.mpl.slots.get i).bypass, none⟩ else s.rct.watch.get i := by
  unfold commandContactors
  split
  · next h => simp [h]
  · simp

theorem commandContactors_rct (l : List Slot) (s : State) :
    ∃ w, (commandContactors l s).rct = { s.rct with watch := w } := by
  unfold commandContactors
  split
  · exact ⟨_, rfl⟩
  · exact ⟨PerSlot.ofFn fun i => if l.contains i then some ⟨(s.mpl.slots.get i).bypass, none⟩ else s.rct.watch.get i, by simp⟩

/-- The map a run leaves in force (R115 to R122). -/
theorem mapTaken_slots (hard : Slot → Bool) (s : State) :
    (mapTaken hard s).mpl.slots = commandFitted s.mpl.fitted
      (rebalance s.mpl.table s.plan.rounding s.mpl.k (planRoles hard s)).slots := by
  simp [mapTaken]

/-- At the controller a run changes the watch list only: the slots of its contactor job join it. -/
theorem mapTaken_watch (hard : Slot → Bool) (s : State) (i : Slot) :
    (mapTaken hard s).rct.watch.get i
      = if i ∈ contactorChanges s.mpl.fitted s.mpl.slots (mapTaken hard s).mpl.slots
        then some ⟨((mapTaken hard s).mpl.slots.get i).bypass, none⟩ else s.rct.watch.get i := by
  rw [mapTaken_slots]
  simp [mapTaken, commandContactors_watch]

theorem mapTaken_rct (hard : Slot → Bool) (s : State) : ∃ w, (mapTaken hard s).rct = { s.rct with watch := w } := by
  obtain ⟨w, hw⟩ := commandContactors_rct (contactorChanges s.mpl.fitted s.mpl.slots (mapTaken hard s).mpl.slots)
    (s.onMpl fun m => { m with
      slots := (mapTaken hard s).mpl.slots
      phases := setRebalance (rebalance s.mpl.table s.plan.rounding s.mpl.k (planRoles hard s)) m.phases })
  rw [mapTaken_slots] at hw
  exact ⟨w, by simp [mapTaken, hw]⟩

@[simp] theorem mapTaken_frame (hard : Slot → Bool) (s : State) :
    (mapTaken hard s).pins = s.pins ∧ (mapTaken hard s).mem = s.mem ∧ (mapTaken hard s).bpu = s.bpu
      ∧ (mapTaken hard s).mpa = s.mpa ∧ (mapTaken hard s).ssc = s.ssc ∧ (mapTaken hard s).lsv = s.lsv
      ∧ (mapTaken hard s).fin = s.fin ∧ (mapTaken hard s).mpl.fitted = s.mpl.fitted ∧ (mapTaken hard s).mpl.k = s.mpl.k
      ∧ (mapTaken hard s).rfs = s.rfs ∧ (mapTaken hard s).hif = s.hif ∧ (mapTaken hard s).cap = s.cap
      ∧ (mapTaken hard s).log = s.log ∧ (mapTaken hard s).pld = s.pld ∧ (mapTaken hard s).itm = s.itm
      ∧ (mapTaken hard s).plan = s.plan ∧ (mapTaken hard s).cuts = s.cuts := by
  simp [mapTaken]

/-- At the Write Engine a run commands the contactors of the slots it changes. -/
theorem mapTaken_wen (hard : Slot → Bool) (s : State) :
    (mapTaken hard s).wen = s.wen ∨ ∃ l, (mapTaken hard s).wen = (submit .contactor (contactorWrites l) s).wen := by
  unfold mapTaken commandContactors
  dsimp only
  split
  · exact .inl rfl
  · exact .inr ⟨_, rfl⟩

/-- Behind the map it leaves in force, a run is made of moves: the image job and the records (R122, R123, R129). -/
theorem planRun_moves (hard : Slot → Bool) (s : State) : Moves (mapTaken hard s) (planRun hard s) := by
  have hlog : ∀ before after i t, Moves t (logMapChange before after i t) := by
    intro before after i t
    unfold logMapChange
    split
    · exact logRecord_moves ..
    · exact .refl
  have hrun : ∀ before source short t, Moves t (logRun before source short t) := by
    intro before source short t
    unfold logRun
    dsimp only
    split
    · exact ((foldl_moves _ (fun u i => hlog _ _ i u) _ t).trans (logRecord_moves ..)).trans (logRecord_moves ..)
    · exact (foldl_moves _ (fun u i => hlog _ _ i u) _ t).trans (logRecord_moves ..)
  exact ((bumpGeneration_moves _).trans (hrun ..)).trans (moves_ite (fun _ => .refl) fun _ => logRecord_moves ..)

/-- The records of a run leave the map, the controller and the plan. -/
theorem planRun_eq_mapTaken (hard : Slot → Bool) (s : State) :
    (planRun hard s).mpl.slots = (mapTaken hard s).mpl.slots ∧ (planRun hard s).rct = (mapTaken hard s).rct := by
  simp [planRun, mapTaken]

theorem planRun_restart (hard : Slot → Bool) (s : State) : (planRun hard s).rct.restart = s.rct.restart := by
  obtain ⟨w, hw⟩ := mapTaken_rct hard s
  rw [(planRun_eq_mapTaken hard s).2, hw]

/-! ## From TRIPPED to RESUMING -/

/-- A change from a state in which no release runs. -/
theorem Changes.of_start {s : State} {new : RestartState} 
    (h : s.rct.restart.underWay = true
      ∨ s.rct.restart = .arming ∧ s.rct.contactor.running = true ∧ ∃ i e, s.rct.watch.get i = some e)
    (hn : new.underWay = true ∨ new = .lockout) (hs : s.rct.restart.latching = false) (hv : new = .verifying → s.rct.restart = .recharging) :
    Changes s new false := by
  refine ⟨h, ?_, fun h => ?_, fun h => by simp at h, fun h => ?_, hv, fun h => ?_⟩
  · cases new <;> simp_all [RestartState.underWay]
  · simp [h, RestartState.latching] at hs
  · rcases h with h | h <;> simp [h, RestartState.latching] at hs
  · simp [h, RestartState.latching] at hs

theorem testAwaiting_turns (s : State) : Turns s (testAwaiting s) :=
  turns_ite (fun h => .single (.resume h.1)) fun _ => .refl

/-- The timer of a state is loaded as the state is entered. -/
theorem RctCalm.of_timer {s : State} {r : Rct} (hu : s.rct.restart ≠ .unarmed) (h : ∃ a b c d e, r = { s.rct with
    recharge := a, verify := b, fresh := c, proving := d, budget := e }) : RctCalm s r := by
  obtain ⟨a, b, c, d, e, rfl⟩ := h
  exact .of_fields rfl rfl (.inl le_rfl) id (fun h => absurd h hu) rfl (.inl rfl) (.inl rfl)

theorem timer_moves (f : Rct → Rct) (s : State) (hu : s.rct.restart ≠ .unarmed) (h : ∃ a b c d e, f s.rct = { s.rct with
    recharge := a, verify := b, fresh := c, proving := d, budget := e }) : Moves s (s.onRct f) :=
  rct_moves f s (.of_timer hu h)

@[simp] theorem enter_restart (new : RestartState) (slot arg : Word) (s : State) : (enter new slot arg s).rct.restart = new := by
  rw [enter_rct]

theorem startAwaiting_moves {s : State} (h : Changes s .awaiting false) (reason : Word) : Moves s (startAwaiting reason s) :=
  (enter_moves h _ _).trans (timer_moves _ _ (by simp) ⟨_, _, _, _, _, rfl⟩)

theorem enterAwaiting_turns {s : State} (h : Changes s .awaiting false) (reason : Word) : Turns s (enterAwaiting reason s) :=
  (startAwaiting_moves h reason).turns.trans (testAwaiting_turns _)

/-- The watch list may as well lose its last entry behind the change of state that this brings (R126, R168). -/
theorem enter_awaiting_watch {s : State} (h : s.rct.restart = .arming) (w : PerSlot (Option WatchEntry)) (reason : Word) :
    enter .awaiting noSlot reason (s.onRct fun r => { r with watch := w })
      = logRecord .sequence RestartState.awaiting.code noSlot reason
          ((changed .awaiting false s).onRct fun r => { r with watch := w }) := by
  simp [enter, hoistEnter, changed, h, RestartState.latching, State.onHif, State.onRct, Rct.leave]

theorem finishArming_turns {s : State} {w : PerSlot (Option WatchEntry)} (h : s.rct.restart = .arming)
    (hc : s.rct.contactor.running = true) (hw : ∃ i e, s.rct.watch.get i = some e)
    (hk : RctCalm s { s.rct with watch := w }) : Turns s (finishArming (s.onRct fun r => { r with watch := w })) := by
  have hs : Changes s .awaiting false :=
    .of_start (.inr ⟨h, hc, hw⟩) (.inl rfl) (by simp [h, RestartState.latching]) (by simp)
  have hcalm : RctCalm (changed .awaiting false s) { (changed .awaiting false s).rct with watch := w } := by
    refine ⟨rfl, .inl rfl, .inl le_rfl, id, fun h => by simp [changed] at h, fun i e he => ?_, fun i f hf => .inl ⟨f, hf⟩,
      fun i q hq => .inl ⟨q, hq⟩⟩
    simpa [changed, leave_fields] using hk.watch i e he
  have hm : Moves s (startAwaiting 0 (s.onRct fun r => { r with watch := w })) := by
    unfold startAwaiting
    refine Relation.ReflTransGen.trans ?_ (timer_moves _ _ (by simp) ⟨_, _, _, _, _, rfl⟩)
    rw [enter_awaiting_watch h]
    exact ((Move.change _ _ hs).moves.trans (rct_moves _ _ hcalm)).trans (logRecord_moves ..)
  refine hm.turns.trans (turns_ite (fun _ => (enterLockout_moves ?_ _).turns) fun _ => testAwaiting_turns _)
  simp [startAwaiting, RestartState.underWay]

theorem enterRecharging_moves {s : State} (h : s.rct.restart = .isolating) : Moves s (enterRecharging s) := by
  have hc : Changes s .recharging false :=
    .of_start (.inl (by simp [h, RestartState.underWay])) (.inl rfl) (by simp [h, RestartState.latching]) (by simp)
  refine ((enter_moves hc noSlot (word s.rct.passCount)).trans (rct_moves _ _ ?_)).trans
    (submit_gates_moves .resetGate (by simp) (.inr rfl) _ _)
  refine ⟨rfl, .inl rfl, .inl le_rfl, id, fun h => by simp at h, fun i e he => ⟨e, he, rfl⟩, fun i f hf => .inl ⟨f, hf⟩,
    fun i q hq => .inr ?_⟩
  simp only [PerSlot.get_ofFn] at hq
  split at hq
  · next ha => exact ⟨by simpa using ha, .inl (by simp)⟩
  · exact absurd hq (by simp)

theorem enterVerifying_moves {s : State} (h : s.rct.restart = .recharging) : Moves s (enterVerifying s) := by
  have hc : Changes s .verifying false :=
    .of_start (.inl (by simp [h, RestartState.underWay])) (.inl rfl) (by simp [h, RestartState.latching]) (fun _ => h)
  refine (enter_moves hc noSlot (word s.rct.passCount)).trans (rct_moves _ _ ?_)
  refine ⟨rfl, .inl rfl, .inl le_rfl, id, fun h => by simp at h, fun i e he => ⟨e, he, rfl⟩, fun i f hf => .inl ⟨f, hf⟩,
    fun i q hq => .inl ?_⟩
  simp only [PerSlot.get_map, Option.map_eq_some_iff] at hq
  obtain ⟨q', hq', -⟩ := hq
  exact ⟨q', hq'⟩

theorem afterRun_turns {s : State} (h : s.rct.restart = .isolating) :
    Turns s (afterRun (planRun (hardPending s.rct) (clearPending s))) := by
  unfold afterRun
  split
  · next p hs => exact .single (.short p h (by rw [← (planRun_eq_mapTaken ..).1]; simpa using hs))
  · next hs =>
    have hs' : shortPhase s.plan.minActive (mapTaken (hardPending s.rct) (clearPending s)).mpl.slots = none := by
      rw [← (planRun_eq_mapTaken ..).1]; simpa using hs
    refine (Moves.turns (((Move.planned h hs').moves).trans (planRun_moves ..))).trans
      (turns_ite (fun _ => ?_) fun _ => ?_)
    · exact (enterRecharging_moves (by rw [planRun_restart]; exact h)).turns
    · exact (Move.contactor _ (by rw [planRun_restart]; exact h)).moves.turns

theorem logRecord_clearPending (c : Category) (code slot arg : Word) (s : State) :
    logRecord c code slot arg (clearPending s) = clearPending (logRecord c code slot arg s) := by
  simp only [logRecord, handRecord, dropRecord, queueOverflowHeader, apply_ite clearPending]
  rfl

/-- The pending faults may as well be cleared once ISOLATING has been entered from TRIPPED. -/
theorem enter_clearPending {s : State} (h : s.rct.restart = .tripped) (slot arg : Word) :
    enter .isolating slot arg (clearPending s) = clearPending (enter .isolating slot arg s) := by
  have e : ∀ t : State, t.rct.restart = .tripped → enter .isolating slot arg t
      = logRecord .sequence RestartState.isolating.code slot arg (changed .isolating false t) := by
    intro t ht
    simp [enter, hoistEnter, changed, ht, RestartState.latching, State.onHif, State.onRct]
  rw [e _ (by exact h), e _ h, ← logRecord_clearPending]
  simp [changed, h, State.onRct, Rct.leave]

theorem enterIsolating_turns {s : State} (h : s.rct.restart = .tripped) (hp : s.rct.passCount < s.plan.maxPasses) :
    Turns s (enterIsolating s) := by
  have h1 : Moves s (s.onRct fun r => { r with passCount := r.passCount + 1 }) :=
    rct_moves _ _ (.of_fields rfl rfl (.inr hp) id (fun _ h => h) rfl (.inl rfl) (.inl rfl))
  have hc : Changes (s.onRct fun r => { r with passCount := r.passCount + 1 }) .isolating false :=
    .of_start (.inl (by simp [h, RestartState.underWay])) (.inl rfl) (by simp [h, RestartState.latching]) (by simp)
  have e : enterIsolating s = afterRun (planRun (hardPending s.rct) (clearPending
      (enter .isolating noSlot (word (s.rct.passCount + 1)) (s.onRct fun r => { r with passCount := r.passCount + 1 })))) := by
    rw [← enter_clearPending (by exact h)]
    rfl
  have hr := enter_rct .isolating noSlot (word (s.rct.passCount + 1))
    (s.onRct fun r => { r with passCount := r.passCount + 1 })
  have hh : hardPending (enter .isolating noSlot (word (s.rct.passCount + 1))
      (s.onRct fun r => { r with passCount := r.passCount + 1 })).rct = hardPending s.rct := by
    funext i
    rw [hr]
    simp [hardPending, leave_fields]
  rw [e, ← hh]
  exact (Moves.turns (h1.trans (enter_moves hc _ _))).trans (afterRun_turns (by simp))

theorem identificationReport_turns (expired : Bool) (s : State) : Turns s (identificationReport expired s) := by
  refine turns_ite (fun h => ?_) fun _ => .refl
  have hu : s.rct.restart.underWay = true := by simp [h, RestartState.underWay]
  refine turns_ite (fun _ => (enterLockout_moves hu _).turns) fun _ => turns_ite (fun _ => .refl) fun _ =>
    turns_ite (fun _ => (enterLockout_moves hu _).turns) fun _ => turns_ite (fun _ => (enterLockout_moves hu _).turns)
    fun hm => enterIsolating_turns h (by omega)

/-! ## The end of a sequence -/

/-- What an entry to NORMAL sets back (R103). -/
theorem endSequence_moves (s : State) :
    Moves s (s.onRct fun r => { r with passCount := 0, budget := r.budget.stop, pendingFaults := PerSlot.all none }) :=
  rct_moves _ _ (.of_fields rfl rfl (.inl (Nat.zero_le _)) id (fun _ ⟨_, h⟩ => ⟨rfl, h⟩) rfl (.inr rfl) (.inl rfl))

theorem enterNormal_moves {s : State} (h : s.rct.restart = .proving) : Moves s (enterNormal s) :=
  (enter_moves ⟨.inl (by simp [h, RestartState.underWay]), by simp, by simp [h], by simp, fun _ => .inl rfl, by simp,
    by simp [h]⟩ _ _).trans (endSequence_moves _)

/-- The release leaves together with the change that its completion makes. -/
theorem enter_cleared_moves {new : RestartState} {s : State} (h : s.rct.restart = .resuming) (hn : new = .normal ∨ new = .proving)
    (slot arg : Word) : Moves s (enter new slot arg (clearRelease s)) := by
  have hc : Changes s new true :=
    ⟨.inl (by simp [h, RestartState.underWay]), by rcases hn with rfl | rfl <;> simp, fun _ => .inr ⟨rfl, hn⟩, fun _ => h,
      by simp [h], by rcases hn with rfl | rfl <;> simp, by simp [h]⟩
  have e : changed new false (latchesLeft new (clearRelease s)) = changed new true s := by
    have hl : latchesLeft new (clearRelease s) = clearRelease s := by
      rcases hn with rfl | rfl <;> simp [latchesLeft, RestartState.latching]
    rw [hl]
    rfl
  have := enter_moves_changed new slot arg (clearRelease s)
  rw [e] at this
  exact (Move.change new true hc).moves.trans this

/-- The proving window, and the lockout of a brake already lifted (R101, R158). -/
theorem startProving_moves {s : State} (h : s.rct.restart = .proving) :
    Moves s (let t := s.onRct fun r => { r with proving := .load s.plan.provingWindow }
      if t.pins.brakeSet then t else enterLockout .brakeLifted t) := by
  have h1 : Moves s (s.onRct fun r => { r with proving := .load s.plan.provingWindow }) :=
    timer_moves _ _ (by simp [h]) ⟨_, _, _, _, _, rfl⟩
  exact h1.trans (moves_ite (fun _ => .refl) fun _ => enterLockout_moves (by simp [h, RestartState.underWay]) _)

theorem releaseCompleted_moves (s : State) : Moves s (releaseCompleted s) := by
  unfold releaseCompleted
  by_cases h : s.rct.restart = .resuming
  · have hr : (clearRelease s).rct.restart = .resuming := by simpa using h
    simp only [hr, ite_true]
    cases (clearRelease s).rct.mode with
    | rideThrough => exact (enter_cleared_moves h (.inl rfl) _ _).trans (endSequence_moves _)
    | standstill =>
      refine (enter_cleared_moves h (.inr rfl) noSlot (clearRelease s).rct.mode.code).trans ?_
      have := startProving_moves (enter_restart .proving noSlot (clearRelease s).rct.mode.code (clearRelease s))
      simpa [enterProving] using this
  · have hr : ¬(clearRelease s).rct.restart = .resuming := by simpa using h
    simp only [hr, ite_false]
    exact (Move.clear (.inr h)).moves

/-- The release is abandoned, and AWAITING entered again (R106, R153). -/
theorem abandoned_changes {s : State} (h : s.rct.restart = .resuming ∨ s.rct.restart = .proving) :
    Changes (abandonRelease s) .awaiting false :=
  .of_underWay (by rcases h with h | h <;> simp [h, RestartState.underWay]) (.inl rfl) (by simp) (by simp)
    (by simp [abandonRelease, clearRelease]) (abandonRelease_noRelease s)

theorem returnToAwaiting_turns {s : State} (h : s.rct.restart = .resuming) (reason : Word) :
    Turns s (returnToAwaiting reason s) :=
  (Moves.turns ((blockAll_moves s).trans (abandonRelease_moves _))).trans
    (enterAwaiting_turns (abandoned_changes (.inl (by simpa using h))) reason)

theorem stalenessEvent_turns (s : State) : Turns s (stalenessEvent s) := by
  unfold stalenessEvent
  refine turns_ite (fun _ => ?_) fun _ => ?_
  · cases h : s.rct.restart
    case unarmed | arming | lockout => exact .refl
    all_goals exact (enterLockout_moves (by simp [h, RestartState.underWay]) _).turns
  · cases h : s.rct.restart
    case resuming => exact returnToAwaiting_turns h 2
    all_goals exact .refl

theorem directionChanged_turns (s : State) : Turns s (directionChanged s) := by
  have hr : s.rct.restart = .resuming ∨ s.rct.restart = .proving →
      Turns s (enterAwaiting 1 (clearMarks (abandonRelease (blockAll s)))) := by
    intro h
    have h1 := abandoned_changes (s := blockAll s) (by simpa using h)
    have h2 : Changes (clearMarks (abandonRelease (blockAll s))) .awaiting false :=
      h1.of_frame (by simp) (by simp [clearMarks]) (by simp)
    exact (Moves.turns (((blockAll_moves s).trans (abandonRelease_moves _)).tail (clearMarks_move _))).trans
      (enterAwaiting_turns h2 1)
  unfold directionChanged
  cases h : s.rct.restart
  case normal | lockout | unarmed => exact .refl
  case arming | tripped | isolating | recharging | verifying => exact (clearMarks_move s).moves.turns
  case awaiting =>
    have hu : (clearMarks s).rct.restart ≠ .unarmed := by simp [h]
    exact Moves.turns ((clearMarks_move s).moves.trans (timer_moves _ _ hu (by exact ⟨_, _, _, _, _, rfl⟩)))
  case resuming | proving => exact hr (by simp [h])

theorem directionWrite_turns (d : Direction) (s : State) : Turns s (directionWrite d s) :=
  turns_ite (fun _ => .refl) fun _ =>
    (registers_moves _ s ⟨_, _, _, _, _, _, _, _, _, rfl⟩).turns.trans (directionChanged_turns _)

/-! ## Faults (R78 to R86) -/

theorem faultEvent_moves {s : State} (i : Slot) (f : PendingFault) (h : (s.mpl.slots.get i).role.isActive = true) :
    Moves s (faultEvent i f s) := by
  unfold faultEvent
  cases hr : s.rct.restart
  case unarmed | lockout => exact .refl
  case arming => exact endArming_moves ..
  case tripped => exact joinPending_moves i f h
  all_goals
    exact trip_moves (by simp [hr, RestartState.underWay]) _ fun j g e => by
      obtain ⟨rfl, rfl⟩ := Prod.mk.inj (Option.some.inj e); exact h

theorem lineEvent_moves (p : Phase) (s : State) : Moves s (lineEvent p s) := by
  unfold lineEvent
  cases hr : s.rct.restart
  case unarmed | lockout | tripped => exact .refl
  case arming => exact endArming_moves ..
  all_goals exact trip_moves (by simp [hr, RestartState.underWay]) _ fun j g e => by simp at e

theorem nonActiveFault_moves {s : State} (i : Slot) (h : (s.mpl.slots.get i).role.reports = true)
    (ha : (s.mpl.slots.get i).role.isActive = false) : Moves s (nonActiveFault i s) :=
  ((Move.quarantine i h ha).moves.trans (bumpGeneration_moves _)).trans (logRecord_moves ..)

theorem recordFault_moves (i : Slot) (code : Nat) (s : State) : Moves s (recordFault i code s) :=
  (fin_move _ s).moves.trans (logRecord_moves ..)

theorem takeFault_moves (i : Slot) (code : Nat) (s : State) : Moves s (takeFault i code s) := by
  refine moves_ite (fun h => ?_) fun _ => .refl
  refine ((recordFault_moves i code s).tail (fin_move _ _)).trans (moves_ite (fun ha => faultEvent_moves i _ ha) fun ha => ?_)
  exact nonActiveFault_moves i (by simpa using h) (by simpa using ha)

theorem takeFaults_moves (slots : List Slot) (code : Nat) (s : State) : Moves s (takeFaults slots code s) :=
  foldl_moves (fun t i => takeFault i code t) (fun t i => takeFault_moves i code t) slots s

theorem statusReport_moves (i : Slot) (cell code : Word) (s : State) : Moves s (statusReport i cell code s) := by
  unfold statusReport
  split
  · exact moves_ite (fun _ => .refl) fun _ => (fin_move _ s).moves.trans (takeFault_moves ..)
  · exact (fin_move _ s).moves

theorem newRequest_moves (p : Phase) (s : State) : Moves s (newRequest p s) :=
  ((logRecord_moves ..).trans (moves_ite (fun _ => .refl) fun _ => (fin_move _ _).moves)).trans (lineEvent_moves ..)

theorem takeLevel_moves (p : Phase) (level : Bool) (s : State) : Moves s (takeLevel p level s) :=
  moves_ite (fun _ => (fin_move _ s).moves.trans (newRequest_moves ..)) fun _ => (fin_move _ s).moves

theorem lineTransition_moves (p : Phase) (level : Bool) (s : State) : Moves s (lineTransition p level s) :=
  (pins_move _ s).moves.trans (moves_ite (fun _ => takeLevel_moves ..) fun _ => .refl)

theorem takeIdentExpiry_turns (s : State) : Turns s (takeIdentExpiry s) :=
  (fin_move _ s).moves.turns.trans (identificationReport_turns ..)

end Sys2Proof.Machine
end

