-- ==== Sys2Proof/Proofs/CommandTurns.lean ====
section
/-! The turns of the Link Supervisor, the Status Scanner, the passage of host accesses, the Plan Loader, and of every
command but the two resets. -/

namespace Sys2Proof.Machine

/-! ## Frames at the Link Supervisor and the controller (R64 to R74, R126 to R141) -/

theorem setLink_moves (i : Slot) (l : LinkRecord) (s : State) : Moves s (setLink i l s) := (lsv_move _ s).moves

theorem logWraps_moves (i : Slot) (o : FrameOutcome) (s : State) : Moves s (logWraps i o s) := by
  cases o with
  | good => exact .refl
  | errored | missed => exact moves_ite (fun _ => linkRecord_moves ..) fun _ => .refl

theorem superviseLost_moves (i : Slot) (o : FrameOutcome) (s : State) : Moves s (superviseLost i o s) := by
  unfold superviseLost
  dsimp only
  split
  · exact .refl
  · exact moves_ite (fun _ => setLink_moves ..) fun _ => moves_ite
      (fun _ => (setLink_moves ..).trans (linkRecord_moves ..)) fun _ => setLink_moves ..

theorem superviseLive_moves (i : Slot) (o : FrameOutcome) (s : State) : Moves s (superviseLive i o s) :=
  moves_ite (fun _ => (setLink_moves ..).trans (linkRecord_moves ..)) fun _ => moves_ite
    (fun _ => (setLink_moves ..).trans (linkRecord_moves ..)) fun _ => moves_ite
    (fun _ => (setLink_moves ..).trans (linkRecord_moves ..)) fun _ => setLink_moves ..

theorem supervise_moves (i : Slot) (o : FrameOutcome) (s : State) : Moves s (supervise i o s) :=
  ((setLink_moves ..).trans (logWraps_moves ..)).trans
    (moves_ite (fun _ => superviseLost_moves ..) fun _ => superviseLive_moves ..)

theorem recordFeedback_calm (i : Slot) (f : Feedback) (s : State) : RctCalm s (recordFeedback i f s.rct) := by
  unfold recordFeedback
  cases hw : s.rct.watch.get i with
  | none => exact .of_same ⟨_, _, _, _, _, _, _, _, _, rfl⟩
  | some e =>
    refine ⟨rfl, .inl rfl, .inl le_rfl, id, fun _ h => h, fun j e' h => ?_, fun j g hg => .inl ⟨g, hg⟩,
      fun j q hq => .inl ⟨q, hq⟩⟩
    simp only [PerSlot.get_set] at h
    split at h
    · next hj =>
      subst hj
      split at h
      · exact absurd h (by simp)
      · exact ⟨e, hw, by simp at h; rw [← h]⟩
    · exact ⟨e', h, rfl⟩

theorem recordFeedback_moves (i : Slot) (f : Feedback) (s : State) : Moves s (s.onRct (recordFeedback i f)) :=
  rct_moves _ _ (recordFeedback_calm i f s)

/-- A feedback touches the watch list only. -/
theorem recordFeedback_watch (i : Slot) (f : Feedback) (r : Rct) : ∃ w, recordFeedback i f r = { r with watch := w } := by
  unfold recordFeedback
  split
  · exact ⟨r.watch, rfl⟩
  · exact ⟨_, rfl⟩

@[simp] theorem recordFeedback_restart (i : Slot) (f : Feedback) (r : Rct) :
    (recordFeedback i f r).restart = r.restart ∧ (recordFeedback i f r).contactor = r.contactor := by
  unfold recordFeedback; split <;> simp

theorem confirmContactor_turns (i : Slot) (f : Feedback) (s : State) : Turns s (confirmContactor i f s) := by
  have hm := recordFeedback_moves i f s
  refine turns_ite (fun hw => turns_ite (fun h => ?_) fun _ => hm.turns) fun _ => .refl
  split
  · next hr => exact hm.turns.trans (enterRecharging_moves hr).turns
  · next hr =>
    obtain ⟨w, ew⟩ := recordFeedback_watch i f s.rct
    obtain ⟨e, he⟩ := Option.isSome_iff_exists.1 hw
    have hk := recordFeedback_calm i f s
    have es : s.onRct (recordFeedback i f) = s.onRct fun r => { r with watch := w } := by
      simp only [State.onRct, ew]
    rw [ew] at hk
    rw [es]
    exact finishArming_turns (by simpa using hr) (by simpa using h.2) ⟨i, e, he⟩ hk
  all_goals exact hm.turns

/-- A confirmation leads on from ISOLATING and ARMING only (R127, R168). -/
theorem confirmContactor_restart (i : Slot) (f : Feedback) {s : State} (h : s.rct.restart ≠ .isolating)
    (h' : s.rct.restart ≠ .arming) : (confirmContactor i f s).rct.restart = s.rct.restart := by
  unfold confirmContactor
  split
  · dsimp only
    split
    · split
      · next hr => exact absurd (by simpa using hr) h
      · next hr => exact absurd (by simpa using hr) h'
      all_goals simp
    · simp
  · rfl

theorem setProgress_moves (i : Slot) (q : Progress) {s : State} (h : ∃ q', s.rct.progress.get i = some q') :
    Moves s (setProgress i q s) := by
  refine rct_moves _ _ ⟨rfl, .inl rfl, .inl le_rfl, id, fun _ h => h, fun i e he => ⟨e, he, rfl⟩, fun i f hf => .inl ⟨f, hf⟩,
    fun j p hp => .inl ?_⟩
  simp only [PerSlot.get_set] at hp
  split at hp
  · next hj => subst hj; exact h
  · exact ⟨p, hp⟩

theorem judgeThresholds_moves (i : Slot) (dc : Word) (s : State) : Moves s (judgeThresholds i dc s) :=
  moves_ite (fun _ => takeFault_moves ..) fun _ => moves_ite (fun _ => takeFault_moves ..) fun _ => .refl

theorem judgeRecharge_moves (i : Slot) (dc : Word) (q : Progress) {s : State} (hr : s.rct.restart = .recharging)
    (h : ∃ q', s.rct.progress.get i = some q') : Moves s (judgeRecharge i dc q s) :=
  (setProgress_moves i _ h).trans (moves_ite (fun _ => enterVerifying_moves hr) fun _ => judgeThresholds_moves ..)

theorem rechargeFrame_moves (i : Slot) (w : StatusWords) (q : Progress) {s : State} (hr : s.rct.restart = .recharging)
    (h : ∃ q', s.rct.progress.get i = some q') : Moves s (rechargeFrame i w q s) :=
  moves_ite (fun _ => (submit_gates_moves .blockGate (by simp) (.inl rfl) [i] s).trans
      (judgeRecharge_moves i w.dc _ (by simpa using hr) (by simpa using h)))
    fun _ => moves_ite (fun _ => .refl) fun _ => judgeRecharge_moves i w.dc q hr h

theorem verifyFrame_turns (i : Slot) (o : FrameOutcome) (q : Progress) {s : State} (hr : s.rct.restart = .verifying)
    (h : ∃ q', s.rct.progress.get i = some q') : Turns s (verifyFrame i o q s) := by
  refine turns_ite (fun _ => .refl) fun _ => (setProgress_moves i _ h).turns.trans
    (turns_ite (fun _ => enterAwaiting_turns (.of_start (.inl ?_) (.inl rfl) ?_ (by simp)) 0) fun _ => .refl)
  · simp [setProgress, hr, RestartState.underWay]
  · simp [setProgress, hr, RestartState.latching]

theorem judgeFrame_turns (state : RestartState) (i : Slot) (o : FrameOutcome) {s : State}
    (h : state = .recharging ∨ state = .verifying → s.rct.restart = state) : Turns s (judgeFrame state i o s) := by
  unfold judgeFrame
  split
  · next q hq =>
    cases o with
    | good w => exact (rechargeFrame_moves i w q (h (.inl rfl)) ⟨q, hq⟩).turns
    | errored | missed => exact .refl
  · next q hq => exact verifyFrame_turns i o q (h (.inr rfl)) ⟨q, hq⟩
  · exact .refl

theorem controllerFrame_turns (i : Slot) (o : FrameOutcome) (s : State) : Turns s (controllerFrame i o s) := by
  unfold controllerFrame
  cases o with
  | good w =>
    refine (confirmContactor_turns i _ s).trans (judgeFrame_turns _ i _ fun h => confirmContactor_restart i _ ?_ ?_) <;>
      rcases h with h | h <;> simp [h]
  | errored | missed => exact judgeFrame_turns _ i _ fun _ => rfl

theorem captureFrame_moves (i : Slot) (o : FrameOutcome) (s : State) : Moves s (captureFrame i o s) := by
  cases o with
  | good w => exact moves_ite (fun _ => captureRange_moves ..) fun _ => .refl
  | errored | missed => exact .refl

theorem intakeFrame_moves (i : Slot) (o : FrameOutcome) (s : State) : Moves s (intakeFrame i o s) := by
  cases o with
  | good w => exact statusReport_moves ..
  | errored | missed => exact .refl

theorem handOn_turns (i : Slot) (wasLost : Bool) (o : FrameOutcome) (s : State) : Turns s (handOn i wasLost o s) :=
  turns_ite (fun _ => turns_ite (fun _ => .refl) fun _ => (takeFault_moves i 64 s).turns) fun _ =>
    (intakeFrame_moves i o s).turns.trans (turns_ite
      (fun _ => (controllerFrame_turns i o _).trans (captureFrame_moves ..).turns) fun _ => .refl)

theorem evaluateFrame_turns (i : Slot) (w : Option StatusWords) (s : State) : Turns s (evaluateFrame i w s) :=
  turns_ite (fun _ => (supervise_moves ..).turns.trans (handOn_turns ..)) fun _ => .refl

theorem secondOfSlot_moves (i : Slot) (s : State) : Moves s (secondOfSlot i s) :=
  moves_ite (fun _ => (setLink_moves ..).trans (moves_ite (fun _ => linkRecord_moves ..) fun _ =>
    moves_ite (fun _ => linkRecord_moves ..) fun _ => .refl)) fun _ => .refl

theorem secondOfLinks_moves (s : State) : Moves s (secondOfLinks s) :=
  foldl_moves (fun t i => secondOfSlot i t) (fun t i => secondOfSlot_moves i t) _ s

/-! ## Scans (R59 to R63) -/

theorem startScan_moves (s : State) : Moves s (startScan s) := by
  unfold startScan
  split
  · exact ssc_moves _ _ rfl
  · exact (ssc_moves _ _ rfl).trans (registers_moves _ _ ⟨_, _, _, _, _, _, _, _, _, rfl⟩)

theorem takeScanEnd_moves (s : State) : Moves s (takeScanEnd s) := by
  refine registers_moves _ s ?_
  split <;> exact ⟨_, _, _, _, _, _, _, _, _, rfl⟩

theorem takeVerifyExpiry_moves (s : State) : Moves s (takeVerifyExpiry s) := takeFaults_moves ..

theorem scanEnd_turns (s : State) : Turns s (scanEnd s) :=
  ((takeScanEnd_moves s).turns.trans (takeIdentExpiry_turns _)).trans
    (turns_ite (fun _ => (takeVerifyExpiry_moves _).turns) fun _ => .refl)

theorem deliverScanEnd_turns (s : State) : Turns s (deliverScanEnd s) :=
  (ssc_moves (fun c => { c with inProgress := false, position := none, ended := true }) s rfl).turns.trans (scanEnd_turns _)

theorem overrunScan_turns (i : Slot) (s : State) : Turns s (overrunScan i s) := by
  refine ((Move.discard (s := s)).moves.turns.trans (foldl_turns (fun t j => evaluateFrame j none t)
    (fun t j => evaluateFrame_turns j none t) _ _)).trans (turns_ite (fun _ => ?_) fun _ => .refl)
  exact ((scanEnd_turns _).trans (ssc_moves _ _ rfl).turns).trans (startScan_moves _).turns

theorem lateExpiries_turns (s : State) : Turns s (lateExpiries s) :=
  turns_ite (fun _ => (turns_ite (fun _ => takeIdentExpiry_turns s) fun _ => .refl).trans
    (turns_ite (fun _ => (takeVerifyExpiry_moves _).turns) fun _ => .refl)) fun _ => .refl

theorem frameScan_turns (s : State) : Turns s (frameScan s) := by
  refine turns_ite (fun _ => ?_) fun _ => .refl
  split
  · exact overrunScan_turns ..
  · exact (lateExpiries_turns s).trans (startScan_moves _).turns

theorem advanceScan_turns (i : Slot) (s : State) : Turns s (advanceScan i s) := by
  refine turns_ite (fun _ => ?_) fun _ => .refl
  split
  · exact (ssc_moves _ _ rfl).turns
  · exact deliverScanEnd_turns s

theorem countFrame_moves (s : State) : Moves s (countFrame s) := (Move.itm _ (by dsimp only; split <;> rfl)).moves

theorem openGate_moves (s : State) : Moves s (openGate s) := by
  refine registers_moves _ s ?_
  split <;> exact ⟨_, _, _, _, _, _, _, _, _, rfl⟩

@[simp] theorem Timer.tick_running (t : Timer) : t.tick.running = t.running := by unfold Timer.tick; split <;> rfl

theorem countWindows_moves (s : State) : Moves s (countWindows s) := by
  refine ((fin_move _ s).moves.trans (rct_moves _ _ ?_)).trans (hif_moves _ _ ?_)
  · exact .of_fields rfl rfl (.inl le_rfl) id (fun _ ⟨a, b, c, d, e, f⟩ => ⟨a, b, c, by simpa using d, e, f⟩) rfl (.inl rfl)
      (.inl rfl)
  · exact ⟨⟨rfl, rfl, rfl⟩, id, by simp⟩

theorem frameEdge_turns (s : State) : Turns s (frameEdge s) :=
  ((countFrame_moves s).turns.trans (frameScan_turns _)).trans
    (Moves.turns (((commitAll_moves _).trans (openGate_moves _)).trans (countWindows_moves _)))

/-! ## Host accesses (R37 to R56) -/

theorem holdAux_moves (r : Rec) (i : Fin 3) (v : Word) (s : State) : Moves s (holdAux r i v s) :=
  moves_ite (fun h => (Move.aux _ fun _ => by simp only [Config.auxCapacity] at h; simpa using h).moves) fun _ => countRefusal_moves ..

/-- A need whose access no law restricts. -/
theorem NeedAllowed.of_read (s : State) (a : Addr) (l : Bool) : NeedAllowed s (.read a l) :=
  ⟨fun _ => rfl, by simp, by simp, by simp⟩

theorem NeedAllowed.of_passWrite {s : State} (a : Addr) (v : Word) (d : Option Delivery)
    (h : s.rct.restart ≠ .unarmed → (Need.passWrite a v d).isProtected = false) : NeedAllowed s (.passWrite a v d) :=
  ⟨h, by simp, by simp, by simp⟩

theorem NeedAllowed.of_translated (s : State) (r : Rec) (w : Fin 8) (i : Slot) (v : Word) :
    NeedAllowed s (.translated r w (physicalCommandAddr i w.val) v) := by
  refine ⟨fun _ => rfl, by simp, by simp, fun r' w' a' v' e => ?_⟩
  obtain ⟨-, rfl, rfl, -⟩ := Need.translated.inj e
  exact ⟨i, rfl⟩

theorem forward_moves (r : Rec) {w : Fin 8} (hw : w ≠ 0) (v : Word) (s : State) : Moves s (forward r w v s) := by
  unfold forward
  split
  · exact pushNeed_moves (.of_translated ..) (leavesGates_translated r _ v hw)
  · exact .refl

/-- Turns, and then perhaps a move at the port. -/
def Joined (s t : State) : Prop := ∃ u, Turns s u ∧ (t = u ∨ PortMove u t)

theorem Turns.joined {s t : State} (h : Turns s t) : Joined s t := ⟨t, h, .inl rfl⟩

theorem Joined.after {s t u : State} (h : Turns s t) (h' : Joined t u) : Joined s u := by
  obtain ⟨v, hv, e⟩ := h'
  exact ⟨v, h.trans hv, e⟩

theorem joined_ite {c : Prop} [Decidable c] {s t u : State} (h : c → Joined s t) (h' : ¬c → Joined s u) :
    Joined s (if c then t else u) := by
  split
  · next hc => exact h hc
  · next hc => exact h' hc

/-- A word 0 is live in NORMAL only. -/
theorem restart_of_isLive_gate {s : State} {r : Rec} (h : isLive s r 0 = true) : s.rct.restart = .normal := by
  unfold isLive at h
  cases hr : s.rct.restart with
  | normal => rfl
  | _ => simp [hr] at h

theorem forward_gate_joined {r : Rec} {v : Word} {s : State} (h : isLive s r 0 = true) : Joined s (forward r 0 v s) := by
  unfold forward
  split
  · exact ⟨s, .refl, .inr (.join _ (.of_translated ..) fun _ _ _ _ => restart_of_isLive_gate h)⟩
  · exact Turns.joined .refl

theorem writeGate_joined (r : Rec) (v : Word) (s : State) : Joined s (writeGate r v s) :=
  .after (commitOther_moves r s).turns (joined_ite (fun _ => (countRefusal_moves ..).turns.joined) fun _ =>
    .after (setImage_move ..).moves.turns (joined_ite forward_gate_joined fun _ => Turns.joined .refl))

theorem translateAmplitude_range (m : Rounding) (scale amplitude : Word) :
    (translateAmplitude m scale amplitude).1.toNat ≤ 32767 := by
  unfold translateAmplitude
  dsimp only
  split
  · simp
  · simp [word]; omega

theorem latchAmplitude_moves (r : Rec) (i : Slot) (v : Word) (s : State) : Moves s (latchAmplitude r i v s) :=
  (moves_ite (fun _ => countSaturation_moves ..) fun _ => .refl).trans
    ((commitPhase_moves ..).tail (Move.latch _ _ (translateAmplitude_range ..)))

theorem storeAmplitude_moves (r : Rec) (v : Word) (s : State) : Moves s (storeAmplitude r v s) :=
  Relation.ReflTransGen.tail (Relation.ReflTransGen.tail (moves_ite (fun _ => countSaturation_moves ..) fun _ => .refl)
    (setImage_move ..)) (marks_move (fun f => { f with amplitudeMark := f.amplitudeMark.set r true })
    (fun _ => rfl) (fun _ => rfl) _)

theorem writeAmplitude_turns (r : Rec) (v : Word) (s : State) : Turns s (writeAmplitude r v s) := by
  refine Relation.ReflTransGen.trans ((storeAmplitude_moves r v s).turns.trans ?_) (testAwaiting_turns _)
  split
  · exact (latchAmplitude_moves ..).turns
  · exact (commitOther_moves ..).turns

theorem commitAngle_moves (r : Rec) (i : Slot) (v : Word) (s : State) : Moves s (commitAngle r i v s) := by
  unfold commitAngle
  dsimp only
  split
  · next l hl =>
    refine moves_ite (fun _ => (pushNeed_moves ⟨fun _ => rfl, fun r' i' m' g' e => ?_, by simp, by simp⟩
      (leavesGates_pair _ _ _ _)).trans (setLatch_none_moves ..)) fun _ => (commitAlone_moves _ l s hl).trans
        (pushNeed_moves (.of_translated _ r 2 i _) (leavesGates_translated r (w := 2) i _ (by decide)))
    obtain ⟨-, -, rfl, -⟩ := Need.pair.inj e
    exact ⟨_, l, hl, rfl⟩
  · exact pushNeed_moves (.of_translated _ r 2 i _) (leavesGates_translated r (w := 2) i _ (by decide))

theorem storeAngle_moves (r : Rec) (v : Word) (s : State) : Moves s (storeAngle r v s) :=
  (setImage_move ..).moves.tail (marks_move _ (by exact fun _ => rfl) (by exact fun _ => rfl) _)

theorem writeAngle_turns (r : Rec) (v : Word) (s : State) : Turns s (writeAngle r v s) := by
  refine Relation.ReflTransGen.trans ((storeAngle_moves r v s).turns.trans ?_) (testAwaiting_turns _)
  split
  · exact (commitAngle_moves ..).turns
  · exact (commitOther_moves ..).turns

theorem writeCarrier_moves (r : Rec) (v : Word) (s : State) : Moves s (writeCarrier r v s) :=
  ((commitOther_moves ..).tail (setImage_move ..)).trans (moves_ite (fun _ => forward_moves r (w := 3) (by decide) _ _) fun _ => .refl)

theorem writeBypass_moves (r : Rec) (s : State) : Moves s (writeBypass r s) :=
  (commitOther_moves ..).trans (countRefusal_moves ..)

theorem writeAux_moves (r : Rec) (i : Fin 3) (v : Word) (s : State) : Moves s (writeAux r i v s) :=
  ((commitOther_moves ..).tail (setImage_move ..)).trans
    (moves_ite (fun _ => forward_moves r (fun e => by simpa using congrArg Fin.val e) v _) fun _ => holdAux_moves ..)

theorem writeInside_joined (r : Rec) (w : Fin 8) (v : Word) (s : State) : Joined s (writeInside r w v s) := by
  fin_cases w
  · exact writeGate_joined ..
  · exact (writeAmplitude_turns ..).joined
  · exact (writeAngle_turns ..).joined
  · exact (writeCarrier_moves ..).turns.joined
  · exact (writeBypass_moves ..).turns.joined
  all_goals exact (writeAux_moves ..).turns.joined

theorem throughWindow_joined (r : Rec) (w : Fin 8) (v : Word) {inside : State → State} (h : ∀ t, Joined t (inside t))
    (s : State) : Joined s (throughWindow r w v inside s) :=
  joined_ite (fun _ => joined_ite (fun _ => .after (recordCapture_moves ..).turns (h _)) fun _ => (countRefusal_moves ..).turns.joined)
    fun _ => Turns.joined .refl

theorem readCommand_moves (r : Rec) (w : Fin 8) (s : State) : Moves s (readCommand r w s) := (answerHost_move _ s).moves

theorem readLogicalStatus_moves (r : Rec) (w : Fin 8) (s : State) : Moves s (readLogicalStatus r w s) := by
  refine moves_ite (fun _ => ?_) fun _ => (answerHost_move _ s).moves
  split
  · exact pushNeed_moves (.of_read ..) (leavesGates_read _ _)
  · exact (answerHost_move _ s).moves

/-- An unarmed write goes anywhere. -/
theorem passWrite_joined {s : State} (a : Addr) (v : Word) (d : Option Delivery) (h : s.rct.restart = .unarmed) :
    Joined s (passWrite a v d s) :=
  ⟨s, .refl, .inr (.join _ (.of_passWrite _ _ _ fun hu => absurd h hu) (by simp))⟩

/-- A gate word lies in the command records. -/
theorem regionOf_of_isGateWord {a : Addr} (h : IsGateWord a) : regionOf a = .physicalCommand := by
  have hb := h.bounds
  unfold regionOf inPhysicalCommand
  dsimp only
  rw [dif_neg (by omega), dif_neg (by omega), if_pos (by simp; omega)]

/-- A write outside the physical command records, the plan region and the map image is passed in any state. -/
theorem passWrite_moves {a : Addr} (v : Word) (d : Option Delivery) (s : State) (h1 : regionOf a ≠ .physicalCommand)
    (h2 : regionOf a ≠ .planOrImage) : Moves s (passWrite a v d s) := by
  refine pushNeed_moves (.of_passWrite _ _ _ fun _ => ?_) fun x hx hg => ?_
  · unfold Need.isProtected
    cases hr : regionOf a <;> simp_all
  · rw [List.mem_singleton.1 hx] at hg
    exact h1 (regionOf_of_isGateWord hg)

theorem writeProtected_joined (a : Addr) (v : Word) (s : State) : Joined s (writeProtected a v s) :=
  joined_ite (fun h => passWrite_joined _ _ _ (by simpa [isUnarmed] using h)) fun _ => (countRefusal_moves ..).turns.joined

theorem hostWrite_joined (a : Addr) (v : Word) (s : State) : Joined s (hostWrite a v s) := by
  have pass : ∀ d, regionOf a ≠ .physicalCommand → regionOf a ≠ .planOrImage → Turns s (passWrite a v d s) :=
    fun d h1 h2 => (passWrite_moves v d s h1 h2).turns
  unfold hostWrite
  split
  · exact throughWindow_joined _ _ _ (writeInside_joined _ _ _) s
  · exact Turns.joined .refl
  · exact writeProtected_joined ..
  · exact writeProtected_joined ..
  · next hr =>
    refine Turns.joined (turns_ite (fun _ => pass _ ?_ ?_) fun _ => turns_ite (fun _ => pass _ ?_ ?_) fun _ =>
      (countRefusal_moves ..).turns) <;> simp [hr]
  · next hr =>
    refine Turns.joined (turns_ite (fun _ => pass _ ?_ ?_) fun _ => turns_ite (fun _ => pass _ ?_ ?_) fun _ =>
      turns_ite (fun _ => pass _ ?_ ?_) fun _ => (countRefusal_moves ..).turns) <;> simp [hr]
  · next hr => refine Turns.joined (pass _ ?_ ?_) <;> simp [hr]
  · next hr => refine Turns.joined (pass _ ?_ ?_) <;> simp [hr]

theorem hostRead_moves (a : Addr) (s : State) : Moves s (hostRead a s) := by
  unfold hostRead
  split
  · exact readCommand_moves ..
  · exact readLogicalStatus_moves ..
  all_goals exact pushNeed_moves (.of_read ..) (leavesGates_read _ _)

/-! ## Deliveries -/

theorem dropDelivery_moves (s : State) : Moves s (dropDelivery s) := (deliveries_move _ s ⟨_, rfl⟩).moves

theorem takePeriodTag_turns (v : Word) (s : State) : Turns s (takePeriodTag v s) := by
  have h : Moves s (s.onHif fun h => { h with lastTag := v, tagChanged := true, stale := 0 }) :=
    hif_moves _ _ ⟨⟨rfl, rfl, rfl⟩, fun _ => Nat.zero_le _, id⟩
  exact turns_ite (fun _ => .refl) fun _ => h.turns.trans
    (turns_ite (fun _ => (logRecord_moves ..).turns.trans (testAwaiting_turns _)) fun _ => .refl)

theorem takeProof_moves (s : State) : Moves s (takeProof s) := by
  refine moves_ite (fun _ => .refl) fun _ => ?_
  split
  · next h => exact enterNormal_moves h
  · next h => exact moves_ite (fun _ => (Move.reproof h).moves.trans (hoistRecord_moves ..)) fun _ => .refl
  all_goals exact .refl

theorem takeRestartEnable_moves (v : Word) (s : State) : Moves s (takeRestartEnable v s) :=
  registers_moves _ s ⟨_, _, _, _, _, _, _, _, _, rfl⟩

theorem takeConsumer_moves (v : Word) (s : State) : Moves s (takeConsumer v s) :=
  moves_ite (fun h => log_moves _ s (.of_fields id rfl (fun h => h.2.1) (fun h => h.2.2.1) (fun _ => h) rfl
    (.inl List.suffix_rfl))) fun _ => .refl

/-! ## The plan read and the hoist lines -/

theorem takeLength_moves (w : Word) {s : State} (h : s.pld.cursor ≠ .none) : Moves s (takeLength w s) :=
  moves_ite (fun _ => (pld_moves (fun p => { p with planLength := w.toNat + 1 }) s id).trans (refusePlan_moves _ _ h))
    fun _ => pld_moves _ s fun _ => h

theorem takePlanWords_moves (o : Nat) {s : State} (h : s.pld.cursor ≠ .none) : Moves s (takePlanWords o s) :=
  pld_moves (fun p =>
    { p with
      copy := p.copy ++ (List.range (min 8 (s.pld.planLength - o))).map fun j => s.mem.read (planAddr (o + j))
      cursor := if p.planLength ≤ o + min 8 (s.pld.planLength - o) then .drive else .word (o + min 8 (s.pld.planLength - o)) })
    s fun _ => h

theorem handOverDrive_moves (s : State) : Moves s (handOverDrive s) :=
  (registers_moves _ s ⟨_, _, _, _, _, _, _, _, _, rfl⟩).trans (hif_moves _ _ ⟨⟨rfl, rfl, rfl⟩, id, id⟩)

theorem convertMode_moves (code arg : Word) {s : State} (h : s.rct.restart.inSequence = true) :
    Moves s (convertMode code arg s) := (Move.convert h).moves.trans (hoistRecord_moves ..)

theorem brakeRise_moves (s : State) : Moves s (brakeRise s) := by
  unfold brakeRise
  cases h : s.rct.restart
  case normal => exact (Move.park).moves.trans (hoistRecord_moves ..)
  case unarmed | arming | proving | lockout => exact .refl
  all_goals
    cases s.rct.mode with
    | rideThrough => exact convertMode_moves _ _ (by simp [h, RestartState.inSequence])
    | standstill => exact .refl

theorem liftedWithoutPermit_moves {s : State} (h : s.rct.restart.underWay = true) : Moves s (liftedWithoutPermit s) :=
  (hoistRecord_moves ..).trans (enterLockout_moves (by simpa using h) _)

theorem brakeFall_moves (s : State) : Moves s (brakeFall s) := by
  unfold brakeFall
  cases h : s.rct.restart
  case normal =>
    exact moves_ite (fun _ => .refl) fun _ => liftedWithoutPermit_moves (by simp [h, RestartState.underWay])
  case proving => exact liftedWithoutPermit_moves (by simp [h, RestartState.underWay])
  case unarmed | arming | lockout => exact .refl
  all_goals
    cases s.rct.mode with
    | rideThrough => exact .refl
    | standstill => exact hoistRecord_moves ..

/-! ## Time -/

theorem millisecond_moves (s : State) : Moves s (millisecond s) := by
  refine ((Relation.ReflTransGen.trans (Move.itm _ ?_).moves (rct_moves _ _ ?_)).tail (fin_move _ _)).tail (lsv_move _ _)
  · unfold Itm.tick; split
    · dsimp only; split <;> rfl
    · rfl
  · exact .of_fields rfl rfl (.inl le_rfl) (by simp [Rct.tick]) (fun _ h => by simpa [timersStopped, Rct.tick] using h) rfl
      (.inl rfl) (.inl rfl)

theorem hostCount_moves (code count : Word) (s : State) : Moves s (hostCount code count s) :=
  moves_ite (fun _ => .refl) fun _ => logRecord_moves ..

@[simp] theorem Need.reported_access (n : Need) : n.reported.access = n.access := by cases n <;> rfl

theorem secondOfPassage_moves (s : State) : Moves s (secondOfPassage s) := by
  refine Relation.ReflTransGen.tail ((((((((hostCount_moves ..).trans (hostCount_moves ..)).trans (hostCount_moves ..)).trans
    (hostCount_moves ..)).trans (hostCount_moves ..)).trans (hostCount_moves ..)).trans (hostCount_moves ..)))
    (Move.bpu _ ⟨rfl, fun p l h => h, ?_, ?_⟩)
  · simp only [runningNeeds]
    split
    · rw [← List.map_take, List.map_map]
      exact List.map_congr_left fun n _ => Need.reported_access n
    · rfl
  · intro n hn
    simp only [waitingNeeds] at hn ⊢
    split at hn
    · next h =>
      rw [← List.map_drop] at hn
      obtain ⟨m, hm, rfl⟩ := List.mem_map.1 hn
      exact ⟨m, by rw [if_pos h]; exact hm, by simp⟩
    · next h =>
      obtain ⟨m, hm, rfl⟩ := List.mem_map.1 hn
      exact ⟨m, by rw [if_neg h]; exact hm, by simp⟩

theorem secondOfScans_moves (s : State) : Moves s (secondOfScans s) :=
  Relation.ReflTransGen.trans (moves_ite (fun _ => .refl) fun _ => logRecord_moves ..)
    (ssc_moves (fun c => { c with overrun := 0 }) _ rfl)

theorem secondPassed_moves (s : State) : Moves s (secondPassed s) :=
  (((secondOfLinks_moves s).trans (secondOfPassage_moves _)).trans (secondOfScans_moves _)).trans (queueMapImage_moves ..)

theorem logStuck_moves (i : Slot) (s : State) : Moves s (logStuck i s) := by
  unfold logStuck
  split
  · exact logRecord_moves ..
  · exact .refl

theorem logStuckAll_moves (slots : List Slot) (s : State) : Moves s (logStuckAll slots s) :=
  foldl_moves (fun t i => logStuck i t) (fun t i => logStuck_moves i t) slots s

theorem contactorExpired_moves {s : State} (h : s.rct.restart = .isolating) : Moves s (contactorExpired s) :=
  (logStuckAll_moves ..).trans (moves_ite (fun _ => enterLockout_moves (by simp [h, RestartState.underWay]) _) fun _ =>
    takeFaults_moves ..)

theorem armingExpired_moves (s : State) : Moves s (armingExpired s) := (logStuckAll_moves ..).trans (endArming_moves ..)

theorem periodEnded_turns {s : State} (h : s.hif.period.running = true) : Turns s (periodEnded s) := by
  have h1 : Moves s (s.onHif (Hif.endPeriod s.plan.controlPeriod)) := by
    refine hif_moves _ _ ⟨⟨rfl, rfl, rfl⟩, fun hs => ?_, fun hp => by simp [h] at hp⟩
    simp only [Hif.endPeriod]
    split
    · exact hs
    · unfold boundedInc; split <;> omega
  exact h1.turns.trans (turns_ite (fun _ => (logRecord_moves ..).turns.trans (stalenessEvent_turns _)) fun _ => .refl)

/-! ## The port at the end of a command (R27 to R29, R33, R46, R150 to R152) -/

/-- The head job for staging stands in its list. -/
theorem headOpen_mem {stage : Option ReleaseStage} {l : List Job} {j : Job} (h : headOpen stage l = some j) : j ∈ l :=
  List.mem_of_find?_eq_some h

@[simp] theorem Wen.complete_buffer (w : Wen) (k : JobKind) (b : BufferId) : (w.complete k).buffer b = w.buffer b := by
  unfold Wen.complete Wen.note
  split <;> cases b <;> cases k.cls <;> rfl

@[simp] theorem releaseAdvance_buffer (s : State) (b : BufferId) : (releaseAdvance s).wen.buffer b = s.wen.buffer b := by
  unfold releaseAdvance
  split
  · split
    · rfl
    · split
      · simp only [startGates, State.onWen_wen, State.onRfs_wen]
        split
        · rw [Wen.complete_buffer]; rfl
        · rfl
      · rfl
  all_goals rfl

/-- What a drain writes are auxiliary words of command records (R151). -/
theorem drainAux_addr (slot : Rec → Option Slot) (l : List AuxEntry) (n : Nat) :
    ∀ x ∈ (drainAux slot l n).1, ∃ (i : Slot) (a : Fin 3), x.1 = physicalCommandAddr i (5 + a.val) := by
  induction l generalizing n with
  | nil => simp [drainAux]
  | cons e es ih =>
    cases n with
    | zero => simp [drainAux]
    | succ n =>
      unfold drainAux
      split
      · next i hi =>
        intro x hx
        rcases List.mem_cons.1 hx with rfl | hx
        · exact ⟨i, e.aux, rfl⟩
        · exact ih n x hx
      · exact ih (n + 1)

/-- The entries a drain leaves are the last ones of the list. -/
theorem drainAux_suffix (slot : Rec → Option Slot) (l : List AuxEntry) (n : Nat) : (drainAux slot l n).2.1 <:+ l := by
  induction l generalizing n with
  | nil => simp [drainAux]
  | cons e es ih =>
    cases n with
    | zero => simp [drainAux]
    | succ n =>
      unfold drainAux
      split
      · exact (ih n).trans (List.suffix_cons e es)
      · exact (ih (n + 1)).trans (List.suffix_cons e es)

theorem drain_settling (s : State) : Settling s (drain s).2 := by
  have hrecords : ∀ (l : List Rec) (t : State), Settling t (l.foldl (fun t r => logDiscarded r t) t) := by
    intro l
    induction l with
    | nil => exact fun _ => .refl
    | cons r l ih =>
      exact fun t => .head (.inl ⟨Move.hand false .map 8 noSlot (word r.val), by simp, by simp, by simp⟩) (ih _)
  exact .head (.inl ⟨Move.aux _ fun h => (drainAux_suffix (slotOfRecord s) s.rfs.aux Config.burstLength).length_le.trans h,
    rfl, rfl, rfl⟩) (hrecords _ _)

@[simp] theorem drain_buffer (s : State) (b : BufferId) : (drain s).2.wen.buffer b = s.wen.buffer b := by
  have h := records_foldl (fun t r => logDiscarded r t) (fun t r => records_logRecord ..)
    (drainAux (slotOfRecord s) s.rfs.aux Config.burstLength).2.2
    (s.onRfs fun f => { f with aux := (drainAux (slotOfRecord s) s.rfs.aux Config.burstLength).2.1 })
  exact h.jobsGrow.buffer b

theorem inAuxiliary_congr {s t : State} (h : t.rfs.stage = s.rfs.stage) : inAuxiliary t = inAuxiliary s := by
  simp [inAuxiliary, h]

theorem stageAuxiliary_settling (b : BufferId) {s : State} (hb : s.wen.buffer b = .empty) (ha : inAuxiliary s = true) :
    Settling s (stageAuxiliary b s) := by
  refine (drain_settling s).trans (settling_ite (fun _ => settling_ite (fun _ => ?_) fun _ => ?_) fun _ => ?_)
  · exact (PortMove.wait ((inAuxiliary_congr (by simp)).trans ha)).settling
  · refine (PortMove.advance).settling.trans ?_
    dsimp only
    split
    · next j hj => exact settling_ite (fun _ => (PortMove.stage b .two j (by simpa using hb) (headOpen_mem hj)).settling) fun _ => .refl
    · exact .refl
  · exact (PortMove.drained b _ (by simpa using hb) (by exact drainAux_addr _ _ _)).settling

theorem stageTwo_settling (b : BufferId) {s : State} (hb : s.wen.buffer b = .empty) : Settling s (stageTwo b s) := by
  unfold stageTwo
  split
  · exact .refl
  · next j hj =>
    exact settling_ite (fun h => settling_ite (fun _ => .refl) fun _ => stageAuxiliary_settling b hb h.2) fun _ =>
      (PortMove.stage b .two j hb (headOpen_mem hj)).settling

theorem stageThree_settling (b : BufferId) {s : State} (hb : s.wen.buffer b = .empty) : Settling s (stageThree b s) := by
  unfold stageThree
  split
  · exact .refl
  · next j hj => exact (PortMove.stage b .three j hb (headOpen_mem hj)).settling

theorem Buffer.isEmpty_iff {v : Buffer} : v.isEmpty = true ↔ v = .empty := by cases v <;> simp [Buffer.isEmpty]

theorem fillBuffer_settling (b : BufferId) (s : State) : Settling s (fillBuffer b s) := by
  refine settling_ite (fun hb => ?_) fun _ => .refl
  rw [Buffer.isEmpty_iff] at hb
  split
  · next j hj => exact (PortMove.stage b .one j hb (headOpen_mem hj)).settling
  · exact settling_ite (fun _ => .refl) fun _ => (stageTwo_settling b hb).trans
      (settling_ite (fun h => stageThree_settling b (Buffer.isEmpty_iff.1 h)) fun _ => .refl)

theorem fill_settling (s : State) : Settling s (fill s) := (fillBuffer_settling .x s).trans (fillBuffer_settling .y _)

/-- A buffer that is ready in a class is READY. -/
theorem readyOf_some {w : Wen} {c : JobClass} {b : BufferId} (h : w.readyOf c = some b) :
    ∃ u, w.buffer b = .ready u ∧ u.kind.cls = c := by
  have := List.find?_some h
  cases hb : w.buffer b <;> simp [hb, Buffer.readyClass] at this
  exact ⟨_, rfl, this⟩

/-- What a boundary chooses: a READY buffer, a read in progress, or the BPU with a need (R28). -/
theorem choose_some {s : State} {h : Holder} (hc : choose s = some h) :
    (∃ b u, h = .wen b ∧ s.wen.buffer b = .ready u) ∨ readInProgress s = some h ∨ h = .bpu ∧ s.bpu.needs ≠ [] := by
  have wen : ∀ c, wenRequest s c = some h → ∃ b u, h = .wen b ∧ s.wen.buffer b = .ready u := by
    intro c hw
    obtain ⟨b, hb, rfl⟩ := Option.map_eq_some_iff.1 hw
    obtain ⟨u, hu, -⟩ := readyOf_some hb
    exact ⟨b, u, rfl, hu⟩
  have bpu : bpuRequest s = some h → h = .bpu ∧ s.bpu.needs ≠ [] := by
    unfold bpuRequest
    split
    · simp
    · next hn => intro e; exact ⟨(Option.some.inj e).symm, hn⟩
  unfold choose at hc
  split at hc
  · simp only [Option.orElse_eq_orElse, Option.orElse_eq_or, Option.or_eq_some_iff] at hc
    rcases hc with hc | ⟨-, hc | ⟨-, hc⟩⟩
    · exact .inl (wen _ hc)
    · exact .inr (.inl hc)
    · split at hc <;> simp only [Option.or_eq_some_iff] at hc
      · rcases hc with hc | ⟨-, hc | ⟨-, hc⟩⟩
        · exact .inl (wen _ hc)
        · exact .inl (wen _ hc)
        · exact .inr (.inr (bpu hc))
      · rcases hc with hc | ⟨-, hc | ⟨-, hc⟩⟩
        · exact .inr (.inr (bpu hc))
        · exact .inl (wen _ hc)
        · exact .inl (wen _ hc)
  · exact .inr (.inr (bpu hc))

/-- A read in progress is the scanner's or the plan loader's. -/
theorem readInProgress_some {s : State} {h : Holder} (hr : readInProgress s = some h) :
    (∃ i, h = .ssc i false ∧ s.ssc.position = some i) ∨ h = .pld false := by
  unfold readInProgress at hr
  split at hr
  · obtain ⟨i, hi, rfl⟩ := Option.map_eq_some_iff.1 hr
    exact .inl ⟨i, rfl, hi⟩
  · split at hr
    · exact absurd hr (by simp)
    · exact .inr (Option.some.inj hr).symm

theorem grantLoop_settling (n : Nat) {s : State} (hh : s.mpa.holder = none) : Settling s (grantLoop n s) := by
  induction n generalizing s with
  | zero => exact .refl
  | succ n ih =>
    unfold grantLoop
    split
    · exact .refl
    · next b hc =>
      rcases choose_some hc with ⟨b', u, e, hu⟩ | hr | ⟨e, -⟩
      · cases e; exact (PortMove.grantWen b u hh hu).settling
      · rcases readInProgress_some hr with ⟨_, e, _⟩ | e <;> simp at e
      · simp at e
    · next i d hc =>
      rcases choose_some hc with ⟨b', u, e, hu⟩ | hr | ⟨e, -⟩
      · simp at e
      · exact (PortMove.grantRead _ hh hr).settling
      · simp at e
    · next d hc =>
      rcases choose_some hc with ⟨b', u, e, hu⟩ | hr | ⟨e, -⟩
      · simp at e
      · exact (PortMove.grantRead _ hh hr).settling
      · simp at e
    · split
      · exact .refl
      · next need rest hn =>
        split
        · next hl => exact (PortMove.grantBpu need rest hh hn hl).settling
        · next hl => exact (PortMove.stop need rest hh hn (by simpa using hl)).settling.trans (ih (by simpa using hh))

theorem grant_settling (s : State) : Settling s (grant s) := by
  unfold grant
  split
  · exact .refl
  · next hh => exact grantLoop_settling _ hh

/-! ## Every command -/

theorem settle_settling (s : State) : Settling s (settle s) :=
  ((fill_settling s).trans (grant_settling _)).trans (fill_settling _)

/-- What a command may do: turns, perhaps a move at the port, and mostly the settling of the port; or at the end of the plan read the adoption of a plan
that the checks accept. -/
def Turned (c : Instr) (s t : State) : Prop :=
  (∃ u, Joined s u ∧ (t = u ∨ t = settle u)) ∨ ∃ u, c = .pldTenureEnd ∧ s.mpa.holder = some (.pld false) ∧ s.pld.cursor = .drive
    ∧ planRefusal s.pld.copy s.mpl.slots = none ∧ u = handOverDrive (releasePort s) ∧ t = settle (adopt u)

theorem settled_turns {s u t : State} {c : Instr} (h : Turns s u) (e : (Host.Outcome.next (settle u) : Host.Outcome State Fault Refusal) = .next t) :
    Turned c s t := by
  cases e; exact .inl ⟨u, h.joined, .inr rfl⟩

theorem settled_joined {s u t : State} {c : Instr} (h : Joined s u)
    (e : (Host.Outcome.next (settle u) : Host.Outcome State Fault Refusal) = .next t) : Turned c s t := by
  cases e; exact .inl ⟨u, h, .inr rfl⟩

theorem idle_turns {s t : State} {c : Instr} (e : (Host.Outcome.next s : Host.Outcome State Fault Refusal) = .next t) :
    Turned c s t := by
  cases e; exact .inl ⟨s, Turns.joined .refl, .inl rfl⟩

/-- A command that a test guards. -/
theorem guarded_turns {p : Prop} [Decidable p] {s u t : State} {c : Instr} (h : p → Turns s u)
    (e : (if p then Host.Outcome.next (settle u) else Host.Outcome.next s : Host.Outcome State Fault Refusal) = .next t) :
    Turned c s t := by
  split at e
  · next hp => exact settled_turns (h hp) e
  · exact idle_turns e

theorem pldTenureEnd_turns {s t : State} (e : execPldTenureEnd s = .next t) : Turned .pldTenureEnd s t := by
  unfold execPldTenureEnd at e
  split at e
  · next d hd =>
    have hr : Moves s (releasePort s) := (Move.endRead (.inr ⟨d, hd⟩)).moves
    cases d with
    | true => exact settled_turns hr.turns e
    | false =>
      simp only [Bool.false_eq_true, if_false] at e
      unfold takePlanTenure at e
      split at e
      · exact settled_turns hr.turns e
      · next h => exact settled_turns (Moves.turns (hr.trans (takeLength_moves _ (by rw [h]; simp)))) e
      · next h => exact settled_turns (Moves.turns (hr.trans (takePlanWords_moves _ (by rw [h]; simp)))) e
      · next h =>
        have hc : s.pld.cursor = .drive := by simpa using h
        unfold judgePlan at e
        split at e
        · exact settled_turns (Moves.turns ((hr.trans (handOverDrive_moves _)).trans (refusePlan_moves _ _ (by simp [hc])))) e
        · next hp =>
          cases e
          exact .inr ⟨_, rfl, hd, hc, by simpa using hp, rfl, rfl⟩
  all_goals exact idle_turns e

theorem bpuTenureEnd_turns {s t : State} (far : List FarWrite) (e : execBpuTenureEnd far s = .next t) :
    Turned (.bpuTenureEnd far) s t := by
  unfold execBpuTenureEnd at e
  split at e
  · next h => exact settled_joined ⟨_, (Move.far far).moves.turns, .inr (.endBpu (by simpa using h))⟩ e
  all_goals exact idle_turns e

theorem sscSlotTenureEnd_turns {s t : State} (far : List FarWrite) (e : execSscSlotTenureEnd far s = .next t) :
    Turned (.sscSlotTenureEnd far) s t := by
  unfold execSscSlotTenureEnd at e
  split at e
  · next i d h =>
    have hr : Moves s (releasePort (s.onMem (applyFar far))) :=
      (Move.far far).moves.tail (Move.endRead (.inl ⟨i, d, by simpa using h⟩))
    exact settled_turns (hr.turns.trans (turns_ite (fun _ => .refl) fun _ =>
      (evaluateFrame_turns ..).trans (advanceScan_turns ..))) e
  all_goals exact idle_turns e

theorem wenTenureEnd_turns {s t : State} (e : execWenTenureEnd s = .next t) : Turned .wenTenureEnd s t := by
  unfold execWenTenureEnd at e
  split at e
  · next b h =>
    split at e
    · next u hu => exact settled_turns (Move.endWen b u h hu).moves.turns e
    all_goals exact idle_turns e
  all_goals exact idle_turns e

theorem armRising_turns {s t : State} (e : execArmRising s = .next t) : Turned .armRising s t := by
  unfold execArmRising at e
  split at e
  · exact idle_turns e
  · have hp := (pins_move (fun p => { p with arm := true }) s).moves.turns
    dsimp only at e
    split at e
    · next h => exact settled_turns (hp.tail (.arm h.1)) e
    · cases e; exact .inl ⟨_, hp.joined, .inl rfl⟩

theorem armFalling_turns {s t : State} (e : execArmFalling s = .next t) : Turned .armFalling s t := by
  unfold execArmFalling at e
  split at e
  · have hp := (pins_move (fun p => { p with arm := false }) s).moves.turns
    dsimp only at e
    split at e
    · cases e; exact .inl ⟨_, hp.joined, .inl rfl⟩
    · exact settled_turns (hp.trans (disarmWith_moves ..).turns) e
  · exact idle_turns e

theorem contactorTimeout_turns {s t : State} (e : execContactorTimeout s = .next t) : Turned .contactorTimeout s t := by
  unfold execContactorTimeout at e
  split at e
  · split at e
    · next h => exact settled_turns (contactorExpired_moves h).turns e
    · exact settled_turns (armingExpired_moves s).turns e
    all_goals exact idle_turns e
  · exact idle_turns e

/-- A command for a delivery: the owner takes the oldest one, if it is of its kind. -/
theorem delivery_turns {s t : State} {c : Instr} (hc : c = .periodTagWrite ∨ c = .directionWrite ∨ c = .proofEvent
    ∨ c = .restartEnableWrite ∨ c = .consumedWrite ∨ c = .consumerWrite) (e : exec c s = .next t) : Turned c s t := by
  have hd := (dropDelivery_moves s).turns
  rcases hc with rfl | rfl | rfl | rfl | rfl | rfl
  · simp only [exec, execPeriodTagWrite] at e
    split at e
    · exact settled_turns (hd.trans (takePeriodTag_turns ..)) e
    · exact idle_turns e
  · simp only [exec, execDirectionWrite] at e
    split at e
    · exact settled_turns (hd.trans (directionWrite_turns ..)) e
    · exact idle_turns e
  · simp only [exec, execProofEvent] at e
    split at e
    · exact settled_turns (hd.trans (takeProof_moves _).turns) e
    · exact idle_turns e
  · simp only [exec, execRestartEnableWrite] at e
    split at e
    · exact settled_turns (hd.trans (takeRestartEnable_moves ..).turns) e
    · exact idle_turns e
  · simp only [exec, execConsumedWrite] at e
    split at e
    · exact settled_turns (hd.trans (consumeCapture_moves _).turns) e
    · exact idle_turns e
  · simp only [exec, execConsumerWrite] at e
    split at e
    · exact settled_turns (hd.trans (takeConsumer_moves ..).turns) e
    · exact idle_turns e

/-- Every command but the two resets is made of turns, an adoption apart. -/
theorem exec_turns {c : Instr} {s t : State} (h1 : c ≠ .powerOnReset) (h2 : c ≠ .resetNLow) (e : exec c s = .next t) :
    Turned c s t := by
  cases c with
  | powerOnReset => exact absurd rfl h1
  | resetNLow => exact absurd rfl h2
  | resetNHigh =>
    simp only [exec, execResetNHigh] at e
    split at e
    · exact idle_turns e
    · exact settled_turns (Moves.turns ((pins_move _ s).moves.trans (submitResetBlock_moves _))) e
  | armRising => exact armRising_turns e
  | armFalling => exact armFalling_turns e
  | frameRising => exact settled_turns (frameEdge_turns s) e
  | faultLineEdge p => exact settled_turns (lineTransition_moves ..).turns e
  | faultLineInactiveTransition p => exact settled_turns (lineTransition_moves ..).turns e
  | brakeSetRising =>
    simp only [exec, execBrakeSetRising] at e
    split at e
    · exact idle_turns e
    · exact settled_turns (Moves.turns ((pins_move _ s).moves.trans (brakeRise_moves _))) e
  | brakeSetFalling => exact guarded_turns (fun _ => Moves.turns ((pins_move _ s).moves.trans (brakeFall_moves _))) e
  | msTick => exact settled_turns (millisecond_moves s).turns e
  | oneSecondInterval =>
    have hi : Moves s (s.onItm fun t => { t with secondsDue := t.secondsDue - 1 }) := (Move.itm _ (by exact rfl)).moves
    exact guarded_turns (fun _ => Moves.turns (hi.trans (secondPassed_moves _))) e
  | budgetExpiry => exact guarded_turns (fun h => (convertMode_moves _ _ h.2.2).turns) e
  | contactorTimeout => exact contactorTimeout_turns e
  | rechargeTimerExpiry => exact guarded_turns (fun _ => (takeFaults_moves ..).turns) e
  | freshSetTimerExpiry =>
    exact guarded_turns (fun h => (enterLockout_moves (by simp [h.2, RestartState.underWay]) _).turns) e
  | provingTimerExpiry =>
    exact guarded_turns (fun h => (enterLockout_moves (by simp [h.2, RestartState.underWay]) _).turns) e
  | strikeWindowExpiry i => exact guarded_turns (fun _ => (fin_move _ s).moves.turns) e
  | recentlyLostTimerExpiry i => exact guarded_turns (fun _ => (lsv_move _ s).moves.turns) e
  | identificationWindowExpiry => exact guarded_turns (fun _ => takeIdentExpiry_turns s) e
  | verifyWindowExpiry => exact guarded_turns (fun _ => (takeVerifyExpiry_moves s).turns) e
  | controlPeriodEnd =>
    exact guarded_turns (fun h => periodEnded_turns (by simp [Timer.due] at h; exact h.1)) e
  | logicalGateWrite r v => exact settled_joined (throughWindow_joined _ _ _ (fun t => writeGate_joined r v t) s) e
  | logicalAmplitudeWrite r v => exact settled_joined (throughWindow_joined _ _ _ (fun t => (writeAmplitude_turns r v t).joined) s) e
  | logicalAngleWrite r v => exact settled_joined (throughWindow_joined _ _ _ (fun t => (writeAngle_turns r v t).joined) s) e
  | logicalCarrierWrite r v => exact settled_joined (throughWindow_joined _ _ _ (fun t => (writeCarrier_moves r v t).turns.joined) s) e
  | bypassWord r v => exact settled_joined (throughWindow_joined _ _ _ (fun t => (writeBypass_moves r t).turns.joined) s) e
  | logicalAuxWrite r i v => exact settled_joined (throughWindow_joined _ _ _ (fun t => (writeAux_moves r i v t).turns.joined) s) e
  | outside r w v => exact settled_joined (throughWindow_joined _ _ _ (writeInside_joined r w v) s) e
  | logicalCommandRead r w => exact settled_turns (readCommand_moves ..).turns e
  | logicalStatusRead r w => exact settled_turns (readLogicalStatus_moves ..).turns e
  | logicalStatusWrite r w v => exact idle_turns e
  | physicalCommandWrite i w v => exact settled_joined (writeProtected_joined ..) e
  | planOrImageWrite a v => exact settled_joined (hostWrite_joined ..) e
  | captureRegionWrite a v => exact settled_joined (hostWrite_joined ..) e
  | logRegionWrite a v => exact settled_joined (hostWrite_joined ..) e
  | hostPassedAccess a op =>
    cases op with
    | read => exact settled_turns (hostRead_moves ..).turns e
    | write v => exact settled_joined (hostWrite_joined ..) e
  | periodTagWrite => exact delivery_turns (.inl rfl) e
  | directionWrite => exact delivery_turns (.inr (.inl rfl)) e
  | proofEvent => exact delivery_turns (.inr (.inr (.inl rfl))) e
  | restartEnableWrite => exact delivery_turns (.inr (.inr (.inr (.inl rfl)))) e
  | consumedWrite => exact delivery_turns (.inr (.inr (.inr (.inr (.inl rfl))))) e
  | consumerWrite => exact delivery_turns (.inr (.inr (.inr (.inr (.inr rfl))))) e
  | sscSlotTenureEnd far => exact sscSlotTenureEnd_turns far e
  | pldTenureEnd => exact pldTenureEnd_turns e
  | bpuTenureEnd far => exact bpuTenureEnd_turns far e
  | wenTenureEnd => exact wenTenureEnd_turns e
  | releaseComplete =>
    exact guarded_turns (fun _ => Moves.turns ((takeDone_moves ..).trans (releaseCompleted_moves _))) e
  | resetJobComplete =>
    exact guarded_turns (fun _ => Moves.turns ((takeDone_moves ..).trans
      (registers_moves _ _ (by exact ⟨_, _, _, _, _, _, _, _, _, rfl⟩)))) e
  | captureDumpComplete => exact guarded_turns (fun _ => Moves.turns ((takeDone_moves ..).trans (captureDumped_moves _))) e
  | logRecordComplete =>
    simp only [exec, execLogRecordComplete] at e
    split at e
    · exact settled_turns (takeRecordCompletion_moves ..).turns e
    · exact idle_turns e

end Sys2Proof.Machine
end

