-- ==== Sys2Proof/Proofs/KeptLaws.lean ====
section
/-! How a law is shown to be kept by every step: by the turns, by an adoption, and by the two resets. The first law is the
canonical form of the exchange memory. -/

namespace Sys2Proof.Machine

/-! ## The larger turns, taken apart -/

theorem cancelDisarmReports_moves (s : State) : Moves s (cancelDisarmReports s) :=
  ((takeRecordCompletions_moves s).tail (Move.cancel _)).trans (log_moves _ _
    (.of_fields id rfl (fun h => h.2.1) (fun h => h.2.2.1) (fun h => h.2.2.2.1) rfl (.inr (.inr ⟨_, rfl⟩))))

/-- The plan read starts (R165, R166). -/
def startPlanRead (s : State) : State :=
  (s.onBpu fun b => { b with needs := needsAtArming s }).onPld fun p => { p with cursor := .word 0, copy := [] }

/-- ARM rising enters ARMING, and starts the plan read or returns to UNARMED at once (R165). -/
theorem armRise_cases (s : State) :
    armRise s = startPlanRead (enter .arming noSlot 0 (cancelDisarmReports s))
      ∨ armRise s = endBeforeAdoption .brakeNotSet 0 (enter .arming noSlot 0 (cancelDisarmReports s)) := by
  by_cases h : (enter .arming noSlot 0 (cancelDisarmReports s)).pins.brakeSet = true
  · exact .inl (by simp only [armRise, h, ite_true]; rfl)
  · exact .inr (by simp only [armRise, h]; rfl)

theorem endArmRise_moves (s : State) :
    Moves (enter .arming noSlot 0 s) (endBeforeAdoption .brakeNotSet 0 (enter .arming noSlot 0 s)) :=
  endBeforeAdoption_moves _ _ (.inl (by simp))

/-- The entry to ARMING from UNARMED touches no latch and makes no HOIST record. -/
theorem enter_arming_moves {s : State} (h : s.rct.restart = .unarmed) :
    Moves (changed .arming false s) (enter .arming noSlot 0 s) := by
  have := enter_moves_changed .arming noSlot 0 s
  rwa [latchesLeft, h] at this

theorem submitRelease_eq (s : State) :
    submitRelease s = { s with
      wen := s.wen.append ⟨.release, referenceWrites s, false⟩
      rfs := { s.rfs with stage := some (if referenceWrites s = [] then .auxiliary false else .references), cursor := none } } :=
  rfl

/-- The change of state at the entry to RESUMING is made of moves, and then the release is submitted. -/
theorem enterResuming_moves {s : State} (h : s.rct.restart = .awaiting) :
    Moves s (enter .resuming noSlot s.rct.mode.code s) :=
  enter_moves (.of_start (.inl (by simp [h, RestartState.underWay])) (.inl rfl) (by simp [h, RestartState.latching]) (by simp)) ..

theorem shortLockout_moves {s : State} (h : s.rct.restart = .isolating) (hard : Slot → Bool) :
    Moves (mapTaken hard s) (enterLockout .infeasible (planRun hard s)) :=
  (planRun_moves hard s).trans (enterLockout_moves (by rw [planRun_restart, h]; rfl) _)

/-- The log at its start (R171). -/
def Log.start (capacity : Nat) (mask : Word) (l : Log) : Log :=
  { l with
    running := true, capacity := capacity, producer := 0, written := 0, consumer := 0, overflow := 0
    marks := List.replicate capacity false, writeList := [], irqMask := mask, irqN := true, irqHeld := false }

theorem startLog_keeps {R : State → Prop} (hm : ∀ s t, Move s t → R s → R t) {capacity : Nat} {mask : Word}
    (hs : ∀ t, R t → R (t.onLog (Log.start capacity mask))) {s : State} (h : R s) : R (startLog capacity mask s) := by
  have h1 := Moves.keeps hm ((takeRecordCompletions_moves s).tail (Move.cancel JobKind.isLogRecord)) h
  refine Moves.keeps hm ?_ (hs _ h1)
  refine Relation.ReflTransGen.trans (Relation.ReflTransGen.trans (Move.submit .logHeader _ (by simp) ?_).moves
    (logRecord_moves ..)) (logRecord_moves ..)
  refine .of_addr fun _ w hw hg => ?_
  have := hg.bounds
  simp only [List.mem_cons, List.not_mem_nil, or_false] at hw
  rcases hw with rfl | rfl | rfl | rfl <;> simp [logHeaderAddr] at this

/-- The jobs of an adoption and the start of the log are moves, the new blocks, the watch list, the start itself and the
contactor timer apart (R16, R168, R171). -/
theorem adopt_keeps {R : State → Prop} (hm : ∀ s t, Move s t → R s → R t) {s : State} (hb : R (adoptBlocks s))
    (hw : ∀ l t, R t → R (commandContactors l t))
    (hl : ∀ t, R t → R (t.onLog (Log.start (planNat s.pld.copy 34) (planWord s.pld.copy 35))))
    (hc : ∀ n t, R t → R (t.onRct fun r => { r with contactor := .load n })) : R (adopt s) := by
  have h1 := hw (fittedSlots (submitResetBlock (adoptBlocks s))) _ ((submitResetBlock_moves _).keeps hm hb)
  have h2 := Moves.keeps hm ((bumpGeneration_moves _).trans (queueCaptureHeader_moves _)) h1
  have h3 : ∀ l, R (logCommanded l (startLog (planNat s.pld.copy 34) (planWord s.pld.copy 35) _)) := fun l =>
    Moves.keeps hm (moves_ite (fun _ => .refl) fun _ => logRecord_moves ..) (startLog_keeps hm hl h2)
  exact Moves.keeps hm (pld_moves (fun d => { d with copy := [] }) _ id) (hc _ _ (h3 _))

/-! ## The two resets -/

@[simp] theorem stopNeed_needs (n : Need) (s : State) : (stopNeed n s).bpu.needs = s.bpu.needs.drop 1 := by
  unfold stopNeed
  dsimp only
  split
  · split <;> simp
  all_goals rfl

theorem retakeNeeds_settling (l : List Need) (s : State) (h : s.rct.restart = .unarmed) : Settling s (l.foldl retakeNeed s) := by
  induction l generalizing s with
  | nil => exact .refl
  | cons n l ih =>
    have h1 : Settling s (retakeNeed s n) := by
      unfold retakeNeed
      split
      · exact (PortMove.join _ (.of_passWrite _ _ _ fun hu => absurd h hu) (by simp)).settling
      · exact settling_ite (fun _ => .single (.inl ⟨answerHost_move _ s, rfl, rfl, rfl⟩)) fun _ =>
          (PortMove.join _ (.of_read ..) (by simp)).settling
      all_goals exact .refl
    exact h1.trans (ih _ (by simpa using h))

/-- The blocks right after a warm reset, before the waiting accesses are taken afresh. -/
def warmBlocks (s : State) : State :=
  (warmReset (takeRecordCompletions (cutTenure s))).onPins fun p => { p with resetN := false }

/-- What shows that every step keeps a law. -/
structure KeptBySteps (P : State → Prop) : Prop where
  turn : ∀ s t, Turn s t → P s → P t
  port : ∀ s t, PortMove s t → P s → P t
  adopt : ∀ s, s.pld.cursor = .drive → planRefusal s.pld.copy s.mpl.slots = none → P s → P (adopt s)
  powerOn : ∀ s, P s → P (blocksReset (cutTenure s))
  warm : ∀ s, P s → P (warmBlocks s)

theorem pending_move (q : List Instr) (s : State) : Move s { s with pending := q } :=
  .free fun g hg => by cases g <;> simp_all [freeFields, Field.same]

theorem KeptBySteps.settling {P : State → Prop} (h : KeptBySteps P) {s t : State} (m : Settling s t) (hs : P s) : P t :=
  m.keeps (fun _ _ m => h.turn _ _ (.move m)) h.port hs

theorem KeptBySteps.settle {P : State → Prop} (h : KeptBySteps P) {s : State} (hs : P s) : P (settle s) :=
  h.settling (settle_settling s) hs

theorem KeptBySteps.joined {P : State → Prop} (h : KeptBySteps P) {s t : State} (m : Joined s t) (hs : P s) : P t := by
  obtain ⟨u, hu, rfl | hp⟩ := m
  · exact hu.keeps h.turn hs
  · exact h.port _ _ hp (hu.keeps h.turn hs)

theorem KeptBySteps.moves {P : State → Prop} (h : KeptBySteps P) {s t : State} (m : Moves s t) (hs : P s) : P t :=
  m.turns.keeps h.turn hs

/-- A command keeps a law that turns, adoption and resets keep. -/
theorem KeptBySteps.exec {P : State → Prop} (h : KeptBySteps P) {c : Instr} {s t : State} (hs : P s)
    (e : exec c s = .next t) : P t := by
  by_cases h1 : c = .powerOnReset
  · subst h1
    cases e
    exact h.settle (h.moves (submitResetBlock_moves _) (h.powerOn s hs))
  by_cases h2 : c = .resetNLow
  · subst h2
    simp only [Machine.exec, execResetNLow] at e
    split at e
    · cases e
      exact h.settle (h.settling (retakeNeeds_settling _ (warmBlocks s) rfl) (h.warm s hs))
    · cases e; exact hs
  rcases exec_turns h1 h2 e with ⟨u, ht, rfl | rfl⟩ | ⟨u, -, hd, hc, hp, rfl, rfl⟩
  · exact h.joined ht hs
  · exact h.settle (h.joined ht hs)
  · have hu : Moves s (handOverDrive (releasePort s)) :=
      (Move.endRead (.inr ⟨false, hd⟩)).moves.trans (handOverDrive_moves _)
    exact h.settle (h.adopt _ (by simpa using hc) (by simpa using hp) (h.moves hu hs))

/-- A step keeps a law that turns, adoption and resets keep. -/
theorem KeptBySteps.step {P : State → Prop} (h : KeptBySteps P) (s s' : State) (hs : P s) (e : step s = .next s') : P s' := by
  unfold Machine.step at e
  split at e
  · cases e; exact hs
  · exact h.exec (h.moves (pending_move _ s).moves hs) e

theorem endBpuTenure_needs (s : State) : (endBpuTenure s).bpu.needs = s.bpu.needs.drop 1 := by
  unfold endBpuTenure
  split
  · next h => simp [releasePort, h]
  · simp only [releasePort, State.onMpa_bpu, performNeed, deliver, answerRead]
    split <;> split <;> simp [answerHost]

/-- What the moves at the port may touch. -/
def portMoveFields : List Field :=
  [.mem, .needs, .counts, .deliveries, .hostData, .holder, .fair, .phases, .aux, .stage, .wen]

theorem PortMove.frame {s t : State} (m : PortMove s t) : KeepsAllBut portMoveFields s t := by
  intro f hf
  cases m with
  | stage | advance | stop | endBpu => cases f <;> simp_all [portMoveFields, Field.same]
  | _ => cases f <;> simp_all [portMoveFields, Field.same]

/-- At the port a need joins, or the first one leaves. -/
theorem PortMove.needs {s t : State} (m : PortMove s t) : t.bpu.needs = s.bpu.needs ∨ t.bpu.needs = s.bpu.needs.drop 1
    ∨ ∃ n, NeedAllowed s n ∧ t.bpu.needs = s.bpu.needs ++ [n] := by
  cases m with
  | stage | advance => exact .inl (by simp)
  | stop => exact .inr (.inl (by rw [stopNeed_needs]; rfl))
  | endBpu => exact .inr (.inl (endBpuTenure_needs s))
  | join n hn => exact .inr (.inr ⟨n, hn, rfl⟩)
  | _ => exact .inl rfl

/-! ## The canonical form of the memory (R21) -/

theorem cancelBuffer_wf (p : JobKind → Bool) (b : BufferId) {s : State} (h : s.mem.wf = true) :
    (cancelBuffer p b s).mem.wf = true := by
  unfold cancelBuffer
  split
  · exact h
  · split <;> exact h
  · split
    · exact cutWrites_wf _ s h
    · exact h

theorem cancel_wf (p : JobKind → Bool) {s : State} (h : s.mem.wf = true) : (cancel p s).mem.wf = true :=
  cancelBuffer_wf p .y (cancelBuffer_wf p .x h)

/-- The memory of a move: far writes, the end of a tenure, a cut tenure; the others leave it. -/
theorem Move.keeps_wf {s t : State} (m : Move s t) (h : s.mem.wf = true) : t.mem.wf = true := by
  cases m with
  | free hk => rwa [hk .mem (by simp [freeFields])]
  | far f => exact Memory.applyFar_wf f h
  | cancel p => exact cancel_wf p h
  | endWen b u hh hb => simpa [endBuffer] using Memory.writeAll_wf _ h
  | planned | quiesce | hand | submit => simpa using h
  | _ => exact h

theorem PortMove.keeps_wf {s t : State} (m : PortMove s t) (h : s.mem.wf = true) : t.mem.wf = true := by
  cases m with
  | endBpu hh =>
    unfold endBpuTenure
    split
    · exact h
    · simpa [performNeed] using Memory.writeAll_wf _ h
  | stage | advance | stop => simpa using h
  | _ => exact h

theorem cutTenure_wf {s : State} (h : s.mem.wf = true) : (cutTenure s).mem.wf = true := by
  unfold cutTenure
  split
  · exact h
  · exact h
  · exact h
  · split
    · exact cutWrites_wf _ s h
    all_goals exact h
  · split
    · exact h
    · dsimp only
      split
      · simpa using h
      · exact cutWrites_wf _ s h

theorem moves_wf {s t : State} (m : Moves s t) (h : s.mem.wf = true) : t.mem.wf = true :=
  m.keeps (P := fun s => s.mem.wf = true) (fun _ _ m => m.keeps_wf) h

/-- Settles O54: the memory changes by writes of words only, and a write keeps the canonical form. -/
theorem memoryStaysCanonical : Obligations.MemoryStaysCanonical := by
  refine KeptBySteps.step (P := fun s => s.mem.wf = true) ⟨fun s t ht h => ?_, fun s t m h => ?_, fun s _ _ h => ?_,
    fun s h => ?_, fun s h => ?_⟩
  · cases ht with
    | move m => exact m.keeps_wf h
    | resume _ => simpa using h
    | short p hr _ => exact moves_wf (shortLockout_moves (by exact hr) _) (by simpa using h)
    | arm hu =>
      have h1 := moves_wf (cancelDisarmReports_moves s) h
      rcases armRise_cases s with e | e <;> rw [e]
      · simpa [startPlanRead] using h1
      · simpa using h1
  · exact m.keeps_wf h
  · exact adopt_keeps (R := fun s => s.mem.wf = true) (fun _ _ m => m.keeps_wf) h (fun l t h => by simpa using h)
      (fun _ h => h) (fun _ _ h => h)
  · exact cutTenure_wf h
  · simpa [warmBlocks, warmReset, blocksReset] using cutTenure_wf h

end Sys2Proof.Machine
end

