-- ==== Sys2Proof/Proofs/HoistLaw.lean ====
section
/-! The law of the hoist lines with the order of arming (R155, R156, R165), and the feasible map (R121, L11). -/

namespace Sys2Proof.Machine

/-! ## The larger changes, field by field -/

@[simp] theorem quiesce_rct (s : State) : (quiesce s).rct = { s.rct.stopTimers with
    restart := .unarmed, pendingFaults := PerSlot.all none, watch := PerSlot.all none,
    progress := PerSlot.all none, gateOpen := false } := by
  simp [quiesce]

@[simp] theorem quiesce_outputs (s : State) :
    (quiesce s).hif = { s.hif.bothLow with period := s.hif.period.stop }
      ∧ (quiesce s).ssc = { s.ssc with enabled := false, inProgress := false, position := none, ended := false }
      ∧ (quiesce s).itm = { s.itm with running := false, secondsDue := 0 }
      ∧ (quiesce s).pld = { s.pld with cursor := .none, copy := [] }
      ∧ (quiesce s).bpu.isOpen = false ∧ (quiesce s).rfs.stage = none
      ∧ (quiesce s).mpa = { s.mpa with holder := s.mpa.holder.map Holder.discarded } := by
  simp [quiesce, clearRelease]

/-- The blocks that an adoption sets (R168). -/
theorem adoptBlocks_blocks (s : State) :
    (adoptBlocks s).mpl = adoptMap s.pld.copy s.mpl ∧ (adoptBlocks s).plan = planSettings s.pld.copy
      ∧ (adoptBlocks s).rct = adoptRct s.rct ∧ (adoptBlocks s).hif = adoptHif (planNat s.pld.copy 14) s.hif
      ∧ (adoptBlocks s).rfs = .reset ∧ (adoptBlocks s).cap = .reset ∧ (adoptBlocks s).bpu.isOpen = true
      ∧ (adoptBlocks s).pld = { s.pld with cursor := .none, result := .accepted, arg := 0 }
      ∧ (adoptBlocks s).ssc = { s.ssc with enabled := true, overrun := 0 } ∧ (adoptBlocks s).itm = ⟨true, 0, 0, 0, 0⟩ :=
  ⟨rfl, rfl, rfl, rfl, rfl, rfl, rfl, rfl, rfl, rfl⟩

/-- The controller at an adoption (R94, R126, R168). -/
theorem adopt_rct (s : State) :
    (adopt s).rct = { adoptRct s.rct with
      watch := (adopt s).rct.watch, contactor := .load (planNat s.pld.copy 16) } := by
  obtain ⟨w, hw⟩ := commandContactors_rct (fittedSlots (submitResetBlock (adoptBlocks s))) (submitResetBlock (adoptBlocks s))
  simp only [submitResetBlock_frame, adoptBlocks_blocks] at hw
  simp [adopt, hw, adoptBlocks_blocks, planSettings]

/-- The other blocks at an adoption (R16, R168). -/
theorem adopt_blocks (s : State) :
    (adopt s).mpl.fitted = PerSlot.ofFn (planFitted s.pld.copy) ∧ (adopt s).mpl.k = planNat s.pld.copy 2
      ∧ (adopt s).mpl.slots = commandBypass (planBuild s.pld.copy s.mpl.slots).slots
      ∧ (adopt s).plan = planSettings s.pld.copy ∧ (adopt s).hif = adoptHif (planNat s.pld.copy 14) s.hif
      ∧ (adopt s).pld.cursor = .none ∧ (adopt s).rfs = .reset ∧ (adopt s).cap = .reset := by
  simp [adopt, adoptBlocks_blocks, adoptMap]

/-- The watch list at an adoption: every fitted slot awaits what it is commanded (R126). -/
theorem adopt_watch (s : State) (i : Slot) :
    (adopt s).rct.watch.get i
      = if planFitted s.pld.copy i then some ⟨((adopt s).mpl.slots.get i).bypass, none⟩ else s.rct.watch.get i := by
  simp [adopt, commandContactors_watch, fittedSlots, fittedFrom, mem_allSlots, adoptBlocks_blocks, adoptMap, adoptRct]

/-! ## The hoist lines and the order of arming -/

theorem HoistLaw.of_same {s t : State} (h : HoistLaw s)
    (ho : t.hif.driveHealthy = s.hif.driveHealthy ∧ t.hif.permit = s.hif.permit ∧ t.hif.proofNeeded = s.hif.proofNeeded)
    (hr : t.rct.restart = s.rct.restart) (hm : t.rct.mode = s.rct.mode ∨ s.rct.restart = .normal)
    (hc : t.rct.contactor.running = true → s.rct.contactor.running = true)
    (hp : t.pld.cursor ≠ .none → s.pld.cursor ≠ .none) : HoistLaw t := by
  obtain ⟨⟨h1, h2, h3⟩, h4, h5⟩ := h
  obtain ⟨o1, o2, o3⟩ := ho
  refine ⟨⟨?_, ?_, by rw [o3, h3, o2]⟩, fun hcur => ?_, fun hrun => ?_⟩
  · rw [o1, h1, hr]
    rcases hm with hm | hm
    · rw [hm]
    · rw [hm]; rfl
  · rw [o2, hr]
    intro hperm
    rcases hm with hm | hm
    · rw [hm]; exact h2 hperm
    · rw [hm]; rfl
  · obtain ⟨a, b⟩ := h4 (hp hcur)
    refine ⟨hr ▸ a, ?_⟩
    by_contra hcon
    exact absurd (hc (by simpa using hcon)) (by simp [b])
  · rw [hr]; exact h5 (hc hrun)

/-- The outputs of a change are those of its state (Table 10-2). -/
theorem hoistLines_changed {s : State} (h : HoistLines s) (new : RestartState) (clear : Bool) : HoistLines (changed new clear s) := by
  obtain ⟨h1, h2, h3⟩ := h
  have hm : (s.rct.leave new).mode = s.rct.mode := leave_mode ..
  refine ⟨?_, ?_, ?_⟩
  · simp [changed, hif_enter_driveHealthy]
  · simp only [changed, hm]
    by_cases hp : s.rct.restart = .proving ∧ new = .normal
    · intro _; rw [hp.2]; rfl
    · rw [hif_enter_permit _ _ hp]; simp
  · simp only [changed]
    by_cases hp : s.rct.restart = .proving ∧ new = .normal
    · simp [Hif.enter, hp, Hif.raisePermit]
    · rw [hif_enter_of_not_proof _ hp]
      cases permitFalls new s.rct.mode <;> cases hq : s.hif.permit <;> simp_all

theorem leave_contactor (r : Rct) (new : RestartState) :
    (r.leave new).contactor.running
      = (r.contactor.running && !(r.restart == .arming || r.restart == .isolating)) := by
  unfold Rct.leave
  cases r.restart <;> simp [Timer.stop]

/-- A change stops the contactor timer, and no plan is read across it. -/
theorem armingOrder_changed {s : State} (h : ArmingOrder s) (new : RestartState) (clear : Bool)
    (hc : s.pld.cursor = .none) : ArmingOrder (changed new clear s) := by
  obtain ⟨h4, h5⟩ := h
  refine ⟨fun hcur => absurd hc hcur, fun hrun => ?_⟩
  simp only [changed, leave_contactor, Bool.and_eq_true, Bool.not_eq_true'] at hrun
  rcases h5 hrun.1 with h | h <;> simp [h] at hrun

/-- A state from which a change is made reads no plan. -/
theorem Changes.cursor {s : State} {new : RestartState} {clear : Bool} (hc : Changes s new clear) (h : ArmingOrder s) :
    s.pld.cursor = .none := by
  by_contra hcur
  obtain ⟨a, b⟩ := h.1 hcur
  rcases hc.start with hu | ⟨-, hr, -⟩
  · simp [a, RestartState.underWay] at hu
  · simp [b] at hr

theorem Move.keeps_hoistLaw {s t : State} (m : Move s t) (h : HoistLaw s) : HoistLaw t := by
  have same : ∀ {t : State}, t.hif = s.hif → t.rct = s.rct → t.pld = s.pld → HoistLaw t := fun e1 e2 e3 =>
    h.of_same (by simp [e1]) (by rw [e2]) (.inl (by rw [e2])) (by rw [e2]; exact id) (by rw [e3]; exact id)
  have hh := h
  obtain ⟨⟨h1, h2, h3⟩, h4, h5⟩ := h
  cases m with
  | free hk => exact same (hk .hif (by simp [freeFields])) (hk .rct (by simp [freeFields])) (hk .pld (by simp [freeFields]))
  | pld p hp => exact hh.of_same ⟨rfl, rfl, rfl⟩ rfl (.inl rfl) id hp
  | hif x hx => exact hh.of_same hx.outputs rfl (.inl rfl) id id
  | rct r hr => exact hh.of_same ⟨rfl, rfl, rfl⟩ hr.restart hr.mode hr.contactor id
  | change new clear hc =>
    exact ⟨hoistLines_changed ⟨h1, h2, h3⟩ new clear, armingOrder_changed ⟨h4, h5⟩ new clear (hc.cursor ⟨h4, h5⟩)⟩
  | contactor x hi =>
    refine ⟨⟨h1, h2, h3⟩, fun hcur => ?_, fun _ => .inr hi⟩
    exact absurd (h4 hcur).1 (by simp [hi])
  | park => exact ⟨⟨by simpa using h1, by simp, by simp [h3]⟩, h4, h5⟩
  | reproof hn => exact ⟨⟨h1, fun _ => by simp [hn, permitFalls], rfl⟩, h4, h5⟩
  | convert hs =>
    refine ⟨⟨?_, by simp [Hif.bothLow], by simp [Hif.bothLow]⟩, h4, h5⟩
    cases hr : s.rct.restart <;> simp [hr, RestartState.inSequence] at hs <;>
      simp [Hif.bothLow, driveHealthyLevel, hr]
  | planned hi _ =>
    obtain ⟨w, hw⟩ := mapTaken_rct (hardPending s.rct) (clearPending s)
    exact hh.of_same (by simp) (by rw [hw]; rfl) (.inl (by rw [hw]; rfl)) (by rw [hw]; exact id) (by simp)
  | quiesce _ _ =>
    refine ⟨⟨by simp [Hif.bothLow, driveHealthyLevel], by simp [Hif.bothLow], by simp [Hif.bothLow, h3]⟩, ?_, ?_⟩
    · simp
    · simp [Rct.stopTimers, Timer.stop]
  | hand | submit | cancel | endWen => exact same (by simp) (by simp) (by simp)
  | _ => exact same rfl rfl rfl

theorem moves_hoistLaw {s t : State} (m : Moves s t) (h : HoistLaw s) : HoistLaw t :=
  m.keeps (fun _ _ m => m.keeps_hoistLaw) h

/-- In UNARMED no plan is read and the contactor timer stands. -/
theorem HoistLaw.unarmed {s : State} (h : HoistLaw s) (hu : s.rct.restart = .unarmed) :
    s.pld.cursor = .none ∧ s.rct.contactor.running = false := by
  obtain ⟨-, h4, h5⟩ := h
  refine ⟨?_, ?_⟩
  · by_contra hc; exact absurd (h4 hc).1 (by simp [hu])
  · by_contra hc; exact absurd (h5 (by simpa using hc)) (by simp [hu])

theorem hoistLaw_arming {s : State} (h : HoistLaw s) (hu : s.rct.restart = .unarmed) :
    HoistLaw (enter .arming noSlot 0 s) ∧ (enter .arming noSlot 0 s).rct.contactor.running = false := by
  refine ⟨moves_hoistLaw (enter_arming_moves hu)
    ⟨hoistLines_changed h.1 _ _, armingOrder_changed h.2 _ _ (h.unarmed hu).1⟩, ?_⟩
  rw [enter_rct]
  simp [leave_contactor, (h.unarmed hu).2]

theorem Turn.keeps_hoistLaw {s t : State} (ht : Turn s t) (h : HoistLaw s) : HoistLaw t := by
  cases ht with
  | move m => exact m.keeps_hoistLaw h
  | resume ha => exact (moves_hoistLaw (enterResuming_moves ha) h).of_same ⟨rfl, rfl, rfl⟩ rfl (.inl rfl) id id
  | short p hr _ =>
    obtain ⟨w, hw⟩ := mapTaken_rct (hardPending s.rct) (clearPending s)
    exact moves_hoistLaw (shortLockout_moves (by exact hr) _)
      (h.of_same (by simp) (by rw [hw]; rfl) (.inl (by rw [hw]; rfl)) (by rw [hw]; exact id) (by simp))
  | arm hu =>
    have h1 := moves_hoistLaw (cancelDisarmReports_moves s) h
    obtain ⟨⟨h2, -, h4⟩, h3⟩ := hoistLaw_arming h1 (by simpa using hu)
    rcases armRise_cases s with e | e <;> rw [e]
    · exact ⟨h2, fun _ => ⟨by simp [startPlanRead], h3⟩, h4⟩
    · exact moves_hoistLaw (endArmRise_moves _) (hoistLaw_arming h1 (by simpa using hu)).1

theorem adopt_keeps_hoistLaw {s : State} (hc : s.pld.cursor = .drive) (h : HoistLaw s) : HoistLaw (adopt s) := by
  obtain ⟨⟨h1, h2, h3⟩, h4, h5⟩ := h
  obtain ⟨ha, hr⟩ := h4 (by simp [hc])
  obtain ⟨-, -, -, -, hh, hp, -⟩ := adopt_blocks s
  have hperm : s.hif.permit = false := by
    by_contra hcon
    exact absurd (h2 (by simpa using hcon)) (by simp [ha, permitFalls])
  rw [ha] at h1
  refine ⟨⟨?_, ?_, ?_⟩, fun hcur => absurd hp hcur, fun _ => .inl ?_⟩
  · rw [hh, adopt_rct]; simp [adoptHif, adoptRct, h1, ha, driveHealthyLevel]
  · rw [hh]; simp [adoptHif, hperm]
  · rw [hh]; simp [adoptHif, hperm]
  · rw [adopt_rct]; simpa [adoptRct] using ha

theorem blank_hoistLaw {s : State} (h1 : s.hif = .reset) (h2 : s.rct = .reset) (h3 : s.pld = .reset) : HoistLaw s := by
  refine ⟨⟨?_, ?_, ?_⟩, ?_, ?_⟩ <;> simp [h1, h2, h3, Hif.reset, Rct.reset, Pld.reset, driveHealthyLevel, Timer.stopped]

theorem PortMove.keeps_hoistLaw {s t : State} (m : PortMove s t) (h : HoistLaw s) : HoistLaw t := by
  have e1 : t.hif = s.hif := m.frame .hif (by simp [portMoveFields])
  have e2 : t.rct = s.rct := m.frame .rct (by simp [portMoveFields])
  have e3 : t.pld = s.pld := m.frame .pld (by simp [portMoveFields])
  exact h.of_same (by simp [e1]) (by rw [e2]) (.inl (by rw [e2])) (by rw [e2]; exact id) (by rw [e3]; exact id)

theorem hoistLaw_kept : KeptBySteps HoistLaw :=
  ⟨fun _ _ => Turn.keeps_hoistLaw, fun _ _ => PortMove.keeps_hoistLaw, fun _ hc _ => adopt_keeps_hoistLaw hc, fun _ _ => blank_hoistLaw rfl rfl rfl,
    fun _ _ => blank_hoistLaw rfl rfl rfl⟩

/-! ## The feasible map (R121, L11) -/

/-- Each phase has min_active ACTIVE slots. -/
def Feasible (s : State) : Prop := ∀ p, s.plan.minActive ≤ activeCount s.mpl.slots p

theorem feasible_of_shortPhase {n : Nat} {m : SlotMap} (h : shortPhase n m = none) (p : Phase) : n ≤ activeCount m p := by
  have := List.find?_eq_none.1 h p (by cases p <;> simp [Phase.all])
  simpa using this

theorem FeasibleLaw.of_same {s t : State} (h : FeasibleLaw s) (hr : t.rct.restart = s.rct.restart)
    (hc : t.rct.contactor.running = true → s.rct.restart = .arming → s.rct.contactor.running = true) (hp : t.plan = s.plan)
    (hm : t.mpl.slots = s.mpl.slots) : FeasibleLaw t := by
  intro h1 h2 h3 p
  rw [hp, hm]
  rw [hr] at h1 h2 h3
  exact h h1 h2 (fun ha => hc (h3 ha) ha) p

/-- A fault on a slot that is not active leaves every count. -/
theorem activeCount_bypassFault {m : SlotMap} {i : Slot} (h : (m.get i).role.isActive = false) (p : Phase) :
    activeCount (m.modify i SlotEntry.bypassFault) p = activeCount m p := by
  unfold activeCount
  congr 1
  funext j
  rw [PerSlot.get_modify]
  split
  · next e => subst e; rw [h]; rfl
  · rfl

theorem Move.keeps_feasible {s t : State} (m : Move s t) (h : FeasibleLaw s) : FeasibleLaw t := by
  have same : ∀ {t : State}, t.rct = s.rct → t.plan = s.plan → t.mpl.slots = s.mpl.slots → FeasibleLaw t :=
    fun e1 e2 e3 => h.of_same (by rw [e1]) (by rw [e1]; exact fun h _ => h) e2 e3
  cases m with
  | free hk => exact same (hk .rct (by simp [freeFields])) (hk .plan (by simp [freeFields])) (hk .slots (by simp [freeFields]))
  | rct r hr => exact h.of_same hr.restart (fun h _ => hr.contactor h) rfl rfl
  | change new clear hc =>
    intro _ _ _ p
    rcases hc.start with hu | ⟨ha, hr, -⟩
    · exact h (fun e => by simp [e, RestartState.underWay] at hu) (fun e => by simp [e, RestartState.underWay] at hu)
        (fun e => by simp [e, RestartState.underWay] at hu) p
    · exact h (by simp [ha]) (by simp [ha]) (fun _ => hr) p
  | contactor x hi => exact h.of_same rfl (fun _ ha => absurd ha (by simp [hi])) rfl rfl
  | quarantine i _ ha =>
    intro h1 h2 h3 p
    simp only [State.onMpl_mpl, State.onMpl_plan, activeCount_bypassFault ha]
    exact h h1 h2 h3 p
  | planned _ hs => exact fun _ _ _ p => by simpa using feasible_of_shortPhase hs p
  | convert _ => exact h.of_same rfl (fun h _ => h) rfl rfl
  | quiesce _ _ => exact fun h1 => absurd (by simp) h1
  | hand | submit | cancel | endWen => exact same (by simp) (by simp) (by simp)
  | _ => exact same rfl rfl rfl

theorem moves_feasible {s t : State} (m : Moves s t) (h : FeasibleLaw s) : FeasibleLaw t :=
  m.keeps (fun _ _ m => m.keeps_feasible) h

theorem PortMove.keeps_feasible {s t : State} (m : PortMove s t) (h : FeasibleLaw s) : FeasibleLaw t := by
  have e : t.rct = s.rct := m.frame .rct (by simp [portMoveFields])
  exact h.of_same (by rw [e]) (by rw [e]; exact fun h _ => h) (m.frame .plan (by simp [portMoveFields]))
    (m.frame .slots (by simp [portMoveFields]))

/-- In LOCKOUT and UNARMED the law says nothing. -/
theorem feasibleLaw_lockout {s : State} (h : s.rct.restart = .lockout) : FeasibleLaw s := fun _ h' => absurd h h'

/-- A plan is accepted when all six checks pass (R167). -/
theorem planRefusal_none {p : List Word} {m : SlotMap} (h : planRefusal p m = none) :
    planNat p 0 = 67 + 9 * planNat p 67 ∧ planSum p = 0 ∧ firstOutOfRange p (planNat p 0 + 1) = none
      ∧ thresholdsOrdered p = true ∧ keysDistinct (planTable p) = true
      ∧ shortPhase (planNat p 3) (planBuild p m).slots = none := by
  unfold planRefusal at h
  split at h
  · exact absurd h (by simp)
  split at h
  · exact absurd h (by simp)
  split at h
  · exact absurd h (by simp)
  split at h
  · exact absurd h (by simp)
  split at h
  · exact absurd h (by simp)
  split at h
  · exact absurd h (by simp)
  next h1 h2 _ h3 h4 h5 h6 =>
    exact ⟨by simpa using h1, by simpa using h2, h3, by simpa using h4, by simpa using h5, by simpa using h6⟩

theorem feasibleLaw_kept : KeptBySteps fun s => FeasibleLaw s ∧ HoistLaw s := by
  refine ⟨fun s t ht ⟨h, hh⟩ => ⟨?_, ht.keeps_hoistLaw hh⟩, fun s t m ⟨h, hh⟩ => ⟨m.keeps_feasible h, m.keeps_hoistLaw hh⟩,
    fun s hc hp ⟨h, hh⟩ => ⟨?_, adopt_keeps_hoistLaw hc hh⟩,
    fun s _ => ⟨fun h => absurd rfl h, blank_hoistLaw rfl rfl rfl⟩, fun s _ => ⟨fun h => absurd rfl h, blank_hoistLaw rfl rfl rfl⟩⟩
  · cases ht with
    | move m => exact m.keeps_feasible h
    | resume ha => exact (moves_feasible (enterResuming_moves ha) h).of_same rfl (fun h _ => h) rfl rfl
    | short p hr _ => exact feasibleLaw_lockout (lockout_spec 0 .infeasible _).restart
    | arm hu =>
      have h1 := hoistLaw_arming (moves_hoistLaw (cancelDisarmReports_moves s) hh) (by simpa using hu)
      have h2 : FeasibleLaw (enter .arming noSlot 0 (cancelDisarmReports s)) :=
        fun _ _ h3 => absurd (h3 (by simp)) (by rw [h1.2]; simp)
      rcases armRise_cases s with e | e <;> rw [e]
      · exact h2.of_same rfl (fun h _ => h) rfl rfl
      · exact moves_feasible (endArmRise_moves _) h2
  · intro _ _ _ p
    obtain ⟨-, -, hs, hpl, -⟩ := adopt_blocks s
    obtain ⟨-, -, -, -, -, hsp⟩ := planRefusal_none hp
    have := feasible_of_shortPhase hsp p
    rw [hs, hpl]
    simpa [planSettings, activeCount, commandBypass] using this

end Sys2Proof.Machine
end

