-- ==== Sys2Proof/Proofs/Bounds.lean ====
section
/-! The bounds of R29, R89, L4, L8, R161 and R172, the order of the log ring (R172) and the range of the amplitudes that wait
for the port (R48, L9). -/

namespace Sys2Proof.Machine

/-! ## Fields of an accepted plan (R167) -/

/-- Every field of an accepted plan lies in its range. -/
theorem fieldOk_of_accepted {p : List Word} {m : SlotMap} (h : planRefusal p m = none) {o : Nat} (ho : o ≤ 67 + 9 * planNat p 67) :
    fieldOk p o = true := by
  obtain ⟨h1, -, h3, -⟩ := planRefusal_none h
  have := List.find?_eq_none.1 h3 o (by simp; omega)
  simpa using this

/-- The ring capacity of an accepted plan is 16 to 255. -/
theorem capacity_of_accepted {p : List Word} {m : SlotMap} (h : planRefusal p m = none) :
    16 ≤ planNat p 34 ∧ planNat p 34 ≤ 255 := by
  have := fieldOk_of_accepted h (o := 34) (by omega)
  have e : rangeOf 34 = some (16, 255) := by decide
  simpa [fieldOk, e, between] using this

/-! ## The bounds -/

theorem handRecord_writeList {closing : Bool} {c : Category} {code slot arg : Word} {s : State}
    (h : s.log.writeList.length ≤ 16) : (handRecord closing c code slot arg s).log.writeList.length ≤ 16 := by
  by_cases hr : s.log.running = true
  · by_cases hf : logFull s = true
    · simpa [handRecord, hr, hf, dropRecord] using h
    · have hl : s.log.writeList.length < 16 := by
        have := of_decide_eq_false (Bool.or_eq_false_iff.1 (Bool.eq_false_of_not_eq_true hf)).1
        simpa [Config.writeListCapacity] using this
      simp [handRecord, hr, hf, acceptRecord, Log.updateIrq]
      omega
  · simpa [handRecord, hr] using h

/-- A record that is accepted takes the producer's position and moves the producer by one, inside the ring. -/
theorem handRecord_inOrder {closing : Bool} {c : Category} {code slot arg : Word} {s : State} (h : RingInOrder s) :
    RingInOrder (handRecord closing c code slot arg s) := by
  by_cases hr : s.log.running = true
  · by_cases hf : logFull s = true
    · simpa [handRecord, hr, hf, dropRecord, RingInOrder] using h
    · obtain ⟨h1, h2, h3, h4, h5, h6⟩ := h
      simp only [handRecord, hr, hf, acceptRecord, RingInOrder, Log.updateIrq, ite_true]
      simp only [Bool.false_eq_true, ite_false, submit_frame, State.onLog_log]
      refine ⟨h1, Nat.mod_lt _ h1, h3, h4, by simpa using h5, fun e he => ?_⟩
      rcases List.mem_append.1 he with he | he
      · exact h6 e he
      · rw [List.mem_singleton.1 he]
        exact ⟨h2, Nat.mod_lt _ h1⟩
  · simpa [handRecord, hr] using h

@[simp] theorem hif_enter_stale (h : Hif) (old new : RestartState) (m : Mode) : (h.enter old new m).stale = h.stale := by
  by_cases hp : old = .proving ∧ new = .normal
  · cases hf : permitFalls .normal m <;> simp [Hif.enter, hp, Hif.raisePermit, hf]
  · rw [hif_enter_of_not_proof h hp]; cases permitFalls new m <;> simp

theorem bpuFair_le (s : State) (h : s.mpa.fair ≤ 8) : bpuFair s ≤ 8 := by
  unfold bpuFair boundedInc Config.fairLimit
  split
  · split <;> omega
  · omega

theorem wenFair_le (b : BufferId) (s : State) (h : s.mpa.fair ≤ 8) : wenFair b s ≤ 8 := by
  unfold wenFair
  split <;> omega

theorem holdAux_length {r : Rec} {i : Fin 3} {v : Word} {s : State} (h : s.rfs.aux.length ≤ 32) :
    (holdAux r i v s).rfs.aux.length ≤ 32 := by
  unfold holdAux Config.auxCapacity
  split
  · simp; omega
  · simpa using h

theorem stopNeed_aux {n : Need} {s : State} (h : s.rfs.aux.length ≤ 32) : (stopNeed n s).rfs.aux.length ≤ 32 := by
  unfold stopNeed
  dsimp only
  split
  · split
    · exact holdAux_length h
    · exact h
  all_goals exact h

theorem Bounded.of_same {s t : State} (h : Bounded s) (h1 : t.mpa.fair = s.mpa.fair) (h2 : t.rfs.aux = s.rfs.aux)
    (h3 : t.cap = s.cap) (h4 : t.log = s.log) (h5 : t.hif.stale = s.hif.stale) (h6 : t.rct.passCount = s.rct.passCount)
    (h7 : t.plan = s.plan) : Bounded t := by
  unfold Bounded
  rw [h1, h2, h3, h4, h5, h6, h7]
  exact h

theorem Move.keeps_bounded {s t : State} (m : Move s t) (h : Bounded s) : Bounded t := by
  have hh := h
  obtain ⟨h1, h2, h3, h4, h5, h6⟩ := h
  cases m with
  | free hk =>
    have e1 := hk .fair (by simp [freeFields])
    have e2 := hk .aux (by simp [freeFields])
    have e3 := hk .cap (by simp [freeFields])
    have e4 := hk .log (by simp [freeFields])
    have e5 : t.hif = s.hif := hk .hif (by simp [freeFields])
    have e6 : t.rct = s.rct := hk .rct (by simp [freeFields])
    exact hh.of_same e1 e2 e3 e4 (by rw [e5]) (by rw [e6]) (hk .plan (by simp [freeFields]))
  | cap c hc => exact ⟨h1, h2, hc h3, h4, h5, h6⟩
  | log l hl => exact ⟨h1, h2, h3, hl.writeList.trans h4, h5, h6⟩
  | hif x hx => exact ⟨h1, h2, h3, h4, hx.stale h5, h6⟩
  | rct r hr => exact ⟨h1, h2, h3, h4, h5, hr.passes.elim (fun h => h.trans h6) id⟩
  | aux a ha => exact ⟨h1, ha h2, h3, h4, h5, h6⟩
  | hand closing c code slot arg =>
    exact ⟨by simpa using h1, by simpa using h2, by simpa using h3, handRecord_writeList h4, by simpa using h5, by simpa using h6⟩
  | change new clear _ =>
    exact hh.of_same rfl (by simp only [changed]; split <;> rfl) rfl rfl (by simp [changed]) (by simp [changed, leave_fields]) rfl
  | park => exact hh.of_same rfl rfl rfl rfl (by simp) rfl rfl
  | reproof _ => exact hh
  | convert _ => exact hh.of_same rfl rfl rfl rfl (by simp [Hif.bothLow]) rfl rfl
  | planned _ _ =>
    obtain ⟨w, hw⟩ := mapTaken_rct (hardPending s.rct) (clearPending s)
    exact hh.of_same (by simp) (by simp) (by simp) (by simp) (by simp) (by rw [hw]; rfl) (by simp)
  | quiesce _ _ => exact hh.of_same (by simp) (by simp) (by simp) (by simp) (by simp [Hif.bothLow]) (by simp [Rct.stopTimers]) (by simp)
  | submit | cancel | endWen =>
    exact hh.of_same (by simp) (by simp) (by simp) (by simp) (by simp) (by simp) (by simp)
  | _ => exact hh

theorem PortMove.keeps_bounded {s t : State} (m : PortMove s t) (h : Bounded s) : Bounded t := by
  have hh := h
  obtain ⟨h1, h2, h3, h4, h5, h6⟩ := h
  cases m with
  | grantWen b u _ _ => exact ⟨wenFair_le b s h1, h2, h3, h4, h5, h6⟩
  | grantBpu n rest _ _ _ => exact ⟨bpuFair_le s h1, h2, h3, h4, h5, h6⟩
  | stop n rest _ _ _ =>
    exact ⟨by simpa using bpuFair_le s h1, stopNeed_aux h2, by simpa using h3, by simpa using h4, by simpa using h5, by simpa using h6⟩
  | stage | advance | endBpu => exact hh.of_same (by simp) (by simp) (by simp) (by simp) (by simp) (by simp) (by simp)
  | _ => exact hh

theorem moves_bounded {s t : State} (m : Moves s t) (h : Bounded s) : Bounded t := m.keeps (fun _ _ m => m.keeps_bounded) h

theorem mapTaken_bounded {s : State} (hard : Slot → Bool) (h : Bounded s) : Bounded (mapTaken hard s) := by
  obtain ⟨w, hw⟩ := mapTaken_rct hard s
  exact h.of_same (by simp) (by simp) (by simp) (by simp) (by simp) (by rw [hw]) (by simp)

/-- The entry to ARMING, for a law that no change of state touches. -/
theorem arming_keeps {P : State → Prop} (hm : ∀ s t, Move s t → P s → P t) (hc : ∀ s, P s → P (changed .arming false s))
    {s : State} (hu : s.rct.restart = .unarmed) (h : P s) : P (enter .arming noSlot 0 (cancelDisarmReports s)) :=
  Moves.keeps hm (enter_arming_moves (by simpa using hu)) (hc _ (Moves.keeps hm (cancelDisarmReports_moves s) h))

/-- ARM rising, for a law that neither a change of state nor the start of the plan read touches. -/
theorem armRise_keeps {P : State → Prop} (hm : ∀ s t, Move s t → P s → P t) (hc : ∀ s, P s → P (changed .arming false s))
    (hp : ∀ s, P s → P (startPlanRead s)) {s : State} (hu : s.rct.restart = .unarmed) (h : P s) : P (armRise s) := by
  have h1 := arming_keeps hm hc hu h
  rcases armRise_cases s with e | e <;> rw [e]
  · exact hp _ h1
  · exact Moves.keeps hm (endArmRise_moves _) h1

theorem changed_bounded {s : State} (new : RestartState) (clear : Bool) (h : Bounded s) : Bounded (changed new clear s) :=
  h.of_same rfl (by simp only [changed]; split <;> rfl) rfl rfl (by simp [changed]) (by simp [changed, leave_fields]) rfl

theorem bounded_kept : KeptBySteps Bounded := by
  refine ⟨fun s t ht h => ?_, fun _ _ => PortMove.keeps_bounded, fun s _ _ h => ?_, fun s h => ?_, fun s h => ?_⟩
  · cases ht with
    | move m => exact m.keeps_bounded h
    | resume ha =>
      exact (moves_bounded (enterResuming_moves ha) h).of_same rfl rfl rfl rfl rfl rfl rfl
    | short p hr _ => exact moves_bounded (shortLockout_moves (by exact hr) _) (mapTaken_bounded _ (by exact h))
    | arm hu =>
      exact armRise_keeps (fun _ _ m => m.keeps_bounded) (fun _ => changed_bounded _ _)
        (fun _ h => h.of_same rfl rfl rfl rfl rfl rfl rfl) hu h
  · obtain ⟨h1, -, -, h4, -⟩ := h
    refine adopt_keeps (R := Bounded) (fun _ _ m => m.keeps_bounded) ?_ (fun l t h => ?_) (fun t h => ?_) (fun n t h => h)
    · exact ⟨h1, Nat.zero_le _, Nat.zero_le _, h4, Nat.zero_le _, Nat.zero_le _⟩
    · obtain ⟨w, hw⟩ := commandContactors_rct l t
      exact h.of_same (by simp) (by simp) (by simp) (by simp) (by simp) (by rw [hw]) (by simp)
    · obtain ⟨h1, h2, h3, -, h5⟩ := h
      exact ⟨h1, h2, h3, Nat.zero_le _, h5⟩
  all_goals simp [Bounded, blocksReset, warmBlocks, warmReset, State.held, Mpa.reset, Rfs.reset, Cap.reset, Log.reset, Hif.reset,
    Rct.reset]

/-! ## The order of the log ring -/

theorem Move.keeps_ringInOrder {s t : State} (m : Move s t) (h : RingInOrder s) : RingInOrder t := by
  have same : ∀ {t : State}, t.log = s.log → RingInOrder t := fun e => by unfold RingInOrder; rw [e]; exact h
  cases m with
  | free hk => exact same (hk .log (by simp [freeFields]))
  | log l hl => exact hl.inOrder h
  | hand => exact handRecord_inOrder h
  | planned | quiesce | submit | cancel | endWen => exact same (by simp)
  | _ => exact same rfl

theorem moves_ringInOrder {s t : State} (m : Moves s t) (h : RingInOrder s) : RingInOrder t :=
  m.keeps (fun _ _ m => m.keeps_ringInOrder) h

theorem ringInOrder_start {n : Nat} (h : 0 < n) (mask : Word) (s : State) : RingInOrder (s.onLog (Log.start n mask)) :=
  ⟨h, h, h, h, by simp [Log.start], by simp [Log.start]⟩

theorem PortMove.keeps_ringInOrder {s t : State} (m : PortMove s t) (h : RingInOrder s) : RingInOrder t := by
  have e : t.log = s.log := m.frame .log (by simp [portMoveFields])
  unfold RingInOrder
  rwa [e]

theorem ringInOrder_kept : KeptBySteps RingInOrder := by
  refine ⟨fun s t ht h => ?_, fun _ _ => PortMove.keeps_ringInOrder, fun s _ hp h => ?_, fun s h => ?_, fun s h => ?_⟩
  · cases ht with
    | move m => exact m.keeps_ringInOrder h
    | resume ha => exact (moves_ringInOrder (enterResuming_moves ha) h :)
    | short p hr _ =>
      exact moves_ringInOrder (shortLockout_moves (by exact hr) _) (by unfold RingInOrder at h ⊢; simpa using h)
    | arm hu => exact armRise_keeps (fun _ _ m => m.keeps_ringInOrder) (fun _ h => h) (fun _ h => h) hu h
  · have hcap : 0 < planNat s.pld.copy 34 := by have := (capacity_of_accepted hp).1; omega
    exact adopt_keeps (R := RingInOrder) (fun _ _ m => m.keeps_ringInOrder) h
      (fun l t h => by unfold RingInOrder at h ⊢; simpa using h) (fun t _ => ringInOrder_start hcap _ t) (fun _ _ h => h)
  all_goals simp [RingInOrder, blocksReset, warmBlocks, warmReset, State.held, Log.reset]

/-! ## The amplitudes that wait for the port -/

theorem Need.eq_of_access_pair {m : Need} {r : Rec} {i : Slot} {a g : Word} (h : m.access = (Need.pair r i a g).access) :
    m = .pair r i a g := by
  cases m <;> simp_all [Need.access]

theorem Need.eq_of_access_commitAlone {m : Need} {p : Phase} {i : Slot} {a : Word} {t u : Bool}
    (h : m.access = (Need.commitAlone p i a t u).access) : ∃ t' u', m = .commitAlone p i a t' u' := by
  cases m <;> simp_all [Need.access]

theorem mem_needs_iff (s : State) (n : Need) : n ∈ s.bpu.needs ↔ n ∈ runningNeeds s ∨ n ∈ waitingNeeds s := by
  rw [← List.mem_append]
  unfold runningNeeds waitingNeeds
  split
  · rw [List.take_append_drop]
  · simp

/-- Every need of a calm passage accesses what a need of the old one does. -/
theorem BpuCalm.needs {s : State} {b : Bpu} (h : BpuCalm s b) {n : Need} (hn : n ∈ b.needs) :
    ∃ m ∈ s.bpu.needs, m.access = n.access := by
  rcases (mem_needs_iff { s with bpu := b } n).1 hn with hn | hn
  · have : n.access ∈ (runningNeeds s).map Need.access := by
      rw [← h.running]; exact List.mem_map_of_mem hn
    obtain ⟨m, hm, e⟩ := List.mem_map.1 this
    exact ⟨m, (mem_needs_iff s m).2 (.inl hm), e⟩
  · obtain ⟨m, hm, e⟩ := h.waiting n hn
    exact ⟨m, (mem_needs_iff s m).2 (.inr hm), e⟩

theorem AmplitudesInRange.of_needs {s t : State} (h : AmplitudesInRange s)
    (hl : ∀ p l, t.bpu.latches.get p = some l → s.bpu.latches.get p = some l)
    (hn : ∀ n ∈ t.bpu.needs, ∃ m ∈ s.bpu.needs, m.access = n.access) : AmplitudesInRange t := by
  obtain ⟨h1, h2, h3⟩ := h
  refine ⟨fun p l e => h1 p l (hl p l e), fun r i m g hm => ?_, fun p i m a b hm => ?_⟩
  · obtain ⟨x, hx, e⟩ := hn _ hm
    rw [Need.eq_of_access_pair e] at hx
    exact h2 r i m g hx
  · obtain ⟨x, hx, e⟩ := hn _ hm
    obtain ⟨t', u', rfl⟩ := Need.eq_of_access_commitAlone e
    exact h3 p i m t' u' hx

theorem AmplitudesInRange.of_sub {s t : State} (h : AmplitudesInRange s) (hl : t.bpu.latches = s.bpu.latches)
    (hn : t.bpu.needs ⊆ s.bpu.needs) : AmplitudesInRange t :=
  h.of_needs (fun _ _ e => by rwa [hl] at e) fun n hm => ⟨n, hn hm, rfl⟩

@[simp] theorem Need.unwatched_access (n : Need) : n.unwatched.access = n.access := by cases n <;> rfl

@[simp] theorem Need.watchedDrive_access (n : Need) : n.watchedDrive.access = n.access := by
  cases n with
  | passWrite a v d => simp only [Need.watchedDrive]; split <;> rfl
  | read | translated | pair | commitAlone => rfl

/-- The needs of the quiet passage are old ones, no longer watched. -/
theorem quiesce_needs {s : State} {n : Need} (h : n ∈ (quiesce s).bpu.needs) : ∃ m ∈ s.bpu.needs, m.access = n.access := by
  simp only [quiesce, clearRelease, emptyLatches, State.onBpu_bpu, State.onRfs_bpu, List.mem_map] at h
  obtain ⟨m, hm, rfl⟩ := h
  refine ⟨m, (mem_needs_iff s m).2 ?_, by simp⟩
  rcases List.mem_append.1 hm with hm | hm
  · exact .inl hm
  · exact .inr (List.mem_filter.1 hm).1

/-- A need that may join brings the amplitude of a latch. -/
theorem AmplitudesInRange.joined {s : State} (h : AmplitudesInRange s) {n : Need} (hn : NeedAllowed s n) :
    AmplitudesInRange (pushNeed n s) := by
  obtain ⟨h1, h2, h3⟩ := h
  refine ⟨h1, fun r i m g hm => ?_, fun p i m a b hm => ?_⟩
  · rcases List.mem_append.1 hm with hm | hm
    · exact h2 r i m g hm
    · obtain ⟨p, l, hl, rfl⟩ := hn.pair r i m g (List.mem_singleton.1 hm).symm
      exact h1 p l hl
  · rcases List.mem_append.1 hm with hm | hm
    · exact h3 p i m a b hm
    · obtain ⟨p, l, hl, rfl⟩ := hn.alone p i m a b (List.mem_singleton.1 hm).symm
      exact h1 p l hl

theorem Move.keeps_amplitudes {s t : State} (m : Move s t) (h : AmplitudesInRange s) : AmplitudesInRange t := by
  have same : ∀ {t : State}, t.bpu.latches = s.bpu.latches → t.bpu.needs = s.bpu.needs → AmplitudesInRange t :=
    fun e1 e2 => h.of_sub e1 (by rw [e2]; exact List.Subset.refl _)
  have hh := h
  obtain ⟨h1, h2, h3⟩ := h
  cases m with
  | free hk => exact same (hk .latches (by simp [freeFields])) (hk .needs (by simp [freeFields]))
  | bpu b hb => exact hh.of_needs hb.latches fun n hn => hb.needs hn
  | push n hn _ => exact hh.joined hn
  | latch p l hl =>
    refine ⟨fun q k hk => ?_, h2, h3⟩
    simp only [setLatch, State.onBpu_bpu, PerPhase.get_set] at hk
    split at hk
    · rw [← Option.some.inj hk]; exact hl
    · exact h1 q k hk
  | quiesce _ _ =>
    refine hh.of_needs (fun p l e => ?_) fun n hn => quiesce_needs hn
    change (emptyLatches s).bpu.latches.get p = some l at e
    simp [emptyLatches] at e
  | planned | hand | submit | cancel | endWen => exact same (by simp) (by simp)
  | _ => exact same rfl rfl

theorem moves_amplitudes {s t : State} (m : Moves s t) (h : AmplitudesInRange s) : AmplitudesInRange t :=
  m.keeps (fun _ _ m => m.keeps_amplitudes) h

/-- The needs at ARM rising are old ones, those to the drive record watched. -/
theorem startPlanRead_needs {s : State} {n : Need} (h : n ∈ (startPlanRead s).bpu.needs) :
    ∃ m ∈ s.bpu.needs, m.access = n.access := by
  simp only [startPlanRead, needsAtArming, State.onPld_bpu, State.onBpu_bpu, List.mem_map] at h
  obtain ⟨m, hm, rfl⟩ := h
  refine ⟨m, (mem_needs_iff s m).2 ?_, by simp⟩
  rcases List.mem_append.1 hm with hm | hm
  · exact .inl hm
  · exact .inr (List.mem_filter.1 hm).1

theorem PortMove.keeps_amplitudes {s t : State} (m : PortMove s t) (h : AmplitudesInRange s) : AmplitudesInRange t := by
  have hl : t.bpu.latches = s.bpu.latches := m.frame .latches (by simp [portMoveFields])
  rcases m.needs with e | e | ⟨n, hn, e⟩
  · exact h.of_sub hl (e ▸ List.Subset.refl _)
  · exact h.of_sub hl (e ▸ List.drop_subset ..)
  · exact (h.joined hn).of_sub hl (e ▸ List.Subset.refl _)

theorem amplitudes_kept : KeptBySteps AmplitudesInRange := by
  refine ⟨fun s t ht h => ?_, fun _ _ => PortMove.keeps_amplitudes, fun s _ _ h => h.of_sub (by simp) (by simp), fun s _ => ?_, fun s _ => ?_⟩
  · cases ht with
    | move m => exact m.keeps_amplitudes h
    | resume ha => exact (moves_amplitudes (enterResuming_moves ha) h :)
    | short p hr _ => exact moves_amplitudes (shortLockout_moves (by exact hr) _) (h.of_sub (by simp) (by simp))
    | arm hu =>
      exact armRise_keeps (fun _ _ m => m.keeps_amplitudes) (fun _ h => h)
        (fun _ h => h.of_needs (fun _ _ e => e) fun n hn => startPlanRead_needs hn) hu h
  all_goals refine ⟨fun p l e => ?_, fun r i m g hm => ?_, fun p i m t u hm => ?_⟩
  all_goals simp_all [blocksReset, warmBlocks, warmReset, State.held, Bpu.reset]

/-- Settles O57: the bounds, the ring, the amplitudes and the feasible map, each kept by the moves of every command. -/
theorem boundsAreKept : Obligations.BoundsAreKept :=
  ⟨⟨bounded_kept.step, ringInOrder_kept.step⟩, amplitudes_kept.step,
    fun s s' h hh e => (feasibleLaw_kept.step s s' ⟨h, hh⟩ e).1⟩

end Sys2Proof.Machine
end

