-- ==== Sys2Proof/Proofs/Planner.lean ====
section
/-! The Map Planner: what each step of a run, the rebalance step and the initial build do to one slot, and that no step
gives two slots of a phase one position (R5, R14, R114 to R120, L1). -/

namespace Sys2Proof.Machine

theorem setRole_get (m : SlotMap) (i j : Slot) (r : Role) :
    (m.setRole i r).get j = if j = i then { m.get i with role := r } else m.get j := by
  unfold SlotMap.setRole
  rw [PerSlot.get_modify]
  split
  · next h => rw [h]
  · rfl

/-! ## Bypass for balance (R119) -/

/-- Some ACTIVE slots are bypassed for balance at the positions they held; no other slot changes. -/
def Balanced (m m' : SlotMap) : Prop :=
  ∀ i, m'.get i = m.get i ∨ ∃ q, (m.get i).role = .active q ∧ m'.get i = { m.get i with role := .bypassedBalance q }

theorem Balanced.refl (m : SlotMap) : Balanced m m := fun _ => .inl rfl

theorem Balanced.trans {m m' m'' : SlotMap} (h : Balanced m m') (h' : Balanced m' m'') : Balanced m m'' := by
  intro i
  rcases h i with e | ⟨q, hq, e⟩
  · have := h' i
    rwa [e] at this
  · rcases h' i with e' | ⟨q', hq', -⟩
    · exact .inr ⟨q, hq, e'.trans e⟩
    · simp [e] at hq'

theorem highestActive_some {m : SlotMap} {p : Phase} {n : Nat} {i : Slot} {q : Nat} (h : highestActive m p n = some (i, q)) :
    phaseOf i = p ∧ (m.get i).role = .active q := by
  induction n with
  | zero => simp [highestActive] at h
  | succ n ih =>
    unfold highestActive at h
    split at h
    · next j hj =>
      obtain ⟨rfl, rfl⟩ := Prod.mk.inj (Option.some.inj h)
      exact holderOf_some hj
    · exact ih h

theorem bypassHighest_balanced (k : Nat) (p : Phase) (n : Nat) (m : SlotMap) : Balanced m (bypassHighest k p n m) := by
  induction n generalizing m with
  | zero => exact .refl m
  | succ n ih =>
    unfold bypassHighest
    split
    · next i q h =>
      refine Balanced.trans (fun j => ?_) (ih _)
      rw [setRole_get]
      split
      · next e => subst e; exact .inr ⟨q, (highestActive_some h).2, rfl⟩
      · exact .inl rfl
    · exact .refl m

theorem equalize_balanced (k : Nat) (m : SlotMap) : Balanced m (equalize k m) := by
  unfold equalize Phase.all
  exact ((bypassHighest_balanced _ _ _ _).trans (bypassHighest_balanced _ _ _ _)).trans (bypassHighest_balanced _ _ _ _)

theorem rebalance_balanced (t : List RebalanceEntry) (mode : Rounding) (k : Nat) (m : SlotMap) :
    Balanced m (rebalance t mode k m).slots := by
  unfold rebalance
  dsimp only
  split
  · exact .refl m
  · split
    · exact .refl m
    · split <;> exact equalize_balanced k m

/-! ## Spares that become active (R117) -/

/-- Some eligible SPARE slots become ACTIVE; no other slot changes. -/
def SparesTaken (elig : Slot → Bool) (m m' : SlotMap) : Prop :=
  ∀ i, m'.get i = m.get i
    ∨ (m.get i).role = .spare ∧ elig i = true ∧ ∃ q, m'.get i = { m.get i with role := .active q }

theorem SparesTaken.refl (elig : Slot → Bool) (m : SlotMap) : SparesTaken elig m m := fun _ => .inl rfl

theorem SparesTaken.trans {elig : Slot → Bool} {m m' m'' : SlotMap} (h : SparesTaken elig m m') (h' : SparesTaken elig m' m'') :
    SparesTaken elig m m'' := by
  intro i
  rcases h i with e | ⟨hs, he, q, e⟩
  · have := h' i
    rwa [e] at this
  · rcases h' i with e' | ⟨hs', -⟩
    · exact .inr ⟨hs, he, q, e'.trans e⟩
    · simp [e] at hs'

theorem firstSpare_some {elig : Slot → Bool} {m : SlotMap} {p : Phase} {i : Slot} (h : firstSpare elig m p = some i) :
    phaseOf i = p ∧ (m.get i).role = .spare ∧ elig i = true := by
  obtain ⟨h1, h2⟩ : i ∈ phaseSlots p ∧ ((m.get i).role == .spare && elig i) = true :=
    ⟨List.mem_of_find?_eq_some h, by simpa using List.find?_some h⟩
  simp only [Bool.and_eq_true, beq_iff_eq] at h2
  exact ⟨(mem_phaseSlots p i).mp h1, h2⟩

/-- One position of step 3: the lowest eligible spare of the phase takes it, if there is one (R117). -/
def takeSpare (elig : Slot → Bool) (p : Phase) (m : SlotMap) (q : Nat) : SlotMap :=
  match firstSpare elig m p with
  | some i => m.setRole i (.active q)
  | none => m

theorem takeSpare_taken (elig : Slot → Bool) (p : Phase) (m : SlotMap) (q : Nat) : SparesTaken elig m (takeSpare elig p m q) := by
  unfold takeSpare
  split
  · next i h =>
    intro j
    rw [setRole_get]
    split
    · next e => subst e; exact .inr ⟨(firstSpare_some h).2.1, (firstSpare_some h).2.2, q, rfl⟩
    · exact .inl rfl
  · exact .refl elig m

/-- The positions that step 3 fills in a phase: dark, and no slot's home (R117). -/
def openPositions (k : Nat) (m : SlotMap) (p : Phase) : List Nat :=
  (darkPositions m k p).filter fun q => !(homePositions m p).contains q

theorem fillPhase_eq (elig : Slot → Bool) (k : Nat) (m : SlotMap) (p : Phase) :
    fillPhase elig k m p = (openPositions k m p).foldl (takeSpare elig p) m := rfl

theorem foldl_takeSpare_taken (elig : Slot → Bool) (p : Phase) (l : List Nat) (m : SlotMap) :
    SparesTaken elig m (l.foldl (takeSpare elig p) m) := by
  induction l generalizing m with
  | nil => exact .refl elig m
  | cons q l ih => exact (takeSpare_taken elig p m q).trans (ih _)

theorem planSpares_taken (elig : Slot → Bool) (k : Nat) (m : SlotMap) : SparesTaken elig m (planSpares elig k m) := by
  unfold planSpares Phase.all
  simp only [List.foldl_cons, List.foldl_nil, fillPhase_eq]
  exact ((foldl_takeSpare_taken _ _ _ _).trans (foldl_takeSpare_taken _ _ _ _)).trans (foldl_takeSpare_taken _ _ _ _)

/-! ## Positions (R5, L1) -/

theorem PositionsDistinct.mono {k : Nat} {m m' : SlotMap} (h : PositionsDistinct k m)
    (hm : ∀ i q, (m'.get i).role.place = some q → (m.get i).role.place = some q) : PositionsDistinct k m' :=
  ⟨fun i q e => h.1 i q (hm i q e), fun i j q hp ei ej => h.2 i j q hp (hm i q ei) (hm j q ej)⟩

theorem Balanced.place {m m' : SlotMap} (h : Balanced m m') (i : Slot) : (m'.get i).role.place = (m.get i).role.place := by
  rcases h i with e | ⟨q, hq, e⟩
  · rw [e]
  · simp [e, hq, Role.place]

theorem PositionsDistinct.balanced {k : Nat} {m m' : SlotMap} (h : PositionsDistinct k m) (hb : Balanced m m') :
    PositionsDistinct k m' := h.mono fun i q e => by rwa [hb.place] at e

theorem mem_darkPositions {m : SlotMap} {k : Nat} {p : Phase} {q : Nat} :
    q ∈ darkPositions m k p ↔ q < k ∧ ∀ i, phaseOf i = p → (m.get i).role ≠ .active q := by
  simp [darkPositions, holderOf, mem_phaseSlots]

theorem mem_homePositions {m : SlotMap} {p : Phase} {q : Nat} :
    q ∈ homePositions m p ↔ ∃ i, phaseOf i = p ∧ (m.get i).role = .bypassedBalance q := by
  simp only [homePositions, List.mem_filterMap, mem_phaseSlots]
  refine exists_congr fun i => and_congr_right fun _ => ?_
  cases (m.get i).role <;> simp

/-- A position is free in a phase: no slot of it holds or left it. -/
def PositionFree (m : SlotMap) (p : Phase) (q : Nat) : Prop := ∀ i, phaseOf i = p → (m.get i).role.place ≠ some q

theorem mem_openPositions {m : SlotMap} {k : Nat} {p : Phase} {q : Nat} :
    q ∈ openPositions k m p ↔ q < k ∧ PositionFree m p q := by
  have hr : ∀ r : Role, r.place = some q ↔ r = .active q ∨ r = .bypassedBalance q := by
    intro r; cases r <;> simp [Role.place]
  simp only [openPositions, List.mem_filter, mem_darkPositions, Bool.not_eq_true', List.contains_eq_mem, decide_eq_false_iff_not,
    mem_homePositions, PositionFree, ne_eq, hr]
  push Not
  constructor
  · exact fun ⟨⟨hk, h1⟩, h2⟩ => ⟨hk, fun i hi => ⟨h1 i hi, h2 i hi⟩⟩
  · exact fun ⟨hk, h⟩ => ⟨⟨hk, fun i hi => (h i hi).1⟩, fun i hi => (h i hi).2⟩

theorem openPositions_nodup (k : Nat) (m : SlotMap) (p : Phase) : (openPositions k m p).Nodup :=
  (List.nodup_range.filter _).filter _

/-- A spare that takes a free position below K keeps the positions distinct and the others free. -/
theorem takeSpare_distinct {elig : Slot → Bool} {k : Nat} {p : Phase} {m : SlotMap} {q : Nat} (h : PositionsDistinct k m)
    (hq : q < k) (hf : PositionFree m p q) :
    PositionsDistinct k (takeSpare elig p m q) ∧ ∀ q', q' ≠ q → PositionFree m p q' → PositionFree (takeSpare elig p m q) p q' := by
  unfold takeSpare
  split
  · next i hi =>
    obtain ⟨hp, hs, -⟩ := firstSpare_some hi
    have hn : ∀ j q', ((m.setRole i (.active q)).get j).role.place = some q' →
        j = i ∧ q' = q ∨ j ≠ i ∧ (m.get j).role.place = some q' := by
      intro j q' e
      rw [setRole_get] at e
      split at e
      · next hj => exact .inl ⟨hj, (Option.some.inj e).symm⟩
      · next hj => exact .inr ⟨hj, e⟩
    refine ⟨⟨fun j q' e => ?_, fun j l q' hjl ej el => ?_⟩, fun q' hne hfree j hj e => ?_⟩
    · rcases hn j q' e with ⟨-, rfl⟩ | ⟨-, e⟩
      · exact hq
      · exact h.1 j q' e
    · rcases hn j q' ej with ⟨hji, rfl⟩ | ⟨-, ej'⟩ <;> rcases hn l q' el with ⟨hli, e⟩ | ⟨-, el'⟩
      · rw [hji, hli]
      · exact absurd el' (hf l (by rw [← hjl, hji, hp]))
      · exact absurd (e ▸ ej') (hf j (by rw [hjl, hli, hp]))
      · exact h.2 j l q' hjl ej' el'
    · rcases hn j q' e with ⟨-, rfl⟩ | ⟨-, e⟩
      · exact hne rfl
      · exact hfree j hj e
  · exact ⟨h, fun _ _ hfree => hfree⟩

theorem foldl_takeSpare_distinct {elig : Slot → Bool} {k : Nat} {p : Phase} {l : List Nat} {m : SlotMap}
    (h : PositionsDistinct k m) (hl : l.Nodup) (hq : ∀ q ∈ l, q < k ∧ PositionFree m p q) :
    PositionsDistinct k (l.foldl (takeSpare elig p) m) := by
  induction l generalizing m with
  | nil => exact h
  | cons q l ih =>
    obtain ⟨hlt, hfree⟩ := hq q (List.mem_cons_self ..)
    obtain ⟨h1, h2⟩ := takeSpare_distinct (elig := elig) h hlt hfree
    obtain ⟨hnot, hnd⟩ := List.nodup_cons.1 hl
    refine ih h1 hnd fun q' hq' => ?_
    obtain ⟨hlt', hfree'⟩ := hq q' (List.mem_cons_of_mem _ hq')
    exact ⟨hlt', h2 q' (fun e => hnot (e ▸ hq')) hfree'⟩

theorem fillPhase_distinct {elig : Slot → Bool} {k : Nat} {m : SlotMap} (h : PositionsDistinct k m) (p : Phase) :
    PositionsDistinct k (fillPhase elig k m p) :=
  foldl_takeSpare_distinct h (openPositions_nodup k m p) fun _ => mem_openPositions.1

theorem planSpares_distinct {elig : Slot → Bool} {k : Nat} {m : SlotMap} (h : PositionsDistinct k m) :
    PositionsDistinct k (planSpares elig k m) :=
  fillPhase_distinct (fillPhase_distinct (fillPhase_distinct h .a) .b) .c

@[simp] theorem planFaulted_get (hard : Slot → Bool) (m : SlotMap) (i : Slot) :
    (planFaulted hard m).get i = if hard i then (m.get i).bypassFault else m.get i := by simp [planFaulted]

theorem planReinstate_get (elig : Slot → Bool) (m : SlotMap) (i : Slot) :
    (planReinstate elig m).get i = m.get i
      ∨ ∃ h, (m.get i).role = .bypassedBalance h ∧ elig i = true ∧ (planReinstate elig m).get i = { m.get i with role := .active h } := by
  simp only [planReinstate, PerSlot.get_ofFn]
  cases hr : (m.get i).role with
  | bypassedBalance h => cases he : elig i <;> simp
  | absent | active | spare | bypassedFault => exact .inl rfl

theorem planRoles_distinct {hard : Slot → Bool} {s : State} (h : PositionsDistinct s.mpl.k s.mpl.slots) :
    PositionsDistinct s.mpl.k (planRoles hard s) := by
  refine planSpares_distinct ((h.mono (m' := planFaulted hard s.mpl.slots) fun i q e => ?_).mono fun i q e => ?_)
  · rw [planFaulted_get] at e
    split at e
    · simp [SlotEntry.bypassFault, Role.place] at e
    · exact e
  · rcases planReinstate_get (eligible s) (planFaulted hard s.mpl.slots) i with e' | ⟨h', hr, -, e'⟩
    · rwa [e'] at e
    · rw [e'] at e; rw [hr]; exact e

/-! ## One slot over a run -/

theorem lifetimeInc_le (n : BitVec 8) : n.toNat ≤ (lifetimeInc n).toNat := by
  unfold lifetimeInc
  split
  · exact le_rfl
  · next h => have := n.isLt; bv_omega

/-- A slot's entry is carried by a change of map: its count does not fall, its mark stays, and a marked slot stays out. -/
structure EntryCarried (e e' : SlotEntry) : Prop where
  lifetime : e.lifetime.toNat ≤ e'.lifetime.toNat
  mark : e.quarantine = true → e'.quarantine = true
  out : (e.quarantine = true → e.role = .bypassedFault ∨ e.role = .absent) →
    e'.quarantine = true → e'.role = .bypassedFault ∨ e'.role = .absent

theorem EntryCarried.refl (e : SlotEntry) : EntryCarried e e := ⟨le_rfl, id, id⟩

theorem EntryCarried.trans {e e' e'' : SlotEntry} (h : EntryCarried e e') (h' : EntryCarried e' e'') : EntryCarried e e'' :=
  ⟨h.lifetime.trans h'.lifetime, h'.mark ∘ h.mark, h'.out ∘ h.out⟩

/-- A change of role of a slot that takes or took part. -/
theorem EntryCarried.of_role {e : SlotEntry} (h1 : e.role ≠ .bypassedFault) (h2 : e.role ≠ .absent) (r : Role) (b : Bypass) :
    EntryCarried e { e with role := r, bypass := b } :=
  ⟨le_rfl, id, fun h hq => ((h hq).elim h1 h2).elim⟩

theorem EntryCarried.of_bypassFault (e : SlotEntry) : EntryCarried e e.bypassFault :=
  ⟨lifetimeInc_le _, fun _ => rfl, fun _ _ => .inl rfl⟩

theorem Balanced.carried {m m' : SlotMap} (h : Balanced m m') (i : Slot) : EntryCarried (m.get i) (m'.get i) := by
  rcases h i with e | ⟨q, hq, e⟩
  · rw [e]; exact .refl _
  · rw [e]; exact .of_role (by simp [hq]) (by simp [hq]) _ _

theorem SparesTaken.carried {elig : Slot → Bool} {m m' : SlotMap} (h : SparesTaken elig m m') (i : Slot) :
    EntryCarried (m.get i) (m'.get i) := by
  rcases h i with e | ⟨hs, -, q, e⟩
  · rw [e]; exact .refl _
  · rw [e]; exact .of_role (by simp [hs]) (by simp [hs]) _ _

theorem planReinstate_carried (elig : Slot → Bool) (m : SlotMap) (i : Slot) : EntryCarried (m.get i) ((planReinstate elig m).get i) := by
  rcases planReinstate_get elig m i with e | ⟨h, hr, -, e⟩
  · rw [e]; exact .refl _
  · rw [e]; exact .of_role (by simp [hr]) (by simp [hr]) _ _

theorem planFaulted_carried (hard : Slot → Bool) (m : SlotMap) (i : Slot) : EntryCarried (m.get i) ((planFaulted hard m).get i) := by
  rw [planFaulted_get]
  split
  · exact .of_bypassFault _
  · exact .refl _

theorem planRoles_carried (hard : Slot → Bool) (s : State) (i : Slot) :
    EntryCarried (s.mpl.slots.get i) ((planRoles hard s).get i) :=
  ((planFaulted_carried hard _ i).trans (planReinstate_carried _ _ i)).trans ((planSpares_taken _ _ _).carried i)

/-- The map in force after a run, one slot: the role of the working map, and the bypass that goes with it if fitted. -/
theorem mapTaken_get (hard : Slot → Bool) (s : State) (i : Slot) :
    (mapTaken hard s).mpl.slots.get i
      = (let e := (rebalance s.mpl.table s.plan.rounding s.mpl.k (planRoles hard s)).slots.get i
        if s.mpl.fitted.get i then { e with bypass := e.role.bypass } else e) := by
  rw [mapTaken_slots]
  simp [commandFitted]

theorem mapTaken_role (hard : Slot → Bool) (s : State) (i : Slot) :
    ((mapTaken hard s).mpl.slots.get i).role
      = ((rebalance s.mpl.table s.plan.rounding s.mpl.k (planRoles hard s)).slots.get i).role := by
  rw [mapTaken_get]
  dsimp only
  split <;> rfl

theorem mapTaken_carried (hard : Slot → Bool) (s : State) (i : Slot) :
    EntryCarried (s.mpl.slots.get i) ((mapTaken hard s).mpl.slots.get i) := by
  refine ((planRoles_carried hard s i).trans
    ((rebalance_balanced s.mpl.table s.plan.rounding s.mpl.k (planRoles hard s)).carried i)).trans ?_
  rw [mapTaken_get]
  dsimp only
  split
  · exact ⟨le_rfl, id, id⟩
  · exact .refl _

theorem mapTaken_distinct {hard : Slot → Bool} {s : State} (h : PositionsDistinct s.mpl.k s.mpl.slots) :
    PositionsDistinct s.mpl.k (mapTaken hard s).mpl.slots :=
  ((planRoles_distinct h).balanced (rebalance_balanced _ _ _ _)).mono fun i q e => by rwa [mapTaken_role] at e

/-! ## The initial map (R14, R15) -/

/-- The eligible slots of a phase below a slot are fewer than those below a higher one, itself among them. -/
theorem rankBelow_lt {able : Slot → Bool} {i j : Slot} (hp : phaseOf i = phaseOf j) (ha : able i = true) (hij : i < j) :
    rankBelow able i < rankBelow able j := by
  unfold rankBelow
  rw [hp, List.length_eq_length_filter_add (l := (phaseSlots (phaseOf j)).filter fun l => decide (l.val < j.val) && able l)
    (fun l => decide (l.val < i.val))]
  have h1 : ((phaseSlots (phaseOf j)).filter fun l => decide (l.val < j.val) && able l).filter (fun l => decide (l.val < i.val))
      = (phaseSlots (phaseOf j)).filter fun l => decide (l.val < i.val) && able l := by
    rw [List.filter_filter]
    refine List.filter_congr fun l _ => ?_
    by_cases hl : l.val < i.val
    · simp [hl, hl.trans hij]
    · simp [hl]
  have h2 : i ∈ ((phaseSlots (phaseOf j)).filter fun l => decide (l.val < j.val) && able l).filter
      (fun l => !decide (l.val < i.val)) := by
    simp [mem_phaseSlots, hp, ha, hij]
  rw [h1]
  have := List.length_pos_of_mem h2
  omega

theorem initialMap_get (fitted released : Slot → Bool) (k : Nat) (m : SlotMap) (i : Slot) :
    (initialMap fitted released k m).get i = { m.get i with
      role := initialRole fitted (fun j => (m.get j).quarantine && !released j) k i
      quarantine := (m.get i).quarantine && !released i } := by
  simp [initialMap]

/-- A slot of the initial map that holds or left a position holds the one of its rank. -/
theorem initialRole_place {fitted marked : Slot → Bool} {k : Nat} {i : Slot} {q : Nat}
    (h : (initialRole fitted marked k i).place = some q) :
    q < k ∧ q = rankBelow (fun j => fitted j && !marked j) i ∧ (fitted i && !marked i) = true := by
  cases hf : fitted i <;> cases hm : marked i <;> simp only [initialRole, hf, hm, Bool.not_true, Bool.not_false, ite_true,
    Bool.false_eq_true, ite_false] at h
  case true.false =>
    by_cases hk : rankBelow (fun j => fitted j && !marked j) i < k
    · rw [if_pos hk] at h
      exact ⟨Option.some.inj h ▸ hk, (Option.some.inj h).symm, rfl⟩
    · rw [if_neg hk] at h
      exact absurd h (by simp [Role.place])
  all_goals exact absurd h (by simp [Role.place])

theorem initialMap_distinct (fitted released : Slot → Bool) (k : Nat) (m : SlotMap) :
    PositionsDistinct k (initialMap fitted released k m) := by
  simp only [PositionsDistinct, initialMap_get]
  refine ⟨fun i q h => (initialRole_place h).1, fun i j q hp hi hj => ?_⟩
  obtain ⟨-, ei, ai⟩ := initialRole_place hi
  obtain ⟨-, ej, aj⟩ := initialRole_place hj
  rcases lt_trichotomy i j with h | h | h
  · have := rankBelow_lt (able := fun j => fitted j && !((m.get j).quarantine && !released j)) hp ai h
    omega
  · exact h
  · have := rankBelow_lt (able := fun j => fitted j && !((m.get j).quarantine && !released j)) hp.symm aj h
    omega

theorem initialMap_quarantine (fitted released : Slot → Bool) (k : Nat) (m : SlotMap) :
    QuarantineHolds (initialMap fitted released k m) := by
  intro i h
  rw [initialMap_get] at h ⊢
  cases hf : fitted i <;> simp_all [initialRole]

theorem planBuild_distinct (p : List Word) (m : SlotMap) : PositionsDistinct (planNat p 2) (planBuild p m).slots :=
  (initialMap_distinct ..).balanced (rebalance_balanced _ _ _ _)

theorem planBuild_quarantine (p : List Word) (m : SlotMap) : QuarantineHolds (planBuild p m).slots := fun i =>
  ((rebalance_balanced _ _ _ _).carried i).out (initialMap_quarantine _ _ _ m i)

/-- The lifetime count and the mark of a slot over an initial build (R13, R14). -/
theorem planBuild_table (p : List Word) (m : SlotMap) (i : Slot) :
    ((planBuild p m).slots.get i).lifetime = (m.get i).lifetime
      ∧ ((planBuild p m).slots.get i).quarantine = ((m.get i).quarantine && !planReleases p i) := by
  rcases rebalance_balanced (planTable p) (planRounding p) (planNat p 2)
    (initialMap (planFitted p) (planReleases p) (planNat p 2) m) i with e | ⟨q, -, e⟩ <;>
  simp [planBuild, e, initialMap_get]

end Sys2Proof.Machine
end

