-- ==== Sys2Proof/Proofs/MapAndSlots.lean ====
section
/-! The laws of the cell map over a step: L1 and L2 with the quarantine table (R4, R5, R11 to R13), and the laws of the slots
(R2, R3, R96, R126, R130). -/

namespace Sys2Proof.Machine

/-! ## The map over turns -/

/-- Every slot's entry is carried, and a run keeps the positions distinct. -/
structure MapCarried (s t : State) : Prop where
  entries : ∀ i, EntryCarried (s.mpl.slots.get i) (t.mpl.slots.get i)
  distinct : PositionsDistinct s.mpl.k s.mpl.slots → PositionsDistinct t.mpl.k t.mpl.slots

theorem MapCarried.trans {s t u : State} (h : MapCarried s t) (h' : MapCarried t u) : MapCarried s u :=
  ⟨fun i => (h.entries i).trans (h'.entries i), h'.distinct ∘ h.distinct⟩

theorem MapCarried.of_same {s t : State} (hk : t.mpl.k = s.mpl.k) (hs : t.mpl.slots = s.mpl.slots) : MapCarried s t :=
  ⟨fun i => by rw [hs]; exact .refl _, by rw [hk, hs]; exact id⟩

theorem MapCarried.refl (s : State) : MapCarried s s := .of_same rfl rfl

theorem MapCarried.of_planned {s : State} (hard : Slot → Bool) : MapCarried s (mapTaken hard s) :=
  ⟨mapTaken_carried hard s, fun h => by simpa using mapTaken_distinct (hard := hard) h⟩

theorem Move.mapCarried {s t : State} (m : Move s t) : MapCarried s t := by
  cases m with
  | free hk => exact .of_same (hk .k (by simp [freeFields])) (hk .slots (by simp [freeFields]))
  | planned _ _ => exact (MapCarried.of_same (s := s) (t := clearPending s) rfl rfl).trans (.of_planned _)
  | quarantine i _ _ =>
    refine ⟨fun j => ?_, fun h => h.mono fun j q e => ?_⟩
    · simp only [State.onMpl_mpl, PerSlot.get_modify]
      split
      · exact .of_bypassFault _
      · exact .refl _
    · simp only [State.onMpl_mpl, PerSlot.get_modify] at e
      split at e
      · simp [SlotEntry.bypassFault, Role.place] at e
      · exact e
  | quiesce | hand | submit | cancel | endWen => exact .of_same (by simp) (by simp)
  | _ => exact .of_same rfl rfl

theorem Moves.mapCarried {s t : State} (m : Moves s t) : MapCarried s t := by
  induction m with
  | refl => exact .refl s
  | tail _ m ih => exact ih.trans m.mapCarried

theorem Turn.mapCarried {s t : State} (ht : Turn s t) : MapCarried s t := by
  cases ht with
  | move m => exact m.mapCarried
  | resume ha => exact (MapCarried.of_same (by simp) (by simp))
  | short p hr _ =>
    exact (MapCarried.of_same (s := s) (t := clearPending s) rfl rfl).trans
      ((MapCarried.of_planned _).trans (shortLockout_moves (by exact hr) _).mapCarried)
  | arm hu =>
    have h1 : MapCarried s (enter .arming noSlot 0 (cancelDisarmReports s)) := .of_same (by simp) (by simp)
    rcases armRise_cases s with e | e <;> rw [e]
    · exact h1.trans (.of_same rfl rfl)
    · exact h1.trans (endArmRise_moves _).mapCarried

theorem Turns.mapCarried {s t : State} (h : Turns s t) : MapCarried s t := by
  induction h with
  | refl => exact .refl s
  | tail _ m ih => exact ih.trans m.mapCarried

theorem PortMove.mapCarried {s t : State} (m : PortMove s t) : MapCarried s t :=
  .of_same (m.frame .k (by simp [portMoveFields])) (m.frame .slots (by simp [portMoveFields]))

theorem Settling.mapCarried {s t : State} (h : Settling s t) : MapCarried s t := by
  induction h with
  | refl => exact .refl s
  | tail _ m ih => exact ih.trans (m.elim (fun m => m.1.mapCarried) fun m => m.mapCarried)

theorem settle_mapCarried (s : State) : MapCarried s (settle s) := (settle_settling s).mapCarried

theorem Joined.mapCarried {s t : State} (h : Joined s t) : MapCarried s t := by
  obtain ⟨u, hu, rfl | hp⟩ := h
  · exact hu.mapCarried
  · exact hu.mapCarried.trans hp.mapCarried

theorem MapLaw.carried {s t : State} (h : MapLaw s) (hc : MapCarried s t) : MapLaw t :=
  ⟨fun i => (hc.entries i).out (h.1 i), hc.distinct h.2⟩

theorem adopt_mapLaw (s : State) : MapLaw (adopt s) := by
  obtain ⟨-, hk, hs, -⟩ := adopt_blocks s
  constructor
  · rw [hs]
    intro i
    simpa [commandBypass] using planBuild_quarantine s.pld.copy s.mpl.slots i
  · rw [hs, hk]
    exact (planBuild_distinct s.pld.copy s.mpl.slots).mono fun i q e => by simpa [commandBypass] using e

/-- With every slot ABSENT the map is lawful. -/
theorem mapLaw_of_absent {s : State} (h : ∀ i, (s.mpl.slots.get i).role = .absent) : MapLaw s :=
  ⟨fun i _ => .inr (h i), fun i q e => by simp [h i, Role.place] at e, fun i j q _ e => by simp [h i, Role.place] at e⟩

theorem mapLaw_kept : KeptBySteps MapLaw :=
  ⟨fun _ _ ht h => h.carried ht.mapCarried, fun _ _ m h => h.carried m.mapCarried, fun s _ _ _ => adopt_mapLaw s,
    fun s _ => mapLaw_of_absent fun i => by simp [blocksReset, State.held, Mpl.reset, SlotEntry.reset],
    fun s _ => mapLaw_of_absent fun i => by simp [warmBlocks, warmReset, SlotEntry.reset]⟩

/-! ## The quarantine table over a step (L12) -/

/-- The table over an adoption: the counts stay, and the release list clears its marks (R13). -/
theorem adopt_table (s : State) (i : Slot) :
    ((adopt s).mpl.slots.get i).lifetime = (s.mpl.slots.get i).lifetime
      ∧ ((adopt s).mpl.slots.get i).quarantine = ((s.mpl.slots.get i).quarantine && !planReleases s.pld.copy i) := by
  obtain ⟨-, -, hs, -⟩ := adopt_blocks s
  rw [hs]
  simpa [commandBypass] using planBuild_table s.pld.copy s.mpl.slots i

theorem warmBlocks_table (s : State) (i : Slot) :
    ((warmBlocks s).mpl.slots.get i).lifetime = (s.mpl.slots.get i).lifetime
      ∧ ((warmBlocks s).mpl.slots.get i).quarantine = (s.mpl.slots.get i).quarantine := by
  simp [warmBlocks, warmReset]

/-- A state in which the table of another is carried keeps marks and counts. -/
theorem QuarantineKept.of_carried {s t : State} (h : ∀ i, EntryCarried (s.mpl.slots.get i) (t.mpl.slots.get i)) :
    QuarantineKept s t := fun i =>
  ⟨fun _ => (h i).lifetime, fun hq hq' => by rw [(h i).mark hq] at hq'; exact absurd hq' (by simp)⟩

theorem quarantineKept_step {s t : State} (e : step s = .next t) : QuarantineKept s t := by
  unfold step at e
  split at e
  · cases e; exact .of_carried fun _ => .refl _
  next c rest hp =>
    by_cases h1 : c = .powerOnReset
    · subst h1
      exact fun i => ⟨fun h => absurd (by simp [hp]) h, fun _ _ => .inl (by simp [hp])⟩
    by_cases h2 : c = .resetNLow
    · subst h2
      simp only [exec, execResetNLow] at e
      split at e
      · cases e
        refine .of_carried fun i => ?_
        obtain ⟨hl, hq⟩ := warmBlocks_table { s with pending := rest } i
        have h0 : ∀ e e' : SlotEntry, e'.lifetime = e.lifetime → e'.quarantine = e.quarantine → e'.role = .absent →
            EntryCarried e e' := fun e e' hl hq hr => ⟨by rw [hl], by rw [hq]; exact id, fun _ _ => .inr hr⟩
        refine EntryCarried.trans (h0 _ _ hl hq (by simp [warmBlocks, warmReset, SlotEntry.reset])) ?_
        exact ((retakeNeeds_settling _ (warmBlocks { s with pending := rest }) rfl).mapCarried.trans (settle_mapCarried _)).entries i
      · cases e; exact .of_carried fun _ => .refl _
    rcases exec_turns h1 h2 e with ⟨u, ht, rfl | rfl⟩ | ⟨u, rfl, hd, hc, hr, rfl, rfl⟩
    · exact .of_carried ht.mapCarried.entries
    · exact .of_carried (ht.mapCarried.trans (settle_mapCarried u)).entries
    · intro i
      have hu : (handOverDrive (releasePort { s with pending := rest })).mpl.slots = s.mpl.slots
          ∧ (handOverDrive (releasePort { s with pending := rest })).pld.copy = s.pld.copy := by simp
      obtain ⟨hl, hq⟩ := adopt_table (handOverDrive (releasePort { s with pending := rest })) i
      rw [hu.1] at hl hq
      rw [hu.2] at hq
      have hs := (settle_mapCarried (adopt (handOverDrive (releasePort { s with pending := rest })))).entries i
      refine ⟨fun _ => by rw [← hl]; exact hs.lifetime, fun h h' => .inr ⟨by simp [hp], hd, hc, hr, ?_⟩⟩
      by_contra hrel
      have := hs.mark (by rw [hq, h]; simpa using hrel)
      rw [h'] at this
      exact absurd this (by simp)

/-- Settles O58: every change of map carries the entries, and only an adoption's release list clears a mark. -/
theorem mapLawIsKept : Obligations.MapLawIsKept := ⟨mapLaw_kept.step, fun _ _ => quarantineKept_step⟩

/-! ## The laws of the slots -/

theorem SlotLaw.of_same {s t : State} (h : SlotLaw s) (hm : t.mpl.slots = s.mpl.slots) (hf : t.mpl.fitted = s.mpl.fitted)
    (hr : t.rct.restart = s.rct.restart) (hw : t.rct.watch = s.rct.watch) (hp : t.rct.pendingFaults = s.rct.pendingFaults)
    (hq : t.rct.progress = s.rct.progress) (hc : t.pld.cursor ≠ .none → s.pld.cursor ≠ .none) : SlotLaw t := by
  obtain ⟨h1, h2, h3, h4, h5, h6, h7⟩ := h
  constructor
  · rwa [hm, hf]
  · rwa [hm, hf, hw]
  · rwa [hm, hw]
  · rwa [hm, hp]
  · rwa [hm, hq, hr]
  · rw [hr, hw]; exact fun h => h6 (h.imp id hc)
  · rw [hr]; exact fun h => h7 (hc h)

theorem PerSlot.eq_all_none {α : Type} {v : PerSlot (Option α)} (h : ∀ i a, v.get i ≠ some a) : v = PerSlot.all none :=
  PerSlot.ext_get fun i => by
    cases hv : v.get i with
    | none => simp
    | some a => exact absurd hv (h i a)

theorem slotLaw_rct {s : State} {r : Rct} (h : SlotLaw s) (hr : RctCalm s r) : SlotLaw { s with rct := r } := by
  obtain ⟨h1, h2, h3, h4, h5, h6, h7⟩ := h
  have hnone : ∀ i, s.rct.watch.get i = none → r.watch.get i = none := by
    intro i hi
    cases hv : r.watch.get i with
    | none => rfl
    | some e => obtain ⟨e', he', -⟩ := hr.watch i e hv; simp [hi] at he'
  refine ⟨h1, fun i hi => ⟨(h2 i hi).1, hnone i (h2 i hi).2⟩, fun i e he => ?_, fun i f hf => ?_, fun i q hq => ?_, fun hc => ?_,
    fun hc => ?_⟩
  · obtain ⟨e', he', ha⟩ := hr.watch i e he
    exact ha ▸ h3 i e' he'
  · exact (hr.pending i f hf).elim (fun ⟨f', hf'⟩ => h4 i f' hf') id
  · simp only [hr.restart]
    exact (hr.progress i q hq).elim (fun ⟨q', hq'⟩ => h5 i q' hq') id
  · simp only [hr.restart] at hc
    exact PerSlot.eq_all_none fun i e he => by simp [hnone i (by simp [h6 hc])] at he
  · simp only [hr.restart]; exact h7 hc

theorem leave_progress (r : Rct) (new : RestartState) (h : r.restart = .recharging ∨ r.restart = .verifying) :
    (r.leave new).progress = if r.restart = .recharging ∧ new = .verifying then r.progress else PerSlot.all none := by
  rcases h with h | h <;> simp [Rct.leave, h]

theorem leave_progress_other (r : Rct) (new : RestartState) (h : r.restart ≠ .recharging) (h' : r.restart ≠ .verifying) :
    (r.leave new).progress = r.progress := by
  unfold Rct.leave
  cases hr : r.restart <;> simp_all

/-- A change of state discards the progress records but from RECHARGING to VERIFYING. -/
theorem slotLaw_changed {s : State} (h : SlotLaw s) {new : RestartState} (clear : Bool) (hn : new ≠ .unarmed)
    (hc : s.pld.cursor = .none) : SlotLaw (changed new clear s) := by
  obtain ⟨h1, h2, h3, h4, h5, h6, h7⟩ := h
  have hw : (changed new clear s).rct.watch = s.rct.watch := by simp [changed, leave_fields]
  refine ⟨h1, fun i hi => ⟨(h2 i hi).1, ?_⟩, fun i e he => h3 i e ?_, fun i f hf => h4 i f ?_, fun i q hq => ?_, fun hc' => ?_,
    fun hc' => absurd hc hc'⟩
  · rw [hw]; exact (h2 i hi).2
  · rwa [hw] at he
  · simpa [changed, leave_fields] using hf
  · change (s.rct.leave new).progress.get i = some q at hq
    by_cases hr : s.rct.restart = .recharging ∨ s.rct.restart = .verifying
    · rw [leave_progress _ _ hr] at hq
      split at hq
      · next hv => exact ⟨(h5 i q hq).1, .inr hv.2⟩
      · simp at hq
    · push Not at hr
      rw [leave_progress_other _ _ hr.1 hr.2] at hq
      exact absurd (h5 i q hq).2 (by simp [hr.1, hr.2])
  · exact (hc'.elim (fun e => hn e) fun e => e hc).elim

theorem hardPending_some {r : Rct} {i : Slot} (h : hardPending r i = true) : ∃ f, r.pendingFaults.get i = some f := by
  unfold hardPending at h
  split at h
  · next f hf => exact ⟨f, hf⟩
  · simp at h

/-- A run leaves an ABSENT slot that is not hard-faulted. -/
theorem planRoles_absent {hard : Slot → Bool} {s : State} {i : Slot} (h : (s.mpl.slots.get i).role = .absent)
    (hh : hard i = false) : ((planRoles hard s).get i).role = .absent := by
  have h1 : ((planFaulted hard s.mpl.slots).get i).role = .absent := by simp [hh, h]
  have h2 : ((planReinstate (eligible s) (planFaulted hard s.mpl.slots)).get i).role = .absent := by
    rcases planReinstate_get (eligible s) (planFaulted hard s.mpl.slots) i with e | ⟨_, hr, -⟩
    · rw [e, h1]
    · exact absurd hr (by rw [h1]; simp)
  rcases planSpares_taken (eligible s) s.mpl.k (planReinstate (eligible s) (planFaulted hard s.mpl.slots)) i with e | ⟨hr, -⟩
  · exact (congrArg SlotEntry.role e).trans h2
  · simp [h2] at hr

theorem Balanced.absent {m m' : SlotMap} (h : Balanced m m') {i : Slot} (hi : (m.get i).role = .absent) :
    (m'.get i).role = .absent := by
  rcases h i with e | ⟨q, hq, -⟩
  · rw [e, hi]
  · simp [hi] at hq

theorem slotLaw_planned {s : State} (h : SlotLaw s) (hr : s.rct.restart = .isolating) :
    SlotLaw (mapTaken (hardPending s.rct) (clearPending s)) := by
  obtain ⟨h1, h2, h3, h4, h5, h6, h7⟩ := h
  obtain ⟨w, hrct⟩ := mapTaken_rct (hardPending s.rct) (clearPending s)
  have hcur : s.pld.cursor = .none := by
    by_contra hc; exact absurd (h7 hc) (by simp [hr])
  have hprog : ∀ i q, s.rct.progress.get i ≠ some q := fun i q e => absurd (h5 i q e).2 (by simp [hr])
  have hwatch := mapTaken_watch (hardPending s.rct) (clearPending s)
  generalize hm : (mapTaken (hardPending s.rct) (clearPending s)) = t at *
  have hfit : t.mpl.fitted = s.mpl.fitted := by simp [← hm]
  have hbypass : ∀ i, s.mpl.fitted.get i = true → (t.mpl.slots.get i).bypass = (t.mpl.slots.get i).role.bypass := by
    intro i hi
    rw [← hm, mapTaken_get]
    simp [hi]
  have habsent : ∀ i, s.mpl.fitted.get i = false → (t.mpl.slots.get i).role = .absent := by
    intro i hi
    rw [← hm, mapTaken_role]
    refine (rebalance_balanced _ _ _ _).absent (planRoles_absent (h2 i hi).1 ?_)
    by_contra hh
    obtain ⟨f, hf⟩ := hardPending_some (by simpa using hh)
    simpa [(h2 i hi).1, Role.isActive] using h4 i f hf
  have hchanged : ∀ i, i ∈ contactorChanges s.mpl.fitted s.mpl.slots t.mpl.slots ↔
      s.mpl.fitted.get i = true ∧ (s.mpl.slots.get i).bypass ≠ (t.mpl.slots.get i).bypass := by
    intro i
    simp [contactorChanges, mem_allSlots]
  refine ⟨fun i hi => hbypass i (hfit ▸ hi), fun i hi => ?_, fun i e he => ?_, fun i f hf => ?_, fun i q hq => ?_, fun hc => ?_,
    fun hc => ?_⟩
  · rw [hfit] at hi
    refine ⟨habsent i hi, ?_⟩
    rw [hwatch, if_neg]
    · exact (h2 i hi).2
    · exact fun hin => by simp [((hchanged i).1 hin).1] at hi
  · rw [hwatch] at he
    split at he
    · rw [← Option.some.inj he]
    · next hout =>
      have hfi : s.mpl.fitted.get i = true := by
        by_contra hn
        simp [(h2 i (by simpa using hn)).2] at he
      have : (s.mpl.slots.get i).bypass = (t.mpl.slots.get i).bypass := by
        by_contra hne; exact hout ((hchanged i).2 ⟨hfi, hne⟩)
      rw [← this]
      exact h3 i e he
  · rw [hrct] at hf
    simp at hf
  · rw [hrct] at hq
    exact absurd hq (hprog i q)
  · have hcur' : t.pld.cursor = .none := by rw [← hm]; simpa using hcur
    have hrr : t.rct.restart = .isolating := by rw [hrct]; exact hr
    simp [hcur', hrr] at hc
  · have hcur' : t.pld.cursor = .none := by rw [← hm]; simpa using hcur
    exact absurd hcur' hc

theorem slotLaw_quarantine {s : State} (h : SlotLaw s) {i : Slot} (hr : (s.mpl.slots.get i).role.reports = true)
    (ha : (s.mpl.slots.get i).role.isActive = false) :
    SlotLaw (s.onMpl fun m => { m with slots := m.slots.modify i SlotEntry.bypassFault }) := by
  obtain ⟨h1, h2, h3, h4, h5, h6, h7⟩ := h
  have hget : ∀ j, (s.mpl.slots.modify i SlotEntry.bypassFault).get j
      = if j = i then (s.mpl.slots.get j).bypassFault else s.mpl.slots.get j := fun j => PerSlot.get_modify ..
  have hby : ∀ j, ((s.mpl.slots.modify i SlotEntry.bypassFault).get j).bypass = (s.mpl.slots.get j).bypass := by
    intro j; rw [hget]; split <;> rfl
  have hact : ∀ j, (s.mpl.slots.get j).role.isActive = true →
      ((s.mpl.slots.modify i SlotEntry.bypassFault).get j).role.isActive = true := by
    intro j hj
    rw [hget, if_neg (by rintro rfl; simp [ha] at hj)]
    exact hj
  refine ⟨fun j hj => ?_, fun j hj => ⟨?_, (h2 j hj).2⟩, fun j e he => ?_, fun j f hf => hact j (h4 j f hf),
    fun j q hq => ⟨hact j (h5 j q hq).1, (h5 j q hq).2⟩, h6, h7⟩
  · simp only [State.onMpl_mpl, hby]
    rw [h1 j hj, hget]
    split
    · next e => subst e; simp only [Role.bypass, ha]; rfl
    · rfl
  · simp only [State.onMpl_mpl, hget]
    rw [if_neg (by rintro rfl; simp [(h2 j hj).1, Role.reports] at hr)]
    exact (h2 j hj).1
  · simp only [State.onMpl_mpl, hby]
    exact h3 j e he

/-- A state in which a change is made reads no plan: no slot is watched while one is read. -/
theorem Changes.noPlanRead {s : State} {new : RestartState} {clear : Bool} (hc : Changes s new clear) (h : SlotLaw s) :
    s.pld.cursor = .none := by
  by_contra hcur
  rcases hc.start with hu | ⟨-, -, i, e, he⟩
  · simp [h.reading hcur, RestartState.underWay] at hu
  · simp [h.unwatched (.inr hcur)] at he

theorem Move.keeps_slotLaw {s t : State} (m : Move s t) (h : SlotLaw s) : SlotLaw t := by
  have same : ∀ {t : State}, t.mpl.slots = s.mpl.slots → t.mpl.fitted = s.mpl.fitted → t.rct = s.rct → t.pld = s.pld →
      SlotLaw t := fun e1 e2 e3 e4 => h.of_same e1 e2 (by rw [e3]) (by rw [e3]) (by rw [e3]) (by rw [e3]) (by rw [e4]; exact id)
  cases m with
  | free hk =>
    exact same (hk .slots (by simp [freeFields])) (hk .fitted (by simp [freeFields])) (hk .rct (by simp [freeFields]))
      (hk .pld (by simp [freeFields]))
  | pld p hp => exact h.of_same rfl rfl rfl rfl rfl rfl hp
  | rct r hr => exact slotLaw_rct h hr
  | change new clear hc => exact slotLaw_changed h clear hc.target.1 (hc.noPlanRead h)
  | contactor x _ => exact h.of_same rfl rfl rfl rfl rfl rfl id
  | convert _ => exact h.of_same rfl rfl rfl rfl rfl rfl id
  | quarantine i hr ha => exact slotLaw_quarantine h hr ha
  | planned hr _ => exact slotLaw_planned h hr
  | quiesce _ _ =>
    obtain ⟨h1, h2, h3, h4, h5, h6, h7⟩ := h
    refine ⟨by simpa using h1, fun i hi => ⟨by simpa using (h2 i (by simpa using hi)).1, by simp⟩, ?_, ?_, ?_, ?_, ?_⟩ <;> simp
  | hand | submit | cancel | endWen => exact same (by simp) (by simp) (by simp) (by simp)
  | _ => exact same rfl rfl rfl rfl

theorem moves_slotLaw {s t : State} (m : Moves s t) (h : SlotLaw s) : SlotLaw t := m.keeps (fun _ _ m => m.keeps_slotLaw) h

theorem slotLaw_arming {s : State} (h : SlotLaw s) (hu : s.rct.restart = .unarmed) : SlotLaw (enter .arming noSlot 0 s) :=
  moves_slotLaw (enter_arming_moves hu) (slotLaw_changed h false (by simp) (by
    by_contra hc; simpa [hu] using h.reading hc))

theorem Turn.keeps_slotLaw {s t : State} (ht : Turn s t) (h : SlotLaw s) : SlotLaw t := by
  cases ht with
  | move m => exact m.keeps_slotLaw h
  | resume ha => exact (moves_slotLaw (enterResuming_moves ha) h).of_same rfl rfl rfl rfl rfl rfl id
  | short p hr _ => exact moves_slotLaw (shortLockout_moves (by exact hr) _) (slotLaw_planned h hr)
  | arm hu =>
    have h1 := moves_slotLaw (cancelDisarmReports_moves s) h
    have h2 := slotLaw_arming h1 (by simpa using hu)
    have hw : (enter .arming noSlot 0 (cancelDisarmReports s)).rct.watch = PerSlot.all none := by
      rw [enter_rct]
      simp [leave_fields, h.unwatched (.inl hu)]
    rcases armRise_cases s with e | e <;> rw [e]
    · obtain ⟨a1, a2, a3, a4, a5, -, -⟩ := h2
      exact ⟨a1, a2, a3, a4, a5, fun _ => hw, fun _ => by simp [startPlanRead]⟩
    · exact moves_slotLaw (endArmRise_moves _) h2

/-- An adoption commands every fitted slot and watches it; an unfitted one stays ABSENT (R14, R16, R168). -/
theorem adopt_keeps_slotLaw {s : State} (hc : s.pld.cursor = .drive) (h : SlotLaw s) : SlotLaw (adopt s) := by
  obtain ⟨h1, h2, h3, h4, h5, h6, h7⟩ := h
  obtain ⟨hfit, -, hs, -, -, hcur, -⟩ := adopt_blocks s
  have ha : s.rct.restart = .arming := h7 (by simp [hc])
  have hw : ∀ i, (adopt s).rct.watch.get i
      = if planFitted s.pld.copy i then some ⟨((adopt s).mpl.slots.get i).bypass, none⟩ else none := by
    intro i
    rw [adopt_watch, h6 (.inr (by simp [hc]))]
    simp
  have hprog : ∀ i q, s.rct.progress.get i ≠ some q := fun i q e => absurd (h5 i q e).2 (by simp [ha])
  refine ⟨fun i _ => ?_, fun i hi => ⟨?_, ?_⟩, fun i e he => ?_, fun i f hf => ?_, fun i q hq => ?_, fun hc' => ?_,
    fun hc' => absurd hcur hc'⟩
  · rw [hs]; simp [commandBypass]
  · rw [hfit] at hi
    rw [hs]
    simp only [commandBypass, PerSlot.get_map]
    refine (rebalance_balanced _ _ _ _).absent ?_
    rw [initialMap_get]
    have hf : planFitted s.pld.copy i = false := by simpa using hi
    simp [initialRole, hf]
  · rw [hw, if_neg]
    rw [hfit] at hi
    simpa using hi
  · rw [hw] at he
    split at he
    · rw [← Option.some.inj he]
    · simp at he
  · rw [adopt_rct] at hf
    simp [adoptRct] at hf
  · rw [adopt_rct] at hq
    exact absurd hq (hprog i q)
  · have hr : (adopt s).rct.restart = .arming := by rw [adopt_rct]; exact ha
    simp [hcur, hr] at hc'

/-- With every slot ABSENT and CLOSED and the controller in reset the laws of the slots hold. -/
theorem slotLaw_of_absent {s : State} (h : ∀ i, (s.mpl.slots.get i).role = .absent ∧ (s.mpl.slots.get i).bypass = .closed)
    (hr : s.rct = .reset) (hp : s.pld = .reset) : SlotLaw s := by
  refine ⟨fun i _ => ?_, fun i _ => ⟨(h i).1, by simp [hr, Rct.reset]⟩, ?_, ?_, ?_, ?_, ?_⟩ <;>
    simp_all [Rct.reset, Pld.reset, Role.bypass, Role.isActive]

theorem PortMove.keeps_slotLaw {s t : State} (m : PortMove s t) (h : SlotLaw s) : SlotLaw t := by
  have e1 : t.rct = s.rct := m.frame .rct (by simp [portMoveFields])
  have e2 : t.pld = s.pld := m.frame .pld (by simp [portMoveFields])
  exact h.of_same (m.frame .slots (by simp [portMoveFields])) (m.frame .fitted (by simp [portMoveFields])) (by rw [e1])
    (by rw [e1]) (by rw [e1]) (by rw [e1]) (by rw [e2]; exact id)

theorem slotLaw_kept : KeptBySteps SlotLaw :=
  ⟨fun _ _ => Turn.keeps_slotLaw, fun _ _ => PortMove.keeps_slotLaw, fun _ hc _ => adopt_keeps_slotLaw hc,
    fun s _ => slotLaw_of_absent (fun i => by simp [blocksReset, State.held, Mpl.reset, SlotEntry.reset]) rfl rfl,
    fun s _ => slotLaw_of_absent (fun i => by simp [warmBlocks, warmReset, SlotEntry.reset]) rfl rfl⟩

/-- Settles O59: every change of map, watch list, pending set and progress keeps the laws of the slots. -/
theorem slotLawIsKept : Obligations.SlotLawIsKept := slotLaw_kept.step

end Sys2Proof.Machine
end

