-- ==== Sys2Proof/Proofs/PortLaws.lean ====
section
/-! The quiet of the unarmed part (R44, R59, R94, R154, R169, R174), the law of the port (R27, R31, R33) and of the protected
regions (R39, R40, L10). -/

namespace Sys2Proof.Machine

/-! ## The quiet of the unarmed part -/

/-- A record neither starts nor stops the log. -/
theorem handRecord_running (closing : Bool) (c : Category) (code slot arg : Word) (s : State) :
    (handRecord closing c code slot arg s).log.running = s.log.running := by
  unfold handRecord dropRecord queueOverflowHeader acceptRecord
  split
  · split
    · split <;> simp
    · simp [Log.updateIrq]
  · rfl

theorem Move.keeps_quiet {s t : State} (m : Move s t) (h : QuietWhenUnarmed s) : QuietWhenUnarmed t := by
  have same : ∀ {t : State}, t.rct = s.rct → t.bpu.isOpen = s.bpu.isOpen → t.ssc = s.ssc → t.log.running = s.log.running →
      t.itm = s.itm → t.pld = s.pld → t.hif.period = s.hif.period → QuietWhenUnarmed t := by
    intro t e1 e2 e3 e4 e5 e6 e7
    unfold QuietWhenUnarmed
    rwa [e1, e2, e3, e4, e5, e6, e7]
  cases m with
  | free hk =>
    have e : t.hif = s.hif := hk .hif (by simp [freeFields])
    have el : t.log = s.log := hk .log (by simp [freeFields])
    exact same (hk .rct (by simp [freeFields])) (hk .isOpen (by simp [freeFields])) (hk .ssc (by simp [freeFields]))
      (by rw [el]) (hk .itm (by simp [freeFields])) (hk .pld (by simp [freeFields])) (by rw [e])
  | ssc c hc => exact fun hu => let ⟨h1, h2, h3⟩ := h hu; ⟨h1, hc.trans h2, h3⟩
  | itm x hx => exact fun hu => let ⟨h1, h2, h3, h4, h5⟩ := h hu; ⟨h1, h2, h3, hx.trans h4, h5⟩
  | pld p hp =>
    refine fun hu => ?_
    obtain ⟨h1, h2, h3, h4, h5, h6⟩ := h hu
    exact ⟨h1, h2, h3, h4, by by_contra hc; exact hp hc h5, h6⟩
  | log l hl =>
    refine fun hu => ?_
    obtain ⟨h1, h2, h3, h4⟩ := h hu
    exact ⟨h1, h2, by by_contra hc; simp [hl.running (by simpa using hc)] at h3, h4⟩
  | hif x hx => exact fun hu => let ⟨h1, h2, h3, h4, h5, h6, h7⟩ := h hu; ⟨h1, h2, h3, h4, h5, hx.period h6, h7⟩
  | rct r hr =>
    refine fun hu => ?_
    have hu' : s.rct.restart = .unarmed := hr.restart ▸ hu
    obtain ⟨h1, h2, h3, h4, h5, h6, h7⟩ := h hu'
    exact ⟨h1, h2, h3, h4, h5, h6, hr.timers hu' h7⟩
  | bpu b hb => exact fun hu => let ⟨h1, h2⟩ := h hu; ⟨hb.isOpen.trans h1, h2⟩
  | change new clear hc => exact fun hu => absurd hu hc.target.1
  | contactor x hi => exact fun hu => absurd (hi.symm.trans hu) (by simp)
  | reproof hn => exact fun hu => absurd (hn.symm.trans hu) (by simp)
  | convert hs => exact fun hu => absurd hs (by rw [show s.rct.restart = .unarmed from hu]; simp [RestartState.inSequence])
  | planned hi _ =>
    obtain ⟨w, hw⟩ := mapTaken_rct (hardPending s.rct) (clearPending s)
    refine fun hu => absurd hi ?_
    rw [hw] at hu
    rw [show s.rct.restart = .unarmed from hu]
    simp
  | quiesce hl _ =>
    refine fun _ => ?_
    simp [hl, timersStopped, Rct.stopTimers, Timer.stop]
  | park =>
    refine same rfl rfl rfl rfl rfl rfl ?_
    simp only [State.onHif_hif, Hif.dropPermit]
    split <;> rfl
  | hand => exact same (by simp) (by simp) (by simp) (handRecord_running ..) (by simp) (by simp) (by simp)
  | submit | cancel | endWen =>
    exact same (by simp) (by simp) (by simp) (by simp) (by simp) (by simp) (by simp)
  | _ => exact same rfl rfl rfl rfl rfl rfl rfl

theorem moves_quiet {s t : State} (m : Moves s t) (h : QuietWhenUnarmed s) : QuietWhenUnarmed t :=
  m.keeps (fun _ _ m => m.keeps_quiet) h

/-- An armed state satisfies the law. -/
theorem quiet_of_armed {s : State} (h : s.rct.restart ≠ .unarmed) : QuietWhenUnarmed s := fun hu => absurd hu h

theorem PortMove.keeps_quiet {s t : State} (m : PortMove s t) (h : QuietWhenUnarmed s) : QuietWhenUnarmed t := by
  have e1 : t.rct = s.rct := m.frame .rct (by simp [portMoveFields])
  have e2 : t.ssc = s.ssc := m.frame .ssc (by simp [portMoveFields])
  have e3 : t.log = s.log := m.frame .log (by simp [portMoveFields])
  have e4 : t.itm = s.itm := m.frame .itm (by simp [portMoveFields])
  have e5 : t.pld = s.pld := m.frame .pld (by simp [portMoveFields])
  have e6 : t.hif = s.hif := m.frame .hif (by simp [portMoveFields])
  have e7 : t.bpu.isOpen = s.bpu.isOpen := m.frame .isOpen (by simp [portMoveFields])
  unfold QuietWhenUnarmed
  rwa [e1, e2, e3, e4, e5, e6, e7]

theorem quiet_kept : KeptBySteps QuietWhenUnarmed := by
  refine ⟨fun s t ht h => ?_, fun _ _ => PortMove.keeps_quiet, fun s hc _ h => quiet_of_armed ?_, fun s _ => ?_, fun s _ => ?_⟩
  · cases ht with
    | move m => exact m.keeps_quiet h
    | resume ha => exact quiet_of_armed (by simp [enterResuming])
    | short p hr _ => exact quiet_of_armed (by rw [(lockout_spec 0 .infeasible _).restart]; simp)
    | arm hu =>
      rcases armRise_cases s with e | e <;> rw [e]
      · exact quiet_of_armed (by simp [startPlanRead])
      · exact moves_quiet (endArmRise_moves _) (quiet_of_armed (by simp))
  · rw [adopt_rct]
    intro hu
    exact absurd (h hu).2.2.2.2.1 (by simp [hc])
  all_goals exact fun _ => by simp [blocksReset, warmBlocks, warmReset, State.held, Bpu.reset, Ssc.reset, Log.reset, Itm.reset, Pld.reset,
    Hif.reset, Rct.reset, timersStopped, Timer.stopped]

/-! ## Buffers -/

@[simp] theorem Wen.setBuffer_buffer (w : Wen) (b c : BufferId) (v : Buffer) :
    (w.setBuffer b v).buffer c = if c = b then v else w.buffer c := by
  cases b <;> cases c <;> simp [Wen.setBuffer, Wen.buffer]

@[simp] theorem Wen.setJobs_buffer (w : Wen) (c : JobClass) (js : List Job) (b : BufferId) :
    (w.setJobs c js).buffer b = w.buffer b := by
  cases c <;> cases b <;> rfl

@[simp] theorem Wen.append_buffer (w : Wen) (j : Job) (b : BufferId) : (w.append j).buffer b = w.buffer b := by
  simp [Wen.append]

@[simp] theorem Wen.ready_buffer (w : Wen) (b c : BufferId) (u : Burst) :
    (w.ready b u).buffer c = if c = b then .ready u else w.buffer c := by
  rw [← Wen.setBuffer_buffer]
  cases c <;> rfl

@[simp] theorem handRecord_buffer (closing : Bool) (c : Category) (code slot arg : Word) (s : State) (b : BufferId) :
    (handRecord closing c code slot arg s).wen.buffer b = s.wen.buffer b := by
  unfold handRecord dropRecord queueOverflowHeader acceptRecord
  split
  · split
    · split <;> simp
    · simp
  · rfl

theorem startBuffer_buffer {b : BufferId} {u : Burst} {w : Wen} (h : w.buffer b = .ready u) (c : BufferId) :
    (startBuffer b w).buffer c = if c = b then .writing u else w.buffer c := by
  simp [startBuffer, h]

theorem stageJob_buffer (b c : BufferId) (k : JobClass) (j : Job) (s : State) (h : c ≠ b) :
    (stageJob b k j s).wen.buffer c = s.wen.buffer c := by
  unfold stageJob
  dsimp only
  split <;> simp [h]

theorem stageJob_ready (b : BufferId) (k : JobClass) (j : Job) (s : State) :
    ∃ u, (stageJob b k j s).wen.buffer b = .ready u := by
  unfold stageJob
  dsimp only
  split <;> simp

theorem endBuffer_buffer (b c : BufferId) (u : Burst) (s : State) :
    (endBuffer b u s).wen.buffer c = if c = b then .empty else s.wen.buffer c := by
  have h : (moveCursor u ((s.onMem (·.writeAll u.writes)).onWen fun w =>
      if u.last then (w.setBuffer b .empty).complete u.kind else w.setBuffer b .empty)).wen.buffer c
      = if c = b then .empty else s.wen.buffer c := by
    unfold moveCursor
    split <;> simp only [State.onRfs_wen, State.onWen_wen] <;> split <;> simp
  simp only [endBuffer, releasePort, State.onMpa_wen, releaseAdvance_buffer]
  exact h

/-! ## The law of the port -/

/-- No buffer is WRITING. -/
def NoneWriting (s : State) : Prop := ∀ b u, s.wen.buffer b ≠ .writing u

theorem PortLaw.noneWriting {s : State} (h : PortLaw s) (hh : ∀ b, s.mpa.holder ≠ some (.wen b)) : NoneWriting s :=
  fun b u e => hh b ((h.1 b).1 ⟨u, e⟩)

theorem portLaw_of_noneWriting {s : State} (h : NoneWriting s) (hh : ∀ b, s.mpa.holder ≠ some (.wen b))
    (hb : s.mpa.holder = some .bpu → s.bpu.needs ≠ []) : PortLaw s :=
  ⟨fun b => ⟨fun ⟨u, e⟩ => absurd e (h b u), fun e => absurd e (hh b)⟩, hb⟩

/-- The law speaks of the holder, of which buffers are WRITING and of whether the BPU has a need. -/
theorem PortLaw.of_same {s t : State} (h : PortLaw s) (hh : t.mpa.holder = s.mpa.holder)
    (hw : ∀ b u, t.wen.buffer b = .writing u ↔ s.wen.buffer b = .writing u)
    (hn : s.mpa.holder = some .bpu → s.bpu.needs ≠ [] → t.bpu.needs ≠ []) : PortLaw t :=
  ⟨fun b => by simp only [hh, ← h.1 b, hw], fun e => hn (hh ▸ e) (h.2 (hh ▸ e))⟩

/-- While the Write Engine holds the port with a buffer, the other one is not WRITING. -/
theorem PortLaw.other {s : State} (h : PortLaw s) {b c : BufferId} (hh : s.mpa.holder = some (.wen b)) (hc : c ≠ b) (u : Burst) :
    s.wen.buffer c ≠ .writing u := fun e => by
  have := (h.1 c).1 ⟨u, e⟩
  rw [hh] at this
  exact hc (by simpa using this.symm)

theorem portLaw_cancelBuffer {p : JobKind → Bool} {b : BufferId} {s : State} (h : PortLaw s) : PortLaw (cancelBuffer p b s) := by
  unfold cancelBuffer
  split
  · exact h
  · next u hu =>
    split
    · refine h.of_same rfl (fun c v => ?_) fun _ => id
      simp only [State.onWen_wen, Wen.setBuffer_buffer]
      split
      · next e => subst e; simp [hu]
      · rfl
    · exact h
  · next u hu =>
    split
    · have hh := (h.1 b).1 ⟨u, hu⟩
      refine portLaw_of_noneWriting (fun c v => ?_) (by simp) (by simp)
      simp only [State.onMpa_wen, State.onWen_wen, Wen.setBuffer_buffer]
      split
      · simp
      · next e => exact h.other hh e v
    · exact h

theorem portLaw_cancel {p : JobKind → Bool} {s : State} (h : PortLaw s) : PortLaw (cancel p s) :=
  (portLaw_cancelBuffer (portLaw_cancelBuffer h)).of_same rfl (fun b u => by cases b <;> rfl) fun _ => id

theorem runningNeeds_ne_nil {s : State} (h : s.mpa.holder = some .bpu) (hn : s.bpu.needs ≠ []) : runningNeeds s ≠ [] := by
  simpa [runningNeeds, h] using hn

theorem runningNeeds_sublist {s : State} (h : s.mpa.holder = some .bpu) : runningNeeds s = s.bpu.needs.take 1 := by
  simp [runningNeeds, h]

/-- A discarded read stays a read: the other holders stay as they are. -/
theorem map_discarded_eq {h : Option Holder} :
    (∀ b, h.map Holder.discarded = some (.wen b) ↔ h = some (.wen b)) ∧ (h.map Holder.discarded = some .bpu ↔ h = some .bpu) := by
  rcases h with _ | h
  · simp
  · cases h <;> simp [Holder.discarded]

theorem PortLaw.of_discarded {s t : State} (h : PortLaw s) (hh : t.mpa.holder = s.mpa.holder.map Holder.discarded)
    (hw : ∀ b u, t.wen.buffer b = .writing u ↔ s.wen.buffer b = .writing u)
    (hn : s.mpa.holder = some .bpu → s.bpu.needs ≠ [] → t.bpu.needs ≠ []) : PortLaw t :=
  ⟨fun b => by simp only [hh, map_discarded_eq.1 b, ← h.1 b, hw],
    fun e => by rw [hh, map_discarded_eq.2] at e; exact hn e (h.2 e)⟩

theorem quiesce_running {s : State} (h : s.mpa.holder = some .bpu) (hn : s.bpu.needs ≠ []) : (quiesce s).bpu.needs ≠ [] := by
  simp only [quiesce, clearRelease, emptyLatches, State.onBpu_bpu, State.onRfs_bpu]
  simp [runningNeeds_ne_nil h hn]

theorem endBpuTenure_holder (s : State) : (endBpuTenure s).mpa.holder = none := by
  unfold endBpuTenure
  split <;> rfl

theorem portLaw_planned {s : State} (h : PortLaw s) : PortLaw (mapTaken (hardPending s.rct) (clearPending s)) := by
  refine h.of_same (by simp) (fun b u => ?_) (by simp)
  rcases mapTaken_wen (hardPending s.rct) (clearPending s) with e | ⟨l, e⟩ <;> rw [e]
  · rfl
  · rw [submit_buffer]; rfl

theorem portLaw_join {s : State} (h : PortLaw s) (n : Need) : PortLaw (pushNeed n s) :=
  h.of_same rfl (fun _ _ => Iff.rfl) fun _ _ => by simp [pushNeed]

theorem Move.keeps_portLaw {s t : State} (m : Move s t) (h : PortLaw s) : PortLaw t := by
  have same : ∀ {t : State}, t.mpa = s.mpa → t.wen = s.wen → t.bpu.needs = s.bpu.needs → PortLaw t :=
    fun e1 e2 e3 => h.of_same (by rw [e1]) (by simp [e2]) (by rw [e3]; exact fun _ => id)
  cases m with
  | free hk =>
    refine h.of_same (hk .holder (by simp [freeFields])) (fun b u => ?_) fun _ hn => ?_
    · rw [show t.wen = s.wen from hk .wen (by simp [freeFields])]
    · rwa [show t.bpu.needs = s.bpu.needs from hk .needs (by simp [freeFields])]
  | bpu b hb =>
    refine h.of_same rfl (fun _ _ => Iff.rfl) fun hh hn e => runningNeeds_ne_nil hh hn ?_
    have := hb.running
    rw [runningNeeds_sublist (s := { s with bpu := b }) hh, e] at this
    simpa using this.symm
  | done d => exact h.of_same rfl (fun b u => by cases b <;> rfl) fun _ => id
  | push n _ _ => exact portLaw_join h n
  | submit k ws _ _ => exact h.of_same (by simp) (by simp) (by simp)
  | hand closing c code slot arg => exact h.of_same (by simp) (by simp) (by simp)
  | cancel p => exact portLaw_cancel h
  | planned _ _ => exact portLaw_planned h
  | quiesce _ _ => exact h.of_discarded (by simp) (by simp) quiesce_running
  | discard => exact h.of_discarded rfl (fun _ _ => Iff.rfl) fun _ => id
  | endRead hh =>
    refine portLaw_of_noneWriting (h.noneWriting fun b e => ?_) (by simp [releasePort]) (by simp [releasePort])
    rcases hh with ⟨i, d, hh⟩ | ⟨d, hh⟩ <;> simp [hh] at e
  | endWen b u hh hb =>
    refine portLaw_of_noneWriting (fun c v => ?_) (by simp [endBuffer, releasePort]) (by simp [endBuffer, releasePort])
    rw [endBuffer_buffer]
    split
    · simp
    · next e => exact h.other hh e v
  | _ => exact same rfl rfl rfl

theorem PortMove.keeps_portLaw {s t : State} (m : PortMove s t) (h : PortLaw s) : PortLaw t := by
  cases m with
  | join n _ _ => exact portLaw_join h n
  | endBpu hh =>
    have hw : (endBpuTenure s).wen = s.wen := by simp
    refine portLaw_of_noneWriting (fun b u => ?_) ?_ ?_
    · rw [hw]; exact h.noneWriting (by simp [hh]) b u
    all_goals simp [endBpuTenure_holder s]
  | stage b c j hb hj =>
    refine h.of_same (by simp) (fun d v => ?_) (by simp)
    by_cases e : d = b
    · subst e
      obtain ⟨u, hu⟩ := stageJob_ready d c j s
      simp [hu, hb]
    · rw [stageJob_buffer b d c j s e]
  | drained b ws hb _ =>
    refine h.of_same rfl (fun d v => ?_) fun _ => id
    simp only [State.onWen_wen, Wen.ready_buffer]
    split
    · next e => subst e; simp [hb]
    · rfl
  | advance => exact h.of_same (by simp) (by simp) (by simp)
  | grantRead r hn hr =>
    have hr' : ∀ b, r ≠ .wen b ∧ r ≠ .bpu := by
      rcases readInProgress_some hr with ⟨i, rfl, -⟩ | rfl <;> simp
    refine portLaw_of_noneWriting (h.noneWriting (by simp [hn])) (fun b => ?_) ?_
    · simpa using (hr' b).1
    · simp [(hr' .x).2]
  | grantWen b u hn hb =>
    have hnone := h.noneWriting (by simp [hn])
    refine ⟨fun c => ?_, by simp⟩
    simp only [State.onWen_wen, State.onMpa_wen, State.onWen_mpa, State.onMpa_mpa, startBuffer_buffer hb]
    by_cases e : c = b
    · simp [e]
    · simp only [if_neg e]
      refine ⟨fun ⟨v, hv⟩ => absurd hv (hnone c v), fun hv => absurd (by simpa using hv) (Ne.symm e)⟩
  | grantBpu n rest hn hne _ =>
    exact portLaw_of_noneWriting (h.noneWriting (by simp [hn])) (by simp) (by simp [hne])
  | stop n rest hn hne _ =>
    have hw : (stopNeed n (s.onMpa fun m => { m with fair := bpuFair s })).wen = s.wen := by simp
    refine portLaw_of_noneWriting (fun b u => ?_) ?_ ?_
    · rw [hw]; exact h.noneWriting (by simp [hn]) b u
    all_goals simp [hn]
  | wait _ => exact h.of_same rfl (fun _ _ => Iff.rfl) fun _ => id

theorem moves_portLaw {s t : State} (m : Moves s t) (h : PortLaw s) : PortLaw t := m.keeps (fun _ _ m => m.keeps_portLaw) h

theorem portLaw_blank {s : State} (h : s.mpa.holder = none) (hx : s.wen.x = .empty) (hy : s.wen.y = .empty) : PortLaw s :=
  portLaw_of_noneWriting (fun b u => by cases b <;> simp [Wen.buffer, hx, hy]) (by simp [h]) (by simp [h])

theorem commandContactors_buffer (l : List Slot) (s : State) (b : BufferId) :
    (commandContactors l s).wen.buffer b = s.wen.buffer b := by
  unfold commandContactors
  split <;> simp

theorem needsAtArming_ne_nil {s : State} (h : s.mpa.holder = some .bpu) (hn : s.bpu.needs ≠ []) : needsAtArming s ≠ [] := by
  simp [needsAtArming, runningNeeds_ne_nil h hn]

theorem portLaw_kept : KeptBySteps PortLaw := by
  refine ⟨fun s t ht h => ?_, fun _ _ => PortMove.keeps_portLaw, fun s _ _ h => ?_, fun s _ => portLaw_blank rfl rfl rfl, fun s _ => portLaw_blank rfl rfl rfl⟩
  · cases ht with
    | move m => exact m.keeps_portLaw h
    | resume ha =>
      exact (moves_portLaw (enterResuming_moves ha) h).of_same (by simp [enterResuming])
        (fun b u => by simp [enterResuming, submitRelease_eq]) (by simp [enterResuming])
    | short p hr _ =>
      exact moves_portLaw (shortLockout_moves (by exact hr) _) (portLaw_planned h)
    | arm hu =>
      exact armRise_keeps (fun _ _ m => m.keeps_portLaw)
        (fun s h => h.of_same rfl (fun _ _ => Iff.rfl) fun _ => id)
        (fun s h => h.of_same rfl (fun _ _ => Iff.rfl) needsAtArming_ne_nil) hu h
  · refine adopt_keeps (R := PortLaw) (fun _ _ m => m.keeps_portLaw) (h.of_same (by simp) (by simp) (by simp)) (fun l t h => ?_)
      (fun t h => h.of_same rfl (fun _ _ => Iff.rfl) fun _ => id) (fun n t h => h.of_same rfl (fun _ _ => Iff.rfl) fun _ => id)
    exact h.of_same (by simp) (fun b u => by rw [commandContactors_buffer]) (by simp)

/-! ## The law of the protected regions -/

theorem Need.isProtected_of_access {m n : Need} (h : m.access = n.access) : m.isProtected = n.isProtected := by
  cases m <;> cases n <;> simp_all [Need.access, Need.isProtected]

theorem ProtectedLaw.of_sub {s t : State} (h : ProtectedLaw s) (hr : t.rct.restart ≠ .unarmed → s.rct.restart ≠ .unarmed)
    (hn : ∀ n ∈ waitingNeeds t, ∃ m ∈ waitingNeeds s, m.access = n.access) : ProtectedLaw t := fun hu n hm => by
  obtain ⟨m, hs, e⟩ := hn n hm
  rw [← Need.isProtected_of_access e]
  exact h (hr hu) m hs

theorem waitingNeeds_of_same {s t : State} (hh : t.mpa.holder = some .bpu ↔ s.mpa.holder = some .bpu)
    (hn : t.bpu.needs = s.bpu.needs) : waitingNeeds t = waitingNeeds s := by
  simp only [waitingNeeds, hh, hn]

theorem ProtectedLaw.of_same {s t : State} (h : ProtectedLaw s) (hr : t.rct.restart ≠ .unarmed → s.rct.restart ≠ .unarmed)
    (hh : t.mpa.holder = some .bpu ↔ s.mpa.holder = some .bpu) (hn : t.bpu.needs = s.bpu.needs) : ProtectedLaw t :=
  h.of_sub hr fun n hm => ⟨n, waitingNeeds_of_same hh hn ▸ hm, rfl⟩

/-- A cut tenure is the Write Engine's. -/
theorem cancelBuffer_bpu {p : JobKind → Bool} {b : BufferId} {s : State} (h : PortLaw s) :
    (cancelBuffer p b s).mpa.holder = some .bpu ↔ s.mpa.holder = some .bpu := by
  unfold cancelBuffer
  split
  · rfl
  · split <;> rfl
  · next u hu =>
    split
    · simp [(h.1 b).1 ⟨u, hu⟩]
    · rfl

theorem cancel_bpu {p : JobKind → Bool} {s : State} (h : PortLaw s) :
    (cancel p s).mpa.holder = some .bpu ↔ s.mpa.holder = some .bpu :=
  (cancelBuffer_bpu (portLaw_cancelBuffer h)).trans (cancelBuffer_bpu h)

theorem waitingNeeds_pushNeed {n : Need} {s : State} (h : PortLaw s) :
    waitingNeeds (pushNeed n s) = waitingNeeds s ++ [n] := by
  by_cases hh : s.mpa.holder = some .bpu
  · have hn := h.2 hh
    obtain ⟨m, l, e⟩ := List.exists_cons_of_ne_nil hn
    simp [waitingNeeds, pushNeed, hh, e]
  · simp [waitingNeeds, pushNeed, hh]

theorem waitingNeeds_free {s : State} (h : s.mpa.holder ≠ some .bpu) : waitingNeeds s = s.bpu.needs := by
  simp [waitingNeeds, h]

theorem Changes.armed {s : State} {new : RestartState} {clear : Bool} (hc : Changes s new clear) : s.rct.restart ≠ .unarmed := by
  intro hu
  rcases hc.start with h | ⟨h, -⟩ <;> simp [hu, RestartState.underWay] at h

theorem protected_join {s : State} (hp : PortLaw s) (h : ProtectedLaw s) {n : Need} (hn : NeedAllowed s n) :
    ProtectedLaw (pushNeed n s) := by
  intro hu m hm
  rw [waitingNeeds_pushNeed hp] at hm
  rcases List.mem_append.1 hm with hm | hm
  · exact h hu m hm
  · rw [List.mem_singleton.1 hm]; exact hn.guarded hu

theorem Move.keeps_protected {s t : State} (m : Move s t) (hp : PortLaw s) (h : ProtectedLaw s) : ProtectedLaw t := by
  have same : ∀ {t : State}, t.rct.restart = s.rct.restart → t.mpa.holder = s.mpa.holder → t.bpu.needs = s.bpu.needs →
      ProtectedLaw t := fun e1 e2 e3 => h.of_same (by rw [e1]; exact id) (by rw [e2]) e3
  cases m with
  | free hk =>
    exact same (by rw [show t.rct = s.rct from hk .rct (by simp [freeFields])]) (hk .holder (by simp [freeFields]))
      (hk .needs (by simp [freeFields]))
  | rct r hr => exact same hr.restart rfl rfl
  | bpu b hb => exact h.of_sub id hb.waiting
  | push n hn _ => exact protected_join hp h hn
  | cancel p => exact h.of_same (by simp) (cancel_bpu hp) (by simp)
  | change new clear hc => exact h.of_same (fun _ => hc.armed) Iff.rfl rfl
  | planned _ _ =>
    obtain ⟨w, hw⟩ := mapTaken_rct (hardPending s.rct) (clearPending s)
    exact same (by rw [hw]; rfl) (by simp) (by simp)
  | quiesce _ _ => exact fun hu => absurd (by simp) hu
  | discard => exact h.of_same id map_discarded_eq.2 rfl
  | endRead hh =>
    exact h.of_same id (by rcases hh with ⟨i, d, hh⟩ | ⟨d, hh⟩ <;> simp [releasePort, hh]) rfl
  | endWen b u hh _ => exact h.of_same (by simp) (by simp [endBuffer, releasePort, hh]) (by simp)
  | contactor | convert => exact same rfl rfl rfl
  | hand | submit => exact same (by simp) (by simp) (by simp)
  | _ => exact same rfl rfl rfl

theorem PortMove.keeps_protected {s t : State} (m : PortMove s t) (hp : PortLaw s) (h : ProtectedLaw s) : ProtectedLaw t := by
  cases m with
  | join n hn _ => exact protected_join hp h hn
  | endBpu hh =>
    refine h.of_sub (by simp) fun n hn => ⟨n, ?_, rfl⟩
    rw [waitingNeeds_free (by simp [endBpuTenure_holder]), endBpuTenure_needs] at hn
    simpa [waitingNeeds, hh] using hn
  | grantRead r hn hr =>
    refine h.of_same id ?_ rfl
    rcases readInProgress_some hr with ⟨i, rfl, -⟩ | rfl <;> simp [hn]
  | grantWen b u hn _ => exact h.of_same id (by simp [hn]) rfl
  | grantBpu n rest hn hne _ =>
    refine h.of_sub id fun m hm => ⟨m, ?_, rfl⟩
    rw [waitingNeeds_free (by simp [hn])]
    exact List.mem_of_mem_drop (i := 1) (by simpa [waitingNeeds] using hm)
  | stop n rest hn hne _ =>
    refine h.of_sub (by simp) fun m hm => ⟨m, ?_, rfl⟩
    rw [waitingNeeds_free (by simp [hn]), stopNeed_needs] at hm
    rw [waitingNeeds_free (by simp [hn])]
    exact List.mem_of_mem_drop hm
  | stage | advance => exact h.of_same (by simp) (by simp) (by simp)
  | drained | wait => exact h.of_same id Iff.rfl rfl

theorem moves_protected {s t : State} (m : Moves s t) (hp : PortLaw s) (h : ProtectedLaw s) : ProtectedLaw t :=
  (Moves.keeps (P := fun s => PortLaw s ∧ ProtectedLaw s)
    (fun _ _ m h => ⟨m.keeps_portLaw h.1, m.keeps_protected h.1 h.2⟩) m ⟨hp, h⟩).2

@[simp] theorem Need.watchedDrive_protected (n : Need) : n.watchedDrive.isProtected = n.isProtected :=
  Need.isProtected_of_access (Need.watchedDrive_access n)

/-- As the plan read starts, a waiting write to a protected region is absorbed (log 39). -/
theorem startPlanRead_protected (s : State) : ProtectedLaw (startPlanRead s) := by
  intro _ n hn
  have hsub : waitingNeeds (startPlanRead s) ⊆ ((waitingNeeds s).filter (!·.isProtected)).map Need.watchedDrive := by
    by_cases hh : s.mpa.holder = some .bpu
    · have : (s.bpu.needs.take 1 ++ (s.bpu.needs.drop 1).filter (!·.isProtected)).drop 1
          ⊆ (s.bpu.needs.drop 1).filter (!·.isProtected) := by
        cases s.bpu.needs with
        | nil => simp
        | cons m l => simp
      simp only [waitingNeeds, startPlanRead, needsAtArming, runningNeeds, State.onPld_mpa, State.onBpu_mpa, State.onPld_bpu,
        State.onBpu_bpu, hh, ite_true, ← List.map_drop]
      exact List.map_subset _ this
    · simp [waitingNeeds, startPlanRead, needsAtArming, runningNeeds, hh]
  obtain ⟨m, hm, rfl⟩ := List.mem_map.1 (hsub hn)
  simpa using (List.mem_filter.1 hm).2

theorem endBeforeAdoption_restart (r : ArmResult) (a : Word) (s : State) : (endBeforeAdoption r a s).rct.restart = .unarmed := by
  simp [endBeforeAdoption]

theorem protected_kept : KeptBySteps fun s => PortLaw s ∧ ProtectedLaw s := by
  refine ⟨fun s t ht h => ⟨portLaw_kept.turn s t ht h.1, ?_⟩,
    fun s t m h => ⟨m.keeps_portLaw h.1, m.keeps_protected h.1 h.2⟩, fun s hc hr h => ⟨portLaw_kept.adopt s hc hr h.1, ?_⟩,
    fun s h => ⟨portLaw_kept.powerOn s h.1, fun hu => absurd rfl hu⟩, fun s h => ⟨portLaw_kept.warm s h.1, fun hu => absurd rfl hu⟩⟩
  · obtain ⟨hp, h⟩ := h
    cases ht with
    | move m => exact m.keeps_protected hp h
    | resume ha =>
      exact (moves_protected (enterResuming_moves ha) hp h).of_same (by simp [enterResuming]) (by simp [enterResuming])
        (by simp [enterResuming])
    | short p hr hs =>
      obtain ⟨w, hw⟩ := mapTaken_rct (hardPending s.rct) (clearPending s)
      exact moves_protected (shortLockout_moves (by exact hr) _) (portLaw_planned hp)
        (h.of_same (by rw [hw]; exact id) (by simp) (by simp))
    | arm hu =>
      rcases armRise_cases s with e | e <;> rw [e]
      · exact startPlanRead_protected _
      · exact fun hu => absurd (endBeforeAdoption_restart ..) hu
  · refine (adopt_keeps (R := fun t => PortLaw t ∧ ProtectedLaw t) (fun _ _ m h => ⟨m.keeps_portLaw h.1, m.keeps_protected h.1 h.2⟩)
      ⟨h.1.of_same (by simp) (by simp) (by simp), h.2.of_same id (by simp) (by simp)⟩ (fun l t h => ?_)
      (fun t h => ⟨h.1.of_same rfl (fun _ _ => Iff.rfl) fun _ => id, h.2.of_same id Iff.rfl rfl⟩)
      (fun n t h => ⟨h.1.of_same rfl (fun _ _ => Iff.rfl) fun _ => id, h.2.of_same id Iff.rfl rfl⟩)).2
    obtain ⟨w, hw⟩ := commandContactors_rct l t
    exact ⟨h.1.of_same (by simp) (fun b u => by rw [commandContactors_buffer]) (by simp),
      h.2.of_same (by rw [hw]; exact id) (by simp) (by simp)⟩

/-- Settles O56: quiet, port and protected regions, each kept by the moves of every command. -/
theorem unarmedPartStaysQuiet : Obligations.UnarmedPartStaysQuiet :=
  ⟨quiet_kept.step, portLaw_kept.step, fun s s' hp h e => (protected_kept.step s s' ⟨hp, h⟩ e).2⟩

end Sys2Proof.Machine
end

