-- ==== Sys2Proof/Proofs/GateLaw.lean ====
section
/-! The law of the gate words: every job and buffer brings BLOCK or RESET to a gate word, but a release whose gates have been
reached (L3, R95, R150 to R153). -/

namespace Sys2Proof.Machine

/-! ## What the law speaks of -/

theorem GatesReleased.congr {s t : State} (hr : t.rct.restart = s.rct.restart)
    (hs : t.rfs.stage = some .gates ↔ s.rfs.stage = some .gates) : GatesReleased t ↔ GatesReleased s := by
  simp only [GatesReleased, hr, hs]

/-- A buffer holds a burst. -/
def Buffer.Holds (v : Buffer) (w : Burst) : Prop := v = .ready w ∨ v = .writing w

/-- Jobs and buffers stem from old ones, and a release whose gates were reached is gone or still so. -/
theorem GateLaw.of_sub {s t : State} (h : GateLaw s)
    (hj : ∀ c, ∀ j ∈ t.wen.jobs c, ∃ i ∈ s.wen.jobs c, i.kind = j.kind ∧ j.todo ⊆ i.todo)
    (hb : ∀ b w, (t.wen.buffer b).Holds w → ∃ b', (s.wen.buffer b').Holds w)
    (hr : ¬GatesReleased t → ¬GatesReleased s ∨ NoJobsOf (· == .release) s)
    (hs : t.rfs.stage ≠ none → t.rct.restart = .resuming)
    (hn : ∀ r w a v, Need.translated r w a v ∈ t.bpu.needs → Need.translated r w a v ∈ s.bpu.needs)
    (hc : t.log.capacity = s.log.capacity) : GateLaw t := by
  obtain ⟨h1, h2, h3, h4, h5⟩ := h
  have safe : ∀ k : JobKind, (k = .release → ¬GatesReleased t) → (NoJobsOf (· == .release) s → k ≠ .release) →
      k = .release → ¬GatesReleased s := fun k hk hno e => (hr (hk e)).elim id fun hn => absurd e (hno hn)
  refine ⟨fun c j hjt hk w hw hg => ?_, fun b w hbt hk x hx hg => ?_, hs, fun r w a v hn' => h4 r w a v (hn _ _ _ _ hn'), hc ▸ h5⟩
  · obtain ⟨i, hi, hik, hsub⟩ := hj c j hjt
    refine h1 c i hi (hik ▸ safe j.kind hk fun hno e => ?_) w (hsub hw) hg
    have := ((noJobsOf_iff _ _).1 hno).1 c i hi
    simp [hik, e] at this
  · obtain ⟨b', hb'⟩ := hb b w hbt
    refine h2 b' w hb' (safe w.kind hk fun hno e => ?_) x hx hg
    have := ((noJobsOf_iff _ _).1 hno).2.1 b' w hb'
    simp [e] at this

theorem GateLaw.of_same {s t : State} (h : GateLaw s) (hw : ∀ c, t.wen.jobs c = s.wen.jobs c)
    (hb : ∀ b, t.wen.buffer b = s.wen.buffer b) (hr : t.rct.restart = s.rct.restart) (hs : t.rfs.stage = s.rfs.stage)
    (hn : ∀ r w a v, Need.translated r w a v ∈ t.bpu.needs → Need.translated r w a v ∈ s.bpu.needs)
    (hc : t.log.capacity = s.log.capacity) : GateLaw t :=
  h.of_sub (fun c j hj => ⟨j, hw c ▸ hj, rfl, List.Subset.refl _⟩) (fun b w hbt => ⟨b, hb b ▸ hbt⟩)
    (fun hno => .inl fun hy => hno ((GatesReleased.congr hr (by rw [hs])).2 hy)) (by rw [hs, hr]; exact h.stage) hn hc

/-- With no release in a stage and none of the states behind RESUMING the gates are shut. -/
theorem not_gatesReleased {s : State} (h1 : s.rct.restart ≠ .normal) (h2 : s.rct.restart ≠ .proving)
    (h3 : s.rct.restart = .resuming → s.rfs.stage ≠ some .gates) : ¬GatesReleased s := by
  rintro (h | h | ⟨h, h'⟩)
  · exact h1 h
  · exact h2 h
  · exact h3 h h'

/-! ## Jobs that join -/

theorem gateLaw_submit {s : State} (h : GateLaw s) (k : JobKind) {ws : List JobWrite}
    (hs : ∀ w ∈ ws, IsGateWord w.addr → w.source = .const 0 ∨ w.source = .const 2) : GateLaw (submit k ws s) := by
  have hrel : GatesReleased (submit k ws s) ↔ GatesReleased s := GatesReleased.congr (by simp) (by simp)
  obtain ⟨h1, h2, h3, h4, h5⟩ := h
  refine ⟨fun c j hj hk => ?_, fun b w hb hk => h2 b w (by simpa using hb) (fun e => mt hrel.2 (hk e)), by simpa using h3, by simpa using h4, by simpa using h5⟩
  rw [submit_jobs] at hj
  split at hj
  · rcases List.mem_append.1 hj with hj | hj
    · exact h1 c j hj (fun e => mt hrel.2 (hk e))
    · rw [List.mem_singleton.1 hj]; exact hs
  · exact h1 c j hj (fun e => mt hrel.2 (hk e))

theorem overflowWrite_addr : ¬IsGateWord overflowWrite.addr := fun hg => by
  have := hg.bounds
  simp [overflowWrite, logHeaderAddr] at this

/-- A record's job writes the log region, wherever the producer stands in a ring of 255 entries at most. -/
theorem recordJob_addr {pos next : Nat} {words : List Word} (hp : pos < 255) (hl : words.length ≤ 8) {w : JobWrite}
    (hw : w ∈ recordJob pos next words) : ¬IsGateWord w.addr := by
  intro hg
  have hb := hg.bounds
  rcases List.mem_append.1 hw with hw | hw
  · obtain ⟨⟨v, n⟩, hx, rfl⟩ := List.mem_map.1 hw
    have hn : n < words.length := by simpa using (List.mem_zipIdx hx).2.1
    simp only [logRecordAddr, BitVec.toNat_ofNat] at hb
    omega
  · rw [List.mem_singleton.1 hw] at hb
    simp [logHeaderAddr] at hb

theorem handRecord_gateLaw {closing : Bool} {c : Category} {code slot arg : Word} {s : State} (h : GateLaw s)
    (hr : RingInOrder s) : GateLaw (handRecord closing c code slot arg s) := by
  have hcap := h.capacity
  have hlog : ∀ f : Log → Log, (f s.log).capacity = s.log.capacity → GateLaw (s.onLog f) :=
    fun f e => h.of_same (fun _ => rfl) (fun _ => rfl) rfl rfl (fun _ _ _ _ hn => hn) e
  unfold handRecord
  split
  · split
    · unfold dropRecord queueOverflowHeader
      split
      · exact hlog _ rfl
      · refine gateLaw_submit (hlog _ rfl) _ fun w hw hg => ?_
        rw [List.mem_singleton.1 hw] at hg
        exact absurd hg overflowWrite_addr
    · refine gateLaw_submit (hlog _ rfl) _ fun w hw hg => absurd hg (recordJob_addr ?_ (by simp [recordWords]) hw)
      have := hr.2.1
      omega
  · exact h

/-! ## The release, step by step -/

theorem Wen.mem_setTodo {ws : List JobWrite} {l : List Job} {j : Job} (h : j ∈ Wen.setTodo ws l) :
    j ∈ l ∨ j.kind = .release := by
  induction l with
  | nil => simp [Wen.setTodo] at h
  | cons i l ih =>
    unfold Wen.setTodo at h
    split at h
    · next hk =>
      rcases List.mem_cons.1 h with rfl | h
      · exact .inr (by simpa using hk)
      · exact .inl (List.mem_cons_of_mem _ h)
    · rcases List.mem_cons.1 h with rfl | h
      · exact .inl (List.mem_cons_self ..)
      · exact (ih h).imp (List.mem_cons_of_mem _) id

theorem Wen.mem_complete {w : Wen} {k : JobKind} {c : JobClass} {j : Job} (h : j ∈ (w.complete k).jobs c) : j ∈ w.jobs c := by
  have e : (w.complete k).jobs c = if c = k.cls then (w.jobs k.cls).eraseP (·.kind == k) else w.jobs c := by
    unfold Wen.complete Wen.note
    split <;> cases c <;> cases hk : k.cls <;> simp [Wen.jobs, Wen.setJobs]
  rw [e] at h
  split at h
  · next hc => rw [hc]; exact List.mem_of_mem_eraseP h
  · exact h

/-- The jobs as the gates are reached: old ones, or the release. -/
theorem startGates_jobs {s : State} {c : JobClass} {j : Job} (h : j ∈ (startGates s).wen.jobs c) :
    j ∈ s.wen.jobs c ∨ j.kind = .release := by
  have hset : ∀ w : Wen, w = { s.wen with jobs2 := Wen.setTodo (gateWrites s) s.wen.jobs2 } → j ∈ w.jobs c →
      j ∈ s.wen.jobs c ∨ j.kind = .release := by
    rintro w rfl hj
    cases c with
    | two => exact Wen.mem_setTodo hj
    | one | three => exact .inl hj
  simp only [startGates, State.onWen_wen, State.onRfs_wen] at h
  split at h
  · exact hset _ rfl (Wen.mem_complete h)
  · exact hset _ rfl h

theorem startGates_gateLaw {s : State} (h : GateLaw s) (hs : s.rfs.stage ≠ none) : GateLaw (startGates s) := by
  have hr : s.rct.restart = .resuming := h.stage hs
  have hstage : (startGates s).rfs.stage = some .gates := rfl
  have hrct : (startGates s).rct = s.rct := by simp [startGates]
  have hrel : GatesReleased (startGates s) := .inr (.inr ⟨by rw [hrct, hr], hstage⟩)
  obtain ⟨h1, h2, -, h4, h5⟩ := h
  refine ⟨fun c j hj hk => ?_, fun b w hb hk => ?_, fun _ => by rw [hrct, hr], by simpa [startGates] using h4, by simpa [startGates] using h5⟩
  · have hne : j.kind ≠ .release := fun e => hk e hrel
    exact h1 c j ((startGates_jobs hj).resolve_right hne) fun e => absurd e hne
  · have hne : w.kind ≠ .release := fun e => hk e hrel
    have hbuf : (startGates s).wen.buffer b = s.wen.buffer b := by
      simp only [startGates, State.onWen_wen, State.onRfs_wen]
      split
      · rw [Wen.complete_buffer]; rfl
      · rfl
    exact h2 b w (hbuf ▸ hb) fun e => absurd e hne

/-- A change of the stage short of GATES, in RESUMING. -/
theorem gateLaw_stage {s : State} (h : GateLaw s) {n : Option ReleaseStage} (hs : s.rfs.stage ≠ none)
    (hg : s.rfs.stage ≠ some .gates) : GateLaw (s.onRfs fun f => { f with stage := n }) := by
  have hr : s.rct.restart = .resuming := h.stage hs
  have hno : ¬GatesReleased s := not_gatesReleased (by simp [hr]) (by simp [hr]) fun _ => hg
  exact h.of_sub (fun c j hj => ⟨j, hj, rfl, List.Subset.refl _⟩) (fun b w hb => ⟨b, hb⟩) (fun _ => .inl hno) (fun _ => hr)
    (fun _ _ _ _ hn => hn) rfl

theorem releaseAdvance_gateLaw {s : State} (h : GateLaw s) : GateLaw (releaseAdvance s) := by
  unfold releaseAdvance
  split
  · next v hv =>
    split
    · exact h
    · split
      · exact startGates_gateLaw h (by simp [hv])
      · exact gateLaw_stage h (by simp [hv]) (by simp [hv])
  all_goals exact h

/-! ## Staging -/

theorem mem_replaceOpen {stage : Option ReleaseStage} {j' : Job} {l : List Job} {j : Job} (h : j ∈ replaceOpen stage j' l) :
    j = j' ∨ j ∈ l := by
  induction l with
  | nil => simp [replaceOpen] at h
  | cons i l ih =>
    unfold replaceOpen at h
    split at h
    · exact (List.mem_cons.1 h).imp id (List.mem_cons_of_mem _)
    · rcases List.mem_cons.1 h with rfl | h
      · exact .inr (List.mem_cons_self ..)
      · exact (ih h).imp id (List.mem_cons_of_mem _)

/-- A staged write goes to the word its job names, and a constant is what it says. -/
theorem formWrites_mem {ws : List JobWrite} {s : State} {x : Addr × Word} (h : x ∈ (formWrites ws s).2) :
    ∃ w ∈ ws, w.addr = x.1 ∧ ∀ v, w.source = .const v → x.2 = v := by
  induction ws generalizing s with
  | nil => simp [formWrites] at h
  | cons w ws ih =>
    simp only [formWrites, List.mem_cons] at h
    rcases h with rfl | h
    · exact ⟨w, List.mem_cons_self .., rfl, fun v hv => by simp [hv, formValue]⟩
    · obtain ⟨w', hw', e⟩ := ih h
      exact ⟨w', List.mem_cons_of_mem _ hw', e⟩

theorem Wen.setJobs_jobs (w : Wen) (c d : JobClass) (js : List Job) : (w.setJobs c js).jobs d = if d = c then js else w.jobs d := by
  cases c <;> cases d <;> simp [Wen.setJobs, Wen.jobs]

theorem Wen.ready_jobs (w : Wen) (b : BufferId) (u : Burst) (c : JobClass) : (w.ready b u).jobs c = w.jobs c := by
  cases b <;> cases c <;> rfl

theorem Wen.setBuffer_jobs (w : Wen) (b : BufferId) (v : Buffer) (c : JobClass) : (w.setBuffer b v).jobs c = w.jobs c := by
  cases b <;> cases c <;> rfl

/-- The Write Engine after a staging. -/
theorem stageJob_wen (b : BufferId) (c : JobClass) (j : Job) (s : State) :
    ∃ u : Burst, u.kind = j.kind ∧ u.writes = (formWrites (j.todo.take Config.burstLength) s).2
      ∧ (stageJob b c j s).wen = (s.wen.setJobs c (replaceOpen s.rfs.stage { j with todo := j.todo.drop Config.burstLength }
          (s.wen.jobs c))).ready b u := by
  unfold stageJob
  dsimp only
  refine ⟨⟨j.kind, (formWrites (j.todo.take Config.burstLength) s).2, lastCarrier (j.todo.take Config.burstLength),
    j.todo.drop Config.burstLength == [] && (j.kind != .release || s.rfs.stage == some .gates)⟩, rfl, rfl, ?_⟩
  split <;> simp

theorem stageJob_stage (b : BufferId) (c : JobClass) (j : Job) (s : State) :
    (stageJob b c j s).rfs.stage = s.rfs.stage
      ∨ s.rfs.stage = some .references ∧ (stageJob b c j s).rfs.stage = some (.auxiliary false) := by
  unfold stageJob
  dsimp only
  split
  · next h =>
    simp only [Bool.and_eq_true, beq_iff_eq] at h
    exact .inr ⟨h.1.2, rfl⟩
  · exact .inl (by simp)

theorem stageJob_gateLaw {b : BufferId} {c : JobClass} {j : Job} {s : State} (h : GateLaw s) (hj : j ∈ s.wen.jobs c) :
    GateLaw (stageJob b c j s) := by
  have hg : (stageJob b c j s).rfs.stage = some .gates ↔ s.rfs.stage = some .gates := by
    rcases stageJob_stage b c j s with e | ⟨e, e'⟩
    · rw [e]
    · simp [e, e']
  have hrel : GatesReleased (stageJob b c j s) ↔ GatesReleased s := GatesReleased.congr (by simp) hg
  obtain ⟨u, huk, huw, hw⟩ := stageJob_wen b c j s
  obtain ⟨h1, h2, h3, h4, h5⟩ := h
  refine ⟨fun d i hi hk => ?_, fun d w hd hk x hx hgx => ?_, fun hs => ?_, by simpa using h4, by simpa using h5⟩
  · rw [hrel] at hk
    rw [hw, Wen.ready_jobs, Wen.setJobs_jobs] at hi
    split at hi
    · next hdc =>
      subst hdc
      rcases mem_replaceOpen hi with rfl | hi
      · exact fun w hwt => h1 d j hj hk w (List.mem_of_mem_drop hwt)
      · exact h1 d i hi hk
    · exact h1 d i hi hk
  · rw [hrel] at hk
    rw [hw, Wen.ready_buffer] at hd
    split at hd
    · obtain rfl : u = w := by simpa using hd
      rw [huw] at hx
      obtain ⟨y, hy, ha, hv⟩ := formWrites_mem hx
      rcases h1 c j hj (huk ▸ hk) y (List.mem_of_mem_take hy) (ha ▸ hgx) with e | e
      · exact .inl (hv _ e)
      · exact .inr (hv _ e)
    · exact h2 d w (by simpa using hd) hk x hx hgx
  · have : s.rfs.stage ≠ none := by
      rcases stageJob_stage b c j s with e | ⟨e, -⟩
      · rwa [e] at hs
      · simp [e]
    simpa using h3 this

end Sys2Proof.Machine
end

