-- ==== Sys2Proof/Proofs/GateLawKept.lean ====
section
/-! Every step keeps the law of the gate words (L3). -/

namespace Sys2Proof.Machine

/-- What is left in a buffer by a cancellation was there before. -/
theorem cancel_holds {p : JobKind → Bool} {s : State} {b : BufferId} {w : Burst}
    (h : ((cancel p s).wen.buffer b).Holds w) : (s.wen.buffer b).Holds w := by
  rw [cancel_buffer] at h
  cases hb : s.wen.buffer b with
  | empty => simp [hb, Buffer.Holds] at h
  | ready u =>
    by_cases hp : p u.kind = true <;> simp [hb, hp, Buffer.Holds] at h
    exact .inl (by rw [h])
  | writing u =>
    by_cases hp : p u.kind = true <;> simp [hb, hp, Buffer.Holds] at h
    exact .inr (by rw [h])

theorem translated_of_access {m : Need} {r : Rec} {w : Fin 8} {a : Addr} {v : Word}
    (h : m.access = (Need.translated r w a v).access) : m = .translated r w a v := by
  cases m <;> simp_all [Need.access]

/-- The law speaks of the Write Engine, the restart state, the stage, the needs and the capacity of the ring. -/
theorem GateLaw.of_fields {s : State} (t : State) (h : GateLaw s) (hw : t.wen = s.wen) (hr : t.rct.restart = s.rct.restart)
    (hs : t.rfs.stage = s.rfs.stage) (hn : t.bpu.needs = s.bpu.needs) (hc : t.log.capacity = s.log.capacity) : GateLaw t :=
  h.of_same (by simp [hw]) (by simp [hw]) hr hs (by rw [hn]; exact fun _ _ _ _ hn => hn) hc

theorem moveCursor_gateLaw {u : Burst} {s : State} (h : GateLaw s) : GateLaw (moveCursor u s) := by
  unfold moveCursor
  split
  · exact h.of_fields _ rfl rfl rfl rfl rfl
  · exact h

theorem endBuffer_gateLaw {b : BufferId} {u : Burst} {s : State} (h : GateLaw s) : GateLaw (endBuffer b u s) := by
  have h1 : GateLaw ((s.onMem (·.writeAll u.writes)).onWen fun w =>
      if u.last then (w.setBuffer b .empty).complete u.kind else w.setBuffer b .empty) := by
    refine h.of_sub (fun c j hj => ⟨j, ?_, rfl, List.Subset.refl _⟩) (fun c w hw => ⟨c, ?_⟩)
      (fun hno => .inl hno) h.stage (fun _ _ _ _ hn => hn) rfl
    · simp only [State.onWen_wen] at hj
      split at hj
      · have := Wen.mem_complete hj
        rwa [Wen.setBuffer_jobs] at this
      · rwa [Wen.setBuffer_jobs] at hj
    · have e : (((s.onMem (·.writeAll u.writes)).onWen fun w =>
          if u.last then (w.setBuffer b .empty).complete u.kind else w.setBuffer b .empty).wen.buffer c)
          = if c = b then .empty else s.wen.buffer c := by
        simp only [State.onWen_wen]
        split <;> simp
      rw [e] at hw
      split at hw
      · simp [Buffer.Holds] at hw
      · exact hw
  exact (releaseAdvance_gateLaw (moveCursor_gateLaw (u := u) h1)).of_fields _ rfl rfl rfl rfl rfl

theorem contactorWrites_addr {l : List Slot} {w : JobWrite} (hw : w ∈ contactorWrites l) : ¬IsGateWord w.addr := by
  obtain ⟨i, -, rfl⟩ := List.mem_map.1 hw
  exact not_isGateWord_of_word i (by norm_num) (by norm_num)

theorem commandContactors_gateLaw {s : State} (h : GateLaw s) (l : List Slot) : GateLaw (commandContactors l s) := by
  unfold commandContactors
  split
  · exact h
  · exact gateLaw_submit (h.of_fields (s.onRct _) rfl rfl rfl rfl rfl) _ fun w hw hg => absurd hg (contactorWrites_addr hw)

theorem mapTaken_gateLaw {s : State} (h : GateLaw s) (hard : Slot → Bool) : GateLaw (mapTaken hard s) :=
  commandContactors_gateLaw (h.of_fields (s.onMpl _) rfl rfl rfl rfl rfl) _

/-- A change of state: a release whose gates were reached goes on to NORMAL or PROVING, or is gone. -/
theorem gateLaw_changed {s : State} (h : GateLaw s) {new : RestartState} {clear : Bool} (hc : Changes s new clear) :
    GateLaw (changed new clear s) := by
  have hstage : (changed new clear s).rfs.stage = if clear then none else s.rfs.stage := by
    simp only [changed]; split <;> rfl
  refine h.of_sub (fun c j hj => ⟨j, hj, rfl, List.Subset.refl _⟩) (fun b w hb => ⟨b, hb⟩) (fun hno => ?_) (fun hs => ?_)
    (fun _ _ _ _ hn => hn) rfl
  · by_contra hcon
    obtain ⟨hrel, hjobs⟩ := not_or.1 hcon
    rw [not_not] at hrel
    have behind : new ≠ .normal ∧ new ≠ .proving := by
      constructor <;> rintro rfl
      · exact hno (.inl rfl)
      · exact hno (.inr (.inl rfl))
    rcases hrel with hr | hr | ⟨hr, hs⟩
    · rcases hc.released (.inl hr) with e | e | e
      · exact behind.1 e
      · exact behind.2 e
      · exact hjobs e
    · rcases hc.released (.inr hr) with e | e | e
      · exact behind.1 e
      · exact behind.2 e
      · exact hjobs e
    · rcases hc.resuming hr with e | ⟨-, e | e⟩
      · simp [hs] at e
      · exact behind.1 e
      · exact behind.2 e
  · rw [hstage] at hs
    split at hs
    · exact absurd rfl hs
    · next hcl =>
      rcases hc.resuming (h.stage hs) with e | ⟨e, -⟩
      · exact absurd e hs
      · exact absurd e hcl

theorem noJobs_or_shut {s : State} (h : NoJobsOf (· == .release) s ∨ s.rct.restart = .arming ∨ s.pld.cursor ≠ .none)
    (hc : s.pld.cursor ≠ .none → s.rct.restart = .arming) : ¬GatesReleased s ∨ NoJobsOf (· == .release) s := by
  have arming : s.rct.restart = .arming → ¬GatesReleased s := fun e =>
    not_gatesReleased (by simp [e]) (by simp [e]) (by simp [e])
  rcases h with h | h | h
  · exact .inr h
  · exact .inl (arming h)
  · exact .inl (arming (hc h))

theorem GateLaw.joined {s : State} (h : GateLaw s) {n : Need} (hn : NeedAllowed s n) : GateLaw (pushNeed n s) := by
  obtain ⟨h1, h2, h3, h4, h5⟩ := h
  refine ⟨h1, h2, h3, fun r w a v hm => ?_, h5⟩
  rcases List.mem_append.1 hm with hm | hm
  · exact h4 r w a v hm
  · exact hn.forwarded r w a v (List.mem_singleton.1 hm).symm

theorem Move.keeps_gateLaw {s t : State} (m : Move s t) (h : GateLaw s) (hb : s.cap.ring.length ≤ 64) (hr : RingInOrder s)
    (hc : s.pld.cursor ≠ .none → s.rct.restart = .arming) : GateLaw t := by
  have same : ∀ {t : State}, t.wen = s.wen → t.rct.restart = s.rct.restart → t.rfs.stage = s.rfs.stage →
      t.bpu.needs = s.bpu.needs → t.log.capacity = s.log.capacity → GateLaw t := fun e1 e2 e3 e4 e5 =>
    h.of_same (by simp [e1]) (by simp [e1]) e2 e3 (by rw [e4]; exact fun _ _ _ _ hn => hn) e5
  cases m with
  | free hk =>
    exact same (hk .wen (by simp [freeFields])) (by rw [show t.rct = s.rct from hk .rct (by simp [freeFields])])
      (hk .stage (by simp [freeFields])) (hk .needs (by simp [freeFields]))
      (by rw [show t.log = s.log from hk .log (by simp [freeFields])])
  | log l hl => exact same rfl rfl rfl rfl hl.capacity
  | rct r hr' => exact same rfl hr'.restart rfl rfl rfl
  | bpu b hb' =>
    refine h.of_same (fun _ => rfl) (fun _ => rfl) rfl rfl (fun r w a v hn => ?_) rfl
    obtain ⟨m, hm, e⟩ := hb'.needs hn
    rw [translated_of_access e] at hm
    exact hm
  | done d => exact h.of_same (fun c => by cases c <;> rfl) (fun b => by cases b <;> rfl) rfl rfl (fun _ _ _ _ hn => hn) rfl
  | hand => exact handRecord_gateLaw h hr
  | submit k ws _ hs => exact gateLaw_submit h k (hs hb)
  | cancel p =>
    refine h.of_sub (fun c j hj => ⟨j, ?_, rfl, List.Subset.refl _⟩) (fun b w hw => ⟨b, cancel_holds hw⟩) (fun hno => .inl ?_)
      (by simpa using h.stage) (by simp) (by simp)
    · rw [cancel_jobs] at hj; exact (List.mem_filter.1 hj).1
    · exact fun hy => hno ((GatesReleased.congr (t := Machine.cancel p s) (by simp) (by simp)).2 hy)
  | push n hn _ => exact h.joined hn
  | clear hno =>
    refine h.of_sub (fun c j hj => ⟨j, hj, rfl, List.Subset.refl _⟩) (fun b w hw => ⟨b, hw⟩) (fun hg => ?_) (fun hs => absurd rfl hs)
      (fun _ _ _ _ hn => hn) rfl
    rcases hno with hno | hno
    · exact .inr hno
    · exact .inl fun hg' => hg (hg'.imp id (Or.imp id fun ⟨e, _⟩ => absurd e hno))
  | change new clear hch => exact gateLaw_changed h hch
  | planned _ _ =>
    exact mapTaken_gateLaw (h.of_fields (clearPending s) rfl rfl rfl rfl rfl) _
  | quiesce _ hno =>
    refine h.of_sub (fun c j hj => ⟨j, by simpa using hj, rfl, List.Subset.refl _⟩) (fun b w hw => ⟨b, by simpa using hw⟩)
      (fun _ => noJobs_or_shut hno hc) (by simp) (fun r w a v hn => ?_) (by simp)
    obtain ⟨m, hm, e⟩ := quiesce_needs hn
    rw [translated_of_access e] at hm
    exact hm
  | endWen => exact endBuffer_gateLaw h
  | convert | contactor => exact same rfl rfl rfl rfl rfl
  | _ => exact same rfl rfl rfl rfl rfl

theorem startBuffer_jobs {b : BufferId} {u : Burst} {w : Wen} (hb : w.buffer b = .ready u) {c : JobClass} {j : Job}
    (h : j ∈ (startBuffer b w).jobs c) : ∃ i ∈ w.jobs c, i.kind = j.kind ∧ j.todo ⊆ i.todo := by
  have hm : ∀ l : List Job, j ∈ Job.markBegun u.kind l → ∃ i ∈ l, i.kind = j.kind ∧ j.todo ⊆ i.todo := by
    intro l
    induction l with
    | nil => simp [Job.markBegun]
    | cons i l ih =>
      unfold Job.markBegun
      split
      · intro hj
        rcases List.mem_cons.1 hj with rfl | hj
        · exact ⟨i, List.mem_cons_self .., rfl, List.Subset.refl _⟩
        · exact ⟨j, List.mem_cons_of_mem _ hj, rfl, List.Subset.refl _⟩
      · intro hj
        rcases List.mem_cons.1 hj with rfl | hj
        · exact ⟨j, List.mem_cons_self .., rfl, List.Subset.refl _⟩
        · obtain ⟨i', hi', e⟩ := ih hj
          exact ⟨i', List.mem_cons_of_mem _ hi', e⟩
  simp only [startBuffer, hb, Wen.setJobs_jobs, Wen.setBuffer_jobs] at h
  split at h
  · next hc => rw [hc]; exact hm _ h
  · exact ⟨j, h, rfl, List.Subset.refl _⟩

theorem PortMove.keeps_gateLaw {s t : State} (m : PortMove s t) (h : GateLaw s) : GateLaw t := by
  cases m with
  | join n hn _ => exact h.joined hn
  | endBpu _ =>
    refine h.of_same (by simp) (by simp) (by simp) (by simp) (fun r w a v hn => ?_) (by simp)
    rw [endBpuTenure_needs] at hn
    exact List.mem_of_mem_drop hn
  | stage b c j _ hj => exact stageJob_gateLaw h hj
  | drained b ws _ hws =>
    obtain ⟨h1, h2, h3, h4, h5⟩ := h
    refine ⟨fun c j hj => h1 c j (by rw [State.onWen_wen, Wen.ready_jobs] at hj; exact hj), fun d w hd hk x hx hg => ?_, h3, h4, h5⟩
    simp only [State.onWen_wen, Wen.ready_buffer] at hd
    split at hd
    · obtain rfl : (⟨.release, ws, none, false⟩ : Burst) = w := by simpa using hd
      obtain ⟨i, a, e⟩ := hws x hx
      exact absurd (e ▸ hg) (not_isGateWord_of_word i (by omega) (by omega))
    · exact h2 d w hd hk x hx hg
  | wait ha =>
    have hs : s.rfs.stage = some (.auxiliary false) ∨ s.rfs.stage = some (.auxiliary true) := by simpa [inAuxiliary] using ha
    exact gateLaw_stage h (by rcases hs with e | e <;> simp [e]) (by rcases hs with e | e <;> simp [e])
  | advance => exact releaseAdvance_gateLaw h
  | grantWen b u _ hb =>
    refine h.of_sub (fun c j hj => startBuffer_jobs hb hj) (fun c w hw => ⟨c, ?_⟩) (fun hno => .inl hno) h.stage
      (fun _ _ _ _ hn => hn) rfl
    have e := startBuffer_buffer (w := s.wen) hb c
    change ((startBuffer b s.wen).buffer c).Holds w at hw
    rw [e] at hw
    split at hw
    · next hc =>
      subst hc
      have : u = w := by simpa [Buffer.Holds] using hw
      exact .inl (this ▸ hb)
    · exact hw
  | stop n rest _ _ _ =>
    refine h.of_same (by simp) (by simp) (by simp) (by simp) (fun r w a v hn => ?_) (by simp)
    rw [stopNeed_needs] at hn
    exact List.mem_of_mem_drop hn
  | _ => exact h.of_same (fun _ => rfl) (fun _ => rfl) rfl rfl (fun _ _ _ _ hn => hn) rfl

/-! ## Every step -/

/-- The law of the gate words with those it rests on. -/
def GateLaws (s : State) : Prop := GateLaw s ∧ HoistLaw s ∧ Bounded s ∧ RingInOrder s

theorem Move.keeps_gateLaws {s t : State} (m : Move s t) (h : GateLaws s) : GateLaws t :=
  let ⟨h1, h2, h3, h4⟩ := h
  ⟨m.keeps_gateLaw h1 h3.2.2.1 h4 fun hc => (h2.2.1 hc).1, m.keeps_hoistLaw h2, m.keeps_bounded h3, m.keeps_ringInOrder h4⟩

theorem moves_gateLaws {s t : State} (m : Moves s t) (h : GateLaws s) : GateLaws t := m.keeps (fun _ _ m => m.keeps_gateLaws) h

/-- As the gate law stands while a plan is adopted: no plan is read any more. -/
def AdoptingGateLaws (s : State) : Prop := GateLaw s ∧ Bounded s ∧ RingInOrder s ∧ s.pld.cursor = .none

theorem Move.keeps_noPlanRead {s t : State} (m : Move s t) (h : s.pld.cursor = .none) : t.pld.cursor = .none := by
  cases m with
  | free hk => rw [show t.pld = s.pld from hk .pld (by simp [freeFields])]; exact h
  | pld p hp => by_contra hc; exact hp hc h
  | planned | quiesce | hand | submit | cancel | endWen => simp [h]
  | _ => exact h

theorem Move.keeps_adoptingGateLaws {s t : State} (m : Move s t) (h : AdoptingGateLaws s) : AdoptingGateLaws t :=
  let ⟨h1, h3, h4, h5⟩ := h
  ⟨m.keeps_gateLaw h1 h3.2.2.1 h4 fun hc => absurd h5 hc, m.keeps_bounded h3, m.keeps_ringInOrder h4, m.keeps_noPlanRead h5⟩

theorem adopt_keeps_gateLaw {s : State} (hp : planRefusal s.pld.copy s.mpl.slots = none) (h : GateLaws s) (hc : s.pld.cursor = .drive) :
    GateLaw (adopt s) := by
  obtain ⟨h1, h2, h3, h4⟩ := h
  have ha : s.rct.restart = .arming := (h2.2.1 (by simp [hc])).1
  have hcap := capacity_of_accepted hp
  have hno : ¬GatesReleased s := not_gatesReleased (by simp [ha]) (by simp [ha]) (by simp [ha])
  refine (adopt_keeps (R := AdoptingGateLaws) (fun _ _ m => m.keeps_adoptingGateLaws) ⟨?_, ?_, ?_, rfl⟩ (fun l t h => ?_)
    (fun t h => ?_) (fun n t h => ?_)).1
  · exact h1.of_sub (fun c j hj => ⟨j, by simpa using hj, rfl, List.Subset.refl _⟩) (fun b w hw => ⟨b, by simpa using hw⟩)
      (fun _ => .inl hno) (by simp [adoptBlocks_blocks, Rfs.reset]) (by simp) (by simp)
  · obtain ⟨b1, -, -, b4, -⟩ := h3
    exact ⟨b1, Nat.zero_le _, Nat.zero_le _, b4, Nat.zero_le _, Nat.zero_le _⟩
  · exact h4
  · obtain ⟨g1, g2, g3, g4⟩ := h
    obtain ⟨w, hw⟩ := commandContactors_rct l t
    refine ⟨commandContactors_gateLaw g1 l, g2.of_same (by simp) (by simp) (by simp) (by simp) (by simp) (by rw [hw]) (by simp), ?_,
      by simpa using g4⟩
    unfold RingInOrder at g3 ⊢
    simpa using g3
  · obtain ⟨g1, ⟨b1, b2, b3, -, b5⟩, g3, g4⟩ := h
    obtain ⟨a1, a2, a3, a4, -⟩ := g1
    exact ⟨⟨a1, a2, a3, a4, hcap.2⟩, ⟨b1, b2, b3, Nat.zero_le _, b5⟩, ringInOrder_start (by omega) _ t, g4⟩
  · obtain ⟨g1, g2, g3, g4⟩ := h
    exact ⟨g1.of_same (fun _ => rfl) (fun _ => rfl) rfl rfl (fun _ _ _ _ hn => hn) rfl, g2, g3, g4⟩

theorem referenceWrites_addr {s : State} {w : JobWrite} (hw : w ∈ referenceWrites s) : ¬IsGateWord w.addr := by
  simp only [referenceWrites, List.mem_flatMap] at hw
  obtain ⟨r, -, hw⟩ := hw
  split at hw
  · next i _ =>
    simp only [List.mem_cons, List.not_mem_nil, or_false] at hw
    rcases hw with rfl | rfl | rfl <;> exact not_isGateWord_of_word i (by norm_num) (by norm_num)
  · simp at hw

/-- The release joins in a stage short of GATES. -/
theorem enterResuming_gateLaw {s : State} (h : GateLaws s) (ha : s.rct.restart = .awaiting) : GateLaw (enterResuming s) := by
  have hu := (moves_gateLaws (enterResuming_moves ha) h).1
  have hs : s.rfs.stage = none := by
    by_contra hne
    simp [h.1.stage hne] at ha
  generalize he : enter .resuming noSlot s.rct.mode.code s = u at hu
  have hur : u.rct.restart = .resuming := by simp [← he]
  have hno : ¬GatesReleased u := not_gatesReleased (by simp [hur]) (by simp [hur]) fun _ => by simp [← he, hs]
  have hno' : ∀ t : State, t.rct.restart = .resuming → t.rfs.stage ≠ some .gates → ¬GatesReleased t := fun t e e' =>
    not_gatesReleased (by simp [e]) (by simp [e]) fun _ => e'
  have e : enterResuming s = submitRelease u := by rw [← he]; rfl
  rw [e, submitRelease_eq]
  obtain ⟨h1, h2, -, h4, h5⟩ := hu
  refine ⟨fun c j hj _ => ?_, fun b w hb _ => h2 b w (by simpa using hb) fun _ => hno, fun _ => hur, h4, h5⟩
  simp only [Wen.append, Wen.setJobs_jobs] at hj
  split at hj
  · next hc =>
    subst hc
    rcases List.mem_append.1 hj with hj | hj
    · exact h1 _ j hj fun _ => hno
    · rw [List.mem_singleton.1 hj]
      exact fun w hw hg => absurd hg (referenceWrites_addr hw)
  · exact h1 c j hj fun _ => hno

/-- The entry to ARMING. -/
theorem gateLaws_arming {s : State} (h : GateLaws s) (hu : s.rct.restart = .unarmed) : GateLaws (enter .arming noSlot 0 s) := by
  obtain ⟨h1, h2, h3, h4⟩ := h
  have hno : ¬GatesReleased s := not_gatesReleased (by simp [hu]) (by simp [hu]) (by simp [hu])
  have hs : s.rfs.stage = none := by
    by_contra hne
    simp [h1.stage hne] at hu
  refine moves_gateLaws (enter_arming_moves hu) ⟨?_, ⟨hoistLines_changed h2.1 _ _, armingOrder_changed h2.2 _ _ (h2.unarmed hu).1⟩,
    changed_bounded _ _ h3, h4⟩
  exact h1.of_sub (fun c j hj => ⟨j, hj, rfl, List.Subset.refl _⟩) (fun b w hb => ⟨b, hb⟩) (fun _ => .inl hno)
    (by simp [changed, hs]) (fun _ _ _ _ hn => hn) rfl

theorem startPlanRead_gateLaw {s : State} (h : GateLaw s) : GateLaw (startPlanRead s) := by
  refine h.of_same (fun _ => rfl) (fun _ => rfl) rfl rfl (fun r w a v hn => ?_) rfl
  obtain ⟨m, hm, e⟩ := startPlanRead_needs hn
  rw [translated_of_access e] at hm
  exact hm

theorem Turn.keeps_gateLaw {s t : State} (ht : Turn s t) (h : GateLaws s) : GateLaw t := by
  cases ht with
  | move m => exact (m.keeps_gateLaws h).1
  | resume ha => exact enterResuming_gateLaw h ha
  | short p hr hs =>
    obtain ⟨h1, h2, h3, h4⟩ := h
    refine (moves_gateLaws (shortLockout_moves (s := clearPending s) (by exact hr) _) ⟨?_, ?_, ?_, ?_⟩).1
    · exact mapTaken_gateLaw (h1.of_fields (clearPending s) rfl rfl rfl rfl rfl) _
    · obtain ⟨w, hw⟩ := mapTaken_rct (hardPending s.rct) (clearPending s)
      exact h2.of_same (by simp) (by rw [hw]; rfl) (.inl (by rw [hw]; rfl)) (by rw [hw]; exact id) (by simp)
    · exact mapTaken_bounded _ h3
    · unfold RingInOrder at h4 ⊢
      simpa using h4
  | arm hu =>
    have h1 := gateLaws_arming (moves_gateLaws (cancelDisarmReports_moves s) h) (by simpa using hu)
    rcases armRise_cases s with e | e <;> rw [e]
    · exact startPlanRead_gateLaw h1.1
    · exact (moves_gateLaws (endArmRise_moves _) h1).1

/-- With nothing in the Write Engine and no need of the BPU the law holds. -/
theorem gateLaw_blank {s : State} (hw : s.wen = .reset) (hs : s.rfs.stage = none) (hn : s.bpu.needs = []) (hl : s.log.capacity = 16) :
    GateLaw s := by
  refine ⟨fun c j hj => ?_, fun b w hb => ?_, fun h => absurd hs h, by simp [hn], by omega⟩
  · cases c <;> simp [hw, Wen.reset, Wen.jobs] at hj
  · cases b <;> simp [hw, Wen.reset, Wen.buffer] at hb

theorem gateLaws_kept : KeptBySteps GateLaws := by
  refine ⟨fun s t ht h => ⟨ht.keeps_gateLaw h, ?_, ?_, ?_⟩, fun s t m h => ⟨m.keeps_gateLaw h.1, ?_, ?_, ?_⟩,
    fun s hc hp h => ⟨adopt_keeps_gateLaw hp h hc, ?_, ?_, ?_⟩, fun s h => ⟨gateLaw_blank rfl rfl rfl rfl, ?_, ?_, ?_⟩,
    fun s h => ⟨gateLaw_blank rfl rfl rfl rfl, ?_, ?_, ?_⟩⟩
  · exact hoistLaw_kept.turn s t ht h.2.1
  · exact bounded_kept.turn s t ht h.2.2.1
  · exact ringInOrder_kept.turn s t ht h.2.2.2
  · exact m.keeps_hoistLaw h.2.1
  · exact m.keeps_bounded h.2.2.1
  · exact m.keeps_ringInOrder h.2.2.2
  · exact hoistLaw_kept.adopt s hc hp h.2.1
  · exact bounded_kept.adopt s hc hp h.2.2.1
  · exact ringInOrder_kept.adopt s hc hp h.2.2.2
  · exact hoistLaw_kept.powerOn s h.2.1
  · exact bounded_kept.powerOn s h.2.2.1
  · exact ringInOrder_kept.powerOn s h.2.2.2
  · exact hoistLaw_kept.warm s h.2.1
  · exact bounded_kept.warm s h.2.2.1
  · exact ringInOrder_kept.warm s h.2.2.2

end Sys2Proof.Machine
end

