-- ==== Sys2Proof/Proofs/GatesStayShut.lean ====
section
/-! Until the final gate burst of a release no gate word takes any value but BLOCK or RESET (L3). -/

namespace Sys2Proof.Machine

/-! ## The memory under some writes -/

/-- A word after some writes is as before or takes one of their values. -/
theorem read_writeAll_cases {m : Memory} (hm : m.wf = true) (ws : List (Addr × Word)) (a : Addr) :
    (m.writeAll ws).read a = m.read a ∨ ∃ x ∈ ws, x.1 = a ∧ (m.writeAll ws).read a = x.2 := by
  induction ws generalizing m with
  | nil => exact .inl rfl
  | cons x ws ih =>
    have hw : (m.write x.1 x.2).wf = true := Memory.writeAll_wf [x] hm
    have e : m.writeAll (x :: ws) = (m.write x.1 x.2).writeAll ws := rfl
    rw [e]
    rcases ih hw with h | ⟨y, hy, hya, h⟩
    · by_cases hxa : x.1 = a
      · exact .inr ⟨x, List.mem_cons_self .., hxa, by rw [h, ← hxa, Memory.read_write_same _ _ hm]⟩
      · exact .inl (by rw [h, Memory.read_write_other _ hxa])
    · exact .inr ⟨y, List.mem_cons_of_mem _ hy, hya, h⟩

/-- Some writes bring BLOCK or RESET to gate words. -/
def ShutWrites (ws : List (Addr × Word)) : Prop := ∀ x ∈ ws, IsGateWord x.1 → x.2 = 0 ∨ x.2 = 2

/-- Every gate word of one memory is as in another, or BLOCK or RESET. -/
def GatesShut (m m' : Memory) : Prop :=
  ∀ i : Slot, m'.read (physicalCommandAddr i 0) = m.read (physicalCommandAddr i 0)
    ∨ m'.read (physicalCommandAddr i 0) = 0 ∨ m'.read (physicalCommandAddr i 0) = 2

theorem GatesShut.writeAll {m m' : Memory} (h : GatesShut m m') (hm : m'.wf = true) {ws : List (Addr × Word)}
    (hw : ShutWrites ws) : GatesShut m (m'.writeAll ws) := by
  intro i
  rcases read_writeAll_cases hm ws (physicalCommandAddr i 0) with e | ⟨x, hx, ha, e⟩
  · rw [e]; exact h i
  · rw [e]; exact .inr (hw x hx ⟨i, ha⟩)

theorem shutWrites_of_other {ws : List (Addr × Word)} (h : ∀ x ∈ ws, ¬IsGateWord x.1) : ShutWrites ws :=
  fun x hx hg => absurd hg (h x hx)

/-- A link engine writes status words. -/
theorem far_shut (far : List FarWrite) : ShutWrites (far.map fun f => (physicalStatusAddr f.slot f.word.val, f.value)) := by
  refine shutWrites_of_other fun x hx hg => ?_
  obtain ⟨f, -, rfl⟩ := List.mem_map.1 hx
  have := hg.bounds
  simp [physicalStatusAddr] at this
  omega

/-! ## The memory over a command, short of its moves at the port -/

/-- The gate words stand shut since a state, and no buffer that is written can open one. -/
structure StaysShut (s t : State) : Prop where
  mem : GatesShut s.mem t.mem
  bursts : ∀ b u, t.wen.buffer b = .writing u → ShutWrites u.writes
  wf : t.mem.wf = true

theorem StaysShut.of_sub {s t u : State} (h : StaysShut s t) (hm : u.mem = t.mem)
    (hb : ∀ b w, u.wen.buffer b = .writing w → t.wen.buffer b = .writing w) : StaysShut s u :=
  ⟨hm ▸ h.mem, fun b w hw => h.bursts b w (hb b w hw), hm ▸ h.wf⟩

theorem StaysShut.of_same {s t u : State} (h : StaysShut s t) (hm : u.mem = t.mem) (hw : ∀ b, u.wen.buffer b = t.wen.buffer b) :
    StaysShut s u := h.of_sub hm fun b _ e => hw b ▸ e

theorem ShutWrites.take {ws : List (Addr × Word)} (h : ShutWrites ws) (n : Nat) : ShutWrites (ws.take n) :=
  fun x hx => h x (List.mem_of_mem_take hx)

theorem staysShut_cancelBuffer {p : JobKind → Bool} {b : BufferId} {s t : State} (h : StaysShut s t) :
    StaysShut s (cancelBuffer p b t) := by
  have hempty : ∀ {u : State}, u.wen = t.wen.setBuffer b .empty → ∀ c w, u.wen.buffer c = .writing w → t.wen.buffer c = .writing w := by
    intro u e c w hw
    rw [e, Wen.setBuffer_buffer] at hw
    split at hw
    · exact absurd hw (by simp)
    · exact hw
  unfold cancelBuffer
  split
  · exact h
  · split
    · exact h.of_sub rfl (hempty rfl)
    · exact h
  · next u hu =>
    split
    · have h1 := hempty (u := ((cutWrites u.writes t).onWen (·.setBuffer b .empty)).onMpa fun m => { m with holder := none }) rfl
      exact ⟨h.mem.writeAll h.wf ((h.bursts b u hu).take _), fun c w hw => h.bursts c w (h1 c w hw), Memory.writeAll_wf _ h.wf⟩
    · exact h

theorem StaysShut.cancel {s t : State} (h : StaysShut s t) (p : JobKind → Bool) : StaysShut s (cancel p t) :=
  (staysShut_cancelBuffer (staysShut_cancelBuffer h)).of_same rfl fun b => by cases b <;> rfl

theorem mapTaken_staysShut {s t : State} (h : StaysShut s t) (hard : Slot → Bool) : StaysShut s (mapTaken hard t) := by
  refine h.of_same (by simp) fun b => ?_
  rcases mapTaken_wen hard t with e | ⟨l, e⟩ <;> simp [e]

theorem Move.staysShut {s t u : State} (m : Move t u) (h : StaysShut s t) : StaysShut s u := by
  cases m with
  | free hk =>
    exact h.of_same (hk .mem (by simp [freeFields])) (by rw [show u.wen = t.wen from hk .wen (by simp [freeFields])]; exact fun _ => rfl)
  | far f => exact ⟨h.mem.writeAll h.wf (far_shut f), h.bursts, Memory.writeAll_wf _ h.wf⟩
  | done d => exact h.of_same rfl fun b => by cases b <;> rfl
  | hand | submit | quiesce => exact h.of_same (by simp) (by simp)
  | cancel p => exact h.cancel p
  | planned _ _ => exact mapTaken_staysShut (h.of_same (u := clearPending t) rfl fun _ => rfl) _
  | endWen b u hh hb =>
    refine ⟨?_, fun c w hw => ?_, ?_⟩
    · simpa [endBuffer] using h.mem.writeAll h.wf (h.bursts b u hb)
    · rw [endBuffer_buffer] at hw
      split at hw
      · exact absurd hw (by simp)
      · exact h.bursts c w hw
    · simpa [endBuffer] using Memory.writeAll_wf _ h.wf
  | _ => exact h.of_same rfl fun _ => rfl

theorem moves_staysShut {s t u : State} (m : Moves t u) (h : StaysShut s t) : StaysShut s u :=
  m.keeps (fun _ _ m => m.staysShut) h

theorem Turn.staysShut {s t u : State} (ht : Turn t u) (h : StaysShut s t) : StaysShut s u := by
  cases ht with
  | move m => exact m.staysShut h
  | resume ha =>
    exact (moves_staysShut (enterResuming_moves ha) h).of_same (by simp [enterResuming]) fun b => by
      simp [enterResuming, submitRelease_eq]
  | short p hr _ =>
    exact moves_staysShut (shortLockout_moves (by exact hr) _)
      (mapTaken_staysShut (h.of_same (u := clearPending t) rfl fun _ => rfl) _)
  | arm hu =>
    exact armRise_keeps (P := StaysShut s) (fun _ _ m => m.staysShut) (fun _ h => h.of_same rfl fun _ => rfl)
      (fun _ h => h.of_same rfl fun _ => rfl) hu h

theorem adopt_staysShut {s t : State} (h : StaysShut s t) : StaysShut s (adopt t) :=
  adopt_keeps (R := StaysShut s) (fun _ _ m => m.staysShut) (h.of_same (by simp) (by simp))
    (fun l t h => h.of_same (by simp) (by simp [commandContactors_buffer])) (fun _ h => h.of_same rfl fun _ => rfl)
    (fun _ _ h => h.of_same rfl fun _ => rfl)

/-! ## The needs over a command, short of its moves at the port -/

theorem Need.writes_of_access {m n : Need} (h : m.access = n.access) : m.writes = n.writes := by
  cases m <;> cases n <;> simp_all [Need.access, Need.writes]

/-- The needs that run stem from those that ran. -/
def RunOn (s t : State) : Prop := ∀ n ∈ runningNeeds t, n.LeavesGates ∨ ∃ m ∈ runningNeeds s, m.access = n.access

theorem RunOn.noGate {s t : State} (h : RunOn s t) (hs : ¬WritesAGate s) : ¬WritesAGate t := by
  rintro ⟨n, hn, x, hx, hg⟩
  rcases h n hn with hl | ⟨m, hm, e⟩
  · exact hl x hx hg
  · exact hs ⟨m, hm, x, Need.writes_of_access e ▸ hx, hg⟩

theorem runningNeeds_other {s : State} (h : s.mpa.holder ≠ some .bpu) : runningNeeds s = [] := by simp [runningNeeds, h]

theorem runOn_of_same {s t : State} (hh : t.mpa.holder = some .bpu → s.mpa.holder = some .bpu) (hn : t.bpu.needs = s.bpu.needs) :
    RunOn s t := by
  intro n h
  refine .inr ⟨n, ?_, rfl⟩
  unfold runningNeeds at h ⊢
  split at h
  · next e => rw [if_pos (hh e)]; rwa [hn] at h
  · simp at h

theorem runOn_of_none {s t : State} (h : t.mpa.holder ≠ some .bpu) : RunOn s t := fun n hn => by
  rw [runningNeeds_other h] at hn
  simp at hn

theorem runningNeeds_push {s : State} {n m : Need} (h : m ∈ runningNeeds (pushNeed n s)) : m ∈ runningNeeds s ∨ m = n := by
  unfold runningNeeds at h ⊢
  split at h
  · next hh =>
    rw [if_pos (by exact hh)]
    cases hl : s.bpu.needs with
    | nil => exact .inr (by simpa [pushNeed, hl] using h)
    | cons k l => exact .inl (by simpa [pushNeed, hl] using h)
  · simp at h

theorem cancel_holder_of {p : JobKind → Bool} {s : State} (h : (cancel p s).mpa.holder = some .bpu) : s.mpa.holder = some .bpu := by
  have buffer : ∀ {b : BufferId} {u : State}, (cancelBuffer p b u).mpa.holder = some .bpu → u.mpa.holder = some .bpu := by
    intro b u hu
    unfold cancelBuffer at hu
    split at hu
    · exact hu
    · split at hu <;> exact hu
    · split at hu
      · exact absurd hu (by simp)
      · exact hu
  exact buffer (buffer h)

/-- The needs that run in the quiet passage ran before. -/
theorem quiesce_runOn (s : State) : RunOn s (quiesce s) := by
  by_cases hh : s.mpa.holder = some .bpu
  · intro n h
    have hh' : (quiesce s).mpa.holder = some .bpu := by simp [hh, Holder.discarded]
    rw [runningNeeds_sublist hh'] at h
    simp only [quiesce, clearRelease, emptyLatches, State.onBpu_bpu, State.onRfs_bpu] at h
    cases hn : s.bpu.needs with
    | nil => simp [runningNeeds, waitingNeeds, hh, hn] at h
    | cons m l =>
      have : n = m.unwatched := by simpa [runningNeeds, hh, hn] using h
      exact .inr ⟨m, by simp [runningNeeds, hh, hn], by rw [this, Need.unwatched_access]⟩
  · exact runOn_of_none (by simpa [map_discarded_eq.2] using hh)

/-- The needs that run at ARM rising ran before. -/
theorem startPlanRead_runOn (s : State) : RunOn s (startPlanRead s) := by
  by_cases hh : s.mpa.holder = some .bpu
  · intro n h
    simp only [runningNeeds, startPlanRead, needsAtArming, State.onPld_mpa, State.onBpu_mpa, State.onPld_bpu, State.onBpu_bpu, hh,
      ite_true] at h
    cases hn : s.bpu.needs with
    | nil => simp [waitingNeeds, hh, hn] at h
    | cons m l =>
      have : n = m.watchedDrive := by simpa [hn] using h
      exact .inr ⟨m, by simp [runningNeeds, hh, hn], by rw [this, Need.watchedDrive_access]⟩
  · exact runOn_of_none (by simpa [startPlanRead] using hh)

theorem Move.runOn {s t : State} (m : Move s t) : RunOn s t := by
  cases m with
  | free hk =>
    exact runOn_of_same (by rw [show t.mpa.holder = s.mpa.holder from hk .holder (by simp [freeFields])]; exact id)
      (hk .needs (by simp [freeFields]))
  | bpu b hb =>
    intro n hn
    have : n.access ∈ (runningNeeds s).map Need.access := by rw [← hb.running]; exact List.mem_map_of_mem hn
    obtain ⟨m, hm, e⟩ := List.mem_map.1 this
    exact .inr ⟨m, hm, e⟩
  | push n _ hg =>
    intro m hm
    rcases runningNeeds_push hm with hm | rfl
    · exact .inr ⟨m, hm, rfl⟩
    · exact .inl hg
  | cancel p => exact runOn_of_same cancel_holder_of (by simp)
  | planned | hand | submit => exact runOn_of_same (by simp) (by simp)
  | quiesce => exact quiesce_runOn s
  | discard => exact runOn_of_same (t := discardRead s) map_discarded_eq.2.1 rfl
  | endRead | endWen => exact runOn_of_none (by simp [releasePort, endBuffer])
  | _ => exact runOn_of_same id rfl

/-- No BPU tenure that writes a gate word is in progress, and while the part is armed no need would write one for the host. -/
structure NeedsShut (s : State) : Prop where
  running : ¬WritesAGate s
  guarded : s.rct.restart ≠ .unarmed → ∀ a v d, Need.passWrite a v d ∈ s.bpu.needs → ¬IsGateWord a

theorem isProtected_of_isGateWord {a : Addr} (h : IsGateWord a) (v : Word) (d : Option Delivery) :
    (Need.passWrite a v d).isProtected = true := by
  simp [Need.isProtected, regionOf_of_isGateWord h]

theorem NeedsShut.of_sub {s t : State} (h : NeedsShut s) (hr : RunOn s t) (hu : t.rct.restart ≠ .unarmed → s.rct.restart ≠ .unarmed)
    (hn : ∀ n ∈ t.bpu.needs, ∃ m ∈ s.bpu.needs, m.access = n.access) : NeedsShut t := by
  refine ⟨hr.noGate h.running, fun hu' a v d hm hg => ?_⟩
  obtain ⟨m, hm', e⟩ := hn _ hm
  cases m with
  | passWrite b w d' =>
    obtain ⟨rfl, rfl, -⟩ := Need.passWrite.inj e
    exact h.guarded (hu hu') b w d' hm' hg
  | read | translated | pair | commitAlone => simp [Need.access] at e

theorem Move.keeps_needsShut {s t : State} (m : Move s t) (h : NeedsShut s) : NeedsShut t := by
  have same : RunOn s t → t.rct.restart = s.rct.restart → t.bpu.needs = s.bpu.needs → NeedsShut t := fun hr e1 e2 =>
    h.of_sub hr (by rw [e1]; exact id) fun n hn => ⟨n, e2 ▸ hn, rfl⟩
  have hr := m.runOn
  cases m with
  | free hk => exact same hr (by rw [show t.rct = s.rct from hk .rct (by simp [freeFields])]) (hk .needs (by simp [freeFields]))
  | rct r hc => exact same hr hc.restart rfl
  | bpu b hb => exact h.of_sub hr id fun n hn => hb.needs hn
  | push n hn hg =>
    refine ⟨hr.noGate h.running, fun hu a v d hm hga => ?_⟩
    rcases List.mem_append.1 hm with hm | hm
    · exact h.guarded hu a v d hm hga
    · rw [← List.mem_singleton.1 hm] at hg
      exact hg (a, v) (by simp [Need.writes]) hga
  | change new clear hc => exact h.of_sub hr (fun _ => hc.armed) fun n hn => ⟨n, hn, rfl⟩
  | quiesce _ _ => exact h.of_sub hr (fun hu => absurd (by simp) hu) fun n hn => quiesce_needs hn
  | planned _ _ =>
    obtain ⟨w, hw⟩ := mapTaken_rct (hardPending s.rct) (clearPending s)
    exact same hr (by rw [hw]; rfl) (by simp)
  | convert | contactor => exact same hr rfl rfl
  | cancel | hand | submit | endWen => exact same hr (by simp) (by simp)
  | _ => exact same hr rfl rfl

theorem moves_needsShut {s t : State} (m : Moves s t) (h : NeedsShut s) : NeedsShut t := m.keeps (fun _ _ m => m.keeps_needsShut) h

theorem moves_noGate {s t : State} (m : Moves s t) (h : ¬WritesAGate s) : ¬WritesAGate t :=
  m.keeps (P := fun s => ¬WritesAGate s) (fun _ _ m => m.runOn.noGate) h

/-- As the plan read starts, what waits for a protected region is absorbed, and what runs writes no gate word. -/
theorem startPlanRead_needsShut {s : State} (h : ¬WritesAGate s) : NeedsShut (startPlanRead s) := by
  refine ⟨(startPlanRead_runOn s).noGate h, fun _ a v d hm hg => ?_⟩
  obtain ⟨m, hm, e⟩ := List.mem_map.1 hm
  have ha : m.access = (Need.passWrite a v d).access := by rw [← e, Need.watchedDrive_access]
  rcases List.mem_append.1 hm with hm | hm
  · exact h ⟨m, hm, (a, v), by rw [Need.writes_of_access ha]; simp [Need.writes], hg⟩
  · have := Need.isProtected_of_access ha
    rw [isProtected_of_isGateWord hg] at this
    simpa [this] using (List.mem_filter.1 hm).2

theorem Turn.keeps_needsShut {s t : State} (ht : Turn s t) (h : NeedsShut s) : NeedsShut t := by
  cases ht with
  | move m => exact m.keeps_needsShut h
  | resume ha =>
    exact (moves_needsShut (enterResuming_moves ha) h).of_sub (runOn_of_same (by simp [enterResuming]) (by simp [enterResuming]))
      (by simp [enterResuming]) fun n hn => ⟨n, by simpa [enterResuming] using hn, rfl⟩
  | short p hr _ =>
    obtain ⟨w, hw⟩ := mapTaken_rct (hardPending s.rct) (clearPending s)
    exact moves_needsShut (shortLockout_moves (by exact hr) _) (h.of_sub (runOn_of_same (by simp) (by simp))
      (by rw [hw]; exact id) fun n hn => ⟨n, by simpa using hn, rfl⟩)
  | arm hu =>
    have h1 : ¬WritesAGate (enter .arming noSlot 0 (cancelDisarmReports s)) :=
      moves_noGate (enter_arming_moves (by simpa using hu))
        ((runOn_of_same (s := cancelDisarmReports s) id rfl).noGate (moves_noGate (cancelDisarmReports_moves s) h.running))
    rcases armRise_cases s with e | e <;> rw [e]
    · exact startPlanRead_needsShut h1
    · exact ⟨moves_noGate (endArmRise_moves _) h1, fun hu' => absurd (endBeforeAdoption_restart ..) hu'⟩

theorem adopt_needsShut {s : State} (h : NeedsShut s) : NeedsShut (adopt s) := by
  refine adopt_keeps (R := NeedsShut) (fun _ _ m => m.keeps_needsShut)
    (h.of_sub (runOn_of_same (by simp) (by simp)) id fun n hn => ⟨n, by simpa using hn, rfl⟩) (fun l t h => ?_)
    (fun t h => h.of_sub (runOn_of_same id rfl) id fun n hn => ⟨n, hn, rfl⟩)
    (fun n t h => h.of_sub (runOn_of_same id rfl) id fun n hn => ⟨n, hn, rfl⟩)
  obtain ⟨w, hw⟩ := commandContactors_rct l t
  exact h.of_sub (runOn_of_same (by simp) (by simp)) (by rw [hw]; exact id) fun n hn => ⟨n, by simpa using hn, rfl⟩

/-! ## The moves at the port -/

theorem endBpuTenure_mem (s : State) :
    (endBpuTenure s).mem = s.mem ∨ ∃ n l, s.bpu.needs = n :: l ∧ (endBpuTenure s).mem = s.mem.writeAll n.writes := by
  unfold endBpuTenure
  split
  · exact .inl rfl
  · next n l h => exact .inr ⟨n, l, h, by simp [performNeed, releasePort]⟩

/-- A need that runs and writes no gate word. -/
theorem NeedsShut.head {s : State} (h : ¬WritesAGate s) {n : Need} {l : List Need} (hh : s.mpa.holder = some .bpu)
    (hn : s.bpu.needs = n :: l) : ShutWrites n.writes :=
  shutWrites_of_other fun x hx hg => h ⟨n, by simp [runningNeeds, hh, hn], x, hx, hg⟩

theorem PortMove.gatesShut {s t u : State} (m : PortMove t u) (h : StaysShut s t) (hn : ¬WritesAGate t) : GatesShut s.mem u.mem := by
  cases m with
  | endBpu hh =>
    rcases endBpuTenure_mem t with e | ⟨n, l, hl, e⟩ <;> rw [e]
    · exact h.mem
    · exact h.mem.writeAll h.wf (NeedsShut.head hn hh hl)
  | stage | advance | stop => simpa using h.mem
  | _ => exact h.mem

/-- What stands while the port settles: a BPU tenure on a gate word is a live one, in NORMAL, or an unarmed one. -/
structure GrantsShut (s : State) : Prop where
  forwarded : ∀ r w a v, Need.translated r w a v ∈ s.bpu.needs → ∃ i : Slot, a = physicalCommandAddr i w.val
  guarded : s.rct.restart ≠ .unarmed → ∀ a v d, Need.passWrite a v d ∈ s.bpu.needs → ¬IsGateWord a
  running : WritesAGate s → s.rct.restart = .normal ∨ s.rct.restart = .unarmed

/-- A need that writes a gate word goes there for the host, or with word 0. -/
theorem Need.writes_gate {n : Need} {x : Addr × Word} (hx : x ∈ n.writes) (hg : IsGateWord x.1)
    (hf : ∀ r w a v, n = .translated r w a v → ∃ i : Slot, a = physicalCommandAddr i w.val) :
    (∃ v d, n = .passWrite x.1 v d) ∨ ∃ r a v, n = .translated r 0 a v := by
  cases n with
  | passWrite a v d => rw [List.mem_singleton.1 hx]; exact .inl ⟨v, d, rfl⟩
  | read a l => simp [Need.writes] at hx
  | translated r w a v =>
    rw [List.mem_singleton.1 hx] at hg
    obtain ⟨i, rfl⟩ := hf r w a v rfl
    by_cases hw : w = 0
    · subst hw; exact .inr ⟨r, _, v, rfl⟩
    · exact absurd hg (not_isGateWord_of_word i (Nat.pos_of_ne_zero fun e => hw (Fin.ext e)) w.isLt)
  | pair r i m g => exact absurd hg (leavesGates_pair r i m g x hx)
  | commitAlone p i m a b => exact absurd hg (leavesGates_commitAlone p i m a b x hx)

theorem GrantsShut.of_sub {s t : State} (h : GrantsShut s) (hr : RunOn s t) (hu : t.rct = s.rct)
    (hn : t.bpu.needs ⊆ s.bpu.needs) : GrantsShut t := by
  refine ⟨fun r w a v hm => h.forwarded r w a v (hn hm), fun hu' a v d hm => h.guarded (hu ▸ hu') a v d (hn hm), fun hw => ?_⟩
  rw [hu]
  by_contra hcon
  exact hr.noGate (fun hs => hcon (h.running hs)) hw

/-- A need of a kind that may go to the port, with what it would write. -/
theorem GrantsShut.opened {s : State} (h : GrantsShut s) {n : Need} (hn : n ∈ s.bpu.needs) {x : Addr × Word} (hx : x ∈ n.writes)
    (hg : IsGateWord x.1) : s.rct.restart = .unarmed ∨ ∃ r a v, n = .translated r 0 a v := by
  rcases Need.writes_gate hx hg (fun r w a v e => h.forwarded r w a v (e ▸ hn)) with ⟨v, d, e⟩ | hw
  · left
    by_contra hu
    exact h.guarded hu _ v d (e ▸ hn) hg
  · exact .inr hw

theorem PortMove.keeps_grantsShut {s t : State} (m : PortMove s t) (h : GrantsShut s) : GrantsShut t := by
  cases m with
  | join n hn hw =>
    obtain ⟨h1, h2, h3⟩ := h
    refine ⟨fun r w a v hm => ?_, fun hu a v d hm hg => ?_, ?_⟩
    · rcases List.mem_append.1 hm with hm | hm
      · exact h1 r w a v hm
      · exact hn.forwarded r w a v (List.mem_singleton.1 hm).symm
    · rcases List.mem_append.1 hm with hm | hm
      · exact h2 hu a v d hm hg
      · have := hn.guarded hu
        rw [← List.mem_singleton.1 hm, isProtected_of_isGateWord hg] at this
        simp at this
    · rintro ⟨m, hm, x, hx, hg⟩
      rcases runningNeeds_push hm with hm | rfl
      · exact h3 ⟨m, hm, x, hx, hg⟩
      · rcases Need.writes_gate hx hg hn.forwarded with ⟨v, d, e⟩ | ⟨r, a, v, e⟩
        · right
          by_contra hu
          have := hn.guarded hu
          rw [e, isProtected_of_isGateWord hg] at this
          simp at this
        · exact .inl (hw r a v e)
  | endBpu _ =>
    exact h.of_sub (runOn_of_none (by simp [endBpuTenure_holder])) (by simp) (by rw [endBpuTenure_needs]; exact List.drop_subset ..)
  | grantBpu n rest _ hne hl =>
    refine ⟨h.forwarded, h.guarded, ?_⟩
    rintro ⟨m, hm, x, hx, hg⟩
    have hmn : m = n := by simpa [runningNeeds, hne] using hm
    subst hmn
    rcases h.opened (by simp [hne]) hx hg with hu | ⟨r, a, v, rfl⟩
    · exact .inr hu
    · exact .inl (restart_of_isLive_gate hl)
  | stop n rest hh _ _ =>
    exact h.of_sub (runOn_of_none (by simp [hh])) (by simp) (by rw [stopNeed_needs]; exact List.drop_subset ..)
  | grantRead r _ hr =>
    refine h.of_sub (runOn_of_none ?_) rfl (List.Subset.refl _)
    rcases readInProgress_some hr with ⟨i, rfl, -⟩ | rfl <;> simp
  | grantWen => exact h.of_sub (runOn_of_none (by simp)) rfl (List.Subset.refl _)
  | stage | advance => exact h.of_sub (runOn_of_same (by simp) (by simp)) (by simp) (by simp)
  | drained | wait => exact h.of_sub (runOn_of_same id rfl) rfl (List.Subset.refl _)

theorem DrainMove.keeps_grantsShut {s t : State} (m : DrainMove s t) (h : GrantsShut s) : GrantsShut t := by
  obtain ⟨-, hr, hn, hm⟩ := m
  exact h.of_sub (runOn_of_same (by rw [hm]; exact id) hn) hr (by rw [hn]; exact List.Subset.refl _)

theorem settle_grantsShut {s : State} (h : GrantsShut s) : GrantsShut (settle s) := by
  have keeps : ∀ t, Settling s t → GrantsShut t := by
    intro t ht
    induction ht with
    | refl => exact h
    | tail _ m ih => exact m.elim (fun m => m.keeps_grantsShut ih) fun m => m.keeps_grantsShut ih
  exact keeps _ (settle_settling s)

theorem NeedsShut.grants {s : State} (h : NeedsShut s) (hg : GateLaw s) : GrantsShut s :=
  ⟨hg.forwarded, h.guarded, fun hw => absurd hw h.running⟩

/-! ## One step -/

/-- A tenure that is cut has written some of its first words. -/
theorem cutTenure_shut {s : State} (h : StaysShut s s) (hn : ¬WritesAGate s) : GatesShut s.mem (cutTenure s).mem := by
  have cut : ∀ ws, ShutWrites ws → GatesShut s.mem (cutWrites ws s).mem := fun ws hw => h.mem.writeAll h.wf (hw.take _)
  unfold cutTenure
  split
  · exact h.mem
  · exact h.mem
  · exact h.mem
  · next b _ =>
    split
    · next u hu => exact cut _ (h.bursts b u hu)
    all_goals exact h.mem
  · next hh =>
    split
    · exact h.mem
    · next n l hl =>
      dsimp only
      split
      · simpa [releasePort] using h.mem
      · exact cut _ (NeedsShut.head hn hh hl)

theorem turns_staysShut {s t u : State} (ht : Turns t u) (h : StaysShut s t) : StaysShut s u :=
  ht.keeps (fun _ _ ht => ht.staysShut) h

theorem turns_needsShut {s t : State} (ht : Turns s t) (h : NeedsShut s) : NeedsShut t := ht.keeps (fun _ _ ht => ht.keeps_needsShut) h

theorem needsShut_of_protected {s : State} (h : ProtectedLaw s) (hn : ¬WritesAGate s) : NeedsShut s := by
  refine ⟨hn, fun hu a v d hm hg => ?_⟩
  have hw : Need.passWrite a v d ∉ waitingNeeds s := fun hw => by
    simpa [isProtected_of_isGateWord hg] using h hu _ hw
  by_cases hh : s.mpa.holder = some .bpu
  · rw [← List.take_append_drop 1 s.bpu.needs] at hm
    rcases List.mem_append.1 hm with hm | hm
    · exact hn ⟨_, by rwa [runningNeeds, if_pos hh], (a, v), by simp [Need.writes], hg⟩
    · exact hw (by rwa [waitingNeeds, if_pos hh])
  · exact hw (by rwa [waitingNeeds, if_neg hh])

theorem Joined.gatesShut {s t u : State} (ht : Joined t u) (h : StaysShut s t) (hn : NeedsShut t) : GatesShut s.mem u.mem := by
  obtain ⟨v, hv, rfl | hp⟩ := ht
  · exact (turns_staysShut hv h).mem
  · exact hp.gatesShut (turns_staysShut hv h) (turns_needsShut hv hn).running

/-- The hand over of the plan to the adoption. -/
theorem endPlanRead_moves {s : State} (hd : s.mpa.holder = some (.pld false)) : Moves s (handOverDrive (releasePort s)) :=
  (Move.endRead (.inr ⟨false, hd⟩)).moves.trans (handOverDrive_moves _)

/-- While the gates are not released, a command brings BLOCK or RESET to a gate word. -/
theorem gatesShut_exec {c : Instr} {s t : State} (hs : StaysShut s s) (hn : NeedsShut s) (e : exec c s = .next t) :
    GatesShut s.mem t.mem := by
  by_cases h1 : c = .powerOnReset
  · subst h1
    cases e
    simpa [blocksReset] using cutTenure_shut hs hn.running
  by_cases h2 : c = .resetNLow
  · subst h2
    simp only [exec, execResetNLow] at e
    split at e
    · cases e
      simpa [warmReset, blocksReset] using cutTenure_shut hs hn.running
    · cases e; exact hs.mem
  rcases exec_turns h1 h2 e with ⟨u, hu, rfl | rfl⟩ | ⟨u, -, hd, -, -, rfl, rfl⟩
  · exact hu.gatesShut hs hn
  · rw [(settle_frame _).2.1]; exact hu.gatesShut hs hn
  · rw [(settle_frame _).2.1]
    exact (adopt_staysShut (moves_staysShut (endPlanRead_moves hd) hs)).mem

theorem GrantsShut.joined {s t : State} (h : Joined s t) (hn : NeedsShut s) (hg : GateLaws s) : GrantsShut t := by
  obtain ⟨u, hu, e⟩ := h
  have hgu : GrantsShut u := (turns_needsShut hu hn).grants (hu.keeps gateLaws_kept.turn hg).1
  rcases e with rfl | hp
  · exact hgu
  · exact hp.keeps_grantsShut hgu

/-- After a command a BPU tenure on a gate word is a live one, in NORMAL, or an unarmed one, if none ran before. -/
theorem grantsShut_exec {c : Instr} {s t : State} (hn : NeedsShut s) (hg : GateLaws s) (e : exec c s = .next t) :
    WritesAGate t → t.rct.restart = .normal ∨ t.rct.restart = .unarmed := by
  by_cases h1 : c = .powerOnReset
  · subst h1
    cases e
    exact fun _ => .inr (by simp [blocksReset, State.held, Rct.reset])
  by_cases h2 : c = .resetNLow
  · subst h2
    simp only [exec, execResetNLow] at e
    split at e
    · cases e
      exact fun _ => .inr (by simp [warmReset, blocksReset, State.held, Rct.reset])
    · cases e; exact fun h => absurd h hn.running
  rcases exec_turns h1 h2 e with ⟨u, hu, rfl | rfl⟩ | ⟨u, -, hd, hc, hp, rfl, rfl⟩
  · exact (GrantsShut.joined hu hn hg).running
  · exact (settle_grantsShut (GrantsShut.joined hu hn hg)).running
  · have hm := endPlanRead_moves hd
    have ha := gateLaws_kept.adopt _ (by simpa using hc) (by simpa using hp) (gateLaws_kept.moves hm hg)
    exact (settle_grantsShut ((adopt_needsShut (moves_needsShut hm hn)).grants ha.1)).running

theorem gatesStayShut_step {s t : State} (hg : GateLaws s) (hm : s.mem.wf = true) (hp : ProtectedLaw s) (e : step s = .next t) :
    GatesStayShut s t := by
  unfold step at e
  split at e
  · cases e; exact ⟨fun _ _ _ _ => .inl rfl, fun _ _ h => h⟩
  next c rest _ =>
    have hn : ¬WritesAGate s → NeedsShut { s with pending := rest } := fun h => needsShut_of_protected hp h
    have hg' : GateLaws { s with pending := rest } := gateLaws_kept.moves (pending_move rest s).moves hg
    refine ⟨fun _ hrel h => ?_, fun hu hrel hw => ?_⟩
    · exact gatesShut_exec (s := { s with pending := rest }) ⟨fun _ => .inl rfl, fun b u hb => hg.1.buffers b u (.inr hb) fun _ => hrel, hm⟩ (hn h) e
    · by_contra h
      rcases grantsShut_exec (hn h) hg' e hw with h1 | h1
      · exact hrel (.inl h1)
      · exact hu h1

/-- Settles O55: the order of arming is kept by every turn, and so are the laws of the gate words. -/
theorem hoistLawIsKept : Obligations.HoistLawIsKept :=
  ⟨hoistLaw_kept.step, fun s s' hg hh hb hr e =>
    ⟨(gateLaws_kept.step s s' ⟨hg, hh, hb, hr⟩ e).1, fun hm hp => gatesStayShut_step ⟨hg, hh, hb, hr⟩ hm hp e⟩⟩

end Sys2Proof.Machine
end

