-- ==== Sys2Proof/Proofs/HandedRecords.lean ====
section
/-! What follows a record that has been handed: the record stands ahead in the write list, and its job stays listed. -/

namespace Sys2Proof.Machine

/-! ## Frames, composed -/

theorem Field.same_trans {s t u : State} {f : Field} (h : f.same s t) (h' : f.same t u) : f.same s u := by
  cases f <;> exact Eq.trans h' h

theorem KeepsAllBut.trans {fs gs hs : List Field} {s t u : State} (h : KeepsAllBut fs s t) (h' : KeepsAllBut gs t u)
    (hf : fs ⊆ hs) (hg : gs ⊆ hs) : KeepsAllBut hs s u :=
  fun f hn => Field.same_trans (h f fun hm => hn (hf hm)) (h' f fun hm => hn (hg hm))

theorem KeepsAllBut.mono {fs gs : List Field} {s t : State} (h : KeepsAllBut fs s t) (hf : fs ⊆ gs) : KeepsAllBut gs s t :=
  fun f hn => h f fun hm => hn (hf hm)

/-! ## The Log Unit -/

/-- A job of the Log Unit. -/
def JobKind.ofLog : JobKind → Bool
  | .logRecord _ | .logHeader => true
  | .resetBlock | .blockAll | .contactor | .resetGate | .blockGate | .release | .mapImage _ | .captureDump
  | .captureHeader => false

/-- The write list of the log and the listed jobs of the Log Unit only grow. -/
structure LogFollows (s u : State) : Prop where
  writeList : s.log.writeList <+: u.log.writeList
  jobs : ∀ j ∈ s.wen.jobs3, j.kind.ofLog = true → j ∈ u.wen.jobs3

theorem LogFollows.of_same {s u : State} (hl : u.log = s.log) (hw : u.wen = s.wen) : LogFollows s u :=
  ⟨hl ▸ List.prefix_refl _, fun _ hj _ => hw ▸ hj⟩

theorem LogFollows.trans {s t u : State} (h : LogFollows s t) (h' : LogFollows t u) : LogFollows s u :=
  ⟨h.writeList.trans h'.writeList, fun j hj hk => h'.jobs j (h.jobs j hj hk) hk⟩

theorem LogFollows.of_grows {s u : State} (h : s.log.writeList <+: u.log.writeList) (g : JobsGrow s u) : LogFollows s u :=
  ⟨h, fun _ hj _ => (g.jobs .three).subset hj⟩

theorem Records.follows {s u : State} (h : Records s u) : LogFollows s u := .of_grows h.grows h.jobsGrow

/-- The jobs of other kinds stay over a cancellation. -/
theorem LogFollows.of_stays {p : JobKind → Bool} {s u : State} (h : s.log.writeList <+: u.log.writeList)
    (o : OtherJobsStay p s u) (hp : ∀ k, k.ofLog = true → p k = false) : LogFollows s u :=
  ⟨h, fun j hj hk => (o.1 .three).subset (List.mem_filter.2 ⟨hj, by simp [hp _ hk]⟩)⟩

theorem ofLog_ofSequence {k : JobKind} (h : k.ofLog = true) : k.ofSequence = false := by
  cases k <;> simp [JobKind.ofLog, JobKind.ofSequence] at h ⊢

theorem ofLog_release {k : JobKind} (h : k.ofLog = true) : (k == .release) = false := by
  cases k <;> simp [JobKind.ofLog] at h ⊢

/-- The jobs that a record makes are the Log Unit's. -/
theorem Records.new_jobs {s t : State} (h : Records s t) {j : Job} (hj : j ∈ t.wen.jobs3) (hn : j ∉ s.wen.jobs3) :
    j.kind.ofLog = true := by
  obtain ⟨jobs, e, hk⟩ := h.wen
  rw [e] at hj
  rcases List.mem_append.1 hj with hj | hj
  · exact absurd hj hn
  · rcases (hk j hj).2 with e | ⟨c, e⟩ <;> rw [e] <;> rfl

theorem handsFirst_of_follows {c : Category} {code slot arg : Word} {s t u : State} (hl : t.log = s.log)
    (hw : t.wen = s.wen) (hr : t.rct.restart = s.rct.restart) (hi : t.itm = s.itm)
    (h : LogFollows (logRecord c code slot arg t) u) : HandsFirst c code slot arg s u := by
  obtain ⟨el, ew⟩ := logRecord_congr hl hw hr hi c code slot arg
  refine ⟨el ▸ h.writeList, fun j hj hn => h.jobs j (ew ▸ hj) ?_⟩
  exact (records_logRecord c code slot arg s).new_jobs hj hn

theorem records_handAll (c : Category) (l : List (Word × Word × Word)) (s : State) : Records s (handAll c l s) :=
  records_foldl _ (fun _ _ => records_logRecord ..) l s

theorem handsAllFirst_of_follows {c : Category} {l : List (Word × Word × Word)} {s t u : State} (hl : t.log = s.log)
    (hw : t.wen = s.wen) (hr : t.rct.restart = s.rct.restart) (hi : t.itm = s.itm)
    (h : LogFollows (handAll c l t) u) : HandsAllFirst c l s u := by
  obtain ⟨el, ew⟩ := handAll_congr hl hw hr hi c l
  exact ⟨el ▸ h.writeList, fun j hj hn => h.jobs j (ew ▸ hj) ((records_handAll c l s).new_jobs hj hn)⟩

/-! ## Changes of restart state -/

theorem enter_writeList (new : RestartState) (slot arg : Word) (s : State) :
    s.log.writeList <+: (enter new slot arg s).log.writeList := by
  refine .trans ?_ (enter_records new slot arg s).grows
  split <;> simp

theorem enter_follows (new : RestartState) (slot arg : Word) (s : State) : LogFollows s (enter new slot arg s) :=
  .of_grows (enter_writeList new slot arg s) (enter_grows new slot arg s)

theorem enterLockout_follows (c : LockoutCause) (s : State) : LogFollows s (enterLockout c s) := by
  refine .of_stays ?_ (lockout_spec 0 c s).others fun _ => ofLog_ofSequence
  refine .trans ?_ (enter_writeList .lockout noSlot c.code _)
  simp

end Sys2Proof.Machine
end

