-- ==== Sys2Proof/Proofs/LinesAndTimers.lean ====
section
/-! The commands of the hoist lines, of time and of the delivered watched writes. -/

namespace Sys2Proof.Machine

/-- Settles O9: the command is the disarm that `disarm_spec` describes, and the plan loader keeps its result. -/
theorem armFallingDisarms : Obligations.ArmFallingDisarms := by
  refine fun s h => ⟨fun hu => ⟨disarm { s with pins := { s.pins with arm := false } }, ?_, ?_⟩, fun hu => ?_⟩
  · simp only [exec, execArmFalling, h, ite_true, State.onPins_rct, hu, ite_false]; rfl
  · refine ⟨disarm_spec none 0xFFFF _, ?_⟩
    simp [disarm, disarmWith, quiesce]
  · simp only [exec, execArmFalling, h, ite_true, State.onPins_rct, hu]; rfl

/-! ## The hoist lines -/

theorem inSequence_cases {r : RestartState} : r.inSequence = true ↔ r = .tripped ∨ r = .isolating ∨ r = .recharging
    ∨ r = .verifying ∨ r = .awaiting ∨ r = .resuming := by
  cases r <;> simp [RestartState.inSequence]

/-- A record behind changes of which neither the log nor the words of the record know. -/
theorem handsRecord_of_same {c : Category} {code slot arg : Word} {s t : State} (hl : t.log = s.log) (hw : t.wen = s.wen)
    (hr : t.rct.restart = s.rct.restart) (hi : t.itm = s.itm) : HandsRecord c code slot arg s (logRecord c code slot arg t) :=
  logRecord_congr hl hw hr hi c code slot arg

theorem brakeRise_parks {s : State} (h : s.rct.restart = .normal) : brakeRise s = parkDrive s := by simp [brakeRise, h]

theorem brakeRise_converts {s : State} (h : s.rct.restart.inSequence = true) (hm : s.rct.mode = .rideThrough) :
    brakeRise s = convertMode 2 (word s.rct.budget.left) s := by
  rcases inSequence_cases.1 h with h | h | h | h | h | h <;> simp [brakeRise, h, hm]

theorem brakeRise_idle {s : State} (h : s.rct.restart ≠ .normal) (hm : s.rct.restart.inSequence = false ∨ s.rct.mode = .standstill) :
    brakeRise s = s := by
  unfold brakeRise
  cases hr : s.rct.restart <;> simp_all [RestartState.inSequence]

theorem convertMode_hands (code arg : Word) (s : State) : HandsRecord .hoist code noSlot arg s (convertMode code arg s) :=
  handsRecord_of_same rfl rfl rfl rfl

/-- Settles O23: the rise acts by the restart state. -/
theorem brakeSetRisingActsByState : Obligations.BrakeSetRisingActsByState := by
  intro s s' hb hs
  have e : exec .brakeSetRising s = .next (settle (brakeRise s')) := by
    simp only [exec, execBrakeSetRising, hb, hs]; rfl
  have hr : s'.rct = s.rct := by rw [hs]
  refine ⟨fun h => ⟨_, e, ?_⟩, fun h hm => ⟨_, e, ?_⟩, fun h hm => ⟨_, e, brakeRise_idle (by rwa [hr]) (by rwa [hr])⟩⟩
  · rw [brakeRise_parks (by rwa [hr])]
    subst hs
    refine ⟨by simp [parkDrive], fun hp => by simp [parkDrive, hp], by simp [parkDrive], ?_, ?_⟩
    · exact handsRecord_of_same (by simp) (by simp) (by simp) (by simp)
    · intro f hf; cases f <;> simp_all [Field.same]
  · rw [brakeRise_converts (by rwa [hr]) (by rwa [hr]), hr]
    subst hs
    refine ⟨by simp [convertMode], by simp [convertMode, Hif.bothLow], ?_, ?_⟩
    · exact handsRecord_of_same (by simp) (by simp) (by simp) (by simp)
    · intro f hf; cases f <;> simp_all [Field.same]

theorem brakeFall_lifted {s : State} (h : s.rct.restart = .proving ∨ s.rct.restart = .normal ∧ s.hif.permit = false) :
    brakeFall s = liftedWithoutPermit s := by
  rcases h with h | ⟨h, hp⟩
  · simp [brakeFall, h]
  · simp [brakeFall, h, hp]

theorem brakeFall_records {s : State} (h : s.rct.restart.inSequence = true) (hm : s.rct.mode = .standstill) :
    brakeFall s = hoistRecord 5 s.rct.restart.code s := by
  rcases inSequence_cases.1 h with h | h | h | h | h | h <;> simp [brakeFall, h, hm]

theorem brakeFall_idle {s : State} (h : s.rct.restart = .normal ∧ s.hif.permit = true
    ∨ s.rct.restart.inSequence = true ∧ s.rct.mode = .rideThrough ∨ s.rct.restart = .arming ∨ s.rct.restart = .lockout
    ∨ s.rct.restart = .unarmed) : brakeFall s = s := by
  unfold brakeFall
  cases hr : s.rct.restart <;> simp_all [RestartState.inSequence]

/-- Settles O24: the fall acts by the restart state, and its record goes ahead of the lockout. -/
theorem brakeSetFallingActsByState : Obligations.BrakeSetFallingActsByState := by
  intro s s' hb hs
  have e : exec .brakeSetFalling s = .next (settle (brakeFall s')) := by
    simp only [exec, execBrakeSetFalling, hb, hs]; rfl
  have hr : s'.rct = s.rct ∧ s'.hif = s.hif := by rw [hs]; exact ⟨rfl, rfl⟩
  refine ⟨fun h => ⟨_, e, ?_⟩, fun h hm => ⟨_, e, ?_⟩, fun h => ⟨_, e, brakeFall_idle (by rwa [hr.1, hr.2])⟩⟩
  · rw [brakeFall_lifted (by rwa [hr.1, hr.2])]
    refine ⟨(lockout_spec 0 _ _).after, ?_⟩
    rw [← hr.1]
    exact handsFirst_of_follows (t := s') (by rw [hs]) (by rw [hs]) (by rw [hs]) (by rw [hs]) (enterLockout_follows _ _)
  · rw [brakeFall_records (by rwa [hr.1]) (by rwa [hr.1]), hr.1]
    refine ⟨handsRecord_of_same (by rw [hs]) (by rw [hs]) (by rw [hs]) (by rw [hs]), ?_⟩
    intro f hf; cases f <;> simp_all [Field.same]

/-! ## Time -/

/-- Settles O25: the tick is a change of the timers and of the count, block by block. -/
theorem msTickCounts : Obligations.MsTickCounts := by
  intro s
  refine ⟨_, rfl, by simp [millisecond, Rct.tick], fun i => by simp [millisecond], by simp [millisecond],
    fun h => ?_, fun h hn => ?_, fun h hn => ?_, ?_⟩
  · simp [millisecond, Itm.tick, h]
  · have : s.itm.subMillis + 1 < 1000 := by omega
    simp [millisecond, Itm.tick, h, Config.ticksPerSecond, this]
  · have : ¬s.itm.subMillis + 1 < 1000 := by omega
    simp [millisecond, Itm.tick, h, Config.ticksPerSecond, this]
  · intro f hf; cases f <;> simp_all [Field.same]

theorem phase_any {t : Phase → Bool} : Phase.all.any t = true ↔ ∃ p, t p = true := by
  simp only [Phase.all, List.any_cons, List.any_nil, Bool.or_false, Bool.or_eq_true]
  exact ⟨fun h => h.elim (⟨_, ·⟩) (·.elim (⟨_, ·⟩) (⟨_, ·⟩)), fun ⟨p, h⟩ => by cases p <;> simp [h]⟩

theorem anyExpired_iff {s : State} : anyExpired s = true ↔ ∃ p, windowExpired (s.fin.lines.get p) = true := phase_any

/-- The expired windows stop (R82). -/
def stopExpired (s : State) : State :=
  s.onFin fun f => { f with lines := f.lines.map fun l => if windowExpired l then { l with window := l.window.stop } else l }

theorem takeIdentExpiry_eq (s : State) : takeIdentExpiry s = identificationReport (anyExpired s) (stopExpired s) := rfl

theorem stopExpired_lines (s : State) (p : Phase) :
    (stopExpired s).fin.lines.get p = if windowExpired (s.fin.lines.get p) then
      { s.fin.lines.get p with window := (s.fin.lines.get p).window.stop } else s.fin.lines.get p := by
  simp [stopExpired]

theorem identificationReport_idle {expired : Bool} {s : State} (h : s.rct.restart ≠ .tripped) : identificationReport expired s = s :=
  if_neg h

theorem identificationReport_expired {s : State} (h : s.rct.restart = .tripped) :
    identificationReport true s = enterLockout .unidentified s := by
  simp [identificationReport, h]

/-- The windows of the intake do not bear on a lockout, which stops them. -/
theorem LocksOut.of_fin {n : Nat} {c : LockoutCause} {f : Intake} {s u : State} (h : LocksOut n c { s with fin := f } u)
    (hs : f.slots = s.fin.slots) (hl : ∀ p, (f.lines.get p).lastLevel = (s.fin.lines.get p).lastLevel) : LocksOut n c s u := by
  have memory := h.memory.of_same (s := s) (u' := u) (fun b => rfl) rfl rfl rfl rfl id
  have others := h.others.grow (s := s) (.of_wen rfl) (.refl u)
  exact { h with
    others := others, memory := memory, intake := h.intake.trans hs, record := h.record.of_log rfl
    lines := fun p => ⟨(h.lines p).1, (h.lines p).2.1, (h.lines p).2.2.trans (hl p)⟩
    holder := fun hw => h.holder fun hw' => hw ((Writing.iff_of_same fun b => rfl).1 hw')
    kept := fun g hg => by have := h.kept g hg; cases g <;> first | exact absurd (by decide) hg | exact this }

theorem lockout_unidentified (s : State) : LocksOut 0 .unidentified s (enterLockout .unidentified (stopExpired s)) := by
  refine (lockout_spec 0 .unidentified (stopExpired s)).of_fin (f := (stopExpired s).fin) rfl fun p => ?_
  rw [stopExpired_lines]
  split <;> rfl

/-- Settles O28: a conversion, changes of one timer, and three entries to LOCKOUT. -/
theorem expiriesTakeTheirEffect : Obligations.ExpiriesTakeTheirEffect := by
  refine ⟨fun s => ⟨fun h hm hr => ⟨_, if_pos ⟨h, hm, hr⟩, by simp [convertMode], by simp [convertMode, Hif.bothLow], ?_, ?_⟩,
    fun i h => ⟨_, if_pos h, ?_, ?_, ?_, ?_⟩, fun i h => ⟨_, if_pos h, ?_, ?_, ?_⟩⟩,
    fun s => ⟨fun h hr => ⟨_, if_pos ⟨h, hr⟩, lockout_spec ..⟩, fun h hr => ⟨_, if_pos ⟨h, hr⟩, lockout_spec ..⟩,
      fun he hx hr => ⟨_, if_pos ⟨he, anyExpired_iff.2 hx⟩, ?_⟩, fun he hx hr => ⟨_, if_pos ⟨he, anyExpired_iff.2 hx⟩, ?_⟩⟩⟩
  · exact convertMode_hands 1 0 s
  · intro f hf; cases f <;> simp_all [Field.same]
  · simp [PerSlot.get_modify]
  · intro j hj; simp [PerSlot.get_modify, hj]
  · simp
  · intro f hf; cases f <;> simp_all [Field.same]
  · simp [PerSlot.get_modify]
  · intro j hj; simp [PerSlot.get_modify, hj]
  · intro f hf; cases f <;> simp_all [Field.same]
  · rw [takeIdentExpiry_eq, anyExpired_iff.2 hx, identificationReport_expired (s := stopExpired s) hr]
    exact lockout_unidentified s
  · rw [takeIdentExpiry_eq, identificationReport_idle (s := stopExpired s) hr]
    refine ⟨stopExpired_lines s, rfl, ?_⟩
    intro f hf; cases f <;> simp_all [Field.same, stopExpired]

end Sys2Proof.Machine
end

