-- ==== Sys2Proof/Proofs/ReturnsToAwaiting.lean ====
section
/-! The returns to AWAITING with a block-all (R106, R153, R162), and the control period. -/

namespace Sys2Proof.Machine

/-! ## What a cancellation behind a block-all leaves -/

/-- The jobs of some kinds are cancelled, and nothing else is lost or cut. -/
structure Stays (p : JobKind → Bool) (s u : State) : Prop where
  others : OtherJobsStay p s u
  memory : CutsOnly p s u
  holder : ¬Writing p s → u.mpa.holder = s.mpa.holder

theorem Stays.grow {p : JobKind → Bool} {s t u : State} (h : Stays p s t) (g : JobsGrow t u) (hm : u.mem = t.mem)
    (hc : u.cuts = t.cuts) (hh : u.mpa.holder = t.mpa.holder) : Stays p s u :=
  ⟨h.others.grow (.refl s) g, h.memory.of_same (fun _ => rfl) rfl rfl hm hc (by rw [hh]; exact id),
    fun hw => hh.trans (h.holder hw)⟩

theorem Stays.of_same {p : JobKind → Bool} {s s' u : State} (h : Stays p s' u) (g : JobsGrow s s') (hm : s'.mem = s.mem)
    (hc : s'.cuts = s.cuts) (hh : s'.mpa.holder = s.mpa.holder) : Stays p s u :=
  ⟨h.others.grow g (.refl u), h.memory.of_same g.buffer hm hc rfl rfl id,
    fun hw => (h.holder (by rwa [Writing.iff_of_same g.buffer])).trans hh⟩

theorem stays_abandon (s : State) : Stays (· == .release) s (abandonRelease (blockAll s)) := by
  obtain ⟨h1, h2⟩ := cutsOnly_cancel (· == .release) (blockAll s)
  have h : Stays (· == .release) (blockAll s) (cancel (· == .release) (blockAll s)) :=
    ⟨otherJobsStay_cancel _ _, h1, fun hw => by rw [h2 hw]⟩
  have h' := h.of_same (.blockAll s) (by simp) (by simp) (by simp)
  exact h'.grow (.of_wen rfl) rfl rfl rfl

theorem abandon_blocks (s : State) : BlocksAll s.mpl.slots (abandonRelease (blockAll s)) :=
  (blocksAll_blockAll s).imp id fun h => h.cancel (· == .release) rfl

theorem abandon_noRelease (s : State) : NoJobsOf (· == .release) (abandonRelease s) := noJobsOf_cancel (· == .release) s

theorem abandon_follows (s : State) : LogFollows s (abandonRelease (blockAll s)) :=
  .of_stays (by simp) (stays_abandon s).others fun _ => ofLog_release

/-! ## The entry to AWAITING -/

/-- The test of R148 does nothing, or it starts the release. -/
theorem testAwaiting_cases (s : State) : testAwaiting s = s
    ∨ (s.rct.restart = .awaiting ∧ freshComplete s = true ∧ s.hif.stale < 3 ∧ noFaultPending s = true)
      ∧ testAwaiting s = enterResuming s := by
  unfold testAwaiting
  split
  · next h => exact .inr ⟨h, rfl⟩
  · exact .inl rfl

theorem testAwaiting_idle {s : State} (h : s.rct.restart = .awaiting → freshComplete s = false ∨ 3 ≤ s.hif.stale
    ∨ noFaultPending s = false) : testAwaiting s = s := by
  refine if_neg ?_
  rintro ⟨h1, h2, h3, h4⟩
  rcases h h1 with h | h | h
  · simp [h] at h2
  · omega
  · simp [h] at h4

theorem submitRelease_grows (s : State) : JobsGrow s (submitRelease s) := by
  refine ⟨fun c => ?_, fun b => by simp [submitRelease_eq], rfl⟩
  simp only [submitRelease_eq, Wen.append, Wen.setJobs_jobs]
  split
  · next h => subst h; exact List.prefix_append ..
  · exact List.prefix_refl _

theorem enterResuming_grows (s : State) : JobsGrow s (enterResuming s) := (enter_grows ..).trans (submitRelease_grows _)

theorem enterResuming_follows (s : State) : LogFollows s (enterResuming s) :=
  .of_grows (enter_writeList .resuming noSlot s.rct.mode.code s) (enterResuming_grows s)

theorem testAwaiting_grows (s : State) : JobsGrow s (testAwaiting s) := by
  rcases testAwaiting_cases s with e | ⟨-, e⟩ <;> rw [e]
  · exact .refl s
  · exact enterResuming_grows s

theorem testAwaiting_follows (s : State) : LogFollows s (testAwaiting s) := by
  rcases testAwaiting_cases s with e | ⟨-, e⟩ <;> rw [e]
  · exact .of_same rfl rfl
  · exact enterResuming_follows s

theorem startAwaiting_rct (reason : Word) (s : State) :
    (startAwaiting reason s).rct = { s.rct.leave .awaiting with restart := .awaiting, fresh := .load s.plan.freshTimeout } := by
  simp [startAwaiting, enter_rct]

theorem startAwaiting_hif (reason : Word) (s : State) :
    (startAwaiting reason s).hif = { (if s.rct.mode = .standstill then s.hif.dropPermit else s.hif) with
      driveHealthy := s.rct.mode == .rideThrough } := by
  simp only [startAwaiting, State.onRct_hif, enter_hif]
  rw [hif_enter_of_not_proof _ (by simp)]
  cases s.rct.mode <;> rfl

theorem startAwaiting_grows (reason : Word) (s : State) : JobsGrow s (startAwaiting reason s) :=
  (enter_grows ..).trans (.of_wen rfl)

theorem startAwaiting_follows (reason : Word) (s : State) : LogFollows s (startAwaiting reason s) :=
  (enter_follows ..).trans (.of_same rfl rfl)

theorem startAwaiting_record {n : Nat} {reason : Word} {s t u : State} (hl : t.log = s.log) (hi : t.itm = s.itm)
    (h : LogFollows (startAwaiting reason t) u) (g : JobsGrow (startAwaiting reason t) u) :
    RecordMade (n + 1) .sequence (sequenceWords .awaiting noSlot reason s) s u :=
  recordMade_enter (by decide) (by decide) hl hi h.writeList
    ((JobsGrow.of_wen (s := enter .awaiting noSlot reason t) (t := startAwaiting reason t) rfl).trans g)

theorem startAwaiting_noJobsOf {p : JobKind → Bool} {s : State} (reason : Word) (h : NoJobsOf p s)
    (hp : ∀ c, p (.logRecord c) = false) (hh : p .logHeader = false) : NoJobsOf p (startAwaiting reason s) :=
  enter_noJobsOf .awaiting noSlot reason s h hp hh

theorem startAwaiting_latches {s : State} (h : s.rct.restart.latching = true) (reason : Word) :
    (startAwaiting reason s).bpu.latches = PerPhase.all none := by
  simp [startAwaiting, enter_latches, h, show RestartState.awaiting.latching = false from rfl]

theorem JobsGrow.blocksAll {s t : State} (g : JobsGrow s t) {m : SlotMap} (h : BlocksAll m s) : BlocksAll m t :=
  h.imp id g.jobListed

/-! ## The control period (R161 to R163) -/

theorem periodEnded_quiet {s : State} (h : s.hif.tagChanged = true ∨ s.hif.stale ≠ 2) :
    periodEnded s = s.onHif (Hif.endPeriod s.plan.controlPeriod) := by
  rcases h with h | h <;> simp [periodEnded, h]

theorem periodEnded_stale {s : State} (h : s.hif.tagChanged = false) (h2 : s.hif.stale = 2) :
    periodEnded s = stalenessEvent (logRecord .host 8 noSlot s.hif.lastTag (s.onHif (Hif.endPeriod s.plan.controlPeriod))) := by
  simp [periodEnded, h, h2, Hif.endPeriod]

theorem stalenessEvent_idle {s : State} (h : s.plan.staleTrip = false ∧ s.rct.restart ≠ .resuming
    ∨ s.plan.staleTrip = true ∧ (s.rct.restart = .unarmed ∨ s.rct.restart = .arming ∨ s.rct.restart = .lockout)) :
    stalenessEvent s = s := by
  rcases h with ⟨ht, h⟩ | ⟨ht, h | h | h⟩
  · simp only [stalenessEvent, ht]
    cases hr : s.rct.restart <;> simp_all
  all_goals simp [stalenessEvent, ht, h]

theorem stalenessEvent_lockout {s : State} (ht : s.plan.staleTrip = true) (h1 : s.rct.restart ≠ .unarmed)
    (h2 : s.rct.restart ≠ .arming) (h3 : s.rct.restart ≠ .lockout) : stalenessEvent s = enterLockout .hostStale s := by
  simp only [stalenessEvent, ht]
  cases hr : s.rct.restart <;> simp_all

theorem stalenessEvent_abandons {s : State} (ht : s.plan.staleTrip = false) (h : s.rct.restart = .resuming) (hs : 3 ≤ s.hif.stale) :
    stalenessEvent s = startAwaiting 2 (abandonRelease (blockAll s)) := by
  have : stalenessEvent s = returnToAwaiting 2 s := by simp [stalenessEvent, ht, h]
  rw [this, returnToAwaiting, enterAwaiting]
  refine testAwaiting_idle fun _ => .inr (.inl ?_)
  rw [startAwaiting_hif]
  split <;> simpa using hs

/-- What a release that is abandoned leaves, with the return to AWAITING (R153). -/
structure ReturnsToAwaiting (s u : State) : Prop where
  blocked : BlocksAll s.mpl.slots u
  stays : Stays (· == .release) s u
  follows : LogFollows s u

theorem returns_startAwaiting (reason : Word) (s : State) :
    ReturnsToAwaiting s (startAwaiting reason (abandonRelease (blockAll s))) :=
  have g := startAwaiting_grows reason (abandonRelease (blockAll s))
  ⟨g.blocksAll (abandon_blocks s), (stays_abandon s).grow g (by simp) (by simp) (by simp),
    (abandon_follows s).trans (startAwaiting_follows ..)⟩

/-- Settles O31: the count, the record, and the staleness event by stale mode and state. -/
theorem controlPeriodsCountStaleness : Obligations.ControlPeriodsCountStaleness := by
  intro s h hd hh
  have e : exec .controlPeriodEnd s = .next (settle (periodEnded s)) := if_pos hd
  have eh : s.onHif (Hif.endPeriod s.plan.controlPeriod) = { s with hif := h } := by rw [hh]; rfl
  refine ⟨fun hq => ⟨_, e, by rw [periodEnded_quiet hq, eh]⟩, fun ht h2 => ?_⟩
  rw [periodEnded_stale ht h2, eh] at e
  have hs : h.stale = 3 := by rw [hh]; simp [ht, h2, boundedInc]
  generalize hv : logRecord .host 8 noSlot s.hif.lastTag { s with hif := h } = v at e
  have hrec : Records { s with hif := h } v := hv ▸ records_logRecord ..
  have idle : stalenessEvent v = v → CompletesAs .controlPeriodEnd s fun u =>
      u.hif = h ∧ HandsRecord .host 8 noSlot s.hif.lastTag s u ∧ KeepsAllBut [.hif, .wen, .log] s u := by
    intro ei
    rw [ei] at e
    refine ⟨v, e, by simp [← hv], hv ▸ handsRecord_of_same rfl rfl rfl rfl, ?_⟩
    intro f hf; cases f <;> simp_all [Field.same, ← hv]
  have hr : v.rct = s.rct ∧ v.plan = s.plan := by simp [← hv]
  refine ⟨fun hp hn => idle (stalenessEvent_idle (.inl (by rw [hr.1, hr.2]; exact ⟨hp, hn⟩))), fun hp hn => ?_,
    fun hp h1 h3 h4 => ?_, fun hp hn => idle (stalenessEvent_idle (.inr (by rw [hr.1, hr.2]; exact ⟨hp, hn⟩)))⟩
  · have hvs : v.hif = h := by simp [← hv]
    rw [stalenessEvent_abandons (by rw [hr.2, hp]) (by rw [hr.1, hn]) (by rw [hvs, hs])] at e
    obtain ⟨hb, hst, hf⟩ := returns_startAwaiting 2 v
    have hst := hst.of_same (s := s) ((JobsGrow.of_wen (s := s) (t := { s with hif := h }) rfl).trans hrec.jobsGrow) (by simp [← hv]) (by simp [← hv]) (by simp [← hv])
    have hrel : NoJobsOf (· == .release) (startAwaiting 2 (abandonRelease (blockAll v))) :=
      startAwaiting_noJobsOf 2 (abandon_noRelease (blockAll v)) (by simp) (by simp)
    refine ⟨_, e, ?_, by simpa [← hv] using hb, hrel, ?_, ?_, startAwaiting_latches ?_ 2, ?_, ?_, ?_, ?_, hst.memory, hst.others,
      hst.holder, ?_⟩
    · simp [startAwaiting_rct, Rct.leave, hr, hn]
    · simp [startAwaiting, abandonRelease, clearRelease]
    · simp [startAwaiting, abandonRelease, clearRelease]
    · simp [hr, hn, RestartState.latching]
    · exact handsFirst_of_follows (t := { s with hif := h }) rfl rfl rfl rfl (hv ▸ hf)
    · have := startAwaiting_record (n := 0) (reason := 2) (s := v) (t := abandonRelease (blockAll v)) (by simp) (by simp)
        (.of_same rfl rfl) (.refl _)
      have hw : sequenceWords .awaiting noSlot 2 v = sequenceWords .awaiting noSlot 2 s := by simp [sequenceWords, ← hv]
      rw [hw, ← hv] at this
      exact (this.after (s := { s with hif := h })).of_log rfl |> fun k => hv ▸ k
    · simp [startAwaiting_hif, hr]
    · rw [startAwaiting_hif]
      split <;> simp [hvs, hs]
    · intro f hf; cases f <;> simp_all [Field.same, ← hv]
  · rw [stalenessEvent_lockout (by rw [hr.2, hp]) (by rwa [hr.1]) (by rwa [hr.1]) (by rwa [hr.1])] at e
    refine ⟨_, e, hv ▸ (lockout_spec 0 _ _).after, ?_⟩
    exact handsFirst_of_follows (t := { s with hif := h }) rfl rfl rfl rfl (hv ▸ enterLockout_follows _ _)

end Sys2Proof.Machine
end

