-- ==== Sys2Proof/Proofs/DeliveredWrites.lean ====
section
/-! The commands of the delivered watched writes (R41 to R43, R106, R160 to R162, R173). -/

namespace Sys2Proof.Machine

/-! ## The release that the test of AWAITING starts (R148, R150) -/

theorem freshComplete_congr {s t : State} (hm : t.mpl = s.mpl) (hr : t.rfs = s.rfs) : freshComplete t = freshComplete s := by
  simp only [freshComplete, slotOfRecord, hm, hr]

theorem noFaultPending_congr {s t : State} (hr : t.rct.pendingFaults = s.rct.pendingFaults) (hl : t.fin = s.fin) :
    noFaultPending t = noFaultPending s := by
  simp only [noFaultPending, hr, hl]

theorem referenceWrites_congr {s t : State} (hk : t.mpl.k = s.mpl.k) (hm : t.mpl.slots = s.mpl.slots) :
    referenceWrites t = referenceWrites s := by
  simp only [referenceWrites, slotOfRecord, hk, hm]

theorem enterResuming_rct {s : State} (h : s.rct.restart = .awaiting) :
    (enterResuming s).rct = { s.rct with restart := .resuming, fresh := s.rct.fresh.stop } := by
  simp [enterResuming, enter_rct, Rct.leave, h]

theorem enterResuming_hif (s : State) :
    (enterResuming s).hif = { (if s.rct.mode = .standstill then s.hif.dropPermit else s.hif) with
      driveHealthy := s.rct.mode == .rideThrough } := by
  simp only [enterResuming, submitRelease_frame, enter_hif]
  rw [hif_enter_of_not_proof _ (by simp)]
  cases s.rct.mode <;> rfl

theorem enterResuming_release (s : State) : (enterResuming s).rfs.cursor = none
    ∧ (enterResuming s).rfs.stage = some (if referenceWrites s = [] then .auxiliary false else .references)
    ∧ JobListed .release (referenceWrites s) (enterResuming s) := by
  have e : referenceWrites (enter .resuming noSlot s.rct.mode.code s) = referenceWrites s := referenceWrites_congr (by simp) (by simp)
  refine ⟨rfl, by rw [← e]; rfl, ?_⟩
  rw [← e, enterResuming, submitRelease_eq]
  exact List.mem_append_right _ (List.mem_singleton_self _)

/-! ## The level of IRQ_N (R173) -/

theorem updateIrq_low (l : Log) : l.updateIrq.irqN = false ↔ l.irqHeld = false ∧
    ∃ n, n < (l.written + l.capacity - l.consumer) % l.capacity
      ∧ l.marks.getD ((l.consumer + n) % l.capacity) false = true := by
  simp [Log.updateIrq, Log.irqLevel, Log.unconsumed]

/-! ## The deliveries -/

theorem dropDelivery_eq {s : State} {d : Delivery} {rest : List Delivery} (h : s.bpu.deliveries = d :: rest) :
    dropDelivery s = { s with bpu := { s.bpu with deliveries := rest } } := by
  simp [dropDelivery, State.onBpu, h]

/-- Settles O44: a new tag clears the count, and a return of the host tests AWAITING again. -/
theorem periodTagsClearStaleness : Obligations.PeriodTagsClearStaleness := by
  rintro s v rest b hd rfl
  have e : exec .periodTagWrite s = .next (settle (takePeriodTag v { s with bpu := { s.bpu with deliveries := rest } })) := by
    simp only [exec, execPeriodTagWrite, hd, dropDelivery_eq hd]
  generalize hs : ({ s with bpu := { s.bpu with deliveries := rest } } : State) = s' at e
  refine ⟨fun hv => ⟨_, e, ?_⟩, fun hv => ?_⟩
  · rw [takePeriodTag, if_pos (by rw [← hs]; exact hv.symm)]
  have hv' : ¬s'.hif.lastTag = v := by rw [← hs]; exact fun h => hv h.symm
  refine ⟨fun h3 => ⟨_, e, ?_⟩, fun h3 hn => ⟨_, e, ?_⟩, fun h3 ha hf hp => ⟨_, e, ?_⟩⟩
  · have : ¬3 ≤ s'.hif.stale := by rw [← hs]; exact Nat.not_le.2 h3
    simp only [takePeriodTag, hv', this, decide_false, ite_false, Bool.false_eq_true]
    rw [← hs]; rfl
  all_goals
    generalize ht : s'.onHif (fun h => { h with lastTag := v, tagChanged := true, stale := 0 }) = t
    have et : takePeriodTag v s' = testAwaiting (logRecord .host 9 noSlot v t) := by
      have : 3 ≤ s'.hif.stale := by rw [← hs]; exact h3
      simp only [takePeriodTag, hv', this, decide_true, ite_true, ite_false, ht]
    rw [et]
    have fresh : freshComplete (logRecord .host 9 noSlot v t) = freshComplete s :=
      freshComplete_congr (by simp [← ht, ← hs]) (by simp [← ht, ← hs])
    have pending : noFaultPending (logRecord .host 9 noSlot v t) = noFaultPending s :=
      noFaultPending_congr (by simp [← ht, ← hs]) (by simp [← ht, ← hs])
    have hr : t.rct = s.rct := by simp [← ht, ← hs]
  · rw [testAwaiting_idle (by rw [fresh, pending]; simp only [logRecord_frame, hr]; tauto)]
    refine ⟨by simp [← ht, ← hs], by simp [← ht, ← hs], ?_, ?_⟩
    · exact handsRecord_of_same (by simp [← ht, ← hs]) (by simp [← ht, ← hs]) (by simp [hr]) (by simp [← ht, ← hs])
    · intro f hf; cases f <;> simp_all [Field.same, ← ht, ← hs]
  · have ha' : (logRecord .host 9 noSlot v t).rct.restart = .awaiting := by simp [hr, ha]
    have et : testAwaiting (logRecord .host 9 noSlot v t) = enterResuming (logRecord .host 9 noSlot v t) :=
      if_pos ⟨ha', fresh ▸ hf, by simp [← ht], pending ▸ hp⟩
    obtain ⟨hc, hst, -⟩ := enterResuming_release (logRecord .host 9 noSlot v t)
    rw [et]
    refine ⟨by rw [enterResuming_rct ha']; simp [hr], ?_, ?_, ?_, by rw [hst]; simp, hc⟩
    · rw [enterResuming_hif]; split <;> simp [← ht]
    · rw [enterResuming_hif]; split <;> simp [← ht]
    · exact handsFirst_of_follows (by simp [← ht, ← hs]) (by simp [← ht, ← hs]) (by simp [hr]) (by simp [← ht, ← hs])
        (enterResuming_follows _)

/-! ## A direction change (R106) -/

theorem dropRecord_jobs3 (s : State) : (dropRecord s).wen.jobs3
    = if noOverflowJob s.wen.jobs3 then s.wen.jobs3 ++ [⟨.logHeader, [overflowWrite], false⟩] else s.wen.jobs3 := by
  unfold dropRecord
  split
  · next h => exact queueOverflowHeader_of_none h
  · next h => exact queueOverflowHeader_of_some (by simpa using h)

/-- A header job of word 3 is the Log Unit's. -/
theorem noOverflowJob_mono {js is : List Job} (h : ∀ j ∈ is, j.kind.ofLog = true → j ∈ js) (hn : noOverflowJob js = true) :
    noOverflowJob is = true := by
  simp only [noOverflowJob, Bool.not_eq_true', List.any_eq_false] at hn ⊢
  intro j hj hp
  refine hn j (h j hj ?_) hp
  simp only [Bool.and_eq_true, beq_iff_eq] at hp
  rw [hp.1]; rfl

/-- The job a record makes depends on the log, and on whether a header job is pending. -/
theorem logRecord_newJob {c : Category} {code slot arg : Word} {s t : State} (hl : t.log = s.log)
    (hj : ∀ j ∈ t.wen.jobs3, j.kind.ofLog = true → j ∈ s.wen.jobs3) (hr : t.rct.restart = s.rct.restart) (hi : t.itm = s.itm)
    {j : Job} (h : j ∈ (logRecord c code slot arg s).wen.jobs3) (hn : j ∉ s.wen.jobs3) :
    j ∈ (logRecord c code slot arg t).wen.jobs3 := by
  have hf : logFull t = logFull s := by simp only [logFull, hl]
  have hw : recordWords c code slot arg t = recordWords c code slot arg s := by simp only [recordWords, hr, hi]
  have joined : ∀ {l : List Job} {i : Job}, j ∈ l ++ [i] → j ∉ l → j = i := fun h hn => by
    rcases List.mem_append.1 h with h | h
    · exact absurd h hn
    · exact List.mem_singleton.1 h
  by_cases hrun : s.log.running = true
  · cases hfull : logFull s with
    | true =>
      rw [logRecord, handRecord_full false c code slot arg hrun hfull, dropRecord_jobs3] at h
      rw [logRecord, handRecord_full false c code slot arg (hl ▸ hrun) (hf ▸ hfull), dropRecord_jobs3]
      split at h
      · next hnone =>
        rw [joined h hn, if_pos (noOverflowJob_mono hj hnone)]
        simp
      · exact absurd h hn
    | false =>
      rw [logRecord, (handRecord_room false c code slot arg hrun hfull).2] at h
      rw [logRecord, (handRecord_room false c code slot arg (hl ▸ hrun) (hf ▸ hfull)).2, joined h hn, hl, hw]
      simp
  · have : logRecord c code slot arg s = s := by simp [logRecord, handRecord, hrun]
    rw [this] at h
    exact absurd h hn

/-- The log after a record depends on the log alone. -/
theorem logRecord_log_congr {c : Category} {code slot arg : Word} {s t : State} (hl : t.log = s.log) :
    (logRecord c code slot arg t).log = (logRecord c code slot arg s).log := by
  have hf : logFull t = logFull s := by simp only [logFull, hl]
  by_cases hrun : s.log.running = true
  · cases hfull : logFull s with
    | true =>
      simp only [logRecord, handRecord_full false c code slot arg hrun hfull,
        handRecord_full false c code slot arg (hl ▸ hrun) (hf ▸ hfull)]
      simp [dropRecord, hl]
    | false =>
      rw [logRecord, logRecord, (handRecord_room false c code slot arg hrun hfull).1,
        (handRecord_room false c code slot arg (hl ▸ hrun) (hf ▸ hfull)).1, hl]
  · simp [logRecord, handRecord, hl, hrun]

/-- A record behind a cancellation that spares the jobs of the Log Unit. -/
theorem handsFirst_behind {c : Category} {code slot arg : Word} {s t u : State} (hl : t.log = s.log)
    (hj : ∀ j ∈ t.wen.jobs3, j.kind.ofLog = true → j ∈ s.wen.jobs3) (hr : t.rct.restart = s.rct.restart) (hi : t.itm = s.itm)
    (h : LogFollows (logRecord c code slot arg t) u) : HandsFirst c code slot arg s u :=
  ⟨logRecord_log_congr hl ▸ h.writeList, fun j h1 h2 =>
    h.jobs j (logRecord_newJob hl hj hr hi h1 h2) ((records_logRecord c code slot arg s).new_jobs h1 h2)⟩

theorem abandon_logJobs (s : State) : ∀ j ∈ (abandonRelease (blockAll s)).wen.jobs3, j.kind.ofLog = true → j ∈ s.wen.jobs3 := by
  intro j hj _
  have hj : j ∈ (cancel (· == .release) (blockAll s)).wen.jobs .three := hj
  rw [cancel_jobs] at hj
  have hb : (blockAll s).wen.jobs .three = s.wen.jobs .three := by
    simp [blockAll, submit_jobs, JobKind.cls]
  rw [hb] at hj
  exact (List.mem_filter.1 hj).1

/-- The change of direction in RESUMING or PROVING, where the release is abandoned (R106, R153). -/
def directionReturn (s : State) : State := enterAwaiting 1 (clearMarks (abandonRelease (blockAll s)))

theorem returns_grow {s t u : State} (h : ReturnsToAwaiting s t) (g : JobsGrow t u) (f : LogFollows t u) (hm : u.mem = t.mem)
    (hc : u.cuts = t.cuts) (hh : u.mpa.holder = t.mpa.holder) : ReturnsToAwaiting s u :=
  ⟨g.blocksAll h.blocked, h.stays.grow g hm hc hh, h.follows.trans f⟩

theorem freshComplete_cleared {s : State} (h : ∃ i, indexOf i < s.mpl.k ∧ slotOfRecord s i ≠ none)
    (hm : s.rfs.amplitudeMark = PerSlot.all false) : freshComplete s = false := by
  obtain ⟨i, hi, hs⟩ := h
  rw [← Bool.not_eq_true, freshComplete_iff]
  intro hall
  have := (hall i hi hs).1
  simp [hm] at this

end Sys2Proof.Machine
end

