-- ==== Sys2Proof/Proofs/DirectionAndProof.lean ====
section
/-! The other delivered writes: the direction, the proof event, the restart enable, the capture and the consumer words. -/

namespace Sys2Proof.Machine

/-! ## A direction change in RESUMING or PROVING (R106, R153) -/

/-- The state of a direction change as it enters AWAITING, ahead of the test of R148. -/
def directionAwaits (s : State) : State := startAwaiting 1 (clearMarks (abandonRelease (blockAll s)))

theorem directionReturn_eq (s : State) : directionReturn s = testAwaiting (directionAwaits s) := rfl

theorem directionAwaits_rct {s : State} (h : s.rct.restart = .resuming ∨ s.rct.restart = .proving) :
    (directionAwaits s).rct = { s.rct with
      restart := .awaiting, fresh := .load s.plan.freshTimeout
      proving := if s.rct.restart = .proving then s.rct.proving.stop else s.rct.proving } := by
  have e : (clearMarks (abandonRelease (blockAll s))).rct = s.rct := by simp
  have ep : (clearMarks (abandonRelease (blockAll s))).plan = s.plan := by simp
  rw [directionAwaits, startAwaiting_rct, e, ep]
  rcases h with h | h <;> simp [Rct.leave, h]

theorem directionAwaits_returns (s : State) : ReturnsToAwaiting s (directionAwaits s) := by
  have h : ReturnsToAwaiting s (clearMarks (abandonRelease (blockAll s))) :=
    ⟨(JobsGrow.of_wen rfl).blocksAll (abandon_blocks s), (stays_abandon s).grow (.of_wen rfl) rfl rfl rfl,
      (abandon_follows s).trans (.of_same rfl rfl)⟩
  exact returns_grow h (startAwaiting_grows ..) (startAwaiting_follows ..) (by simp [directionAwaits])
    (by simp [directionAwaits]) (by simp [directionAwaits])

theorem directionReturn_returns (s : State) : ReturnsToAwaiting s (directionReturn s) :=
  returns_grow (directionAwaits_returns s) (testAwaiting_grows _) (testAwaiting_follows _) (by simp [directionReturn_eq])
    (by simp [directionReturn_eq]) (by simp [directionReturn_eq])

theorem directionAwaits_marks (s : State) : (directionAwaits s).rfs.amplitudeMark = PerSlot.all false
    ∧ (directionAwaits s).rfs.angleMark = PerSlot.all false ∧ (directionAwaits s).rfs.stage = none
    ∧ (directionAwaits s).rfs.cursor = none := by
  simp [directionAwaits, clearMarks, abandonRelease, clearRelease]

/-- What the test of R148 may change behind the entry. -/
theorem directionReturn_cases (s : State) :
    directionReturn s = directionAwaits s ∨ directionReturn s = enterResuming (directionAwaits s) :=
  (testAwaiting_cases _).imp id (·.2)

theorem directionReturn_rct {s : State} (h : s.rct.restart = .resuming ∨ s.rct.restart = .proving) :
    (directionReturn s).rct.direction = s.rct.direction ∧ (directionReturn s).rct.directionAtTrip = s.rct.directionAtTrip
      ∧ (directionReturn s).rct.mode = s.rct.mode ∧ (directionReturn s).rct.passCount = s.rct.passCount := by
  have hr := directionAwaits_rct h
  rcases directionReturn_cases s with e | e <;> rw [e]
  · rw [hr]; exact ⟨rfl, rfl, rfl, rfl⟩
  · rw [enterResuming_rct (by rw [hr]), hr]; exact ⟨rfl, rfl, rfl, rfl⟩

theorem directionReturn_outputs {s : State} (h : s.rct.restart = .resuming ∨ s.rct.restart = .proving)
    (hm : s.rct.mode = .standstill) : (directionReturn s).hif.driveHealthy = false ∧ (directionReturn s).hif.permit = false := by
  have hv : (directionAwaits s).rct.mode = .standstill := by rw [directionAwaits_rct h]; exact hm
  rcases directionReturn_cases s with e | e <;> rw [e]
  · have : (clearMarks (abandonRelease (blockAll s))).rct.mode = .standstill := by simp [hm]
    simp [directionAwaits, startAwaiting_hif, hm]
  · simp [enterResuming_hif, hv]

theorem directionReturn_latches {s : State} (h : s.rct.restart = .resuming ∨ s.rct.restart = .proving) :
    (directionReturn s).bpu.latches = PerPhase.all none := by
  have hl : (directionAwaits s).bpu.latches = PerPhase.all none :=
    startAwaiting_latches (by rcases h with h | h <;> simp [h, RestartState.latching]) 1
  have hr : (directionAwaits s).rct.restart = .awaiting := by rw [directionAwaits_rct h]
  rcases directionReturn_cases s with e | e <;> rw [e]
  · exact hl
  · simp [enterResuming, enter_latches, hr, hl, RestartState.latching]

theorem directionReturn_record {s t : State} (hl : t.log = s.log) (hw : t.wen = s.wen) (hr : s.rct.restart = .awaiting)
    (hi : t.itm = s.itm) : HandsFirst .sequence RestartState.awaiting.code noSlot 1 s (directionReturn t) := by
  obtain ⟨x, e, xl, xw, xi, xr⟩ := enter_sequence (new := .awaiting) (by decide) (by decide) noSlot 1
    (clearMarks (abandonRelease (blockAll t)))
  refine handsFirst_behind (t := x) (by rw [xl]; simpa using hl) (fun j hj hk => ?_) (xr.trans hr.symm) (by rw [xi]; simpa using hi) ?_
  · rw [xw] at hj
    exact hw ▸ abandon_logJobs t j hj hk
  · rw [← e]
    exact LogFollows.trans (t := directionAwaits t) (.of_same rfl rfl) (testAwaiting_follows _)

theorem directionReturn_idle {s : State} (h : ∃ i, indexOf i < s.mpl.k ∧ slotOfRecord s i ≠ none) :
    directionReturn s = directionAwaits s := by
  refine testAwaiting_idle fun _ => .inl (freshComplete_cleared ?_ (directionAwaits_marks s).1)
  simpa [directionAwaits, slotOfRecord] using h

theorem directionReturn_kept (s : State) : KeepsAllBut [.mem, .latches, .needs, .counts, .holder, .rct, .phases,
    .amplitudeMark, .angleMark, .cursor, .stage, .wen, .hif, .log, .cuts] s (directionReturn s) := by
  intro f hf
  cases f <;> simp_all [Field.same, directionReturn]

theorem directionChanged_idle {s : State} (h : s.rct.restart = .normal ∨ s.rct.restart = .lockout) : directionChanged s = s := by
  rcases h with h | h <;> simp [directionChanged, h]

theorem directionChanged_clears {s : State} (h : s.rct.restart = .arming ∨ s.rct.restart = .tripped ∨ s.rct.restart = .isolating
    ∨ s.rct.restart = .recharging ∨ s.rct.restart = .verifying) : directionChanged s = clearMarks s := by
  rcases h with h | h | h | h | h <;> simp [directionChanged, h]

theorem directionChanged_restarts {s : State} (h : s.rct.restart = .awaiting) :
    directionChanged s = (clearMarks s).onRct fun r => { r with fresh := .load s.plan.freshTimeout } := by
  simp [directionChanged, h]

theorem directionChanged_returns {s : State} (h : s.rct.restart = .resuming ∨ s.rct.restart = .proving) :
    directionChanged s = directionReturn s := by
  rcases h with h | h <;> simp [directionChanged, directionReturn, h]

/-- Settles O45: in RESUMING and PROVING by the return to AWAITING, elsewhere by the marks and the fresh-set timer. -/
theorem directionChangesActByState : Obligations.DirectionChangesActByState := by
  rintro s v rest d b hd rfl hdv
  have e : exec .directionWrite s = .next (settle (directionWrite d { s with bpu := { s.bpu with deliveries := rest } })) := by
    simp only [exec, execDirectionWrite, hd, dropDelivery_eq hd, hdv, Direction.ofWord]
  refine ⟨fun he => ⟨_, e, if_pos he.symm⟩, fun hne => ?_⟩
  rw [directionWrite, if_neg fun h => hne h.symm] at e
  refine ⟨fun h => ⟨_, e, ?_⟩, fun h => ⟨_, e, ?_⟩, fun h => ⟨_, e, ?_⟩, fun h => ⟨_, e, ?_⟩⟩
  · exact directionChanged_idle (by exact h)
  · exact (directionChanged_clears (by exact h)).trans rfl
  · exact (directionChanged_restarts (by exact h)).trans rfl
  · generalize ht : ({ s with bpu := { s.bpu with deliveries := rest } } : State).onRct (fun r => { r with direction := d }) = t
    have hdel : KeepsAllBut [.deliveries, .rct] s t := by
      intro f hf; cases f <;> simp_all [Field.same, ← ht]
    have hr : t.rct = { s.rct with direction := d } := by rw [← ht]; rfl
    have h' : t.rct.restart = .resuming ∨ t.rct.restart = .proving := by rw [hr]; exact h
    rw [directionChanged_returns h']
    obtain ⟨h1, h2, h3, h4⟩ := directionReturn_rct h'
    obtain ⟨hb, hs, -⟩ := directionReturn_returns t
    have hs := hs.of_same (s := s) (.of_wen (by rw [← ht]; rfl)) (by rw [← ht]; rfl) (by rw [← ht]; rfl) (by rw [← ht]; rfl)
    have hm := directionAwaits_marks t
    have hm' : (directionReturn t).rfs.amplitudeMark = PerSlot.all false ∧ (directionReturn t).rfs.angleMark = PerSlot.all false := by
      simp [directionReturn_eq, hm]
    have kept := directionReturn_kept t
    refine ⟨by rw [h1, hr], by rw [h2, hr], by rw [h3, hr], by rw [h4, hr], hm'.1, hm'.2, ?_, directionReturn_latches h',
      fun hst => directionReturn_outputs h' (by rw [hr]; exact hst), ?_, fun hl => ?_, hs.memory, hs.others, hs.holder, ?_⟩
    · rw [← ht] at hb ⊢; exact hb
    · exact directionReturn_record (by rw [← ht]; rfl) (by rw [← ht]; rfl) rfl (by rw [← ht]; rfl)
    · have hlit : ∃ i, indexOf i < t.mpl.k ∧ slotOfRecord t i ≠ none := by rw [← ht]; exact hl
      have er := directionAwaits_rct h'
      rw [directionReturn_idle hlit]
      refine ⟨?_, hm.2.2.1, hm.2.2.2, startAwaiting_noJobsOf 1 (p := (· == .release)) (abandon_noRelease (blockAll t)) (by simp) (by simp)⟩
      rw [er, hr, ← ht]; rfl
    · exact hdel.trans kept (by decide) (by decide)

/-! ## The proof event (R160) -/

theorem enterNormal_rct {s : State} (h : s.rct.restart = .proving) : (enterNormal s).rct = { s.rct with
    restart := .normal, passCount := 0, proving := s.rct.proving.stop, budget := s.rct.budget.stop
    pendingFaults := PerSlot.all none } := by
  simp [enterNormal, enter_rct, Rct.leave, h]

theorem enterNormal_hif {s : State} (h : s.rct.restart = .proving) :
    (enterNormal s).hif = { s.hif with driveHealthy := true, permit := true, proofNeeded := false } := by
  simp [enterNormal, enter_hif, Hif.enter, h, permitFalls, driveHealthyLevel, Hif.raisePermit]

/-- The record of an accepted proof goes ahead of that of the entry to NORMAL (log 25). -/
theorem enterNormal_proven {s t : State} (h : t.rct.restart = .proving) (hl : t.log = s.log) (hw : t.wen = s.wen)
    (hr : s.rct.restart = .normal) (hi : t.itm = s.itm) : HandsFirst .hoist 4 noSlot 0 s (enterNormal t) := by
  have e : enterNormal t = (logRecord .sequence RestartState.normal.code noSlot (word t.rct.passCount) (logRecord .hoist 4 noSlot 0
      ((t.onRct fun r => { r.leave .normal with restart := .normal }).onHif
        fun h => h.enter .proving .normal (t.rct.leave .normal).mode))).onRct
      fun r => { r with passCount := 0, budget := r.budget.stop, pendingFaults := PerSlot.all none } := by
    simp [enterNormal, enter, hoistEnter, h, RestartState.latching, hoistRecord]
  rw [e]
  exact handsFirst_of_follows (by simpa using hl) (by simpa using hw) (by simpa using hr.symm) (by simpa using hi)
    ((records_logRecord ..).follows.trans (.of_same rfl rfl))

theorem enterNormal_kept {s : State} (h : s.rct.restart = .proving) : KeepsAllBut [.rct, .hif, .wen, .log] s (enterNormal s) := by
  have hl : (s.rct.restart.latching && !RestartState.normal.latching) = false := by simp [h, RestartState.latching]
  have hr := (enter_records .normal noSlot (word s.rct.passCount) s).keeps
  rw [hl] at hr
  refine KeepsAllBut.trans (fs := [.rct, .hif]) ?_ (KeepsAllBut.trans hr (gs := [.rct]) (hs := [.rct, .wen, .log]) ?_ (by decide) (by decide))
    (by decide) (by decide)
  · intro f hf; cases f <;> simp_all [Field.same]
  · intro f hf; cases f <;> simp_all [Field.same, enterNormal]

theorem takeProof_idle {s : State} (h : 3 ≤ s.hif.stale ∨ s.rct.restart = .normal ∧ s.hif.proofNeeded = false
    ∨ s.rct.restart ≠ .normal ∧ s.rct.restart ≠ .proving) : takeProof s = s := by
  unfold takeProof
  split
  · rfl
  · cases hr : s.rct.restart <;> simp_all

/-- Settles O46: an accepted proof enters NORMAL or raises the permit there. -/
theorem proofsRaiseThePermit : Obligations.ProofsRaiseThePermit := by
  intro s rest s' hd hs
  have e : exec .proofEvent s = .next (settle (takeProof s')) := by
    simp only [exec, execProofEvent, hd, dropDelivery_eq hd, hs]
  have hk : KeepsAllBut [.deliveries] s s' := by
    intro f hf; cases f <;> simp_all [Field.same]
  have hr : s'.rct = s.rct := by rw [hs]
  have hh : s'.hif = s.hif := by rw [hs]
  refine ⟨fun h h3 => ⟨enterNormal s', ?_, ?_⟩, fun h h3 hp => ⟨reproof s', ?_, ?_⟩, fun h => ⟨_, e, takeProof_idle (by rwa [hr, hh])⟩⟩
  · rw [e]; simp [takeProof, hr, hh, h, Nat.not_le.2 h3]
  · refine ⟨by rw [enterNormal_rct (by rwa [hr]), hr], by rw [enterNormal_hif (by rwa [hr]), hh], ?_, enterNormal_kept (by rwa [hr])⟩
    exact enterNormal_proven (by rwa [hr]) (by rw [hs]) (by rw [hs]) rfl (by rw [hs])
  · rw [e]; simp [takeProof, hr, hh, h, Nat.not_le.2 h3, hp]
  · refine ⟨by simp [reproof, Hif.raisePermit, hh], handsRecord_of_same (by simp [hs]) (by simp [hs]) (by simp [hr]) (by simp [hs]), ?_⟩
    intro f hf; cases f <;> simp_all [Field.same]

/-! ## The restart enable (R107)

The statement compares the written value with 1 as a natural number, the model as a sixteen-bit word. -/

/-- A state whose BPU hands over a write of 1 to the restart-enable word. -/
def enabling : State := { State.held with bpu := { State.held.bpu with deliveries := [.restartEnable 1] } }

theorem enabling_exec : exec .restartEnableWrite enabling = .next (settle (takeRestartEnable 1 (dropDelivery enabling))) := by
  simp only [exec, execRestartEnableWrite, enabling]

/-- Refutes O47: the number 65537 is the word 1, which enables the restart, and is not the number 1. -/
theorem not_otherWatchedWritesAreTaken : ¬ Obligations.OtherWatchedWritesAreTaken := by
  intro h
  obtain ⟨u, e, hu⟩ := (h enabling [] _ rfl).1 65537 rfl
  have hs := congrArg (fun t : State => t.rct.restartEnable) (Host.Outcome.next.inj (enabling_exec.symm.trans e))
  rw [hu] at hs
  simp [takeRestartEnable] at hs

end Sys2Proof.Machine
end

