-- ==== Sys2Proof/Proofs/HostAccesses.lean ====
section
/-! The accesses of the host: the window and the regions around it (R37 to R44, R55, R56). -/

namespace Sys2Proof.Machine

/-! ## The way into the window (R44) -/

theorem throughWindow_closed {s : State} (h : s.bpu.isOpen = false) (r : Rec) (w : Fin 8) (v : Word) (inside : State → State) :
    throughWindow r w v inside s = s := by simp [throughWindow, h]

theorem throughWindow_outside {s : State} (h : s.bpu.isOpen = true) {r : Rec} (hk : s.mpl.k ≤ indexOf r) (w : Fin 8) (v : Word)
    (inside : State → State) : throughWindow r w v inside s = countRefusal .addOutside s := by
  simp [throughWindow, h, Nat.not_lt.2 hk]

theorem throughWindow_inside {s : State} (h : s.bpu.isOpen = true) {r : Rec} (hk : indexOf r < s.mpl.k) (w : Fin 8) (v : Word)
    (inside : State → State) : throughWindow r w v inside s = inside (recordCapture r w v s) := by
  simp [throughWindow, h, hk]

/-- A count of a refusal, with what it leaves. -/
theorem countRefusal_open {s : State} (h : s.bpu.isOpen = true) (f : RefusalCounts → RefusalCounts) :
    (countRefusal f s).bpu.counts = f s.bpu.counts := by simp [countRefusal, h]

theorem countRefusal_keeps (f : RefusalCounts → RefusalCounts) (s : State) : KeepsAllBut [.counts] s (countRefusal f s) := by
  intro x hx; cases x <;> simp_all [Field.same]

/-- Settles O32: each of the commands goes through the window, which absorbs it, counts it or hands it on. -/
theorem windowWritesOutsideTheMapAreAbsorbed : Obligations.WindowWritesOutsideTheMapAreAbsorbed := by
  intro s r v w i c hc
  have through : ∃ w' f, exec c s = .next (settle (throughWindow r w' v f s)) := by
    simp only [List.mem_cons, List.not_mem_nil, or_false] at hc
    rcases hc with rfl | rfl | rfl | rfl | rfl | rfl | rfl <;> exact ⟨_, _, rfl⟩
  obtain ⟨w', f, e⟩ := through
  refine ⟨fun h => ⟨_, e, throughWindow_closed h ..⟩, fun h hk => ⟨_, e, ?_⟩, rfl, rfl, rfl, rfl, rfl, ?_⟩
  · rw [throughWindow_outside h hk]
    exact ⟨countRefusal_open h _, countRefusal_keeps _ s⟩
  · fin_cases i <;> rfl

/-! ## Reads of the logical windows (R55, R56) -/

theorem inMap_iff {s : State} {r : Rec} : inMap s r = true ↔ s.bpu.isOpen = true ∧ indexOf r < s.mpl.k := by simp [inMap]

theorem answerHost_keeps (v : Word) (s : State) : KeepsAllBut [.hostData] s (answerHost v s) := by
  intro f hf; cases f <;> simp_all [Field.same]

theorem pushNeed_keeps (n : Need) (s : State) : KeepsAllBut [.needs] s (pushNeed n s) := by
  intro f hf; cases f <;> simp_all [Field.same]

/-- Settles O41: the answer of the image, the redirected read, and the answers where no cell stands behind the record. -/
theorem logicalReadsAreAnswered : Obligations.LogicalReadsAreAnswered := by
  refine fun s r w v => ⟨rfl, fun ho hk d hd => ?_, fun h c hc => ?_⟩
  · have hm : inMap s r = true := inMap_iff.2 ⟨ho, hk⟩
    refine ⟨⟨readCommand r w s, rfl, ?_⟩, fun i hi => ⟨readLogicalStatus r w s, rfl, ?_⟩, fun hn => ⟨readLogicalStatus r w s, rfl, ?_⟩⟩
    · have answer : (readCommand r w s).bpu.hostData = commandAnswer s r w := by simp [readCommand, hm, answerHost]
      have keeps : KeepsAllBut [.hostData] s (readCommand r w s) := answerHost_keeps _ s
      beta_reduce
      rw [answer]
      refine ⟨?_, ?_, ?_, ?_, ?_, ?_, ?_, ?_, ?_, keeps⟩
      case refine_5 => rintro rfl hn; simp [commandAnswer, bypassAnswer, hn]; rfl
      case refine_6 => rintro i rfl hi; simp [commandAnswer, bypassAnswer, hi]
      all_goals rintro rfl; exact hd ▸ rfl
    · rw [readLogicalStatus, if_pos hm, hi]
      exact ⟨rfl, pushNeed_keeps _ s⟩
    · rw [readLogicalStatus, if_pos hm, hn]
      refine ⟨?_, answerHost_keeps _ s⟩
      fin_cases w <;> rfl
  · have hm : ¬inMap s r = true := by
      rw [inMap_iff, not_and, Nat.not_lt]
      exact fun ho => h.resolve_left (by simp [ho])
    simp only [List.mem_cons, List.not_mem_nil, or_false] at hc
    rcases hc with rfl | rfl
    · refine ⟨readCommand r w s, rfl, ?_⟩
      rw [readCommand, if_neg hm]
      exact ⟨rfl, answerHost_keeps _ s⟩
    · refine ⟨readLogicalStatus r w s, rfl, ?_⟩
      rw [readLogicalStatus, if_neg hm]
      exact ⟨rfl, answerHost_keeps _ s⟩

/-! ## The regions of the address map (R22, Table 2-1) -/

theorem regionOf_planOrImage {a : Addr} (h : (inPlan a || inImage a) = true) :
    regionOf a = .planOrImage ∧ 0x800 ≤ a.toNat ∧ a.toNat < 0xCE0 := by
  simp only [inPlan, inImage, Bool.or_eq_true, Bool.and_eq_true, decide_eq_true_eq] at h
  refine ⟨?_, by omega, by omega⟩
  unfold regionOf
  rw [dif_neg (by omega), dif_neg (by omega), if_neg, if_pos]
  · simp only [inPlan, inImage, Bool.or_eq_true, Bool.and_eq_true, decide_eq_true_eq]; exact h
  · simp only [inPhysicalCommand, Bool.and_eq_true, decide_eq_true_eq]; omega

theorem regionOf_capture {a : Addr} (h : inCapture a = true) : regionOf a = .capture ∧ 0xD00 ≤ a.toNat ∧ a.toNat < 0xE08 := by
  have hb := h
  simp only [inCapture, Bool.and_eq_true, decide_eq_true_eq] at hb
  refine ⟨?_, by omega, by omega⟩
  unfold regionOf
  rw [dif_neg (by omega), dif_neg (by omega), if_neg, if_neg, if_pos h]
  · simp only [inPlan, inImage, Bool.or_eq_true, Bool.and_eq_true, decide_eq_true_eq]; omega
  · simp only [inPhysicalCommand, Bool.and_eq_true, decide_eq_true_eq]; omega

theorem regionOf_log {a : Addr} (h : inLog a = true) : regionOf a = .log ∧ 0x1000 ≤ a.toNat := by
  have hb := h
  simp only [inLog, Bool.and_eq_true, decide_eq_true_eq] at hb
  refine ⟨?_, by omega⟩
  unfold regionOf
  rw [dif_neg (by omega), dif_neg (by omega), if_neg, if_neg, if_neg, if_pos h]
  · simp only [inCapture, Bool.and_eq_true, decide_eq_true_eq]; omega
  · simp only [inPlan, inImage, Bool.or_eq_true, Bool.and_eq_true, decide_eq_true_eq]; omega
  · simp only [inPhysicalCommand, Bool.and_eq_true, decide_eq_true_eq]; omega

/-- An address outside the windows and the protected regions is one of the drive record, or belongs to no row. -/
theorem regionOf_passed {a : Addr} (hl : inLogical a = false) (hp : inProtected a = false) :
    (∃ w : Fin 4, regionOf a = .drive w ∧ a.toNat = 0x400 + w.val)
      ∨ regionOf a = .other ∧ (a.toNat < 0x400 ∨ 0x403 < a.toNat) := by
  simp only [inProtected, Bool.or_eq_false_iff] at hp
  obtain ⟨⟨⟨⟨hc, hpl⟩, him⟩, hca⟩, hlo⟩ := hp
  simp only [inLogical, Bool.or_eq_false_iff, Bool.and_eq_false_iff, decide_eq_false_iff_not] at hl
  unfold regionOf
  rw [dif_neg (by omega), dif_neg (by omega), if_neg (by simp [hc]), if_neg (by simp [hpl, him]), if_neg (by simp [hca]),
    if_neg (by simp [hlo])]
  by_cases hd : 0x400 ≤ a.toNat ∧ a.toNat < 0x404
  · rw [if_pos hd]
    exact .inl ⟨⟨a.toNat % 4, by omega⟩, rfl, by simp; omega⟩
  · rw [if_neg hd]
    exact .inr ⟨rfl, by omega⟩

theorem regionOf_not_logical {a : Addr} (hl : inLogical a = false) :
    (∀ r w, regionOf a ≠ .logicalCommand r w) ∧ ∀ r w, regionOf a ≠ .logicalStatus r w := by
  simp only [inLogical, Bool.or_eq_false_iff, Bool.and_eq_false_iff, decide_eq_false_iff_not] at hl
  unfold regionOf
  rw [dif_neg (by omega), dif_neg (by omega)]
  constructor <;> intro r w <;> split_ifs <;> simp

/-! ## The protected regions (R39 to R42) -/

theorem passWrite_passes (a : Addr) (v : Word) (d : Option Delivery) (s : State) :
    (passWrite a v d s).bpu.needs = s.bpu.needs ++ [.passWrite a v d] ∧ KeepsAllBut [.needs] s (passWrite a v d s) :=
  ⟨rfl, pushNeed_keeps _ s⟩

theorem absorbProtected_absorbs (s : State) :
    (absorbProtected s).bpu.counts = (if s.bpu.isOpen then
        { s.bpu.counts with protectedWrite := satInc s.bpu.counts.protectedWrite } else s.bpu.counts)
      ∧ KeepsAllBut [.counts] s (absorbProtected s) := by
  refine ⟨?_, countRefusal_keeps _ s⟩
  cases h : s.bpu.isOpen <;> simp [absorbProtected, countRefusal, RefusalCounts.addProtected, h]

theorem isUnarmed_iff {s : State} : isUnarmed s = true ↔ s.rct.restart = .unarmed := by simp [isUnarmed]

/-- The capture region while armed: a consumed word of 1 passes, and nothing else does (R41). -/
theorem writeCapture_armed {s : State} (h : s.rct.restart ≠ .unarmed) (a : Addr) (v : Word) :
    (a = 0xD06 ∧ v = 1 → writeCapture a v s = passWrite a v (if s.bpu.isOpen then some .consumed else none) s)
      ∧ (¬(a = 0xD06 ∧ v = 1) → writeCapture a v s = absorbProtected s) := by
  rw [writeCapture, if_neg (mt isUnarmed_iff.1 h)]
  exact ⟨fun ha => if_pos ha, fun ha => if_neg ha⟩

/-- The log region while armed: the consumer word and the free words pass (R42). -/
theorem writeLogRegion_armed {s : State} (h : s.rct.restart ≠ .unarmed) (a : Addr) (v : Word) :
    (a = 0x1001 → writeLogRegion a v s = passWrite a v (if s.bpu.isOpen then some (.consumer v) else none) s)
      ∧ (a = 0x1005 ∨ a = 0x1006 ∨ a = 0x1007 → writeLogRegion a v s = passWrite a v none s)
      ∧ (a ≠ 0x1001 → a ≠ 0x1005 → a ≠ 0x1006 → a ≠ 0x1007 → writeLogRegion a v s = absorbProtected s) := by
  rw [writeLogRegion, if_neg (mt isUnarmed_iff.1 h)]
  refine ⟨fun ha => if_pos ha, fun ha => ?_, fun h1 h5 h6 h7 => ?_⟩
  · have other : a ≠ logHeaderAddr 1 := by rcases ha with rfl | rfl | rfl <;> decide
    rw [if_neg other]
    exact if_pos ha
  · rw [if_neg (show ¬a = logHeaderAddr 1 from h1)]
    exact if_neg fun ha => ha.elim h5 fun ha => ha.elim h6 h7

/-- The command of a write to a protected region is the write of its region. -/
theorem protected_exec {s : State} {a : Addr} {v : Word} {c : Instr}
    (hc : (∃ i w, a = physicalCommandAddr i w.val ∧ c = .physicalCommandWrite i w v)
      ∨ c = .planOrImageWrite a v ∨ c = .captureRegionWrite a v ∨ c = .logRegionWrite a v) (hw : c.wellFormed = true) :
    (a.toNat < 0xCE0 ∧ exec c s = .next (settle (writeProtected a v s)))
      ∨ (0xD00 ≤ a.toNat ∧ a.toNat < 0xE08 ∧ exec c s = .next (settle (writeCapture a v s)))
      ∨ (0x1000 ≤ a.toNat ∧ exec c s = .next (settle (writeLogRegion a v s))) := by
  rcases hc with ⟨i, w, rfl, rfl⟩ | rfl | rfl | rfl
  · refine .inl ⟨?_, rfl⟩
    simp only [physicalCommandAddr, BitVec.toNat_ofNat]
    omega
  · obtain ⟨hr, _, hb⟩ := regionOf_planOrImage hw
    exact .inl ⟨hb, by simp only [exec, execPlanOrImageWrite, hostWrite, hr]⟩
  · obtain ⟨hr, hl, hb⟩ := regionOf_capture hw
    exact .inr (.inl ⟨hl, hb, by simp only [exec, execCaptureRegionWrite, hostWrite, hr]⟩)
  · obtain ⟨hr, hl⟩ := regionOf_log hw
    exact .inr (.inr ⟨hl, by simp only [exec, execLogRegionWrite, hostWrite, hr]⟩)

/-- Settles O42: unarmed every write passes; armed, only the words the owners leave to the host. -/
theorem protectedRegionsAbsorbWrites : Obligations.ProtectedRegionsAbsorbWrites := by
  intro s a v c hc hw
  rcases protected_exec (s := s) hc hw with ⟨hb, e⟩ | ⟨hl, hb, e⟩ | ⟨hl, e⟩
  · refine ⟨fun hu => ⟨_, e, ?_⟩, fun hu => ?_⟩
    · rw [writeProtected, if_pos (isUnarmed_iff.2 hu)]; exact passWrite_passes ..
    · have absorbs : writeProtected a v s = absorbProtected s := if_neg (mt isUnarmed_iff.1 hu)
      refine ⟨?_, ?_, ?_, fun _ _ _ _ _ => ⟨_, e, absorbs ▸ absorbProtected_absorbs s⟩⟩
      · rintro rfl; simp at hb
      · rintro rfl; simp at hb
      · rintro (rfl | rfl | rfl) <;> simp at hb
  · refine ⟨fun hu => ⟨_, e, ?_⟩, fun hu => ?_⟩
    · rw [writeCapture, if_pos (isUnarmed_iff.2 hu)]; exact passWrite_passes ..
    · obtain ⟨passes, absorbs⟩ := writeCapture_armed hu a v
      refine ⟨fun ha hv => ⟨_, e, passes ⟨ha, hv⟩ ▸ passWrite_passes ..⟩, ?_, ?_,
        fun hn _ _ _ _ => ⟨_, e, absorbs hn ▸ absorbProtected_absorbs s⟩⟩
      · rintro rfl; simp at hb
      · rintro (rfl | rfl | rfl) <;> simp at hb
  · refine ⟨fun hu => ⟨_, e, ?_⟩, fun hu => ?_⟩
    · rw [writeLogRegion, if_pos (isUnarmed_iff.2 hu)]; exact passWrite_passes ..
    · obtain ⟨consumer, free, absorbs⟩ := writeLogRegion_armed hu a v
      refine ⟨?_, fun ha => ⟨_, e, consumer ha ▸ passWrite_passes ..⟩, fun ha => ⟨_, e, free ha ▸ passWrite_passes ..⟩,
        fun _ h1 h5 h6 h7 => ⟨_, e, absorbs h1 h5 h6 h7 ▸ absorbProtected_absorbs s⟩⟩
      rintro rfl; simp at hl

/-! ## The other accesses (R37, R38, R43) -/

/-- A write to the drive record delivers by its word. -/
theorem writeDrive_passes (a : Addr) (w : Fin 4) (v : Word) (s : State) :
    (writeDrive a w v s).bpu.needs
        = s.bpu.needs ++ [.passWrite a v (if s.rct.restart = .unarmed then none else driveDelivery w v)]
      ∧ KeepsAllBut [.needs] s (writeDrive a w v s) := by
  refine ⟨?_, pushNeed_keeps _ s⟩
  by_cases h : s.rct.restart = .unarmed <;> simp [writeDrive, isUnarmed, passWrite, pushNeed, h]

/-- Settles O43: a read joins the needs, and a write does, watched if it goes to the drive record of an armed part. -/
theorem otherAccessesPass : Obligations.OtherAccessesPass := by
  intro s a op hw
  refine ⟨?_, ?_⟩
  · rintro rfl
    obtain ⟨hc, hs⟩ := regionOf_not_logical (a := a) (by simpa [Instr.wellFormed] using hw)
    refine ⟨hostRead a s, rfl, ?_⟩
    have read : hostRead a s = pushNeed (.read a false) s := by
      unfold hostRead
      cases h : regionOf a <;> simp_all
    rw [read]
    exact ⟨rfl, pushNeed_keeps _ s⟩
  · rintro v rfl
    simp only [Instr.wellFormed, Bool.and_eq_true, Bool.not_eq_true'] at hw
    refine ⟨hostWrite a v s, rfl, ?_⟩
    rcases regionOf_passed hw.1 hw.2 with ⟨w, hr, hn⟩ | ⟨hr, hn⟩
    · have write : hostWrite a v s = writeDrive a w v s := by simp only [hostWrite, hr]
      rw [write]
      obtain ⟨needs, keeps⟩ := writeDrive_passes a w v s
      refine ⟨⟨_, needs, fun h => ?_, fun h => ?_⟩, keeps⟩
      · rw [if_pos (h.resolve_right (by omega))]
      · rw [if_neg h]
        have word {k : Nat} (hk : k < 4) (ha : a.toNat = 0x400 + k) : w = ⟨k, hk⟩ := Fin.ext (by simp; omega)
        refine ⟨fun ha => ?_, fun ha => ?_, fun ha => ?_, fun ha => ?_⟩
        · rw [word (k := 0) (by omega) (by rw [ha]; rfl)]; rfl
        · rw [word (k := 1) (by omega) (by rw [ha]; rfl)]; rfl
        · rw [word (k := 2) (by omega) (by rw [ha]; rfl)]; rfl
        · rw [word (k := 3) (by omega) (by rw [ha]; rfl)]; rfl
    · have write : hostWrite a v s = passWrite a v none s := by simp only [hostWrite, hr]
      rw [write]
      refine ⟨⟨none, rfl, fun _ => rfl, fun _ => ?_⟩, pushNeed_keeps _ s⟩
      refine ⟨?_, ?_, ?_, ?_⟩ <;> rintro rfl <;> simp at hn

end Sys2Proof.Machine
end

