-- ==== Sys2Proof/Proofs/RecordsAndTenures.lean ====
section
/-! Records at the Log Unit (R171, R172), the plan read (R166), the tenures of the BPU (R30), and the fresh mark that
starts the release (R148, R150). -/

namespace Sys2Proof.Machine

/-! ## A record handed to the Log Unit (R171, R172) -/

theorem logRecord_standing {s : State} (h : s.log.running = false) (c : Category) (code slot arg : Word) :
    logRecord c code slot arg s = s := by simp [logRecord, handRecord, h]

theorem logFull_iff {s : State} : logFull s = true ↔
    16 ≤ s.log.writeList.length ∨ (s.log.producer + 1) % s.log.capacity = s.log.consumer := by
  rw [logFull, Bool.or_eq_true, decide_eq_true_eq, beq_iff_eq]
  exact Iff.rfl

theorem noOverflowJob_iff {js : List Job} : noOverflowJob js = true ↔
    ¬∃ j ∈ js, j.kind = .logHeader ∧ ⟨0x1003, .overflowCount⟩ ∈ j.todo := by
  have e : overflowWrite = ⟨0x1003, .overflowCount⟩ := rfl
  simp [noOverflowJob, e]

theorem queueOverflowHeader_wen {s : State} : (queueOverflowHeader s).wen = if noOverflowJob s.wen.jobs3 then
    { s.wen with jobs3 := s.wen.jobs3 ++ [⟨.logHeader, [⟨0x1003, .overflowCount⟩], false⟩] } else s.wen := by
  unfold queueOverflowHeader
  split
  · next h => rw [if_neg (by simpa [noOverflowJob] using h)]
  · next h => rw [if_pos (by simpa [noOverflowJob] using h)]; rfl

theorem Category.bit_eq (c : Category) : c.bit = c.code.toNat - 1 := by cases c <;> rfl

/-- Settles O51: the record is discarded, dropped or accepted. -/
theorem recordsAreAcceptedOrDropped : Obligations.RecordsAreAcceptedOrDropped := by
  rintro s c code slot arg u rfl
  have keeps := (records_logRecord c code slot arg s).keeps
  refine ⟨fun h => logRecord_standing h .., fun hr hf => ?_, fun hr h16 hp => ?_⟩
  · have dropped : logRecord c code slot arg s = dropRecord s := handRecord_full false c code slot arg hr (logFull_iff.2 hf)
    have wen : (dropRecord s).wen = if noOverflowJob s.wen.jobs3 then
        { s.wen with jobs3 := s.wen.jobs3 ++ [⟨.logHeader, [⟨0x1003, .overflowCount⟩], false⟩] } else s.wen :=
      queueOverflowHeader_wen
    rw [dropped] at keeps ⊢
    refine ⟨by simp [dropRecord], ?_, keeps⟩
    rintro _ rfl
    exact ⟨fun h => by rw [wen, if_neg (mt noOverflowJob_iff.1 (not_not.2 h))], fun h => by rw [wen, if_pos (noOverflowJob_iff.2 h)]⟩
  · have room : logFull s = false := by
      rw [← Bool.not_eq_true, logFull_iff]
      omega
    obtain ⟨hl, hj⟩ := handRecord_room false c code slot arg hr room
    refine ⟨?_, ?_, ?_, keeps⟩
    · rw [← Category.bit_eq, logRecord, hl]; rfl
    · rw [logRecord, hl, updateIrq_low]; rfl
    · rw [logRecord, hj]; rfl

/-! ## The plan read (R166) -/

theorem pldTenureEnd_exec {s : State} (h : s.mpa.holder = some (.pld false)) :
    exec .pldTenureEnd s = .next (settle (takePlanTenure (releasePort s))) := by
  simp only [exec, execPldTenureEnd, h]; rfl

/-- Settles O10: word 0 gives the length, each later tenure appends its words. -/
theorem planTenuresCollectThePlan : Obligations.PlanTenuresCollectThePlan := by
  refine fun s => ⟨fun w h hc hw h1 h2 => ⟨_, pldTenureEnd_exec h, ?_⟩, fun o h hc => ⟨_, pldTenureEnd_exec h, ?_⟩,
    fun h => ⟨_, by simp only [exec, execPldTenureEnd, h]; rfl, rfl⟩⟩
  · have taken : takePlanTenure (releasePort s) = takeLength w (releasePort s) := by
      have hm : (releasePort s).mem.read (planAddr 0) = w := hw
      rw [← hm]
      simp [takePlanTenure, hc]
    rw [taken, takeLength, if_neg (by omega)]
    rfl
  · have taken : takePlanTenure (releasePort s) = takePlanWords (o + 1) (releasePort s) := by simp [takePlanTenure, hc]
    rw [taken]
    refine ⟨by simp [takePlanWords], fun hl => ?_, fun hl => ?_, by simp [takePlanWords], by simp [takePlanWords],
      by simp [takePlanWords], rfl, ?_⟩
    · simp only [takePlanWords, State.onPld_pld, releasePort_frame]
      rw [if_pos (by omega)]
    · simp only [takePlanWords, State.onPld_pld, releasePort_frame]
      rw [if_neg (by omega), show o + 1 + min 8 (s.pld.planLength - (o + 1)) = o + 9 by omega]
    · intro f hf; cases f <;> simp_all [Field.same]

/-! ## The tenures of the BPU (R30) -/

theorem performNeed_mem (n : Need) (s : State) : (performNeed n s).mem = s.mem.writeAll n.writes := by
  cases n with
  | passWrite a v d => cases d <;> simp [performNeed]
  | _ => simp [performNeed]

/-- The words that a tenure of the BPU leaves for the host and for the owners. -/
theorem performNeed_bpu (n : Need) (s : State) :
    (performNeed n s).bpu.needs = s.bpu.needs.drop 1
      ∧ (∀ a l, n = .read a l → (performNeed n s).bpu.hostData = s.mem.read a)
      ∧ ((∀ a l, n ≠ .read a l) → (performNeed n s).bpu.hostData = s.bpu.hostData)
      ∧ (∀ a v d, n = .passWrite a v d → (performNeed n s).bpu.deliveries = s.bpu.deliveries ++ d.toList)
      ∧ ((∀ a v d, n ≠ .passWrite a v d) → (performNeed n s).bpu.deliveries = s.bpu.deliveries) := by
  cases n with
  | passWrite a v d => cases d <;> simp [performNeed, deliver, answerRead]
  | read a l => simp [performNeed, deliver, answerRead, answerHost, Need.writes, Memory.writeAll]
  | _ => simp [performNeed, deliver, answerRead]

theorem pairAddr_ne (i : Slot) : physicalCommandAddr i 1 ≠ physicalCommandAddr i 2 := by
  intro h
  have := congrArg BitVec.toNat h
  simp only [physicalCommandAddr, BitVec.toNat_ofNat] at this
  omega

theorem applyFar_outside {far : List FarWrite} {a : Addr}
    (h : a ∉ far.map fun f => physicalStatusAddr f.slot f.word.val) (m : Memory) : (applyFar far m).read a = m.read a :=
  Memory.read_writeAll_outside _ (by simpa [Function.comp_def] using h) m

/-- Settles O48: the words of the need stand behind those of the link engines. -/
theorem bpuTenuresPerformTheirNeed : Obligations.BpuTenuresPerformTheirNeed := by
  intro s far n rest hwf hh hn
  have e : exec (.bpuTenureEnd far) s = .next (settle (releasePort (performNeed n (s.onMem (applyFar far))))) := by
    simp only [exec, execBpuTenureEnd, hh, endBpuTenure, State.onMem_bpu, hn]
  have wf := Memory.applyFar_wf far hwf
  have mem : (releasePort (performNeed n (s.onMem (applyFar far)))).mem = (applyFar far s.mem).writeAll n.writes := by
    simp [performNeed_mem]
  obtain ⟨needs, answered, unanswered, delivered, undelivered⟩ := performNeed_bpu n (s.onMem (applyFar far))
  refine ⟨_, e, ?_, rfl, ?_, ?_, ?_, ?_, answered, unanswered, undelivered, ?_, ?_⟩
  · simp only [releasePort_frame, needs, State.onMem_bpu, hn]; rfl
  · rintro a v d rfl
    exact ⟨mem ▸ Memory.read_write_same a v wf, delivered a v d rfl⟩
  · rintro r w a v rfl
    exact mem ▸ Memory.read_write_same a v wf
  · rintro r i m g rfl
    rw [mem]
    refine ⟨(Memory.read_write_other g (pairAddr_ne i).symm _).trans (Memory.read_write_same _ m wf), Memory.read_write_same _ g (Memory.write_wf _ m wf)⟩
  · rintro p i m t k rfl
    exact mem ▸ Memory.read_write_same _ m wf
  · intro a ha
    rw [List.mem_append, not_or] at ha
    rw [mem, Memory.read_writeAll_outside _ ha.1, applyFar_outside ha.2]
  · intro f hf; cases f <;> simp_all [Field.same]

/-! ## The last fresh mark (R148, R150) -/

theorem isLive_awaiting {s : State} (h : s.rct.restart = .awaiting) (r : Rec) (w : Fin 8) : isLive s r w = false := by
  simp [isLive, h]

/-- A state that differs from an AWAITING one in what a write of a mark touches starts the release of that one. -/
theorem markStartsRelease {s t : State} (ha : s.rct.restart = .awaiting) (hs : s.hif.stale < 3) (hf : noFaultPending s = true)
    (hr : t.rct = s.rct) (hh : t.hif = s.hif) (hi : t.fin = s.fin) (hk : t.mpl.k = s.mpl.k) (hm : t.mpl.slots = s.mpl.slots)
    (hc : freshComplete t = true) : testAwaiting t = enterResuming t
      ∧ (enterResuming t).rct = { s.rct with restart := .resuming, fresh := s.rct.fresh.stop }
      ∧ (enterResuming t).rfs.cursor = none ∧ (enterResuming t).rfs.stage ≠ none
      ∧ JobListed .release (referenceWrites s) (enterResuming t) := by
  obtain ⟨cursor, stage, job⟩ := enterResuming_release t
  have faults : noFaultPending t = true := (noFaultPending_congr (by rw [hr]) hi).trans hf
  refine ⟨if_pos ⟨by rw [hr, ha], hc, by rwa [hh], faults⟩, ?_, cursor, by rw [stage]; simp, referenceWrites_congr hk hm ▸ job⟩
  rw [enterResuming_rct (by rw [hr, ha]), hr]

theorem enterResuming_rfs (s : State) : (enterResuming s).rfs.image = s.rfs.image
    ∧ (enterResuming s).rfs.amplitudeMark = s.rfs.amplitudeMark ∧ (enterResuming s).rfs.angleMark = s.rfs.angleMark := by
  simp

/-- The marks, the map and the roles decide the fresh set. -/
theorem freshComplete_of_marks {s t : State} (hk : t.mpl.k = s.mpl.k) (hm : t.mpl.slots = s.mpl.slots)
    (ha : t.rfs.amplitudeMark = s.rfs.amplitudeMark) (hg : t.rfs.angleMark = s.rfs.angleMark) :
    freshComplete t = freshComplete s := by
  simp only [freshComplete, slotOfRecord, hk, hm, ha, hg]

theorem storeAmplitude_rfs (r : Rec) (v : Word) (s : State) :
    (storeAmplitude r v s).rfs.amplitudeMark = s.rfs.amplitudeMark.set r true
      ∧ (storeAmplitude r v s).rfs.angleMark = s.rfs.angleMark
      ∧ (storeAmplitude r v s).rfs.image = s.rfs.image.modify r (fun d => { d with amplitude := (clampAmplitude v).1 }) := by
  have rfs : (if (clampAmplitude v).2 = true then countSaturation (phaseOf r) s else s).rfs = s.rfs := by split <;> simp
  simp [storeAmplitude, setImage, rfs]

/-- Settles O53: the write ends in the test of AWAITING with its mark set. -/
theorem lastFreshMarkStartsTheRelease : Obligations.LastFreshMarkStartsTheRelease := by
  intro s r v ho hk ha hs hf
  refine ⟨fun hc => ?_, fun hc => ?_⟩
  · let t := commitOther r (storeAngle r v (recordCapture r 2 v s))
    have written : exec (.logicalAngleWrite r v) s = .next (settle (testAwaiting t)) := by
      simp only [exec, execLogicalAngleWrite, throughWindow_inside ho hk, writeAngle]
      rw [isLive_awaiting (by simpa using ha)]
      rfl
    have marks : t.rfs.angleMark = s.rfs.angleMark.set r true ∧ t.rfs.amplitudeMark = s.rfs.amplitudeMark
        ∧ t.rfs.image = s.rfs.image.modify r (fun d => { d with angle := v }) := by simp [t, storeAngle, setImage]
    obtain ⟨angle, amplitude, image⟩ := marks
    have slots : t.mpl.slots = s.mpl.slots := by simp [t]
    have count : t.mpl.k = s.mpl.k := by simp [t]
    obtain ⟨starts, rct, cursor, stage, job⟩ := markStartsRelease (t := t) ha hs hf (by simp [t]) (by simp [t]) (by simp [t])
      count slots ((freshComplete_of_marks (s := { s with rfs := { s.rfs with angleMark := s.rfs.angleMark.set r true } })
        count slots amplitude angle).trans hc)
    obtain ⟨ri, _, rg⟩ := enterResuming_rfs t
    exact ⟨_, starts ▸ written, rct, rg.trans angle, ri.trans image, cursor, stage, job⟩
  · let t := commitOther r (storeAmplitude r v (recordCapture r 1 v s))
    have written : exec (.logicalAmplitudeWrite r v) s = .next (settle (testAwaiting t)) := by
      simp only [exec, execLogicalAmplitudeWrite, throughWindow_inside ho hk, writeAmplitude]
      rw [isLive_awaiting (by simpa using ha)]
      rfl
    obtain ⟨amplitude, angle, _⟩ : t.rfs.amplitudeMark = s.rfs.amplitudeMark.set r true ∧ t.rfs.angleMark = s.rfs.angleMark
        ∧ t.rfs.image = s.rfs.image.modify r (fun d => { d with amplitude := (clampAmplitude v).1 }) := by
      simpa [t] using storeAmplitude_rfs r v (recordCapture r 1 v s)
    have slots : t.mpl.slots = s.mpl.slots := by simp [t]
    have count : t.mpl.k = s.mpl.k := by simp [t]
    obtain ⟨starts, rct, cursor, stage, job⟩ := markStartsRelease (t := t) ha hs hf (by simp [t]) (by simp [t]) (by simp [t])
      count slots ((freshComplete_of_marks (s := { s with rfs := { s.rfs with amplitudeMark := s.rfs.amplitudeMark.set r true } })
        count slots amplitude angle).trans hc)
    obtain ⟨_, rm, _⟩ := enterResuming_rfs t
    exact ⟨_, starts ▸ written, rct, rm.trans amplitude, cursor, stage, job⟩

end Sys2Proof.Machine
end

