-- ==== Sys2Proof/Proofs/WindowWrites.lean ====
section
/-! The writes of the logical command window inside the map (R45 to R53, R142 to R147) and the capture ring (R89, R90). -/

namespace Sys2Proof.Machine

/-! ## A commit alone (R51, R53) -/

theorem PerPhase.set_set {α : Type} (v : PerPhase α) (p : Phase) (x y : α) : (v.set p x).set p y = v.set p y :=
  PerPhase.ext_get fun q => by simp only [PerPhase.get_set]; split <;> rfl

theorem commitAlone_bpu (p : Phase) (l : Latch) (s : State) :
    (commitAlone p l s).bpu.latches = s.bpu.latches.set p none
      ∧ (commitAlone p l s).bpu.needs = s.bpu.needs ++ [.commitAlone p l.slot l.amplitude
          (decide ((s.mpl.phases.get p).torn ≠ 0xFFFF)) (s.bpu.isOpen && decide (s.bpu.counts.tornPair ≠ 0xFFFF))]
      ∧ (commitAlone p l s).bpu.counts = (if s.bpu.isOpen then
          { s.bpu.counts with tornPair := satInc s.bpu.counts.tornPair } else s.bpu.counts) := by
  cases h : s.bpu.isOpen <;>
    simp [commitAlone, setLatch, pushNeed, countRefusal, RefusalCounts.addTornPair, h]

theorem commitAlone_phases (p : Phase) (l : Latch) (s : State) (q : Phase) :
    (commitAlone p l s).mpl.phases.get q
      = if q = p then { s.mpl.phases.get q with torn := satInc (s.mpl.phases.get q).torn } else s.mpl.phases.get q := by
  simp [commitAlone, setLatch, pushNeed, countRefusal, PerPhase.get_modify]

theorem commitOther_empty {s : State} {r : Rec} (h : s.bpu.latches.get (phaseOf r) = none) : commitOther r s = s := by
  simp [commitOther, latchOf, h]

theorem commitOther_own {s : State} {r : Rec} {l : Latch} (h : s.bpu.latches.get (phaseOf r) = some l) (hr : l.record = r) :
    commitOther r s = s := by
  simp [commitOther, latchOf, h, hr]

theorem commitOther_other {s : State} {r : Rec} {l : Latch} (h : s.bpu.latches.get (phaseOf r) = some l) (hr : l.record ≠ r) :
    commitOther r s = commitAlone (phaseOf r) l s := by
  simp [commitOther, latchOf, h, hr]

/-- A commit of another record's latch happens, or nothing does. -/
theorem commitOther_cases (r : Rec) (s : State) : commitOther r s = s ∨ ∃ l, commitOther r s = commitAlone (phaseOf r) l s := by
  cases h : s.bpu.latches.get (phaseOf r) with
  | none => exact .inl (commitOther_empty h)
  | some l =>
    by_cases hr : l.record = r
    · exact .inl (commitOther_own h hr)
    · exact .inr ⟨l, commitOther_other h hr⟩

/-- Two states alike in what a commit alone reads and writes, the saturation counts apart. -/
structure TornAlike (s t : State) : Prop where
  isOpen : t.bpu.isOpen = s.bpu.isOpen
  latches : t.bpu.latches = s.bpu.latches
  needs : t.bpu.needs = s.bpu.needs
  tornPair : t.bpu.counts.tornPair = s.bpu.counts.tornPair
  torn : ∀ p, (t.mpl.phases.get p).torn = (s.mpl.phases.get p).torn

theorem TornAlike.of_same {s t : State} (hb : t.bpu = s.bpu) (hm : t.mpl = s.mpl) : TornAlike s t := by
  constructor <;> simp [hb, hm]

theorem TornAlike.trans {s t u : State} (h : TornAlike s t) (h' : TornAlike t u) : TornAlike s u :=
  ⟨h'.isOpen.trans h.isOpen, h'.latches.trans h.latches, h'.needs.trans h.needs, h'.tornPair.trans h.tornPair,
    fun p => (h'.torn p).trans (h.torn p)⟩

theorem TornAlike.commitAlone {s t : State} (h : TornAlike s t) (p : Phase) (l : Latch) :
    TornAlike (commitAlone p l s) (commitAlone p l t) := by
  obtain ⟨latches, needs, counts⟩ := commitAlone_bpu p l s
  obtain ⟨latches', needs', counts'⟩ := commitAlone_bpu p l t
  refine ⟨by simp [h.isOpen], by rw [latches, latches', h.latches], ?_, ?_, fun q => ?_⟩
  · rw [needs, needs', h.needs, h.torn, h.isOpen, h.tornPair]
  · rw [counts, counts', h.isOpen]
    split
    · simp [h.tornPair]
    · exact h.tornPair
  · rw [commitAlone_phases, commitAlone_phases]
    split
    · simp [h.torn]
    · exact h.torn q

theorem TornAlike.commitOther {s t : State} (h : TornAlike s t) (r : Rec) : TornAlike (commitOther r s) (commitOther r t) := by
  cases hl : s.bpu.latches.get (phaseOf r) with
  | none => rwa [commitOther_empty hl, commitOther_empty (by rwa [h.latches])]
  | some l =>
    by_cases hr : l.record = r
    · rwa [commitOther_own hl hr, commitOther_own (by rwa [h.latches]) hr]
    · rw [commitOther_other hl hr, commitOther_other (by rwa [h.latches]) hr]
      exact h.commitAlone _ l

theorem TornAlike.commitPhase {s t : State} (h : TornAlike s t) (p : Phase) : TornAlike (commitPhase p s) (commitPhase p t) := by
  simp only [Machine.commitPhase, latchOf, h.latches]
  split
  · exact h.commitAlone p _
  · exact h

/-- A commit of another record leaves every count but that of torn pairs. -/
theorem commitOther_counts (r : Rec) (s : State) :
    (commitOther r s).bpu.counts = { s.bpu.counts with tornPair := (commitOther r s).bpu.counts.tornPair } := by
  rcases commitOther_cases r s with e | ⟨l, e⟩ <;> rw [e]
  rw [(commitAlone_bpu _ l s).2.2]
  split <;> rfl

theorem commitOther_saturation (r : Rec) (s : State) (p : Phase) :
    ((commitOther r s).mpl.phases.get p).saturation = (s.mpl.phases.get p).saturation := by
  rcases commitOther_cases r s with e | ⟨l, e⟩ <;> rw [e]
  rw [commitAlone_phases]
  split <;> rfl

theorem commitPhase_bpu {s : State} (ho : s.bpu.isOpen = true) (p : Phase) :
    (commitPhase p s).bpu.counts = { s.bpu.counts with
        tornPair := if s.bpu.latches.get p = none then s.bpu.counts.tornPair else satInc s.bpu.counts.tornPair }
      ∧ ∀ x, (commitPhase p s).bpu.latches.set p x = s.bpu.latches.set p x := by
  unfold commitPhase latchOf
  cases h : s.bpu.latches.get p with
  | none => exact ⟨by simp, fun _ => rfl⟩
  | some l =>
    obtain ⟨latches, _, counts⟩ := commitAlone_bpu p l s
    simp only [latches, counts, ho]
    exact ⟨rfl, fun x => PerPhase.set_set ..⟩

theorem commitPhase_saturation (p : Phase) (s : State) (q : Phase) :
    ((commitPhase p s).mpl.phases.get q).saturation = (s.mpl.phases.get q).saturation := by
  unfold commitPhase
  split
  · rw [commitAlone_phases]
    split <;> rfl
  · rfl

/-! ## The capture ring (R89, R90) -/

theorem recordCapture_running {s : State} (h : s.cap.state = .running) (r : Rec) (w : Fin 8) (v : Word)
    {ring : List CaptureEntry} (hr : ring = s.cap.ring.drop (s.cap.ring.length - 63) ++ [⟨r, w, v, s.itm.frames.setWidth 16⟩]) :
    (s.cap.post = none → recordCapture r w v s = { s with cap := { s.cap with ring := ring } })
      ∧ (∀ n, s.cap.post = some n → 2 ≤ n →
          recordCapture r w v s = { s with cap := { s.cap with ring := ring, post := some (n - 1) } })
      ∧ (s.cap.post = some 1 → recordCapture r w v s = freezeRing { s with cap := { s.cap with ring := ring } }) := by
  have appended : appendCapture s.cap.ring ⟨r, w, v, lowHalf s.itm.frames⟩ = ring := by
    rw [appendCapture, hr, show s.cap.ring.length + 1 - Config.ringCapacity = s.cap.ring.length - 63 by simp [Config.ringCapacity]]
    rfl
  have taken : recordCapture r w v s = match s.cap.post with
      | none => { s with cap := { s.cap with ring := ring } }
      | some n => if n ≤ 1 then freezeRing { s with cap := { s.cap with ring := ring } }
          else { s with cap := { s.cap with ring := ring, post := some (n - 1) } } := by
    rw [recordCapture, if_pos h, ← appended]; rfl
  refine ⟨fun hp => ?_, fun n hp hn => ?_, fun hp => ?_⟩
  · rw [taken, hp]
  · rw [taken, hp]; exact if_neg (by omega)
  · rw [taken, hp]; exact if_pos (by omega)

theorem freezeRing_dumps (s : State) : (freezeRing s).cap = { s.cap with state := .dumping, post := none }
    ∧ JobListed .captureDump (dumpWrites s.cap.ring.length) (freezeRing s) ∧ KeepsAllBut [.wen, .cap] s (freezeRing s) := by
  refine ⟨by simp [freezeRing, queueCaptureDump], jobListed_submit .captureDump _ (by simp [dumpWrites]), ?_⟩
  intro f hf; cases f <;> simp_all [Field.same]

/-- Settles O33: another record's latch is committed alone, and a running ring takes the write. -/
theorem latchCommitsAndCaptureEntries : Obligations.LatchCommitsAndCaptureEntries := by
  refine ⟨?_, ?_⟩
  · rintro s r u rfl
    refine ⟨commitOther_empty, fun l h => ⟨commitOther_own h, fun hr => ?_⟩⟩
    rw [commitOther_other h hr]
    obtain ⟨latches, needs, counts⟩ := commitAlone_bpu (phaseOf r) l s
    refine ⟨latches, ⟨_, _, needs⟩, by rw [commitAlone_phases, if_pos rfl], counts, ?_⟩
    intro f hf; cases f <;> simp_all [Field.same]
  · rintro s r w v u rfl
    refine ⟨fun h => by simp [recordCapture, h], fun h ring hr => ?_⟩
    obtain ⟨free, counting, freezes⟩ := recordCapture_running h r w v hr
    refine ⟨free, counting, fun hp => ?_⟩
    rw [freezes hp]
    obtain ⟨cap, job, _⟩ := freezeRing_dumps { s with cap := { s.cap with ring := ring } }
    refine ⟨cap, job, ?_⟩
    intro f hf; cases f <;> simp_all [Field.same]

/-! ## What a write reads of the state -/

theorem isLive_congr {s t : State} (hr : t.rct.restart = s.rct.restart) (hc : t.rfs.cursor = s.rfs.cursor)
    (hs : t.rfs.stage = s.rfs.stage) (r : Rec) (w : Fin 8) : isLive t r w = isLive s r w := by
  simp only [isLive, hr, hc, hs]

theorem slotOfRecord_congr {s t : State} (h : t.mpl.slots = s.mpl.slots) (r : Rec) : slotOfRecord t r = slotOfRecord s r := by
  simp only [slotOfRecord, h]

theorem carrierOf_congr {s t : State} (hk : t.mpl.k = s.mpl.k) (h : t.mpl.slots = s.mpl.slots) (r : Rec) (v : Word) :
    carrierOf t r v = carrierOf s r v := by
  simp only [carrierOf, hk, h]

theorem recordCapture_tornAlike (r : Rec) (w : Fin 8) (v : Word) (s : State) : TornAlike s (recordCapture r w v s) :=
  .of_same (by simp) (by simp)

/-- The commit at the head of a write inside the map. -/
theorem commitFirst (r : Rec) (w : Fin 8) (v : Word) (s : State) :
    (commitOther r (recordCapture r w v s)).bpu.latches = (commitOther r s).bpu.latches
      ∧ (commitOther r (recordCapture r w v s)).bpu.needs = (commitOther r s).bpu.needs
      ∧ (commitOther r (recordCapture r w v s)).bpu.counts = (commitOther r s).bpu.counts := by
  have alike := (recordCapture_tornAlike r w v s).commitOther r
  refine ⟨alike.latches, alike.needs, ?_⟩
  rw [commitOther_counts r (recordCapture r w v s), alike.tornPair, commitOther_counts r s, (recordCapture_frame r w v s).2.2.1]

theorem forward_slot {s : State} {r : Rec} {i : Slot} (h : slotOfRecord s r = some i) (w : Fin 8) (v : Word) :
    (forward r w v s).bpu.needs = s.bpu.needs ++ [.translated r w (physicalCommandAddr i w.val) v] := by
  simp [forward, h, pushNeed]

theorem forward_dark {s : State} {r : Rec} (h : slotOfRecord s r = none) (w : Fin 8) (v : Word) : forward r w v s = s := by
  simp [forward, h]

/-! ## Words 0, 3, 4 and 5 to 7 -/

theorem writeGate_refused {r : Rec} {v : Word} (h : 2 < v.toNat) (s : State) :
    writeGate r v s = countRefusal .addGateValue (commitOther r s) := by simp [writeGate, h]

theorem writeGate_taken {r : Rec} {v : Word} (h : v.toNat ≤ 2) (s : State) : writeGate r v s =
    if isLive s r 0 then forward r 0 v (setImage r (fun d => { d with gate := v }) (commitOther r s))
    else setImage r (fun d => { d with gate := v }) (commitOther r s) := by
  have live : isLive (setImage r (fun d => { d with gate := v }) (commitOther r s)) r 0 = isLive s r 0 :=
    isLive_congr (by simp) (by simp) (by simp) r 0
  simp [writeGate, Nat.not_lt.2 h, live]

theorem isLive_gate {s : State} {r : Rec} : isLive s r 0 = true ↔ s.rct.restart = .normal := by
  unfold isLive
  cases s.rct.restart <;> simp

/-- Settles O34: a value above 2 is refused; another goes to the image, and in NORMAL to the cell. -/
theorem gateWritesReachTheImage : Obligations.GateWritesReachTheImage := by
  intro s r v ho hk
  have e : exec (.logicalGateWrite r v) s = .next (settle (writeGate r v (recordCapture r 0 v s))) := by
    simp only [exec, execLogicalGateWrite, throughWindow_inside ho hk]
  obtain ⟨latches, needs, counts⟩ := commitFirst r 0 v s
  have slot : slotOfRecord (setImage r (fun d => { d with gate := v }) (commitOther r (recordCapture r 0 v s))) r
      = slotOfRecord s r := slotOfRecord_congr (by simp) r
  have image : (setImage r (fun d => { d with gate := v }) (commitOther r (recordCapture r 0 v s))).rfs.image
      = s.rfs.image.modify r (fun d => { d with gate := v }) := by simp [setImage]
  have live : isLive (recordCapture r 0 v s) r 0 = isLive s r 0 := isLive_congr (by simp) (by simp) (by simp) r 0
  refine ⟨_, e, fun h => ?_, fun h => ?_, ?_, by simp, ?_⟩
  · rw [writeGate_refused h]
    refine ⟨by simp, ?_, by simpa using needs⟩
    rw [countRefusal_open (by simpa using ho), counts, commitOther_counts]; rfl
  · rw [writeGate_taken h, live]
    refine ⟨?_, ?_, fun hd => ?_, fun i hr hi => ?_⟩
    · split
      · rw [(forward_frame ..).2.2.2.2.2.2.2.2.2.2.2.2.2.1, image]
      · exact image
    · have kept : (commitOther r s).bpu.counts.gateValue = s.bpu.counts.gateValue := by rw [commitOther_counts]
      split <;> simp [counts, kept]
    · by_cases hl : isLive s r 0 = true
      · rw [if_pos hl, forward_dark (by rw [slot]; exact hd.resolve_left (by simp [isLive_gate.1 hl]))]
        simpa using needs
      · rw [if_neg hl]; simpa using needs
    · rw [if_pos (isLive_gate.2 hr), forward_slot (slot.trans hi)]
      simpa using needs
  · by_cases h : 2 < v.toNat
    · rw [writeGate_refused h]; simpa using latches
    · rw [writeGate_taken (Nat.not_lt.1 h)]
      split <;> simpa using latches
  · intro f hf; cases f <;> simp_all [Field.same]

end Sys2Proof.Machine
end

