-- ==== Sys2Proof/Proofs/LatchedWrites.lean ====
section
/-! The carrier, auxiliary and bypass words, and the amplitudes and angles with their pair latches (R45, R48 to R52, R142
to R147). -/

namespace Sys2Proof.Machine

/-! ## Carrier, auxiliary and bypass words (R45, R47, R50, R147) -/

/-- A word of the image is stored behind the commit. -/
def storeWord (r : Rec) (f : RefRecord → RefRecord) (s : State) : State := setImage r f (commitOther r s)

theorem storeWord_image (r : Rec) (f : RefRecord → RefRecord) (s : State) :
    (storeWord r f s).rfs.image = s.rfs.image.modify r f := by simp [storeWord, setImage]

theorem storeWord_live (r : Rec) (f : RefRecord → RefRecord) (s : State) (w : Fin 8) :
    isLive (storeWord r f s) r w = isLive s r w := isLive_congr (by simp [storeWord]) (by simp [storeWord]) (by simp [storeWord]) r w

theorem storeWord_slot (r : Rec) (f : RefRecord → RefRecord) (s : State) : slotOfRecord (storeWord r f s) r = slotOfRecord s r :=
  slotOfRecord_congr (by simp [storeWord]) r

theorem writeCarrier_eq (r : Rec) (v : Word) (s : State) : writeCarrier r v s =
    let t := storeWord r (fun d => { d with carrier := v }) s
    if isLive s r 3 then forward r 3 (carrierOf s r v) t else t := by
  have live := storeWord_live r (fun d => { d with carrier := v }) s 3
  have carrier : carrierOf (storeWord r (fun d => { d with carrier := v }) s) r v = carrierOf s r v :=
    carrierOf_congr (by simp [storeWord]) (by simp [storeWord]) r v
  simp only [← live, ← carrier]
  rfl

theorem writeAux_eq (r : Rec) (i : Fin 3) {w : Fin 8} (hw : w.val = 5 + i.val) (v : Word) (s : State) : writeAux r i v s =
    let t := storeWord r (fun d => d.setAux i v) s
    if isLive s r w then forward r w v t else holdAux r i v t := by
  obtain rfl : w = ⟨5 + i.val, Nat.add_lt_add_left i.isLt 5⟩ := Fin.ext hw
  simp only [← storeWord_live r (fun d => d.setAux i v) s _]
  rfl

theorem holdAux_room {s : State} (h : s.rfs.aux.length < 32) (r : Rec) (i : Fin 3) (v : Word) :
    (holdAux r i v s).rfs.aux = s.rfs.aux ++ [⟨r, i, v⟩] ∧ (holdAux r i v s).bpu.counts = s.bpu.counts := by
  rw [holdAux, if_pos (show s.rfs.aux.length < Config.auxCapacity from h)]
  exact ⟨rfl, rfl⟩

theorem holdAux_full {s : State} (h : 32 ≤ s.rfs.aux.length) (ho : s.bpu.isOpen = true) (r : Rec) (i : Fin 3) (v : Word) :
    (holdAux r i v s).rfs.aux = s.rfs.aux
      ∧ (holdAux r i v s).bpu.counts = { s.bpu.counts with auxFull := satInc s.bpu.counts.auxFull } := by
  rw [holdAux, if_neg (show ¬s.rfs.aux.length < Config.auxCapacity from Nat.not_lt.2 h)]
  exact ⟨by simp, countRefusal_open ho _⟩

theorem writeCarrier_keeps (r : Rec) (v : Word) (s : State) :
    KeepsAllBut [.latches, .needs, .counts, .phases, .image, .wen, .cap] s (writeCarrier r v (recordCapture r 3 v s)) := by
  intro f hf; cases f <;> simp_all [Field.same]

theorem writeAux_keeps (r : Rec) (i : Fin 3) (w : Fin 8) (v : Word) (s : State) :
    KeepsAllBut [.latches, .needs, .counts, .phases, .image, .aux, .wen, .cap] s (writeAux r i v (recordCapture r w v s)) := by
  intro f hf; cases f <;> simp_all [Field.same]

/-- Settles O37: the word is stored behind the commit, and goes to the cell, to the list, or is refused. -/
theorem carrierAuxAndBypassWrites : Obligations.CarrierAuxAndBypassWrites := by
  rintro s r v n l ho hk rfl rfl
  refine ⟨⟨writeCarrier r v (recordCapture r 3 v s), ?_, ?_⟩, fun a w hw => ⟨writeAux r a v (recordCapture r w v s), ?_, ?_⟩,
    writeBypass r (recordCapture r 4 v s), ?_, ?_⟩
  · simp only [exec, execLogicalCarrierWrite, throughWindow_inside ho hk]
  · obtain ⟨latches, needs, _⟩ := commitFirst r 3 v s
    have live : isLive (recordCapture r 3 v s) r 3 = isLive s r 3 := isLive_congr (by simp) (by simp) (by simp) r 3
    have carrier : carrierOf (recordCapture r 3 v s) r v = carrierOf s r v := carrierOf_congr (by simp) (by simp) r v
    have slot := (storeWord_slot r (fun d => { d with carrier := v }) (recordCapture r 3 v s)).trans
      (slotOfRecord_congr (s := s) (by simp) r)
    have image := storeWord_image r (fun d => { d with carrier := v }) (recordCapture r 3 v s)
    have write := writeCarrier_eq r v (recordCapture r 3 v s)
    rw [live, carrier] at write
    refine ⟨?_, ?_, fun i hl hi => ?_, fun hd => ?_, by simp, ?_⟩
    · rw [write]; simp only []; split <;> simp [image]
    · rw [write]; simp only []; split <;> simpa [storeWord] using latches
    · rw [write]; simp only []
      rw [if_pos hl, forward_slot (slot.trans hi)]
      simpa [storeWord] using needs
    · rw [write]; simp only []
      split
      · next hl => rw [forward_dark (slot.trans (hd.resolve_left (by simp [hl])))]; simpa [storeWord] using needs
      · simpa [storeWord] using needs
    · exact writeCarrier_keeps r v s
  · have index : (⟨5 + a.val, by omega⟩ : Fin 8) = w := Fin.ext hw.symm
    simp only [exec, execLogicalAuxWrite, throughWindow_inside ho hk, index]
  · obtain ⟨latches, needs, counts⟩ := commitFirst r w v s
    have auxFull : (commitOther r (recordCapture r w v s)).bpu.counts.auxFull = s.bpu.counts.auxFull := by
      rw [counts, commitOther_counts]
    have live : isLive (recordCapture r w v s) r w = isLive s r w := isLive_congr (by simp) (by simp) (by simp) r w
    have write := writeAux_eq r a hw v (recordCapture r w v s)
    have slot := (storeWord_slot r (fun d => d.setAux a v) (recordCapture r w v s)).trans
      (slotOfRecord_congr (s := s) (by simp) r)
    have image := storeWord_image r (fun d => d.setAux a v) (recordCapture r w v s)
    have aux : (storeWord r (fun d => d.setAux a v) (recordCapture r w v s)).rfs.aux = s.rfs.aux := by simp [storeWord]
    rw [live] at write
    refine ⟨?_, ?_, fun i hl hi => ?_, fun hl hd => ?_, fun hl hlen => ?_, fun hl hlen => ?_, by simp, ?_⟩
    · rw [write]; simp only []; split <;> simp [image]
    · rw [write]; simp only []; split <;> simpa [storeWord] using latches
    · rw [write]; simp only []
      rw [if_pos hl, forward_slot (slot.trans hi)]
      exact ⟨by simpa [storeWord] using needs, by simp [storeWord]⟩
    · rw [write]; simp only []
      rw [if_pos hl, forward_dark (slot.trans hd)]
      exact ⟨by simpa [storeWord] using needs, aux⟩
    · rw [write]; simp only []
      rw [if_neg (by simp [hl])]
      obtain ⟨ha, hc⟩ := holdAux_room (s := storeWord r (fun d => d.setAux a v) (recordCapture r w v s)) (by rwa [aux]) r a v
      exact ⟨by simpa [storeWord] using needs, by rw [ha, aux], by rw [hc]; simpa [storeWord] using auxFull⟩
    · rw [write]; simp only []
      rw [if_neg (by simp [hl])]
      obtain ⟨ha, hc⟩ := holdAux_full (s := storeWord r (fun d => d.setAux a v) (recordCapture r w v s)) (by rwa [aux])
        (by simpa [storeWord] using ho) r a v
      exact ⟨by simpa [storeWord] using needs, by rw [ha, aux], by rw [hc]; simp [storeWord, auxFull]⟩
    · exact writeAux_keeps r a w v s
  · simp only [exec, execBypassWord, throughWindow_inside ho hk]
  · obtain ⟨latches, needs, counts⟩ := commitFirst r 4 v s
    refine ⟨?_, by simpa [writeBypass] using needs, by simpa [writeBypass] using latches, by simp, ?_⟩
    · rw [writeBypass, countRefusal_open (by simpa using ho), counts, commitOther_counts]; rfl
    · intro f hf; cases f <;> simp_all [Field.same]

/-! ## Saturations counted (R57, R142) -/

/-- A saturation is counted if there was one. -/
def saturateIf (b : Bool) (p : Phase) (s : State) : State := if b then countSaturation p s else s

@[simp] theorem saturateIf_frame (b : Bool) (p : Phase) (s : State) :
    (saturateIf b p s).rfs = s.rfs ∧ (saturateIf b p s).rct = s.rct ∧ (saturateIf b p s).plan = s.plan
      ∧ (saturateIf b p s).bpu.isOpen = s.bpu.isOpen ∧ (saturateIf b p s).mpl.slots = s.mpl.slots := by
  cases b <;> simp [saturateIf]

theorem saturateIf_tornAlike (b : Bool) (p : Phase) (s : State) : TornAlike s (saturateIf b p s) := by
  cases b
  · exact .of_same rfl rfl
  · refine ⟨by simp, by simp [saturateIf], by simp [saturateIf], ?_, fun q => ?_⟩
    · cases h : s.bpu.isOpen <;> simp [saturateIf, countSaturation, countRefusal, RefusalCounts.addSaturation, h]
    · simp only [saturateIf, countSaturation, countRefusal, ite_true, State.onBpu_mpl, State.onMpl_mpl, PerPhase.get_modify]
      split <;> rfl

theorem saturateIf_counts {s : State} (h : s.bpu.isOpen = true) (b : Bool) (p : Phase) :
    (saturateIf b p s).bpu.counts
      = { s.bpu.counts with saturation := Nat.repeat satInc (if b then 1 else 0) s.bpu.counts.saturation } := by
  cases b <;> simp [saturateIf, countSaturation, countRefusal, RefusalCounts.addSaturation, h, Nat.repeat]

theorem saturateIf_phase (b : Bool) (p : Phase) (s : State) : (saturateIf b p s).mpl.phases.get p
    = { s.mpl.phases.get p with
        saturation := Nat.repeat satInc (if b then 1 else 0) (s.mpl.phases.get p).saturation } := by
  cases b <;> simp [saturateIf, countSaturation, countRefusal, PerPhase.get_modify, Nat.repeat]

/-- Two saturations that may each be counted. -/
theorem repeat_satInc_twice (a b : Bool) (w : Word) :
    Nat.repeat satInc (if b then 1 else 0) (Nat.repeat satInc (if a then 1 else 0) w)
      = Nat.repeat satInc ((if a then 1 else 0) + if b then 1 else 0) w := by
  cases a <;> cases b <;> rfl

/-! ## Amplitudes (R48, R51, R142) -/

theorem storeAmplitude_eq (r : Rec) (v : Word) (s : State) : storeAmplitude r v s
    = (setImage r (fun d => { d with amplitude := (clampAmplitude v).1 }) (saturateIf (clampAmplitude v).2 (phaseOf r) s)).onRfs
      fun f => { f with amplitudeMark := f.amplitudeMark.set r true } := rfl

theorem latchAmplitude_eq (r : Rec) (i : Slot) (v : Word) (s : State) : latchAmplitude r i v s
    = setLatch (phaseOf r) (some ⟨r, i, (amplitudeOf s r v).1⟩)
        (commitPhase (phaseOf r) (saturateIf (amplitudeOf s r v).2 (phaseOf r) s)) := rfl

theorem storeAmplitude_tornAlike (r : Rec) (v : Word) (s : State) : TornAlike s (storeAmplitude r v s) := by
  rw [storeAmplitude_eq]
  exact (saturateIf_tornAlike _ _ s).trans (.of_same rfl rfl)

theorem storeAmplitude_counts {s : State} (h : s.bpu.isOpen = true) (r : Rec) (v : Word) : (storeAmplitude r v s).bpu.counts
    = { s.bpu.counts with saturation := Nat.repeat satInc (if (clampAmplitude v).2 then 1 else 0) s.bpu.counts.saturation } :=
  saturateIf_counts h ..

theorem storeAmplitude_phase (r : Rec) (v : Word) (s : State) : (storeAmplitude r v s).mpl.phases.get (phaseOf r)
    = { s.mpl.phases.get (phaseOf r) with
        saturation := Nat.repeat satInc (if (clampAmplitude v).2 then 1 else 0) (s.mpl.phases.get (phaseOf r)).saturation } :=
  saturateIf_phase ..

theorem amplitudeOf_congr {s t : State} {r : Rec} (hp : t.plan = s.plan)
    (h : (t.mpl.phases.get (phaseOf r)).scale = (s.mpl.phases.get (phaseOf r)).scale) (v : Word) :
    amplitudeOf t r v = amplitudeOf s r v := by
  simp only [amplitudeOf, phaseRecord, hp, h]

theorem isLive_not_awaiting {s : State} {r : Rec} {w : Fin 8} (h : isLive s r w = true) : s.rct.restart ≠ .awaiting :=
  fun ha => by simp [isLive_awaiting ha] at h

theorem writeAmplitude_live {r : Rec} {v : Word} {s : State} {i : Slot} (hl : isLive s r 1 = true) (hi : slotOfRecord s r = some i) :
    writeAmplitude r v s = latchAmplitude r i (clampAmplitude v).1 (storeAmplitude r v s) := by
  have live : isLive (storeAmplitude r v s) r 1 = true := (isLive_congr (by simp) (by simp) (by simp) r 1).trans hl
  have slot : slotOfRecord (storeAmplitude r v s) r = some i := (slotOfRecord_congr (by simp) r).trans hi
  simp only [writeAmplitude, live, slot, ite_true]
  exact testAwaiting_of_ne_awaiting (by simpa using isLive_not_awaiting hl)

theorem writeAmplitude_held {r : Rec} {v : Word} {s : State} (h : isLive s r 1 = false ∨ slotOfRecord s r = none) :
    writeAmplitude r v s = testAwaiting (commitOther r (storeAmplitude r v s)) := by
  have live : isLive (storeAmplitude r v s) r 1 = isLive s r 1 := isLive_congr (by simp) (by simp) (by simp) r 1
  have slot : slotOfRecord (storeAmplitude r v s) r = slotOfRecord s r := slotOfRecord_congr (by simp) r
  have none : (if isLive s r 1 = true then slotOfRecord s r else none) = none := by
    rcases h with h | h <;> simp [h]
  simp only [writeAmplitude, live, slot, none]

theorem latchAmplitude_keeps (r : Rec) (i : Slot) (v c : Word) (s : State) :
    KeepsAllBut [.latches, .needs, .counts, .phases, .image, .amplitudeMark, .wen, .cap] s
      (latchAmplitude r i c (storeAmplitude r v (recordCapture r 1 v s))) := by
  intro f hf; cases f <;> simp_all [Field.same]

theorem heldAmplitude_keeps (r : Rec) (v : Word) (s : State) :
    KeepsAllBut [.latches, .needs, .counts, .phases, .image, .amplitudeMark, .wen, .cap] s
      (commitOther r (storeAmplitude r v (recordCapture r 1 v s))) := by
  intro f hf; cases f <;> simp_all [Field.same]

/-- Settles O35: the clamped value is stored; live on a slot it is latched, and otherwise another record's latch goes. -/
theorem amplitudeWritesAreLatched : Obligations.AmplitudeWritesAreLatched := by
  rintro s r v clamped p ho hk rfl hc n m hn hm
  have e : exec (.logicalAmplitudeWrite r v) s = .next (settle (writeAmplitude r v (recordCapture r 1 v s))) := by
    simp only [exec, execLogicalAmplitudeWrite, throughWindow_inside ho hk]
  have clamp : clampAmplitude v = (clamped, decide (32767 < v.toNat)) := by
    rw [hc, clampAmplitude]; split <;> simp_all
  have one : (if (clampAmplitude v).2 = true then 1 else 0) = n := by rw [clamp, hn]; simp
  have open' : (recordCapture r 1 v s).bpu.isOpen = true := by simpa using ho
  have counts := storeAmplitude_counts open' r v
  have phase := storeAmplitude_phase r v (recordCapture r 1 v s)
  rw [one] at counts phase
  have alike := (recordCapture_tornAlike r 1 v s).trans (storeAmplitude_tornAlike r v (recordCapture r 1 v s))
  obtain ⟨mark, _, image⟩ := storeAmplitude_rfs r v (recordCapture r 1 v s)
  rw [clamp] at image
  refine ⟨fun i hl hi => ⟨_, e, ?_⟩, fun hd hw => ⟨_, e, ?_⟩⟩
  · rw [writeAmplitude_live ((isLive_congr (by simp) (by simp) (by simp) r 1).trans hl) ((slotOfRecord_congr (by simp) r).trans hi),
      clamp, latchAmplitude_eq]
    generalize hy : storeAmplitude r v (recordCapture r 1 v s) = y at counts phase alike mark image
    have amplitude : amplitudeOf y r clamped = amplitudeOf s r clamped := by
      refine amplitudeOf_congr (by simp [← hy]) ?_ clamped
      rw [phase]; simp
    have keeps := latchAmplitude_keeps r i v clamped s
    have cap : (latchAmplitude r i clamped y).cap = (recordCapture r 1 v s).cap := by simp [← hy]
    rw [hy] at keeps
    rw [latchAmplitude_eq] at keeps cap
    simp only [amplitude] at keeps cap ⊢
    have oy : y.bpu.isOpen = true := by rw [alike.isOpen, ho]
    have twice := alike.trans (saturateIf_tornAlike (amplitudeOf s r clamped).2 (phaseOf r) y)
    have committed := twice.commitPhase (phaseOf r)
    obtain ⟨cc, cl⟩ := commitPhase_bpu (s := saturateIf (amplitudeOf s r clamped).2 (phaseOf r) y) (by simpa using oy) (phaseOf r)
    refine ⟨?_, committed.needs, ?_, ?_, ?_, ?_, ?_, ?_⟩
    · rw [show (setLatch _ _ _).bpu.latches = _ from cl _, twice.latches]
    · rw [(setLatch_frame ..).2.2.2.2.2.2.2.2.2.2.2.2.1, commitPhase_saturation, saturateIf_phase, phase, hm, ← one,
        ← repeat_satInc_twice]
      simp
    · rw [(setLatch_frame ..).2.2.2.2.1, cc, saturateIf_counts oy, counts, twice.latches, hm, ← one, ← repeat_satInc_twice]
      simp
    · simpa using image
    · simpa using mark
    · exact cap
    · exact keeps
  · have held : isLive (recordCapture r 1 v s) r 1 = false ∨ slotOfRecord (recordCapture r 1 v s) r = none := by
      rwa [isLive_congr (s := s) (by simp) (by simp) (by simp), slotOfRecord_congr (s := s) (by simp)]
    have committed := alike.commitOther r
    have keeps := heldAmplitude_keeps r v s
    rw [writeAmplitude_held held, testAwaiting_idle]
    · refine ⟨committed.latches, committed.needs, ?_, ?_, ?_, ?_, by simp, keeps⟩
      · rw [commitOther_saturation, phase]; simp
      · rw [commitOther_counts, committed.tornPair, counts]; simp
      · simpa using image
      · simpa using mark
    · intro ha
      refine (hw (by simpa using ha)).imp (fun hf => ?_) (.imp (fun hs => by simpa using hs) fun hf => ?_)
      · refine (freshComplete_of_marks ?_ ?_ ?_ ?_).trans hf <;> simp [mark]
      · exact (noFaultPending_congr (by simp) (by simp)).trans hf

/-! ## Angles (R49, R52, R142) -/

theorem storeAngle_rfs (r : Rec) (v : Word) (s : State) :
    (storeAngle r v s).rfs.angleMark = s.rfs.angleMark.set r true
      ∧ (storeAngle r v s).rfs.image = s.rfs.image.modify r (fun d => { d with angle := v }) := by
  simp [storeAngle, setImage]

theorem writeAngle_live {r : Rec} {v : Word} {s : State} {i : Slot} (hl : isLive s r 2 = true) (hi : slotOfRecord s r = some i) :
    writeAngle r v s = commitAngle r i v (storeAngle r v s) := by
  have live : isLive (storeAngle r v s) r 2 = true := (isLive_congr (by simp) (by simp) (by simp) r 2).trans hl
  have slot : slotOfRecord (storeAngle r v s) r = some i := (slotOfRecord_congr (by simp) r).trans hi
  simp only [writeAngle, live, slot, ite_true]
  exact testAwaiting_of_ne_awaiting (by simpa using isLive_not_awaiting hl)

theorem writeAngle_held {r : Rec} {v : Word} {s : State} (h : isLive s r 2 = false ∨ slotOfRecord s r = none) :
    writeAngle r v s = testAwaiting (commitOther r (storeAngle r v s)) := by
  have live : isLive (storeAngle r v s) r 2 = isLive s r 2 := isLive_congr (by simp) (by simp) (by simp) r 2
  have slot : slotOfRecord (storeAngle r v s) r = slotOfRecord s r := slotOfRecord_congr (by simp) r
  have none : (if isLive s r 2 = true then slotOfRecord s r else none) = none := by
    rcases h with h | h <;> simp [h]
  simp only [writeAngle, live, slot, none]

theorem commitAngle_own {r : Rec} {i : Slot} {v : Word} {s : State} {l : Latch} (h : s.bpu.latches.get (phaseOf r) = some l)
    (hr : l.record = r) : commitAngle r i v s
      = setLatch (phaseOf r) none (pushNeed (.pair r l.slot l.amplitude (angleOf s r v)) s) := by
  simp [commitAngle, latchOf, h, hr]

/-- Behind another record's commit, or with an empty latch, the angle goes alone. -/
theorem commitAngle_alone {r : Rec} {i : Slot} {v : Word} {s : State}
    (h : ∀ l, s.bpu.latches.get (phaseOf r) = some l → l.record ≠ r) : commitAngle r i v s
      = pushNeed (.translated r 2 (physicalCommandAddr i 2) (angleOf s r v)) (commitOther r s) := by
  cases hl : s.bpu.latches.get (phaseOf r) with
  | none => simp [commitAngle, commitOther, latchOf, hl]
  | some l => simp [commitAngle, commitOther, latchOf, hl, h l hl]

/-- What every angle write inside the map leaves of the image, the mark and the rest. -/
theorem angleStored {s u : State} {r : Rec} {v : Word} {t : State} (ht : t = storeAngle r v (recordCapture r 2 v s))
    (hr : u.rfs = t.rfs) (h : KeepsAllBut [.latches, .needs, .counts, .phases] t u) :
    u.rfs.image = s.rfs.image.modify r (fun d => { d with angle := v }) ∧ u.rfs.angleMark = s.rfs.angleMark.set r true
      ∧ u.cap = (recordCapture r 2 v s).cap
      ∧ KeepsAllBut [.latches, .needs, .counts, .phases, .image, .angleMark, .wen, .cap] s u := by
  have stored : KeepsAllBut [.image, .angleMark, .wen, .cap] s t := by
    intro f hf; cases f <;> simp_all [Field.same]
  obtain ⟨mark, image⟩ := storeAngle_rfs r v (recordCapture r 2 v s)
  refine ⟨by rw [hr, ht, image]; simp, by rw [hr, ht, mark]; simp, ?_, stored.trans h (by decide) (by decide)⟩
  have cap : u.cap = t.cap := h .cap (by decide)
  rw [cap, ht]; simp

/-- Settles O36: live on a slot, the angle goes with its amplitude or alone; otherwise another record's latch goes. -/
theorem angleWritesCommitTheirPair : Obligations.AngleWritesCommitTheirPair := by
  rintro s r v ho hk good rfl
  have e : exec (.logicalAngleWrite r v) s = .next (settle (writeAngle r v (recordCapture r 2 v s))) := by
    simp only [exec, execLogicalAngleWrite, throughWindow_inside ho hk]
  generalize ht : storeAngle r v (recordCapture r 2 v s) = t
  have bpu : t.bpu = s.bpu := by simp [← ht]
  have mpl : t.mpl = s.mpl := by simp [← ht]
  have alike : TornAlike s t := .of_same bpu mpl
  have angle : angleOf t r v = angleOf s r v := angleOf_congr (by rw [mpl]) r v
  have committed := alike.commitOther r
  have live : isLive (recordCapture r 2 v s) r 2 = isLive s r 2 := isLive_congr (by simp) (by simp) (by simp) r 2
  have slot : slotOfRecord (recordCapture r 2 v s) r = slotOfRecord s r := slotOfRecord_congr (by simp) r
  refine ⟨fun i l hl hi hg hr => ⟨_, e, ?_⟩, fun i hl hi hg => ⟨_, e, ?_⟩, fun hd hw => ⟨_, e, ?_⟩⟩
  · rw [writeAngle_live (live.trans hl) (slot.trans hi), ht, commitAngle_own (by rwa [bpu]) hr, angle]
    refine ⟨angleStored ht.symm (by simp) ?_, ?_, ?_, ?_, ?_⟩
    · intro f hf; cases f <;> simp_all [Field.same]
    · simp [setLatch, pushNeed, bpu]
    · simp [setLatch, pushNeed, bpu]
    · simp [setLatch, pushNeed, bpu]
    · simp [mpl]
  · rw [writeAngle_live (live.trans hl) (slot.trans hi), ht, commitAngle_alone (by rwa [bpu]), angle]
    refine ⟨angleStored ht.symm (by simp) ?_, ?_, ?_⟩
    · intro f hf; cases f <;> simp_all [Field.same]
    · exact committed.latches
    · simp [pushNeed, committed.needs]
  · rw [writeAngle_held (by rwa [live, slot]), ht, testAwaiting_idle]
    · refine ⟨angleStored ht.symm (by simp) ?_, committed.latches, committed.needs⟩
      intro f hf; cases f <;> simp_all [Field.same]
    · obtain ⟨mark, _⟩ := storeAngle_rfs r v (recordCapture r 2 v s)
      intro ha
      refine (hw (by simpa [← ht] using ha)).imp (fun hf => ?_) (.imp (fun hs => by simpa [← ht] using hs) fun hf => ?_)
      · refine (freshComplete_of_marks ?_ ?_ ?_ ?_).trans hf <;> simp [← ht, mark]
      · exact (noFaultPending_congr (by simp [← ht]) (by simp [← ht])).trans hf

end Sys2Proof.Machine
end

