-- ==== Sys2Proof/Proofs/TranslationsAndCompletions.lean ====
section
/-! The translation of amplitudes and carriers (R48, R50) and the completions of jobs (R91, R101, R131, R172 to R174). -/

namespace Sys2Proof.Machine

/-! ## Rounding (R48) -/

theorem word_toNat {n : Nat} (h : n < 65536) : (word n).toNat = n := by simp [word, Nat.mod_eq_of_lt h]

/-- The rounded quotient lies at the quotient or one above, and above only with a remainder. -/
theorem roundDiv_cases (m : Rounding) (n d : Nat) :
    roundDiv m n d = n / d ∨ roundDiv m n d = n / d + 1 ∧ (0 < d → n % d ≠ 0) := by
  cases m with
  | down => exact .inl rfl
  | up => simp only [roundDiv]; split <;> omega
  | nearestEven => simp only [roundDiv]; split_ifs <;> omega

theorem roundDiv_mul {d : Nat} (h : 0 < d) (m : Rounding) (a : Nat) : roundDiv m (a * d) d = a := by
  rcases roundDiv_cases m (a * d) d with e | ⟨_, e⟩
  · rw [e, Nat.mul_div_cancel a h]
  · exact absurd (Nat.mul_mod_left a d) (e h)

theorem roundDiv_bounds {d : Nat} (h : 0 < d) (n : Nat) :
    roundDiv .down n d * d ≤ n ∧ n < (roundDiv .down n d + 1) * d ∧ n ≤ roundDiv .up n d * d ∧ roundDiv .up n d * d < n + d := by
  have parts := Nat.div_add_mod n d
  have rest := Nat.mod_lt n h
  have comm := Nat.mul_comm (n / d) d
  have up : roundDiv .up n d * d = n / d * d + if n % d = 0 then 0 else d := by
    simp only [roundDiv]; split <;> simp [Nat.add_mul]
  rw [up, show roundDiv .down n d = n / d from rfl, Nat.add_mul, Nat.one_mul]
  refine ⟨by omega, by omega, ?_, ?_⟩ <;> split <;> omega

theorem roundDiv_nearest {d : Nat} (h : 0 < d) (n : Nat) :
    (roundDiv .nearestEven n d = roundDiv .down n d ∨ roundDiv .nearestEven n d = roundDiv .up n d)
      ∧ (2 * (n % d) = d → roundDiv .nearestEven n d % 2 = 0)
      ∧ (2 * (n % d) < d → roundDiv .nearestEven n d = n / d)
      ∧ (d < 2 * (n % d) → roundDiv .nearestEven n d = n / d + 1) := by
  refine ⟨(roundDiv_cases .nearestEven n d).imp id fun ⟨e, hr⟩ => by rw [e]; simp [roundDiv, hr h], ?_⟩
  simp only [roundDiv]
  refine ⟨fun h => ?_, fun h => ?_, fun h => ?_⟩
  · split_ifs <;> omega
  · split_ifs; omega
  · split_ifs <;> omega

/-! ## The translated amplitude and carrier (R48, R50) -/

theorem translateAmplitude_toNat (m : Rounding) (scale a : Word) :
    (translateAmplitude m scale a).1.toNat = min 32767 (roundDiv m (a.toNat * scale.toNat) 4096)
      ∧ ((translateAmplitude m scale a).2 = true ↔ 32767 < roundDiv m (a.toNat * scale.toNat) 4096) := by
  simp only [translateAmplitude]
  split
  · next h => exact ⟨by rw [Nat.min_eq_left (by omega)]; rfl, by simpa using h⟩
  · next h => exact ⟨by rw [Nat.min_eq_right (by omega), word_toNat (by omega)], by simpa using h⟩

/-- At the unity scale an amplitude is translated to itself. -/
theorem translateAmplitude_unity (m : Rounding) {a : Word} (h : a.toNat ≤ 32767) : translateAmplitude m 4096 a = (a, false) := by
  have quotient : roundDiv m (a.toNat * (4096 : Word).toNat) 4096 = a.toNat := roundDiv_mul (by decide) m a.toNat
  simp only [translateAmplitude, quotient]
  rw [if_neg (Nat.not_lt.2 h), word, BitVec.ofNat_toNat, BitVec.setWidth_eq]

/-- A dark position is one that no slot of the phase holds. -/
theorem darkPositions_eq (m : SlotMap) (k : Nat) (p : Phase) : darkPositions m k p
    = (List.range k).filter fun q => (phaseSlots p).all fun i => (m.get i).role != .active q := by
  refine List.filter_congr fun q _ => ?_
  rw [Bool.eq_iff_iff, holderOf, Option.isNone_iff_eq_none, List.find?_eq_none, List.all_eq_true]
  simp

theorem translateCarrier_dark {k d : Nat} {ds : List Nat} {q : Nat} (v : Word)
    (h : rankOf (d :: ds) q < k - (d :: ds).length) :
    (translateCarrier k (d :: ds) q v).toNat = rankOf (d :: ds) q * 65536 / (k - (d :: ds).length) := by
  refine word_toNat (Nat.div_lt_of_lt_mul ?_)
  exact Nat.mul_lt_mul_of_pos_right h (by decide)

/-- Settles O40: the rounded quotient, saturated; and the rank among the positions that are not dark. -/
theorem amplitudeAndCarrierTranslation : Obligations.AmplitudeAndCarrierTranslation := by
  refine ⟨fun _ _ _ => ⟨rfl, rfl⟩, darkPositions_eq, translateAmplitude_toNat, fun m a h => translateAmplitude_unity m h,
    fun n d h => ?_, fun _ _ _ => rfl, fun k d ds q v h => translateCarrier_dark v h, by decide, by decide⟩
  obtain ⟨b1, b2, b3, b4⟩ := roundDiv_bounds h n
  obtain ⟨r1, r2, r3, r4⟩ := roundDiv_nearest h n
  exact ⟨b1, b2, b3, b4, r1, r2, r3, r4⟩

/-! ## Completions of records (R172 to R174) -/

theorem filter_of_find {α : Type} [BEq α] [LawfulBEq α] {p : α → Bool} {k : α} {l : List α} (h : l.find? p = some k) :
    l.filter p = k :: (l.erase k).filter p := by
  induction l with
  | nil => simp at h
  | cons x xs ih =>
    by_cases hx : p x = true
    · obtain rfl : x = k := by simpa [hx] using h
      simp [hx]
    · have hk : p k = true := List.find?_some h
      have ne : (x == k) = false := beq_eq_false_iff_ne.2 fun e => hx (e ▸ hk)
      rw [List.find?_cons_of_neg hx] at h
      rw [List.filter_cons_of_neg hx, List.erase_cons_tail (by simp [ne]), List.filter_cons_of_neg hx, ih h]

/-- Taking all the completions is taking the oldest, and then the others. -/
theorem takeRecordCompletions_step {s : State} {k : JobKind} (h : s.wen.done.find? JobKind.isLogRecord = some k) :
    takeRecordCompletions s = takeRecordCompletions (takeRecordCompletion k s) := by
  rw [takeRecordCompletions, filter_of_find h, List.foldl_cons, takeRecordCompletions, takeRecordCompletion_wen]

theorem takeRecordCompletion_log {s : State} {k : JobKind} {e : LogEntry} {rest : List LogEntry} (h : s.log.writeList = e :: rest) :
    (takeRecordCompletion k s).log
      = (if k = .logRecord true then
          Log.holdIrq { s.log with written := e.next, lastCategory := e.category.code, writeList := rest }
        else Log.updateIrq { s.log with written := e.next, lastCategory := e.category.code, writeList := rest }) := by
  simp [takeRecordCompletion, logCompleted, Log.retire, h]

theorem takeRecordCompletion_keeps (k : JobKind) (s : State) : KeepsAllBut [.wen, .log] s (takeRecordCompletion k s) := by
  intro f hf; cases f <;> simp_all [Field.same]

/-! ## Completion of the release (R101, R103, R152) -/

theorem erase_filter {α : Type} [BEq α] [LawfulBEq α] {p : α → Bool} {k : α} (h : p k = false) (l : List α) :
    (l.erase k).filter p = l.filter p := by
  induction l with
  | nil => rfl
  | cons x xs ih =>
    by_cases hx : (x == k) = true
    · obtain rfl : x = k := by simpa using hx
      simp [h]
    · rw [List.erase_cons_tail hx, List.filter_cons, List.filter_cons, ih]

/-- A completion of the kinds named does not bear on the other jobs. -/
theorem OtherJobsStay.of_done {p : JobKind → Bool} {k : JobKind} (hk : p k = true) {s t u : State}
    (hw : t.wen = { s.wen with done := s.wen.done.erase k }) (h : OtherJobsStay p t u) : OtherJobsStay p s u := by
  obtain ⟨jobs, buffers, done⟩ := h
  refine ⟨fun c => ?_, fun b hb => ?_, ?_⟩
  · have := jobs c; rw [hw] at this; cases c <;> exact this
  · have := buffers b; rw [hw] at this; cases b <;> exact this hb
  · rw [done, hw, erase_filter (by simp [hk])]

/-- The state in which the release's completion finds the controller. -/
def released (s : State) : State := clearRelease (takeDone .release s)

theorem released_same (s : State) : (released s).rct = s.rct ∧ (released s).log = s.log ∧ (released s).itm = s.itm
    ∧ (released s).hif = s.hif ∧ (released s).pins = s.pins ∧ (released s).plan = s.plan ∧ (released s).bpu = s.bpu
    ∧ (released s).wen = { s.wen with done := s.wen.done.erase .release }
    ∧ (released s).rfs.stage = none ∧ (released s).rfs.cursor = none
    ∧ KeepsAllBut [.cursor, .stage, .wen] s (released s) := by
  refine ⟨rfl, rfl, rfl, rfl, rfl, rfl, rfl, rfl, rfl, rfl, ?_⟩
  intro f hf; cases f <;> simp_all [Field.same, released, clearRelease, takeDone]

theorem releaseComplete_exec {s : State} (h : JobKind.release ∈ s.wen.done) (hr : s.rct.restart = .resuming) :
    exec .releaseComplete s = .next (settle (match s.rct.mode with
      | .rideThrough => enterNormal (released s)
      | .standstill => enterProving (released s))) := by
  have done : s.wen.done.contains .release = true := by simpa using h
  simp only [exec, execReleaseComplete, done, ite_true, releaseCompleted]
  rw [if_pos (by exact hr)]
  rfl

/-- From RESUMING the entry to NORMAL makes one record. -/
theorem enter_normal_resuming {s : State} (hr : s.rct.restart = .resuming) (slot arg : Word) :
    ∃ x, enter .normal slot arg s = logRecord .sequence RestartState.normal.code slot arg x ∧ x.log = s.log := by
  refine ⟨((s.onRct fun r => { r.leave .normal with restart := .normal }).onHif fun h => h.enter .resuming .normal s.rct.mode), ?_, rfl⟩
  simp [enter, hr, hoistEnter, show RestartState.normal.latching = true from rfl, show RestartState.resuming.latching = true from rfl,
    Rct.leave]

/-- From RESUMING the entry to PROVING with BRAKE_SET low makes the HOIST record ahead of its own (log 25). -/
theorem enter_proving_lifted {s : State} (hr : s.rct.restart = .resuming) (hb : s.pins.brakeSet = false) (slot arg : Word) :
    ∃ x, enter .proving slot arg s = logRecord .sequence RestartState.proving.code slot arg
        (logRecord .hoist 5 noSlot RestartState.proving.code x)
      ∧ x.log = s.log ∧ x.wen = s.wen ∧ x.itm = s.itm ∧ x.rct.restart = .proving := by
  refine ⟨((s.onRct fun r => { r.leave .proving with restart := .proving }).onHif fun h => h.enter .resuming .proving s.rct.mode),
    ?_, rfl, rfl, rfl, rfl⟩
  simp [enter, hr, hoistEnter, hoistRecord, hb, show RestartState.proving.latching = true from rfl, Rct.leave]

theorem enterNormal_resuming_rct {s : State} (hr : s.rct.restart = .resuming) : (enterNormal s).rct = { s.rct with
    restart := .normal, passCount := 0, budget := s.rct.budget.stop, pendingFaults := PerSlot.all none } := by
  simp [enterNormal, enter_rct, Rct.leave, hr]

theorem enterNormal_resuming_hif {s : State} (hr : s.rct.restart = .resuming) :
    (enterNormal s).hif = { s.hif with driveHealthy := true } := by
  simp [enterNormal, enter_hif, Hif.enter, hr, permitFalls, driveHealthyLevel]

/-- The entry to PROVING with its timer. -/
def startProving (s : State) : State :=
  (enter .proving noSlot s.rct.mode.code s).onRct fun r => { r with proving := .load s.plan.provingWindow }

theorem enterProving_eq (s : State) : enterProving s
    = if s.pins.brakeSet then startProving s else enterLockout .brakeLifted (startProving s) := by
  simp [enterProving, startProving]

theorem startProving_rct {s : State} (hr : s.rct.restart = .resuming) :
    (startProving s).rct = { s.rct with restart := .proving, proving := .load s.plan.provingWindow } := by
  simp [startProving, enter_rct, Rct.leave, hr]

theorem startProving_hif (s : State) (hm : s.rct.mode = .standstill) :
    (startProving s).hif.driveHealthy = true ∧ (startProving s).hif.permit = false := by
  simp [startProving, enter_hif, Hif.enter, permitFalls, driveHealthyLevel, hm]

theorem startProving_keeps {s : State} (hr : s.rct.restart = .resuming) :
    KeepsAllBut [.rct, .wen, .hif, .log] s (startProving s) := by
  have bpu : (startProving s).bpu = s.bpu := by simp [startProving, enter, hr, RestartState.latching]
  have mpl : (startProving s).mpl = s.mpl := by simp [startProving, enter, hr, RestartState.latching]
  have mpa : (startProving s).mpa = s.mpa := by simp [startProving]
  have rfs : (startProving s).rfs = s.rfs := by simp [startProving]
  intro f hf; cases f <;> simp_all [Field.same] <;> simp [startProving]

theorem enterNormal_resuming_keeps {s : State} (hr : s.rct.restart = .resuming) :
    KeepsAllBut [.rct, .wen, .hif, .log] s (enterNormal s) := by
  have bpu : (enterNormal s).bpu = s.bpu := by simp [enterNormal, enter, hr, RestartState.latching]
  have mpl : (enterNormal s).mpl = s.mpl := by simp [enterNormal, enter, hr, RestartState.latching]
  have rfs : (enterNormal s).rfs = s.rfs := by simp [enterNormal]
  intro f hf; cases f <;> simp_all [Field.same]

theorem startProving_grows (s : State) : JobsGrow s (startProving s) :=
  (enter_grows ..).trans (.of_wen rfl)

/-- The lockout of a brake lifted at the entry to PROVING, as it looks from RESUMING. -/
theorem lockout_from_resuming {s : State} (hr : s.rct.restart = .resuming) (hb : s.pins.brakeSet = false) :
    LocksOut 2 .brakeLifted s (enterLockout .brakeLifted (startProving (released s)))
      ∧ HandsFirst .hoist 5 noSlot RestartState.proving.code { s with rct := { s.rct with restart := .proving } }
          (enterLockout .brakeLifted (startProving (released s))) := by
  obtain ⟨x, enters, xl, xw, xi, xr⟩ := enter_proving_lifted (s := released s) hr hb noSlot s.rct.mode.code
  have same : (startProving (released s)).log = (logRecord .sequence RestartState.proving.code noSlot s.rct.mode.code
      (logRecord .hoist 5 noSlot RestartState.proving.code x)).log
      ∧ (startProving (released s)).wen = (logRecord .sequence RestartState.proving.code noSlot s.rct.mode.code
      (logRecord .hoist 5 noSlot RestartState.proving.code x)).wen := by rw [← enters]; exact ⟨rfl, rfl⟩
  obtain ⟨logged, worked⟩ := same
  have rct : (startProving (released s)).rct = { s.rct with restart := .proving, proving := .load s.plan.provingWindow } :=
    startProving_rct hr
  have keeps : KeepsAllBut [.cursor, .stage, .rct, .wen, .hif, .log] s (startProving (released s)) :=
    ((released_same s).2.2.2.2.2.2.2.2.2.2).trans (startProving_keeps hr) (by decide) (by decide)
  have grows : JobsGrow (released s) (startProving (released s)) := startProving_grows _
  have buffer : ∀ b, (startProving (released s)).wen.buffer b = s.wen.buffer b := fun b => (grows.buffer b).trans (by cases b <;> rfl)
  have mem : (startProving (released s)).mem = s.mem := keeps .mem (by decide)
  have cuts : (startProving (released s)).cuts = s.cuts := keeps .cuts (by decide)
  have fin : (startProving (released s)).fin = s.fin := keeps .fin (by decide)
  have slots : (startProving (released s)).mpl.slots = s.mpl.slots := keeps .slots (by decide)
  have holder : (startProving (released s)).mpa.holder = s.mpa.holder := keeps .holder (by decide)
  have itm : (startProving (released s)).itm = s.itm := keeps .itm (by decide)
  have spec := lockout_spec 0 .brakeLifted (startProving (released s))
  have follows := enterLockout_follows .brakeLifted (startProving (released s))
  generalize startProving (released s) = t at *
  refine ⟨{ spec with
    sequence := by simpa [rct] using spec.sequence
    blocked := slots ▸ spec.blocked
    others := (spec.others.grow grows (.refl _)).of_done (k := .release) rfl rfl
    memory := spec.memory.of_same buffer mem cuts rfl rfl id
    holder := fun hw => (spec.holder (mt (Writing.iff_of_same buffer).1 hw)).trans holder
    record := ?_
    latches := fun _ => spec.latches (by rw [rct]; rfl)
    lines := fun p => fin ▸ spec.lines p
    intake := fin ▸ spec.intake
    kept := keeps.trans spec.kept (by decide) (by decide) }, ?_⟩
  · have words : sequenceWords .lockout noSlot LockoutCause.brakeLifted.code t
        = sequenceWords .lockout noSlot LockoutCause.brakeLifted.code s := by simp only [sequenceWords, itm]
    exact (RecordMade.after (RecordMade.after ((words ▸ spec.record).of_log logged))).of_log xl
  · refine handsFirst_behind xl (fun j hj _ => ?_) xr xi ?_
    · rw [xw] at hj; exact hj
    · exact ((records_logRecord ..).follows).trans ((LogFollows.of_same logged worked).trans follows)

/-- Settles O50: the owner of each kind of job acts on its completion. -/
theorem completionsAreTakenByTheirOwners : Obligations.CompletionsAreTakenByTheirOwners := by
  refine ⟨fun s hd hr => ⟨fun hm => ⟨enterNormal (released s), ?_, ?_⟩, fun hm hb => ⟨startProving (released s), ?_, ?_⟩,
    fun hm hb => ⟨_, ?_, lockout_from_resuming hr hb⟩⟩, fun s => ⟨fun hd => ⟨_, if_pos (by simpa using hd), rfl, rfl, ?_⟩,
    fun hd => ⟨_, if_pos (by simpa using hd), ?_, ?_, ?_⟩, fun k e rest hk hl => ⟨takeRecordCompletion k s, ?_, ?_⟩,
    fun h => takeRecordCompletions_none s h⟩⟩
  · rw [releaseComplete_exec hd hr, hm]
  · obtain ⟨x, enters, xl⟩ := enter_normal_resuming (s := released s) hr noSlot (word s.rct.passCount)
    have logged : (enterNormal (released s)).log
        = (logRecord .sequence RestartState.normal.code noSlot (word s.rct.passCount) x).log := by rw [← enters]; rfl
    refine ⟨enterNormal_resuming_rct hr, enterNormal_resuming_hif hr, by simp [released, clearRelease],
      by simp [released, clearRelease], logged.trans (logRecord_log_congr xl), ?_⟩
    exact ((released_same s).2.2.2.2.2.2.2.2.2.2).trans (enterNormal_resuming_keeps hr) (by decide) (by decide)
  · rw [releaseComplete_exec hd hr, hm]; simp only [enterProving_eq]; rw [if_pos (by exact hb)]
  · obtain ⟨healthy, permit⟩ := startProving_hif (released s) hm
    refine ⟨startProving_rct hr, healthy, permit, ?_, ?_, ?_⟩
    · simp [startProving, released, clearRelease]
    · simp [startProving, released, clearRelease]
    · exact ((released_same s).2.2.2.2.2.2.2.2.2.2).trans (startProving_keeps hr) (by decide) (by decide)
  · rw [releaseComplete_exec hd hr, hm]; simp only [enterProving_eq]; rw [if_neg (show ¬(released s).pins.brakeSet = true from Bool.eq_false_iff.1 hb)]
  · intro f hf; cases f <;> simp_all [Field.same]
  · simp [captureDumped]
  · exact logRecord_log_congr rfl
  · intro f hf; cases f <;> simp_all [Field.same]
  · simp only [exec, execLogRecordComplete, hk]
  · have log := takeRecordCompletion_log (k := k) hl
    refine ⟨?_, takeRecordCompletion_wen k s, fun h => ?_, fun h => ?_, takeRecordCompletion_keeps k s, takeRecordCompletions_step hk⟩
    · rw [log]
      by_cases h : k = .logRecord true
      · simp [h, Log.holdIrq]
      · simp [h, Log.updateIrq]
    · rw [log, if_pos h]; rfl
    · rw [log, if_neg h, updateIrq_low]

end Sys2Proof.Machine
end

