-- ==== Sys2Proof/Proofs/Resets.lean ====
section
/-! The resets (R12, R31, R36, R77, R111, R171). -/

namespace Sys2Proof.Machine

/-! ## Power-on reset (R36, R111) -/

/-- The settled port behind a power-on reset, with RESET_N high and low. -/
theorem settle_reset (p : Pins) (m : Memory) (c : Nat) (q : List Instr) :
    (p.resetN = true → settle (submitResetBlock { State.held with pins := p, mem := m, cuts := c, pending := q })
        = { State.reset with pins := p, mem := m, cuts := c, pending := q })
      ∧ (p.resetN = false → ∃ w, settle (submitResetBlock { State.held with pins := p, mem := m, cuts := c, pending := q })
        = { State.held with pins := p, mem := m, cuts := c, pending := q, wen := w }) := by
  obtain ⟨arm, resetN, brakeSet, faultLine⟩ := p
  constructor
  · rintro rfl; rfl
  · rintro rfl; exact ⟨_, rfl⟩

theorem cutTenure_idle {s : State} (h : s.mpa.holder = none) : (cutTenure s).mem = s.mem ∧ (cutTenure s).cuts = s.cuts := by
  simp [cutTenure, h]

/-- Settles O5: the blocks are reset, the job is submitted, and the port settles by the level of RESET_N. -/
theorem powerOnResetGivesTheResetState : Obligations.PowerOnResetGivesTheResetState := by
  intro s
  obtain ⟨high, low⟩ := settle_reset s.pins (cutTenure s).mem (cutTenure s).cuts s.pending
  have e : exec .powerOnReset s = .next (settle (submitResetBlock
      { State.held with pins := s.pins, mem := (cutTenure s).mem, cuts := (cutTenure s).cuts, pending := s.pending })) := by
    simp only [exec, execPowerOnReset, blocksReset, cutTenure_frame]
  cases hr : s.pins.resetN with
  | true =>
    rw [high hr] at e
    refine ⟨_, e, ?_, rfl, rfl, cutTenure_idle, fun _ => ⟨rfl, rfl⟩, nofun⟩
    intro f hf; cases f <;> first | (exfalso; exact hf (by decide)) | rfl
  | false =>
    obtain ⟨w, he⟩ := low hr
    rw [he] at e
    refine ⟨_, e, ?_, rfl, rfl, cutTenure_idle, nofun, fun _ => rfl⟩
    intro f hf; cases f <;> first | (exfalso; exact hf (by decide)) | rfl

/-! ## Warm reset (R12, R31, R37, R77, R171) -/

theorem takeRecordCompletion_log_congr {s t : State} (h : t.log = s.log) (k : JobKind) :
    (takeRecordCompletion k t).log = (takeRecordCompletion k s).log := by
  simp [takeRecordCompletion, logCompleted, h]

/-- What the completions of records make of the log depends on the log and on the completions. -/
theorem takeRecordCompletions_log_congr {s t : State} (hl : t.log = s.log) (hw : t.wen = s.wen) :
    (takeRecordCompletions t).log = (takeRecordCompletions s).log := by
  have key : ∀ (ks : List JobKind) (s t : State), t.log = s.log →
      (ks.foldl (fun t k => takeRecordCompletion k t) t).log = (ks.foldl (fun t k => takeRecordCompletion k t) s).log := by
    intro ks
    induction ks with
    | nil => exact fun s t h => h
    | cons k ks ih => exact fun s t h => ih _ _ (takeRecordCompletion_log_congr h k)
  rw [takeRecordCompletions, takeRecordCompletions, hw]
  exact key _ s t hl

/-- The cut leaves the needs that wait, and a read that was cut answers. -/
theorem cutTenure_bpu (s : State) : (cutTenure s).bpu.needs = waitingNeeds s
    ∧ (∀ a l, runningNeeds s = [.read a l] → (cutTenure s).bpu.hostData = s.mem.read a)
    ∧ ((∀ a l, Need.read a l ∉ runningNeeds s) → (cutTenure s).bpu.hostData = s.bpu.hostData) := by
  have other (h : s.mpa.holder ≠ some .bpu) : (cutTenure s).bpu = s.bpu := by
    unfold cutTenure
    split <;> (try split) <;> first | exact absurd ‹_› h | simp
  by_cases h : s.mpa.holder = some .bpu
  · simp only [waitingNeeds, runningNeeds, h, ite_true]
    cases hn : s.bpu.needs with
    | nil => simp [cutTenure, h, hn]
    | cons n rest =>
      cases n with
      | read a l => simp [cutTenure, h, hn, Need.writes, answerRead, answerHost]
      | _ => simp [cutTenure, h, hn, Need.writes]
  · simp [waitingNeeds, runningNeeds, h, other h]

/-- A need that an unarmed part may hold. -/
def Need.taken (n : Need) : Prop := (∃ a v, n = .passWrite a v none) ∨ ∃ a, n = .read a false

theorem retakeNeed_bpu (s : State) (n : Need) :
    ((∀ m ∈ s.bpu.needs, m.taken) → ∀ m ∈ (retakeNeed s n).bpu.needs, m.taken)
      ∧ ((∃ a, n = .read a true) → (retakeNeed s n).bpu.hostData = 0)
      ∧ ((∀ a, n ≠ .read a true) → (retakeNeed s n).bpu.hostData = s.bpu.hostData) := by
  cases n with
  | passWrite a v d =>
    refine ⟨fun h m hm => ?_, by simp, fun _ => rfl⟩
    rcases List.mem_append.1 hm with hm | hm
    · exact h m hm
    · exact .inl ⟨a, v, List.mem_singleton.1 hm⟩
  | read a l =>
    cases l with
    | true => exact ⟨id, fun _ => rfl, fun h => absurd rfl (h a)⟩
    | false =>
      refine ⟨fun h m hm => ?_, by simp, fun _ => rfl⟩
      rcases List.mem_append.1 hm with hm | hm
      · exact h m hm
      · exact .inr ⟨a, List.mem_singleton.1 hm⟩
  | _ => exact ⟨id, by simp, fun _ => rfl⟩

theorem retakeNeeds_bpu (l : List Need) (s : State) :
    ((∀ m ∈ s.bpu.needs, m.taken) → ∀ m ∈ (l.foldl retakeNeed s).bpu.needs, m.taken)
      ∧ ((∃ a, Need.read a true ∈ l) → (l.foldl retakeNeed s).bpu.hostData = 0)
      ∧ ((∀ a, Need.read a true ∉ l) → (l.foldl retakeNeed s).bpu.hostData = s.bpu.hostData) := by
  induction l generalizing s with
  | nil => simp
  | cons n l ih =>
    obtain ⟨taken, zero, same⟩ := ih (retakeNeed s n)
    obtain ⟨first, answered, unanswered⟩ := retakeNeed_bpu s n
    refine ⟨fun h => taken (first h), fun ⟨a, ha⟩ => ?_, fun h => ?_⟩
    · by_cases hl : ∃ a, Need.read a true ∈ l
      · exact zero hl
      · have head : Need.read a true = n := (List.mem_cons.1 ha).resolve_right fun h => hl ⟨a, h⟩
        exact (same fun a h => hl ⟨a, h⟩).trans (answered ⟨a, head.symm⟩)
    · simp only [List.mem_cons, not_or] at h
      exact (same fun a => (h a).2).trans (unanswered fun a e => (h a).1 e.symm)

/-- Needs that pass in the unarmed part stay live, and the port settles on the first of them. -/
theorem settle_low {s : State} (hr : s.pins.resetN = false) (hw : s.wen = Wen.reset)
    (hm : s.mpa = ⟨none, 0⟩) (hn : ∀ n ∈ s.bpu.needs, n.taken) : ∃ h, settle s = { s with mpa := ⟨h, 0⟩ } := by
  have idle (t : State) (ht : t.wen = Wen.reset) : fill t = t := by
    simp [fill, fillBuffer, ht, Wen.reset, Wen.buffer, headOpen, stageTwo, stageThree, Buffer.isEmpty]
  have none (c : JobClass) : s.wen.readyOf c = .none := by simp [Wen.readyOf, hw, Wen.reset, Wen.buffer, Buffer.readyClass]
  cases hl : s.bpu.needs with
  | nil =>
    refine ⟨.none, ?_⟩
    have granted : grant s = s := by simp [grant, hm, grantLoop, choose, hr, bpuRequest, hl]
    rw [settle, idle s hw, granted, idle s hw, ← hm]
  | cons n rest =>
    refine ⟨some .bpu, ?_⟩
    have live : stillLive s n = true := by
      rcases hn n (hl ▸ List.mem_cons_self ..) with ⟨a, v, rfl⟩ | ⟨a, rfl⟩ <;> rfl
    have granted : grant s = { s with mpa := ⟨some .bpu, 0⟩ } := by
      simp [grant, hm, grantLoop, choose, hr, bpuRequest, hl, live, bpuFair, lowerReady, none, State.onMpa]
    rw [settle, idle s hw, granted]
    exact idle _ hw

/-- The state that a warm reset leaves ahead of the accesses it takes afresh. -/
def warmStart (s : State) : State :=
  (warmReset (takeRecordCompletions (cutTenure s))).onPins fun p => { p with resetN := false }

theorem resetNLow_exec {s : State} (h : s.pins.resetN = true) :
    exec .resetNLow s = .next (settle ((waitingNeeds s).foldl retakeNeed (warmStart s))) := by
  simp only [exec, execResetNLow, h, ite_true, ← (cutTenure_bpu s).1]
  rw [(takeRecordCompletions_frame (cutTenure s)).2.2.1]
  rfl

/-- What a fold of accesses taken afresh leaves of the state. -/
theorem retakeNeeds_keeps (l : List Need) (s : State) : KeepsAllBut [.needs, .hostData] s (l.foldl retakeNeed s) := by
  induction l generalizing s with
  | nil => intro f _; cases f <;> rfl
  | cons n l ih =>
    refine KeepsAllBut.trans (gs := [.needs, .hostData]) ?_ (ih _) (List.Subset.refl _) (List.Subset.refl _)
    intro f hf; cases f <;> simp_all [Field.same]

theorem submitResetBlock_eq (s : State) : submitResetBlock s
    = { s with wen := { s.wen with jobs1 := s.wen.jobs1 ++ [⟨.resetBlock, gateTo 0 allSlots, false⟩] } } := rfl

/-- Settles O6: the blocks are reset but for what the rules keep, and only unarmed accesses wait. -/
theorem warmResetKeepsTheQuarantineTable : Obligations.WarmResetKeepsTheQuarantineTable := by
  refine ⟨fun s hr => ?_, fun s hr => ⟨_, by simp only [exec, execResetNHigh, hr]; rfl, submitResetBlock_eq _⟩⟩
  have keeps := retakeNeeds_keeps (waitingNeeds s) (warmStart s)
  obtain ⟨taken, zero, same⟩ := retakeNeeds_bpu (waitingNeeds s) (warmStart s)
  obtain ⟨_, answered, unanswered⟩ := cutTenure_bpu s
  have data : (warmStart s).bpu.hostData = (cutTenure s).bpu.hostData := by
    simp only [warmStart, warmReset, State.onPins_bpu, (takeRecordCompletions_frame (cutTenure s)).2.2.1]
  have empty : ∀ m ∈ (warmStart s).bpu.needs, m.taken := fun m hm => absurd hm (List.not_mem_nil)
  have log : (takeRecordCompletions (cutTenure s)).log = (takeRecordCompletions s).log :=
    takeRecordCompletions_log_congr (by simp) (by simp)
  have start : KeepsAllBut [.pins, .mem, .hostData, .slots, .fin, .log, .cuts, .pending] State.held (warmStart s) := by
    intro f hf; cases f <;> first | (exfalso; exact hf (by decide)) | rfl
  have pins : (warmStart s).pins = { s.pins with resetN := false } := by simp [warmStart, warmReset, blocksReset]
  generalize hu : (waitingNeeds s).foldl retakeNeed (warmStart s) = u at *
  have wen : u.wen = Wen.reset := keeps .wen (by decide)
  have holder : u.mpa.holder = none := keeps .holder (by decide)
  have fair : u.mpa.fair = 0 := keeps .fair (by decide)
  have mpa : u.mpa = ⟨none, 0⟩ := by rw [← holder, ← fair]
  obtain ⟨h, settled⟩ := settle_low (s := u) (by rw [keeps .pins (by decide), pins]) wen mpa (taken empty)
  refine ⟨settle u, (resetNLow_exec hr).trans (by rw [hu]), ?_, ?_, ?_, fun i => ?_, fun i => ?_, fun p => ?_, ?_, ?_, fun hw => ⟨fun ho => ?_, fun a l hl => ?_⟩,
    fun hw => ?_, fun hh => ?_⟩
  · rw [settled]
    refine (start.trans keeps (by decide) (by decide)).trans (gs := [.holder]) (fs := [.pins, .mem, .needs, .hostData, .slots, .fin, .log, .cuts, .pending]) ?_ (by decide) (by decide)
    intro f hf; cases f <;> simp_all [Field.same]
  · rw [settled]; exact (keeps .pins (by decide)).trans pins
  · rw [settled]
    refine (keeps .pending (by decide)).trans ?_
    simp [warmStart, warmReset, blocksReset]
  · rw [settled, keeps .slots (by decide)]
    simp [warmStart, warmReset, SlotEntry.reset]
  · rw [settled, keeps .fin (by decide)]
    simp [warmStart, warmReset]
  · rw [settled, keeps .fin (by decide)]
    simp [warmStart, warmReset]
  · rw [settled, keeps .log (by decide), ← log]
    simp [warmStart, warmReset]
  · rw [settled]; exact taken empty
  · rw [settled]; exact (same hw).trans (data.trans (unanswered ho))
  · rw [settled]; exact (same hw).trans (data.trans (answered a l hl))
  · rw [settled]; exact zero hw
  · obtain ⟨mem, cuts⟩ := cutTenure_idle hh
    rw [settled]
    refine ⟨(keeps .mem (by decide)).trans ?_, (keeps .cuts (by decide)).trans ?_⟩
    · simp [warmStart, warmReset, blocksReset, mem]
    · simp [warmStart, warmReset, blocksReset, cuts]

end Sys2Proof.Machine
end

