-- ==== Sys2Proof/Proofs/ArmRising.lean ====
section
/-! ARM rising (R165) and the refusal of a plan (R167). -/

namespace Sys2Proof.Machine

/-! ## The jobs that a disarm left (R20, R174) -/

/-- The cancellation at ARM rising, seen from ahead of the line's change. -/
theorem cancelDisarmReports_spec (f : Pins → Pins) (s : State) :
    CutsOnly JobKind.leftByDisarm s (cancelDisarmReports (s.onPins f))
      ∧ (¬Writing JobKind.leftByDisarm s → (cancelDisarmReports (s.onPins f)).mpa = s.mpa)
      ∧ OtherJobsStay JobKind.leftByDisarm (takeRecordCompletions s) (cancelDisarmReports (s.onPins f))
      ∧ ∀ l, l = (takeRecordCompletions s).log →
          (cancelDisarmReports (s.onPins f)).log = { l with writeList := l.writeList.filter (!·.closing) } := by
  obtain ⟨cuts, mpa⟩ := cutsOnly_cancel JobKind.leftByDisarm (takeRecordCompletions (s.onPins f))
  have buffer : ∀ b, (takeRecordCompletions (s.onPins f)).wen.buffer b = s.wen.buffer b := fun b => takeRecordCompletions_buffer _ b
  have log : (takeRecordCompletions (s.onPins f)).log = (takeRecordCompletions s).log := takeRecordCompletions_log_congr rfl rfl
  refine ⟨cuts.of_same buffer (by simp) (by simp) rfl rfl id, fun h => ?_, ?_, fun l hl => ?_⟩
  · refine (mpa (mt (Writing.iff_of_same buffer).1 h)).trans ?_
    simp
  · exact (otherJobsStay_cancel _ _).grow (.of_wen (by simp)) (.of_wen rfl)
  · simp [cancelDisarmReports, log, hl]

/-- The entry to ARMING. -/
theorem enter_arming {s : State} (h : s.rct.restart = .unarmed) :
    (enter .arming noSlot 0 s).rct = { s.rct with restart := .arming }
      ∧ (enter .arming noSlot 0 s).hif.driveHealthy = false ∧ (enter .arming noSlot 0 s).hif.permit = false
      ∧ (s.log.running = false → (enter .arming noSlot 0 s).log = s.log)
      ∧ KeepsAllBut [.rct, .wen, .hif, .log] s (enter .arming noSlot 0 s) := by
  have bpu : (enter .arming noSlot 0 s).bpu = s.bpu := by simp [enter, h, RestartState.latching]
  have mpl : (enter .arming noSlot 0 s).mpl = s.mpl := by simp [enter, h, RestartState.latching]
  refine ⟨by simp [enter_rct, Rct.leave, h], ?_, ?_, fun hr => ?_, ?_⟩
  · simp [enter_hif, Hif.enter, driveHealthyLevel]
  · simp [enter_hif, Hif.enter, permitFalls]
  · obtain ⟨x, e, xl, _⟩ := enter_sequence (new := .arming) (by decide) (by decide) noSlot 0 s
    rw [e, logRecord_standing (by rw [xl]; exact hr), xl]
  · intro f hf; cases f <;> simp_all [Field.same]

/-! ## The return to UNARMED before adoption (R165, R167) -/

theorem endBeforeAdoption_grows (r : ArmResult) (a : Word) (s : State) : JobsGrow s (endBeforeAdoption r a s) := by
  have first : JobsGrow s (setArmResult r a s) := .of_wen rfl
  exact (first.trans (closeLog_grows none r.code (setArmResult r a s))).trans
    ((JobsGrow.of_wen (quiesce_frame _).2.2.2.2.2.2.2.2.2.2.2.2.2.1).trans (queueMapImage_grows false _))

theorem endBeforeAdoption_log {s : State} (h : s.log.running = false) (r : ArmResult) (a : Word) :
    (endBeforeAdoption r a s).log = s.log := by
  have standing : closeLog none r.code (setArmResult r a s) = setArmResult r a s := by simp [closeLog, setArmResult, h]
  simp only [endBeforeAdoption, queueMapImage_frame, quiesce_frame, standing]
  rfl

/-- What a return to UNARMED before the adoption leaves at the controller, the loader and the lines. -/
theorem endBeforeAdoption_spec (r : ArmResult) (a : Word) (s : State) :
    (endBeforeAdoption r a s).pld.result = r ∧ (endBeforeAdoption r a s).pld.arg = a
      ∧ (endBeforeAdoption r a s).pld.cursor = .none ∧ (endBeforeAdoption r a s).rct.restart = .unarmed
      ∧ timersStopped (endBeforeAdoption r a s).rct
      ∧ (endBeforeAdoption r a s).rct.direction = s.rct.direction
      ∧ (endBeforeAdoption r a s).rct.restartEnable = s.rct.restartEnable
      ∧ (endBeforeAdoption r a s).hif.driveHealthy = false ∧ (endBeforeAdoption r a s).hif.permit = false
      ∧ (endBeforeAdoption r a s).hif.lastTag = s.hif.lastTag
      ∧ (endBeforeAdoption r a s).mpa.holder = s.mpa.holder.map Holder.discarded
      ∧ ImagePending (endBeforeAdoption r a s) := by
  refine ⟨?_, ?_, ?_, by simp [endBeforeAdoption], ?_, ?_, ?_, ?_, ?_, ?_, ?_, imagePending_queue ..⟩
  case refine_4 => simpa [endBeforeAdoption, timersStopped] using stopTimers_stopped s.rct
  all_goals simp [endBeforeAdoption, setArmResult, Hif.bothLow]

/-! ## The regions at ARM rising (log 4, log 39) -/

theorem isProtected_iff (a : Addr) (v : Word) (d : Option Delivery) : (Need.passWrite a v d).isProtected = true ↔
    0x200 ≤ a.toNat ∧ a.toNat < 0x2C0 ∨ 0x800 ≤ a.toNat ∧ a.toNat < 0xC00 ∨ 0xC00 ≤ a.toNat ∧ a.toNat < 0xCE0 := by
  simp only [Need.isProtected, regionOf, inPhysicalCommand, inPlan, inImage, inCapture, inLog, Bool.or_eq_true, Bool.and_eq_true,
    decide_eq_true_eq]
  split_ifs <;> simp only [false_iff, true_iff] <;> omega

theorem regionOf_drive {a : Addr} {w : Fin 4} (h : regionOf a = .drive w) : 0x400 ≤ a.toNat ∧ a.toNat ≤ 0x403 := by
  by_contra outside
  have elsewhere : ¬(0x400 ≤ a.toNat ∧ a.toNat < 0x404) := by omega
  simp only [regionOf, elsewhere, if_false] at h
  split_ifs at h

theorem watchedDrive_elsewhere {a : Addr} (h : a.toNat < 0x400 ∨ 0x403 < a.toNat) (v : Word) (d : Option Delivery) :
    (Need.passWrite a v d).watchedDrive = .passWrite a v d := by
  cases hr : regionOf a with
  | drive w => have inside := regionOf_drive hr; omega
  | _ => simp only [Need.watchedDrive, hr]

/-- ARM rising in UNARMED is the entry to ARMING behind the cancellation. -/
theorem armRising_exec {s : State} (ha : s.pins.arm = false) (hu : s.rct.restart = .unarmed) (hr : s.pins.resetN = true) :
    exec .armRising s = .next (settle (armRise (s.onPins fun p => { p with arm := true }))) := by
  simp only [exec, execArmRising, ha]
  exact (if_neg (by decide)).trans (if_pos (show s.rct.restart = .unarmed ∧ s.pins.resetN = true from ⟨hu, hr⟩))

theorem armRise_brake {s : State} (h : s.pins.brakeSet = true) :
    armRise s = startPlanRead (enter .arming noSlot 0 (cancelDisarmReports s)) := by
  simp [armRise, startPlanRead, h]

theorem armRise_noBrake {s : State} (h : s.pins.brakeSet = false) :
    armRise s = endBeforeAdoption .brakeNotSet 0 (enter .arming noSlot 0 (cancelDisarmReports s)) := by
  simp [armRise, h]

theorem needsAtArming_congr {s t : State} (hb : t.bpu.needs = s.bpu.needs) (hh : t.mpa.holder = s.mpa.holder) :
    needsAtArming t = needsAtArming s := by
  simp only [needsAtArming, runningNeeds, waitingNeeds, hb, hh]

/-- Settles O8: the entry to ARMING, then the plan read or the return to UNARMED at once. -/
theorem armRisingStartsThePlanRead : Obligations.ArmRisingStartsThePlanRead := by
  refine ⟨fun s ha => ?_, fun a v d => ⟨isProtected_iff a v d, fun h => watchedDrive_elsewhere h v d, rfl, rfl, rfl, rfl, fun n hn => ?_⟩⟩
  · obtain ⟨cuts, mpa, others, logged⟩ := cancelDisarmReports_spec (fun p => { p with arm := true }) s
    have reports : KeepsAllBut [.pins, .mem, .holder, .wen, .log, .cuts] s
        (cancelDisarmReports (s.onPins fun p => { p with arm := true })) := by
      intro f hf; cases f <;> simp_all [Field.same]
    have pins : (cancelDisarmReports (s.onPins fun p => { p with arm := true })).pins = { s.pins with arm := true } := by simp
    have bpu : (cancelDisarmReports (s.onPins fun p => { p with arm := true })).bpu = s.bpu := by simp
    have pld : (cancelDisarmReports (s.onPins fun p => { p with arm := true })).pld = s.pld := by simp
    have rct : (cancelDisarmReports (s.onPins fun p => { p with arm := true })).rct = s.rct := by simp
    refine ⟨fun hu hr hb => ⟨_, armRising_exec ha hu hr, ?_⟩, fun hu hr hb => ⟨_, armRising_exec ha hu hr, ?_⟩, fun h => ?_⟩
    · rw [armRise_brake (by exact hb)]
      generalize cancelDisarmReports (s.onPins fun p => { p with arm := true }) = t at *
      obtain ⟨er, eh, ep, el, ek⟩ := enter_arming (s := t) (by rw [rct, hu])
      have grows := enter_grows .arming noSlot 0 t
      have memory := cuts.of_same (u' := startPlanRead (enter .arming noSlot 0 t)) (fun _ => rfl) rfl rfl
        (ek .mem (by decide)) (ek .cuts (by decide)) fun h => (ek .holder (by decide)).trans h
      refine ⟨(ek .pins (by decide)).trans pins, er.trans (by rw [rct]), ?_, eh, ep, fun hl l e => ?_, memory, others.grow (.refl _) (grows.trans (.of_wen rfl)),
        fun hw => ⟨?_, ?_⟩, ?_⟩
      · simp [startPlanRead, pld]
      · have standing : t.log.running = false := by rw [logged l e, e]; simpa using hl
        exact (el standing).trans (logged l e)
      · exact (ek .holder (by decide)).trans (congrArg Mpa.holder (mpa hw))
      · refine (needsAtArming_congr ?_ ?_ : _ = needsAtArming s)
        · exact (ek .needs (by decide)).trans (by rw [bpu])
        · exact (ek .holder (by decide)).trans (congrArg Mpa.holder (mpa hw))
      · refine (reports.trans ek (by decide) (by decide)).trans (gs := [.needs, .pld]) (fs := [.pins, .mem, .holder, .rct, .wen, .hif, .log, .cuts]) ?_ (by decide) (by decide)
        intro f hf; cases f <;> simp_all [Field.same, startPlanRead]
    · rw [armRise_noBrake (by exact hb)]
      have slots : (cancelDisarmReports (s.onPins fun p => { p with arm := true })).mpl = s.mpl := by simp
      have plan : (cancelDisarmReports (s.onPins fun p => { p with arm := true })).plan = s.plan := by simp
      generalize cancelDisarmReports (s.onPins fun p => { p with arm := true }) = t at *
      obtain ⟨er, eh, ep, el, ek⟩ := enter_arming (s := t) (by rw [rct, hu])
      obtain ⟨result, arg, cursor, restart, timers, _, _, healthy, permit, _, holder, image⟩ :=
        endBeforeAdoption_spec .brakeNotSet 0 (enter .arming noSlot 0 t)
      have grows := (enter_grows .arming noSlot 0 t).trans (endBeforeAdoption_grows .brakeNotSet 0 _)
      have memory := cuts.of_same (u' := endBeforeAdoption .brakeNotSet 0 (enter .arming noSlot 0 t)) (fun _ => rfl) rfl rfl
        (by simp) (by simp)
        fun h => by rw [holder, ek .holder (by decide), h]; rfl
      refine ⟨by simpa using pins, restart, timers, result, arg, cursor, healthy, permit, image, fun hl l e => ?_, memory,
        others.grow (.refl _) grows, fun hw => ?_, ?_, ?_, ?_⟩
      · have standing : t.log.running = false := by rw [logged l e, e]; simpa using hl
        rw [endBeforeAdoption_log (by rw [el standing]; exact standing), el standing, logged l e]
      · rw [holder, ek .holder (by decide), mpa hw]
      · simp [slots]
      · simp [slots]
      · simp [plan]
    · have stays : ¬(s.rct.restart = .unarmed ∧ s.pins.resetN = true) := fun ⟨hu, hr⟩ =>
        h.elim (fun h => h hu) fun h => by simp [h] at hr
      simp only [exec, execArmRising, ha]
      exact (if_neg (by decide)).trans (if_neg stays)
  · cases n with
    | passWrite b x e => exact absurd rfl (hn b x e)
    | _ => exact ⟨rfl, rfl⟩

/-! ## A refused plan (R166, R167) -/

theorem refusePlan_eq (r : ArmResult) (a : Word) (s : State) : refusePlan r a s = endBeforeAdoption r a (blockAll s) := rfl

theorem refusePlan_blocks (r : ArmResult) (a : Word) (s : State) : BlocksAll s.mpl.slots (refusePlan r a s) :=
  (endBeforeAdoption_grows r a (blockAll s)).blocksAll (blocksAll_blockAll s)

theorem judgePlan_refuses {s : State} {r : ArmResult} {a : Word} (h : planRefusal s.pld.copy s.mpl.slots = some (r, a)) :
    judgePlan s = refusePlan r a s := by simp [judgePlan, h]

/-- Settles O11: the refusal is the return to UNARMED with a block-all, behind the copies handed over. -/
theorem refusedPlanLeavesTheMap : Obligations.RefusedPlanLeavesTheMap := by
  refine fun s hh => ⟨fun r a hc hp => ⟨_, pldTenureEnd_exec hh, ?_⟩, fun hc hw => ⟨_, pldTenureEnd_exec hh, ?_⟩⟩
  · have taken : takePlanTenure (releasePort s) = refusePlan r a (handOverDrive (releasePort s)) := by
      have judged := judgePlan_refuses (s := handOverDrive (releasePort s)) (r := r) (a := a) (by simpa using hp)
      simp [takePlanTenure, hc, judged]
    rw [taken]
    obtain ⟨result, arg, cursor, restart, timers, direction, enable, _, _, tag, _, image⟩ :=
      endBeforeAdoption_spec r a (blockAll (handOverDrive (releasePort s)))
    have blocks := refusePlan_blocks r a (handOverDrive (releasePort s))
    refine ⟨result, arg, cursor, restart, timers, direction, enable, tag, ?_, image, ?_⟩
    · simpa using blocks
    · simp
  · have taken : takePlanTenure (releasePort s)
        = refusePlan .length 0 ((releasePort s).onPld fun p => { p with planLength := (s.mem.read 0x800).toNat + 1 }) := by
      have length : takePlanTenure (releasePort s) = takeLength (s.mem.read 0x800) (releasePort s) := by
        simp only [takePlanTenure, releasePort_frame, hc]; rfl
      rw [length, takeLength, if_pos (by omega)]
    rw [taken]
    generalize hx : (releasePort s).onPld (fun p => { p with planLength := (s.mem.read 0x800).toNat + 1 }) = x
    obtain ⟨result, arg, cursor, restart, _, _, _, _, _, _, _, image⟩ := endBeforeAdoption_spec .length 0 (blockAll x)
    have blocks := refusePlan_blocks .length 0 x
    refine ⟨result, arg, cursor, restart, ?_, image, ?_⟩
    · rw [← hx] at blocks ⊢; simpa using blocks
    · simp [← hx]

end Sys2Proof.Machine
end

