-- ==== Sys2Proof/Proofs/FaultRoutes.lean ====
section
/-! Faults at the Fault Intake, their routes by role and restart state (R83 to R86, R96, R98, R109, R124, R170). -/

namespace Sys2Proof.Machine

/-! ## What a trip and an end of arming do not look at -/

/-- A trip looks at no fault intake. -/
theorem Trips.of_fin {n : Nat} {c : TripCause} {f : Intake} {s u : State} (h : Trips n c { s with fin := f } u) : Trips n c s u := by
  have memory := h.memory.of_same (s := s) (u' := u) (fun b => rfl) rfl rfl rfl rfl id
  have others := h.others.grow (s := s) (.of_wen rfl) (.refl u)
  exact { h with
    others := others, memory := memory, record := h.record.of_log rfl
    holder := fun hw => h.holder fun hw' => hw ((Writing.iff_of_same fun b => rfl).1 hw')
    first := fun hn => { h.first hn with }
    later := fun hn => { h.later hn with }
    kept := fun g hg => by have := h.kept g hg; cases g <;> first | exact absurd (by decide) hg | exact this }

/-- The closing of a log looks at the log, the class-3 jobs, the restart state and the stamps alone. -/
theorem ClosesLog.of_same {armRecord : Option (Word × Word × Word)} {arg : Word} {s t u : State}
    (h : ClosesLog armRecord arg t u) (hl : t.log = s.log) (hw : t.wen = s.wen) (hr : t.rct.restart = s.rct.restart)
    (hi : t.itm = s.itm) : ClosesLog armRecord arg s u := by
  have words : ∀ c code slot a, recordWords c code slot a t = recordWords c code slot a s := by
    intro c code slot a; simp only [recordWords, hr, hi]
  have closed : ∀ d taken n, Closed d taken n t u → Closed d taken n s u := fun d taken n hc =>
    ⟨by rw [← hl]; exact hc.log, hc.irq, by rw [← hl, ← hw]; exact hc.jobs⟩
  refine ⟨fun hn => by rw [← hl, ← hw]; exact h.standing (by rw [hl]; exact hn), fun p q r hn hp hq hr' last e => ?_⟩
  rw [← hl] at hn hp hq hr' ⊢
  obtain ⟨plain, arms⟩ := h.closing p q r hn hp hq hr' last (e.trans (words ..).symm)
  refine ⟨fun ha => ⟨fun x => closed _ _ _ ((plain ha).1 x), fun x => closed _ _ _ ((plain ha).2 x)⟩, fun code slot a first ha ef => ?_⟩
  obtain ⟨a1, a2, a3⟩ := arms code slot a first ha (ef.trans (words ..).symm)
  exact ⟨fun x y => closed _ _ _ (a1 x y), fun x y => closed _ _ _ (a2 x y), fun x => closed _ _ _ (a3 x)⟩

/-- A return to UNARMED looks at no register of the Plan Loader. -/
theorem Disarms.of_pld {armRecord : Option (Word × Word × Word)} {arg : Word} {f : Pld → Pld} {s u : State}
    (h : Disarms armRecord arg (s.onPld f) u) : Disarms armRecord arg s u := by
  have memory := h.memory.of_same (s := s) (u' := u) (fun b => rfl) rfl rfl rfl rfl id
  have others := h.others.grow (s := s) (.of_wen rfl) (.refl u)
  have closing : ClosesLog armRecord arg (takeRecordCompletions s) u :=
    h.closing.of_same (takeRecordCompletions_log_congr rfl rfl) (by simp only [takeRecordCompletions_wen]; rfl) (by simp) (by simp)
  exact { h with
    others := others, memory := memory, closing := closing
    holder := fun hw => h.holder fun hw' => hw ((Writing.iff_of_same fun b => rfl).1 hw')
    kept := fun g hg => by have := h.kept g hg; cases g <;> first | exact absurd (by decide) hg | exact this }

theorem endArming_spec (r : ArmResult) (slot arg : Word) (s : State) :
    Disarms (some (r.code, slot, arg)) r.code s (endArming r slot arg s)
      ∧ (endArming r slot arg s).pld.result = r ∧ (endArming r slot arg s).pld.arg = 0 := by
  refine ⟨(disarm_spec (some (r.code, slot, arg)) r.code _).of_pld, ?_, ?_⟩ <;> simp [endArming, disarmWith, quiesce]

/-! ## A record and the fault intake -/

theorem logRecord_fin (c : Category) (code slot arg : Word) (s : State) (f : Intake) :
    logRecord c code slot arg { s with fin := f } = { logRecord c code slot arg s with fin := f } := by
  obtain ⟨hl, hw⟩ := logRecord_congr (s := { s with fin := f }) (t := s) rfl rfl rfl rfl c code slot arg
  rw [(records_logRecord c code slot arg { s with fin := f }).rest, hl, hw, (records_logRecord c code slot arg s).rest]

/-- The fault intake behind a fault: its strike, its last code, the request of the phase identified (R81, R83, R84). -/
def struckIntake (i : Slot) (code : Nat) (s : State) : Intake :=
  { slots := s.fin.slots.set i { (classify s.plan code (s.fin.slots.get i)).2 with lastCode := code }
    lines := s.fin.lines.modify (phaseOf i) IntakeLine.identify }

/-- A fault that is taken, before its route: the strike and the FAULT record. -/
def judgedFault (i : Slot) (code : Nat) (s : State) : State :=
  { logRecord .fault (word code) (word i.val) (classify s.plan code (s.fin.slots.get i)).1.arg s with fin := struckIntake i code s }

theorem judgedFault_mpl (i : Slot) (code : Nat) (s : State) : (judgedFault i code s).mpl = s.mpl := by simp [judgedFault]

theorem takeFault_disregarded {i : Slot} {code : Nat} {s : State} (h : (s.mpl.slots.get i).role.reports = false) :
    takeFault i code s = s := by simp [takeFault, h]

theorem takeFault_taken {i : Slot} {code : Nat} {s : State} (h : (s.mpl.slots.get i).role.reports = true) :
    takeFault i code s = if (s.mpl.slots.get i).role.isActive then
      faultEvent i ⟨(classify s.plan code (s.fin.slots.get i)).1.cls, code⟩ (judgedFault i code s)
      else nonActiveFault i (judgedFault i code s) := by
  have judged : (recordFault i code s).onFin (fun f => { f with lines := f.lines.modify (phaseOf i) IntakeLine.identify })
      = judgedFault i code s := by
    simp only [recordFault, judgedFault, struckIntake, State.onFin, logRecord_fin]
  simp only [takeFault, h, if_true, judged, judgedFault_mpl]

theorem Role.reports_iff (r : Role) : r.reports = true ↔ r.isActive = true ∨ r = .spare ∨ r.isBalance = true := by
  cases r <;> simp [Role.reports, Role.isActive, Role.isBalance]

theorem judgedFault_rct (i : Slot) (code : Nat) (s : State) : (judgedFault i code s).rct = s.rct := by simp [judgedFault]

theorem judgedFault_keeps (i : Slot) (code : Nat) (s : State) : KeepsAllBut [.fin, .wen, .log] s (judgedFault i code s) := by
  intro f hf; cases f <;> simp_all [Field.same, judgedFault]

theorem onRct_keeps (g : Rct → Rct) (s : State) : KeepsAllBut [.rct] s (s.onRct g) := by
  intro f hf; cases f <;> simp_all [Field.same]

theorem judgedFault_hands (i : Slot) (code : Nat) (s : State) :
    HandsRecord .fault (word code) (word i.val) (classify s.plan code (s.fin.slots.get i)).1.arg s (judgedFault i code s) :=
  ⟨rfl, rfl⟩

theorem judgedFault_handsFirst {i : Slot} {code : Nat} {s u : State} (h : LogFollows (judgedFault i code s) u) :
    HandsFirst .fault (word code) (word i.val) (classify s.plan code (s.fin.slots.get i)).1.arg s u :=
  handsFirst_of_follows rfl rfl rfl rfl ⟨h.writeList, h.jobs⟩

/-! ## The routes of a fault (R85, R86) -/

theorem nonActiveFault_slots (i : Slot) (s : State) :
    (nonActiveFault i s).mpl.slots = PerSlot.modify s.mpl.slots i SlotEntry.bypassFault
      ∧ (nonActiveFault i s).mpl.generation = s.mpl.generation + 1 := by
  simp [nonActiveFault, bumpGeneration]

theorem bumpGeneration_grows (s : State) : JobsGrow s (bumpGeneration s) :=
  (JobsGrow.of_wen (s := s) (t := s.onMpl fun m => { m with generation := m.generation + 1 }) rfl).trans (queueMapImage_grows false _)

theorem nonActiveFault_follows (i : Slot) (s : State) : LogFollows s (nonActiveFault i s) := by
  have bump : LogFollows s (bumpGeneration (s.onMpl fun m => { m with slots := PerSlot.modify m.slots i SlotEntry.bypassFault })) := by
    refine .of_grows (by simp [bumpGeneration]) (JobsGrow.trans ?_ (bumpGeneration_grows _))
    exact .of_wen rfl
  exact bump.trans (records_logRecord ..).follows

theorem nonActiveFault_keeps (i : Slot) (s : State) : KeepsAllBut [.slots, .generation, .wen, .log] s (nonActiveFault i s) := by
  intro f hf; cases f <;> simp_all [Field.same]

theorem nonActiveFault_image (i : Slot) (s : State) : ImagePending (nonActiveFault i s) :=
  (records_logRecord ..).imagePending (imagePending_queue ..)

theorem trip_follows (cause : TripCause) (entry : Option (Slot × PendingFault)) (s : State) : LogFollows s (trip cause entry s) := by
  obtain ⟨x, e, xw, _, _, _, xl, _⟩ := trip_enters cause entry s
  have cancelled : LogFollows s x := by
    refine LogFollows.of_stays (p := JobKind.ofSequence) (by rw [xl]) ?_ fun k => ofLog_ofSequence
    exact (cancelSequenceJobs_stays s).1.grow (.refl _) (.of_wen xw)
  obtain ⟨grows, list⟩ := captureTrigger_grows .trip (enter .tripped (tripSlotWord cause) x.rct.directionAtTrip.code x)
  rw [e]
  exact (cancelled.trans (enter_follows ..)).trans (.of_grows list grows)

theorem trip_pendingFaults (cause : TripCause) (entry : Option (Slot × PendingFault)) (s : State) :
    (trip cause entry s).rct.pendingFaults
      = match entry with | some (i, f) => s.rct.pendingFaults.set i (some f) | none => s.rct.pendingFaults := by
  cases entry <;> by_cases hn : s.rct.restart = .normal <;> simp [trip, enter_rct, leave_fields, hn, firstTrip, clearMarks]

theorem faultEvent_trips {i : Slot} {f : PendingFault} {s : State} (h1 : s.rct.restart ≠ .unarmed) (h2 : s.rct.restart ≠ .arming)
    (h3 : s.rct.restart ≠ .tripped) (h4 : s.rct.restart ≠ .lockout) :
    faultEvent i f s = trip (.slot i) (some (i, f)) s := by
  unfold faultEvent
  cases hr : s.rct.restart <;> first | rfl | exact absurd hr ‹_›

theorem judgedFault_trips {n : Nat} {i : Slot} {code : Nat} {c : TripCause} {s u : State}
    (h : Trips n c (judgedFault i code s) u) : Trips (n + 1) c s u := h.of_fin.after

/-! ## The class of a fault (R83) -/

theorem hardByCode_iff {p : Settings} {code : Nat} :
    hardByCode p code = true ↔ 64 < code ∨ p.hardFlags.getLsbD (code - 1) = true := by simp [hardByCode]

theorem classify_hard {p : Settings} {code : Nat} {e : IntakeSlot} (h : hardByCode p code = true) :
    classify p code e = (.hardByClass, e) := by simp [classify, h]

theorem classify_strikes {p : Settings} {code : Nat} {e : IntakeSlot} (h : hardByCode p code = false)
    (hs : p.strikeLimit ≤ e.strikes) : classify p code e = (.hardByStrikes, e) := by simp [classify, h, hs]

theorem classify_strike {p : Settings} {code : Nat} {e : IntakeSlot} (h : hardByCode p code = false)
    (hs : e.strikes < p.strikeLimit) :
    classify p code e = (if e.strikes + 1 = p.strikeLimit then .hardByStrikes else .transient, { e with
      strikes := e.strikes + 1
      strikeTimer := if e.strikes = 0 then .load (p.strikeSeconds * 1000) else e.strikeTimer }) := by
  have reached : p.strikeLimit ≤ e.strikes + 1 ↔ e.strikes + 1 = p.strikeLimit := by omega
  simp only [classify, h, Bool.false_eq_true, if_false, if_neg (Nat.not_le.2 hs), reached]
  split <;> rfl

theorem classed_cls (c : Classed) : c.cls = if c = .transient then .transient else .hard := by cases c <;> rfl

theorem joinPending_eq (i : Slot) (f : PendingFault) (r : Rct) :
    joinPending i f r = { r with pendingFaults := r.pendingFaults.set i (some ⟨
      if (r.pendingFaults.get i).any (·.cls == .hard) then .hard else f.cls, f.code⟩) } := by
  cases h : r.pendingFaults.get i <;> simp [joinPending, h]

/-- Settles O18: the route of a fault by the role of its slot and, for an ACTIVE slot, by the restart state. -/
theorem faultsAreClassedAndRouted : Obligations.FaultsAreClassedAndRouted := by
  refine ⟨fun p code e => ⟨fun h => classify_hard (hardByCode_iff.2 (.inl h)), fun _ _ h => classify_hard (hardByCode_iff.2 (.inr h)),
    fun _ hc h hs => classify_strikes ?_ hs, fun _ hc h hs => ?_⟩, ?_⟩
  · simpa [hardByCode, h] using hc
  · rw [classify_strike (by simpa [hardByCode, h] using hc) hs]
    exact ⟨rfl, rfl⟩
  intro s i code judged struck hj hs
  have hs : struck = struckIntake i code s := hs
  subst hs hj
  refine ⟨fun h => takeFault_disregarded ?_, fun u h e => ?_, fun u q cls h e ec => ?_⟩
  · rcases h with h | h <;> rw [h] <;> rfl
  · have inactive : (s.mpl.slots.get i).role.isActive = false := by
      rcases h with h | h
      · rw [h]; rfl
      · cases hr : (s.mpl.slots.get i).role <;> simp_all [Role.isBalance, Role.isActive]
    have eu : u = nonActiveFault i (judgedFault i code s) := by
      rw [e, takeFault_taken ((Role.reports_iff _).2 (.inr h)), inactive]; rfl
    subst eu
    obtain ⟨slots, generation⟩ := nonActiveFault_slots i (judgedFault i code s)
    rw [judgedFault_mpl] at slots generation
    refine ⟨by simp [slots, SlotEntry.bypassFault, PerSlot.get_modify], fun j hj => by simp [slots, hj, PerSlot.get_modify], generation, nonActiveFault_image .., by simp [judgedFault],
      judgedFault_handsFirst (nonActiveFault_follows ..), ?_⟩
    exact (judgedFault_keeps i code s).trans (nonActiveFault_keeps i _) (by decide) (by decide)
  · have route : u = faultEvent i ⟨cls, code⟩ (judgedFault i code s) := by
      rw [e, takeFault_taken (by rw [h]; rfl), h, ec, classed_cls]; rfl
    have state : (judgedFault i code s).rct.restart = s.rct.restart := by rw [judgedFault_rct]
    refine ⟨fun hr => ?_, fun hr => ?_, fun hr => ?_, fun h1 h2 h3 h4 => ?_⟩
    · have eu : u = (judgedFault i code s).onRct (joinPending i ⟨cls, code⟩) := by rw [route, faultEvent, state, hr]
      subst eu
      refine ⟨?_, rfl, judgedFault_hands i code s, ?_⟩
      · rw [← judgedFault_rct i code s]; exact joinPending_eq ..
      · refine (judgedFault_keeps i code s).trans (onRct_keeps _ _) (by decide) (by decide)
    · have eu : u = judgedFault i code s := by rw [route, faultEvent, state, hr]
      subst eu
      exact ⟨rfl, judgedFault_hands i code s, judgedFault_keeps i code s⟩
    · have eu : u = endArming .cellFault (word i.val) (word code) (judgedFault i code s) := by rw [route, faultEvent, state, hr]
      subst eu
      exact endArming_spec .cellFault (word i.val) (word code) (judgedFault i code s)
    · rw [← state] at h1 h2 h3 h4
      rw [route, faultEvent_trips h1 h2 h3 h4]
      refine ⟨judgedFault_trips (trip_spec ..), by simp [judgedFault], ?_, judgedFault_handsFirst (trip_follows ..)⟩
      rw [trip_pendingFaults, judgedFault_rct]

end Sys2Proof.Machine
end

