-- ==== Sys2Proof/Proofs/FaultLines.lean ====
section
/-! The edges of the fault lines (R80, R81). -/

namespace Sys2Proof.Machine

theorem Disarms.of_fin {armRecord : Option (Word × Word × Word)} {arg : Word} {f : Intake} {s u : State}
    (h : Disarms armRecord arg { s with fin := f } u) (hs : f.slots = s.fin.slots) : Disarms armRecord arg s u := by
  have memory := h.memory.of_same (s := s) (u' := u) (fun b => rfl) rfl rfl rfl rfl id
  have others := h.others.grow (s := s) (.of_wen rfl) (.refl u)
  have closing : ClosesLog armRecord arg (takeRecordCompletions s) u :=
    h.closing.of_same (takeRecordCompletions_log_congr rfl rfl) (by simp only [takeRecordCompletions_wen]) (by simp) (by simp)
  exact { h with
    others := others, memory := memory, closing := closing
    strikes := fun i => by have := h.strikes i; simpa only [hs] using this
    holder := fun hw => h.holder fun hw' => hw ((Writing.iff_of_same fun b => rfl).1 hw')
    kept := fun g hg => by have := h.kept g hg; cases g <;> first | exact absurd (by decide) hg | exact this }

/-- The fault intake behind an edge that makes a request, or one that is identified at once. -/
def requestedIntake (p : Phase) (level : Bool) (s : State) : Intake :=
  { slots := s.fin.slots
    lines := s.fin.lines.set p (if identifiedAtOnce p s then { s.fin.lines.get p with lastLevel := level }
      else ⟨true, level, .load s.plan.identWindow⟩) }

/-- A request at the Fault Intake, before the line event. -/
def requested (p : Phase) (level : Bool) (s : State) : State :=
  { logRecord .fault 0 noSlot (phaseCode p) s with fin := requestedIntake p level s }

theorem identifiedAtOnce_congr {p : Phase} {s t : State} (hm : t.mpl.slots = s.mpl.slots) (hf : t.fin.slots = s.fin.slots)
    (hl : t.lsv = s.lsv) : identifiedAtOnce p t = identifiedAtOnce p s := by simp only [identifiedAtOnce, hm, hf, hl]

theorem newRequest_eq (p : Phase) (level : Bool) (s : State) :
    newRequest p (s.onFin fun f => { f with lines := f.lines.modify p fun l => { l with lastLevel := level } })
      = lineEvent p (requested p level s) := by
  have recorded : logRecord .fault 0 noSlot (phaseCode p)
      (s.onFin fun f => { f with lines := f.lines.modify p fun l => { l with lastLevel := level } })
      = { logRecord .fault 0 noSlot (phaseCode p) s with
          fin := { s.fin with lines := s.fin.lines.modify p fun l => { l with lastLevel := level } } } := logRecord_fin ..
  have same : ∀ f : Intake, f.slots = s.fin.slots →
      identifiedAtOnce p { logRecord .fault 0 noSlot (phaseCode p) s with fin := f } = identifiedAtOnce p s :=
    fun f hf => identifiedAtOnce_congr (by simp) hf (by simp)
  rw [newRequest, recorded, same { s.fin with lines := s.fin.lines.modify p fun l => { l with lastLevel := level } } rfl]
  cases h : identifiedAtOnce p s
  · simp [requested, requestedIntake, h, State.onFin, PerPhase.modify, PerPhase.set_set]
  · simp [requested, requestedIntake, h, PerPhase.modify]

theorem requested_rct (p : Phase) (level : Bool) (s : State) : (requested p level s).rct = s.rct := by simp [requested]

theorem requested_keeps (p : Phase) (level : Bool) (s : State) : KeepsAllBut [.fin, .wen, .log] s (requested p level s) := by
  intro f hf; cases f <;> simp_all [Field.same, requested]

theorem requested_handsFirst {p : Phase} {level : Bool} {s t u : State} (hl : t.log = s.log) (hw : t.wen = s.wen)
    (hr : t.rct.restart = s.rct.restart) (hi : t.itm = s.itm) (h : LogFollows (requested p level t) u) :
    HandsFirst .fault 0 noSlot (phaseCode p) s u :=
  handsFirst_of_follows hl hw hr hi ⟨h.writeList, h.jobs⟩

theorem lineEvent_trips {p : Phase} {s : State} (h1 : s.rct.restart ≠ .unarmed) (h2 : s.rct.restart ≠ .arming)
    (h3 : s.rct.restart ≠ .lockout) (h4 : s.rct.restart ≠ .tripped) : lineEvent p s = trip (.phase p) none s := by
  unfold lineEvent
  cases hr : s.rct.restart <;> first | rfl | exact absurd hr ‹_›

theorem lineEvent_idle {p : Phase} {s : State} (h : s.rct.restart = .tripped ∨ s.rct.restart = .lockout) : lineEvent p s = s := by
  rcases h with h | h <;> simp only [lineEvent, h]

theorem takeLevel_quiet {p : Phase} {level : Bool} {s : State}
    (h : (s.fin.lines.get p).lastLevel = level ∨ (s.fin.lines.get p).request = true ∨ level ≠ s.plan.senseRising) :
    takeLevel p level s = s.onFin fun f => { f with lines := f.lines.modify p fun l => { l with lastLevel := level } } := by
  refine if_neg fun ⟨changed, active, clear⟩ => ?_
  rcases h with h | h | h
  · exact changed h
  · simp [h] at clear
  · exact h active

theorem takeLevel_edge {p : Phase} {s : State} (h1 : (s.fin.lines.get p).lastLevel ≠ s.plan.senseRising)
    (h2 : (s.fin.lines.get p).request = false) :
    takeLevel p s.plan.senseRising s = lineEvent p (requested p s.plan.senseRising s) :=
  (if_pos ⟨h1, rfl, h2⟩).trans (newRequest_eq ..)

theorem onFin_keeps (g : Intake → Intake) (s : State) : KeepsAllBut [.fin] s (s.onFin g) := by
  intro f hf; cases f <;> simp_all [Field.same]

/-- Settles O19: an edge with the request clear is a record and a line event, any other follows the level. -/
theorem faultLineEdgesMakeRequests : Obligations.FaultLineEdgesMakeRequests := by
  intro s p s' level hlevel hs'
  have taken : ∀ x : Bool, s.bpu.isOpen = true → lineTransition p x s
      = takeLevel p x { s with pins := { s.pins with faultLine := s.pins.faultLine.set p x } } := fun x ho => if_pos ho
  have edge : exec (.faultLineEdge p) s = .next (settle (lineTransition p level s)) := by rw [hlevel]; rfl
  refine ⟨fun ho => ⟨_, edge, ?_⟩, fun ho h => ⟨_, edge, ?_⟩, fun ho h1 h2 => ?_, fun t ht => ⟨lineTransition p (!level) s, by rw [hlevel]; rfl, ?_⟩⟩
  · exact (if_neg (by simpa [takesEdges] using ho)).trans hs'.symm
  · rw [taken level ho, ← hs', takeLevel_quiet (by rw [hs']; exact h.imp_right .inl)]
    exact ⟨onFin_keeps _ _, by rw [hs']; rfl, by rw [hs']; rfl⟩
  · have result : lineTransition p level s = lineEvent p (requested p level s') := by
      rw [taken level ho, ← hs', hlevel]
      have plan : s.plan = s'.plan := by rw [hs']
      rw [plan]
      exact takeLevel_edge (by rw [hs']; exact fun e => h1 (e.trans hlevel.symm)) (by rw [hs']; exact h2)
    have rct : (requested p level s').rct = s.rct := by rw [requested_rct, hs']
    have lines : ∀ u : State, u.fin = (requested p level s').fin → u.fin.slots = s.fin.slots
        ∧ u.fin.lines = s.fin.lines.set p (if identifiedAtOnce p s then { s.fin.lines.get p with lastLevel := level }
          else ⟨true, level, .load s.plan.identWindow⟩) := by
      intro u hu
      have same : identifiedAtOnce p s' = identifiedAtOnce p s := by rw [hs']; rfl
      rw [hu]
      simp only [requested, requestedIntake, same]
      exact ⟨by rw [hs'], by rw [hs']⟩
    refine ⟨fun n1 n2 n3 n4 => ⟨_, edge, ?_⟩, fun hr => ⟨_, edge, ?_⟩, fun hr => ⟨_, edge, ?_⟩⟩
    · rw [result, lineEvent_trips (by rw [rct]; exact n1) (by rw [rct]; exact n2) (by rw [rct]; exact n3) (by rw [rct]; exact n4)]
      have spec : Trips 0 (.phase p) (requested p level s') (trip (.phase p) none (requested p level s')) := trip_spec ..
      obtain ⟨slots, line⟩ := lines (trip (.phase p) none (requested p level s')) (by simp)
      refine ⟨spec.of_fin.after, slots, requested_handsFirst (t := s') ?_ ?_ ?_ ?_ (trip_follows ..), ?_, line⟩
      · rw [hs']
      · rw [hs']
      · rw [hs']
      · rw [hs']
      · rw [trip_pendingFaults, rct]
    · rw [result, lineEvent_idle (by rw [rct]; exact hr)]
      obtain ⟨slots, line⟩ := lines (requested p level s') rfl
      refine ⟨?_, slots, line, requested_keeps _ _ _⟩
      have record := logRecord_congr (s := s') (t := s) (by rw [hs']) (by rw [hs']) (by rw [hs']) (by rw [hs']) .fault 0 noSlot (phaseCode p)
      exact record
    · have ends : lineEvent p (requested p level s') = endArming .cellFault noSlot (phaseCode p) (requested p level s') := by
        unfold lineEvent; rw [rct, hr]
      rw [result, ends]
      obtain ⟨disarms, outcome⟩ := endArming_spec .cellFault noSlot (phaseCode p) (requested p level s')
      exact ⟨disarms.of_fin (by simp [requestedIntake]), outcome⟩
  · cases ho : s.bpu.isOpen
    · rw [show lineTransition p (!level) s = t from (if_neg (by simpa [takesEdges] using ho)).trans ht.symm, ht]
      exact ⟨fun f _ => by cases f <;> rfl, rfl, rfl⟩
    · rw [taken _ ho, ← ht, takeLevel_quiet (.inr (.inr (by rw [ht, hlevel]; simp)))]
      exact ⟨onFin_keeps _ _, by rw [ht]; rfl, by rw [ht]; rfl⟩

end Sys2Proof.Machine
end

