-- ==== Sys2Proof/Proofs/Supervision.lean ====
section
/-! The supervision of a frame (R65 to R70, R75). -/

namespace Sys2Proof.Machine

/-! ## A record and the link records -/

theorem logRecord_lsv (c : Category) (code slot arg : Word) (s : State) (v : PerSlot LinkRecord) :
    logRecord c code slot arg { s with lsv := v } = { logRecord c code slot arg s with lsv := v } := by
  obtain ⟨hl, hw⟩ := logRecord_congr (s := { s with lsv := v }) (t := s) rfl rfl rfl rfl c code slot arg
  rw [(records_logRecord c code slot arg { s with lsv := v }).rest, hl, hw, (records_logRecord c code slot arg s).rest]

theorem PerSlot.set_set {α : Type} (v : PerSlot α) (i : Slot) (x y : α) : (v.set i x).set i y = v.set i y :=
  PerSlot.ext_get fun j => by rw [PerSlot.get_set, PerSlot.get_set, PerSlot.get_set]; split <;> rfl

/-! ## The supervision as a function of the record -/

/-- The wrap records of a frame (R66). -/
def wrapsOf (l : LinkRecord) (o : FrameOutcome) : List (Word × Word) :=
  if o = .errored ∧ l.errored = 0xFFFF then [(7, 0)] else if o = .missed ∧ l.missed = 0xFFFF then [(8, 0)] else []

/-- The record of a LOST slot after a frame, and the code and the argument of its LINK record (R69). -/
def lostAfter (persistence : Nat) (o : FrameOutcome) (c : LinkRecord) : LinkRecord × List (Word × Word) :=
  match c.advance o.isGood with
  | none => (c, [])
  | some w =>
    if w.seen < Config.recoveryFrames then ({ c with window := some w }, [])
    else if Config.recoveryGood ≤ w.good then (c.recover persistence, [(2, word w.good)])
    else ({ c with window := none }, [])

/-- The same of a slot in UP or DEGRADED (R67, R68). -/
def liveAfter (loss : Nat) (o : FrameOutcome) (c : LinkRecord) : LinkRecord × List (Word × Word) :=
  if o.isGood = false ∧ loss ≤ c.notGood then (c.lose, [(1, c.link.code)])
  else if o = .errored ∧ (c.runs o).link = .up ∧ (c.runs o).erroredRun = 2 then ({ c.runs o with link := .degraded }, [(3, 0)])
  else if o.isGood = true ∧ (c.runs o).link = .degraded ∧ (c.runs o).goodRun = 2 then ({ c.runs o with link := .up }, [(4, 0)])
  else (c.runs o, [])

def linkAfter (p : Settings) (o : FrameOutcome) (l : LinkRecord) : LinkRecord × List (Word × Word) :=
  if l.link = .lost then lostAfter p.persistence o (l.count o) else liveAfter p.lossFrames o (l.count o)

/-- A slot's record replaced, behind some LINK records of the slot. -/
def linked (i : Slot) (l : LinkRecord) (rs : List (Word × Word)) (s : State) : State :=
  { handAll .link (rs.map fun r => (r.1, word i.val, r.2)) s with lsv := s.lsv.set i l }

theorem linked_nil (i : Slot) (l : LinkRecord) (s : State) : linked i l [] s = setLink i l s := rfl

theorem handAll_fields (c : Category) (rs : List (Word × Word × Word)) (s : State) :
    (handAll c rs s).lsv = s.lsv ∧ (handAll c rs s).plan = s.plan := by
  obtain ⟨_, _, _, _, _, lsv, _, _, _, _, _, _, _, _, plan, _, _⟩ := (records_handAll c rs s).fields
  exact ⟨lsv, plan⟩

theorem linked_lsv (i : Slot) (l : LinkRecord) (rs : List (Word × Word)) (s : State) : (linked i l rs s).lsv = s.lsv.set i l := rfl

theorem linked_plan (i : Slot) (l : LinkRecord) (rs : List (Word × Word)) (s : State) : (linked i l rs s).plan = s.plan :=
  (handAll_fields ..).2

theorem setLink_linked (i : Slot) (k l : LinkRecord) (rs : List (Word × Word)) (s : State) :
    setLink i k (linked i l rs s) = linked i k rs s := by
  simp only [setLink, linked, State.onLsv, PerSlot.set_set]

theorem linkRecord_linked (code : Word) (arg : Word) (i : Slot) (l : LinkRecord) (rs : List (Word × Word)) (s : State) :
    linkRecord code i arg (linked i l rs s) = linked i l (rs ++ [(code, arg)]) s := by
  simp only [linkRecord, linked, logRecord_lsv, List.map_append, handAll_append]
  rfl

theorem logWraps_counted (i : Slot) (o : FrameOutcome) (s : State) :
    logWraps i o (setLink i ((s.lsv.get i).count o) s)
      = linked i ((s.lsv.get i).count o) (wrapsOf (s.lsv.get i) o) s := by
  have wraps : ∀ x : Word, x + 1 = 0 ↔ x = 0xFFFF := fun x => by bv_omega
  rw [← linked_nil]
  cases o with
  | good w => rfl
  | errored =>
    simp only [logWraps, linked_lsv, PerSlot.get_set, if_true, LinkRecord.count, wraps, wrapsOf, linkRecord_linked]
    split <;> simp_all
  | missed =>
    simp only [logWraps, linked_lsv, PerSlot.get_set, if_true, LinkRecord.count, wraps, wrapsOf, linkRecord_linked]
    split <;> simp_all

theorem superviseLost_linked (i : Slot) (o : FrameOutcome) (c : LinkRecord) (rs : List (Word × Word)) (s : State) :
    superviseLost i o (linked i c rs s)
      = linked i (lostAfter s.plan.persistence o c).1 (rs ++ (lostAfter s.plan.persistence o c).2) s := by
  simp only [superviseLost, lostAfter, linked_lsv, PerSlot.get_set, if_true, linked_plan, setLink_linked, linkRecord_linked]
  cases c.advance o.isGood with
  | none => simp
  | some w => dsimp only; split_ifs <;> simp

theorem superviseLive_linked (i : Slot) (o : FrameOutcome) (c : LinkRecord) (rs : List (Word × Word)) (s : State) :
    superviseLive i o (linked i c rs s)
      = linked i (liveAfter s.plan.lossFrames o c).1 (rs ++ (liveAfter s.plan.lossFrames o c).2) s := by
  simp only [superviseLive, liveAfter, linked_lsv, PerSlot.get_set, if_true, linked_plan, setLink_linked, linkRecord_linked]
  split_ifs <;> simp

/-- One frame at the Link Supervisor: the record of its slot, behind its LINK records. -/
theorem supervise_eq (i : Slot) (o : FrameOutcome) (s : State) :
    supervise i o s = linked i (linkAfter s.plan o (s.lsv.get i)).1
      (wrapsOf (s.lsv.get i) o ++ (linkAfter s.plan o (s.lsv.get i)).2) s := by
  simp only [supervise, logWraps_counted, superviseLost_linked, superviseLive_linked, linkAfter]
  split <;> rfl

theorem linked_keeps (i : Slot) (l : LinkRecord) (rs : List (Word × Word)) (s : State) :
    KeepsAllBut [.lsv, .wen, .log] s (linked i l rs s) := by
  have kept := (records_handAll .link (rs.map fun r => (r.1, word i.val, r.2)) s).keeps
  intro f hf
  have := kept f (fun h => hf (List.mem_cons_of_mem _ h))
  cases f <;> first | exact absurd (by decide) hf | exact this

/-! ## The counts (R66) -/

theorem count_link (l : LinkRecord) (o : FrameOutcome) : (l.count o).link = l.link ∧ (l.count o).window = l.window
    ∧ (l.count o).erroredRun = l.erroredRun ∧ (l.count o).goodRun = l.goodRun ∧ (l.count o).recentlyLost = l.recentlyLost := by
  cases o <;> exact ⟨rfl, rfl, rfl, rfl, rfl⟩

theorem count_counts (l : LinkRecord) (o : FrameOutcome) :
    (l.count o).errored = (if o = .errored then l.errored + 1 else l.errored)
      ∧ (l.count o).erroredSecond = (if o = .errored then satInc l.erroredSecond else l.erroredSecond)
      ∧ (l.count o).missed = (if o = .missed then l.missed + 1 else l.missed)
      ∧ (∀ w, o = .good w → (l.count o).prevTag = some w.tag ∧ (l.count o).notGood = 0)
      ∧ (o.isGood = false → (l.count o).prevTag = l.prevTag ∧ (l.count o).notGood = boundedInc 255 l.notGood) := by
  cases o <;> simp [LinkRecord.count, FrameOutcome.isGood]

theorem lostAfter_counts (n : Nat) (o : FrameOutcome) (c : LinkRecord) :
    (lostAfter n o c).1.errored = c.errored ∧ (lostAfter n o c).1.erroredSecond = c.erroredSecond
      ∧ (lostAfter n o c).1.missed = c.missed ∧ (lostAfter n o c).1.prevTag = c.prevTag
      ∧ ((lostAfter n o c).1.notGood = c.notGood ∨ (lostAfter n o c).1.link = .up ∧ (lostAfter n o c).1.notGood = 0) := by
  unfold lostAfter
  split
  · simp
  · split_ifs <;> simp [LinkRecord.recover]

theorem runs_counts (c : LinkRecord) (o : FrameOutcome) : (c.runs o).errored = c.errored
    ∧ (c.runs o).erroredSecond = c.erroredSecond ∧ (c.runs o).missed = c.missed ∧ (c.runs o).prevTag = c.prevTag
    ∧ (c.runs o).notGood = c.notGood := by
  cases o <;> exact ⟨rfl, rfl, rfl, rfl, rfl⟩

theorem liveAfter_counts (n : Nat) (o : FrameOutcome) (c : LinkRecord) :
    (liveAfter n o c).1.errored = c.errored ∧ (liveAfter n o c).1.erroredSecond = c.erroredSecond
      ∧ (liveAfter n o c).1.missed = c.missed ∧ (liveAfter n o c).1.prevTag = c.prevTag ∧ (liveAfter n o c).1.notGood = c.notGood := by
  unfold liveAfter
  split_ifs <;> first | exact runs_counts c o | exact ⟨rfl, rfl, rfl, rfl, rfl⟩

/-! ## The cases of a frame (R67 to R69) -/

theorem linkAfter_lost {l : LinkRecord} (h : l.link = .lost) (p : Settings) (o : FrameOutcome) :
    linkAfter p o l = lostAfter p.persistence o (l.count o) := if_pos h

theorem linkAfter_live {l : LinkRecord} (h : l.link ≠ .lost) (p : Settings) (o : FrameOutcome) :
    linkAfter p o l = liveAfter p.lossFrames o (l.count o) := if_neg h

/-- The window of a LOST slot is shut. -/
theorem lostAfter_shut {c : LinkRecord} (h : c.window = none) (n : Nat) (o : FrameOutcome) :
    lostAfter n o c = ({ c with window := if o.isGood then some ⟨1, 1⟩ else none }, []) := by
  cases c
  cases hg : o.isGood <;> simp_all [lostAfter, LinkRecord.advance, Config.recoveryFrames]

/-- The window of a LOST slot is open. -/
theorem lostAfter_open {c : LinkRecord} {seen good : Nat} (h : c.window = some ⟨seen, good⟩) (n : Nat) (o : FrameOutcome) :
    lostAfter n o c =
      if seen + 1 < 64 then ({ c with window := some ⟨seen + 1, if o.isGood then good + 1 else good⟩ }, [])
      else if 56 ≤ (if o.isGood then good + 1 else good) then
        (c.recover n, [(2, word (if o.isGood then good + 1 else good))])
      else ({ c with window := none }, []) := by
  simp only [lostAfter, LinkRecord.advance, h]
  rfl

theorem liveAfter_loss {c : LinkRecord} {o : FrameOutcome} {n : Nat} (hg : o.isGood = false) (hn : n ≤ c.notGood) :
    liveAfter n o c = (c.lose, [(1, c.link.code)]) := if_pos ⟨hg, hn⟩

theorem liveAfter_good {c : LinkRecord} {o : FrameOutcome} (hg : o.isGood = true) (n : Nat) :
    liveAfter n o c = if c.link = .degraded ∧ boundedInc 2 c.goodRun = 2 then
        ({ c with goodRun := boundedInc 2 c.goodRun, erroredRun := 0, link := .up }, [(4, 0)])
      else ({ c with goodRun := boundedInc 2 c.goodRun, erroredRun := 0 }, []) := by
  cases o <;> simp_all [liveAfter, LinkRecord.runs, FrameOutcome.isGood]

theorem liveAfter_errored {c : LinkRecord} {n : Nat} (hn : c.notGood < n) :
    liveAfter n .errored c = if c.link = .up ∧ boundedInc 2 c.erroredRun = 2 then
        ({ c with erroredRun := boundedInc 2 c.erroredRun, goodRun := 0, link := .degraded }, [(3, 0)])
      else ({ c with erroredRun := boundedInc 2 c.erroredRun, goodRun := 0 }, []) := by
  simp [liveAfter, LinkRecord.runs, FrameOutcome.isGood, hn]

theorem liveAfter_missed {c : LinkRecord} {n : Nat} (hn : c.notGood < n) : liveAfter n .missed c = (c, []) := by
  simp [liveAfter, LinkRecord.runs, FrameOutcome.isGood, hn]

/-- The LINK record of a change of link state (R75, Table 4-3). -/
def moveRecords (old new : LinkState) (good : Nat) : List (Word × Word) :=
  match old, new with
  | .up, .lost => [(1, 0)]
  | .degraded, .lost => [(1, 1)]
  | .lost, .up => [(2, word good)]
  | .up, .degraded => [(3, 0)]
  | .degraded, .up => [(4, 0)]
  | _, _ => []

theorem lostAfter_moved {c : LinkRecord} (hl : c.link = .lost) (n : Nat) (o : FrameOutcome) :
    (lostAfter n o c).2 = moveRecords .lost (lostAfter n o c).1.link
      ((c.window.map RecoveryWindow.good).getD 0 + if o.isGood then 1 else 0) := by
  cases hw : c.window with
  | none => rw [lostAfter_shut hw]; simp [hl, moveRecords]
  | some w =>
    have good : (if o.isGood then w.good + 1 else w.good) = w.good + if o.isGood then 1 else 0 := by split <;> rfl
    rw [lostAfter_open hw, good]
    split_ifs <;> simp [hl, moveRecords, LinkRecord.recover]

theorem liveAfter_moved {c : LinkRecord} (hl : c.link ≠ .lost) (n : Nat) (o : FrameOutcome) (good : Nat) :
    (liveAfter n o c).2 = moveRecords c.link (liveAfter n o c).1.link good := by
  have same : ∀ r : LinkRecord, r.link = c.link → moveRecords c.link r.link good = [] := by
    intro r hr; rw [hr]; cases c.link <;> rfl
  by_cases loss : o.isGood = false ∧ n ≤ c.notGood
  · rw [liveAfter_loss loss.1 loss.2]
    cases h : c.link <;> first | rfl | exact absurd h hl
  · cases o with
    | good w =>
      rw [liveAfter_good rfl]
      split
      · next h => rw [h.1]; rfl
      · exact (same _ rfl).symm
    | errored =>
      rw [liveAfter_errored (Nat.lt_of_not_le fun h => loss ⟨rfl, h⟩)]
      split
      · next h => rw [h.1]; rfl
      · exact (same _ rfl).symm
    | missed =>
      rw [liveAfter_missed (Nat.lt_of_not_le fun h => loss ⟨rfl, h⟩)]
      exact (same _ rfl).symm

theorem linkAfter_moved (p : Settings) (o : FrameOutcome) (l : LinkRecord) :
    (linkAfter p o l).2 = moveRecords l.link (linkAfter p o l).1.link
      ((l.window.map RecoveryWindow.good).getD 0 + if o.isGood then 1 else 0) := by
  obtain ⟨link, window, _⟩ := count_link l o
  by_cases h : l.link = .lost
  · rw [linkAfter_lost h, lostAfter_moved (link.trans h), window, h]
  · have live : (l.count o).link ≠ .lost := by rwa [link]
    rw [linkAfter_live h, liveAfter_moved live, link]

/-- What every frame does to the counts (R65, R66). -/
theorem linkAfter_counts (p : Settings) (o : FrameOutcome) (l : LinkRecord) :
    (linkAfter p o l).1.errored = (if o = .errored then l.errored + 1 else l.errored)
      ∧ (linkAfter p o l).1.erroredSecond = (if o = .errored then satInc l.erroredSecond else l.erroredSecond)
      ∧ (linkAfter p o l).1.missed = (if o = .missed then l.missed + 1 else l.missed)
      ∧ (∀ w, o = .good w → (linkAfter p o l).1.prevTag = some w.tag ∧ (linkAfter p o l).1.notGood = 0)
      ∧ (o.isGood = false → (linkAfter p o l).1.prevTag = l.prevTag
          ∧ (l.link ≠ .lost ∨ (linkAfter p o l).1.link = .lost → (linkAfter p o l).1.notGood = boundedInc 255 l.notGood)) := by
  obtain ⟨errored, second, missed, good, other⟩ := count_counts l o
  by_cases h : l.link = .lost
  · rw [linkAfter_lost h]
    obtain ⟨e, s, m, t, n⟩ := lostAfter_counts p.persistence o (l.count o)
    refine ⟨e.trans errored, s.trans second, m.trans missed, fun w hw => ⟨t.trans (good w hw).1, ?_⟩,
      fun hg => ⟨t.trans (other hg).1, fun hl => ?_⟩⟩
    · rcases n with n | n
      · exact n.trans (good w hw).2
      · exact n.2
    · rcases n with n | n
      · exact n.trans (other hg).2
      · rcases hl with hl | hl
        · exact absurd h hl
        · rw [n.1] at hl; exact absurd hl (by decide)
  · rw [linkAfter_live h]
    obtain ⟨e, s, m, t, n⟩ := liveAfter_counts p.lossFrames o (l.count o)
    exact ⟨e.trans errored, s.trans second, m.trans missed, fun w hw => ⟨t.trans (good w hw).1, n.trans (good w hw).2⟩,
      fun hg => ⟨t.trans (other hg).1, fun _ => n.trans (other hg).2⟩⟩

/-- Settles O16: a frame is its counts, and then the case of the link state and the outcome. -/
theorem framesMoveTheLink : Obligations.FramesMoveTheLink := by
  refine ⟨fun l w => ⟨fun h => if_pos h, fun h => if_neg (not_not.2 h), rfl⟩, fun s i o l l' u hl hu hl' => ?_⟩
  rw [supervise_eq, ← hl] at hu
  have record : l' = (linkAfter s.plan o l).1 := by rw [hl', hu, linked_lsv, PerSlot.get_set, if_pos rfl]
  obtain ⟨link, window, erroredRun, goodRun, recently⟩ := count_link l o
  obtain ⟨_, _, _, _, other⟩ := count_counts l o
  obtain ⟨c1, c2, c3, c4, c5⟩ := linkAfter_counts s.plan o l
  refine ⟨hu ▸ linked_keeps _ _ _ _, fun j hj => ?_, record ▸ c1, record ▸ c2, record ▸ c3, record ▸ c4, record ▸ c5, fun h hg hn => ?_, fun h hg => ?_,
    fun h ho hn => ?_, fun h ho hn => ?_, fun h hw => ?_, fun seen good good' h hw hg => ?_, fun wraps moved good hw hg hm => ?_⟩
  · rw [hu, linked_lsv, PerSlot.get_set, if_neg hj]
  · rw [record, linkAfter_live h, liveAfter_loss hg (by rw [(other hg).2]; exact hn)]
    exact ⟨rfl, rfl, rfl, rfl, recently, rfl⟩
  · rw [record, linkAfter_live h, liveAfter_good hg, link, goodRun]
    split
    · exact ⟨rfl, rfl, rfl⟩
    · exact ⟨rfl, rfl, rfl⟩
  · subst ho
    rw [record, linkAfter_live h, liveAfter_errored (by rw [(other rfl).2]; exact hn), link, erroredRun]
    split
    · exact ⟨rfl, rfl, rfl⟩
    · exact ⟨rfl, rfl, link⟩
  · subst ho
    rw [record, linkAfter_live h, liveAfter_missed (by rw [(other rfl).2]; exact hn)]
    exact ⟨erroredRun, goodRun, link⟩
  · rw [record, linkAfter_lost h, lostAfter_shut (window.trans hw)]
    exact ⟨link.trans h, rfl⟩
  · rw [record, linkAfter_lost h, lostAfter_open (window.trans hw), ← hg]
    refine ⟨fun h1 => ?_, fun h1 h2 => ?_, fun h1 h2 => ?_⟩
    · rw [if_pos h1]; exact ⟨link.trans h, rfl⟩
    · rw [if_neg (Nat.not_lt.2 h1), if_pos h2]; exact ⟨rfl, rfl, rfl, rfl, rfl, rfl, rfl⟩
    · rw [if_neg (Nat.not_lt.2 h1), if_neg (Nat.not_le.2 h2)]; exact ⟨link.trans h, rfl⟩
  · have moves : moved = (linkAfter s.plan o l).2 := by
      rw [linkAfter_moved, ← hg, ← record, hm]; rfl
    have all : (wraps.map fun c => (c, word i.val, (0 : Word))) ++ moved.map (fun m => (m.1, word i.val, m.2))
        = (wrapsOf l o ++ (linkAfter s.plan o l).2).map fun r => (r.1, word i.val, r.2) := by
      rw [List.map_append, moves, hw, wrapsOf]
      split_ifs <;> rfl
    rw [all, hu]
    exact ⟨rfl, rfl⟩

end Sys2Proof.Machine
end

