-- ==== Sys2Proof/Proofs/ScanEnds.lean ====
section
/-! Scan ends (R61, R62, R82, R98, R99, R141) and the loss of an ACTIVE slot's link (R67, R79, R85). -/

namespace Sys2Proof.Machine

/-! ## The first slot with a property -/

theorem find?_of_sorted {l : List Slot} (sorted : l.Pairwise (· < ·)) {t : Slot → Bool} {j : Slot} (hm : j ∈ l)
    (hj : t j = true) (before : ∀ i, i < j → t i = false) : l.find? t = some j := by
  induction l with
  | nil => exact absurd hm List.not_mem_nil
  | cons a l ih =>
    obtain ⟨above, sorted⟩ := List.pairwise_cons.1 sorted
    rcases List.mem_cons.1 hm with rfl | hm
    · exact List.find?_cons_of_pos hj
    · rw [List.find?_cons_of_neg (by simp [before a (above j hm)])]
      exact ih sorted hm

theorem allSlots_sorted : allSlots.Pairwise (· < ·) := by decide

theorem head?_filter_slots {t : Slot → Bool} {j : Slot} (hj : t j = true) (before : ∀ i, i < j → t i = false) :
    (allSlots.filter t).head? = some j := by
  rw [List.head?_filter]
  exact find?_of_sorted allSlots_sorted (mem_allSlots j) hj before

theorem head?_filter_none {t : Slot → Bool} (none : ∀ i, t i = false) : (allSlots.filter t).head? = .none := by
  simp [none]

theorem advanceScan_disabled {s : State} (h : s.ssc.enabled = false) (i : Slot) : advanceScan i s = s := by simp [advanceScan, h]

theorem advanceScan_moves_on {s : State} {i j : Slot} (h : s.ssc.enabled = true) (hj : i < j) (fitted : s.mpl.fitted.get j = true)
    (between : ∀ l, i < l → l < j → s.mpl.fitted.get l = false) :
    advanceScan i s = s.onSsc fun c => { c with position := some j } := by
  have first : (fittedFrom s (i.val + 1)).head? = some j := by
    refine head?_filter_slots (by simp [fitted]; exact hj) fun l hl => ?_
    by_cases hi : i < l
    · simp [between l hi hl]
    · have low : ¬ i.val + 1 ≤ l.val := by simpa using hi
      simp [low]
  simp [advanceScan, h, first]

theorem advanceScan_ends {s : State} {i : Slot} (h : s.ssc.enabled = true) (last : ∀ j, i < j → s.mpl.fitted.get j = false) :
    advanceScan i s = deliverScanEnd s := by
  have none : (fittedFrom s (i.val + 1)).head? = none := by
    refine head?_filter_none fun l => ?_
    by_cases hi : i < l
    · simp [last l hi]
    · have low : ¬ i.val + 1 ≤ l.val := by simpa using hi
      simp [low]
  simp [advanceScan, h, none]

/-! ## The scan end (R61, R62) -/

/-- The settling scan seen and the expired windows stopped (R82, R98). -/
def scanTaken (s : State) : State :=
  { s with
    rct := { s.rct with settlingSeen := s.rct.settlingSeen || s.rct.scanSinceTrip }
    fin := { s.fin with lines := s.fin.lines.map fun l => if windowExpired l then { l with window := l.window.stop } else l } }

theorem takeIdentExpiry_scanEnd (s : State) :
    takeIdentExpiry (takeScanEnd s) = identificationReport (anyExpired s) (scanTaken s) := by
  have seen : (if s.rct.scanSinceTrip = true then { s.rct with settlingSeen := true } else s.rct)
      = { s.rct with settlingSeen := s.rct.settlingSeen || s.rct.scanSinceTrip } := by
    split
    · next h => simp only [h, Bool.or_true]
    · next h =>
      have same : (s.rct.settlingSeen || s.rct.scanSinceTrip) = s.rct.settlingSeen := by simp [h]
      rw [same]
  have taken : stopExpired (takeScanEnd s) = scanTaken s := by
    simp only [stopExpired, takeScanEnd, scanTaken, State.onFin, State.onRct, seen]
  have expired : anyExpired (takeScanEnd s) = anyExpired s := by simp [anyExpired]
  rw [takeIdentExpiry_eq, taken, expired]

theorem afterRun_restart {s : State} (h : s.rct.restart = .isolating) : (afterRun s).rct.restart = .lockout
    ∨ (afterRun s).rct.restart = .recharging ∨ (afterRun s).rct.restart = .isolating := by
  unfold afterRun
  split
  · exact .inl (lockout_spec 0 .infeasible s).restart
  · split
    · exact .inr (.inl (by simp [enterRecharging, enter_rct]))
    · exact .inr (.inr (by simp [h]))

theorem identificationReport_leaves {expired : Bool} {s : State} (h : s.rct.restart = .tripped) :
    (identificationReport expired s).rct.restart ≠ .verifying := by
  have locked : ∀ c t, (enterLockout c t).rct.restart ≠ .verifying := fun c t => by simp [(lockout_spec 0 c t).restart]
  have isolates : (enterIsolating s).rct.restart ≠ .verifying := by
    have left := afterRun_restart (s := planRun (hardPending s.rct) (enter .isolating noSlot (word (s.rct.passCount + 1))
      (s.onRct fun r => { r with passCount := r.passCount + 1, pendingFaults := PerSlot.all none })))
      (by simp [planRun_restart, enter_rct])
    intro h
    have h : (afterRun (planRun (hardPending s.rct) (enter .isolating noSlot (word (s.rct.passCount + 1))
      (s.onRct fun r => { r with passCount := r.passCount + 1, pendingFaults := PerSlot.all none })))).rct.restart = .verifying := h
    simp [h] at left
  simp only [identificationReport, h, if_true]
  split_ifs <;> first | exact locked _ _ | exact isolates | simp [h]

theorem verifyExpired_iff {s : State} : verifyExpired s = true ↔ s.rct.restart = .verifying ∧ s.rct.verify.due = true := by
  simp [verifyExpired]

theorem scanEnd_idle {s : State} (h : verifyExpired (takeIdentExpiry (takeScanEnd s)) = false) :
    scanEnd s = takeIdentExpiry (takeScanEnd s) := by simp [scanEnd, h]

theorem scanEnd_tripped {s : State} (h : s.rct.restart = .tripped) :
    scanEnd s = identificationReport (anyExpired s) (scanTaken s) := by
  rw [← takeIdentExpiry_scanEnd]
  refine scanEnd_idle ?_
  rw [takeIdentExpiry_scanEnd, Bool.eq_false_iff, ne_eq, verifyExpired_iff]
  exact fun hv => identificationReport_leaves (s := scanTaken s) h hv.1

/-- Every scan end is taken as R61, R62, R82, R98, R99 and R141 say. -/
theorem scanEnd_taken (s : State) : ScanEndTaken s (scanEnd s) := by
  intro r late expired hr hl he
  have hr : r = scanTaken s := hr
  subst hr
  have named : expired ↔ anyExpired s = true := by
    rw [he, anyExpired_iff]
    simp [windowExpired]
  refine ⟨fun ht => ?_, fun hv hd => ?_, fun ht hv => ?_⟩
  · rw [scanEnd_tripped ht]
    refine ⟨fun hx => ?_, fun hx => ?_⟩
    · rw [named.1 hx, identificationReport_expired (s := scanTaken s) ht]
      exact lockout_spec ..
    · rw [Bool.eq_false_iff.2 fun h => hx (named.2 h)]
  · have idle : takeIdentExpiry (takeScanEnd s) = scanTaken s := by
      rw [takeIdentExpiry_scanEnd]
      exact identificationReport_idle fun h => by rw [show (scanTaken s).rct.restart = .verifying from hv] at h; exact absurd h (by decide)
    have due : verifyExpired (scanTaken s) = true := verifyExpired_iff.2 ⟨hv, hd⟩
    have slots : unverified (scanTaken s).rct = late := by
      rw [hl]
      refine List.filter_congr fun i _ => ?_
      show (match s.rct.progress.get i with | some p => !p.verified | none => false) = _
      cases s.rct.progress.get i <;> rfl
    simp only [scanEnd, idle, due, if_true, takeVerifyExpiry, takeFaults, slots]
  · have idle : takeIdentExpiry (takeScanEnd s) = scanTaken s := by
      rw [takeIdentExpiry_scanEnd]
      exact identificationReport_idle ht
    rw [scanEnd_idle, idle]
    rw [idle, Bool.eq_false_iff, ne_eq, verifyExpired_iff]
    rintro ⟨h1, h2⟩
    have h2 : s.rct.verify.due = true := h2
    rcases hv with hv | hv
    · exact hv h1
    · simp [hv] at h2

/-- At a scan end in TRIPPED with nothing expired and the settling scan not seen, nothing happens. -/
theorem scanEnd_unsettled {s : State} (h : s.rct.restart = .tripped) (hs : (s.rct.settlingSeen || s.rct.scanSinceTrip) = false)
    (none : ∀ p, windowExpired (s.fin.lines.get p) = false) : scanEnd s = s := by
  have expired : anyExpired s = false := by
    rw [Bool.eq_false_iff, ne_eq, anyExpired_iff]
    simp [none]
  have lines : s.fin.lines.map (fun l => if windowExpired l then { l with window := l.window.stop } else l) = s.fin.lines := by
    refine PerPhase.ext_get fun p => ?_
    simp [none p]
  have seen : s.rct.settlingSeen = false := by simp_all
  have same : scanTaken s = s := by
    simp only [scanTaken, lines, hs]
    rw [← seen]
  rw [scanEnd_tripped h, expired, same]
  simp [identificationReport, h, seen]

/-! ## Faults behind some records -/

theorem handAll_lsv (c : Category) (rs : List (Word × Word × Word)) (v : PerSlot LinkRecord) (s : State) :
    handAll c rs { s with lsv := v } = { handAll c rs s with lsv := v } := by
  induction rs generalizing s with
  | nil => rfl
  | cons r rs ih => rw [handAll_cons, logRecord_lsv, ih, handAll_cons]

theorem Trips.handAll {n : Nat} {c : TripCause} {s u : State} {cat : Category} {rs : List (Word × Word × Word)}
    (h : Trips n c (handAll cat rs s) u) : Trips (n + rs.length) c s u := by
  induction rs generalizing s with
  | nil => exact h
  | cons r rs ih => exact (ih h).after

theorem wrapsOf_length (l : LinkRecord) (o : FrameOutcome) : (wrapsOf l o).length ≤ 1 := by
  unfold wrapsOf; split_ifs <;> simp

/-! ## The loss of an ACTIVE slot's link -/

/-- The LINK records of a frame that takes the link to LOST: a wrap, and the loss (R66, R67). -/
def lossRecords (i : Slot) (l : LinkRecord) (o : FrameOutcome) : List (Word × Word × Word) :=
  (wrapsOf l o ++ [(1, l.link.code)]).map fun r : Word × Word => (r.1, word i.val, r.2)

theorem lossRecords_length (i : Slot) (l : LinkRecord) (o : FrameOutcome) : (lossRecords i l o).length ≤ 2 := by
  have := wrapsOf_length l o
  simp only [lossRecords, List.length_map, List.length_append, List.length_singleton]
  omega

/-- The state behind the LINK records of a loss. -/
def lossTaken (i : Slot) (o : FrameOutcome) (s : State) : State :=
  { handAll .link (lossRecords i (s.lsv.get i) o) s with lsv := s.lsv.set i ((s.lsv.get i).count o).lose }

theorem lossTaken_eq (i : Slot) (o : FrameOutcome) (s : State) : lossTaken i o s
    = handAll .link (lossRecords i (s.lsv.get i) o) { s with lsv := (lossTaken i o s).lsv } := by
  rw [handAll_lsv]; rfl

theorem lossTaken_keeps (i : Slot) (o : FrameOutcome) (s : State) : KeepsAllBut [.lsv, .wen, .log] s (lossTaken i o s) :=
  linked_keeps i ((s.lsv.get i).count o).lose (wrapsOf (s.lsv.get i) o ++ [(1, (s.lsv.get i).link.code)]) s

/-- A frame that takes the link to LOST is a fault of code 64 behind the LINK records (R79). -/
theorem evaluateFrame_loss {i : Slot} {w : Option StatusWords} {o : FrameOutcome} {s : State} (he : s.ssc.enabled = true)
    (ho : o = outcomeOf (s.lsv.get i) w) (hl : (s.lsv.get i).link ≠ .lost) (hg : o.isGood = false)
    (hn : s.plan.lossFrames ≤ boundedInc 255 (s.lsv.get i).notGood) :
    evaluateFrame i w s = takeFault i 64 (lossTaken i o s) := by
  obtain ⟨_, _, _, _, other⟩ := count_counts (s.lsv.get i) o
  have after : linkAfter s.plan o (s.lsv.get i) = (((s.lsv.get i).count o).lose, [(1, (s.lsv.get i).link.code)]) := by
    rw [linkAfter_live hl, liveAfter_loss hg (by rw [(other hg).2]; exact hn), (count_link _ _).1]
  have lost : ((s.lsv.get i).link == LinkState.lost) = false := by simpa using hl
  simp only [evaluateFrame, he, if_true, ← ho, supervise_eq, after, handOn, lost, linked_lsv, PerSlot.get_set]
  rfl

/-- A fault of an ACTIVE slot in NORMAL trips. -/
theorem takeFault_active_normal {i : Slot} {code q : Nat} {s : State} (h : (s.mpl.slots.get i).role = .active q)
    (hr : s.rct.restart = .normal) :
    takeFault i code s = trip (.slot i) (some (i, ⟨(classify s.plan code (s.fin.slots.get i)).1.cls, code⟩)) (judgedFault i code s) := by
  rw [takeFault_taken (by rw [h]; rfl), h]
  exact faultEvent_trips (by simp [judgedFault_rct, hr]) (by simp [judgedFault_rct, hr]) (by simp [judgedFault_rct, hr])
    (by simp [judgedFault_rct, hr])

theorem struckIntake_line (i : Slot) (code : Nat) (s : State) (p : Phase) :
    (struckIntake i code s).lines.get p = if p = phaseOf i then (s.fin.lines.get p).identify else s.fin.lines.get p :=
  PerPhase.get_modify ..

theorem identify_notExpired (l : IntakeLine) : windowExpired l.identify = false := by
  cases h : l.request <;> simp [IntakeLine.identify, windowExpired, h]

theorem sscTenureEnd_exec {s : State} {i : Slot} (h : s.mpa.holder = some (.ssc i false)) (far : List FarWrite) {t : State}
    (ht : t = { s with mem := applyFar far s.mem, mpa := { s.mpa with holder := none } }) :
    exec (.sscSlotTenureEnd far) s
      = .next (settle (advanceScan i (evaluateFrame i (some (readStatus (applyFar far s.mem) i)) t))) := by
  simp only [exec, execSscSlotTenureEnd, h, ht]
  rfl

/-- Settles O17: the loss, its fault and the trip, and then the scan's advance. -/
theorem lossOfAnActiveSlotTrips : Obligations.LossOfAnActiveSlotTrips := by
  intro s far i q hh he hr ha hl hg hn
  refine ⟨_, sscTenureEnd_exec hh far rfl, ?_⟩
  generalize ht : ({ s with mem := applyFar far s.mem, mpa := { s.mpa with holder := none } } : State) = t
  have tl : t.lsv = s.lsv := by rw [← ht]
  have tp : t.plan = s.plan := by rw [← ht]
  generalize ho : outcomeOf (s.lsv.get i) (some (readStatus (applyFar far s.mem) i)) = o at hg
  rw [evaluateFrame_loss (o := o) (by rw [← ht]; exact he) (by rw [tl, ho]) (by rw [tl]; exact hl) hg (by rw [tl, tp]; exact hn)]
  have yl : (lossTaken i o t).lsv = s.lsv.set i ((s.lsv.get i).count o).lose := by rw [← tl]; rfl
  have ys := lossTaken_eq i o t
  have keeps := lossTaken_keeps i o t
  generalize lossTaken i o t = y at *
  have yr : y.rct = s.rct := (keeps .rct (by decide)).trans (by rw [← ht])
  have ym : y.mpl.slots = s.mpl.slots := (keeps .slots (by decide)).trans (by rw [← ht])
  have yfit : y.mpl.fitted = s.mpl.fitted := (keeps .fitted (by decide)).trans (by rw [← ht])
  have yssc : y.ssc = s.ssc := (keeps .ssc (by decide)).trans (by rw [← ht])
  have yfin : y.fin = s.fin := (keeps .fin (by decide)).trans (by rw [← ht])
  rw [takeFault_active_normal (q := q) (by rw [ym]; exact ha) (by rw [yr]; exact hr)]
  generalize hv : trip (.slot i) (some (i, ⟨(classify y.plan 64 (y.fin.slots.get i)).1.cls, 64⟩)) (judgedFault i 64 y) = v
  have spec : Trips 0 (.slot i) (judgedFault i 64 y) v := hv ▸ trip_spec ..
  have vl : v.lsv = y.lsv := by rw [← hv]; simp [judgedFault]
  have vf : v.fin = struckIntake i 64 y := by rw [← hv]; simp [judgedFault]
  have vssc : v.ssc = s.ssc := by rw [← hv]; simp [judgedFault, yssc]
  have vfit : v.mpl.fitted = s.mpl.fitted := by rw [← hv]; simp [judgedFault, yfit]
  have trips : Trips 3 (.slot i) { t with lsv := y.lsv } v := by
    have few := lossRecords_length i (t.lsv.get i) o
    have behind := judgedFault_trips spec
    rw [ys] at behind
    exact (by simpa using behind.handAll : Trips (1 + _) _ _ _).mono (by omega)
  refine ⟨v, ?_, ?_, ?_, ?_, fun j hj hf between => ?_, fun last w hw => ?_⟩
  · rw [vl]
    rw [← ht] at trips
    exact trips
  · rw [vl, yl, PerSlot.get_set, if_pos rfl]; rfl
  · rw [vf]; simp [struckIntake]
  · rw [← hv, trip_pendingFaults]; simp
  · rw [advanceScan_moves_on (by rw [vssc]; exact he) hj (by rw [vfit]; exact hf) (by rw [vfit]; exact between)]
    simp only [State.onSsc, vssc]
  · rw [advanceScan_ends (by rw [vssc]; exact he) (by rw [vfit]; exact last)]
    have ended : deliverScanEnd v = scanEnd w := by rw [hw, ← vssc]; rfl
    rw [ended]
    refine ⟨scanEnd_taken w, fun others => scanEnd_unsettled ?_ ?_ fun p => ?_⟩
    · rw [hw]; exact spec.restart
    · obtain ⟨settling, since⟩ := spec.settling
      rw [hw]
      simp [settling, since]
    · rw [hw]
      show windowExpired (v.fin.lines.get p) = false
      rw [vf, struckIntake_line, yfin]
      split
      · exact identify_notExpired _
      · next hp => exact others p hp

end Sys2Proof.Machine
end

