-- ==== Sys2Proof/Proofs/RestartTimers.lean ====
section
/-! Faults of one code for some ACTIVE slots, and the timers that make them (R128, R129, R136, R141, R170). -/

namespace Sys2Proof.Machine

/-! ## Faults taken in TRIPPED (R98) -/

theorem RecordMade.grow {n : Nat} {c : Category} {ws : List Word} {s u v : State} (h : RecordMade n c ws s u)
    (list : u.log.writeList <+: v.log.writeList) (jobs : JobsGrow u v) : RecordMade n c ws s v := by
  intro room
  obtain ⟨m, pos, next, hm, e, entry, job⟩ := h room
  obtain ⟨tail, ht⟩ := list
  refine ⟨m, pos, next, hm, e, ?_, jobs.jobListed job⟩
  rw [← ht]
  exact List.getElem?_append_left (List.getElem?_eq_some_iff.1 entry).1 |>.trans entry

/-- What stands when a trip stands, behind records handed after it. -/
theorem Trips.records {n : Nat} {c : TripCause} {s t u : State} (h : Trips n c s t) (r : Records t u) : Trips n c s u := by
  obtain ⟨pins, mem, bpu, mpa, ssc, lsv, fin, rct, mpl, rfs, hif, cap, pld, itm, plan, cuts, pending⟩ := r.fields
  obtain ⟨restart, tripCause, settling, copies, blocked, cancelled, others, memory, port, record, released, latches, timer, first,
    later, healthy, permit, trigger, kept⟩ := h
  rw [← rct] at restart tripCause settling copies record timer healthy permit
  rw [← hif] at healthy permit
  rw [← bpu] at latches
  rw [← rfs] at released
  rw [← cap] at trigger
  rw [← mpa] at port
  refine ⟨restart, tripCause, settling, copies, r.blocksAll blocked, r.noJobsOf cancelled (fun _ => rfl) rfl,
    others.grow (.refl _) r.jobsGrow, memory.of_same (fun _ => rfl) rfl rfl mem cuts fun h => by rw [mpa]; exact h, port,
    record.grow r.grows r.jobsGrow, released, latches, timer, fun hn => ?_, fun hn => ?_, healthy, permit, trigger, ?_⟩
  · obtain ⟨a1, a2, a3, a4, a5, a6⟩ := first hn
    rw [← rct] at a1 a2 a3 a4 a6
    rw [← rfs] at a5
    exact ⟨a1, a2, a3, a4, a5, a6⟩
  · obtain ⟨a1, a2, a3, a4, a5, a6⟩ := later hn
    rw [← rct] at a1 a2 a3 a4 a6
    rw [← rfs] at a5
    exact ⟨a1, a2, a3, a4, a5, a6⟩
  · exact kept.trans r.keeps (List.Subset.refl _) (by decide)

/-- A trip stands over changes of the fault intake and the pending-fault set. -/
theorem Trips.intake {n : Nat} {c : TripCause} {s t : State} (h : Trips n c s t) (f : Intake) (p : PerSlot (Option PendingFault)) :
    Trips n c s { t with fin := f, rct := { t.rct with pendingFaults := p } } := by
  have others := h.others.grow (u' := { t with fin := f, rct := { t.rct with pendingFaults := p } }) (.refl s) (.of_wen rfl)
  have memory := h.memory.of_same (s := s) (u' := { t with fin := f, rct := { t.rct with pendingFaults := p } })
    (fun b => rfl) rfl rfl rfl rfl id
  have record := h.record.grow (v := { t with fin := f, rct := { t.rct with pendingFaults := p } }) (List.prefix_refl _) (.of_wen rfl)
  exact { h with
    others := others, memory := memory, record := record, cancelled := h.cancelled, blocked := h.blocked, holder := h.holder
    first := fun hn => { h.first hn with }
    later := fun hn => { h.later hn with }
    kept := fun g hg => by have := h.kept g hg; cases g <;> first | exact absurd (by decide) hg | exact this }

/-- What faults that join the pending-fault set leave (R98): records, beside the fault intake and the set. -/
structure Joins (t u : State) : Prop where
  records : Records t { u with fin := t.fin, rct := t.rct }
  rct : u.rct = { t.rct with pendingFaults := u.rct.pendingFaults }

theorem Joins.refl (t : State) : Joins t t := ⟨.refl t, rfl⟩

theorem Records.with_intake {s t : State} (h : Records s t) (f : Intake) (r : Rct) :
    Records { s with fin := f, rct := r } { t with fin := f, rct := r } :=
  ⟨h.wen, h.grows, h.log, by rw [h.rest]⟩

theorem Joins.trans {t u v : State} (a : Joins t u) (b : Joins u v) : Joins t v :=
  ⟨a.records.trans (b.records.with_intake t.fin t.rct), by rw [b.rct, a.rct]⟩

theorem Joins.follows {t u : State} (h : Joins t u) : LogFollows t u := ⟨h.records.grows, h.records.follows.jobs⟩

theorem Joins.mpl {t u : State} (h : Joins t u) : u.mpl = t.mpl := by
  obtain ⟨_, _, _, _, _, _, _, _, mpl, _⟩ := h.records.fields
  exact mpl

theorem Joins.restart {t u : State} (h : Joins t u) : u.rct.restart = t.rct.restart := by rw [h.rct]

theorem Trips.joins {n : Nat} {c : TripCause} {s t u : State} (h : Trips n c s t) (j : Joins t u) : Trips n c s u := by
  have all := (h.records j.records).intake u.fin u.rct.pendingFaults
  have same : ({ ({ u with fin := t.fin, rct := t.rct } : State) with
      fin := u.fin, rct := { t.rct with pendingFaults := u.rct.pendingFaults } } : State) = u := by rw [← j.rct]
  exact same ▸ all

theorem Records.same_intake {s t : State} (h : Records s t) : { t with fin := s.fin, rct := s.rct } = t := by
  obtain ⟨_, _, _, _, _, _, fin, rct, _⟩ := h.fields
  rw [← fin, ← rct]

/-- The fault of an ACTIVE slot in TRIPPED joins the set. -/
theorem takeFault_tripped {i : Slot} {code : Nat} {s : State} (h : (s.mpl.slots.get i).role.isActive = true)
    (hr : s.rct.restart = .tripped) :
    takeFault i code s = (judgedFault i code s).onRct
      (joinPending i ⟨(classify s.plan code (s.fin.slots.get i)).1.cls, code⟩) := by
  rw [takeFault_taken ((Role.reports_iff _).2 (.inl h)), if_pos h]
  simp only [faultEvent, judgedFault_rct, hr]

theorem takeFault_joins {i : Slot} {code : Nat} {s : State} (h : (s.mpl.slots.get i).role.isActive = true)
    (hr : s.rct.restart = .tripped) : Joins s (takeFault i code s) := by
  rw [takeFault_tripped h hr]
  have record := records_logRecord .fault (word code) (word i.val) (classify s.plan code (s.fin.slots.get i)).1.arg s
  refine ⟨?_, ?_⟩
  · have same : ({ (judgedFault i code s).onRct (joinPending i ⟨(classify s.plan code (s.fin.slots.get i)).1.cls, code⟩) with
        fin := s.fin, rct := s.rct } : State)
        = logRecord .fault (word code) (word i.val) (classify s.plan code (s.fin.slots.get i)).1.arg s := record.same_intake
    exact same ▸ record
  · rw [State.onRct_rct, judgedFault_rct, joinPending_eq]

/-- A slot of the pending-fault set whose fault was HARD by its code, and its last code (R83, R84, R98). -/
def FaultedHard (code : Nat) (u : State) (j : Slot) : Prop :=
  u.rct.pendingFaults.get j = some ⟨.hard, code⟩ ∧ (u.fin.slots.get j).lastCode = code

theorem classify_high {code : Nat} (h : 64 < code) (p : Settings) (e : IntakeSlot) : classify p code e = (.hardByClass, e) :=
  classify_hard (hardByCode_iff.2 (.inl h))

theorem takeFault_faulted {i j : Slot} {code : Nat} {s : State} (h : (s.mpl.slots.get i).role.isActive = true)
    (hr : s.rct.restart = .tripped) (hc : 64 < code) (hj : j = i ∨ FaultedHard code s j) :
    FaultedHard code (takeFault i code s) j := by
  rw [takeFault_tripped h hr, classify_high hc]
  by_cases ji : j = i
  · subst ji
    refine ⟨?_, ?_⟩
    · rw [State.onRct_rct, judgedFault_rct, joinPending_eq]
      simp [Classed.cls]
    · simp [judgedFault, struckIntake]
  · obtain ⟨pending, last⟩ := hj.resolve_left ji
    refine ⟨?_, ?_⟩
    · rw [State.onRct_rct, judgedFault_rct, joinPending_eq]
      exact (PerSlot.get_set ..).trans ((if_neg ji).trans pending)
    · show ((s.fin.slots.set i _).get j).lastCode = code
      rw [PerSlot.get_set, if_neg ji]
      exact last

/-- Faults of one code for some ACTIVE slots, in TRIPPED. -/
theorem takeFaults_joins {code : Nat} (hc : 64 < code) (l : List Slot) {t : State} (hr : t.rct.restart = .tripped)
    (active : ∀ i ∈ l, (t.mpl.slots.get i).role.isActive = true) :
    Joins t (takeFaults l code t) ∧ ∀ j, j ∈ l ∨ FaultedHard code t j → FaultedHard code (takeFaults l code t) j := by
  induction l generalizing t with
  | nil => exact ⟨.refl t, fun j hj => hj.resolve_left List.not_mem_nil⟩
  | cons i l ih =>
    have first := active i List.mem_cons_self
    have joined : Joins t (takeFault i code t) := takeFault_joins first hr
    obtain ⟨rest, faulted⟩ := ih (t := takeFault i code t) (by rw [joined.restart]; exact hr)
      fun k hk => by rw [joined.mpl]; exact active k (List.mem_cons_of_mem _ hk)
    refine ⟨joined.trans rest, fun j hj => faulted j ?_⟩
    rcases hj with hj | hj
    · rcases List.mem_cons.1 hj with rfl | hj
      · exact .inr (takeFault_faulted first hr hc (.inl rfl))
      · exact .inl hj
    · exact .inr (takeFault_faulted first hr hc (.inr hj))

/-- The states in which a fault of an ACTIVE slot trips the drive (R96). -/
def RestartState.trips (r : RestartState) : Prop := r ≠ .unarmed ∧ r ≠ .arming ∧ r ≠ .tripped ∧ r ≠ .lockout

/-- Faults of one code for some ACTIVE slots: the first trips and the rest join the pending-fault set. -/
theorem takeFaults_trips {code : Nat} (hc : 64 < code) (i : Slot) (l : List Slot) {s : State} (hr : s.rct.restart.trips)
    (active : ∀ j ∈ i :: l, (s.mpl.slots.get j).role.isActive = true) :
    Trips 1 (.slot i) s (takeFaults (i :: l) code s) ∧ LogFollows s (takeFaults (i :: l) code s)
      ∧ ∀ j ∈ i :: l, FaultedHard code (takeFaults (i :: l) code s) j := by
  obtain ⟨h1, h2, h3, h4⟩ := hr
  have first := active i List.mem_cons_self
  have tripped : takeFault i code s = trip (.slot i) (some (i, ⟨.hard, code⟩)) (judgedFault i code s) := by
    rw [takeFault_taken ((Role.reports_iff _).2 (.inl first)), if_pos first, classify_high hc]
    rw [← judgedFault_rct i code s] at h1 h2 h3 h4
    exact faultEvent_trips h1 h2 h3 h4
  have spec : Trips 1 (.slot i) s (takeFault i code s) := by rw [tripped]; exact judgedFault_trips (trip_spec 0 ..)
  have faulted : FaultedHard code (takeFault i code s) i := by
    rw [tripped]
    refine ⟨?_, by simp [judgedFault, struckIntake]⟩
    rw [trip_pendingFaults]; simp
  have behind : LogFollows s (takeFault i code s) := by
    rw [tripped]
    have judged : LogFollows s (judgedFault i code s) :=
      ⟨(records_logRecord ..).follows.writeList, (records_logRecord ..).follows.jobs⟩
    exact judged.trans (trip_follows ..)
  have slots : (takeFault i code s).mpl.slots = s.mpl.slots := by rw [tripped]; simp [judgedFault]
  obtain ⟨joins, all⟩ := takeFaults_joins hc l (t := takeFault i code s) spec.restart
    fun j hj => by rw [slots]; exact active j (List.mem_cons_of_mem _ hj)
  refine ⟨spec.joins joins, behind.trans joins.follows, fun j hj => all j ?_⟩
  rcases List.mem_cons.1 hj with rfl | hj
  · exact .inr faulted
  · exact .inl hj

/-! ## The contactor timer (R128, R129, R170) -/

/-- The CONTACTOR records of the entries left (R129). -/
def stuckRecords (w : PerSlot (Option WatchEntry)) (l : List Slot) : List (Word × Word × Word) :=
  l.filterMap fun i => (w.get i).map fun e => (match e.awaits with | .closed => 2 | .opened => 3, word i.val, feedbackCode e.last)

theorem logStuck_fold (w : PerSlot (Option WatchEntry)) (l : List Slot) {s : State} (h : s.rct.watch = w) :
    logStuckAll (l.filter fun i => (w.get i).isSome) s = handAll .contactor (stuckRecords w l) s := by
  induction l generalizing s with
  | nil => rfl
  | cons i l ih =>
    cases hw : w.get i with
    | none => simpa [hw, stuckRecords] using ih h
    | some e =>
      have step : logStuck i s = logRecord .contactor (match e.awaits with | .closed => 2 | .opened => 3) (word i.val)
          (feedbackCode e.last) s := by simp only [logStuck, h, hw] <;> rfl
      have rest := ih (s := logStuck i s) (by rw [step]; simp [h])
      simp only [stuckRecords, List.filterMap_cons, hw, Option.map_some, handAll_cons, List.filter_cons, Option.isSome_some, if_true]
      rw [← step]
      exact rest

theorem stuckRecords_length (w : PerSlot (Option WatchEntry)) (l : List Slot) :
    (stuckRecords w l).length = (l.filter fun i => (w.get i).isSome).length := by
  induction l with
  | nil => rfl
  | cons i l ih => cases hw : w.get i <;> simp_all [stuckRecords]

theorem LocksOut.handAll {n : Nat} {c : LockoutCause} {s u : State} {cat : Category} {rs : List (Word × Word × Word)}
    (h : LocksOut n c (handAll cat rs s) u) : LocksOut (n + rs.length) c s u := by
  induction rs generalizing s with
  | nil => exact h
  | cons r rs ih => exact (ih h).after

/-- An entry that awaits OPEN is one of an ACTIVE slot (R2, R3, R126). -/
theorem SlotLaw.active_of_opened {s : State} (law : SlotLaw s) {i : Slot} {e : WatchEntry} (h : s.rct.watch.get i = some e)
    (ho : e.awaits = .opened) : (s.mpl.slots.get i).role.isActive = true := by
  cases hf : s.mpl.fitted.get i with
  | false => rw [(law.unfitted i hf).2] at h; exact absurd h (by simp)
  | true =>
    have opened : (s.mpl.slots.get i).role.bypass = .opened := by rw [← law.commanded i hf, ← law.watched i e h, ho]
    by_contra inactive
    rw [Role.bypass, if_neg inactive] at opened
    exact absurd opened (by decide)

theorem contactorTimeout_exec {s : State} (h : s.rct.contactor.due = true) :
    (s.rct.restart = .isolating → exec .contactorTimeout s = .next (settle (contactorExpired s)))
      ∧ (s.rct.restart = .arming → exec .contactorTimeout s = .next (settle (armingExpired s))) := by
  refine ⟨fun hr => ?_, fun hr => ?_⟩ <;> simp only [exec, execContactorTimeout, h, hr] <;> rfl

/-- Filtering the slots finds the first one ahead of the rest. -/
theorem filter_slots_cons {t : Slot → Bool} {i : Slot} (hi : t i = true) (before : ∀ j, j < i → t j = false) :
    ∃ rest, allSlots.filter t = i :: rest := by
  cases hf : allSlots.filter t with
  | nil => have first := head?_filter_slots hi before; rw [hf] at first; exact absurd first (by simp)
  | cons a rest =>
    have first := head?_filter_slots hi before
    rw [hf] at first
    exact ⟨rest, by rw [Option.some.inj first]⟩

/-- Settles O29: the CONTACTOR records, and then the lockout, the faults of the slots left, or the end of arming. -/
theorem contactorTimeoutJudgesTheWatchList : Obligations.ContactorTimeoutJudgesTheWatchList := by
  intro s law hd stuck hs
  obtain ⟨isolating, arming⟩ := contactorTimeout_exec hd
  have records : stuck = stuckRecords s.rct.watch allSlots := by
    rw [hs]
    refine List.filterMap_congr fun i _ => ?_
    cases s.rct.watch.get i with
    | none => rfl
    | some e => rcases e with ⟨_ | _, _ | _ | _ | _⟩ <;> rfl
  have left : logStuckAll (watched s.rct) s = handAll .contactor stuck s := by
    rw [records]; exact logStuck_fold s.rct.watch allSlots rfl
  have count : (watched s.rct).length = stuck.length := by rw [records, stuckRecords_length]; rfl
  have handed := records_handAll .contactor stuck s
  obtain ⟨_, _, _, _, _, _, _, rct, mpl, _⟩ := handed.fields
  refine ⟨fun hr hc => ⟨_, isolating hr, ?_⟩, fun i hr ho hi before => ⟨_, isolating hr, ?_⟩, fun hr => ⟨_, arming hr, ?_⟩⟩
  · have closing : (watched s.rct).any (fun i => watchAwaits .closed s.rct i) = true := by
      obtain ⟨i, e, he, ha⟩ := hc
      refine List.any_eq_true.2 ⟨i, List.mem_filter.2 ⟨mem_allSlots i, by simp [he]⟩, by simp [watchAwaits, he, ha]⟩
    have result : contactorExpired s = enterLockout .bypassStuck (handAll .contactor stuck s) := by
      simp only [contactorExpired, closing, left, if_true]
    rw [result]
    have locks := (lockout_spec 0 .bypassStuck (handAll .contactor stuck s)).handAll
    rw [Nat.zero_add] at locks
    exact ⟨locks, handsAllFirst_of_follows rfl rfl rfl rfl (enterLockout_follows ..)⟩
  · have closing : (watched s.rct).any (fun i => watchAwaits .closed s.rct i) = false := by
      rw [List.any_eq_false]
      intro j hj
      obtain ⟨e, he⟩ := Option.isSome_iff_exists.1 (List.mem_filter.1 hj).2
      simp [watchAwaits, he, ho j e he]
    obtain ⟨rest, slots⟩ : ∃ rest, watched s.rct = i :: rest :=
      filter_slots_cons hi fun j hj => by simp [before j hj]
    have result : contactorExpired s = takeFaults (i :: rest) 65 (handAll .contactor stuck s) := by
      simp only [contactorExpired, closing, left, ← slots]; rfl
    have active : ∀ j ∈ i :: rest, ((handAll .contactor stuck s).mpl.slots.get j).role.isActive = true := by
      intro j hj
      rw [← slots] at hj
      obtain ⟨e, he⟩ := Option.isSome_iff_exists.1 (List.mem_filter.1 hj).2
      rw [mpl]
      exact law.active_of_opened he (ho j e he)
    obtain ⟨trips, follows, faulted⟩ := takeFaults_trips (code := 65) (by decide) i rest
      (s := handAll .contactor stuck s) (by rw [rct, hr]; simp [RestartState.trips]) active
    rw [result]
    refine ⟨Nat.add_comm 1 _ ▸ trips.handAll, handsAllFirst_of_follows rfl rfl rfl rfl follows, fun j hj => faulted j ?_⟩
    rw [← slots]
    exact List.mem_filter.2 ⟨mem_allSlots j, hj⟩
  · have result : armingExpired s = endArming .contactor noSlot (word stuck.length) (handAll .contactor stuck s) := by
      simp only [armingExpired, left, count]
    rw [result]
    exact endArming_spec .contactor noSlot (word stuck.length) (handAll .contactor stuck s)

/-! ## The recharge timer and the verify window (R136, R141) -/

/-- Settles O30: the slots that have not settled, or are not verified, are ACTIVE, and their faults trip. -/
theorem slotsThatFailARestartStepTrip : Obligations.SlotsThatFailARestartStepTrip := by
  intro s i law
  have active : ∀ j q, s.rct.progress.get j = some q → (s.mpl.slots.get j).role.isActive = true := fun j q h => (law.progress j q h).1
  have faults : ∀ (t : Slot → Bool) (code : Nat), 64 < code → s.rct.restart.trips → (∀ j, t j = true → ∃ q, s.rct.progress.get j = some q) →
      t i = true → (∀ j, j < i → t j = false) →
      Trips 1 (.slot i) s (takeFaults (allSlots.filter t) code s)
        ∧ ∀ j, t j = true → FaultedHard code (takeFaults (allSlots.filter t) code s) j := by
    intro t code hc hr running hi before
    obtain ⟨rest, slots⟩ := filter_slots_cons hi before
    rw [slots]
    have members : ∀ j, t j = true ↔ j ∈ i :: rest := fun j => by rw [← slots, List.mem_filter]; simp [mem_allSlots]
    obtain ⟨trips, _, faulted⟩ := takeFaults_trips hc i rest hr fun j hj => by
      obtain ⟨q, hq⟩ := running j ((members j).2 hj)
      exact active j q hq
    exact ⟨trips, fun j hj => faulted j ((members j).1 hj)⟩
  refine ⟨fun late hl hd hr hi before => ?_, fun late hl he hd hr hi before => ?_⟩
  · have late_iff : ∀ j, late j ↔ (match s.rct.progress.get j with | some p => p.step != .settled | none => false) = true := by
      intro j
      subst hl
      cases hj : s.rct.progress.get j <;> simp [hj]
    obtain ⟨trips, faulted⟩ := faults _ 66 (by decide) (by rw [hr]; simp [RestartState.trips])
      (fun j hj => by obtain ⟨q, hq, _⟩ := (hl ▸ (late_iff j).2 hj : ∃ q, s.rct.progress.get j = some q ∧ _); exact ⟨q, hq⟩) ((late_iff i).1 hi)
      fun j hj => Bool.eq_false_iff.2 fun h => before j hj ((late_iff j).2 h)
    exact ⟨_, if_pos ⟨hd, hr⟩, trips, fun j hj => faulted j ((late_iff j).1 hj)⟩
  · have late_iff : ∀ j, late j ↔ (match s.rct.progress.get j with | some p => !p.verified | none => false) = true := by
      intro j
      subst hl
      cases hj : s.rct.progress.get j <;> simp [hj]
    obtain ⟨trips, faulted⟩ := faults _ 69 (by decide) (by rw [hr]; simp [RestartState.trips])
      (fun j hj => by obtain ⟨q, hq, _⟩ := (hl ▸ (late_iff j).2 hj : ∃ q, s.rct.progress.get j = some q ∧ _); exact ⟨q, hq⟩) ((late_iff i).1 hi)
      fun j hj => Bool.eq_false_iff.2 fun h => before j hj ((late_iff j).2 h)
    exact ⟨_, if_pos ⟨he, verifyExpired_iff.2 ⟨hr, hd⟩⟩, trips, fun j hj => faulted j ((late_iff j).1 hj)⟩

end Sys2Proof.Machine
end

