-- ==== Sys2Proof/Proofs/OneSecond.lean ====
section
/-! The one-second interval (R19, R58, R63, R73, R74). -/

namespace Sys2Proof.Machine

/-! ## Records and their stamps -/

/-- A record reads of the Interval Timer the two stamps alone (R172). -/
theorem logRecord_stamps {s t : State} (hl : s.log = t.log) (hw : s.wen = t.wen) (hr : s.rct.restart = t.rct.restart)
    (hf : s.itm.frames = t.itm.frames) (hm : s.itm.millis = t.itm.millis) (c : Category) (code slot arg : Word) :
    (logRecord c code slot arg s).log = (logRecord c code slot arg t).log
      ∧ (logRecord c code slot arg s).wen = (logRecord c code slot arg t).wen := by
  cases s
  cases t
  simp only at hl hw hr hf hm
  subst hl hw
  have jobs : ∀ pos next ws, recordJob pos next ws ≠ [] := by simp [recordJob]
  simp only [logRecord, handRecord, logFull, dropRecord, acceptRecord, queueOverflowHeader, recordWords, submit, State.onLog,
    State.onWen, hr, hf, hm, jobs, ↓reduceIte]
  split_ifs <;> exact ⟨rfl, rfl⟩

theorem handAll_stamps {s t : State} (hl : s.log = t.log) (hw : s.wen = t.wen) (hr : s.rct.restart = t.rct.restart)
    (hf : s.itm.frames = t.itm.frames) (hm : s.itm.millis = t.itm.millis) (c : Category) (rs : List (Word × Word × Word)) :
    (handAll c rs s).log = (handAll c rs t).log ∧ (handAll c rs s).wen = (handAll c rs t).wen := by
  induction rs generalizing s t with
  | nil => exact ⟨hl, hw⟩
  | cons r rs ih =>
    obtain ⟨el, ew⟩ := logRecord_stamps hl hw hr hf hm c r.1 r.2.1 r.2.2
    exact ih el ew (by simpa using hr) (by simpa using hf) (by simpa using hm)

theorem queueMapImage_congr {s t : State} (h : s.wen = t.wen) (d : Bool) :
    (queueMapImage d s).wen = (queueMapImage d t).wen := by
  simp only [queueMapImage, h]
  split
  · exact h
  · simp only [submit, State.onWen, h]

/-! ## The marginal judgement (R73, R74) -/

/-- The LINK record of a slot's judgement. -/
def marginalRecord (fitted : Bool) (i : Slot) (l l' : LinkRecord) : Option (Word × Word × Word) :=
  if fitted = true ∧ l'.marginal = true ∧ l.marginal = false then some (5, word i.val, l.erroredSecond)
  else if fitted = true ∧ l.marginal = true ∧ l'.marginal = false then some (6, word i.val, l.erroredSecond)
  else none

def judgedLink (s : State) (i : Slot) : LinkRecord := (s.lsv.get i).judgeSecond s.plan.marginal

def secondRecord (s : State) (i : Slot) : Option (Word × Word × Word) :=
  marginalRecord (s.mpl.fitted.get i) i (s.lsv.get i) (judgedLink s i)

theorem secondOfSlot_eq (i : Slot) (s : State) : secondOfSlot i s
    = { handAll .link (secondRecord s i).toList s with
        lsv := if s.mpl.fitted.get i then s.lsv.set i (judgedLink s i) else s.lsv } := by
  cases hf : s.mpl.fitted.get i with
  | false => simp [secondOfSlot, secondRecord, marginalRecord, hf, handAll]
  | true =>
    have record : ∀ code arg, linkRecord code i arg (setLink i (judgedLink s i) s)
        = { logRecord .link code (word i.val) arg s with lsv := s.lsv.set i (judgedLink s i) } := fun code arg => logRecord_lsv ..
    have step : secondOfSlot i s
        = if (judgedLink s i).marginal && !(s.lsv.get i).marginal then
            linkRecord 5 i (s.lsv.get i).erroredSecond (setLink i (judgedLink s i) s)
          else if (s.lsv.get i).marginal && !(judgedLink s i).marginal then
            linkRecord 6 i (s.lsv.get i).erroredSecond (setLink i (judgedLink s i) s)
          else setLink i (judgedLink s i) s := by
      simp only [secondOfSlot, hf, if_true]; rfl
    rw [step, record, record]
    simp only [secondRecord, marginalRecord, hf, true_and, if_true]
    generalize judgedLink s i = k
    cases h1 : (s.lsv.get i).marginal <;> cases h2 : k.marginal <;> rfl

theorem secondOfSlot_link (i j : Slot) (s : State) : (secondOfSlot i s).lsv.get j
    = if j = i ∧ s.mpl.fitted.get j = true then judgedLink s j else s.lsv.get j := by
  rw [secondOfSlot_eq]
  dsimp only
  split
  · next hf =>
    rw [PerSlot.get_set]
    by_cases hj : j = i
    · subst hj; simp [hf]
    · simp [hj]
  · next hf =>
    by_cases hj : j = i
    · subst hj; simp [hf]
    · simp [hj]

/-- The judgement of some distinct slots in turn. -/
theorem secondOfSlots_eq (l : List Slot) (distinct : l.Nodup) (s : State) :
    l.foldl (fun t i => secondOfSlot i t) s
        = { handAll .link (l.filterMap (secondRecord s)) s with lsv := (l.foldl (fun t i => secondOfSlot i t) s).lsv }
      ∧ ∀ j, (l.foldl (fun t i => secondOfSlot i t) s).lsv.get j
          = if j ∈ l ∧ s.mpl.fitted.get j = true then judgedLink s j else s.lsv.get j := by
  induction l generalizing s with
  | nil => exact ⟨rfl, fun j => by simp⟩
  | cons i l ih =>
    obtain ⟨fresh, distinct⟩ := List.nodup_cons.1 distinct
    obtain ⟨state, links⟩ := ih distinct (secondOfSlot i s)
    have fitted : (secondOfSlot i s).mpl.fitted = s.mpl.fitted := by simp
    have other : ∀ j, j ≠ i → (secondOfSlot i s).lsv.get j = s.lsv.get j := fun j hj => by rw [secondOfSlot_link, if_neg (by simp [hj])]
    have judged : ∀ j, j ≠ i → judgedLink (secondOfSlot i s) j = judgedLink s j := fun j hj => by simp [judgedLink, other j hj]
    have records : l.filterMap (secondRecord (secondOfSlot i s)) = l.filterMap (secondRecord s) :=
      List.filterMap_congr fun j hj => by
        have ne : j ≠ i := fun e => fresh (e ▸ hj)
        simp only [secondRecord, fitted, other j ne, judged j ne]
    rw [List.foldl_cons]
    refine ⟨?_, fun j => ?_⟩
    · generalize (l.foldl (fun t i => secondOfSlot i t) (secondOfSlot i s)).lsv = v at state
      rw [state, records, secondOfSlot_eq, handAll_lsv, ← handAll_append]
      have all : (secondRecord s i).toList ++ l.filterMap (secondRecord s) = (i :: l).filterMap (secondRecord s) := by
        rw [List.filterMap_cons]
        cases secondRecord s i <;> rfl
      rw [all]
    · rw [links, fitted]
      by_cases hj : j = i
      · subst hj
        simp [fresh, secondOfSlot_link]
      · rw [judged j hj, other j hj]
        simp [hj]

/-- The links of every slot after a second. -/
theorem secondOfLinks_eq (s : State) :
    secondOfLinks s = { handAll .link (allSlots.filterMap (secondRecord s)) s with lsv := (secondOfLinks s).lsv }
      ∧ ∀ j, (secondOfLinks s).lsv.get j = if s.mpl.fitted.get j = true then judgedLink s j else s.lsv.get j := by
  obtain ⟨state, links⟩ := secondOfSlots_eq allSlots (by decide) s
  exact ⟨state, fun j => (links j).trans (by simp [mem_allSlots])⟩

theorem judgeSecond_high {n : Nat} {l : LinkRecord} (h : n ≤ l.erroredSecond.toNat) : l.judgeSecond n = { l with
    highRun := boundedInc 3 l.highRun, lowRun := 0, erroredSecond := 0
    marginal := if boundedInc 3 l.highRun = 3 then true else l.marginal } := by
  simp [LinkRecord.judgeSecond, h]

theorem judgeSecond_low {n : Nat} {l : LinkRecord} (h : l.erroredSecond.toNat < n) : l.judgeSecond n = { l with
    highRun := 0, lowRun := boundedInc 3 l.lowRun, erroredSecond := 0
    marginal := if boundedInc 3 l.lowRun = 3 then false else l.marginal } := by
  simp [LinkRecord.judgeSecond, Nat.not_le.2 h]

/-- What the records of a judgement say of the runs (R74). -/
theorem marginalRecord_runs (fitted : Bool) (i : Slot) (l : LinkRecord) (n : Nat) :
    marginalRecord fitted i l (l.judgeSecond n)
      = if fitted = true ∧ (l.judgeSecond n).highRun = 3 ∧ l.marginal = false then some (5, word i.val, l.erroredSecond)
        else if fitted = true ∧ (l.judgeSecond n).lowRun = 3 ∧ l.marginal = true then some (6, word i.val, l.erroredSecond)
        else none := by
  unfold marginalRecord
  rcases Nat.lt_or_ge l.erroredSecond.toNat n with h | h
  · rw [judgeSecond_low h]
    cases l.marginal <;> by_cases hr : boundedInc 3 l.lowRun = 3 <;> simp [hr]
  · rw [judgeSecond_high h]
    cases l.marginal <;> by_cases hr : boundedInc 3 l.highRun = 3 <;> simp [hr]

/-! ## The interval -/

theorem secondOfPassage_hands (s : State) :
    (secondOfPassage s).log = (handAll .host (((hostKinds s.bpu.counts).filter fun k => k.2 != 0).map
        fun k => (k.1, noSlot, k.2)) s).log
      ∧ (secondOfPassage s).wen = (handAll .host (((hostKinds s.bpu.counts).filter fun k => k.2 != 0).map
        fun k => (k.1, noSlot, k.2)) s).wen := by
  rw [secondOfPassage_eq, State.onBpu_log, State.onBpu_wen, foldl_hostCount, handAll, List.foldl_map]
  exact ⟨rfl, rfl⟩

theorem secondOfScans_hands (s : State) :
    HandsRecords .link (if s.ssc.overrun = 0 then [] else [(9, noSlot, s.ssc.overrun)]) s (secondOfScans s) := by
  simp only [secondOfScans]
  split_ifs <;> exact ⟨rfl, rfl⟩

theorem secondOfScans_ssc (s : State) : (secondOfScans s).ssc = { s.ssc with overrun := 0 } := by
  simp only [secondOfScans, State.onSsc_ssc]
  split_ifs <;> simp

/-- What two states agree on that a record reads (R172). -/
structure SameStamps (s t : State) : Prop where
  log : t.log = s.log
  wen : t.wen = s.wen
  restart : t.rct.restart = s.rct.restart
  frames : t.itm.frames = s.itm.frames
  millis : t.itm.millis = s.itm.millis

theorem SameStamps.handAll {s t : State} (h : SameStamps s t) (c : Category) (rs : List (Word × Word × Word)) :
    SameStamps (handAll c rs s) (handAll c rs t) := by
  obtain ⟨log, wen⟩ := handAll_stamps h.log h.wen h.restart h.frames h.millis c rs
  have kept : ∀ x : State, (Machine.handAll c rs x).rct = x.rct ∧ (Machine.handAll c rs x).itm = x.itm := fun x =>
    ⟨(records_handAll c rs x).keeps .rct (by decide), (records_handAll c rs x).keeps .itm (by decide)⟩
  exact ⟨log, wen, by rw [(kept s).1, (kept t).1]; exact h.restart, by rw [(kept s).2, (kept t).2]; exact h.frames,
    by rw [(kept s).2, (kept t).2]; exact h.millis⟩

theorem secondOfLinks_stamps {s t : State} (h : SameStamps s t) :
    SameStamps (handAll .link (allSlots.filterMap (secondRecord t)) s) (secondOfLinks t) := by
  have all := h.handAll .link (allSlots.filterMap (secondRecord t))
  rw [(secondOfLinks_eq t).1]
  exact ⟨all.log, all.wen, all.restart, all.frames, all.millis⟩

theorem secondOfPassage_stamps {s t : State} (h : SameStamps s t) :
    SameStamps (handAll .host (((hostKinds t.bpu.counts).filter fun k => k.2 != 0).map fun k => (k.1, noSlot, k.2)) s)
      (secondOfPassage t) := by
  have all := h.handAll .host (((hostKinds t.bpu.counts).filter fun k => k.2 != 0).map fun k => (k.1, noSlot, k.2))
  obtain ⟨log, wen⟩ := secondOfPassage_hands t
  have rct := (records_handAll .host (((hostKinds t.bpu.counts).filter fun k => k.2 != 0).map fun k => (k.1, noSlot, k.2)) s).keeps .rct (by decide)
  have itm := (records_handAll .host (((hostKinds t.bpu.counts).filter fun k => k.2 != 0).map fun k => (k.1, noSlot, k.2)) s).keeps .itm (by decide)
  simp only [Field.same] at rct itm
  exact ⟨log.trans all.log, wen.trans all.wen, by rw [rct]; simpa using h.restart, by rw [itm]; simpa using h.frames,
    by rw [itm]; simpa using h.millis⟩

/-- The records of the interval (R58, R63, R74), from a state that a record reads alike. -/
theorem secondPassed_hands {s t : State} (hl : t.log = s.log) (hw : t.wen = s.wen) (hr : t.rct.restart = s.rct.restart)
    (hf : t.itm.frames = s.itm.frames) (hm : t.itm.millis = s.itm.millis) (hb : t.bpu.counts = s.bpu.counts)
    (hc : t.ssc.overrun = s.ssc.overrun) {links : List (Word × Word × Word)}
    (records : links = allSlots.filterMap (secondRecord t)) :
    (secondPassed t).log = (handAll .link (if s.ssc.overrun = 0 then [] else [(9, noSlot, s.ssc.overrun)])
        (handAll .host (((hostKinds s.bpu.counts).filter fun k => k.2 != 0).map fun k => (k.1, noSlot, k.2)) (handAll .link links s))).log
      ∧ (secondPassed t).wen = (queueMapImage false (handAll .link (if s.ssc.overrun = 0 then [] else [(9, noSlot, s.ssc.overrun)])
        (handAll .host (((hostKinds s.bpu.counts).filter fun k => k.2 != 0).map fun k => (k.1, noSlot, k.2)) (handAll .link links s)))).wen := by
  have first := secondOfLinks_stamps ⟨hl, hw, hr, hf, hm⟩
  rw [← records] at first
  have second := secondOfPassage_stamps first
  rw [show (secondOfLinks t).bpu.counts = s.bpu.counts by simp [hb]] at second
  obtain ⟨log, wen⟩ := secondOfScans_hands (secondOfPassage (secondOfLinks t))
  rw [show (secondOfPassage (secondOfLinks t)).ssc.overrun = s.ssc.overrun by simp [hc]] at log wen
  have third := second.handAll .link (if s.ssc.overrun = 0 then [] else [(9, noSlot, s.ssc.overrun)])
  refine ⟨?_, queueMapImage_congr (wen.trans third.wen) false⟩
  simp only [secondPassed, queueMapImage_frame]
  exact log.trans third.log

theorem oneSecond_exec {s : State} (h1 : s.itm.running = true) (h2 : 0 < s.itm.secondsDue) :
    exec .oneSecondInterval s = .next (settle (secondPassed { s with itm := { s.itm with secondsDue := s.itm.secondsDue - 1 } })) :=
  if_pos ⟨h1, h2⟩

theorem secondPassed_keeps (s : State) : KeepsAllBut [.needs, .counts, .ssc, .lsv, .wen, .log] s (secondPassed s) := by
  intro f hf
  cases f <;> simp_all [Field.same, secondPassed]

/-- Settles O26: the links, the refusal counts and the overrun count in turn, and a map image job. -/
theorem oneSecondIntervalIsTaken : Obligations.OneSecondIntervalIsTaken := by
  intro s h1 h2
  refine ⟨_, oneSecond_exec h1 h2, ?_⟩
  generalize hs : ({ s with itm := { s.itm with secondsDue := s.itm.secondsDue - 1 } } : State) = t
  have tf : t.mpl.fitted = s.mpl.fitted := by rw [← hs]
  have tl : t.lsv = s.lsv := by rw [← hs]
  have tj : ∀ i, judgedLink t i = (s.lsv.get i).judgeSecond s.plan.marginal := by rw [← hs]; exact fun i => rfl
  obtain ⟨state, links⟩ := secondOfLinks_eq t
  have ul : ∀ i, (secondPassed t).lsv.get i = if s.mpl.fitted.get i = true then (s.lsv.get i).judgeSecond s.plan.marginal
      else s.lsv.get i := by
    intro i
    have same : (secondPassed t).lsv = (secondOfLinks t).lsv := by simp [secondPassed]
    rw [same, links, tf, tj, tl]
  refine ⟨?_, ?_, ?_, imagePending_queue .., fun i hf => ?_, fun i l l' hf hl hl' => ?_, ?_, rfl, fun lr hosts scans v hlr hh hsc hv => ?_⟩
  · rw [← hs]; simp [secondPassed]
  · simp only [secondPassed, queueMapImage_frame, secondOfScans_frame]; exact secondOfPassage_counts _
  · rw [← hs]; simp [secondPassed, secondOfScans_ssc]
  · rw [ul, if_neg (by simp [hf])]
  · rw [hl', ul, if_pos hf, ← hl]
    rcases Nat.lt_or_ge l.erroredSecond.toNat s.plan.marginal with h | h
    · rw [judgeSecond_low h]
      refine ⟨rfl, fun h' => absurd h (Nat.not_lt.2 h'), fun _ => ⟨rfl, rfl⟩, fun h3 => absurd h3 (by simp), fun _ h3 => if_pos h3,
        fun _ h3 => if_neg h3, rfl, rfl, rfl⟩
    · rw [judgeSecond_high h]
      refine ⟨rfl, fun _ => ⟨rfl, rfl⟩, fun h' => absurd h' (Nat.not_lt.2 h), fun h3 => if_pos h3, fun _ h3 => absurd h3 (by simp),
        fun h3 _ => if_neg h3, rfl, rfl, rfl⟩
  · refine KeepsAllBut.trans (t := t) (fs := [.itm]) ?_ (secondPassed_keeps t) (by decide) (by decide)
    rw [← hs]
    exact fun f hf => by cases f <;> first | exact absurd (by decide) hf | rfl
  · have records : lr = allSlots.filterMap (secondRecord t) := by
      rw [hlr]
      refine List.filterMap_congr fun i _ => ?_
      rw [secondRecord, judgedLink, tf, tl, show t.plan = s.plan by rw [← hs], marginalRecord_runs, ul]
      cases hf : s.mpl.fitted.get i <;> simp
    rw [hv, hsc, hh]
    refine secondPassed_hands ?_ ?_ ?_ ?_ ?_ ?_ ?_ records <;> rw [← hs]

end Sys2Proof.Machine
end

