-- ==== Sys2Proof/Proofs/Entries.lean ====
section
/-! The entries to AWAITING, RECHARGING and VERIFYING (R127, R130, R131, R137, R140, R148, R150). -/

namespace Sys2Proof.Machine

/-- A change between states that do not latch touches the controller, the hoist lines and the log (R54, R95). -/
theorem enter_keeps {new : RestartState} {s : State} (h : s.rct.restart.latching = false) (slot arg : Word) :
    KeepsAllBut [.rct, .wen, .hif, .log] s (enter new slot arg s) := by
  have bpu : (enter new slot arg s).bpu = s.bpu := by simp [enter, h]
  have mpl : (enter new slot arg s).mpl = s.mpl := by simp [enter, h]
  intro f hf; cases f <;> simp_all [Field.same]

theorem startAwaiting_keeps {s : State} (h : s.rct.restart.latching = false) (reason : Word) :
    KeepsAllBut [.rct, .wen, .hif, .log] s (startAwaiting reason s) :=
  (enter_keeps h noSlot reason).trans (onRct_keeps _ _) (List.Subset.refl _) (by decide)

theorem startAwaiting_ready {s : State} (h : s.rct.restart.latching = false) (reason : Word) :
    freshComplete (startAwaiting reason s) = freshComplete s ∧ (startAwaiting reason s).hif.stale = s.hif.stale
      ∧ noFaultPending (startAwaiting reason s) = noFaultPending s := by
  have kept := startAwaiting_keeps h reason
  refine ⟨freshComplete_congr ?_ ?_, ?_, noFaultPending_congr ?_ (kept .fin (by decide))⟩
  · simp [startAwaiting, enter, h]
  · simp [startAwaiting, enter, h]
  · rw [startAwaiting_hif]; split <;> simp
  · rw [startAwaiting_rct]; simp [leave_fields]

theorem startAwaiting_wrote (reason : Word) (s : State) : ∃ x, (startAwaiting reason s).log = (logRecord .sequence RestartState.awaiting.code noSlot reason x).log
    ∧ x.log = s.log := by
  obtain ⟨x, e, xl, _⟩ := enter_sequence (new := .awaiting) (by decide) (by decide) noSlot reason s
  exact ⟨x, by simp [startAwaiting, e], xl⟩

/-- What the release of RESUMING leaves unchanged (R150). -/
theorem enterResuming_keeps {s : State} (h : s.rct.restart.latching = false) :
    KeepsAllBut [.rct, .cursor, .stage, .wen, .hif, .log] s (enterResuming s) := by
  refine (enter_keeps (new := .resuming) h noSlot s.rct.mode.code).trans (gs := [.cursor, .stage, .wen]) ?_ (by decide) (by decide)
  intro f hf; cases f <;> simp_all [Field.same, enterResuming]

/-- The entry to AWAITING from a state that does not latch, with the test of R148. -/
theorem enterAwaiting_spec {s : State} (h : s.rct.restart.latching = false) (reason : Word) :
    EntersAwaiting reason (s.rct.leave .awaiting) s (enterAwaiting reason s) := by
  intro ready hready
  have grows : JobsGrow (startAwaiting reason s) (enterAwaiting reason s) := testAwaiting_grows _
  have follows : LogFollows (startAwaiting reason s) (enterAwaiting reason s) := testAwaiting_follows _
  obtain ⟨fresh, stale, faults⟩ := startAwaiting_ready h reason
  have rct := startAwaiting_rct reason s
  refine ⟨startAwaiting_record (n := 0) rfl rfl follows grows, fun hn => ?_, fun hr => ?_⟩
  · have idle : enterAwaiting reason s = startAwaiting reason s := by
      refine testAwaiting_idle fun _ => ?_
      rw [fresh, stale, faults]
      by_contra hc
      push Not at hc
      exact hn (hready ▸ ⟨by simpa using hc.1, hc.2.1, by simpa using hc.2.2⟩)
    rw [idle]
    exact ⟨rct, startAwaiting_keeps h reason⟩
  · rw [hready] at hr
    have awaiting : (startAwaiting reason s).rct.restart = .awaiting := by rw [rct]
    have result : enterAwaiting reason s = enterResuming (startAwaiting reason s) :=
      if_pos ⟨awaiting, by rw [fresh]; exact hr.1, by rw [stale]; exact hr.2.1, by rw [faults]; exact hr.2.2⟩
    have first := startAwaiting_keeps h reason
    have writes : referenceWrites (startAwaiting reason s) = referenceWrites s :=
      referenceWrites_congr (first .k (by decide)) (first .slots (by decide))
    obtain ⟨cursor, stage, release⟩ := enterResuming_release (startAwaiting reason s)
    rw [writes] at stage release
    rw [result]
    refine ⟨?_, ?_, release, cursor, stage, ?_⟩
    · rw [enterResuming_rct awaiting, rct]
    · obtain ⟨x, wrote, xl⟩ := startAwaiting_wrote reason s
      have second : RecordMade 1 .sequence (sequenceWords .resuming noSlot s.rct.mode.code s) (startAwaiting reason s)
          (enterResuming (startAwaiting reason s)) := by
        have made := recordMade_enter (n := 0) (new := .resuming) (by decide) (by decide) (slot := noSlot)
          (arg := (startAwaiting reason s).rct.mode.code) (s := startAwaiting reason s) (t := startAwaiting reason s)
          (u := enterResuming (startAwaiting reason s)) rfl rfl ?_ (submitRelease_grows _)
        · have mode : (startAwaiting reason s).rct.mode = s.rct.mode := by rw [rct]; simp
          have itm : (startAwaiting reason s).itm = s.itm := first .itm (by decide)
          rw [mode] at made
          simpa only [sequenceWords, itm] using made
        · simp [enterResuming]
      exact (RecordMade.of_log (s := logRecord .sequence RestartState.awaiting.code noSlot reason x) second wrote).after.of_log xl
    · refine first.trans (enterResuming_keeps ?_) (by decide) (List.Subset.refl _)
      rw [awaiting]; rfl

/-! ## RECHARGING (R130, R131) -/

/-- A record stands behind a job submitted after it. -/
theorem RecordMade.submit {n : Nat} {c : Category} {ws : List Word} {s t u : State} (h : RecordMade n c ws s t) (k : JobKind)
    (writes : List JobWrite) (g : Rct → Rct) (hu : u = Machine.submit k writes (t.onRct g)) : RecordMade n c ws s u := by
  intro room
  obtain ⟨m, pos, next, hm, e, entry, job⟩ := h room
  subst hu
  exact ⟨m, pos, next, hm, e, by simpa using entry, JobListed.submit (by simpa [JobListed] using job) _ _⟩

theorem enterRecharging_spec {s : State} (h : s.rct.restart = .isolating) : EntersRecharging s (enterRecharging s) := by
  have latching : s.rct.restart.latching = false := by rw [h]; rfl
  have entered := enter_keeps (new := .recharging) latching noSlot (word s.rct.passCount)
  have slots : (enter .recharging noSlot (word s.rct.passCount) s).mpl.slots = s.mpl.slots := entered .slots (by decide)
  have plan : (enter .recharging noSlot (word s.rct.passCount) s).plan = s.plan := entered .plan (by decide)
  have rct := enter_rct .recharging noSlot (word s.rct.passCount) s
  refine ⟨?_, fun j => ?_, fun ha => ?_, fun ha => ?_, ?_, ?_⟩
  · simp only [enterRecharging, submit_frame, State.onRct_rct, rct, Rct.leave, h, plan]
  · simp only [enterRecharging, submit_frame, State.onRct_rct, PerSlot.get_ofFn, slots]
  · simp [enterRecharging, ha, submit_done, JobKind.reported]
  · have nonempty : (activeSlots s.mpl.slots).map (fun i => (⟨physicalCommandAddr i 0, .const 2⟩ : JobWrite)) ≠ [] := by simpa using ha
    simp only [enterRecharging, JobListed, State.onRct_mpl, slots, submit_jobs, JobKind.cls, gateTo]
    rw [if_pos ⟨nonempty, trivial⟩]
    exact List.mem_append_right _ List.mem_cons_self
  · exact (recordMade_enter (n := 0) (by decide) (by decide) rfl rfl (List.prefix_refl _) (.refl _)).submit _ _ _ rfl
  · refine entered.trans (gs := [.rct, .wen]) ?_ (by decide) (by decide)
    intro f hf; cases f <;> simp_all [Field.same, enterRecharging]

end Sys2Proof.Machine
end

