-- ==== Sys2Proof/Proofs/FramesHandedOn.lean ====
section
/-! A frame as it is handed on (R71), a status report (R78, R84) and a feedback (R126, R127, R168). -/

namespace Sys2Proof.Machine

/-! ## Records that the log follows -/

/-- The first record of a state, behind which the log follows. -/
theorem recordMade_of_follows {n : Nat} {c : Category} {code slot arg : Word} {s t u : State} (hl : t.log = s.log)
    (h : LogFollows (logRecord c code slot arg t) u) : RecordMade (n + 1) c (recordWords c code slot arg t) s u := by
  intro room
  obtain ⟨m, pos, next, hm, e, entry, job⟩ :=
    recordMade_first (n := n) (s := s) (t := t) (c := c) (code := code) (slot := slot) (arg := arg) hl (List.prefix_refl _) (.refl _) room
  obtain ⟨tail, ht⟩ := h.writeList
  refine ⟨m, pos, next, hm, e, ?_, h.jobs _ job rfl⟩
  rw [← ht]
  exact (List.getElem?_append_left (List.getElem?_eq_some_iff.1 entry).1).trans entry

/-! ## The scan behind a frame -/

/-- Behind a status read the scan moves on, or its end is taken (R60, R61). -/
theorem tenureEnd_advances {s : State} {far : List FarWrite} {i : Slot} {v : State} (hh : s.mpa.holder = some (.ssc i false))
    (hv : v = evaluateFrame i (some (readStatus (applyFar far s.mem) i))
      { s with mem := applyFar far s.mem, mpa := { s.mpa with holder := none } }) :
    CompletesAs (.sscSlotTenureEnd far) s fun u =>
      (v.ssc.enabled = false → u = v)
        ∧ (v.ssc.enabled = true →
            (∀ j, i < j → v.mpl.fitted.get j = true → (∀ l, i < l → l < j → v.mpl.fitted.get l = false) →
                u = { v with ssc := { v.ssc with position := some j } })
              ∧ ((∀ j, i < j → v.mpl.fitted.get j = false) →
                  ScanEndTaken { v with ssc := { v.ssc with inProgress := false, position := none, ended := true } } u)) := by
  refine ⟨advanceScan i v, ?_, fun he => advanceScan_disabled he i, fun he => ⟨fun j hj hf between => ?_, fun last => ?_⟩⟩
  · rw [hv]; exact sscTenureEnd_exec hh far rfl
  · exact advanceScan_moves_on he hj hf between
  · rw [advanceScan_ends he last]
    exact scanEnd_taken _

/-! ## The evaluation of a frame (R71) -/

theorem evaluateFrame_eq {s : State} {i : Slot} {w : Option StatusWords} {o : FrameOutcome} {t : State} (he : s.ssc.enabled = true)
    (ho : o = outcomeOf (s.lsv.get i) w) (ht : t = supervise i o s) :
    evaluateFrame i w s = handOn i ((s.lsv.get i).link == .lost) o t := by
  simp only [evaluateFrame, he, if_true, ← ho, ← ht]

theorem handOn_lost {i : Slot} {wasLost : Bool} {o : FrameOutcome} {t : State} (h : (t.lsv.get i).link = .lost) :
    handOn i wasLost o t = if wasLost then t else takeFault i 64 t := if_pos h

theorem handOn_other {i : Slot} {wasLost : Bool} {o : FrameOutcome} {t : State} (h : (t.lsv.get i).link ≠ .lost)
    (he : t.ssc.enabled = true) (hg : o.isGood = false) : handOn i wasLost o t = judgeFrame t.rct.restart i o t := by
  cases o with
  | good w => simp [FrameOutcome.isGood] at hg
  | errored => simp only [handOn, h, if_false, intakeFrame, he, if_true, captureFrame, controllerFrame]
  | missed => simp only [handOn, h, if_false, intakeFrame, he, if_true, captureFrame, controllerFrame]

theorem handOn_good {i : Slot} {wasLost : Bool} {x : StatusWords} {t v : State} (h : (t.lsv.get i).link ≠ .lost)
    (hv : v = statusReport i x.cell x.code t) :
    handOn i wasLost (.good x) t = if v.ssc.enabled then
        captureFrame i (.good x) (judgeFrame v.rct.restart i (.good x) (confirmContactor i (Feedback.ofWord x.feedback) v))
      else v := by
  simp only [handOn, h, if_false, intakeFrame, ← hv, controllerFrame]

theorem judgeFrame_none {s : State} {i : Slot} (h : s.rct.progress.get i = none) (r : RestartState) (o : FrameOutcome) :
    judgeFrame r i o s = s := by
  cases r <;> simp only [judgeFrame, h]

theorem judgeFrame_other {r : RestartState} (h1 : r ≠ .recharging) (h2 : r ≠ .verifying) (i : Slot) (o : FrameOutcome) (s : State) :
    judgeFrame r i o s = s := by
  cases r <;> first | rfl | exact absurd rfl h1 | exact absurd rfl h2

theorem framesAreHandedOn : FramesAreHandedOn := by
  refine ⟨fun s far i v hh hv => tenureEnd_advances hh hv, fun s i w o t he ho ht => ?_, fun s i o w r => ⟨fun h => ?_, fun q hq => ⟨?_, fun hg => ?_, ?_⟩⟩⟩
  · have enabled : t.ssc.enabled = true := by rw [ht]; simpa using he
    rw [evaluateFrame_eq he ho ht]
    refine ⟨fun hl => ?_, fun hl hg => handOn_other hl enabled hg, fun x v c j hl hx hv hc hj => ⟨fun hd => ?_, fun hd => ?_⟩⟩
    · rw [handOn_lost hl]
      simp only [beq_iff_eq]
    · rw [hx, handOn_good hl hv, hd]; rfl
    · have plan : j.plan = s.plan := by rw [hj, hc, hv, ht]; simp
      rw [hx, handOn_good hl hv, hd, if_pos rfl, ← hc, ← hx, ← hj, hx, ← plan]; rfl
  · rcases h with h | ⟨h1, h2⟩
    · exact judgeFrame_none h r o
    · exact judgeFrame_other h1 h2 i o s
  · simp only [judgeFrame, hq]
  · cases o with
    | good w => simp [FrameOutcome.isGood] at hg
    | errored => simp only [judgeFrame, hq]
    | missed => simp only [judgeFrame, hq]
  · simp only [judgeFrame, hq]

/-! ## A status report (R78, R84) -/

theorem reportedCode_none {cell code : Word} (h1 : code = 0) (h2 : cell ≠ 3) : reportedCode cell code = none := by
  rw [reportedCode, if_pos h1, if_neg h2]

theorem reportedCode_some {cell code : Word} {c : Nat} (h : code = 0 ∧ cell = 3 ∧ c = 63 ∨ 63 < code.toNat ∧ c = 63
    ∨ 1 ≤ code.toNat ∧ code.toNat ≤ 63 ∧ c = code.toNat) : reportedCode cell code = some c := by
  rcases h with ⟨h1, h2, h3⟩ | ⟨h1, h2⟩ | ⟨h1, h2, h3⟩
  · rw [reportedCode, if_pos h1, if_pos h2, h3]
  · have nonzero : code ≠ 0 := by rintro rfl; simp at h1
    rw [reportedCode, if_neg nonzero, if_pos h1, h2]
  · have nonzero : code ≠ 0 := by rintro rfl; simp at h1
    rw [reportedCode, if_neg nonzero, if_neg (Nat.not_lt.2 h2), h3]

theorem classify_latch (p : Settings) (code : Nat) (e : IntakeSlot) : (classify p code e).2.latch = e.latch := by
  unfold classify; split_ifs <;> rfl

theorem struckIntake_slot (i : Slot) (code : Nat) (s : State) : ((struckIntake i code s).slots.get i).latch = (s.fin.slots.get i).latch
    ∧ ((struckIntake i code s).slots.get i).lastCode = code := by
  simp [struckIntake, classify_latch]

/-- A fault event changes no latch and no last code. -/
theorem faultEvent_intake (i j : Slot) (f : PendingFault) (s : State) :
    ((faultEvent i f s).fin.slots.get j).latch = (s.fin.slots.get j).latch
      ∧ ((faultEvent i f s).fin.slots.get j).lastCode = (s.fin.slots.get j).lastCode := by
  unfold faultEvent
  split
  case h_3 =>
    obtain ⟨_, _, latch, last⟩ := (endArming_spec .cellFault (word i.val) (word f.code) s).1.strikes j
    exact ⟨latch, last⟩
  all_goals simp

/-- What every taken fault leaves at the fault intake. -/
theorem takeFault_intake {i : Slot} {code : Nat} {s : State} (h : (s.mpl.slots.get i).role.reports = true) :
    ((takeFault i code s).fin.slots.get i).latch = (s.fin.slots.get i).latch
      ∧ ((takeFault i code s).fin.slots.get i).lastCode = code := by
  obtain ⟨latch, last⟩ := struckIntake_slot i code s
  rw [takeFault_taken h]
  split
  · obtain ⟨l1, l2⟩ := faultEvent_intake i i ⟨(classify s.plan code (s.fin.slots.get i)).1.cls, code⟩ (judgedFault i code s)
    exact ⟨l1.trans latch, l2.trans last⟩
  · rw [(nonActiveFault_frame i (judgedFault i code s)).2.2.2.2.2.2.1]
    exact ⟨latch, last⟩

theorem faultEvent_follows {i : Slot} {f : PendingFault} {s : State} (h : s.rct.restart ≠ .arming) :
    LogFollows s (faultEvent i f s) := by
  unfold faultEvent
  split
  case h_3 hr => exact absurd hr h
  case h_1 => exact .of_same rfl rfl
  case h_2 => exact .of_same rfl rfl
  case h_4 => exact .of_same rfl rfl
  all_goals exact trip_follows ..

theorem takeFault_follows {i : Slot} {code : Nat} {s : State} (h : (s.mpl.slots.get i).role.reports = true)
    (hr : s.rct.restart ≠ .arming) : LogFollows (judgedFault i code s) (takeFault i code s) := by
  rw [takeFault_taken h]
  split
  · exact faultEvent_follows (by rw [judgedFault_rct]; exact hr)
  · exact nonActiveFault_follows ..

theorem statusReportsAreTaken : StatusReportsAreTaken := by
  intro s i cell code u hu
  refine ⟨fun h1 h2 => ?_, fun c hc => ?_⟩
  · rw [hu, statusReport, reportedCode_none h1 h2]; rfl
  · have report := reportedCode_some hc
    refine ⟨fun hl => ?_, fun e t hl he ht => ?_⟩
    · rw [hu, statusReport, report]; exact if_pos hl
    · have taken : u = takeFault i c t := by
        rw [hu, statusReport, report, ht, he]
        exact if_neg (by simp [hl])
      have entry : t.fin.slots.get i = e := by rw [ht]; simp
      have slots : t.mpl = s.mpl := by rw [ht]
      refine ⟨taken, ?_, fun hr => ?_⟩
      · rw [taken]
        cases hr : (t.mpl.slots.get i).role.reports with
        | false => rw [takeFault_disregarded hr, entry, he]
        | true => rw [(takeFault_intake hr).1, entry, he]
      · rw [← slots] at hr
        refine ⟨by rw [taken, (takeFault_intake hr).2], fun ha => ?_⟩
        have follows := takeFault_follows (code := c) hr (by rw [ht]; exact ha)
        rw [← taken] at follows
        have made := recordMade_of_follows (n := 0) (s := s) (t := t) (c := .fault) (code := word c) (slot := word i.val)
          (arg := (classify t.plan c (t.fin.slots.get i)).1.arg) (by rw [ht]) ⟨follows.writeList, follows.jobs⟩
        rw [entry] at made
        rw [ht] at made
        exact made

/-! ## A feedback (R126, R127, R168) -/

theorem confirms_iff (awaits : Bypass) (f : Feedback) :
    confirms awaits f = true ↔ awaits = .opened ∧ f = .opened ∨ awaits = .closed ∧ f = .closed := by
  cases awaits <;> cases f <;> simp [confirms]

theorem watchEmpty_iff (r : Rct) : watchEmpty r = true ↔ ∀ j, r.watch.get j = none := by
  simp [watchEmpty, mem_allSlots]

/-- A lockout right behind the entry to AWAITING, seen from ahead of that entry. -/
theorem LocksOut.behind_awaiting {n : Nat} {c : LockoutCause} {reason : Word} {s u : State} (hs : s.rct.restart.latching = false)
    (h : LocksOut n c (startAwaiting reason s) u) : LocksOut (n + 1) c s u := by
  have kept := startAwaiting_keeps hs reason
  have grows := startAwaiting_grows reason s
  have rct := startAwaiting_rct reason s
  obtain ⟨restart, cause, timers, faults, sequence, blocked, cancelled, others, memory, holder, record, released, _, lines, intake, outputs, rest⟩ := h
  have mem := kept .mem (by decide)
  have cuts := kept .cuts (by decide)
  have port := kept .holder (by decide)
  have fin := kept .fin (by decide)
  have slots := kept .slots (by decide)
  have itm := kept .itm (by decide)
  simp only [Field.same] at mem cuts port fin slots itm
  rw [slots] at blocked
  rw [Writing.iff_of_same grows.buffer, port] at holder
  rw [fin] at lines intake
  refine ⟨restart, cause, timers, faults, ?_, blocked, cancelled, others.grow grows (.refl _), memory.of_same grows.buffer mem cuts rfl rfl id,
    holder, ?_, released, fun hl => by rw [hs] at hl; exact absurd hl (by decide), lines, intake, outputs,
    kept.trans rest (by decide) (List.Subset.refl _)⟩
  · rw [rct] at sequence
    simpa [leave_fields] using sequence
  · obtain ⟨x, wrote, xl⟩ := startAwaiting_wrote reason s
    rw [sequenceWords, itm] at record
    exact (RecordMade.of_log (s := logRecord .sequence RestartState.awaiting.code noSlot reason x) record wrote).after.of_log xl

theorem finishArming_stale {s : State} (h1 : s.plan.staleTrip = true) (h2 : 3 ≤ s.hif.stale) (hs : s.rct.restart.latching = false) :
    LocksOut 1 .hostStale s (finishArming s) := by
  have result : finishArming s = enterLockout .hostStale (startAwaiting 0 s) := by
    refine if_pos ⟨?_, ?_⟩
    · rw [show (startAwaiting 0 s).plan = s.plan from startAwaiting_keeps hs 0 .plan (by decide)]; exact h1
    · rw [(startAwaiting_ready hs 0).2.1]; exact h2
  rw [result]
  exact (lockout_spec 0 .hostStale _).behind_awaiting hs

theorem finishArming_fresh {s : State} (h : s.plan.staleTrip = false ∨ s.hif.stale < 3) (hs : s.rct.restart.latching = false) :
    finishArming s = enterAwaiting 0 s := by
  refine if_neg fun ⟨h1, h2⟩ => ?_
  rw [show (startAwaiting 0 s).plan = s.plan from startAwaiting_keeps hs 0 .plan (by decide)] at h1
  rw [(startAwaiting_ready hs 0).2.1] at h2
  rcases h with h | h
  · rw [h] at h1; exact absurd h1 (by decide)
  · omega

theorem confirmContactor_watched {i : Slot} {f : Feedback} {s : State} {e : WatchEntry} (h : s.rct.watch.get i = some e) :
    confirmContactor i f s =
      if watchEmpty (recordFeedback i f s.rct) ∧ (recordFeedback i f s.rct).contactor.running = true then
        match (recordFeedback i f s.rct).restart with
        | .isolating => enterRecharging (s.onRct (recordFeedback i f))
        | .arming => finishArming (s.onRct (recordFeedback i f))
        | .unarmed | .normal | .tripped | .recharging | .verifying | .awaiting | .resuming | .proving | .lockout =>
          s.onRct (recordFeedback i f)
      else s.onRct (recordFeedback i f) := by
  simp only [confirmContactor, h, Option.isSome_some, if_true, State.onRct_rct] <;> rfl

theorem leave_arming {r : Rct} (h : r.restart = .arming) (new : RestartState) :
    r.leave new = { r with contactor := r.contactor.stop } := by simp only [Rct.leave, h]

theorem feedbackConfirms : FeedbackConfirms := by
  intro s i f u hu
  refine ⟨fun h => by rw [hu, confirmContactor, h]; rfl, fun e met he hm => ?_⟩
  have met_iff : confirms e.awaits f = true ↔ met := by rw [hm]; exact confirms_iff ..
  refine ⟨fun hn => ?_, fun w t hmet hw ht => ?_⟩
  · have recorded : recordFeedback i f s.rct = { s.rct with watch := s.rct.watch.set i (some { e with last := some f }) } := by
      simp only [recordFeedback, he, mt met_iff.1 hn, if_false, Bool.false_eq_true]
    have watched : watchEmpty (recordFeedback i f s.rct) = false := by
      rw [Bool.eq_false_iff, ne_eq, watchEmpty_iff, recorded]
      intro empty
      simpa using empty i
    rw [hu, confirmContactor_watched he, if_neg (by simp [watched]), State.onRct, recorded]
  · have recorded : recordFeedback i f s.rct = t.rct := by
      simp only [recordFeedback, he, met_iff.2 hmet, if_true, ht, hw]
    have state : s.onRct (recordFeedback i f) = t := by rw [State.onRct, recorded, ht]
    have watch : t.rct.watch = w := by rw [ht]
    have running : t.rct.contactor = s.rct.contactor := by rw [ht]
    have restart : t.rct.restart = s.rct.restart := by rw [ht]
    have result := confirmContactor_watched (f := f) he
    rw [← hu, recorded, state] at result
    simp only [watchEmpty_iff, watch, running, restart] at result
    refine ⟨fun h => ?_, fun empty hr => ⟨fun hs => ?_, fun hs => ⟨fun h1 h2 => ?_, fun h => ?_⟩⟩⟩
    · by_cases hc : (∀ j, w.get j = none) ∧ s.rct.contactor.running = true
      · rw [if_pos hc] at result
        rcases h with ⟨j, hj⟩ | h | ⟨h1, h2⟩
        · exact absurd (hc.1 j) hj
        · rw [hc.2] at h; exact absurd h (by decide)
        · cases hs : s.rct.restart <;> first | exact absurd hs h1 | exact absurd hs h2 | (rw [hs] at result; exact result)
      · rw [if_neg hc] at result; exact result
    · rw [if_pos ⟨empty, hr⟩, hs] at result
      rw [result]
      exact enterRecharging_spec (by rw [restart, hs])
    all_goals
      have latching : t.rct.restart.latching = false := by rw [restart, hs]; rfl
      rw [if_pos ⟨empty, hr⟩, hs] at result
      rw [result]
    · exact finishArming_stale (by rw [ht]; exact h1) (by rw [ht]; exact h2) latching
    · have entered := enterAwaiting_spec latching 0
      rw [show finishArming t = enterAwaiting 0 t from finishArming_fresh (by rw [ht]; exact h) latching]
      have left : t.rct.leave .awaiting = { t.rct with contactor := s.rct.contactor.stop } := by
        rw [leave_arming (restart.trans hs), running]
      rw [left] at entered
      exact entered

end Sys2Proof.Machine
end

