-- ==== Sys2Proof/Proofs/FramesJudged.lean ====
section
/-! A frame in RECHARGING and in VERIFYING (R132 to R140) and the range trigger (R90, R92). -/

namespace Sys2Proof.Machine

/-! ## RECHARGING (R132 to R137) -/

theorem inReadyBand_iff (p : Settings) (dc : Word) :
    inReadyBand p dc = true ↔ p.readyLow ≤ dc.toNat ∧ dc.toNat ≤ p.readyHigh := by simp [inReadyBand]

theorem allProgress_iff (t : Progress → Bool) (r : Rct) :
    allProgress t r = true ↔ ∀ j p, r.progress.get j = some p → t p = true := by
  simp only [allProgress, List.all_eq_true, mem_allSlots, forall_const]
  refine forall_congr' fun j => ?_
  cases r.progress.get j <;> simp

theorem acknowledges_iff (i : Slot) (w : StatusWords) (q : Progress) (s : State) : acknowledges i w q s = true
    ↔ s.rct.gateOpen = true ∧ q.step = .resetSent ∧ w.cell = 0 ∧ w.code = 0 ∧ (s.fin.slots.get i).latch = false := by
  simp [acknowledges, and_assoc]

theorem submit_block (i : Slot) (s : State) : submit .blockGate [⟨physicalCommandAddr i 0, .const 0⟩] s
    = { s with wen := { s.wen with jobs2 := s.wen.jobs2 ++ [⟨.blockGate, [⟨physicalCommandAddr i 0, .const 0⟩], false⟩] } } := rfl

theorem judgeSettle_running {p : Settings} {dc : Word} {q : Progress} (h : q.step = .acknowledged) {n : Nat}
    (hn : n = if inReadyBand p dc then q.settle + 1 else 0) :
    q.judgeSettle p dc = { q with settle := n, step := if inReadyBand p dc ∧ p.settleFrames ≤ n then .settled else .acknowledged } := by
  simp only [Progress.judgeSettle, h, if_true, hn]

theorem judgeSettle_other {q : Progress} (h : q.step ≠ .acknowledged) (p : Settings) (dc : Word) : q.judgeSettle p dc = q := if_neg h

/-- The progress record behind a good frame, case by case (R134). -/
theorem judgeSettle_cases {p : Settings} {dc : Word} {q q' : Progress} {n : Nat}
    (hin : inReadyBand p dc = true → n = q.settle + 1) (hout : inReadyBand p dc = false → n = 0)
    (settles : q.step = .acknowledged → inReadyBand p dc = true → p.settleFrames ≤ n → q' = { q with settle := n, step := .settled })
    (waits : q.step = .acknowledged → inReadyBand p dc = false ∨ n < p.settleFrames → q' = { q with settle := n })
    (other : q.step ≠ .acknowledged → q' = q) : q.judgeSettle p dc = q' := by
  by_cases ha : q.step = .acknowledged
  · have count : n = if inReadyBand p dc then q.settle + 1 else 0 := by
      cases hb : inReadyBand p dc
      · exact hout hb
      · exact hin hb
    rw [judgeSettle_running ha count]
    by_cases hs : inReadyBand p dc = true ∧ p.settleFrames ≤ n
    · rw [if_pos hs, settles ha hs.1 hs.2]
    · have waiting : inReadyBand p dc = false ∨ n < p.settleFrames := by
        cases hb : inReadyBand p dc
        · exact .inl rfl
        · exact .inr (Nat.lt_of_not_le fun h => hs ⟨hb, h⟩)
      rw [if_neg hs, waits ha waiting, ← ha]
  · rw [judgeSettle_other ha, other ha]

theorem leave_recharging {r : Rct} (h : r.restart = .recharging) :
    r.leave .verifying = { r with recharge := r.recharge.stop, gateOpen := false } := by
  simp only [Rct.leave, h, if_true]

/-- The entry to VERIFYING (R137, R138). -/
theorem enterVerifying_spec {s : State} (h : s.rct.restart = .recharging) :
    (enterVerifying s).rct = { s.rct with
        restart := .verifying, recharge := s.rct.recharge.stop, gateOpen := false
        verify := .load s.plan.verifyWindow, progress := (enterVerifying s).rct.progress }
      ∧ (∀ j, (enterVerifying s).rct.progress.get j
          = (s.rct.progress.get j).map fun p => { p with cleanRun := 0, verified := false })
      ∧ RecordMade 1 .sequence (sequenceWords .verifying noSlot (word s.rct.passCount) s) s (enterVerifying s)
      ∧ KeepsAllBut [.rct, .wen, .hif, .log] s (enterVerifying s) := by
  have latching : s.rct.restart.latching = false := by rw [h]; rfl
  have entered := enter_keeps (new := .verifying) latching noSlot (word s.rct.passCount)
  have rct := enter_rct .verifying noSlot (word s.rct.passCount) s
  rw [leave_recharging h] at rct
  refine ⟨?_, fun j => ?_, ?_, entered.trans (onRct_keeps _ _) (List.Subset.refl _) (by decide)⟩
  · simp only [enterVerifying, State.onRct_rct, rct]
  · simp only [enterVerifying, State.onRct_rct, rct, PerSlot.get_map]
  · exact recordMade_enter (n := 0) (by decide) (by decide) rfl rfl (by simp [enterVerifying]) (.of_wen rfl)

theorem judgeThresholds_cases (i : Slot) (dc : Word) (s : State) :
    (dc.toNat < s.plan.dcUnder → judgeThresholds i dc s = takeFault i 67 s)
      ∧ (s.plan.dcUnder ≤ dc.toNat → s.plan.dcOver < dc.toNat → judgeThresholds i dc s = takeFault i 68 s)
      ∧ (s.plan.dcUnder ≤ dc.toNat → dc.toNat ≤ s.plan.dcOver → judgeThresholds i dc s = s) :=
  ⟨fun h => if_pos h, fun h1 h2 => (if_neg (Nat.not_lt.2 h1)).trans (if_pos h2),
    fun h1 h2 => (if_neg (Nat.not_lt.2 h1)).trans (if_neg (Nat.not_lt.2 h2))⟩

theorem rechargeFramesAreJudged : RechargeFramesAreJudged := by
  refine ⟨fun s i w q u hu acks ha => ?_, fun s i dc q u n q' t hr hu inBand hb hin hout settles waits other ht done hd => ?_⟩
  · have acks_iff : acknowledges i w q s = true ↔ acks := by rw [ha]; exact acknowledges_iff ..
    refine ⟨fun hq hn => ?_, fun h => ?_, fun hq => ?_⟩
    · rw [hu, rechargeFrame, if_neg (mt acks_iff.1 hn), if_pos hq]
    · rw [hu, rechargeFrame, if_pos (acks_iff.2 h), submit_block]
    · have not : ¬acks := fun h => hq (ha ▸ h : s.rct.gateOpen = true ∧ q.step = .resetSent ∧ _).2.1
      rw [hu, rechargeFrame, if_neg (mt acks_iff.1 not), if_neg hq]
  · have band : inReadyBand s.plan dc = true ↔ inBand := by rw [hb]; exact inReadyBand_iff ..
    have off : inReadyBand s.plan dc = false ↔ ¬inBand := by rw [← band, Bool.not_eq_true]
    have judged : q.judgeSettle s.plan dc = q' := judgeSettle_cases (fun h => hin (band.1 h)) (fun h => hout (off.1 h))
      (fun h1 h2 => settles h1 (band.1 h2)) (fun h1 h2 => waits h1 (h2.imp_left off.1)) other
    have state : setProgress i (q.judgeSettle s.plan dc) s = t := by rw [judged, ht]; rfl
    have result : u = if allProgress (fun p => p.step == .settled) t.rct ∧ q.step = .acknowledged then enterVerifying t
        else judgeThresholds i dc t := by rw [hu, judgeRecharge, state]
    have done_iff : (allProgress (fun p => p.step == .settled) t.rct = true ∧ q.step = .acknowledged) ↔ done := by
      rw [hd, allProgress_iff, and_comm]
      simp only [beq_iff_eq]
    have plan : t.plan = s.plan := by rw [ht]
    refine ⟨fun h => ?_, fun h => ?_⟩
    · rw [if_pos (done_iff.2 h)] at result
      obtain ⟨rct, progress, record, kept⟩ := enterVerifying_spec (s := t) (by rw [ht]; exact hr)
      rw [result]
      refine ⟨?_, progress, ?_, ?_⟩
      · rw [rct, ht]
      · rw [ht] at record ⊢; exact record.of_log rfl
      · refine KeepsAllBut.trans (t := t) (fs := [.rct]) ?_ kept (by decide) (List.Subset.refl _)
        rw [ht]
        exact onRct_keeps (fun r => { r with progress := r.progress.set i (some q') }) s
    · rw [if_neg (mt done_iff.1 h)] at result
      rw [result, ← plan]
      exact judgeThresholds_cases i dc t

/-! ## VERIFYING (R138 to R140) -/

theorem isClean_iff (i : Slot) (o : FrameOutcome) (s : State) : isClean i o s = true ↔ ∃ w, o = .good w ∧ w.cell = 0
    ∧ w.code = 0 ∧ s.plan.readyLow ≤ w.dc.toNat ∧ w.dc.toNat ≤ s.plan.readyHigh ∧ (s.lsv.get i).recentlyLost = false := by
  cases o <;> simp [isClean, inReadyBand, and_assoc]

theorem leave_verifying {r : Rct} (h : r.restart = .verifying) (new : RestartState) :
    r.leave new = { r with verify := r.verify.stop, progress := PerSlot.all none } := by simp only [Rct.leave, h]

theorem verifyFramesAreJudged : VerifyFramesAreJudged := by
  intro s i o q u hr hu clean hc put hp
  have clean_iff : isClean i o s = true ↔ clean := by rw [hc]; exact isClean_iff ..
  have puts : ∀ p, setProgress i p s = put p := fun p => by rw [hp]; rfl
  refine ⟨fun h => ?_, fun hv hn => ?_, fun hv h hl => ?_, fun t hv h hl ht => ?_⟩
  · rw [hu]; exact if_pos h
  · have soiled : isClean i o s = false := by rw [Bool.eq_false_iff]; exact mt clean_iff.1 hn
    rw [hu, verifyFrame, if_neg (by simp [hv])]
    simp only [soiled, Bool.false_and, Bool.false_eq_true, false_and, if_false, puts]
    rw [← hv]
  · rw [hu, verifyFrame, if_neg (by simp [hv])]
    simp only [clean_iff.2 h, if_true, Bool.true_and, Nat.not_le.2 hl, decide_false, Bool.false_eq_true, false_and, if_false, puts]
    rw [← hv]
  · have result : u = if allProgress Progress.verified t.rct = true then enterAwaiting 0 t else t := by
      rw [hu, verifyFrame, if_neg (by simp [hv])]
      simp only [clean_iff.2 h, if_true, Bool.true_and, hl, decide_true, true_and, puts, ← ht]
    refine ⟨fun ⟨j, p, hj, hp⟩ => ?_, fun all => ?_⟩
    · rw [result, if_neg]
      rw [allProgress_iff]
      exact fun all => absurd (all j p hj) (by simp [hp])
    · rw [if_pos ((allProgress_iff ..).2 all)] at result
      have restart : t.rct.restart = .verifying := by rw [ht, hp]; exact hr
      have entered := enterAwaiting_spec (s := t) (by rw [restart]; rfl) 0
      rw [leave_verifying restart] at entered
      have verify : t.rct.verify = s.rct.verify := by rw [ht, hp]
      rw [result, ← verify]
      exact entered

/-! ## The range trigger (R90, R92) -/

theorem rangeInside_iff (p : Settings) (v : Word) : rangeInside p v = true ↔ if p.captureTemperature then
    p.captureLow.toInt ≤ v.toInt ∧ v.toInt ≤ p.captureHigh.toInt else p.captureLow.toNat ≤ v.toNat ∧ v.toNat ≤ p.captureHigh.toNat := by
  cases h : p.captureTemperature <;> simp [rangeInside, h, BitVec.sle, BitVec.ule]

/-- A field at the Capture Unit, before a trigger. -/
def rangeTaken (v : Word) (s : State) : State :=
  { s with cap := { s.cap with range := if rangeInside s.plan v then .inside else .outside } }

theorem captureRange_cases (v : Word) (s : State) : captureRange v s
    = if rangeCrossing s.plan.captureLeave s.cap.range (if rangeInside s.plan v then .inside else .outside) then
        captureTrigger .range (rangeTaken v s) else rangeTaken v s := rfl

theorem rangeCrossing_iff (leave : Bool) (before : RangeCondition) (inside : Bool) :
    rangeCrossing leave before (if inside then .inside else .outside) = true
      ↔ if leave then before = .inside ∧ inside = false else before = .outside ∧ inside = true := by
  cases leave <;> cases inside <;> simp [rangeCrossing]

theorem captureTrigger_missed {s : State} (h : s.cap.state ≠ .running ∨ s.cap.post ≠ none) (k : TriggerKind) :
    captureTrigger k s = { s with cap := { s.cap with missed := satInc s.cap.missed } } :=
  if_neg fun ⟨h1, h2⟩ => h.elim (fun h => h h1) fun h => h h2

/-- A trigger that is recorded, with the ring frozen at once or the post count started. -/
theorem captureTrigger_recorded {s : State} (h1 : s.cap.state = .running) (h2 : s.cap.post = none) (k : TriggerKind) :
    (captureTrigger k s).cap = { s.cap with
        kind := k, stamp := s.itm.frames
        state := if s.plan.capturePost = 0 then .dumping else .running
        post := if s.plan.capturePost = 0 then none else some s.plan.capturePost }
      ∧ (s.plan.capturePost = 0 → JobListed .captureDump (dumpWrites s.cap.ring.length) (captureTrigger k s))
      ∧ RecordMade 1 .capture (recordWords .capture 1 noSlot k.code s) s (captureTrigger k s)
      ∧ KeepsAllBut [.wen, .cap, .log] s (captureTrigger k s) := by
  generalize hx : s.onCap (fun c => { c with kind := k, stamp := s.itm.frames }) = x
  generalize hy : logRecord .capture 1 noSlot k.code x = y
  have records : Records x y := hy ▸ records_logRecord ..
  have cap : y.cap = { s.cap with kind := k, stamp := s.itm.frames } := by
    rw [← hy, ← hx]; simp
  have plan : y.plan = s.plan := by rw [← hy, ← hx]; simp
  have result : captureTrigger k s = if s.plan.capturePost = 0 then freezeRing y
      else y.onCap fun c => { c with post := some s.plan.capturePost } := by
    rw [← plan, ← hy, ← hx]
    exact if_pos ⟨h1, h2⟩
  have kept : KeepsAllBut [.wen, .cap, .log] s y := by
    refine KeepsAllBut.trans (t := x) (fs := [.cap]) ?_ records.keeps (by decide) (by decide)
    rw [← hx]
    exact fun f hf => by cases f <;> first | exact absurd (by decide) hf | rfl
  have made : ∀ u, y.log.writeList <+: u.log.writeList → JobsGrow y u →
      RecordMade 1 .capture (recordWords .capture 1 noSlot k.code s) s u := by
    intro u list jobs
    have words : recordWords .capture 1 noSlot k.code x = recordWords .capture 1 noSlot k.code s := by rw [← hx]; rfl
    rw [← hy] at list jobs
    rw [← words]
    exact recordMade_first (by rw [← hx]; rfl) list jobs
  by_cases post : s.plan.capturePost = 0
  · rw [result, if_pos post]
    obtain ⟨frozen, dump, keeps⟩ := freezeRing_dumps y
    refine ⟨?_, fun _ => ?_, made _ ?_ ?_, kept.trans keeps (by decide) (by decide)⟩
    · rw [frozen, cap, if_pos post, if_pos post]
    · rw [cap] at dump; exact dump
    · simp
    · refine JobsGrow.trans ?_ (JobsGrow.submit _ _ _ (.inl (by simp)))
      exact .of_wen rfl
  · rw [result, if_neg post]
    refine ⟨?_, fun h => absurd h post, made _ (List.prefix_refl _) (.of_wen rfl), kept.trans (gs := [.cap]) ?_ (by decide) (by decide)⟩
    · simp only [State.onCap_cap, cap, post, if_false, ← h1]
    · exact fun f hf => by cases f <;> first | exact absurd (by decide) hf | rfl

theorem captureTrigger_range (k : TriggerKind) (s : State) : (captureTrigger k s).cap.range = s.cap.range := by
  by_cases h : s.cap.state ≠ .running ∨ s.cap.post ≠ none
  · rw [captureTrigger_missed h]
  · push Not at h
    rw [(captureTrigger_recorded h.1 h.2 k).1]

theorem captureRange_range (v : Word) (s : State) :
    (captureRange v s).cap.range = if rangeInside s.plan v then .inside else .outside := by
  rw [captureRange_cases]
  by_cases h : rangeCrossing s.plan.captureLeave s.cap.range (if rangeInside s.plan v then .inside else .outside) = true
  · rw [if_pos h, captureTrigger_range]; rfl
  · rw [if_neg h]; rfl

theorem rangeFieldTriggers : RangeFieldTriggers := by
  intro s v u hu inside hi crosses hc
  have inside_iff : rangeInside s.plan v = true ↔ inside := by rw [hi]; exact rangeInside_iff ..
  have crosses_iff : rangeCrossing s.plan.captureLeave s.cap.range (if rangeInside s.plan v then .inside else .outside) = true
      ↔ crosses := by
    rw [rangeCrossing_iff, hc, ← Bool.not_eq_true, inside_iff]
  have range : u.cap.range = if rangeInside s.plan v then .inside else .outside := by
    rw [hu]; exact captureRange_range v s
  have taken : rangeTaken v s = { s with cap := { s.cap with range := u.cap.range } } := by rw [range]; rfl
  rw [captureRange_cases] at hu
  refine ⟨fun h => ?_, fun h => ?_, fun h => ?_, fun h hs => ?_, fun h h1 h2 => ?_⟩
  · rw [range, if_pos (inside_iff.2 h)]
  · rw [range, if_neg (mt inside_iff.1 h)]
  · rw [if_neg (mt crosses_iff.1 h), taken] at hu
    exact hu
  · rw [if_pos (crosses_iff.2 h), captureTrigger_missed (by exact hs), taken] at hu
    exact hu
  · rw [if_pos (crosses_iff.2 h), taken] at hu
    obtain ⟨cap, dump, record, kept⟩ := captureTrigger_recorded (s := { s with cap := { s.cap with range := u.cap.range } }) h1 h2 .range
    rw [← hu] at cap dump record kept
    refine ⟨cap, dump, record.of_log rfl, ?_⟩
    refine KeepsAllBut.trans (fs := [.cap]) (fun f hf => ?_) kept (by decide) (List.Subset.refl _)
    cases f <;> first | exact absurd (by decide) hf | rfl

end Sys2Proof.Machine
end

