-- ==== Sys2Proof/Proofs/StatusReads.lean ====
section
/-! The end of a status read (R60, R65 to R71, R82, R98). -/

namespace Sys2Proof.Machine

/-- The scan moves on to a next fitted slot, or it ends. -/
theorem advanceScan_cases {s : State} (h : s.ssc.enabled = true) (i : Slot) :
    (∃ j, i < j ∧ s.mpl.fitted.get j = true ∧ (∀ l, i < l → l < j → s.mpl.fitted.get l = false)
        ∧ advanceScan i s = s.onSsc fun c => { c with position := some j })
      ∨ (∀ j, i < j → s.mpl.fitted.get j = false) ∧ advanceScan i s = deliverScanEnd s := by
  by_cases last : ∀ j, i < j → s.mpl.fitted.get j = false
  · exact .inr ⟨last, advanceScan_ends h last⟩
  · push Not at last
    obtain ⟨k, hk, fk⟩ := last
    obtain ⟨j, ⟨hj, fj⟩, least⟩ := wellFounded_lt.has_min {j : Slot | i < j ∧ s.mpl.fitted.get j = true} ⟨k, hk, by simpa using fk⟩
    have between : ∀ l, i < l → l < j → s.mpl.fitted.get l = false := fun l hl hlj => by
      by_contra fl
      exact least l ⟨hl, by simpa using fl⟩ hlj
    exact .inl ⟨j, hj, fj, between, advanceScan_moves_on h hj fj between⟩

/-- A good frame of a link that is UP, without news for any owner (R65 to R68, R71, R78). -/
theorem evaluateFrame_quiet {s : State} {i : Slot} {w : StatusWords} (he : s.ssc.enabled = true) (hn : s.rct.restart = .normal)
    (hl : (s.lsv.get i).link = .up) (hw : s.rct.watch.get i = none) (hc : s.plan.captureSlot ≠ some i) (sum : w.check = w.sum)
    (tag : (s.lsv.get i).prevTag ≠ some w.tag) (code : w.code = 0) (cell : w.cell ≠ 3) :
    evaluateFrame i (some w) s = { s with
      lsv := s.lsv.set i { s.lsv.get i with
        prevTag := some w.tag, notGood := 0, goodRun := boundedInc 2 (s.lsv.get i).goodRun, erroredRun := 0 }
      fin := { s.fin with slots := s.fin.slots.set i { s.fin.slots.get i with latch := false } } } := by
  have outcome : FrameOutcome.good w = outcomeOf (s.lsv.get i) (some w) :=
    ((if_neg (not_not.2 sum)).trans (if_neg tag)).symm
  have after : linkAfter s.plan (.good w) (s.lsv.get i) = ({ s.lsv.get i with
      prevTag := some w.tag, notGood := 0, goodRun := boundedInc 2 (s.lsv.get i).goodRun, erroredRun := 0 }, []) := by
    rw [linkAfter_live (by rw [hl]; decide), liveAfter_good rfl, if_neg (by simp [LinkRecord.count, hl])]
    rfl
  have supervised : supervise i (.good w) s = setLink i { s.lsv.get i with
      prevTag := some w.tag, notGood := 0, goodRun := boundedInc 2 (s.lsv.get i).goodRun, erroredRun := 0 } s := by
    rw [supervise_eq, after]; rfl
  have live : ((supervise i (.good w) s).lsv.get i).link ≠ .lost := by
    rw [supervised]; simp [setLink, hl]
  rw [evaluateFrame_eq he outcome rfl, handOn_good live rfl, supervised]
  have report : ∀ t : State, statusReport i w.cell w.code t
      = { t with fin := { t.fin with slots := t.fin.slots.set i { t.fin.slots.get i with latch := false } } } := fun t => by
    rw [statusReport, reportedCode_none code cell]; rfl
  rw [report, if_pos (by exact he)]
  have quiet : ∀ t : State, t.rct = s.rct → t.plan = s.plan →
      captureFrame i (.good w) (judgeFrame t.rct.restart i (.good w) (confirmContactor i (Feedback.ofWord w.feedback) t)) = t := by
    intro t hr hp
    have unconfirmed : confirmContactor i (Feedback.ofWord w.feedback) t = t := by simp [confirmContactor, hr, hw]
    rw [unconfirmed, hr, hn, judgeFrame_other (by decide) (by decide)]
    exact if_neg (by rw [hp]; exact hc)
  exact quiet _ rfl rfl

/-- The scan end of NORMAL (R61, R82, R98). -/
theorem deliverScanEnd_normal {s : State} (h : s.rct.restart = .normal) :
    deliverScanEnd s = scanTaken { s with ssc := { s.ssc with inProgress := false, position := none, ended := true } } := by
  exact (scanEnd_taken { s with ssc := { s.ssc with inProgress := false, position := none, ended := true } } _ _ _ rfl rfl rfl).2.2
    (by rw [h]; decide) (.inl (by rw [h]; decide))

/-- Settles O15: the quiet frame, the discarded read, and the six parts of a frame's evaluation. -/
theorem statusReadIsEvaluated : Obligations.StatusReadIsEvaluated := by
  refine ⟨fun s far i => ⟨fun w hw hh he hn hl hwatch hc sum tag code cell => ?_, fun hh => ⟨_, ?_, rfl⟩⟩, framesAreHandedOn,
    statusReportsAreTaken, feedbackConfirms, rechargeFramesAreJudged, verifyFramesAreJudged, rangeFieldTriggers⟩
  · have latch : ((s.fin.slots.set i { s.fin.slots.get i with latch := false }).get i).latch = false := by simp
    refine ⟨_, sscTenureEnd_exec hh far rfl, ?_⟩
    rw [← hw, evaluateFrame_quiet (s := { s with mem := applyFar far s.mem, mpa := { s.mpa with holder := none } }) (by exact he)
      (by exact hn) (by exact hl) (by exact hwatch) (by exact hc) (by exact sum) (by exact tag) code cell]
    rcases advanceScan_cases (s := { s with
      mem := applyFar far s.mem, mpa := { s.mpa with holder := none }
      lsv := s.lsv.set i { s.lsv.get i with
        prevTag := some w.tag, notGood := 0, goodRun := boundedInc 2 (s.lsv.get i).goodRun, erroredRun := 0 }
      fin := { s.fin with slots := s.fin.slots.set i { s.fin.slots.get i with latch := false } } }) he i
      with ⟨k, hk, fk, between, e⟩ | ⟨last, e⟩
    · rw [e]
      refine ⟨PerSlot.get_set_same .., fun j hj => PerSlot.get_set_other _ _ hj, latch, fun j hj => PerSlot.get_set_other _ _ hj, fun j hj fj before => ?_, fun last => ?_, rfl, rfl, ?_⟩
      · have same : k = j := by
          rcases lt_trichotomy k j with h | h | h
          · exact absurd (before k hk h) (by rw [show s.mpl.fitted.get k = true from fk]; decide)
          · exact h
          · exact absurd (between j hj h) (by rw [show s.mpl.fitted.get j = true from fj]; decide)
        rw [same]
        exact ⟨rfl, rfl, rfl⟩
      · exact absurd (last k hk) (by rw [show s.mpl.fitted.get k = true from fk]; decide)
      · intro f hf; cases f <;> first | exact absurd (by decide) hf | rfl
    · rw [e, deliverScanEnd_normal (by exact hn)]
      refine ⟨PerSlot.get_set_same .., fun j hj => PerSlot.get_set_other _ _ hj, latch, fun j hj => PerSlot.get_set_other _ _ hj,
        fun j hj fj before => absurd (last j hj) (by rw [show s.mpl.fitted.get j = true from fj]; decide), fun _ => ⟨fun p => ?_, rfl, rfl⟩, rfl, rfl, ?_⟩
      · simp [scanTaken]
      · intro f hf; cases f <;> first | exact absurd (by decide) hf | rfl
  · simp only [exec, execSscSlotTenureEnd, hh]
    rfl

end Sys2Proof.Machine
end

