-- ==== Sys2Proof/Proofs/PlanningRun.lean ====
section
/-! A planning run slot by slot, its spares and its records (R114 to R117, R122, R123, R126, R129). -/

namespace Sys2Proof.Machine

/-! ## One slot over steps 1 to 3 (R115 to R117) -/

theorem planReinstate_balance {elig : Slot → Bool} {m : SlotMap} {i : Slot} {h : Nat} (hr : (m.get i).role = .bypassedBalance h) :
    (planReinstate elig m).get i = if elig i then { m.get i with role := .active h } else m.get i := by
  simp only [planReinstate, PerSlot.get_ofFn, hr]

theorem planReinstate_other {elig : Slot → Bool} {m : SlotMap} {i : Slot} (hr : ∀ h, (m.get i).role ≠ .bypassedBalance h) :
    (planReinstate elig m).get i = m.get i := by
  rcases planReinstate_get elig m i with e | ⟨h, e, _⟩
  · exact e
  · exact absurd e (hr h)

/-- The map that steps 1 and 2 leave (R115, R116). -/
def planReturned (hard : Slot → Bool) (s : State) : SlotMap := planReinstate (eligible s) (planFaulted hard s.mpl.slots)

theorem planRoles_eq (hard : Slot → Bool) (s : State) :
    planRoles hard s = planSpares (eligible s) s.mpl.k (planReturned hard s) := rfl

theorem planReturned_hard {hard : Slot → Bool} {s : State} {i : Slot} (h : hard i = true) :
    (planReturned hard s).get i = (s.mpl.slots.get i).bypassFault := by
  have faulted : (planFaulted hard s.mpl.slots).get i = (s.mpl.slots.get i).bypassFault := by rw [planFaulted_get, if_pos h]
  rw [planReturned, planReinstate_other (by rw [faulted]; simp [SlotEntry.bypassFault]), faulted]

theorem planFaulted_sound {hard : Slot → Bool} {i : Slot} (h : hard i = false) (m : SlotMap) : (planFaulted hard m).get i = m.get i := by
  rw [planFaulted_get, if_neg (by simp [h])]

theorem planReturned_balance {hard : Slot → Bool} {s : State} {i : Slot} {p : Nat} (h : hard i = false)
    (hr : (s.mpl.slots.get i).role = .bypassedBalance p) :
    (planReturned hard s).get i = if eligible s i then { s.mpl.slots.get i with role := .active p } else s.mpl.slots.get i := by
  have same := planFaulted_sound h s.mpl.slots
  rw [planReturned, planReinstate_balance (by rw [same]; exact hr), same]

theorem planReturned_other {hard : Slot → Bool} {s : State} {i : Slot} (h : hard i = false)
    (hr : ∀ p, (s.mpl.slots.get i).role ≠ .bypassedBalance p) : (planReturned hard s).get i = s.mpl.slots.get i := by
  have same := planFaulted_sound h s.mpl.slots
  rw [planReturned, planReinstate_other (by rw [same]; exact hr), same]

/-- Step 3 touches the eligible spares alone (R117). -/
theorem planSpares_other {elig : Slot → Bool} {k : Nat} {m : SlotMap} {i : Slot}
    (h : (m.get i).role ≠ .spare ∨ elig i = false) : (planSpares elig k m).get i = m.get i := by
  rcases planSpares_taken elig k m i with e | ⟨hs, he, _⟩
  · exact e
  · rcases h with h | h
    · exact absurd hs h
    · rw [he] at h; exact absurd h (by decide)

/-- What the working map has of a slot before the rebalance step, by the role it had. -/
theorem planRoles_hard {hard : Slot → Bool} {s : State} {i : Slot} (h : hard i = true) :
    (planRoles hard s).get i = (s.mpl.slots.get i).bypassFault := by
  have returned := planReturned_hard (s := s) h
  rw [planRoles_eq, planSpares_other (.inl (by rw [returned]; simp [SlotEntry.bypassFault])), returned]

theorem planRoles_balance {hard : Slot → Bool} {s : State} {i : Slot} {p : Nat} (h : hard i = false)
    (hr : (s.mpl.slots.get i).role = .bypassedBalance p) :
    (planRoles hard s).get i = if eligible s i then { s.mpl.slots.get i with role := .active p } else s.mpl.slots.get i := by
  have returned := planReturned_balance h hr
  have other : ((planReturned hard s).get i).role ≠ .spare := by
    rw [returned]; split
    · simp
    · rw [hr]; simp
  rw [planRoles_eq, planSpares_other (.inl other), returned]

theorem planRoles_other {hard : Slot → Bool} {s : State} {i : Slot} (h : hard i = false)
    (hr : ∀ p, (s.mpl.slots.get i).role ≠ .bypassedBalance p) (hs : (s.mpl.slots.get i).role ≠ .spare ∨ eligible s i = false) :
    (planRoles hard s).get i = s.mpl.slots.get i := by
  have returned := planReturned_other h hr
  rw [planRoles_eq, planSpares_other (by rw [returned]; exact hs), returned]

theorem planRoles_spare {hard : Slot → Bool} {s : State} {i : Slot} (h : hard i = false) (hr : (s.mpl.slots.get i).role = .spare) :
    (planRoles hard s).get i = s.mpl.slots.get i
      ∨ eligible s i = true ∧ ∃ q, (planRoles hard s).get i = { s.mpl.slots.get i with role := .active q } := by
  have returned := planReturned_other h (by rw [hr]; simp)
  rcases planSpares_taken (eligible s) s.mpl.k (planReturned hard s) i with e | ⟨_, he, q, e⟩
  · exact .inl (e.trans returned)
  · exact .inr ⟨he, q, e.trans (by rw [returned])⟩

/-! ## One slot over a run -/

/-- The entry a run leaves: the role of the working map and the bypass of that role (R122). -/
theorem planRun_get (hard : Slot → Bool) (s : State) (i : Slot) :
    ∃ e, ((planRoles hard s).get i = e
        ∨ ∃ q, ((planRoles hard s).get i).role = .active q ∧ e = { (planRoles hard s).get i with role := .bypassedBalance q })
      ∧ (planRun hard s).mpl.slots.get i = if s.mpl.fitted.get i then { e with bypass := e.role.bypass } else e := by
  refine ⟨_, ?_, by rw [(planRun_eq_mapTaken hard s).1, mapTaken_get]⟩
  rcases rebalance_balanced s.mpl.table s.plan.rounding s.mpl.k (planRoles hard s) i with e | h
  · exact .inl e.symm
  · exact .inr h

/-- Role, mark and lifetime count behind a run: those of the working map, unless it is bypassed for balance. -/
theorem planRun_entry (hard : Slot → Bool) (s : State) (i : Slot) :
    ((planRun hard s).mpl.slots.get i).quarantine = ((planRoles hard s).get i).quarantine
      ∧ ((planRun hard s).mpl.slots.get i).lifetime = ((planRoles hard s).get i).lifetime
      ∧ (((planRun hard s).mpl.slots.get i).role = ((planRoles hard s).get i).role
        ∨ ∃ q, ((planRoles hard s).get i).role = .active q ∧ ((planRun hard s).mpl.slots.get i).role = .bypassedBalance q) := by
  obtain ⟨e, he, hu⟩ := planRun_get hard s i
  have fields : ((planRun hard s).mpl.slots.get i).quarantine = e.quarantine ∧ ((planRun hard s).mpl.slots.get i).lifetime = e.lifetime
      ∧ ((planRun hard s).mpl.slots.get i).role = e.role := by
    rw [hu]; split <;> exact ⟨rfl, rfl, rfl⟩
  obtain ⟨quarantine, lifetime, role⟩ := fields
  rw [quarantine, lifetime, role]
  rcases he with rfl | ⟨q, hq, rfl⟩
  · exact ⟨rfl, rfl, .inl rfl⟩
  · exact ⟨rfl, rfl, .inr ⟨q, hq, rfl⟩⟩

/-- A slot that is not ACTIVE in the working map keeps its role. -/
theorem planRun_role_of_inactive {hard : Slot → Bool} {s : State} {i : Slot} {r : Role} (h : ((planRoles hard s).get i).role = r)
    (hr : ∀ q, r ≠ .active q) : ((planRun hard s).mpl.slots.get i).role = r := by
  obtain ⟨_, _, e | ⟨q, hq, _⟩⟩ := planRun_entry hard s i
  · exact e.trans h
  · exact absurd (h ▸ hq) (hr q)

theorem planRun_role_of_active {hard : Slot → Bool} {s : State} {i : Slot} {q : Nat} (h : ((planRoles hard s).get i).role = .active q) :
    ((planRun hard s).mpl.slots.get i).role = .active q ∨ ((planRun hard s).mpl.slots.get i).role = .bypassedBalance q := by
  obtain ⟨_, _, e | ⟨q', hq', e⟩⟩ := planRun_entry hard s i
  · exact .inl (e.trans h)
  · rw [h] at hq'
    rw [e, Role.active.inj hq']
    exact .inr rfl

theorem planRun_bypass (hard : Slot → Bool) (s : State) (i : Slot) :
    (s.mpl.fitted.get i = true → ((planRun hard s).mpl.slots.get i).bypass
        = if ((planRun hard s).mpl.slots.get i).role.isActive then .opened else .closed)
      ∧ (s.mpl.fitted.get i = false → ((planRun hard s).mpl.slots.get i).bypass = (s.mpl.slots.get i).bypass) := by
  obtain ⟨e, he, hu⟩ := planRun_get hard s i
  refine ⟨fun hf => by rw [hu, if_pos hf]; rfl, fun hf => ?_⟩
  have kept : ((planRoles hard s).get i).bypass = (s.mpl.slots.get i).bypass := by
    cases hh : hard i with
    | true => rw [planRoles_hard hh]; rfl
    | false =>
      cases hr : (s.mpl.slots.get i).role with
      | bypassedBalance p => rw [planRoles_balance hh hr]; split <;> rfl
      | spare =>
        rcases planRoles_spare hh hr with e | ⟨_, q, e⟩ <;> rw [e]
      | active | absent | bypassedFault => rw [planRoles_other hh (by rw [hr]; simp) (.inl (by rw [hr]; simp))]
  rw [hu, if_neg (by simp [hf]), ← kept]
  rcases he with rfl | ⟨q, _, rfl⟩ <;> rfl

/-! ## The spares of a phase (R117) -/

/-- The eligible spares of a phase, ascending. -/
def sparesOf (elig : Slot → Bool) (m : SlotMap) (p : Phase) : List Slot :=
  (phaseSlots p).filter fun i => (m.get i).role == .spare && elig i

theorem sparesOf_mem {elig : Slot → Bool} {m : SlotMap} {p : Phase} {i : Slot} :
    i ∈ sparesOf elig m p ↔ phaseOf i = p ∧ (m.get i).role = .spare ∧ elig i = true := by
  simp [sparesOf, mem_phaseSlots]

theorem takeSpare_first {elig : Slot → Bool} {p : Phase} {m : SlotMap} {i : Slot} {rest : List Slot}
    (h : sparesOf elig m p = i :: rest) (q : Nat) :
    takeSpare elig p m q = m.setRole i (.active q) ∧ sparesOf elig (m.setRole i (.active q)) p = rest := by
  have first : firstSpare elig m p = some i := by rw [firstSpare, ← List.head?_filter]; exact congrArg List.head? h
  refine ⟨by simp [takeSpare, first], ?_⟩
  have fresh : i ∉ rest := (List.nodup_cons.1 (h ▸ (phaseSlots_nodup p).filter _)).1
  have spares : sparesOf elig (m.setRole i (.active q)) p = (sparesOf elig m p).filter (· != i) := by
    rw [sparesOf, sparesOf, List.filter_filter]
    refine List.filter_congr fun j _ => ?_
    rw [setRole_get]
    by_cases hj : j = i
    · simp [hj]
    · simp [hj]
  rw [spares, h, List.filter_cons_of_neg (by simp)]
  exact List.filter_eq_self.2 fun j hj => by simpa using fun (e : j = i) => fresh (e ▸ hj)

/-- The spares take the positions one by one, as far as they reach. -/
theorem foldl_takeSpare_get (elig : Slot → Bool) (p : Phase) (positions : List Nat) (m : SlotMap) (n : Nat) (i : Slot)
    (h : (sparesOf elig m p)[n]? = some i) :
    (∀ q, positions[n]? = some q → ((positions.foldl (takeSpare elig p) m).get i).role = .active q)
      ∧ (positions[n]? = none → ((positions.foldl (takeSpare elig p) m).get i).role = .spare) := by
  induction positions generalizing m n with
  | nil => exact ⟨fun q hq => by simp at hq, fun _ => (sparesOf_mem.1 (List.mem_of_getElem? h)).2.1⟩
  | cons r positions ih =>
    cases hs : sparesOf elig m p with
    | nil => rw [hs] at h; simp at h
    | cons j rest =>
      obtain ⟨taken, left⟩ := takeSpare_first hs r
      rw [hs] at h
      rw [List.foldl_cons, taken]
      cases n with
      | zero =>
        obtain rfl : j = i := by simpa using h
        have role : ((m.setRole j (.active r)).get j).role = .active r := by rw [setRole_get, if_pos rfl]
        have kept : (positions.foldl (takeSpare elig p) (m.setRole j (.active r))).get j = (m.setRole j (.active r)).get j := by
          rcases foldl_takeSpare_taken elig p positions (m.setRole j (.active r)) j with e | ⟨hs, _⟩
          · exact e
          · rw [role] at hs; exact absurd hs (by simp)
        exact ⟨fun q hq => by rw [kept, role]; simp at hq; rw [hq], fun hq => by simp at hq⟩
      | succ n => exact ih (m.setRole j (.active r)) n (by rw [left]; simpa using h)

/-- Filling a phase touches the slots of that phase alone. -/
theorem takeSpare_elsewhere {elig : Slot → Bool} {p : Phase} {i : Slot} (h : phaseOf i ≠ p) (m : SlotMap) (q : Nat) :
    (takeSpare elig p m q).get i = m.get i := by
  unfold takeSpare
  split
  · next j hj =>
    rw [setRole_get, if_neg]
    rintro rfl
    exact h (firstSpare_some hj).1
  · rfl

theorem fillPhase_elsewhere {elig : Slot → Bool} {k : Nat} {p : Phase} {i : Slot} (h : phaseOf i ≠ p) (m : SlotMap) :
    (fillPhase elig k m p).get i = m.get i := by
  rw [fillPhase_eq]
  generalize openPositions k m p = l
  induction l generalizing m with
  | nil => rfl
  | cons q l ih => rw [List.foldl_cons, ih, takeSpare_elsewhere h]

/-- Two maps that agree on a phase. -/
def AgreeOn (p : Phase) (m m' : SlotMap) : Prop := ∀ i, phaseOf i = p → m'.get i = m.get i

/-- Step 3 in one phase, from a map that agrees with the one before it. -/
theorem planSpares_phase (elig : Slot → Bool) (k : Nat) (m : SlotMap) (p : Phase) :
    ∃ m', AgreeOn p m m' ∧ AgreeOn p (fillPhase elig k m' p) (planSpares elig k m) := by
  have elsewhere : ∀ q m, q ≠ p → AgreeOn p m (fillPhase elig k m q) := fun q m hq i hi =>
    fillPhase_elsewhere (by rw [hi]; exact hq.symm) m
  cases p with
  | a =>
    refine ⟨m, fun i _ => rfl, fun i hi => ?_⟩
    exact (elsewhere .c _ (by decide) i hi).trans (elsewhere .b _ (by decide) i hi)
  | b => exact ⟨fillPhase elig k m .a, elsewhere .a m (by decide), elsewhere .c _ (by decide)⟩
  | c =>
    refine ⟨fillPhase elig k (fillPhase elig k m .a) .b, fun i hi => ?_, fun i _ => rfl⟩
    exact (elsewhere .b _ (by decide) i hi).trans (elsewhere .a m (by decide) i hi)

theorem AgreeOn.spares {p : Phase} {m m' : SlotMap} (h : AgreeOn p m m') (elig : Slot → Bool) :
    sparesOf elig m' p = sparesOf elig m p :=
  List.filter_congr fun i hi => by rw [h i ((mem_phaseSlots p i).1 hi)]

/-- The positions that step 3 fills, as a test over the slots of the phase. -/
theorem openPositions_eq (k : Nat) (m : SlotMap) (p : Phase) : openPositions k m p
    = (List.range k).filter fun q => (phaseSlots p).all fun i => (m.get i).role != .active q && (m.get i).role != .bypassedBalance q := by
  rw [openPositions, darkPositions_eq, List.filter_filter]
  refine List.filter_congr fun q _ => ?_
  have homes : (homePositions m p).contains q = true ↔ ∃ i, phaseOf i = p ∧ (m.get i).role = .bypassedBalance q := by
    rw [List.contains_iff_mem, mem_homePositions]
  rw [Bool.eq_iff_iff, Bool.and_eq_true, Bool.not_eq_true', ← Bool.not_eq_true, homes]
  simp only [List.all_eq_true, mem_phaseSlots, bne_iff_ne, Bool.and_eq_true, not_exists, not_and, ne_eq]
  exact ⟨fun ⟨h1, h2⟩ i hi => ⟨h2 i hi, h1 i hi⟩, fun h => ⟨fun i hi => (h i hi).2, fun i hi => (h i hi).1⟩⟩

theorem AgreeOn.positions {p : Phase} {m m' : SlotMap} (h : AgreeOn p m m') (k : Nat) :
    openPositions k m' p = openPositions k m p := by
  rw [openPositions_eq, openPositions_eq]
  refine List.filter_congr fun q _ => ?_
  rw [Bool.eq_iff_iff, List.all_eq_true, List.all_eq_true]
  exact forall_congr' fun i => imp_congr_right fun hi => by rw [h i ((mem_phaseSlots p i).1 hi)]

/-- The spares of a phase after step 3 (R117). -/
theorem planSpares_get {elig : Slot → Bool} {k : Nat} {m : SlotMap} {p : Phase} {n : Nat} {i : Slot}
    (h : (sparesOf elig m p)[n]? = some i) :
    (∀ q, (openPositions k m p)[n]? = some q → ((planSpares elig k m).get i).role = .active q)
      ∧ ((openPositions k m p)[n]? = none → ((planSpares elig k m).get i).role = .spare) := by
  obtain ⟨m', before, after⟩ := planSpares_phase elig k m p
  have phase := (sparesOf_mem.1 (List.mem_of_getElem? h)).1
  rw [after i phase, fillPhase_eq, before.positions]
  rw [← before.spares] at h
  exact foldl_takeSpare_get elig p (openPositions k m p) m' n i h

theorem planReturned_spare (hard : Slot → Bool) (s : State) (i : Slot) :
    ((planReturned hard s).get i).role = .spare ↔ hard i = false ∧ (s.mpl.slots.get i).role = .spare := by
  cases hh : hard i with
  | true => rw [planReturned_hard hh]; simp [SlotEntry.bypassFault]
  | false =>
    cases hr : (s.mpl.slots.get i).role with
    | bypassedBalance p => rw [planReturned_balance hh hr]; split <;> simp [hr]
    | spare | active | absent | bypassedFault => rw [planReturned_other hh (by rw [hr]; simp), hr]; simp

theorem planReturned_place (hard : Slot → Bool) (s : State) (i : Slot) (q : Nat) :
    ((planReturned hard s).get i).role.place = some q ↔ hard i = false ∧ (s.mpl.slots.get i).role.place = some q := by
  cases hh : hard i with
  | true => rw [planReturned_hard hh]; simp [SlotEntry.bypassFault, Role.place]
  | false =>
    cases hr : (s.mpl.slots.get i).role with
    | bypassedBalance p => rw [planReturned_balance hh hr]; split <;> simp [hr, Role.place]
    | spare | active | absent | bypassedFault => rw [planReturned_other hh (by rw [hr]; simp), hr]; simp

/-! ## The records of a run (R122, R123, R129) -/

/-- What two states agree on that records and images read and write, the jobs of class 2 aside (R172). -/
structure AsideTwo (s t : State) : Prop where
  log : t.log = s.log
  wen : t.wen = { s.wen with jobs2 := t.wen.jobs2 }
  restart : t.rct.restart = s.rct.restart
  frames : t.itm.frames = s.itm.frames
  millis : t.itm.millis = s.itm.millis

theorem AsideTwo.record {s t : State} (h : AsideTwo s t) (c : Category) (code slot arg : Word) :
    AsideTwo (logRecord c code slot arg s) (logRecord c code slot arg t) := by
  have both : (logRecord c code slot arg t).log = (logRecord c code slot arg s).log
      ∧ (logRecord c code slot arg t).wen = { (logRecord c code slot arg s).wen with jobs2 := (logRecord c code slot arg t).wen.jobs2 } := by
    obtain ⟨hl, hw, hr, hf, hm⟩ := h
    have jobs : ∀ pos next ws, recordJob pos next ws ≠ [] := by simp [recordJob]
    cases s
    cases t
    simp only at hl hw hr hf hm
    generalize jobs2 : Wen.jobs2 _ = x at hw
    subst hl hw
    simp only [logRecord, handRecord, logFull, dropRecord, acceptRecord, queueOverflowHeader, recordWords, submit, State.onLog,
      State.onWen, hr, hf, hm, jobs, ↓reduceIte]
    split_ifs <;> exact ⟨rfl, rfl⟩
  exact ⟨both.1, both.2, by simpa using h.restart, by simpa using h.frames, by simpa using h.millis⟩

theorem AsideTwo.records {s t : State} (h : AsideTwo s t) (c : Category) (rs : List (Word × Word × Word)) :
    AsideTwo (handAll c rs s) (handAll c rs t) := by
  induction rs generalizing s t with
  | nil => exact h
  | cons r rs ih => exact ih (h.record c r.1 r.2.1 r.2.2)

theorem AsideTwo.image {s t : State} (h : AsideTwo s t) (d : Bool) : AsideTwo (queueMapImage d s) (queueMapImage d t) := by
  have wen : (queueMapImage d t).wen = { (queueMapImage d s).wen with jobs2 := (queueMapImage d t).wen.jobs2 } := by
    simp only [queueMapImage]
    rw [h.wen]
    dsimp only
    split
    · exact h.wen
    · simp only [submit, State.onWen]
      rw [h.wen]
      rfl
  exact ⟨by simpa using h.log, wen, by simpa using h.restart, by simpa using h.frames, by simpa using h.millis⟩

theorem mapRecordOf_eq (e e' : SlotEntry) : mapChange e e' = mapRecordOf e e' := by
  unfold mapChange mapRecordOf
  cases e.role <;> cases e'.role <;> rfl

/-- The MAP records of the slots of a list. -/
def mapRecords (before after : SlotMap) (l : List Slot) : List (Word × Word × Word) :=
  l.filterMap fun i => (mapRecordOf (before.get i) (after.get i)).map fun r : Word × Word => (r.1, word i.val, r.2)

theorem foldl_logMapChange (before after : SlotMap) (l : List Slot) (s : State) :
    l.foldl (fun t i => logMapChange before after i t) s = handAll .map (mapRecords before after l) s := by
  induction l generalizing s with
  | nil => rfl
  | cons i l ih =>
    rw [List.foldl_cons, ih, logMapChange, mapRecordOf_eq, mapRecords, mapRecords, List.filterMap_cons]
    cases mapRecordOf (before.get i) (after.get i) <;> rfl

theorem logRun_eq (before : SlotMap) (source : Word) (short : Option Phase) (s : State) : logRun before source short s
    = handAll .map (mapRecords before s.mpl.slots allSlots ++ [(5, noSlot, source)]
        ++ short.toList.map fun p => (6, noSlot, word p.num)) s := by
  unfold logRun
  rw [foldl_logMapChange, handAll_append, handAll_append]
  cases short <;> rfl

theorem logCommanded_eq (slots : List Slot) (s : State) : logCommanded slots s
    = handAll .contactor (if slots.length = 0 then [] else [(1, noSlot, word slots.length)]) s := by
  cases slots <;> rfl

/-- The map of a run with the contactor job of its changes agrees with the state before it, the jobs of class 2 aside. -/
theorem mapTaken_aside (hard : Slot → Bool) (s : State) : AsideTwo s (mapTaken hard s) := by
  obtain ⟨w, hw⟩ := mapTaken_rct hard s
  refine ⟨by simp, ?_, by rw [hw], by simp, by simp⟩
  rcases mapTaken_wen hard s with e | ⟨l, e⟩
  · rw [e]
  · rw [e]
    unfold submit
    split <;> rfl

theorem bumpGeneration_aside {s t : State} (h : AsideTwo s t) : AsideTwo (queueMapImage false s) (bumpGeneration t) :=
  AsideTwo.image (t := t.onMpl fun m => { m with generation := m.generation + 1 })
    ⟨h.log, h.wen, h.restart, h.frames, h.millis⟩ false

/-- A run behind the map it takes: the image and the records (R122, R123, R129). -/
theorem planRun_eq (hard : Slot → Bool) (s : State) : planRun hard s
    = logCommanded (contactorChanges s.mpl.fitted s.mpl.slots (mapTaken hard s).mpl.slots)
        (logRun s.mpl.slots (rebalance s.mpl.table s.plan.rounding s.mpl.k (planRoles hard s)).source
          (shortPhase s.plan.minActive (mapTaken hard s).mpl.slots) (bumpGeneration (mapTaken hard s))) := by
  have plan : (bumpGeneration (mapTaken hard s)).plan = s.plan := by simp
  have run : planRun hard s = logCommanded (contactorChanges s.mpl.fitted s.mpl.slots (commandFitted s.mpl.fitted
        (rebalance s.mpl.table s.plan.rounding s.mpl.k (planRoles hard s)).slots))
      (logRun s.mpl.slots (rebalance s.mpl.table s.plan.rounding s.mpl.k (planRoles hard s)).source
        (shortPhase (bumpGeneration (mapTaken hard s)).plan.minActive (commandFitted s.mpl.fitted
          (rebalance s.mpl.table s.plan.rounding s.mpl.k (planRoles hard s)).slots)) (bumpGeneration (mapTaken hard s))) := rfl
  rw [run, plan, mapTaken_slots]

theorem planRun_recorded (hard : Slot → Bool) (s : State) :
    RunIsRecorded (rebalance s.mpl.table s.plan.rounding s.mpl.k (planRoles hard s)).source s (planRun hard s) := by
  intro moved short commanded v hm hs hc hv
  have slots := (planRun_eq_mapTaken hard s).1
  have after : (bumpGeneration (mapTaken hard s)).mpl.slots = (mapTaken hard s).mpl.slots := by simp
  rw [slots] at hm hs hc
  rw [List.head?_filter] at hs
  have aside := ((bumpGeneration_aside (mapTaken_aside hard s)).records .map
    (moved ++ [(5, noSlot, (rebalance s.mpl.table s.plan.rounding s.mpl.k (planRoles hard s)).source)]
      ++ short.toList.map fun p => (6, noSlot, word p.num))).records .contactor (if commanded = 0 then [] else [(1, noSlot, word commanded)])
  rw [← hv] at aside
  have run : planRun hard s = handAll .contactor (if commanded = 0 then [] else [(1, noSlot, word commanded)])
      (handAll .map (moved ++ [(5, noSlot, (rebalance s.mpl.table s.plan.rounding s.mpl.k (planRoles hard s)).source)]
        ++ short.toList.map fun p => (6, noSlot, word p.num)) (bumpGeneration (mapTaken hard s))) := by
    rw [planRun_eq, logCommanded_eq, logRun_eq, after, hm, hs, hc]
    rfl
  rw [← run] at aside
  exact ⟨aside.log, aside.wen⟩

/-! ## The jobs and the fields of a run -/

theorem logRecord_jobsTwo (c : Category) (code slot arg : Word) (s : State) : (logRecord c code slot arg s).wen.jobs2 = s.wen.jobs2 := by
  have jobs : ∀ pos next ws, recordJob pos next ws ≠ [] := by simp [recordJob]
  simp only [logRecord, handRecord, dropRecord, acceptRecord, queueOverflowHeader, submit, State.onLog, State.onWen, jobs, ↓reduceIte]
  split_ifs <;> rfl

theorem handAll_jobsTwo (c : Category) (rs : List (Word × Word × Word)) (s : State) : (handAll c rs s).wen.jobs2 = s.wen.jobs2 := by
  induction rs generalizing s with
  | nil => rfl
  | cons r rs ih => exact (ih _).trans (logRecord_jobsTwo ..)

theorem bumpGeneration_jobsTwo (s : State) : (bumpGeneration s).wen.jobs2 = s.wen.jobs2 := by
  unfold bumpGeneration queueMapImage
  split <;> rfl

theorem planRun_jobsTwo (hard : Slot → Bool) (s : State) : (planRun hard s).wen.jobs2 = (mapTaken hard s).wen.jobs2 := by
  rw [planRun_eq, logCommanded_eq, logRun_eq, handAll_jobsTwo, handAll_jobsTwo, bumpGeneration_jobsTwo]

theorem commandContactors_jobsTwo {l : List Slot} (h : l ≠ []) (s : State) : (commandContactors l s).wen.jobs2
    = s.wen.jobs2 ++ [⟨.contactor, l.map fun i => ⟨physicalCommandAddr i 4, .commandedBypass i⟩, false⟩] := by
  have writes : contactorWrites l ≠ [] := by simpa [contactorWrites] using h
  simp only [commandContactors, h, submit, writes, ↓reduceIte]
  rfl

theorem mapTaken_keeps (hard : Slot → Bool) (s : State) : KeepsAllBut [.rct, .slots, .phases, .wen] s (mapTaken hard s) := by
  intro f hf
  cases f <;> simp_all [Field.same]
  all_goals simp [mapTaken]

theorem bumpGeneration_keeps (s : State) : KeepsAllBut [.generation, .wen] s (bumpGeneration s) := by
  intro f hf
  cases f <;> simp_all [Field.same]

theorem planRun_keeps (hard : Slot → Bool) (s : State) :
    KeepsAllBut [.rct, .slots, .phases, .generation, .wen, .log] s (planRun hard s) := by
  rw [planRun_eq, logCommanded_eq, logRun_eq]
  have taken : KeepsAllBut [.rct, .slots, .phases, .generation, .wen] s (bumpGeneration (mapTaken hard s)) :=
    (mapTaken_keeps hard s).trans (bumpGeneration_keeps _) (by decide) (by decide)
  refine (taken.trans (records_handAll ..).keeps ?_ ?_).trans (records_handAll ..).keeps (List.Subset.refl _) ?_ <;> decide

theorem planRun_image (hard : Slot → Bool) (s : State) : ImagePending (planRun hard s) := by
  rw [planRun_eq, logCommanded_eq, logRun_eq]
  exact (records_handAll ..).imagePending ((records_handAll ..).imagePending (imagePending_queue ..))

theorem planRun_generation (hard : Slot → Bool) (s : State) : (planRun hard s).mpl.generation = s.mpl.generation + 1 := by
  simp [planRun, bumpGeneration]

theorem planRun_phaseRecord (hard : Slot → Bool) (s : State) (p : Phase) :
    ((planRun hard s).mpl.phases.get p).saturation = (s.mpl.phases.get p).saturation
      ∧ ((planRun hard s).mpl.phases.get p).torn = (s.mpl.phases.get p).torn
      ∧ ((planRun hard s).mpl.phases.get p).scale
        = (rebalance s.mpl.table s.plan.rounding s.mpl.k (planRoles hard s)).scale.get p := by
  rw [planRun_phases]
  simp [setRebalance]

/-! ## The obligation -/

/-- A hard-faulted slot behind a run (R115, R124). -/
theorem planRun_hard {hard : Slot → Bool} {i : Slot} (h : hard i = true) (s : State) :
    ((planRun hard s).mpl.slots.get i).role = .bypassedFault ∧ ((planRun hard s).mpl.slots.get i).quarantine = true
      ∧ ((planRun hard s).mpl.slots.get i).lifetime = lifetimeInc (s.mpl.slots.get i).lifetime := by
  have roles := planRoles_hard (s := s) h
  obtain ⟨quarantine, lifetime, _⟩ := planRun_entry hard s i
  rw [quarantine, lifetime, roles]
  exact ⟨planRun_role_of_inactive (by rw [roles]; rfl) (by simp), rfl, rfl⟩

/-- Any other slot keeps its mark and its count. -/
theorem planRoles_sound {hard : Slot → Bool} {i : Slot} (h : hard i = false) (s : State) :
    ((planRoles hard s).get i).quarantine = (s.mpl.slots.get i).quarantine
      ∧ ((planRoles hard s).get i).lifetime = (s.mpl.slots.get i).lifetime := by
  cases hr : (s.mpl.slots.get i).role with
  | bypassedBalance p => rw [planRoles_balance h hr]; split <;> exact ⟨rfl, rfl⟩
  | spare => rcases planRoles_spare h hr with e | ⟨_, q, e⟩ <;> rw [e] <;> exact ⟨rfl, rfl⟩
  | active | absent | bypassedFault =>
    rw [planRoles_other h (by rw [hr]; simp) (.inl (by rw [hr]; simp))]
    exact ⟨rfl, rfl⟩

/-- The working map of a slot, by the role it had (R116, R117). -/
theorem planRoles_role {hard : Slot → Bool} {i : Slot} (h : hard i = false) (s : State) :
    (∀ q, (s.mpl.slots.get i).role = .active q → ((planRoles hard s).get i).role = .active q)
      ∧ (∀ p, (s.mpl.slots.get i).role = .bypassedBalance p → eligible s i = true → ((planRoles hard s).get i).role = .active p)
      ∧ (∀ p, (s.mpl.slots.get i).role = .bypassedBalance p → eligible s i = false →
          ((planRoles hard s).get i).role = .bypassedBalance p)
      ∧ ((s.mpl.slots.get i).role = .spare → eligible s i = false → ((planRoles hard s).get i).role = .spare)
      ∧ ((s.mpl.slots.get i).role = .absent → ((planRoles hard s).get i).role = .absent)
      ∧ ((s.mpl.slots.get i).role = .bypassedFault → ((planRoles hard s).get i).role = .bypassedFault) := by
  have other : ∀ r, (s.mpl.slots.get i).role = r → (∀ p, r ≠ .bypassedBalance p) → (r ≠ .spare ∨ eligible s i = false) →
      ((planRoles hard s).get i).role = r := fun r hr hb hs => by
    rw [planRoles_other h (by rw [hr]; exact hb) (by rw [hr]; exact hs), hr]
  refine ⟨fun q hr => other _ hr (by simp) (by simp), fun p hr he => ?_, fun p hr he => ?_,
    fun hr he => other _ hr (by simp) (.inr he), fun hr => other _ hr (by simp) (by simp), fun hr => other _ hr (by simp) (by simp)⟩
  · rw [planRoles_balance h hr, if_pos he]
  · rw [planRoles_balance h hr, if_neg (by simp [he]), hr]

theorem planRun_sound {hard : Slot → Bool} {i : Slot} (h : hard i = false) (s : State) {e e' : SlotEntry}
    (he : e = s.mpl.slots.get i) (he' : e' = (planRun hard s).mpl.slots.get i) :
    e'.quarantine = e.quarantine ∧ e'.lifetime = e.lifetime
      ∧ (∀ q, e.role = .active q → e'.role = .active q ∨ e'.role = .bypassedBalance q)
      ∧ (∀ h, e.role = .bypassedBalance h → e'.role = .bypassedBalance h ∨ eligible s i = true ∧ e'.role = .active h)
      ∧ (e.role = .spare → e'.role ≠ .spare → eligible s i = true)
      ∧ (e.role = .absent → e'.role = .absent) ∧ (e.role = .bypassedFault → e'.role = .bypassedFault) := by
  subst he he'
  obtain ⟨quarantine, lifetime, _⟩ := planRun_entry hard s i
  obtain ⟨mark, count⟩ := planRoles_sound h s
  obtain ⟨active, returned, stays, spare, absent, fault⟩ := planRoles_role h s
  refine ⟨quarantine.trans mark, lifetime.trans count, fun q hr => planRun_role_of_active (active q hr), fun p hr => ?_,
    fun hr hn => ?_, fun hr => planRun_role_of_inactive (absent hr) (by simp), fun hr => planRun_role_of_inactive (fault hr) (by simp)⟩
  · cases el : eligible s i with
    | false => exact .inl (planRun_role_of_inactive (stays p hr el) (by simp))
    | true => exact (planRun_role_of_active (returned p hr el)).symm.imp_right fun ha => ⟨rfl, ha⟩
  · by_contra el
    exact hn (planRun_role_of_inactive (spare hr (by simpa using el)) (by simp))

/-- The spares of a phase over steps 1 to 3 (R117). -/
theorem planRoles_spares {hard : Slot → Bool} {s : State} {p : Phase} {spares : List Slot} {positions : List Nat}
    (hs : spares = (phaseSlots p).filter fun i => !hard i && (s.mpl.slots.get i).role == .spare && eligible s i)
    (ho : positions = (List.range s.mpl.k).filter fun q => (phaseSlots p).all fun i => hard i
      || ((s.mpl.slots.get i).role != .active q && (s.mpl.slots.get i).role != .bypassedBalance q))
    {n : Nat} {i : Slot} (hi : spares[n]? = some i) :
    (∀ q, positions[n]? = some q → ((planRoles hard s).get i).role = .active q)
      ∧ (positions[n]? = none → ((planRoles hard s).get i).role = .spare) := by
  have spares_eq : spares = sparesOf (eligible s) (planReturned hard s) p := by
    rw [hs, sparesOf]
    refine List.filter_congr fun j _ => ?_
    rw [Bool.eq_iff_iff]
    simp only [Bool.and_eq_true, beq_iff_eq, Bool.not_eq_true', planReturned_spare]
  have positions_eq : positions = openPositions s.mpl.k (planReturned hard s) p := by
    rw [ho, openPositions_eq]
    refine List.filter_congr fun q _ => ?_
    rw [Bool.eq_iff_iff, List.all_eq_true, List.all_eq_true]
    refine forall_congr' fun j => imp_congr_right fun _ => ?_
    have place := planReturned_place hard s j q
    have unplaced : ∀ r : Role, (r != .active q && r != .bypassedBalance q) = true ↔ ¬ r.place = some q := by
      intro r
      cases r <;> simp [Role.place]
    rw [unplaced, place, Bool.or_eq_true, unplaced]
    cases hard j <;> simp
  rw [spares_eq] at hi
  rw [positions_eq, planRoles_eq]
  exact planSpares_get hi

/-- The contactor job of a run and the slots that await it (R122, R126). -/
theorem planRun_contactors (hard : Slot → Bool) (s : State) {changed : List Slot}
    (h : changed = contactorChanges s.mpl.fitted s.mpl.slots (planRun hard s).mpl.slots) :
    (changed = [] → (planRun hard s).rct.watch = s.rct.watch ∧ (planRun hard s).wen.jobs2 = s.wen.jobs2)
      ∧ (changed ≠ [] →
          (planRun hard s).wen.jobs2 = s.wen.jobs2
              ++ [⟨.contactor, changed.map fun i => ⟨physicalCommandAddr i 4, .commandedBypass i⟩, false⟩]
            ∧ ∀ i, (planRun hard s).rct.watch.get i = if i ∈ changed then some ⟨((planRun hard s).mpl.slots.get i).bypass, none⟩
                else s.rct.watch.get i) := by
  have watch := mapTaken_watch hard s
  obtain ⟨slots, rct⟩ := planRun_eq_mapTaken hard s
  rw [slots] at h
  rw [planRun_jobsTwo, slots, rct]
  have taken : mapTaken hard s = commandContactors changed (s.onMpl fun m => { m with
      slots := (mapTaken hard s).mpl.slots
      phases := setRebalance (rebalance s.mpl.table s.plan.rounding s.mpl.k (planRoles hard s)) m.phases }) := by
    rw [h, mapTaken_slots]; rfl
  refine ⟨fun none => ?_, fun some => ⟨?_, fun i => ?_⟩⟩
  · rw [taken, none]; exact ⟨rfl, rfl⟩
  · rw [taken, commandContactors_jobsTwo some]; rfl
  · rw [watch, ← h]

/-- Settles O21: the entry of a slot is followed from step to step by the role it has, and what the planner hands the log
follows the map it takes. -/
theorem planningRunMovesRoles : Obligations.PlanningRunMovesRoles := by
  unfold Obligations.PlanningRunMovesRoles
  refine ⟨fun hard s u hu i e e' he he' => ?_, fun hard s m hm => ?_, fun hard s u changed hu hc => ?_⟩
  · subst hu
    obtain ⟨fitted, unfitted⟩ := planRun_bypass hard s i
    refine ⟨fun h => ?_, fun h => planRun_sound h s he he', ?_, ?_, planRun_generation hard s, planRun_image hard s, fun p => ?_,
      planRun_keeps hard s⟩
    · rw [he, he']; exact planRun_hard h s
    · rw [he']; exact fitted
    · rw [he, he']; exact unfitted
    · obtain ⟨saturation, torn, _⟩ := planRun_phaseRecord hard s p
      exact ⟨saturation, torn⟩
  · subst hm
    refine ⟨fun i e he h => ?_, fun p spares positions hs ho n i hi => planRoles_spares hs ho hi⟩
    obtain ⟨active, returned, stays, spare, _⟩ := planRoles_role h s
    rw [he]
    exact ⟨active, returned, stays, spare⟩
  · subst hu
    obtain ⟨none, some⟩ := planRun_contactors hard s hc
    obtain ⟨w, hw⟩ := mapTaken_rct hard s
    have rct := (planRun_eq_mapTaken hard s).2
    refine ⟨fun i => ?_, fun p => ?_, ?_, none, some, planRun_recorded hard s⟩
    · rw [(planRun_eq_mapTaken hard s).1, mapTaken_role]
    · obtain ⟨_, _, scale⟩ := planRun_phaseRecord hard s p
      exact scale
    · rw [rct, hw]

end Sys2Proof.Machine
end

