-- ==== Sys2Proof/Proofs/IdentificationReports.lean ====
section
/-! The identification report from TRIPPED (R99, R121). -/

namespace Sys2Proof.Machine

theorem commandContactors_grows (l : List Slot) (s : State) : JobsGrow s (commandContactors l s) := by
  unfold commandContactors
  split
  · exact .refl s
  · refine JobsGrow.trans ?_ (JobsGrow.submit .contactor _ _ (.inr rfl))
    exact .of_wen rfl

theorem planRun_grows (hard : Slot → Bool) (s : State) : JobsGrow s (planRun hard s) := by
  have taken : JobsGrow s (mapTaken hard s) := by
    unfold mapTaken
    refine JobsGrow.trans ?_ (commandContactors_grows _ _)
    exact .of_wen rfl
  rw [planRun_eq, logCommanded_eq, logRun_eq]
  exact ((taken.trans (bumpGeneration_grows _)).trans (records_handAll ..).jobsGrow).trans (records_handAll ..).jobsGrow

theorem activeCount_le (m : SlotMap) (p : Phase) : activeCount m p ≤ 8 :=
  List.countP_le_length.trans (by cases p <;> decide)

/-! ## A job of the sequence in the list of class 3

The statement says that a LOCKOUT behind a run leaves every job of class 3 listed. It cancels the recharge gate jobs, the
BLOCK jobs and the release in whatever list they stand (R108), and the statement ranges over states that no run reaches, in
which one of them stands in the list of class 3. -/

/-- TRIPPED, about to start a pass that is short of active slots, with a recharge gate job in the list of class 3. -/
def misplacedJob : State :=
  { State.held with
    rct := { Rct.reset with restart := .tripped, restartEnable := true }
    plan := { State.held.plan with minActive := 9, maxPasses := 1 }
    wen := { Wen.reset with jobs3 := [⟨.resetGate, [], false⟩] } }

theorem misplacedJob_requests : ¬ ∃ p, (misplacedJob.fin.lines.get p).request = true := by
  rintro ⟨p, h⟩
  cases p <;> exact absurd h (by decide)

/-- Refutes O20: the LOCKOUT of `misplacedJob` cancels the recharge gate job that the statement keeps. -/
theorem not_identificationReportDecides : ¬ Obligations.IdentificationReportDecides := by
  intro h
  obtain ⟨_, _, _, _, pass⟩ := h misplacedJob rfl _ rfl
  obtain ⟨_, _, _, _, _, t, v, _, _, _, ⟨_, hands⟩, _, hv, _, _, kept, short, _⟩ :=
    pass _ rfl misplacedJob_requests rfl (by decide) rfl
  have entered : JobsGrow { misplacedJob with rct := t.rct } (logRecord .sequence RestartState.isolating.code noSlot
      (word (misplacedJob.rct.passCount + 1)) { misplacedJob with rct := t.rct }) := (records_logRecord ..).jobsGrow
  have ran : JobsGrow t v := hv ▸ planRun_grows _ t
  have listed : (⟨.resetGate, [], false⟩ : Job) ∈ t.wen.jobs3 := by
    rw [hands]
    exact (entered.jobs .three).subset List.mem_cons_self
  have locked := (short ⟨.a, Nat.lt_succ_of_le (activeCount_le ..)⟩).cancelled
  exact absurd (locked.1 _ (List.mem_append_right _ (kept _ ((ran.jobs .three).subset listed)))) (by decide)

end Sys2Proof.Machine
end

