-- ==== Sys2Proof/Proofs/RebalanceStep.lean ====
section
/-! The rebalance step (R118 to R120). -/

namespace Sys2Proof.Machine

/-! ## The dark positions of a phase -/

theorem AgreeOn.deficit {p : Phase} {m m' : SlotMap} (h : AgreeOn p m m') (k : Nat) : deficit m' k p = deficit m k p := by
  have dark : darkPositions m' k p = darkPositions m k p := by
    rw [darkPositions_eq, darkPositions_eq]
    refine List.filter_congr fun q _ => ?_
    rw [Bool.eq_iff_iff, List.all_eq_true, List.all_eq_true]
    exact forall_congr' fun i => imp_congr_right fun hi => by rw [h i ((mem_phaseSlots p i).1 hi)]
  rw [Machine.deficit, dark]; rfl

theorem deficit_le (m : SlotMap) (k : Nat) (p : Phase) : deficit m k p ≤ k :=
  (List.length_filter_le ..).trans (by simp)

/-- An ACTIVE slot that leaves its position makes one more dark (R7, L1). -/
theorem deficit_bypassed {k : Nat} {m : SlotMap} (h : PositionsDistinct k m) {i : Slot} {q : Nat} (hr : (m.get i).role = .active q) :
    deficit (m.setRole i (.bypassedBalance q)) k (phaseOf i) = deficit m k (phaseOf i) + 1 := by
  have place : (m.get i).role.place = some q := by rw [hr]; rfl
  have lit : q ∉ darkPositions m k (phaseOf i) := fun hq => (mem_darkPositions.1 hq).2 i rfl hr
  have nodup : ∀ m : SlotMap, (darkPositions m k (phaseOf i)).Nodup := fun m => List.nodup_range.filter _
  have positions : (darkPositions (m.setRole i (.bypassedBalance q)) k (phaseOf i)).Perm (q :: darkPositions m k (phaseOf i)) := by
    refine (List.perm_ext_iff_of_nodup (nodup _) (List.nodup_cons.2 ⟨lit, nodup m⟩)).2 fun x => ?_
    rw [List.mem_cons, mem_darkPositions, mem_darkPositions]
    constructor
    · rintro ⟨hx, dark⟩
      by_cases e : x = q
      · exact .inl e
      refine .inr ⟨hx, fun j hj active => dark j hj ?_⟩
      rw [setRole_get, if_neg]
      · exact active
      · rintro rfl
        exact e (Role.active.inj (active.symm.trans hr))
    · rintro (rfl | ⟨hx, dark⟩)
      · refine ⟨h.1 i x place, fun j hj active => ?_⟩
        rw [setRole_get] at active
        split at active
        · exact absurd active (by simp)
        · next ne => exact ne (h.2 j i x hj (by rw [active]; rfl) place)
      · refine ⟨hx, fun j hj active => ?_⟩
        rw [setRole_get] at active
        split at active
        · exact absurd active (by simp)
        · exact dark j hj active
  exact positions.length_eq

/-! ## The bypass of the highest positions (R119) -/

theorem highestActive_none {m : SlotMap} {p : Phase} {n : Nat} (h : highestActive m p n = none) :
    ∀ q, q < n → holderOf m p q = none := by
  induction n with
  | zero => exact fun q hq => absurd hq (Nat.not_lt_zero q)
  | succ n ih =>
    unfold highestActive at h
    split at h
    · exact absurd h (by simp)
    · next dark =>
      intro q hq
      rcases Nat.lt_succ_iff_lt_or_eq.1 hq with hq | rfl
      · exact ih h q hq
      · exact dark

/-- Without an ACTIVE slot every position is dark. -/
theorem deficit_of_highestActive_none {m : SlotMap} {p : Phase} {k : Nat} (h : highestActive m p k = none) : deficit m k p = k := by
  have all : darkPositions m k p = List.range k := List.filter_eq_self.2 fun q hq => by
    rw [highestActive_none h q (List.mem_range.1 hq)]; rfl
  rw [deficit, all, List.length_range]

theorem bypassHighest_deficit {k : Nat} {p : Phase} {n : Nat} {m : SlotMap} (h : PositionsDistinct k m) (hn : deficit m k p + n ≤ k) :
    deficit (bypassHighest k p n m) k p = deficit m k p + n := by
  induction n generalizing m with
  | zero => rfl
  | succ n ih =>
    cases found : highestActive m p k with
    | none =>
      rw [deficit_of_highestActive_none found] at hn
      omega
    | some held =>
      obtain ⟨i, q⟩ := held
      obtain ⟨phase, role⟩ := highestActive_some found
      subst phase
      have step : bypassHighest k (phaseOf i) (n + 1) m = bypassHighest k (phaseOf i) n (m.setRole i (.bypassedBalance q)) := by
        simp only [bypassHighest, found]
      have one : Balanced m (m.setRole i (.bypassedBalance q)) := by
        have first := bypassHighest_balanced k (phaseOf i) 1 m
        simpa only [bypassHighest, found] using first
      have more := deficit_bypassed h role
      rw [step, ih (h.balanced one) (by omega), more]
      omega

theorem bypassHighest_elsewhere {k : Nat} {p q : Phase} (hq : q ≠ p) (n : Nat) (m : SlotMap) : AgreeOn q m (bypassHighest k p n m) := by
  induction n generalizing m with
  | zero => exact fun i _ => rfl
  | succ n ih =>
    unfold bypassHighest
    split
    · next j r found =>
      intro i hi
      rw [ih _ i hi, setRole_get, if_neg]
      rintro rfl
      exact hq (hi.symm.trans (highestActive_some found).1)
    · exact fun i _ => rfl

/-! ## The equalized map (R119) -/

/-- One phase is brought to a deficit. -/
def bringTo (k d : Nat) (m : SlotMap) (p : Phase) : SlotMap := bypassHighest k p (d - deficit m k p) m

theorem bringTo_deficit {k d : Nat} {m : SlotMap} {p : Phase} (h : PositionsDistinct k m) (h1 : deficit m k p ≤ d) (h2 : d ≤ k) :
    deficit (bringTo k d m p) k p = d := by
  rw [bringTo, bypassHighest_deficit h (by omega)]
  omega

theorem bringTo_other {k d : Nat} {m : SlotMap} {p q : Phase} (h : q ≠ p) : deficit (bringTo k d m p) k q = deficit m k q :=
  (bypassHighest_elsewhere h _ m).deficit k

theorem bringTo_distinct {k d : Nat} {m : SlotMap} {p : Phase} (h : PositionsDistinct k m) : PositionsDistinct k (bringTo k d m p) :=
  h.balanced (bypassHighest_balanced _ _ _ _)

theorem equalize_eq (k : Nat) (m : SlotMap) : equalize k m
    = bringTo k (maxDeficit (deficits m k)) (bringTo k (maxDeficit (deficits m k)) (bringTo k (maxDeficit (deficits m k)) m .a) .b) .c := rfl

theorem deficit_le_max (m : SlotMap) (k : Nat) (p : Phase) : deficit m k p ≤ maxDeficit (deficits m k) := by
  have all : maxDeficit (deficits m k) = max (deficit m k .a) (max (deficit m k .b) (deficit m k .c)) := rfl
  cases p <;> omega

theorem maxDeficit_le (m : SlotMap) (k : Nat) : maxDeficit (deficits m k) ≤ k := by
  have all : maxDeficit (deficits m k) = max (deficit m k .a) (max (deficit m k .b) (deficit m k .c)) := rfl
  have a := deficit_le m k .a
  have b := deficit_le m k .b
  have c := deficit_le m k .c
  omega

theorem equalize_deficit {k : Nat} {m : SlotMap} (h : PositionsDistinct k m) (p : Phase) :
    deficit (equalize k m) k p = maxDeficit (deficits m k) := by
  have below := deficit_le_max m k
  have most := maxDeficit_le m k
  rw [equalize_eq]
  generalize maxDeficit (deficits m k) = d at below most
  have first := bringTo_distinct (d := d) (p := .a) h
  have second := bringTo_distinct (d := d) (p := .b) first
  cases p with
  | a => rw [bringTo_other (by decide), bringTo_other (by decide), bringTo_deficit h (below .a) most]
  | b =>
    rw [bringTo_other (by decide), bringTo_deficit first _ most]
    rw [bringTo_other (by decide)]
    exact below .b
  | c =>
    rw [bringTo_deficit second _ most]
    rw [bringTo_other (by decide), bringTo_other (by decide)]
    exact below .c

/-! ## The step (R118, R120) -/

theorem rebalance_of_no_deficit {m : SlotMap} {k : Nat} (h : deficits m k = PerPhase.all 0) (t : List RebalanceEntry) (mode : Rounding) :
    rebalance t mode k m = ⟨m, PerPhase.all 0, PerPhase.all 4096, 0⟩ := by
  simp only [rebalance, if_pos h]

theorem rebalance_listed {m : SlotMap} {k : Nat} {t : List RebalanceEntry} {e : RebalanceEntry} (h : deficits m k ≠ PerPhase.all 0)
    (he : lookupEntry t (deficits m k) = some e) (mode : Rounding) : rebalance t mode k m = ⟨m, e.angle, e.scale, 1⟩ := by
  simp only [rebalance, if_neg h, he]

theorem rebalance_equalized {m : SlotMap} {k : Nat} {t : List RebalanceEntry} {e : RebalanceEntry} (h : deficits m k ≠ PerPhase.all 0)
    (hn : lookupEntry t (deficits m k) = none) (he : lookupEntry t (PerPhase.all (maxDeficit (deficits m k))) = some e) (mode : Rounding) :
    rebalance t mode k m = ⟨equalize k m, e.angle, e.scale, 2⟩ := by
  simp only [rebalance, if_neg h, hn, he]

theorem rebalance_computed {m : SlotMap} {k : Nat} {t : List RebalanceEntry} (h : deficits m k ≠ PerPhase.all 0)
    (hn : lookupEntry t (deficits m k) = none) (he : lookupEntry t (PerPhase.all (maxDeficit (deficits m k))) = none) (mode : Rounding) :
    rebalance t mode k m
      = ⟨equalize k m, PerPhase.all 0, PerPhase.all (computedScale mode k (maxDeficit (deficits m k))), 3⟩ := by
  simp only [rebalance, if_neg h, hn, he]

theorem computedScale_eq (mode : Rounding) (k d : Nat) :
    computedScale mode k d = if d < k then word (roundDiv mode (4096 * k) (k - d)) else 4096 := by
  simp only [computedScale, ← Nat.not_lt, ite_not]

/-- Settles O22: the four ways of the step, the rows of Table 7-2, and the deficit that each bypass makes larger by one. -/
theorem rebalanceEqualizesTheDeficits : Obligations.RebalanceEqualizesTheDeficits := by
  unfold Obligations.RebalanceEqualizesTheDeficits
  refine ⟨⟨fun t mode k m d dmax hd hmax => ?_, by decide, by decide, by decide⟩,
    fun k m h => ⟨equalize_deficit h, equalize_balanced k m⟩⟩
  subst hd hmax
  refine ⟨fun h => rebalance_of_no_deficit h t mode, fun e h he => rebalance_listed h he mode,
    fun e h hn he => rebalance_equalized h hn he mode, fun h hn he => ?_⟩
  rw [rebalance_computed h hn he, computedScale_eq]

end Sys2Proof.Machine
end

