-- ==== Sys2Proof/Proofs/EngineTenures.lean ====
section
/-! The tenures of the Write Engine (R32, R33, R150 to R152). -/

namespace Sys2Proof.Machine

theorem Memory.read_writeAll_same {m : Memory} (h : m.wf = true) {ws : List (Addr × Word)} (distinct : (ws.map Prod.fst).Nodup)
    {a : Addr × Word} (ha : a ∈ ws) : (m.writeAll ws).read a.1 = a.2 := by
  induction ws generalizing m with
  | nil => exact absurd ha List.not_mem_nil
  | cons w ws ih =>
    rw [List.map_cons, List.nodup_cons] at distinct
    have rest : m.writeAll (w :: ws) = (m.write w.1 w.2).writeAll ws := rfl
    rw [rest]
    rcases List.mem_cons.1 ha with rfl | ha
    · rw [Memory.read_writeAll_outside _ distinct.1, Memory.read_write_same _ _ h]
    · exact ih (Memory.write_wf _ _ h) distinct.2 ha

/-! ## A completed job -/

theorem Wen.complete_jobs (w : Wen) (k : JobKind) : (w.complete k).jobs k.cls = (w.jobs k.cls).eraseP (·.kind == k) := by
  unfold Wen.complete Wen.note
  split <;> cases k.cls <;> rfl

theorem Wen.complete_done (w : Wen) (k : JobKind) :
    (w.complete k).done = if k.reported then w.done ++ [k] else w.done := by
  unfold Wen.complete Wen.note
  split <;> cases k.cls <;> rfl

theorem Wen.setBuffer_done (w : Wen) (b : BufferId) (v : Buffer) : (w.setBuffer b v).done = w.done := by
  cases b <;> rfl

/-! ## The advance of a release (R151, R152) -/

/-- The first release of a list is given its gate writes. -/
theorem Wen.setTodo_first {ws : List JobWrite} {before after : List Job} {j : Job} (hb : ∀ i ∈ before, i.kind ≠ .release)
    (hj : j.kind = .release) : Wen.setTodo ws (before ++ j :: after) = before ++ { j with todo := ws } :: after := by
  induction before with
  | nil => simp [Wen.setTodo, hj]
  | cons i before ih =>
    have other : i.kind ≠ .release := hb i List.mem_cons_self
    rw [List.cons_append, Wen.setTodo, if_neg (by simpa using other), ih fun i hi => hb i (List.mem_cons_of_mem _ hi)]
    rfl

theorem startGates_stage (s : State) : (startGates s).rfs.stage = some .gates := rfl

theorem gateWrites_nil {s : State} : gateWrites s = [] ↔ activeSlots s.mpl.slots = [] := by simp [gateWrites]

theorem startGates_done {s : State} (h : activeSlots s.mpl.slots = []) : JobKind.release ∈ (startGates s).wen.done := by
  have gates := gateWrites_nil.2 h
  simp only [startGates, State.onWen_wen, gates, if_true, Wen.complete_done, JobKind.reported]
  exact List.mem_append_right _ List.mem_cons_self

theorem startGates_jobsTwo {s : State} (h : activeSlots s.mpl.slots ≠ []) {before after : List Job} {j : Job}
    (hs : s.wen.jobs2 = before ++ j :: after) (hb : ∀ i ∈ before, i.kind ≠ .release) (hj : j.kind = .release) :
    (startGates s).wen.jobs2 = before ++ ⟨.release, gateWrites s, j.begun⟩ :: after := by
  have gates : gateWrites s ≠ [] := fun e => h (gateWrites_nil.1 e)
  simp only [startGates, State.onWen_wen, State.onRfs_wen, if_neg gates, hs, Wen.setTodo_first hb hj, hj]

/-- What keeps stage AUXILIARY from its end (R151). -/
theorem releaseAdvance_ends {s : State} (hs : ∃ v, s.rfs.stage = some (.auxiliary v)) (hr : releaseStaged s = false)
    (ha : s.rfs.aux = []) : releaseAdvance s = startGates s := by
  obtain ⟨v, hv⟩ := hs
  simp [releaseAdvance, hv, hr, ha]

theorem releaseAdvance_drains {s : State} (hs : ∃ v, s.rfs.stage = some (.auxiliary v)) (hr : releaseStaged s = false)
    (ha : s.rfs.aux ≠ []) : releaseAdvance s = s.onRfs fun f => { f with stage := some (.auxiliary false) } := by
  obtain ⟨v, hv⟩ := hs
  simp [releaseAdvance, hv, hr, ha]

theorem releaseAdvance_idle {s : State} (h : ¬ ((∃ v, s.rfs.stage = some (.auxiliary v)) ∧ releaseStaged s = false)) :
    releaseAdvance s = s := by
  unfold releaseAdvance
  split
  · next v hv =>
    split
    · rfl
    · next hr => exact absurd ⟨⟨v, hv⟩, by simpa using hr⟩ h
  all_goals rfl

/-! ## The end of a burst -/

/-- The state behind the writes of a burst, ahead of the release's advance. -/
def burstPerformed (b : BufferId) (u : Burst) (s : State) : State :=
  moveCursor u ((s.onMem (·.writeAll u.writes)).onWen fun w =>
    if u.last then (w.setBuffer b .empty).complete u.kind else w.setBuffer b .empty)

theorem endBuffer_eq (b : BufferId) (u : Burst) (s : State) :
    endBuffer b u s = releasePort (releaseAdvance (burstPerformed b u s)) := rfl

theorem burstPerformed_fields (b : BufferId) (u : Burst) (s : State) :
    (burstPerformed b u s).mem = s.mem.writeAll u.writes ∧ (burstPerformed b u s).rfs.stage = s.rfs.stage
      ∧ (burstPerformed b u s).rfs.aux = s.rfs.aux ∧ (burstPerformed b u s).mpl = s.mpl
      ∧ (burstPerformed b u s).wen
        = if u.last then (s.wen.setBuffer b .empty).complete u.kind else s.wen.setBuffer b .empty := by
  simp [burstPerformed]

theorem burstPerformed_cursor (b : BufferId) (u : Burst) (s : State) :
    (∀ c, u.cursor = some c → (burstPerformed b u s).rfs.cursor = some c)
      ∧ (u.cursor = none → (burstPerformed b u s).rfs.cursor = s.rfs.cursor) :=
  ⟨fun c h => by simp [burstPerformed, moveCursor, h], fun h => by simp [burstPerformed, moveCursor, h]⟩

theorem burstPerformed_buffer (b c : BufferId) (u : Burst) (s : State) :
    (burstPerformed b u s).wen.buffer c = if c = b then .empty else s.wen.buffer c := by
  obtain ⟨_, _, _, _, wen⟩ := burstPerformed_fields b u s
  rw [wen]
  split <;> simp

/-- Of the two buffers the other alone can hold a release write (R151). -/
theorem burstPerformed_staged (b : BufferId) (u : Burst) (s : State) :
    releaseStaged (burstPerformed b u s) = (s.wen.buffer b.other).holdsRelease := by
  have x := burstPerformed_buffer b .x u s
  have y := burstPerformed_buffer b .y u s
  simp only [Wen.buffer] at x y
  rw [releaseStaged, x, y]
  cases b <;> simp [Buffer.holdsRelease, BufferId.other, Wen.buffer]

theorem burstPerformed_jobs (b : BufferId) {u : Burst} (h : u.last = false) (s : State) :
    (∀ c, (burstPerformed b u s).wen.jobs c = s.wen.jobs c) ∧ (burstPerformed b u s).wen.done = s.wen.done := by
  obtain ⟨_, _, _, _, wen⟩ := burstPerformed_fields b u s
  rw [wen, if_neg (by simp [h])]
  exact ⟨Wen.setBuffer_jobs _ _ _, Wen.setBuffer_done ..⟩

theorem burstPerformed_completes (b : BufferId) {u : Burst} (h : u.last = true) (s : State) :
    (burstPerformed b u s).wen.jobs u.kind.cls = (s.wen.jobs u.kind.cls).eraseP (·.kind == u.kind)
      ∧ (burstPerformed b u s).wen.done = if u.kind.reported then s.wen.done ++ [u.kind] else s.wen.done := by
  obtain ⟨_, _, _, _, wen⟩ := burstPerformed_fields b u s
  rw [wen, if_pos h, Wen.complete_jobs, Wen.complete_done, Wen.setBuffer_jobs, Wen.setBuffer_done]
  exact ⟨rfl, rfl⟩

theorem endBuffer_keeps (b : BufferId) (u : Burst) (s : State) : KeepsAllBut [.mem, .holder, .cursor, .stage, .wen] s (endBuffer b u s) := by
  intro f hf; cases f <;> simp_all [Field.same]

theorem releaseAdvance_keeps (s : State) : (releaseAdvance s).mem = s.mem ∧ (releaseAdvance s).rfs.cursor = s.rfs.cursor := by
  unfold releaseAdvance startGates
  (repeat' split) <;> exact ⟨rfl, rfl⟩

theorem endBuffer_mem (b : BufferId) (u : Burst) (s : State) : (endBuffer b u s).mem = s.mem.writeAll u.writes :=
  (releaseAdvance_keeps _).1.trans (burstPerformed_fields b u s).1

theorem endBuffer_cursor (b : BufferId) (u : Burst) (s : State) :
    (endBuffer b u s).rfs.cursor = (burstPerformed b u s).rfs.cursor := (releaseAdvance_keeps _).2

theorem BufferId.other_ne (b : BufferId) : b.other ≠ b := by cases b <;> decide

theorem wenTenureEnd_exec {s : State} {b : BufferId} {w : Burst} (hh : s.mpa.holder = some (.wen b)) (hb : s.wen.buffer b = .writing w) :
    exec .wenTenureEnd s = .next (settle (endBuffer b w s)) := by
  simp only [exec, execWenTenureEnd, hh, hb]

/-- The end of stage AUXILIARY with the last burst behind it (R151, R152). -/
theorem endBuffer_ends {b : BufferId} {w : Burst} {s : State} (hs : ∃ v, s.rfs.stage = some (.auxiliary v))
    (hr : (s.wen.buffer b.other).holdsRelease = false) (ha : s.rfs.aux = []) :
    (endBuffer b w s).rfs.stage = some .gates
      ∧ (activeSlots s.mpl.slots = [] → JobKind.release ∈ (endBuffer b w s).wen.done)
      ∧ ∀ before j after, activeSlots s.mpl.slots ≠ [] → w.last = false → s.wen.jobs2 = before ++ j :: after →
          (∀ i ∈ before, i.kind ≠ .release) → j.kind = .release →
          (endBuffer b w s).wen.jobs2 = before ++ ⟨.release, gateWrites s, j.begun⟩ :: after := by
  obtain ⟨_, stage, aux, mpl, _⟩ := burstPerformed_fields b w s
  have advance : releaseAdvance (burstPerformed b w s) = startGates (burstPerformed b w s) :=
    releaseAdvance_ends (by rwa [stage]) (by rwa [burstPerformed_staged]) (by rwa [aux])
  rw [endBuffer_eq, advance]
  refine ⟨startGates_stage _, fun h => startGates_done (by rwa [mpl]), fun before j after hn hl hj hb hk => ?_⟩
  have kept : (burstPerformed b w s).wen.jobs2 = s.wen.jobs2 := (burstPerformed_jobs b hl s).1 .two
  have gates : gateWrites (burstPerformed b w s) = gateWrites s := by rw [gateWrites, mpl]; rfl
  rw [← gates]
  exact startGates_jobsTwo (by rwa [mpl]) (kept.trans hj) hb hk

/-- Where the stage does not end, the jobs and the completions are those of the burst (R32, R151). -/
theorem endBuffer_stays {b : BufferId} {w : Burst} {s : State} {performed : Prop}
    (hp : performed ↔ (∃ v, s.rfs.stage = some (.auxiliary v)) ∧ (s.wen.buffer b.other).holdsRelease = false)
    (h : ¬ (performed ∧ s.rfs.aux = [])) :
    (performed → (endBuffer b w s).rfs.stage = some (.auxiliary false))
      ∧ (¬performed → (endBuffer b w s).rfs.stage = s.rfs.stage) ∧ (endBuffer b w s).wen = (burstPerformed b w s).wen := by
  obtain ⟨_, stage, aux, _, _⟩ := burstPerformed_fields b w s
  rw [endBuffer_eq]
  by_cases yes : performed
  · obtain ⟨hs, hr⟩ := hp.1 yes
    rw [releaseAdvance_drains (by rwa [stage]) (by rwa [burstPerformed_staged]) (by rw [aux]; exact fun e => h ⟨yes, e⟩)]
    exact ⟨fun _ => rfl, fun no => absurd yes no, rfl⟩
  · rw [releaseAdvance_idle (by rw [stage, burstPerformed_staged]; exact fun e => yes (hp.2 e))]
    exact ⟨fun e => absurd e yes, fun _ => stage, rfl⟩

/-- Settles O49: the burst is performed, and then the release advances or stays. -/
theorem wenTenuresPerformTheirBuffer : Obligations.WenTenuresPerformTheirBuffer := by
  intro s b w hwf hh hb performed advances hp ha
  obtain ⟨cursorSet, cursorKept⟩ := burstPerformed_cursor b w s
  refine ⟨_, wenTenureEnd_exec hh hb, endBuffer_mem b w s, fun distinct a h => ?_, fun a h => ?_, rfl, ?_, ?_, fun c hc => ?_,
    fun hc => ?_, fun hadv => ?_, fun hadv => ?_, endBuffer_keeps b w s⟩
  · rw [endBuffer_mem, Memory.read_writeAll_same hwf distinct h]
  · rw [endBuffer_mem, Memory.read_writeAll_outside _ h]
  · rw [endBuffer_buffer, if_pos rfl]
  · rw [endBuffer_buffer, if_neg (BufferId.other_ne b)]
  · rw [endBuffer_cursor, cursorSet c hc]
  · rw [endBuffer_cursor, cursorKept hc]
  · rw [ha, hp] at hadv
    obtain ⟨⟨hs, hr⟩, aux⟩ := hadv
    exact endBuffer_ends hs hr aux
  · rw [ha] at hadv
    obtain ⟨drains, stays, wen⟩ := endBuffer_stays (by rw [hp]) hadv
    rw [wen]
    refine ⟨drains, stays, fun hl => ?_, fun hl => burstPerformed_completes b hl s⟩
    obtain ⟨jobs, done⟩ := burstPerformed_jobs b hl s
    exact ⟨done, jobs _⟩

end Sys2Proof.Machine
end

