-- ==== Sys2Proof/Proofs/AcceptedPlans.lean ====
section
/-! What the six checks say of an accepted plan, and the roles of the initial map (R14, R15, R167). -/

namespace Sys2Proof.Machine

/-! ## The fields (Table 2-5) -/

/-- A field of the range table lies between its bounds. -/
theorem field_between {p : List Word} {m : SlotMap} (h : planRefusal p m = none) {o lo hi : Nat} (hr : rangeOf o = some (lo, hi))
    (ho : o < 68) (h3 : o ≠ 3) (h36 : o ≠ 36) (hl : ¬(43 ≤ o ∧ o ≤ 66)) : lo ≤ planNat p o ∧ planNat p o ≤ hi := by
  have ok := fieldOk_of_accepted h (o := o) (by omega)
  rw [fieldOk, if_neg h3, if_neg h36, if_neg hl, if_neg (by omega), hr] at ok
  simpa [between] using ok

theorem field_minActive {p : List Word} {m : SlotMap} (h : planRefusal p m = none) :
    1 ≤ planNat p 3 ∧ planNat p 3 ≤ planNat p 2 := by
  have ok := fieldOk_of_accepted h (o := 3) (by omega)
  simpa [fieldOk, between] using ok

theorem field_captureSlot {p : List Word} {m : SlotMap} (h : planRefusal p m = none) :
    planNat p 36 < 24 ∨ planNat p 36 = 65535 := by
  have ok := fieldOk_of_accepted h (o := 36) (by omega)
  simpa [fieldOk] using ok

theorem field_release {p : List Word} {m : SlotMap} (h : planRefusal p m = none) (hc : planNat p 42 ≤ 24) {j : Nat}
    (hj : j < planNat p 42) : planNat p (43 + j) < 24 := by
  have ok := fieldOk_of_accepted h (o := 43 + j) (by omega)
  rw [fieldOk, if_neg (by omega), if_neg (by omega), if_pos (by omega)] at ok
  simpa [hj] using ok

/-! ## The rebalance table -/

theorem field_entry {p : List Word} {m : SlotMap} (h : planRefusal p m = none) {j place : Nat} (hj : j < planNat p 67) (hp : place < 9) :
    entryFieldOk p j place = true := by
  have ok := fieldOk_of_accepted h (o := entryOffset j + place) (by unfold entryOffset; omega)
  rw [fieldOk, if_neg (by unfold entryOffset; omega), if_neg (by unfold entryOffset; omega), if_neg (by unfold entryOffset; omega),
    if_pos (by unfold entryOffset; omega)] at ok
  have index : (entryOffset j + place - 68) / 9 = j := by unfold entryOffset; omega
  have rest : (entryOffset j + place - 68) % 9 = place := by unfold entryOffset; omega
  rwa [index, rest] at ok

theorem entry_inRange {p : List Word} {m : SlotMap} (h : planRefusal p m = none) {e : RebalanceEntry} (he : e ∈ planTable p) :
    e.key ≠ PerPhase.all 0
      ∧ ∀ q, e.key.get q ≤ 7 ∧ 4096 ≤ (e.scale.get q).toNat ∧ (e.scale.get q).toNat ≤ 16384 := by
  obtain ⟨j, hj, rfl⟩ := List.mem_map.1 he
  have hj : j < planNat p 67 := List.mem_range.1 hj
  have first := field_entry h hj (place := 0) (by omega)
  have keyB := field_entry h hj (place := 1) (by omega)
  have keyC := field_entry h hj (place := 2) (by omega)
  have scaleA := field_entry h hj (place := 6) (by omega)
  have scaleB := field_entry h hj (place := 7) (by omega)
  have scaleC := field_entry h hj (place := 8) (by omega)
  simp [entryFieldOk, between] at first keyB keyC scaleA scaleB scaleC
  refine ⟨first.2, fun q => ?_⟩
  cases q with
  | a => exact ⟨first.1, scaleA⟩
  | b => exact ⟨keyB, scaleB⟩
  | c => exact ⟨keyC, scaleC⟩

theorem nodup_of_keysDistinct {t : List RebalanceEntry} (h : keysDistinct t = true) : (t.map RebalanceEntry.key).Nodup := by
  induction t with
  | nil => exact List.nodup_nil
  | cons e t ih =>
    rw [keysDistinct, Bool.and_eq_true, List.all_eq_true] at h
    rw [List.map_cons, List.nodup_cons]
    refine ⟨fun he => ?_, ih h.2⟩
    obtain ⟨f, hf, key⟩ := List.mem_map.1 he
    simpa [key] using h.1 f hf

/-! ## The thresholds -/

theorem thresholds_ordered {p : List Word} (h : thresholdsOrdered p = true) :
    planNat p 30 < planNat p 31 ∧ planNat p 31 < planNat p 32 ∧ planNat p 32 < planNat p 33
      ∧ (planNat p 37 = 1 → (planWord p 38).toInt ≤ (planWord p 39).toInt)
      ∧ (planNat p 37 ≠ 1 → planNat p 38 ≤ planNat p 39) := by
  have word : planWord p 37 = 1 ↔ planNat p 37 = 1 := by
    rw [planNat, ← BitVec.toNat_inj]; rfl
  simp only [thresholdsOrdered, Bool.and_eq_true, decide_eq_true_eq] at h
  obtain ⟨⟨⟨first, second⟩, third⟩, capture⟩ := h
  refine ⟨first, second, third, fun one => ?_, fun other => ?_⟩
  · rw [if_pos (word.2 one)] at capture
    simpa [BitVec.sle] using capture
  · rw [if_neg fun e => other (word.1 e)] at capture
    simpa [BitVec.ule, planNat] using capture

/-! ## The initial map (R14) -/

theorem initialMap_role (fitted released : Slot → Bool) (k : Nat) (m : SlotMap) (i : Slot) :
    ((initialMap fitted released k m).get i).role = initialRole fitted (fun j => (m.get j).quarantine && !released j) k i := by
  rw [initialMap_get]

theorem initialRole_unfitted {fitted marked : Slot → Bool} {i : Slot} (h : fitted i = false) (k : Nat) :
    initialRole fitted marked k i = .absent := by simp [initialRole, h]

theorem initialRole_marked {fitted marked : Slot → Bool} {i : Slot} (h : fitted i = true) (hm : marked i = true) (k : Nat) :
    initialRole fitted marked k i = .bypassedFault := by simp [initialRole, h, hm]

theorem initialRole_able {fitted marked : Slot → Bool} {i : Slot} (h : (fitted i && !marked i) = true) (k : Nat) :
    initialRole fitted marked k i
      = if rankBelow (fun j => fitted j && !marked j) i < k then .active (rankBelow (fun j => fitted j && !marked j) i) else .spare := by
  rw [Bool.and_eq_true, Bool.not_eq_true'] at h
  simp [initialRole, h.1, h.2]

/-- Settles O13: the checks field by field, and the initial map slot by slot. -/
theorem acceptedPlanLiesInItsRanges : Obligations.AcceptedPlanLiesInItsRanges := by
  refine ⟨fun p m h => ?_, fun fitted released k m i => ?_⟩
  · obtain ⟨length, sum, _, thresholds, keys, short⟩ := planRefusal_none h
    obtain ⟨under, ready, above, signed, unsigned⟩ := thresholds_ordered thresholds
    obtain ⟨least, most⟩ := field_minActive h
    have range : ∀ o lo hi, rangeOf o = some (lo, hi) → (o < 68 ∧ o ≠ 3 ∧ o ≠ 36 ∧ ¬(43 ≤ o ∧ o ≤ 66)) →
        lo ≤ planNat p o ∧ planNat p o ≤ hi := fun o lo hi hr ⟨ho, h3, h36, hl⟩ => field_between h hr ho h3 h36 hl
    have two := range 2 2 8 (by decide) (by decide)
    have releases := range 42 0 24 (by decide) (by decide)
    have capacity := capacity_of_accepted h
    refine ⟨length, sum, two.1, two.2, least, most, (range 7 0 1 (by decide) (by decide)).2, (range 12 0 2 (by decide) (by decide)).2,
      (range 13 0 1 (by decide) (by decide)).2, ?_⟩
    have f14 := range 14 1 255 (by decide) (by decide)
    have f15 := range 15 100 3000 (by decide) (by decide)
    have f16 := range 16 20 1000 (by decide) (by decide)
    have f17 := range 17 50 5000 (by decide) (by decide)
    have f18 := range 18 1 255 (by decide) (by decide)
    have f19 := range 19 2 32 (by decide) (by decide)
    have f20 := range 20 16 8192 (by decide) (by decide)
    have f21 := range 21 10 5000 (by decide) (by decide)
    have f22 := range 22 200 10000 (by decide) (by decide)
    have f23 := range 23 1 64 (by decide) (by decide)
    have f24 := range 24 4 255 (by decide) (by decide)
    have f25 := range 25 0 1000 (by decide) (by decide)
    have f26 := range 26 1 65535 (by decide) (by decide)
    have f27 := range 27 1 7 (by decide) (by decide)
    have f28 := range 28 1 600 (by decide) (by decide)
    have f29 := range 29 1 4 (by decide) (by decide)
    have f37 := range 37 0 1 (by decide) (by decide)
    have f40 := range 40 0 1 (by decide) (by decide)
    have f41 := range 41 0 63 (by decide) (by decide)
    have f67 := range 67 0 32 (by decide) (by decide)
    exact ⟨f14.1, f14.2, f15.1, f15.2, f16.1, f16.2, f17.1, f17.2, f18.1, f18.2, f19.1, f19.2, f20.1, f20.2, f21.1, f21.2,
      f22.1, f22.2, f23.1, f23.2, f24.1, f24.2, f25.2, f26.1, f27.1, f27.2, f28.1, f28.2, f29.1, f29.2, capacity.1, capacity.2,
      field_captureSlot h, f37.2, f40.2, signed, unsigned, f41.2, releases.2, f67.2, fun j hj => field_release h releases.2 hj,
      fun e he => entry_inRange h he, under, ready, above, nodup_of_keysDistinct keys, feasible_of_shortPhase short⟩
  · intro marked able below e
    have role : e.role = initialRole fitted marked k i := initialMap_role fitted released k m i
    have rank : below = rankBelow able i := rfl
    refine ⟨by simp only [e, initialMap_get], by simp only [e, marked, initialMap_get], fun h => ?_, fun h hm => ?_, fun h hb => ?_, fun h hb => ?_⟩
    · rw [role, initialRole_unfitted h]
    · rw [role, initialRole_marked h hm]
    · rw [role, initialRole_able h, if_pos (by exact hb), rank]
    · rw [role, initialRole_able h, if_neg (by exact Nat.not_lt.2 hb)]

end Sys2Proof.Machine
end

