-- ==== Sys2Proof/Proofs/FrameEdges.lean ====
section
/-! The FRAME edge behind the scanner: the commits of the held latches, the gate and the windows (R53, R82, R131, R138,
R161). -/

namespace Sys2Proof.Machine

theorem countFrame_eq (s : State) : countFrame s
    = { s with itm := { s.itm with frames := if s.itm.running then s.itm.frames + 1 else s.itm.frames } } := by
  simp only [countFrame, State.onItm]
  split <;> rfl

/-! ## The commits of an edge (R53) -/

/-- The write of a latch that is committed alone. -/
def latchWrites (p : Phase) (s : State) : List (List (Addr × Word)) :=
  ((s.bpu.latches.get p).map fun l => [(physicalCommandAddr l.slot 1, l.amplitude)]).toList

theorem commitPhase_empty {p : Phase} {s : State} (h : s.bpu.latches.get p = none) : commitPhase p s = s := by
  simp [commitPhase, latchOf, h]

theorem commitPhase_held {p : Phase} {s : State} {l : Latch} (h : s.bpu.latches.get p = some l) :
    commitPhase p s = commitAlone p l s := by
  simp [commitPhase, latchOf, h]

theorem commitPhase_latches (p q : Phase) (s : State) :
    (commitPhase p s).bpu.latches.get q = if q = p then none else s.bpu.latches.get q := by
  cases h : s.bpu.latches.get p with
  | none =>
    rw [commitPhase_empty h]
    split
    · next hq => rw [hq, h]
    · rfl
  | some l => rw [commitPhase_held h, (commitAlone_bpu p l s).1, PerPhase.get_set]

theorem commitPhase_needs (p : Phase) (s : State) :
    (commitPhase p s).bpu.needs.map Need.writes = s.bpu.needs.map Need.writes ++ latchWrites p s := by
  cases h : s.bpu.latches.get p with
  | none => simp [commitPhase_empty h, latchWrites, h]
  | some l => simp [commitPhase_held h, (commitAlone_bpu p l s).2.1, latchWrites, h, Need.writes]

theorem commitPhase_phases (p q : Phase) (s : State) : (commitPhase p s).mpl.phases.get q = { s.mpl.phases.get q with
    torn := if q = p ∧ (s.bpu.latches.get p).isSome = true then satInc (s.mpl.phases.get q).torn else (s.mpl.phases.get q).torn } := by
  cases h : s.bpu.latches.get p with
  | none => simp [commitPhase_empty h]
  | some l =>
    rw [commitPhase_held h, commitAlone_phases]
    split
    · next hq => simp [hq]
    · next hq => simp [hq]

theorem commitPhase_counts (p : Phase) (s : State) : (commitPhase p s).bpu.counts = if s.bpu.isOpen then { s.bpu.counts with
    tornPair := if (s.bpu.latches.get p).isSome then satInc s.bpu.counts.tornPair else s.bpu.counts.tornPair } else s.bpu.counts := by
  cases h : s.bpu.latches.get p with
  | none => simp [commitPhase_empty h]
  | some l => rw [commitPhase_held h, (commitAlone_bpu p l s).2.2]; rfl

theorem commitAll_eq (s : State) : commitAll s = commitPhase .c (commitPhase .b (commitPhase .a s)) := rfl

theorem commitAll_latches (s : State) : (commitAll s).bpu.latches = PerPhase.all none := by
  refine PerPhase.ext_get fun q => ?_
  rw [commitAll_eq, commitPhase_latches, commitPhase_latches, commitPhase_latches]
  cases q <;> rfl

theorem commitPhase_writes {p q : Phase} (h : q ≠ p) (s : State) : latchWrites q (commitPhase p s) = latchWrites q s := by
  rw [latchWrites, commitPhase_latches, if_neg h]; rfl

theorem commitAll_needs (s : State) : (commitAll s).bpu.needs.map Need.writes = s.bpu.needs.map Need.writes
    ++ Phase.all.filterMap fun p => (s.bpu.latches.get p).map fun l => [(physicalCommandAddr l.slot 1, l.amplitude)] := by
  have all : (Phase.all.filterMap fun p => (s.bpu.latches.get p).map fun l => [(physicalCommandAddr l.slot 1, l.amplitude)])
      = latchWrites .a s ++ latchWrites .b s ++ latchWrites .c s := by
    simp only [Phase.all, latchWrites, List.filterMap_cons, List.filterMap_nil]
    cases s.bpu.latches.get .a <;> cases s.bpu.latches.get .b <;> cases s.bpu.latches.get .c <;> rfl
  rw [commitAll_eq, commitPhase_needs, commitPhase_needs, commitPhase_needs, commitPhase_writes (by decide),
    commitPhase_writes (by decide), commitPhase_writes (by decide), all, List.append_assoc, List.append_assoc, List.append_assoc]

theorem commitPhase_isSome {p q : Phase} (h : q ≠ p) (s : State) :
    ((commitPhase p s).bpu.latches.get q).isSome = (s.bpu.latches.get q).isSome := by
  rw [commitPhase_latches, if_neg h]

theorem commitAll_phases (s : State) (q : Phase) : (commitAll s).mpl.phases.get q = { s.mpl.phases.get q with
    torn := if (s.bpu.latches.get q).isSome then satInc (s.mpl.phases.get q).torn else (s.mpl.phases.get q).torn } := by
  rw [commitAll_eq, commitPhase_phases, commitPhase_phases, commitPhase_phases, commitPhase_isSome (by decide),
    commitPhase_isSome (by decide), commitPhase_isSome (by decide)]
  cases q <;> simp

theorem commitPhase_isOpen (p : Phase) (s : State) : (commitPhase p s).bpu.isOpen = s.bpu.isOpen := by
  unfold commitPhase
  split <;> simp

theorem commitAll_counts (s : State) : (commitAll s).bpu.counts = if s.bpu.isOpen then { s.bpu.counts with
    tornPair := Nat.repeat satInc (Phase.all.filter fun p => (s.bpu.latches.get p).isSome).length s.bpu.counts.tornPair }
    else s.bpu.counts := by
  rw [commitAll_eq, commitPhase_counts, commitPhase_counts, commitPhase_counts, commitPhase_isSome (by decide),
    commitPhase_isSome (by decide), commitPhase_isSome (by decide), commitPhase_isOpen, commitPhase_isOpen]
  cases s.bpu.isOpen with
  | false => rfl
  | true =>
    simp only [Phase.all, List.filter_cons, List.filter_nil, if_true]
    cases (s.bpu.latches.get .a).isSome <;> cases (s.bpu.latches.get .b).isSome <;> cases (s.bpu.latches.get .c).isSome <;> rfl

/-! ## The edge behind the scanner -/

theorem openGate_rct (s : State) : (openGate s).rct
    = { s.rct with gateOpen := s.rct.gateOpen || (s.rct.restart == .recharging && s.rct.resetWritten) } := by
  rw [openGate, State.onRct_rct]
  by_cases h : s.rct.restart = .recharging ∧ s.rct.resetWritten = true
  · rw [if_pos h]; simp [h.1, h.2]
  · rw [if_neg h]
    have shut : (s.rct.restart == .recharging && s.rct.resetWritten) = false := by simpa using h
    rw [shut, Bool.or_false]

/-- What the edge does once the scanner has taken it. -/
def edgeBehind (w : State) : State := countWindows (openGate (commitAll w))

theorem edgeBehind_spec (w : State) : EdgeAfterScan w (edgeBehind w) := by
  refine ⟨?_, ?_, ?_, fun p => ?_, commitAll_latches w, commitAll_needs w, commitAll_phases w, fun n hn => ?_, ?_⟩
  · have gate := openGate_rct (commitAll w)
    simp only [edgeBehind, countWindows, State.onHif_rct, State.onRct_rct, State.onFin_rct, gate, commitAll_frame]
  · simp [edgeBehind, countWindows, openGate]
  · simp [edgeBehind, countWindows, openGate]
  · simp [edgeBehind, countWindows, openGate]
  · rw [hn]; exact commitAll_counts w
  · intro f hf
    cases f <;> simp_all [Field.same, edgeBehind, countWindows, openGate]

theorem frameRising_exec (s : State) : exec .frameRising s = .next (settle (edgeBehind (frameScan (countFrame s)))) := rfl

end Sys2Proof.Machine
end

