-- ==== Sys2Proof/Proofs/ScanRules.lean ====
section
/-! The scanner at a FRAME edge: starts, overruns, and the expiries that no command has taken (R60, R62, R82, R98, R99,
R141). -/

namespace Sys2Proof.Machine

/-! ## A status read that is discarded (R62) -/

/-- No status read is in progress whose data is not discarded. -/
def NoStatusRead (s : State) : Prop := ∀ j, s.mpa.holder ≠ some (.ssc j false)

theorem NoStatusRead.of_none {s : State} (h : s.mpa.holder = none) : NoStatusRead s := fun j => by rw [h]; simp

theorem NoStatusRead.of_same {s t : State} (h : NoStatusRead s) (hh : t.mpa.holder = s.mpa.holder) : NoStatusRead t :=
  fun j => by rw [hh]; exact h j

theorem NoStatusRead.of_discarded {s t : State} (h : t.mpa.holder = s.mpa.holder.map Holder.discarded) : NoStatusRead t := by
  intro j
  rw [h]
  rcases s.mpa.holder with _ | k
  · simp
  · cases k <;> simp [Holder.discarded]

theorem noStatusRead_cancelBuffer {p : JobKind → Bool} {b : BufferId} {s : State} (h : NoStatusRead s) :
    NoStatusRead (cancelBuffer p b s) := by
  unfold cancelBuffer
  split
  · exact h
  · split
    · exact h.of_same rfl
    · exact h
  · split
    · exact .of_none rfl
    · exact h

theorem Move.keeps_noStatusRead {s t : State} (m : Move s t) (h : NoStatusRead s) : NoStatusRead t := by
  cases m with
  | free hk => exact h.of_same (hk .holder (by simp [freeFields]))
  | cancel p => exact (noStatusRead_cancelBuffer (noStatusRead_cancelBuffer h)).of_same rfl
  | quiesce _ _ => exact .of_discarded (s := s) (by simp)
  | discard => exact .of_discarded (s := s) rfl
  | endRead _ => exact .of_none rfl
  | endWen b u _ _ => exact .of_none rfl
  | hand | submit | push | planned => exact h.of_same (by simp)
  | _ => exact h.of_same rfl

theorem Turn.keeps_noStatusRead {s t : State} (m : Turn s t) (h : NoStatusRead s) : NoStatusRead t := by
  have moves : ∀ {s t : State}, Moves s t → NoStatusRead s → NoStatusRead t := fun m => m.keeps fun _ _ m => m.keeps_noStatusRead
  cases m with
  | move m => exact m.keeps_noStatusRead h
  | resume ha => exact (moves (enterResuming_moves ha) h).of_same (by simp [enterResuming])
  | short p hr _ => exact moves (shortLockout_moves (by exact hr) _) (h.of_same (by simp))
  | arm hu =>
    exact armRise_keeps (fun _ _ m => m.keeps_noStatusRead) (fun s h => h.of_same rfl) (fun s h => h.of_same rfl) hu h

theorem overrunEdge_noStatusRead {i : Slot} {s : State} : NoStatusRead (edgeBehind (overrunScan i s)) := by
  have discarded : NoStatusRead (discardRead s) := .of_discarded (s := s) rfl
  have overrun : Turns (discardRead s) (overrunScan i s) := by
    refine (foldl_turns (fun t j => evaluateFrame j none t) (fun t j => evaluateFrame_turns j none t) _ _).trans
      (turns_ite (fun _ => ?_) fun _ => .refl)
    exact ((scanEnd_turns _).trans (ssc_moves _ _ rfl).turns).trans (startScan_moves _).turns
  have behind : Turns (overrunScan i s) (edgeBehind (overrunScan i s)) :=
    Moves.turns (((commitAll_moves _).trans (openGate_moves _)).trans (countWindows_moves _))
  exact Turns.keeps (fun _ _ m => m.keeps_noStatusRead) (overrun.trans behind) discarded

/-! ## The scanner over faults and missed frames (R59) -/

/-- A fault leaves the scanner as it is, unless it ends arming. -/
theorem faultEvent_scanner (i : Slot) (f : PendingFault) {s : State} (h : s.rct.restart ≠ .arming) :
    (faultEvent i f s).ssc = s.ssc ∧ (faultEvent i f s).rct.restart ≠ .arming := by
  have tripped : ∀ entry, (trip (.slot i) entry s).ssc = s.ssc ∧ (trip (.slot i) entry s).rct.restart ≠ .arming := fun entry =>
    ⟨by simp, by rw [(trip_spec 0 (.slot i) entry s).restart]; decide⟩
  cases hr : s.rct.restart with
  | arming => exact absurd hr h
  | unarmed | lockout => simp [faultEvent, hr]
  | tripped => simp only [faultEvent, hr]; exact ⟨rfl, by rw [State.onRct_rct, joinPending_eq, hr]; decide⟩
  | _ => simp only [faultEvent, hr]; exact tripped _

theorem takeFault_scanner (i : Slot) (code : Nat) {s : State} (h : s.rct.restart ≠ .arming) :
    (takeFault i code s).ssc = s.ssc ∧ (takeFault i code s).rct.restart ≠ .arming := by
  cases hr : (s.mpl.slots.get i).role.reports with
  | false => rw [takeFault_disregarded hr]; exact ⟨rfl, h⟩
  | true =>
    rw [takeFault_taken hr]
    have judged : (judgedFault i code s).ssc = s.ssc := judgedFault_keeps i code s .ssc (by decide)
    have restart : (judgedFault i code s).rct.restart ≠ .arming := by rw [judgedFault_rct]; exact h
    split
    · obtain ⟨ssc, after⟩ := faultEvent_scanner i ⟨(classify s.plan code (s.fin.slots.get i)).1.cls, code⟩ restart
      exact ⟨ssc.trans judged, after⟩
    · have kept := nonActiveFault_keeps i (judgedFault i code s)
      have rct : (nonActiveFault i (judgedFault i code s)).rct = (judgedFault i code s).rct := kept .rct (by decide)
      exact ⟨(kept .ssc (by decide)).trans judged, by rw [rct]; exact restart⟩

theorem takeFaults_scanner (l : List Slot) (code : Nat) {s : State} (h : s.rct.restart ≠ .arming) :
    (takeFaults l code s).ssc = s.ssc := by
  induction l generalizing s with
  | nil => rfl
  | cons i l ih =>
    obtain ⟨ssc, restart⟩ := takeFault_scanner i code h
    exact (ih restart).trans ssc

/-- A scan end leaves the scanner as it is. -/
theorem scanEnd_scanner (s : State) : (scanEnd s).ssc = s.ssc := by
  have before : (takeIdentExpiry (takeScanEnd s)).ssc = s.ssc := by simp [takeIdentExpiry, takeScanEnd]
  unfold scanEnd
  dsimp only
  split
  · next h =>
    have verifying := (verifyExpired_iff.1 h).1
    exact (takeFaults_scanner _ 69 (by rw [verifying]; decide)).trans before
  · exact before

/-- While scanning goes on, a fault has left the scanner as it was. -/
theorem takeFault_scanning {i : Slot} {code : Nat} {s : State} (h : (takeFault i code s).ssc.enabled = true) :
    (takeFault i code s).ssc = s.ssc := by
  by_cases ha : s.rct.restart = .arming
  · cases hr : (s.mpl.slots.get i).role.reports with
    | false => rw [takeFault_disregarded hr]
    | true =>
      rw [takeFault_taken hr] at h ⊢
      have arming : (judgedFault i code s).rct.restart = .arming := by rw [judgedFault_rct]; exact ha
      split at h
      · simp only [faultEvent, arming] at h
        rw [(endArming_spec ..).1.scanner] at h
        exact absurd h (by simp)
      · next hn =>
        rw [if_neg hn]
        exact (nonActiveFault_keeps i (judgedFault i code s) .ssc (by decide)).trans (judgedFault_keeps i code s .ssc (by decide))
  · exact (takeFault_scanner i code ha).1

theorem judgeFrame_missed_scanner (r : RestartState) (j : Slot) (s : State) : (judgeFrame r j .missed s).ssc = s.ssc := by
  unfold judgeFrame
  split
  · rfl
  · simp
  · rfl

theorem evaluateFrame_missed_scanning {j : Slot} {s : State} (h : (evaluateFrame j none s).ssc.enabled = true) :
    (evaluateFrame j none s).ssc = s.ssc := by
  cases he : s.ssc.enabled with
  | false => simp [evaluateFrame, he]
  | true =>
    have supervised : (supervise j .missed s).ssc = s.ssc := by simp
    rw [evaluateFrame_eq he (o := .missed) rfl rfl] at h ⊢
    by_cases lost : ((supervise j .missed s).lsv.get j).link = .lost
    · rw [handOn_lost lost] at h ⊢
      split
      · exact supervised
      · next hn =>
        rw [if_neg hn] at h
        exact (takeFault_scanning h).trans supervised
    · rw [handOn_other lost (by rw [supervised]; exact he) rfl, judgeFrame_missed_scanner, supervised]

theorem foldl_missed_scanning (l : List Slot) {s : State} (h : (l.foldl (fun t j => evaluateFrame j none t) s).ssc.enabled = true) :
    (l.foldl (fun t j => evaluateFrame j none t) s).ssc = s.ssc := by
  induction l generalizing s with
  | nil => rfl
  | cons j l ih =>
    have rest := ih h
    rw [List.foldl_cons, rest] at h
    exact rest.trans (evaluateFrame_missed_scanning h)

end Sys2Proof.Machine
end

