-- ==== Sys2Proof/Proofs/FrameRises.lean ====
section
/-! FRAME rising (R53, R60, R62, R63, R82, R98, R99, R141, R169). -/

namespace Sys2Proof.Machine

/-! ## The start of a scan (R60) -/

/-- The scanner as a scan starts at a slot. -/
def Ssc.started (c : Ssc) (i : Slot) : Ssc := { c with inProgress := true, position := some i, ended := false }

theorem startScan_starts {s : State} {i : Slot} (fitted : s.mpl.fitted.get i = true) (lowest : ∀ j, j < i → s.mpl.fitted.get j = false) :
    startScan s = { s with ssc := s.ssc.started i, rct := { s.rct with scanSinceTrip := true } } := by
  have first : (fittedFrom s 0).head? = some i := head?_filter_slots (by simp [fitted]) fun j hj => by simp [lowest j hj]
  simp only [startScan, first]
  rfl

theorem startScan_unfitted {s : State} (none : ∀ i, s.mpl.fitted.get i = false) :
    startScan s = { s with ssc := { s.ssc with inProgress := false, position := .none, ended := false } } := by
  have first : (fittedFrom s 0).head? = .none := head?_filter_none fun i => by simp [none i]
  simp only [startScan, first]
  rfl

/-! ## The expiries that no command has taken (R82, R99, R141) -/

theorem lateExpiries_none {s : State} (h : s.ssc.ended = true → (∀ p, windowExpired (s.fin.lines.get p) = false)
    ∧ (s.rct.restart ≠ .verifying ∨ s.rct.verify.due = false)) : lateExpiries s = s := by
  cases he : s.ssc.ended with
  | false => simp [lateExpiries, he]
  | true =>
    obtain ⟨windows, verify⟩ := h he
    have expired : anyExpired s = false := by
      rw [Bool.eq_false_iff, ne_eq, anyExpired_iff]
      simp [windows]
    have due : verifyExpired s = false := by
      rw [Bool.eq_false_iff, ne_eq, verifyExpired_iff]
      rintro ⟨h1, h2⟩
      rcases verify with h | h
      · exact h h1
      · rw [h] at h2; exact absurd h2 (by decide)
    simp [lateExpiries, he, expired, due]

theorem lateExpiries_tripped {s : State} (he : s.ssc.ended = true) (hx : anyExpired s = true) (hr : s.rct.restart = .tripped) :
    lateExpiries s = enterLockout .unidentified (stopExpired s) := by
  have taken : takeIdentExpiry s = enterLockout .unidentified (stopExpired s) := by
    rw [takeIdentExpiry_eq, hx, identificationReport_expired (s := stopExpired s) hr]
  have due : verifyExpired (enterLockout .unidentified (stopExpired s)) = false := by
    rw [Bool.eq_false_iff, ne_eq, verifyExpired_iff, (lockout_unidentified s).restart]
    simp
  simp [lateExpiries, he, hx, taken, due]

theorem lateExpiries_stopped {s : State} (he : s.ssc.ended = true) (hx : anyExpired s = true) (h1 : s.rct.restart ≠ .tripped)
    (h2 : s.rct.restart ≠ .verifying) : lateExpiries s = stopExpired s := by
  have taken : takeIdentExpiry s = stopExpired s := identificationReport_idle (s := stopExpired s) h1
  have due : verifyExpired (stopExpired s) = false := by
    rw [Bool.eq_false_iff, ne_eq, verifyExpired_iff]
    exact fun h => h2 h.1
  simp [lateExpiries, he, hx, taken, due]

/-- In VERIFYING the expired windows stop, and the verify window makes its faults. -/
theorem lateExpiries_verifying {s : State} (he : s.ssc.ended = true) (hr : s.rct.restart = .verifying) (hd : s.rct.verify.due = true) :
    ∃ f, lateExpiries s = takeFaults (unverified s.rct) 69 { s with fin := f } := by
  have due : verifyExpired s = true := verifyExpired_iff.2 ⟨hr, hd⟩
  have due' : verifyExpired (stopExpired s) = true := verifyExpired_iff.2 ⟨hr, hd⟩
  cases hx : anyExpired s with
  | false => exact ⟨s.fin, by simp [lateExpiries, he, hx, due, takeVerifyExpiry]⟩
  | true =>
    have taken : takeIdentExpiry s = stopExpired s := identificationReport_idle (s := stopExpired s) (by
      rw [show (stopExpired s).rct = s.rct from rfl, hr]; decide)
    refine ⟨(stopExpired s).fin, ?_⟩
    simp only [lateExpiries, he, hx, taken, due', if_true, takeVerifyExpiry]
    rfl

theorem mem_unverified {r : Rct} {j : Slot} : j ∈ unverified r ↔ ∃ q, r.progress.get j = some q ∧ q.verified = false := by
  rw [unverified, List.mem_filter]
  cases r.progress.get j <;> simp [mem_allSlots]

/-- The verify window's faults of the slots that are not verified (R141). -/
theorem lateExpiries_trips {s : State} {k : Slot} (he : s.ssc.ended = true) (law : ∀ i q, s.rct.progress.get i = some q →
    (s.mpl.slots.get i).role.isActive = true) (hr : s.rct.restart = .verifying) (hd : s.rct.verify.due = true)
    (hk : ∃ q, s.rct.progress.get k = some q ∧ q.verified = false)
    (lowest : ∀ j, j < k → ¬ ∃ q, s.rct.progress.get j = some q ∧ q.verified = false) :
    Trips 1 (.slot k) s (lateExpiries s)
      ∧ ∀ j, (∃ q, s.rct.progress.get j = some q ∧ q.verified = false) → FaultedHard 69 (lateExpiries s) j := by
  obtain ⟨f, e⟩ := lateExpiries_verifying he hr hd
  have late : ∀ j, (match s.rct.progress.get j with | some p => !p.verified | none => false) = true
      ↔ ∃ q, s.rct.progress.get j = some q ∧ q.verified = false := fun j => by
    cases s.rct.progress.get j <;> simp
  obtain ⟨rest, slots⟩ : ∃ rest, unverified s.rct = k :: rest := filter_slots_cons ((late k).2 hk) fun j hj =>
    Bool.eq_false_iff.2 fun h => lowest j hj ((late j).1 h)
  have active : ∀ j ∈ k :: rest, (s.mpl.slots.get j).role.isActive = true := fun j hj => by
    obtain ⟨q, hq, _⟩ := mem_unverified.1 (slots ▸ hj)
    exact law j q hq
  obtain ⟨trips, _, faulted⟩ := takeFaults_trips (code := 69) (by decide) k rest (s := { s with fin := f })
    (by rw [show ({ s with fin := f } : State).rct = s.rct from rfl, hr]; simp [RestartState.trips]) active
  rw [e, slots]
  exact ⟨trips.of_fin, fun j hj => faulted j (slots ▸ mem_unverified.2 hj)⟩

/-! ## The edge at the scanner -/

theorem frameScan_between {s : State} (he : s.ssc.enabled = true) (h : s.ssc.inProgress = false ∨ s.ssc.position = none) :
    frameScan s = startScan (lateExpiries s) := by
  simp only [frameScan, he, if_true]
  split
  · next h1 h2 => rcases h with h | h <;> simp_all
  · rfl

theorem frameScan_overruns {s : State} {i : Slot} (he : s.ssc.enabled = true) (hi : s.ssc.inProgress = true) (hp : s.ssc.position = some i) :
    frameScan s = overrunScan i s := by
  simp only [frameScan, he, hi, hp, if_true]

theorem frameScan_disabled {s : State} (he : s.ssc.enabled = false) : frameScan s = s := by simp [frameScan, he]

/-- The state behind the missed frames of an overrun (R62). -/
def missedFrames (i : Slot) (s : State) : State := (fittedFrom s i.val).foldl (fun t j => evaluateFrame j none t) (discardRead s)

theorem missedFrames_fitted (i : Slot) (s : State) : (missedFrames i s).mpl.fitted = s.mpl.fitted := by simp [missedFrames, discardRead]

theorem overrunScan_stopped {s : State} {i : Slot} (h : (missedFrames i s).ssc.enabled = false) : overrunScan i s = missedFrames i s :=
  if_neg (by rw [← missedFrames, h]; decide)

theorem overrunScan_restarts {s : State} {i first : Slot} (h : (missedFrames i s).ssc.enabled = true)
    (fitted : s.mpl.fitted.get first = true) (lowest : ∀ j, j < first → s.mpl.fitted.get j = false) :
    overrunScan i s = { scanEnd (missedFrames i s) with
      ssc := { (missedFrames i s).ssc with
        overrun := satInc (missedFrames i s).ssc.overrun, inProgress := true, position := some first, ended := false }
      rct := { (scanEnd (missedFrames i s)).rct with scanSinceTrip := true } } := by
  have again : overrunScan i s = startScan ((scanEnd (missedFrames i s)).onSsc fun c => { c with overrun := satInc c.overrun }) := if_pos h
  have same : (scanEnd (missedFrames i s)).mpl.fitted = s.mpl.fitted := by
    rw [← missedFrames_fitted i s]; simp
  rw [again, startScan_starts (i := first) (by rw [State.onSsc_mpl, same]; exact fitted)
    fun j hj => by rw [State.onSsc_mpl, same]; exact lowest j hj]
  simp only [State.onSsc, Ssc.started, scanEnd_scanner]

theorem missedFrames_scanning {i : Slot} {s : State} (h : (missedFrames i s).ssc.enabled = true) : (missedFrames i s).ssc = s.ssc :=
  foldl_missed_scanning _ h

/-! ## The obligation -/

theorem countFrame_counted {s : State} {counted : Itm}
    (h : counted = { s.itm with frames := if s.itm.running then s.itm.frames + 1 else s.itm.frames }) :
    countFrame s = { s with itm := counted } := by rw [countFrame_eq, h]

/-- An edge between two scans. -/
theorem frameRising_starts {s : State} {counted : Itm} (hc : counted = { s.itm with frames := if s.itm.running then s.itm.frames + 1 else s.itm.frames })
    (hp : s.ssc.enabled = true → s.ssc.inProgress = false ∨ s.ssc.position = none)
    (hx : s.ssc.enabled = true → s.ssc.ended = true → (∀ p, windowExpired (s.fin.lines.get p) = false)
      ∧ (s.rct.restart ≠ .verifying ∨ s.rct.verify.due = false)) :
    CompletesAs .frameRising s fun u =>
      (∀ i, s.ssc.enabled = true → s.mpl.fitted.get i = true → (∀ j, j < i → s.mpl.fitted.get j = false) →
          EdgeAfterScan { s with
            itm := counted
            ssc := { s.ssc with inProgress := true, position := some i, ended := false }
            rct := { s.rct with scanSinceTrip := true } } u)
        ∧ (s.ssc.enabled = true → (∀ i, s.mpl.fitted.get i = false) →
            EdgeAfterScan { s with
              itm := counted, ssc := { s.ssc with inProgress := false, position := none, ended := false } } u)
        ∧ (s.ssc.enabled = false → EdgeAfterScan { s with itm := counted } u) := by
  refine ⟨_, frameRising_exec s, fun i he fitted lowest => ?_, fun he none => ?_, fun he => ?_⟩ <;> rw [countFrame_counted hc]
  · rw [frameScan_between (s := { s with itm := counted }) he (hp he), lateExpiries_none (s := { s with itm := counted }) (hx he),
      startScan_starts (s := { s with itm := counted }) fitted lowest]
    exact edgeBehind_spec _
  · rw [frameScan_between (s := { s with itm := counted }) he (hp he), lateExpiries_none (s := { s with itm := counted }) (hx he),
      startScan_unfitted (s := { s with itm := counted }) none]
    exact edgeBehind_spec _
  · rw [frameScan_disabled (s := { s with itm := counted }) he]
    exact edgeBehind_spec _

/-- An edge over a running scan. -/
theorem frameRising_overruns {s v : State} {i first : Slot} (he : s.ssc.enabled = true) (hi : s.ssc.inProgress = true)
    (hp : s.ssc.position = some i) (fitted : s.mpl.fitted.get first = true) (lowest : ∀ j, j < first → s.mpl.fitted.get j = false)
    (hv : v = (allSlots.filter fun j => decide (i ≤ j) && s.mpl.fitted.get j).foldl (fun t j => evaluateFrame j none t)
      { s with
        itm := { s.itm with frames := if s.itm.running then s.itm.frames + 1 else s.itm.frames }
        mpa := { s.mpa with holder := s.mpa.holder.map Holder.discarded } }) :
    CompletesAs .frameRising s fun u =>
      (∀ j, u.mpa.holder ≠ some (.ssc j false))
        ∧ (v.ssc.enabled = false → EdgeAfterScan v u)
        ∧ (v.ssc.enabled = true → ∃ w, ScanEndTaken v w ∧ EdgeAfterScan { w with
            ssc := { v.ssc with
              overrun := satInc s.ssc.overrun, inProgress := true, position := some first, ended := false }
            rct := { w.rct with scanSinceTrip := true } } u)
        ∧ (u.ssc.enabled = true → u.ssc.overrun = satInc s.ssc.overrun ∧ u.ssc.inProgress = true
            ∧ u.ssc.ended = false ∧ u.ssc.position = some first)
        ∧ u.bpu.latches = PerPhase.all none ∧ u.pins = s.pins ∧ u.mpl.fitted = s.mpl.fitted := by
  have counted := countFrame_counted (s := s) rfl
  have missed : v = missedFrames i (countFrame s) := by rw [hv, counted]; rfl
  have scan : frameScan (countFrame s) = overrunScan i (countFrame s) := by
    rw [counted]; exact frameScan_overruns he hi hp
  have stopped := overrunScan_stopped (i := i) (s := countFrame s)
  have restarts := overrunScan_restarts (i := i) (s := countFrame s) (first := first)
  have same := missedFrames_scanning (i := i) (s := countFrame s)
  have ssc : (countFrame s).ssc = s.ssc := by rw [counted]
  have map : (countFrame s).mpl = s.mpl := by rw [counted]
  have behind := edgeBehind_spec (overrunScan i (countFrame s))
  have quiet := overrunEdge_noStatusRead (i := i) (s := countFrame s)
  have kept : (overrunScan i (countFrame s)).pins = s.pins ∧ (overrunScan i (countFrame s)).mpl.fitted = s.mpl.fitted := by
    rw [counted]; simp
  rw [← missed, ssc] at same
  rw [← missed, map] at restarts
  rw [← missed] at stopped
  refine ⟨_, frameRising_exec s, ?_⟩
  rw [scan]
  obtain ⟨_, _, _, _, latches, _, _, _, fields⟩ := id behind
  refine ⟨quiet, fun off => ?_, fun on => ⟨scanEnd v, scanEnd_taken v, ?_⟩, fun on => ?_, latches,
    (fields .pins (by decide)).trans kept.1, (fields .fitted (by decide)).trans kept.2⟩
  · rw [stopped off] at behind ⊢
    exact behind
  · rw [restarts on fitted lowest] at behind ⊢
    rw [same on] at behind ⊢
    exact behind
  · have scanner : (edgeBehind (overrunScan i (countFrame s))).ssc = (overrunScan i (countFrame s)).ssc := fields .ssc (by decide)
    rw [scanner] at on ⊢
    cases hen : v.ssc.enabled with
    | false => rw [stopped hen, hen] at on; exact absurd on (by decide)
    | true =>
      rw [restarts hen fitted lowest, same hen]
      exact ⟨rfl, rfl, rfl, rfl⟩

/-- An edge ahead of expiries that no command has taken. -/
theorem frameRising_late {s : State} {i : Slot} {counted : Itm} (he : s.ssc.enabled = true) (hi : s.ssc.inProgress = false)
    (hc : counted = { s.itm with frames := if s.itm.running then s.itm.frames + 1 else s.itm.frames })
    (fitted : s.mpl.fitted.get i = true) (lowest : ∀ j, j < i → s.mpl.fitted.get j = false) {v : State}
    (hv : lateExpiries { s with itm := counted } = v) (ssc : v.ssc = s.ssc) (map : v.mpl.fitted = s.mpl.fitted) :
    exec .frameRising s = .next (settle (edgeBehind { v with
      ssc := { s.ssc with inProgress := true, position := some i, ended := false }, rct := { v.rct with scanSinceTrip := true } })) := by
  rw [frameRising_exec, countFrame_counted hc, frameScan_between (s := { s with itm := counted }) he (.inl hi), hv,
    startScan_starts (s := v) (i := i) (by rw [map]; exact fitted) fun j hj => by rw [map]; exact lowest j hj, ssc]
  rfl

/-- Settles O14: the edge between two scans, over a running scan, and ahead of expiries not taken. -/
theorem frameRisingStartsOrOverrunsAScan : Obligations.FrameRisingStartsOrOverrunsAScan := by
  refine ⟨fun s counted hc hp hx => frameRising_starts hc hp hx,
    fun s i first v he hi hp fitted lowest hv => frameRising_overruns he hi hp fitted lowest hv,
    fun s i he hend hi fitted lowest expired hx starts hs counted hc => ?_⟩
  have named : expired ↔ anyExpired { s with itm := counted } = true := by rw [hx, anyExpired_iff]
  subst hs
  refine ⟨fun some hr => ?_, fun some h1 h2 => ?_, fun k late hl law hr hd hk before => ?_⟩
  · have taken := lateExpiries_tripped (s := { s with itm := counted }) hend (named.1 some) hr
    have locked := lockout_unidentified { s with itm := counted }
    exact ⟨_, frameRising_late he hi hc fitted lowest taken (locked.kept .ssc (by decide)) (locked.kept .fitted (by decide)),
      _, locked, edgeBehind_spec _⟩
  · have taken := lateExpiries_stopped (s := { s with itm := counted }) hend (named.1 some) h1 h2
    exact ⟨_, frameRising_late he hi hc fitted lowest taken rfl rfl, edgeBehind_spec _⟩
  · subst hl
    obtain ⟨trips, faulted⟩ := lateExpiries_trips (s := { s with itm := counted }) (k := k) hend
      (fun j q h => (law.progress j q h).1) hr hd hk before
    have ssc : (lateExpiries { s with itm := counted }).ssc = s.ssc := trips.kept .ssc (by decide)
    have map : (lateExpiries { s with itm := counted }).mpl.fitted = s.mpl.fitted := trips.kept .fitted (by decide)
    refine ⟨_, frameRising_late he hi hc fitted lowest rfl ssc map, _, trips, edgeBehind_spec _, fun j hj => ?_⟩
    obtain ⟨pending, last⟩ := faulted j hj
    obtain ⟨rct, _, slots, _⟩ := edgeBehind_spec { lateExpiries { s with itm := counted } with
      ssc := { s.ssc with inProgress := true, position := some i, ended := false }
      rct := { (lateExpiries { s with itm := counted }).rct with scanSinceTrip := true } }
    rw [rct, slots]
    exact ⟨pending, last⟩

end Sys2Proof.Machine
end

