-- ==== Sys2Proof/Proofs/AdoptedPlans.lean ====
section
/-! The adoption of an accepted plan (R16, R94, R95, R126, R129, R154, R165 to R168, R171). -/

namespace Sys2Proof.Machine

/-! ## The log as it starts (R171, R172) -/

/-- A log that has started and been handed n records, none of them written. -/
structure FreshLog (n capacity : Nat) (mask : Word) (l : Log) : Prop where
  running : l.running = true
  capacity : l.capacity = capacity
  mask : l.irqMask = mask
  producer : l.producer = n
  written : l.written = 0
  consumer : l.consumer = 0
  overflow : l.overflow = 0
  irq : l.irqN = true ∧ l.irqHeld = false
  length : l.writeList.length = n

theorem Log.start_fresh (capacity : Nat) (mask : Word) (l : Log) : FreshLog 0 capacity mask (l.start capacity mask) :=
  ⟨rfl, rfl, rfl, rfl, rfl, rfl, rfl, ⟨rfl, rfl⟩, rfl⟩

/-- With nothing written no position is unconsumed (R173). -/
theorem Log.updateIrq_unwritten {l : Log} (hw : l.written = 0) (hc : l.consumer = 0) : l.updateIrq = { l with irqN := true } := by
  have none : l.unconsumed = [] := by simp [Log.unconsumed, hw, hc]
  have level : l.irqLevel = true := by rw [Log.irqLevel, none]; rfl
  rw [Log.updateIrq, level, Bool.or_true]

/-- A record handed to such a log is the next one of its ring. -/
theorem FreshLog.record {n capacity : Nat} {mask : Word} {s : State} (h : FreshLog n capacity mask s.log) (hc : 16 ≤ capacity) (hn : n < 15)
    (c : Category) (code slot arg : Word) :
    FreshLog (n + 1) capacity mask (logRecord c code slot arg s).log
      ∧ (logRecord c code slot arg s).log.writeList = s.log.writeList ++ [⟨c, n, n + 1, false⟩]
      ∧ JobListed (.logRecord false) (recordJob n (n + 1) (recordWords c code slot arg s)) (logRecord c code slot arg s) := by
  have next : (n + 1) % capacity = n + 1 := Nat.mod_eq_of_lt (by omega)
  have room : logFull s = false := by
    rw [← Bool.not_eq_true, logFull_iff, h.length, h.producer, h.capacity, h.consumer, next]
    omega
  obtain ⟨log, job⟩ := handRecord_room false c code slot arg h.running room
  rw [Log.updateIrq_unwritten (by exact h.written) (by exact h.consumer)] at log
  simp only [h.producer, h.capacity, next] at log job
  rw [logRecord, log, JobListed]
  refine ⟨⟨h.running, rfl, h.mask, rfl, h.written, h.consumer, h.overflow, ⟨rfl, h.irq.2⟩, ?_⟩, rfl, ?_⟩
  · simp [h.length]
  · have listed : (handRecord false c code slot arg s).wen.jobs (JobKind.logRecord false).cls
        = (handRecord false c code slot arg s).wen.jobs3 := rfl
    rw [listed, job]
    exact List.mem_append_right _ List.mem_cons_self

/-- The start of the log, ahead of its first records. -/
def logBegun (capacity : Nat) (mask : Word) (s : State) : State :=
  submit .logHeader
    [⟨logHeaderAddr 0, .const 0⟩, ⟨logHeaderAddr 2, .const (word capacity)⟩, ⟨logHeaderAddr 3, .const 0⟩,
      ⟨logHeaderAddr 4, .const (cancel JobKind.isLogRecord (takeRecordCompletions s)).log.lastCategory⟩]
    ((cancel JobKind.isLogRecord (takeRecordCompletions s)).onLog (Log.start capacity mask))

theorem startLog_eq (capacity : Nat) (mask : Word) (s : State) : startLog capacity mask s
    = logRecord .arm ArmResult.accepted.code noSlot 0
        (logRecord .sequence RestartState.arming.code noSlot 0 (logBegun capacity mask s)) := rfl

theorem logBegun_fresh (capacity : Nat) (mask : Word) (s : State) : FreshLog 0 capacity mask (logBegun capacity mask s).log := by
  simpa [logBegun] using Log.start_fresh capacity mask _

theorem logBegun_stamps (capacity : Nat) (mask : Word) (s : State) :
    (logBegun capacity mask s).rct = s.rct ∧ (logBegun capacity mask s).itm = s.itm
      ∧ (logBegun capacity mask s).log.writeList = [] := by simp [logBegun, Log.start]

/-- Jobs that are no log records stay listed over the start of the log (log 18). -/
theorem logBegun_listed {k : JobKind} {ws : List JobWrite} {s : State} (h : JobListed k ws s) (hk : k.isLogRecord = false)
    (capacity : Nat) (mask : Word) : JobListed k ws (logBegun capacity mask s) := by
  have taken : JobListed k ws (takeRecordCompletions s) := by rwa [JobListed, takeRecordCompletions_jobs]
  have cancelled : JobListed k ws ((cancel JobKind.isLogRecord (takeRecordCompletions s)).onLog (Log.start capacity mask)) :=
    taken.cancel _ hk
  exact cancelled.submit _ _

theorem JobsGrow.image {s t : State} (g : JobsGrow s t) (h : ImagePending s) : ImagePending t := by
  obtain ⟨j, hj, image⟩ := List.any_eq_true.1 h
  exact List.any_eq_true.2 ⟨j, (g.jobs .three).subset hj, image⟩

theorem logBegun_image {s : State} (h : ImagePending s) (capacity : Nat) (mask : Word) : ImagePending (logBegun capacity mask s) := by
  obtain ⟨j, hj, image⟩ := List.any_eq_true.1 h
  have kept : j.kind.isLogRecord = false := by
    rw [Bool.and_eq_true] at image
    cases hk : j.kind <;> simp_all [JobKind.isMapImage, JobKind.isLogRecord]
  have listed : j ∈ ((cancel JobKind.isLogRecord (takeRecordCompletions s)).onLog (Log.start capacity mask)).wen.jobs .three := by
    rw [State.onLog_wen, cancel_jobs, takeRecordCompletions_jobs]
    exact List.mem_filter.2 ⟨hj, by simp [kept]⟩
  exact List.any_eq_true.2 ⟨j, ((JobsGrow.submit _ _ _ (.inl (by simp))).jobs .three).subset listed, image⟩

/-! ## The jobs of an adoption -/

/-- The state of an adoption ahead of the start of the log. -/
def adoptJobs (s : State) : State :=
  queueCaptureHeader (bumpGeneration (commandContactors (fittedSlots (submitResetBlock (adoptBlocks s))) (submitResetBlock (adoptBlocks s))))

theorem adopt_eq (s : State) : adopt s
    = ((logCommanded (fittedSlots (submitResetBlock (adoptBlocks s)))
        (startLog (planNat s.pld.copy 34) (planWord s.pld.copy 35) (adoptJobs s))).onRct
          fun r => { r with contactor := .load (planNat s.pld.copy 16) }).onPld fun d => { d with copy := [] } := by
  have plan : (logCommanded (fittedSlots (submitResetBlock (adoptBlocks s)))
      (startLog (planNat s.pld.copy 34) (planWord s.pld.copy 35) (adoptJobs s))).plan = planSettings s.pld.copy := by
    simp [adoptJobs, adoptBlocks_blocks]
  have timer : planNat s.pld.copy 16 = (logCommanded (fittedSlots (submitResetBlock (adoptBlocks s)))
      (startLog (planNat s.pld.copy 34) (planWord s.pld.copy 35) (adoptJobs s))).plan.contactorTimeout := by rw [plan]; rfl
  rw [timer]
  rfl

theorem adopt_fitted (s : State) : fittedSlots (submitResetBlock (adoptBlocks s)) = allSlots.filter (planFitted s.pld.copy) := by
  simp [fittedSlots, fittedFrom, adoptBlocks_blocks, adoptMap]

theorem adoptJobs_listed {s : State} (h : allSlots.filter (planFitted s.pld.copy) ≠ []) :
    JobListed .resetBlock (gateTo 0 allSlots) (adoptJobs s)
      ∧ JobListed .contactor (contactorWrites (allSlots.filter (planFitted s.pld.copy))) (adoptJobs s)
      ∧ JobListed .captureHeader (captureHeaderWrites ++ [⟨0xD00, .captureHeader 0⟩]) (adoptJobs s) ∧ ImagePending (adoptJobs s) := by
  have reset : JobListed .resetBlock (gateTo 0 allSlots) (submitResetBlock (adoptBlocks s)) := jobListed_submit _ _ (by decide)
  have commanded : JobListed .contactor (contactorWrites (allSlots.filter (planFitted s.pld.copy)))
      (commandContactors (fittedSlots (submitResetBlock (adoptBlocks s))) (submitResetBlock (adoptBlocks s))) := by
    rw [adopt_fitted, commandContactors, if_neg h]
    exact jobListed_submit _ _ (by simpa [contactorWrites] using h)
  have first : JobsGrow (submitResetBlock (adoptBlocks s))
      (commandContactors (fittedSlots (submitResetBlock (adoptBlocks s))) (submitResetBlock (adoptBlocks s))) := commandContactors_grows ..
  have second : JobsGrow (commandContactors (fittedSlots (submitResetBlock (adoptBlocks s))) (submitResetBlock (adoptBlocks s)))
      (adoptJobs s) := (bumpGeneration_grows _).trans (JobsGrow.submit _ _ _ (.inl (by simp)))
  exact ⟨second.jobListed (first.jobListed reset), second.jobListed commanded, jobListed_submit .captureHeader _ (by simp),
    (JobsGrow.submit _ _ _ (.inl (by simp))).image (imagePending_queue false _)⟩

/-! ## The log of an adoption -/

theorem adoptJobs_stamps (s : State) : (adoptJobs s).rct.restart = s.rct.restart ∧ (adoptJobs s).itm = ⟨true, 0, 0, 0, 0⟩ := by
  obtain ⟨w, hw⟩ := commandContactors_rct (fittedSlots (submitResetBlock (adoptBlocks s))) (submitResetBlock (adoptBlocks s))
  refine ⟨?_, by simp [adoptJobs, adoptBlocks_blocks]⟩
  have rct : (adoptJobs s).rct = (commandContactors (fittedSlots (submitResetBlock (adoptBlocks s)))
      (submitResetBlock (adoptBlocks s))).rct := by simp [adoptJobs]
  rw [rct, hw]
  simp [adoptBlocks_blocks, adoptRct]

theorem recordWords_fresh {s : State} (h : s.itm = ⟨true, 0, 0, 0, 0⟩) (c : Category) (code slot arg : Word) :
    recordWords c code slot arg s = [c.code, code, slot, s.rct.restart.code, arg, 0, 0, 0] := by
  rw [recordWords, h]; rfl

/-- The three first records of an armed period (R171, R129). -/
theorem startLog_records {s : State} {capacity : Nat} {mask : Word} (hc : 16 ≤ capacity) (hi : s.itm = ⟨true, 0, 0, 0, 0⟩) (arg : Word)
    {u : State} (hu : u = logRecord .contactor 1 noSlot arg (startLog capacity mask s)) :
    FreshLog 3 capacity mask u.log
      ∧ u.log.writeList = [⟨.sequence, 0, 1, false⟩, ⟨.arm, 1, 2, false⟩, ⟨.contactor, 2, 3, false⟩]
      ∧ JobListed (.logRecord false) (recordJob 0 1 [1, 1, 0xFFFF, s.rct.restart.code, 0, 0, 0, 0]) u
      ∧ JobListed (.logRecord false) (recordJob 1 2 [9, 0, 0xFFFF, s.rct.restart.code, 0, 0, 0, 0]) u
      ∧ JobListed (.logRecord false) (recordJob 2 3 [5, 1, 0xFFFF, s.rct.restart.code, arg, 0, 0, 0]) u
      ∧ JobsGrow (logBegun capacity mask s) u := by
  obtain ⟨rct, itm, list⟩ := logBegun_stamps capacity mask s
  obtain ⟨fresh1, list1, job1⟩ := (logBegun_fresh capacity mask s).record hc (by decide) .sequence RestartState.arming.code noSlot 0
  obtain ⟨fresh2, list2, job2⟩ := fresh1.record hc (by decide) .arm ArmResult.accepted.code noSlot 0
  obtain ⟨fresh3, list3, job3⟩ := fresh2.record hc (by decide) .contactor 1 noSlot arg
  rw [← startLog_eq] at fresh3 list3 job3
  have grow1 := (records_logRecord .sequence RestartState.arming.code noSlot 0 (logBegun capacity mask s)).jobsGrow
  have grow2 : JobsGrow _ (startLog capacity mask s) := (records_logRecord .arm ArmResult.accepted.code noSlot 0 _).jobsGrow
  have grow3 := (records_logRecord .contactor 1 noSlot arg (startLog capacity mask s)).jobsGrow
  rw [recordWords_fresh (itm.trans hi), rct] at job1
  rw [recordWords_fresh (by simp [itm, hi])] at job2
  rw [recordWords_fresh (by simp [hi])] at job3
  simp only [logRecord_frame, rct] at job2
  simp only [startLog_frame] at job3
  subst hu
  refine ⟨fresh3, ?_, (grow2.trans grow3).jobListed job1, grow3.jobListed job2, job3, (grow1.trans grow2).trans grow3⟩
  rw [list3, startLog_eq, list2, list1, list]
  rfl

/-! ## The fitted slots of an accepted plan -/

/-- A slot that the initial map makes ACTIVE is fitted (R14, R15). -/
theorem planBuild_fitted {p : List Word} {m : SlotMap} {i : Slot} (h : ((planBuild p m).slots.get i).role.isActive = true) :
    planFitted p i = true := by
  obtain ⟨q, hq⟩ : ∃ q, ((planBuild p m).slots.get i).role.place = some q := by
    cases hr : ((planBuild p m).slots.get i).role with
    | active q => exact ⟨q, rfl⟩
    | _ => simp [hr, Role.isActive] at h
  have balanced : Balanced (initialMap (planFitted p) (planReleases p) (planNat p 2) m) (planBuild p m).slots :=
    rebalance_balanced _ _ _ _
  rw [balanced.place, initialMap_role] at hq
  obtain ⟨_, _, able⟩ := initialRole_place hq
  rw [Bool.and_eq_true] at able
  exact able.1

theorem accepted_fitted {p : List Word} {m : SlotMap} (h : planRefusal p m = none) : allSlots.filter (planFitted p) ≠ [] := by
  obtain ⟨_, _, _, _, _, short⟩ := planRefusal_none h
  have active : 0 < activeCount (planBuild p m).slots .a := (field_minActive h).1.trans (feasible_of_shortPhase short .a)
  obtain ⟨i, _, hi⟩ := List.countP_pos_iff.1 active
  exact List.ne_nil_of_mem (List.mem_filter.2 ⟨mem_allSlots i, planBuild_fitted hi⟩)

/-! ## The blocks of an adoption (R168) -/

theorem adopt_other (s : State) :
    (adopt s).pld = { s.pld with cursor := .none, copy := [], result := .accepted, arg := 0 }
      ∧ (adopt s).bpu = { s.bpu with isOpen := true, counts := .zero } ∧ (adopt s).ssc = { s.ssc with enabled := true, overrun := 0 }
      ∧ (adopt s).lsv = PerSlot.all .reset ∧ (adopt s).fin = adoptIntake s.pins.faultLine s.fin
      ∧ (adopt s).itm = ⟨true, 0, 0, 0, 0⟩ ∧ (adopt s).pins = s.pins := by
  have bpu : (adoptBlocks s).bpu = { s.bpu with isOpen := true, counts := .zero } := rfl
  have lsv : (adoptBlocks s).lsv = PerSlot.all .reset := rfl
  have fin : (adoptBlocks s).fin = adoptIntake s.pins.faultLine s.fin := rfl
  simp [adopt, adoptBlocks_blocks, bpu, lsv, fin]

theorem adopt_map (s : State) : (adopt s).mpl = { adoptMap s.pld.copy s.mpl with generation := s.mpl.generation + 1 } := by
  simp [adopt, bumpGeneration, adoptBlocks_blocks, adoptMap]

theorem adopt_log (s : State) :
    (adopt s).log = (logCommanded (allSlots.filter (planFitted s.pld.copy))
        (startLog (planNat s.pld.copy 34) (planWord s.pld.copy 35) (adoptJobs s))).log
      ∧ (adopt s).wen = (logCommanded (allSlots.filter (planFitted s.pld.copy))
        (startLog (planNat s.pld.copy 34) (planWord s.pld.copy 35) (adoptJobs s))).wen := by
  rw [← adopt_fitted, adopt_eq]
  exact ⟨rfl, rfl⟩

theorem adoptMap_slot (p : List Word) (m : Mpl) (i : Slot) :
    ((adoptMap p m).slots.get i).role = ((planBuild p m.slots).slots.get i).role
      ∧ ((adoptMap p m).slots.get i).bypass = (if ((adoptMap p m).slots.get i).role.isActive then .opened else .closed)
      ∧ ((adoptMap p m).slots.get i).lifetime = (m.slots.get i).lifetime
      ∧ ((adoptMap p m).slots.get i).quarantine = ((m.slots.get i).quarantine && !planReleases p i)
      ∧ (adoptMap p m).fitted.get i = planFitted p i := by
  obtain ⟨lifetime, quarantine⟩ := planBuild_table p m.slots i
  have slots : (adoptMap p m).slots.get i = { (planBuild p m.slots).slots.get i with
      bypass := ((planBuild p m.slots).slots.get i).role.bypass } := by simp [adoptMap, commandBypass]
  rw [slots]
  exact ⟨rfl, rfl, lifetime, quarantine, by simp [adoptMap]⟩

/-! ## The tenure of the drive record (R166) -/

/-- The state that the checks of an accepted plan are run on, with the port released and the drive record handed over. -/
def driveRead (s : State) : State := handOverDrive (releasePort s)

theorem pldTenureEnd_adopts {s : State} (hh : s.mpa.holder = some (.pld false)) (hc : s.pld.cursor = .drive)
    (h : planRefusal s.pld.copy s.mpl.slots = none) : exec .pldTenureEnd s = .next (settle (adopt (driveRead s))) := by
  have judged : judgePlan (driveRead s) = adopt (driveRead s) := by
    have none : planRefusal (driveRead s).pld.copy (driveRead s).mpl.slots = none := h
    simp only [judgePlan, none]
  have taken : takePlanTenure (releasePort s) = judgePlan (driveRead s) := by
    have cursor : (releasePort s).pld.cursor = .drive := hc
    simp only [takePlanTenure, cursor]
    rfl
  rw [pldTenureEnd_exec hh, taken, judged]

theorem driveRead_copies (s : State) :
    (driveRead s).rct = { s.rct with
        direction := (if s.mem.read 0x401 = 0 then .raise else .lower), restartEnable := (s.mem.read 0x403 == 1) }
      ∧ (driveRead s).hif = { s.hif with lastTag := s.mem.read 0x400 } := ⟨rfl, rfl⟩

/-- Settles O12: the blocks one by one, and then the jobs and the records in the order they are handed. -/
theorem acceptedPlanIsAdopted : Obligations.AcceptedPlanIsAdopted := by
  intro s p hh hc hp h
  subst hp
  obtain ⟨rct, hif⟩ := driveRead_copies s
  have fitted := accepted_fitted h
  have capacity := (capacity_of_accepted h).1
  refine ⟨_, pldTenureEnd_adopts hh hc h, ?_⟩
  generalize hd : driveRead s = d at rct hif
  have same : d.pld = s.pld ∧ d.mpl = s.mpl ∧ d.bpu = s.bpu ∧ d.ssc = s.ssc ∧ d.fin = s.fin ∧ d.pins = s.pins := by
    rw [← hd]; exact ⟨rfl, rfl, rfl, rfl, rfl, rfl⟩
  obtain ⟨pld, mpl, bpu, ssc, fin, pins⟩ := same
  obtain ⟨upld, ubpu, ussc, ulsv, ufin, uitm, upins⟩ := adopt_other d
  have umpl := adopt_map d
  have urct := adopt_rct d
  have uwatch := adopt_watch d
  obtain ⟨_, _, _, uplan, uhif, _, urfs, ucap⟩ := adopt_blocks d
  obtain ⟨ulog, uwen⟩ := adopt_log d
  obtain ⟨restart, itm⟩ := adoptJobs_stamps d
  obtain ⟨resetBlock, contactor, header, image⟩ := adoptJobs_listed (s := d) (by rw [pld]; exact fitted)
  rw [pld] at upld umpl urct uwatch uplan uhif ulog uwen contactor
  rw [mpl] at umpl
  rw [rct] at restart
  have commanded : ∀ t, logCommanded (allSlots.filter (planFitted s.pld.copy)) t
      = logRecord .contactor 1 noSlot (word (allSlots.filter (planFitted s.pld.copy)).length) t := fun t => if_neg fitted
  rw [commanded] at ulog uwen
  obtain ⟨fresh, list, first, second, third, grows⟩ := startLog_records (mask := planWord s.pld.copy 35) capacity itm
    (word (allSlots.filter (planFitted s.pld.copy)).length) rfl
  rw [restart] at first second third
  rw [← ulog] at fresh list
  have listed : ∀ {k : JobKind} {ws : List JobWrite} {v : State}, (adopt d).wen = v.wen → JobListed k ws v → JobListed k ws (adopt d) :=
    fun e hj => by rwa [JobListed, e]
  have kept : ∀ {k : JobKind} {ws : List JobWrite}, k.isLogRecord = false → JobListed k ws (adoptJobs d) → JobListed k ws (adopt d) :=
    fun hk hj => listed uwen (grows.jobListed (logBegun_listed hj hk _ _))
  have pending : ImagePending (adopt d) := by
    have after := grows.image (logBegun_image image _ _)
    rwa [ImagePending, uwen]
  refine ⟨by rw [upld], by rw [upld], by rw [upld], by rw [upld], fun i => ?_, fun q => ?_, by rw [umpl]; rfl, by rw [umpl]; rfl,
    by rw [umpl], uplan, by rw [ubpu, bpu], by rw [ussc, ssc], fun i => by rw [ulsv]; simp, fun i => ?_, fun q => ?_, ?_⟩
  · rw [umpl]; exact adoptMap_slot s.pld.copy s.mpl i
  · rw [umpl]; simp [adoptMap]
  · rw [ufin, fin]; simp [adoptIntake]
  · rw [ufin, fin, pins]; simp [adoptIntake]
  refine ⟨by rw [urct, rct]; rfl, by rw [urct]; rfl, by rw [urct]; rfl, by rw [urct]; rfl, by rw [urct]; rfl, by rw [urct]; rfl,
    by rw [urct]; rfl, by rw [urct, rct]; rfl, by rw [urct, rct]; rfl, by rw [uhif, hif]; rfl, by rw [urct],
    fun i hi => by rw [uwatch, if_pos hi], urfs, ucap, uitm, by rw [uhif]; rfl, by rw [uhif]; rfl, by rw [uhif]; rfl,
    by rw [uhif]; rfl, fresh.running, fresh.capacity, fresh.mask, fresh.consumer, fresh.written, fresh.overflow, fresh.irq.1,
    fresh.irq.2, list, fun n hn => ?_, kept rfl resetBlock, kept rfl contactor, kept rfl header, pending, upins.trans pins⟩
  subst hn
  exact ⟨listed uwen first, listed uwen second, listed uwen third⟩

end Sys2Proof.Machine
end

