-- ==== Sys2Proof/Proofs/FillOrder.lean ====
section
/-! The filling of the staging buffers: which job fills one, and with what (R33, R150, R151). -/

namespace Sys2Proof.Machine

/-! ## The head job of a list -/

/-- A job is open while it has writes to stage; a release is until its gates are staged (R32). -/
theorem Job.isOpen_iff {stage : Option ReleaseStage} {j : Job} : j.isOpen stage = true ↔
    j.todo ≠ [] ∨ j.kind = .release ∧ stage ≠ none ∧ stage ≠ some .gates := by
  unfold Job.isOpen
  split
  · next h => simp [h, Option.isSome_iff_ne_none, or_comm]
  all_goals next h => simp [h]

theorem Job.isOpen_eq_false {stage : Option ReleaseStage} {j : Job} : j.isOpen stage = false ↔
    j.todo = [] ∧ (j.kind = .release → stage = none ∨ stage = some .gates) := by
  rw [← Bool.not_eq_true, Job.isOpen_iff]
  tauto

theorem headOpen_eq_some {stage : Option ReleaseStage} {js : List Job} {j : Job} :
    headOpen stage js = some j ↔ IsHead stage js j := by
  simp only [headOpen, List.find?_eq_some_iff_append, Bool.not_eq_true', Job.isOpen_eq_false, Job.isOpen_iff, IsHead]
  exact ⟨fun ⟨hj, before, after, e, hb⟩ => ⟨before, after, e, hb, hj⟩,
    fun ⟨before, after, e, hb, hj⟩ => ⟨hj, before, after, e, hb⟩⟩

theorem headOpen_eq_none {stage : Option ReleaseStage} {js : List Job} : headOpen stage js = none ↔ NoHead stage js := by
  simp only [headOpen, List.find?_eq_none, Bool.not_eq_true, Job.isOpen_eq_false, NoHead]

/-! ## Which job fills a buffer -/

theorem Buffer.isReady_iff {v : Buffer} : v.isReady = true ↔ ∃ w, v = .ready w := by cases v <;> simp [Buffer.isReady]

theorem fillBuffer_full {b : BufferId} {s : State} (h : s.wen.buffer b ≠ .empty) : fillBuffer b s = s :=
  if_neg fun e => h (Buffer.isEmpty_iff.1 e)

theorem fillBuffer_one {b : BufferId} {s : State} {j : Job} (h : s.wen.buffer b = .empty)
    (hj : IsHead s.rfs.stage s.wen.jobs1 j) : fillBuffer b s = stageJob b .one j s := by
  rw [fillBuffer, if_pos (Buffer.isEmpty_iff.2 h), headOpen_eq_some.2 hj]

theorem fillBuffer_behindReady {b : BufferId} {s : State} {w : Burst} (hn : NoHead s.rfs.stage s.wen.jobs1)
    (ho : s.wen.buffer b.other = .ready w) : fillBuffer b s = s := by
  rw [fillBuffer, headOpen_eq_none.2 hn]
  simp [ho, Buffer.isReady]

/-- With class 1 staged and the other buffer not READY, class 2 fills an EMPTY buffer, and class 3 one it left EMPTY. -/
theorem fillBuffer_lower {b : BufferId} {s : State} (h : s.wen.buffer b = .empty) (hn : NoHead s.rfs.stage s.wen.jobs1)
    (ho : ∀ w, s.wen.buffer b.other ≠ .ready w) : fillBuffer b s =
      if ((stageTwo b s).wen.buffer b).isEmpty then stageThree b (stageTwo b s) else stageTwo b s := by
  have other : ¬(s.wen.buffer b.other).isReady = true := fun e => (Buffer.isReady_iff.1 e).elim ho
  rw [fillBuffer, if_pos (Buffer.isEmpty_iff.2 h), headOpen_eq_none.2 hn]
  exact if_neg other

theorem stageThree_some {b : BufferId} {s : State} {j : Job} (h : IsHead s.rfs.stage s.wen.jobs3 j) :
    stageThree b s = stageJob b .three j s := by
  rw [stageThree, headOpen_eq_some.2 h]

theorem stageThree_none {b : BufferId} {s : State} (h : NoHead s.rfs.stage s.wen.jobs3) : stageThree b s = s := by
  rw [stageThree, headOpen_eq_none.2 h]

theorem stageTwo_none {b : BufferId} {s : State} (h : NoHead s.rfs.stage s.wen.jobs2) : stageTwo b s = s := by
  rw [stageTwo, headOpen_eq_none.2 h]

theorem inAuxiliary_iff {s : State} : inAuxiliary s = true ↔ ∃ w, s.rfs.stage = some (.auxiliary w) := by
  simp [inAuxiliary]

theorem releaseWaits_iff {s : State} : releaseWaits s = true ↔ s.rfs.stage = some (.auxiliary true) ∧ releaseStaged s = true := by
  simp [releaseWaits]

theorem stageTwo_job {b : BufferId} {s : State} {j : Job} (h : IsHead s.rfs.stage s.wen.jobs2 j)
    (ha : j.kind ≠ .release ∨ ∀ w, s.rfs.stage ≠ some (.auxiliary w)) : stageTwo b s = stageJob b .two j s := by
  rw [stageTwo, headOpen_eq_some.2 h]
  refine if_neg fun ⟨hk, hs⟩ => ?_
  obtain ⟨w, hw⟩ := inAuxiliary_iff.1 hs
  exact ha.elim (· hk) (· w hw)

/-- A release in stage AUXILIARY waits, or drains (R151). -/
theorem stageTwo_auxiliary {b : BufferId} {s : State} {j : Job} {w : Bool} (h : IsHead s.rfs.stage s.wen.jobs2 j)
    (hk : j.kind = .release) (hs : s.rfs.stage = some (.auxiliary w)) :
    stageTwo b s = if releaseWaits s then s else stageAuxiliary b s := by
  rw [stageTwo, headOpen_eq_some.2 h]
  exact if_pos ⟨hk, inAuxiliary_iff.2 ⟨w, hs⟩⟩

theorem fillsFromThree_of {b : BufferId} {s : State} (h : fillBuffer b s = stageThree b s) : FillsFromThree b s :=
  ⟨fun _ hj => h.trans (stageThree_some hj), fun hn => h.trans (stageThree_none hn)⟩

/-- The branch of class 2 leaves the buffer EMPTY. -/
theorem fillBuffer_toThree {b : BufferId} {s t : State} (h : s.wen.buffer b = .empty) (hn : NoHead s.rfs.stage s.wen.jobs1)
    (ho : ∀ w, s.wen.buffer b.other ≠ .ready w) (ht : stageTwo b s = t) (hb : t.wen.buffer b = .empty) :
    fillBuffer b s = stageThree b t := by
  subst ht
  rw [fillBuffer_lower h hn ho, if_pos (Buffer.isEmpty_iff.2 hb)]

/-- The branch of class 2 fills the buffer. -/
theorem fillBuffer_byTwo {b : BufferId} {s t : State} (h : s.wen.buffer b = .empty) (hn : NoHead s.rfs.stage s.wen.jobs1)
    (ho : ∀ w, s.wen.buffer b.other ≠ .ready w) (ht : stageTwo b s = t) (hb : t.wen.buffer b ≠ .empty) :
    fillBuffer b s = t := by
  subst ht
  rw [fillBuffer_lower h hn ho, if_neg fun e => hb (Buffer.isEmpty_iff.1 e)]

theorem stageJob_filled (b : BufferId) (c : JobClass) (j : Job) (s : State) : (stageJob b c j s).wen.buffer b ≠ .empty := by
  obtain ⟨w, hw⟩ := stageJob_ready b c j s
  simp [hw]

theorem fillsInOrder : FillsInOrder := by
  intro b s
  refine ⟨fillBuffer_full, fun he => ⟨fun j => fillBuffer_one he, fun hn => ⟨fun w => fillBuffer_behindReady hn, fun ho => ?_⟩⟩⟩
  refine ⟨fun h2 => fillsFromThree_of (fillBuffer_toThree he hn ho (stageTwo_none h2) he), fun j hj => ⟨fun ha => ?_, ?_, ?_⟩⟩
  · exact fillBuffer_byTwo he hn ho (stageTwo_job hj ha) (stageJob_filled _ _ _ _)
  · intro hk hs hr
    have waits := (stageTwo_auxiliary (b := b) hj hk hs).trans (if_pos (releaseWaits_iff.2 ⟨hs, hr⟩))
    exact fillsFromThree_of (fillBuffer_toThree he hn ho waits he)
  · rintro w t hk hs hw rfl
    have drains : ¬releaseWaits s = true := fun e => by
      obtain ⟨hs', hr⟩ := releaseWaits_iff.1 e
      rcases hw with rfl | hw
      · simp [hs] at hs'
      · simp [hr] at hw
    have two := (stageTwo_auxiliary (b := b) hj hk hs).trans (if_neg drains)
    refine ⟨fillBuffer_byTwo he hn ho two, fun hb => ?_⟩
    have three := fillBuffer_toThree he hn ho two hb
    exact ⟨fun _ h3 => three.trans (stageThree_some h3), fun h3 => three.trans (stageThree_none h3)⟩

end Sys2Proof.Machine
end

