-- ==== Sys2Proof/Proofs/StagedBursts.lean ====
section
/-! The staging of a burst: up to eight writes of a job, each with its value formed then (R33, R34, R150). -/

namespace Sys2Proof.Machine

/-! ## Values -/

/-- Only an amplitude moves the state when its value is formed (R57). -/
theorem formValue_unmoved {src : Source} (h : ∀ r, src ≠ .refAmplitude r) (s : State) : (formValue src s).1 = s := by
  cases src with
  | refAmplitude r => exact absurd rfl (h r)
  | _ => rfl

/-- All that the values other than those of the map image are formed from is the same in two states. -/
structure FormsAlike (s t : State) : Prop where
  image : t.rfs.image = s.rfs.image
  slots : t.mpl.slots = s.mpl.slots
  k : t.mpl.k = s.mpl.k
  log : t.log = s.log
  cap : t.cap = s.cap
  plan : t.plan = s.plan
  scale : ∀ p, (t.mpl.phases.get p).scale = (s.mpl.phases.get p).scale
  angleOffset : ∀ p, (t.mpl.phases.get p).angleOffset = (s.mpl.phases.get p).angleOffset

theorem FormsAlike.refl (s : State) : FormsAlike s s := ⟨rfl, rfl, rfl, rfl, rfl, rfl, fun _ => rfl, fun _ => rfl⟩

theorem FormsAlike.trans {s t u : State} (h : FormsAlike s t) (h' : FormsAlike t u) : FormsAlike s u :=
  ⟨h'.image.trans h.image, h'.slots.trans h.slots, h'.k.trans h.k, h'.log.trans h.log, h'.cap.trans h.cap,
    h'.plan.trans h.plan, fun p => (h'.scale p).trans (h.scale p), fun p => (h'.angleOffset p).trans (h.angleOffset p)⟩

theorem FormsAlike.formValue_eq {s t : State} (h : FormsAlike s t) {src : Source} (hs : ∀ o, src ≠ .mapImage o) :
    (formValue src t).2 = (formValue src s).2 := by
  obtain ⟨image, slots, k, log, cap, plan, scale, angle⟩ := h
  cases src with
  | mapImage o => exact absurd rfl (hs o)
  | const v => rfl
  | commandedBypass i => simp [formValue, slots]
  | overflowCount => simp [formValue, log]
  | captureHeader w => simp [formValue, cap]
  | captureEntry e w => simp [formValue, cap]
  | refAmplitude r => simp [formValue, amplitudeOf, phaseRecord, image, plan, scale]
  | refAngle r => simp [formValue, angleOf, phaseRecord, image, angle]
  | refCarrier r => simp [formValue, carrierOf, image, slots, k]
  | gateIntent i => simp [formValue, recordOfSlot, image, slots]

theorem countSaturation_alike (p : Phase) (s : State) : FormsAlike s (countSaturation p s) := by
  have record : ∀ q, ((countSaturation p s).mpl.phases.get q).scale = (s.mpl.phases.get q).scale
      ∧ ((countSaturation p s).mpl.phases.get q).angleOffset = (s.mpl.phases.get q).angleOffset := by
    intro q
    simp only [countSaturation, countRefusal_frame, State.onMpl_mpl, PerPhase.get_modify]
    split <;> exact ⟨rfl, rfl⟩
  constructor
  case scale => exact fun q => (record q).1
  case angleOffset => exact fun q => (record q).2
  all_goals simp

theorem formValue_alike (src : Source) (s : State) : FormsAlike s (formValue src s).1 := by
  cases src with
  | refAmplitude r =>
    simp only [formValue]
    split
    · exact countSaturation_alike _ _
    · exact .refl s
  | _ => exact .refl s

/-! ## The writes of a burst -/

theorem formWrites_addr (ws : List JobWrite) (s : State) : (formWrites ws s).2.map Prod.fst = ws.map JobWrite.addr := by
  induction ws generalizing s with
  | nil => rfl
  | cons w ws ih => simp [formWrites, ih]

theorem formWrites_unmoved {ws : List JobWrite} (h : ∀ w ∈ ws, ∀ r, w.source ≠ .refAmplitude r) (s : State) :
    (formWrites ws s).1 = s := by
  induction ws with
  | nil => rfl
  | cons w ws ih =>
    have head := formValue_unmoved (h w List.mem_cons_self) s
    simp only [formWrites, head]
    exact ih fun v hv => h v (List.mem_cons_of_mem _ hv)

/-- A value is formed in a state that differs from the first in counted saturations alone. -/
theorem formWrites_get {ws : List JobWrite} {n : Nat} {x : JobWrite} (hx : ws[n]? = some x) (s : State) :
    ∃ t, (formWrites ws s).2[n]? = some (x.addr, (formValue x.source t).2) ∧ FormsAlike s t
      ∧ ((∀ w ∈ ws, ∀ r, w.source ≠ .refAmplitude r) → t = s) := by
  induction ws generalizing n s with
  | nil => simp at hx
  | cons w ws ih =>
    cases n with
    | zero =>
      obtain rfl : w = x := by simpa using hx
      exact ⟨s, rfl, .refl s, fun _ => rfl⟩
    | succ n =>
      obtain ⟨t, value, alike, same⟩ := ih (n := n) (by simpa using hx) (formValue w.source s).1
      refine ⟨t, by simpa [formWrites] using value, (formValue_alike w.source s).trans alike, fun h => ?_⟩
      rw [same fun v hv => h v (List.mem_cons_of_mem _ hv), formValue_unmoved (h w List.mem_cons_self)]

theorem formWrites_value {ws : List JobWrite} {n : Nat} {x : JobWrite} (hx : ws[n]? = some x) {s : State}
    (h : (∀ o, x.source ≠ .mapImage o) ∨ ∀ w ∈ ws, ∀ r, w.source ≠ .refAmplitude r) :
    (formWrites ws s).2[n]? = some (x.addr, (formValue x.source s).2) := by
  obtain ⟨t, value, alike, same⟩ := formWrites_get hx s
  rw [value]
  rcases h with h | h
  · rw [alike.formValue_eq h]
  · rw [same h]

/-- The record of the last word-3 write, behind one more write. -/
def carrierAfter (c : Option Rec) (w : JobWrite) : Option Rec :=
  match w.source with
  | .refCarrier r => some r
  | _ => c

theorem lastCarrier_eq (ws : List JobWrite) : lastCarrier ws = ws.foldl carrierAfter none := rfl

theorem carrierAfter_carrier {w : JobWrite} {r : Rec} (h : w.source = .refCarrier r) (c : Option Rec) :
    carrierAfter c w = some r := by
  simp [carrierAfter, h]

theorem carrierAfter_other {w : JobWrite} (h : ∀ r, w.source ≠ .refCarrier r) (c : Option Rec) : carrierAfter c w = c := by
  unfold carrierAfter
  split
  · next r e => exact absurd e (h r)
  · rfl

theorem foldl_carrierAfter {ws : List JobWrite} {c : Option Rec} {r : Rec} : ws.foldl carrierAfter c = some r ↔
      (∃ y x z, ws = y ++ x :: z ∧ x.source = .refCarrier r ∧ ∀ v ∈ z, ∀ q, v.source ≠ .refCarrier q)
        ∨ c = some r ∧ ∀ v ∈ ws, ∀ q, v.source ≠ .refCarrier q := by
  induction ws generalizing c with
  | nil => simp
  | cons w ws ih =>
    rw [List.foldl_cons, ih]
    by_cases hw : ∃ q, w.source = .refCarrier q
    · obtain ⟨q, hq⟩ := hw
      rw [carrierAfter_carrier hq, Option.some.injEq]
      constructor
      · rintro (⟨y, x, z, rfl, hx, hz⟩ | ⟨rfl, hz⟩)
        · exact .inl ⟨w :: y, x, z, rfl, hx, hz⟩
        · exact .inl ⟨[], w, ws, rfl, hq, hz⟩
      · rintro (⟨y, x, z, e, hx, hz⟩ | ⟨-, hz⟩)
        · rcases List.cons_eq_append_iff.1 e with ⟨rfl, e⟩ | ⟨y', rfl, rfl⟩
          · obtain ⟨rfl, rfl⟩ := List.cons.inj e
            exact .inr ⟨by rw [hq] at hx; exact Source.refCarrier.inj hx, hz⟩
          · exact .inl ⟨y', x, z, rfl, hx, hz⟩
        · exact absurd hq (hz w List.mem_cons_self q)
    · have other : ∀ q, w.source ≠ .refCarrier q := fun q e => hw ⟨q, e⟩
      rw [carrierAfter_other other]
      constructor
      · rintro (⟨y, x, z, rfl, hx, hz⟩ | ⟨hc, hz⟩)
        · exact .inl ⟨w :: y, x, z, rfl, hx, hz⟩
        · exact .inr ⟨hc, List.forall_mem_cons.2 ⟨other, hz⟩⟩
      · rintro (⟨y, x, z, e, hx, hz⟩ | ⟨hc, hz⟩)
        · rcases List.cons_eq_append_iff.1 e with ⟨rfl, e⟩ | ⟨y', rfl, rfl⟩
          · obtain ⟨rfl, rfl⟩ := List.cons.inj e
            exact absurd hx (other r)
          · exact .inl ⟨y', x, z, rfl, hx, hz⟩
        · exact .inr ⟨hc, (List.forall_mem_cons.1 hz).2⟩

theorem lastCarrier_eq_some {ws : List JobWrite} {r : Rec} : lastCarrier ws = some r ↔
    ∃ y x z, ws = y ++ x :: z ∧ x.source = .refCarrier r ∧ ∀ v ∈ z, ∀ q, v.source ≠ .refCarrier q := by
  simp [lastCarrier_eq, foldl_carrierAfter]

/-! ## The state a staging leaves -/

theorem replaceOpen_head {stage : Option ReleaseStage} {before after : List Job} {j j' : Job}
    (hb : ∀ i ∈ before, i.isOpen stage = false) (hj : j.isOpen stage = true) :
    replaceOpen stage j' (before ++ j :: after) = before ++ j' :: after := by
  induction before with
  | nil => simp [replaceOpen, hj]
  | cons i before ih =>
    rw [List.cons_append, replaceOpen, hb i List.mem_cons_self, ih fun x hx => hb x (List.mem_cons_of_mem _ hx)]
    rfl

/-- The burst that a staging of a job makes. -/
def burstOf (j : Job) (s : State) : Burst :=
  ⟨j.kind, (formWrites (j.todo.take Config.burstLength) s).2, lastCarrier (j.todo.take Config.burstLength),
    j.todo.drop Config.burstLength == [] && (j.kind != .release || s.rfs.stage == some .gates)⟩

theorem stageJob_engine (b : BufferId) (c : JobClass) (j : Job) (s : State) : (stageJob b c j s).wen =
    (s.wen.setJobs c (replaceOpen s.rfs.stage { j with todo := j.todo.drop Config.burstLength } (s.wen.jobs c))).ready b
      (burstOf j s) := by
  unfold stageJob burstOf
  dsimp only
  split <;> simp

theorem stageJob_moves_stage (b : BufferId) (c : JobClass) (j : Job) (s : State) : (stageJob b c j s).rfs.stage =
    if j.kind = .release ∧ s.rfs.stage = some .references ∧ j.todo.length ≤ 8 then some (.auxiliary false) else s.rfs.stage := by
  have rest : (j.todo.drop Config.burstLength == []) = true ↔ j.todo.length ≤ 8 := by
    rw [beq_iff_eq, List.drop_eq_nil_iff]; rfl
  unfold stageJob
  dsimp only
  split
  · next h =>
    simp only [Bool.and_eq_true, rest, beq_iff_eq, and_assoc] at h
    rw [if_pos h]
    rfl
  · next h =>
    simp only [Bool.and_eq_true, rest, beq_iff_eq, and_assoc] at h
    rw [if_neg h]
    simp

theorem stageJob_counts (b : BufferId) (c : JobClass) (j : Job) (s : State) :
    (stageJob b c j s).bpu.counts = (formWrites (j.todo.take Config.burstLength) s).1.bpu.counts
      ∧ (stageJob b c j s).mpl.phases = (formWrites (j.todo.take Config.burstLength) s).1.mpl.phases := by
  unfold stageJob
  dsimp only
  split <;> exact ⟨rfl, rfl⟩

theorem stageJob_keeps (b : BufferId) (c : JobClass) (j : Job) (s : State) :
    KeepsAllBut [.counts, .phases, .stage, .wen] s (stageJob b c j s) := by
  intro f hf; cases f <;> simp_all [Field.same]

theorem stageJob_keepsCounts {j : Job} (h : ∀ w ∈ j.todo, ∀ r, w.source ≠ .refAmplitude r) (b : BufferId) (c : JobClass)
    (s : State) : KeepsAllBut [.stage, .wen] s (stageJob b c j s) := by
  obtain ⟨counts, phases⟩ := stageJob_counts b c j s
  rw [formWrites_unmoved fun w hw => h w (List.mem_of_mem_take hw)] at counts phases
  intro f hf
  by_cases hc : f = .counts
  · exact hc ▸ counts
  by_cases hp : f = .phases
  · exact hp ▸ phases
  exact stageJob_keeps b c j s f (by simp_all)

theorem Wen.ready_done (w : Wen) (b : BufferId) (u : Burst) : (w.ready b u).done = w.done := by cases b <;> rfl

theorem Wen.setJobs_done (w : Wen) (c : JobClass) (js : List Job) : (w.setJobs c js).done = w.done := by cases c <;> rfl

theorem Wen.ready_older {w : Wen} {b : BufferId} {v : Burst} (h : w.buffer b.other = .ready v) (u : Burst) :
    (w.ready b u).xOlder = (b == .y) := by
  cases b <;> simp [Wen.ready, h, Buffer.isReady]

theorem burstOf_last {j : Job} {s : State} :
    (burstOf j s).last = true ↔ j.todo.length ≤ 8 ∧ (j.kind = .release → s.rfs.stage = some .gates) := by
  have rest : j.todo.drop Config.burstLength = [] ↔ j.todo.length ≤ 8 := List.drop_eq_nil_iff
  simp only [burstOf, Bool.and_eq_true, beq_iff_eq, rest, Bool.or_eq_true, bne_iff_ne, ne_eq, imp_iff_not_or]

theorem stagesABurst : StagesABurst := by
  rintro b c j s _ before after hjobs hhead hbefore rfl
  have engine := stageJob_engine b c j s
  have isOpen : j.isOpen s.rfs.stage = true := by
    obtain ⟨_, _, _, _, hj⟩ := hhead
    exact Job.isOpen_iff.2 hj
  have other : b.other ≠ b := by cases b <;> decide
  have list := replaceOpen_head (j' := { j with todo := j.todo.drop Config.burstLength }) (after := after)
    (fun i hi => Job.isOpen_eq_false.2 (hbefore i hi)) isOpen
  rw [hjobs, list] at engine
  refine ⟨burstOf j s, by rw [engine, Wen.ready_buffer, if_pos rfl], rfl, formWrites_addr _ _, fun n x hn hx h => ?_, burstOf_last,
    fun r => lastCarrier_eq_some, ?_, fun d hd => ?_, ?_, ?_, fun v hv => ?_, stageJob_moves_stage b c j s,
    fun h => stageJob_keepsCounts h b c s, stageJob_keeps b c j s⟩
  · refine formWrites_value (by rwa [List.getElem?_take, if_pos (show n < Config.burstLength from hn)]) (h.imp_right fun h w hw => ?_)
    exact h w (List.mem_of_mem_take hw)
  · rw [engine, Wen.ready_jobs, Wen.setJobs_jobs, if_pos rfl]; rfl
  · rw [engine, Wen.ready_jobs, Wen.setJobs_jobs, if_neg hd]
  · rw [engine, Wen.ready_buffer, if_neg other, Wen.setJobs_buffer]
  · rw [engine, Wen.ready_done, Wen.setJobs_done]
  · rw [engine]
    exact Wen.ready_older (by rwa [Wen.setJobs_buffer]) _

end Sys2Proof.Machine
end

