-- ==== Sys2Proof/Proofs/FormedValues.lean ====
section
/-! The values that a staging forms: the cell map's, the capture's, the references and the map image's (R18, R91, R150, R152,
R172). -/

namespace Sys2Proof.Machine

theorem formValue_gateIntent {s : State} {i : Slot} {r : Rec} (h : recordOfSlot s i = some r) :
    formValue (.gateIntent i) s = (s, (s.rfs.image.get r).gate) := by
  simp only [formValue, h]

theorem captureEntry_words {s : State} {e : Nat} {x : CaptureEntry} (h : s.cap.ring[e]? = some x) :
    [0, 1, 2, 3].map (fun w => (formValue (.captureEntry e w) s).2) = [word x.record.val, word x.word.val, x.value, x.stamp] := by
  simp [formValue, captureEntryWord, h]

/-! ## An amplitude -/

theorem formValue_amplitude {s : State} {r : Rec} (h : (amplitudeOf s r (s.rfs.image.get r).amplitude).2 = false) :
    formValue (.refAmplitude r) s = (s, (amplitudeOf s r (s.rfs.image.get r).amplitude).1) := by
  simp [formValue, h]

theorem formValue_saturated {s : State} {r : Rec} (h : (amplitudeOf s r (s.rfs.image.get r).amplitude).2 = true) :
    formValue (.refAmplitude r) s
      = (countSaturation (phaseOf r) s, (amplitudeOf s r (s.rfs.image.get r).amplitude).1) := by
  simp [formValue, h]

theorem countSaturation_saturation (p q : Phase) (s : State) : ((countSaturation p s).mpl.phases.get q).saturation =
    if q = p then satInc (s.mpl.phases.get q).saturation else (s.mpl.phases.get q).saturation := by
  simp only [countSaturation, countRefusal_frame, State.onMpl_mpl, PerPhase.get_modify]
  split <;> rfl

theorem countSaturation_counts (p : Phase) (s : State) : (countSaturation p s).bpu.counts =
    if s.bpu.isOpen then { s.bpu.counts with saturation := satInc s.bpu.counts.saturation } else s.bpu.counts := by
  cases h : s.bpu.isOpen <;> simp [countSaturation, countRefusal, RefusalCounts.addSaturation, h]

theorem countSaturation_keeps (p : Phase) (s : State) : KeepsAllBut [.counts, .phases] s (countSaturation p s) := by
  intro f hf; cases f <;> simp_all [Field.same]

/-! ## The map image (Table 1-5, Table 2-6) -/

theorem mapImageWord_phase (s : State) (p : Phase) : (List.range 8).map (fun w => mapImageWord s (8 * (p.num + 1) + w))
    = (List.range 8).map (imagePhaseWord s p) := by
  cases p <;> rfl

theorem mapImageWord_slot (s : State) (i : Slot) {w : Nat} (hw : w < 8) :
    mapImageWord s (32 + 8 * i.val + w) = imageSlotWord s i w := by
  have block : (32 + 8 * i.val + w) / 8 = i.val + 4 := by omega
  have offset : (32 + 8 * i.val + w) % 8 = w := by omega
  have slot : Fin.ofNat 24 i.val = i := Fin.ext (Nat.mod_eq_of_lt i.isLt)
  simp only [mapImageWord, block, offset, slot]

theorem mapImageWord_slots (s : State) (i : Slot) : (List.range 8).map (fun w => mapImageWord s (32 + 8 * i.val + w))
    = (List.range 8).map (imageSlotWord s i) :=
  List.map_congr_left fun _ hw => mapImageWord_slot s i (List.mem_range.1 hw)

theorem imageSlot_words (s : State) (i : Slot) : (List.range 8).map (imageSlotWord s i) =
    [(s.mpl.slots.get i).role.code, (s.mpl.slots.get i).role.positionWord, (s.lsv.get i).link.code,
      slotFlags (s.lsv.get i) (s.mpl.slots.get i).quarantine, word (s.fin.slots.get i).strikes, (s.lsv.get i).errored,
      (s.lsv.get i).missed, word ((s.mpl.slots.get i).lifetime.toNat * 256 + (s.fin.slots.get i).lastCode % 256)] := rfl

theorem formsValues : FormsValues := by
  refine ⟨fun s v i => ⟨rfl, rfl, rfl, fun _ => formValue_gateIntent, fun _ => rfl, fun _ => rfl, fun _ _ => captureEntry_words,
    fun _ _ => rfl⟩, ?_, fun _ => rfl, fun _ => rfl, ?_, ?_⟩
  · rintro s r _ rfl
    refine ⟨rfl, rfl, formValue_amplitude, ?_⟩
    rintro h _ rfl
    rw [formValue_saturated h]
    exact ⟨rfl, fun p => countSaturation_saturation _ p s, countSaturation_counts _ s, countSaturation_keeps _ s⟩
  · rintro s p _ rfl
    exact mapImageWord_phase s p
  · rintro s i _ _ _ rfl rfl rfl
    rw [mapImageWord_slots, imageSlot_words]
    cases (s.mpl.slots.get i).role <;> rfl

end Sys2Proof.Machine
end

