-- ==== Sys2Proof/Proofs/AuxiliaryDrain.lean ====
section
/-! The auxiliary drain (R151), and the stage of the gates behind it (R152). -/

namespace Sys2Proof.Machine

/-! ## One walk over the list -/

/-- The write of an auxiliary entry whose position is not dark (R151). -/
def auxWrite (slot : Rec → Option Slot) (e : AuxEntry) : Option (Addr × Word) :=
  (slot e.record).map fun i => (physicalCommandAddr i (5 + e.aux.val), e.value)

/-- A walk with room for n writes takes some entries and leaves others. -/
structure Walks (slot : Rec → Option Slot) (n : Nat) (taken left : List AuxEntry)
    (d : List (Addr × Word) × List AuxEntry × List Rec) : Prop where
  writes : d.1 = taken.filterMap (auxWrite slot)
  rest : d.2.1 = left
  dark : d.2.2 = (taken.filter fun e => (slot e.record).isNone).map AuxEntry.record
  room : d.1.length ≤ n
  full : left ≠ [] → d.1.length = n
  lastHeld : d.1.length = n → ∀ e, taken.getLast? = some e → slot e.record ≠ none

theorem Walks.held {slot : Rec → Option Slot} {n : Nat} {taken rest : List AuxEntry} {e : AuxEntry} {i : Slot}
    {d : List (Addr × Word) × List AuxEntry × List Rec} (h : Walks slot n taken rest d) (hi : slot e.record = some i) :
    Walks slot (n + 1) (e :: taken) rest ((physicalCommandAddr i (5 + e.aux.val), e.value) :: d.1, d.2.1, d.2.2) := by
  have write : auxWrite slot e = some (physicalCommandAddr i (5 + e.aux.val), e.value) := by rw [auxWrite, hi]; rfl
  refine ⟨?_, h.rest, ?_, Nat.succ_le_succ h.room, fun hl => congrArg Nat.succ (h.full hl), fun hn x hx => ?_⟩
  · rw [List.filterMap_cons_some write, ← h.writes]
  · simpa [hi] using h.dark
  · cases taken with
    | nil =>
      obtain rfl : e = x := by simpa using hx
      simp [hi]
    | cons y ys => exact h.lastHeld (Nat.succ.inj hn) x (by rwa [List.getLast?_cons_cons] at hx)

theorem Walks.discarded {slot : Rec → Option Slot} {n : Nat} {taken rest : List AuxEntry} {e : AuxEntry}
    {d : List (Addr × Word) × List AuxEntry × List Rec} (h : Walks slot (n + 1) taken rest d) (hi : slot e.record = none) :
    Walks slot (n + 1) (e :: taken) rest (d.1, d.2.1, e.record :: d.2.2) := by
  have write : auxWrite slot e = none := by rw [auxWrite, hi]; rfl
  refine ⟨?_, h.rest, ?_, h.room, h.full, fun hn x hx => ?_⟩
  · rw [List.filterMap_cons_none write, ← h.writes]
  · simpa [hi] using h.dark
  · cases taken with
    | nil =>
      have none : d.1 = [] := h.writes
      simp [none] at hn
    | cons y ys => exact h.lastHeld hn x (by rwa [List.getLast?_cons_cons] at hx)

/-- Entries leave from the head, until eight writes are made or none is left. -/
theorem drainAux_walks (slot : Rec → Option Slot) (l : List AuxEntry) (n : Nat) :
    ∃ taken left, l = taken ++ left ∧ Walks slot n taken left (drainAux slot l n) := by
  induction l generalizing n with
  | nil => exact ⟨[], [], rfl, rfl, rfl, rfl, Nat.zero_le n, fun h => absurd rfl h, by simp⟩
  | cons e es ih =>
    cases n with
    | zero => exact ⟨[], e :: es, rfl, rfl, rfl, rfl, Nat.le_refl 0, fun _ => rfl, by simp⟩
    | succ n =>
      cases hi : slot e.record with
      | some i =>
        obtain ⟨taken, left, rfl, walks⟩ := ih n
        exact ⟨e :: taken, left, rfl, by simpa only [drainAux, hi] using walks.held hi⟩
      | none =>
        obtain ⟨taken, left, rfl, walks⟩ := ih (n + 1)
        exact ⟨e :: taken, left, rfl, by simpa only [drainAux, hi] using walks.discarded hi⟩

/-! ## The state a drain leaves -/

theorem foldl_logDiscarded (rs : List Rec) (s : State) :
    rs.foldl (fun t r => logDiscarded r t) s = handAll .map (rs.map fun r => (8, noSlot, word r.val)) s := by
  rw [handAll, List.foldl_map]
  rfl

theorem foldl_logRecord_dark (es : List AuxEntry) (s : State) :
    es.foldl (fun x e => logRecord .map 8 noSlot (word e.record.val) x) s
      = handAll .map ((es.map AuxEntry.record).map fun r => (8, noSlot, word r.val)) s := by
  rw [handAll, List.foldl_map, List.foldl_map]

theorem drain_eq (s : State) : (drain s).2 = handAll .map
    ((drainAux (slotOfRecord s) s.rfs.aux Config.burstLength).2.2.map fun r => (8, noSlot, word r.val))
    (s.onRfs fun f => { f with aux := (drainAux (slotOfRecord s) s.rfs.aux Config.burstLength).2.1 }) := foldl_logDiscarded ..

theorem drain_records (s : State) : Records
    (s.onRfs fun f => { f with aux := (drainAux (slotOfRecord s) s.rfs.aux Config.burstLength).2.1 }) (drain s).2 := by
  rw [drain_eq]
  exact records_handAll ..

theorem drain_jobsTwo (s : State) : (drain s).2.wen.jobs2 = s.wen.jobs2 := by rw [drain_eq, handAll_jobsTwo]; rfl

/-- What a drain takes, and what it leaves. -/
theorem drain_walks (s : State) : ∃ taken left, s.rfs.aux = taken ++ left ∧ (drain s).2.rfs.aux = left
    ∧ Walks (slotOfRecord s) 8 taken left ((drain s).1, (drainAux (slotOfRecord s) s.rfs.aux Config.burstLength).2) := by
  obtain ⟨taken, left, list, walks⟩ := drainAux_walks (slotOfRecord s) s.rfs.aux Config.burstLength
  refine ⟨taken, left, list, ?_, walks⟩
  obtain ⟨_, _, _, _, _, _, _, _, _, rfs, _⟩ := (drain_records s).fields
  rw [← walks.rest, rfs]
  rfl

theorem drains_from_head (s : State) : ∃ taken left, s.rfs.aux = taken ++ left ∧ (drain s).2.rfs.aux = left
    ∧ (drain s).1 = taken.filterMap (fun e => (slotOfRecord s e.record).map fun i =>
        (physicalCommandAddr i (5 + e.aux.val), e.value))
    ∧ (drain s).1.length ≤ 8 ∧ (left ≠ [] → (drain s).1.length = 8)
    ∧ ((drain s).1.length = 8 → ∀ e, taken.getLast? = some e → slotOfRecord s e.record ≠ none)
    ∧ (drain s).2 = { s with rfs := { s.rfs with aux := left }, wen := (drain s).2.wen, log := (drain s).2.log }
    ∧ ∀ w, w = ((taken.filter fun e => (slotOfRecord s e.record).isNone).foldl
          (fun x e => logRecord .map 8 noSlot (word e.record.val) x) s) →
        (drain s).2.wen = w.wen ∧ (drain s).2.log = w.log := by
  obtain ⟨taken, left, list, aux, walks⟩ := drain_walks s
  refine ⟨taken, left, list, aux, walks.writes, walks.room, walks.full, walks.lastHeld, ?_, ?_⟩
  · have rest := (drain_records s).rest
    have head : (drainAux (slotOfRecord s) s.rfs.aux Config.burstLength).2.1 = left := walks.rest
    rw [head] at rest
    exact rest
  · rintro w rfl
    have dark : (drainAux (slotOfRecord s) s.rfs.aux Config.burstLength).2.2
        = (taken.filter fun e => (slotOfRecord s e.record).isNone).map AuxEntry.record := walks.dark
    rw [foldl_logRecord_dark, drain_eq, dark]
    obtain ⟨log, wen⟩ := handAll_congr (t := s) (s := s.onRfs fun f =>
      { f with aux := (drainAux (slotOfRecord s) s.rfs.aux Config.burstLength).2.1 }) rfl rfl rfl rfl .map
      (((taken.filter fun e => (slotOfRecord s e.record).isNone).map AuxEntry.record).map fun r => (8, noSlot, word r.val))
    exact ⟨wen, log⟩

theorem drain_empties {s : State} (h : (drain s).1 = []) : (drain s).2.rfs.aux = [] := by
  obtain ⟨taken, left, _, aux, walks⟩ := drain_walks s
  rw [aux]
  by_contra hl
  have := walks.full hl
  simp [h] at this

/-! ## A fill in stage AUXILIARY -/

theorem drain_releaseStaged (s : State) : releaseStaged (drain s).2 = releaseStaged s := by
  have x : (drain s).2.wen.x = s.wen.x := drain_buffer s .x
  have y : (drain s).2.wen.y = s.wen.y := drain_buffer s .y
  rw [releaseStaged, releaseStaged, x, y]

theorem stageAuxiliary_writes {b : BufferId} {s : State} (h : (drain s).1 ≠ []) :
    stageAuxiliary b s = (drain s).2.onWen fun w => w.ready b ⟨.release, (drain s).1, none, false⟩ := if_neg h

theorem stageAuxiliary_waits {b : BufferId} {s : State} (h : (drain s).1 = []) (hr : releaseStaged s = true) :
    stageAuxiliary b s = (drain s).2.onRfs fun f => { f with stage := some (.auxiliary true) } := by
  rw [stageAuxiliary]
  exact (if_pos h).trans (if_pos ((drain_releaseStaged s).trans hr))

/-- A fill that has just begun stage GATES: the head job of class 2, if it has one. -/
def fillGates (b : BufferId) (s : State) : State :=
  match headOpen (some .gates) s.wen.jobs2 with
  | some j => stageJob b .two j s
  | none => s

/-- With nothing to write and nothing to wait for, stage GATES begins within the fill. -/
theorem stageAuxiliary_gates {b : BufferId} {s : State} {w : Bool} (h : (drain s).1 = []) (hr : releaseStaged s = false)
    (hs : s.rfs.stage = some (.auxiliary w)) : stageAuxiliary b s = fillGates b (startGates (drain s).2) := by
  have advance : releaseAdvance (drain s).2 = startGates (drain s).2 :=
    releaseAdvance_ends ⟨w, by simpa using hs⟩ ((drain_releaseStaged s).trans hr) (drain_empties h)
  have staged : ¬releaseStaged (drain s).2 = true := by rw [drain_releaseStaged, hr]; decide
  rw [stageAuxiliary]
  refine (if_pos h).trans ((if_neg staged).trans ?_)
  dsimp only
  rw [advance, startGates_stage, fillGates]
  cases headOpen (some .gates) (startGates (drain s).2).wen.jobs2 with
  | none => rfl
  | some j => exact if_pos rfl

theorem fillGates_stage {b : BufferId} {s : State} (h : s.rfs.stage = some .gates) : (fillGates b s).rfs.stage = some .gates := by
  unfold fillGates
  split
  · rw [stageJob_moves_stage, h]; simp
  · exact h

theorem fillGates_done (b : BufferId) (s : State) : (fillGates b s).wen.done = s.wen.done := by
  unfold fillGates
  split
  · rw [stageJob_engine, Wen.ready_done, Wen.setJobs_done]
  · rfl

theorem startGates_removed {s : State} (h : activeSlots s.mpl.slots = []) {before after : List Job} {j : Job}
    (hs : s.wen.jobs2 = before ++ j :: after) (hb : ∀ i ∈ before, i.kind ≠ .release) (hj : j.kind = .release) :
    (startGates s).wen.jobs2 = before ++ after := by
  have gates := gateWrites_nil.2 h
  have set := Wen.setTodo_first (ws := gateWrites s) (after := after) hb hj
  have erased : (startGates s).wen.jobs2 = (Wen.setTodo (gateWrites s) s.wen.jobs2).eraseP (·.kind == .release) :=
    (congrArg Wen.jobs2 (if_pos gates)).trans (Wen.complete_jobs _ .release)
  rw [erased, hs, set, List.eraseP_append_right _ fun i hi => by simpa using hb i hi, List.eraseP_cons_of_pos (by simpa using hj)]

end Sys2Proof.Machine
end

