-- ==== Sys2Proof/Proofs/FirstGates.lean ====
section
/-! What a fill in stage AUXILIARY leaves: drained writes, a wait, or the first gates (R151, R152). -/

namespace Sys2Proof.Machine

/-! ## The first gates -/

theorem formWrites_eq_map {ws : List JobWrite} (h : ∀ w ∈ ws, ∀ r, w.source ≠ .refAmplitude r) (s : State) :
    (formWrites ws s).2 = ws.map fun w => (w.addr, (formValue w.source s).2) := by
  induction ws with
  | nil => rfl
  | cons w ws ih =>
    have unmoved := formValue_unmoved (h w List.mem_cons_self) s
    simp only [formWrites, unmoved, List.map_cons, ih fun v hv => h v (List.mem_cons_of_mem _ hv)]

theorem gateWrites_source {s : State} {w : JobWrite} (h : w ∈ gateWrites s) : ∃ i, w.source = .gateIntent i := by
  obtain ⟨i, _, rfl⟩ := List.mem_map.1 h
  exact ⟨i, rfl⟩

theorem formValue_gateIntent_congr {s t : State} (hm : t.mpl.slots = s.mpl.slots) (hi : t.rfs.image = s.rfs.image) (i : Slot) :
    (formValue (.gateIntent i) t).2 = (formValue (.gateIntent i) s).2 := by
  simp [formValue, recordOfSlot, hm, hi]

/-- The values of a burst of gates. -/
theorem formWrites_gates {s t u : State} (hm : u.mpl.slots = s.mpl.slots) (hi : u.rfs.image = s.rfs.image)
    (ht : t.mpl.slots = s.mpl.slots) (n : Nat) : (formWrites ((gateWrites t).take n) u).2
      = ((activeSlots s.mpl.slots).take n).map fun i => (physicalCommandAddr i 0, (formValue (.gateIntent i) s).2) := by
  rw [formWrites_eq_map, gateWrites, ht, ← List.map_take, List.map_map]
  · exact List.map_congr_left fun i _ => congrArg (Prod.mk _) (formValue_gateIntent_congr hm hi i)
  · intro w hw r e
    obtain ⟨i, hi⟩ := gateWrites_source (List.mem_of_mem_take hw)
    simp [hi] at e

theorem fillGates_none {b : BufferId} {s : State} (h : NoHead (some .gates) s.wen.jobs2) : fillGates b s = s := by
  rw [fillGates, headOpen_eq_none.2 h]

theorem fillGates_some {b : BufferId} {s : State} {j : Job} (h : IsHead (some .gates) s.wen.jobs2 j) :
    fillGates b s = stageJob b .two j s := by
  rw [fillGates, headOpen_eq_some.2 h]

/-- Stage GATES with no ACTIVE slot (R152). -/
theorem fillGates_empty {b : BufferId} {s : State} (h : activeSlots s.mpl.slots = []) {before after : List Job} {j : Job}
    (hs : s.wen.jobs2 = before ++ j :: after) (hb : ∀ i ∈ before, i.todo = [] ∧ i.kind ≠ .release) (hj : j.kind = .release) :
    JobKind.release ∈ (fillGates b (startGates s)).wen.done
      ∧ (NoHead (some .gates) after → fillGates b (startGates s) = startGates s ∧ (startGates s).wen.jobs2 = before ++ after) := by
  refine ⟨by rw [fillGates_done]; exact startGates_done h, fun ha => ?_⟩
  have list := startGates_removed h hs (fun i hi => (hb i hi).2) hj
  refine ⟨fillGates_none fun i hi => ?_, list⟩
  rw [list, List.mem_append] at hi
  exact hi.elim (fun hi => ⟨(hb i hi).1, fun _ => .inr rfl⟩) (ha i)

/-- Stage GATES with ACTIVE slots: the first gates fill the buffer (R152). -/
theorem fillGates_staged {b : BufferId} {s : State} (h : activeSlots s.mpl.slots ≠ []) {before after : List Job} {j : Job}
    (hs : s.wen.jobs2 = before ++ j :: after) (hb : ∀ i ∈ before, i.todo = [] ∧ i.kind ≠ .release) (hj : j.kind = .release) :
    ∃ x, (fillGates b (startGates s)).wen.buffer b = .ready x ∧ x.kind = .release
      ∧ x.writes = ((activeSlots s.mpl.slots).take 8).map (fun i => (physicalCommandAddr i 0, (formValue (.gateIntent i) s).2))
      ∧ (x.last = true ↔ (activeSlots s.mpl.slots).length ≤ 8)
      ∧ (fillGates b (startGates s)).wen.jobs2 = before
          ++ { j with todo := ((activeSlots s.mpl.slots).drop 8).map fun i => ⟨physicalCommandAddr i 0, .gateIntent i⟩ } :: after := by
  have list := startGates_jobsTwo h hs (fun i hi => (hb i hi).2) hj
  have gates : gateWrites s ≠ [] := fun e => h (gateWrites_nil.1 e)
  have closed : ∀ i ∈ before, i.isOpen (some .gates) = false := fun i hi =>
    Job.isOpen_eq_false.2 ⟨(hb i hi).1, fun _ => .inr rfl⟩
  have opened : (Job.mk .release (gateWrites s) j.begun).isOpen (some .gates) = true := Job.isOpen_iff.2 (.inl gates)
  have head : IsHead (some .gates) (startGates s).wen.jobs2 ⟨.release, gateWrites s, j.begun⟩ :=
    ⟨before, after, list, fun i hi => Job.isOpen_eq_false.1 (closed i hi), .inl gates⟩
  have engine := stageJob_engine b .two ⟨.release, gateWrites s, j.begun⟩ (startGates s)
  have replaced := replaceOpen_head (after := after)
    (j' := ⟨.release, (gateWrites s).drop Config.burstLength, j.begun⟩) closed opened
  rw [startGates_stage, Wen.jobs, list, replaced] at engine
  rw [fillGates_some head, engine]
  refine ⟨burstOf ⟨.release, gateWrites s, j.begun⟩ (startGates s), by rw [Wen.ready_buffer, if_pos rfl], rfl,
    formWrites_gates (by simp) (by simp) rfl 8, ?_, ?_⟩
  · rw [burstOf_last]
    simp [startGates_stage, gateWrites]
  · refine (Wen.ready_jobs _ b _ .two).trans ((Wen.setJobs_jobs _ .two .two _).trans ((if_pos rfl).trans ?_))
    rw [gateWrites, ← List.map_drop, ← hj]
    rfl

/-! ## The fill -/

theorem startGates_buffer (s : State) (b : BufferId) : (startGates s).wen.buffer b = s.wen.buffer b := by
  simp only [startGates, State.onWen_wen]
  split
  · rw [Wen.complete_buffer]; cases b <;> rfl
  · cases b <;> rfl

theorem drain_cells (s : State) : (drain s).2.mpl = s.mpl ∧ (drain s).2.rfs.image = s.rfs.image := by simp

theorem stageAuxiliary_drained {b : BufferId} {s : State} (h : (drain s).1 ≠ []) :
    (stageAuxiliary b s).wen.buffer b = .ready ⟨.release, (drain s).1, none, false⟩
      ∧ (stageAuxiliary b s).rfs = (drain s).2.rfs ∧ KeepsAllBut [.wen] (drain s).2 (stageAuxiliary b s)
      ∧ (∀ c, (stageAuxiliary b s).wen.jobs c = (drain s).2.wen.jobs c)
      ∧ (stageAuxiliary b s).wen.done = (drain s).2.wen.done
      ∧ (stageAuxiliary b s).wen.buffer b.other = s.wen.buffer b.other := by
  have other : b.other ≠ b := by cases b <;> decide
  rw [stageAuxiliary_writes h]
  refine ⟨by simp, rfl, ?_, fun c => Wen.ready_jobs .., Wen.ready_done .., by simp [other]⟩
  intro f hf; cases f <;> simp_all [Field.same]

theorem drainsTheList : DrainsTheList := by
  refine ⟨fun s writes t h => ?_, fun b s writes t u h hu he => ?_⟩
  all_goals obtain ⟨rfl, rfl⟩ : writes = (drain s).1 ∧ t = (drain s).2 := by rw [h]; exact ⟨rfl, rfl⟩
  · exact drains_from_head s
  · subst hu
    refine ⟨stageAuxiliary_drained, stageAuxiliary_waits, fun w before j after hw hr hs hl hb hj => ?_⟩
    obtain ⟨mpl, image⟩ := drain_cells s
    have list := (drain_jobsTwo s).trans hl
    rw [stageAuxiliary_gates hw hr hs]
    refine ⟨fillGates_stage rfl, fun ha => ?_, fun ha => ?_⟩
    · obtain ⟨done, rest⟩ := fillGates_empty (b := b) (s := (drain s).2) (by rw [mpl]; exact ha) list hb hj
      refine ⟨done, fun hn => ?_⟩
      obtain ⟨same, left⟩ := rest hn
      have buffer : (startGates (drain s).2).wen.buffer b = (drain s).2.wen.buffer b := startGates_buffer ..
      rw [same, buffer, drain_buffer]
      exact ⟨he, left⟩
    · have staged := fillGates_staged (b := b) (s := (drain s).2) (by rw [mpl]; exact ha) list hb hj
      simp only [mpl, formValue_gateIntent_congr (congrArg Mpl.slots mpl) image] at staged
      exact staged

end Sys2Proof.Machine
end

