-- ==== Sys2Proof/Proofs/GrantOrder.lean ====
section
/-! The grant: the order of a boundary with the fairness rule, what a grant starts, and the recheck of translated writes
(R27 to R29, R33, R46). -/

namespace Sys2Proof.Machine

/-! ## The READY buffer of a class (R33) -/

theorem Buffer.readyClass_iff {v : Buffer} {c : JobClass} : v.readyClass = some c ↔ ∃ z, v = .ready z ∧ z.kind.cls = c := by
  cases v <;> simp [Buffer.readyClass]

theorem Wen.readyOf_eq (w : Wen) (c : JobClass) : w.readyOf c =
    if w.x.readyClass = some c then (if w.y.readyClass = some c then some (if w.xOlder then .x else .y) else some .x)
    else if w.y.readyClass = some c then some .y else none := by
  by_cases hx : w.x.readyClass = some c <;> by_cases hy : w.y.readyClass = some c <;> cases h : w.xOlder <;>
    simp [Wen.readyOf, Wen.buffer, h, hx, hy, beq_eq_false_iff_ne.2]

theorem readyInOrder : ReadyInOrder := by
  intro w c x y
  have holds : ∀ {v : Buffer} {z : Burst}, v = .ready z → z.kind.cls = c → v.readyClass = some c := fun hv hz =>
    Buffer.readyClass_iff.2 ⟨_, hv, hz⟩
  have lacks : ∀ {v : Buffer}, (∀ z, v = .ready z → z.kind.cls ≠ c) → v.readyClass ≠ some c := fun h e => by
    obtain ⟨z, hv, hz⟩ := Buffer.readyClass_iff.1 e
    exact h z hv hz
  refine ⟨fun hx hc hy => ?_, fun hy hc hx => ?_, fun hx hy hc hc' => ?_, fun h => ?_⟩
  · rw [Wen.readyOf_eq, if_pos (holds hx hc), if_neg (lacks hy)]
  · rw [Wen.readyOf_eq, if_neg (lacks hx), if_pos (holds hy hc)]
  · rw [Wen.readyOf_eq, if_pos (holds hx hc), if_pos (holds hy hc')]
  · rw [Wen.readyOf_eq, if_neg (lacks (v := w.x) (h .x)), if_neg (lacks (v := w.y) (h .y))]

theorem lowerReady_iff {s : State} : lowerReady s = true ↔ (s.wen.readyOf .two).isSome ∨ (s.wen.readyOf .three).isSome := by
  simp [lowerReady]

theorem wenFair_of_ready {s : State} {b : BufferId} {w : Burst} (h : s.wen.buffer b = .ready w) :
    wenFair b s = if w.kind.cls = .one then s.mpa.fair else 0 := by
  simp only [wenFair, h, Buffer.readyClass]
  cases w.kind.cls <;> rfl

theorem wenFair_of_class {s : State} {b : BufferId} {c : JobClass} (h : s.wen.readyOf c = some b) :
    wenFair b s = if c = .one then s.mpa.fair else 0 := by
  obtain ⟨w, hw, hc⟩ := readyOf_some h
  rw [wenFair_of_ready hw, hc]

/-! ## The choice of a boundary (R28, R29, R31) -/

theorem bpuRequest_cons {s : State} {need : Need} {rest : List Need} (h : s.bpu.needs = need :: rest) :
    bpuRequest s = some .bpu := by
  simp [bpuRequest, h]

theorem bpuRequest_nil {s : State} (h : s.bpu.needs = []) : bpuRequest s = none := by simp [bpuRequest, h]

theorem wenRequest_some {s : State} {c : JobClass} {b : BufferId} (h : s.wen.readyOf c = some b) :
    wenRequest s c = some (.wen b) := by
  simp [wenRequest, h]

theorem wenRequest_none {s : State} {c : JobClass} (h : s.wen.readyOf c = none) : wenRequest s c = none := by
  simp [wenRequest, h]

theorem choose_low {s : State} (hr : s.pins.resetN = false) : choose s = bpuRequest s := by simp [choose, hr]

theorem choose_one {s : State} {b : BufferId} (hr : s.pins.resetN = true) (h : s.wen.readyOf .one = some b) :
    choose s = some (.wen b) := by
  simp [choose, hr, wenRequest_some h]

theorem choose_read {s : State} {h : Holder} (hr : s.pins.resetN = true) (h1 : s.wen.readyOf .one = none)
    (hp : readInProgress s = some h) : choose s = some h := by
  simp [choose, hr, wenRequest_none h1, hp]

/-- With class 1 and the reads silent, the BPU stands ahead of the lower classes unless its count stands at 8 with a lower
buffer READY (R29). -/
theorem choose_shared {s : State} (hr : s.pins.resetN = true) (h1 : s.wen.readyOf .one = none) (hp : readInProgress s = none) :
    choose s = if s.mpa.fair = 8 ∧ lowerReady s = true then wenRequest s .two <|> wenRequest s .three <|> bpuRequest s
      else bpuRequest s <|> wenRequest s .two <|> wenRequest s .three := by
  simp [choose, hr, wenRequest_none h1, hp, Config.fairLimit]

theorem choose_host {s : State} {need : Need} {rest : List Need} (hn : s.bpu.needs = need :: rest)
    (h : s.pins.resetN = false ∨ s.wen.readyOf .one = none ∧ readInProgress s = none
      ∧ ¬(s.mpa.fair = 8 ∧ lowerReady s = true)) : choose s = some .bpu := by
  cases hr : s.pins.resetN with
  | false => rw [choose_low hr, bpuRequest_cons hn]
  | true =>
    rcases h with h | ⟨h1, hp, hf⟩
    · simp [hr] at h
    · rw [choose_shared hr h1 hp, if_neg hf, bpuRequest_cons hn]; rfl

theorem choose_two {s : State} {b : BufferId} (hr : s.pins.resetN = true) (h1 : s.wen.readyOf .one = none)
    (hp : readInProgress s = none) (hf : s.mpa.fair = 8 ∨ s.bpu.needs = []) (h2 : s.wen.readyOf .two = some b) :
    choose s = some (.wen b) := by
  have lower : lowerReady s = true := lowerReady_iff.2 (.inl (by simp [h2]))
  rcases hf with hf | hf
  · rw [choose_shared hr h1 hp, if_pos ⟨hf, lower⟩, wenRequest_some h2]; rfl
  · rw [choose_shared hr h1 hp, bpuRequest_nil hf, wenRequest_some h2]; split <;> rfl

theorem choose_three {s : State} {b : BufferId} (hr : s.pins.resetN = true) (h1 : s.wen.readyOf .one = none)
    (hp : readInProgress s = none) (hf : s.mpa.fair = 8 ∨ s.bpu.needs = []) (h2 : s.wen.readyOf .two = none)
    (h3 : s.wen.readyOf .three = some b) : choose s = some (.wen b) := by
  have lower : lowerReady s = true := lowerReady_iff.2 (.inr (by simp [h3]))
  rcases hf with hf | hf
  · rw [choose_shared hr h1 hp, if_pos ⟨hf, lower⟩, wenRequest_none h2, wenRequest_some h3]; rfl
  · rw [choose_shared hr h1 hp, bpuRequest_nil hf, wenRequest_none h2, wenRequest_some h3]; split <;> rfl

theorem choose_nothing {s : State} (hr : s.pins.resetN = true) (h1 : s.wen.readyOf .one = none) (hp : readInProgress s = none)
    (hn : s.bpu.needs = []) (h2 : s.wen.readyOf .two = none) (h3 : s.wen.readyOf .three = none) : choose s = none := by
  rw [choose_shared hr h1 hp, bpuRequest_nil hn, wenRequest_none h2, wenRequest_none h3]
  split <;> rfl

/-! ## The grant by what was chosen -/

theorem grant_held {s : State} (h : s.mpa.holder ≠ none) : grant s = s := by
  unfold grant
  split
  · rfl
  · next e => exact absurd e h

theorem grant_eq {s : State} (h : s.mpa.holder = none) : grant s = grantLoop (s.bpu.needs.length + 1) s := by simp [grant, h]

theorem grant_none {s : State} (h : s.mpa.holder = none) (hc : choose s = none) : grant s = s := by
  simp [grant_eq h, grantLoop, hc]

theorem grant_wen {s : State} {b : BufferId} (h : s.mpa.holder = none) (hc : choose s = some (.wen b)) :
    grant s = (s.onMpa fun _ => ⟨some (.wen b), wenFair b s⟩).onWen (startBuffer b) := by
  simp [grant_eq h, grantLoop, hc]

theorem grant_read {s : State} {h : Holder} (hh : s.mpa.holder = none) (hc : choose s = some h)
    (hp : readInProgress s = some h) : grant s = { s with mpa := { s.mpa with holder := some h } } := by
  rcases readInProgress_some hp with ⟨i, rfl, _⟩ | rfl <;> simp only [grant_eq hh, grantLoop, hc] <;> rfl

theorem grant_bpu {s : State} {need : Need} {rest : List Need} (h : s.mpa.holder = none) (hc : choose s = some .bpu)
    (hn : s.bpu.needs = need :: rest) (hl : stillLive s need = true) :
    grant s = s.onMpa fun _ => ⟨some .bpu, bpuFair s⟩ := by
  simp [grant_eq h, grantLoop, hc, hn, hl]

/-- The grant of a write that is not live any more: it is stopped, and the boundary is decided afresh (R46, log 13). -/
def stopped (need : Need) (s : State) : State := stopNeed need (s.onMpa fun m => { m with fair := bpuFair s })

theorem stopped_port {need : Need} {rest : List Need} {s : State} (h : s.bpu.needs = need :: rest) :
    (stopped need s).bpu.needs = rest ∧ (stopped need s).mpa = ⟨s.mpa.holder, bpuFair s⟩ := by
  simp [stopped, h]

theorem grant_stale {s : State} {need : Need} {rest : List Need} (h : s.mpa.holder = none) (hc : choose s = some .bpu)
    (hn : s.bpu.needs = need :: rest) (hl : stillLive s need = false) : grant s = grant (stopped need s) := by
  obtain ⟨needs, mpa⟩ := stopped_port hn
  have idle : (stopped need s).mpa.holder = none := by rw [mpa]; exact h
  rw [grant_eq idle, needs, grant_eq h, hn, List.length_cons, grantLoop, hc]
  simp only [hn, hl]
  rfl

/-! ## What a grant to the Write Engine starts (R19, R33) -/

theorem markBegun_first {k : JobKind} {before after : List Job} {j : Job} (hb : ∀ i ∈ before, i.kind ≠ k) (hj : j.kind = k) :
    Job.markBegun k (before ++ j :: after) = before ++ { j with begun := true } :: after := by
  induction before with
  | nil => simp [Job.markBegun, hj]
  | cons i before ih =>
    have other : ¬(i.kind == k) = true := by simpa using hb i List.mem_cons_self
    rw [List.cons_append, Job.markBegun, if_neg other, ih fun x hx => hb x (List.mem_cons_of_mem _ hx)]
    rfl

theorem startBuffer_marks {b : BufferId} {u : Burst} {w : Wen} (h : w.buffer b = .ready u) (c : JobClass) :
    (startBuffer b w).jobs c = if c = u.kind.cls then Job.markBegun u.kind (w.jobs u.kind.cls) else w.jobs c := by
  simp only [startBuffer, h, Wen.setJobs_jobs, Wen.setBuffer_jobs]

theorem onMpa_onWen_keeps (f : Mpa → Mpa) (g : Wen → Wen) (s : State) :
    KeepsAllBut [.holder, .fair, .wen] s ((s.onMpa f).onWen g) := by
  intro f hf; cases f <;> simp_all [Field.same]

theorem grantStartsTheBuffer : GrantStartsTheBuffer := by
  rintro s b w _ hh hc hb rfl
  have other : b.other ≠ b := by cases b <;> decide
  rw [grant_wen hh hc]
  refine ⟨rfl, ?_, ?_, wenFair_of_ready hb, fun before j after hl hbefore hj => ?_, fun c hcls => ?_, onMpa_onWen_keeps _ _ _⟩
  · exact (startBuffer_buffer hb b).trans (if_pos rfl)
  · exact (startBuffer_buffer hb b.other).trans (if_neg other)
  · refine (startBuffer_marks hb w.kind.cls).trans ((if_pos rfl).trans ?_)
    rw [hl, markBegun_first hbefore hj]
  · exact (startBuffer_marks hb c).trans (if_neg hcls)

/-! ## The recheck (R46) -/

theorem bpuFair_eq (s : State) : bpuFair s = if lowerReady s then min 8 (s.mpa.fair + 1) else 0 := by
  unfold bpuFair boundedInc Config.fairLimit
  split
  · split <;> omega
  · rfl

theorem stopNeed_plain {need : Need} (h : ∀ r w a v, need = .translated r w a v → w.val < 5) (s : State) :
    stopNeed need s = s.onBpu fun b => { b with needs := b.needs.drop 1 } := by
  cases need with
  | translated r w a v => exact if_neg (Nat.not_le.2 (h r w a v rfl))
  | _ => rfl

theorem stopNeed_auxWord (r : Rec) (i : Fin 3) (a : Addr) (v : Word) (s : State) :
    stopNeed (.translated r ⟨5 + i.val, Nat.add_lt_add_left i.isLt 5⟩ a v) s
      = holdAux r i v (s.onBpu fun b => { b with needs := b.needs.drop 1 }) := by
  have index : Fin.ofNat 3 (5 + i.val - 5) = i := by
    rw [Nat.add_sub_cancel_left]
    exact Fin.ext (Nat.mod_eq_of_lt i.isLt)
  refine (if_pos (Nat.le_add_right 5 i.val)).trans ?_
  rw [index]

theorem stopped_keeps {need : Need} (h : ∀ r w a v, need = .translated r w a v → w.val < 5) (s : State) :
    KeepsAllBut [.needs, .fair] s (stopped need s) := by
  rw [stopped, stopNeed_plain h]
  intro f hf; cases f <;> simp_all [Field.same]

end Sys2Proof.Machine
end

