-- ==== Sys2Proof/Proofs/PortWork.lean ====
section
/-! The port at the end of a command (R27 to R34, R46, R150 to R152): the parts together. -/

namespace Sys2Proof.Machine

/-! ## A stopped aux word (R46) -/

/-- The head need leaves, with the count of its grant. -/
def needTaken (s : State) : State :=
  (s.onMpa fun m => { m with fair := bpuFair s }).onBpu fun b => { b with needs := b.needs.drop 1 }

theorem needTaken_keeps (s : State) : KeepsAllBut [.needs, .fair] s (needTaken s) := by
  intro f hf; cases f <;> simp_all [Field.same, needTaken]

theorem needTaken_frame (s : State) : (needTaken s).rfs = s.rfs ∧ (needTaken s).bpu.isOpen = s.bpu.isOpen
    ∧ (needTaken s).bpu.counts = s.bpu.counts := ⟨rfl, rfl, rfl⟩

theorem stopped_auxWord {r : Rec} {i : Fin 3} {h : 5 + i.val < 8} (a : Addr) (v : Word) (s : State) :
    stopped (.translated r ⟨5 + i.val, h⟩ a v) s = holdAux r i v (needTaken s) := stopNeed_auxWord r i a v _

theorem holdAux_room_keeps {s : State} (h : s.rfs.aux.length < 32) (r : Rec) (i : Fin 3) (v : Word) :
    KeepsAllBut [.aux] s (holdAux r i v s) := by
  rw [holdAux, if_pos (show s.rfs.aux.length < Config.auxCapacity from h)]
  intro f hf; cases f <;> simp_all [Field.same]

theorem holdAux_refused {s : State} (h : 32 ≤ s.rfs.aux.length) (r : Rec) (i : Fin 3) (v : Word) :
    holdAux r i v s = countRefusal .addAuxFull s :=
  if_neg (show ¬s.rfs.aux.length < Config.auxCapacity from Nat.not_lt.2 h)

theorem countRefusal_counts (f : RefusalCounts → RefusalCounts) (s : State) :
    (countRefusal f s).bpu.counts = if s.bpu.isOpen then f s.bpu.counts else s.bpu.counts := by
  cases h : s.bpu.isOpen <;> simp [countRefusal, h]

theorem stopped_aux {s : State} {r : Rec} {i : Fin 3} {h : 5 + i.val < 8} {a : Addr} {v : Word} {t : State}
    (ht : t = stopped (.translated r ⟨5 + i.val, h⟩ a v) s) :
    (s.rfs.aux.length < 32 → t.rfs.aux = s.rfs.aux ++ [⟨r, i, v⟩] ∧ KeepsAllBut [.needs, .fair, .aux] s t)
      ∧ (32 ≤ s.rfs.aux.length →
          t.bpu.counts = (if s.bpu.isOpen then
            { s.bpu.counts with auxFull := satInc s.bpu.counts.auxFull } else s.bpu.counts)
            ∧ KeepsAllBut [.needs, .counts, .fair] s t) := by
  subst ht
  have taken := needTaken_keeps s
  obtain ⟨rfs, isOpen, counts⟩ := needTaken_frame s
  rw [stopped_auxWord, ← rfs, ← isOpen, ← counts]
  refine ⟨fun hl => ⟨(holdAux_room hl r i v).1, ?_⟩, fun hl => ?_⟩
  · exact taken.trans (holdAux_room_keeps hl r i v) (by simp) (by simp)
  · rw [holdAux_refused hl]
    exact ⟨countRefusal_counts _ _, taken.trans (countRefusal_keeps _ _) (by simp) (by simp)⟩

theorem recheckStopsTheStale : RecheckStopsTheStale := by
  refine ⟨fun _ _ _ _ _ _ _ _ _ _ _ _ _ => ⟨rfl, rfl, rfl, rfl, rfl⟩, fun s need rest hh hn hl hc => ?_, bpuFair_eq⟩
  have chosen : choose s = some .bpu := choose_host hn (hc.imp_right fun ⟨h1, hp, hf⟩ =>
    ⟨h1, hp, fun ⟨full, lower⟩ => by rcases hf with hf | hf <;> simp_all⟩)
  obtain ⟨needs, mpa⟩ := stopped_port hn
  refine ⟨stopped need s, grant_stale hh chosen hn hl, needs, by rw [mpa, hh], by rw [mpa], fun h => stopped_keeps h s, ?_⟩
  rintro r i a v rfl
  exact stopped_aux rfl

/-! ## The order of a boundary (R28, R29, R31) -/

theorem grant_wen_mpa {s : State} {b : BufferId} {c : JobClass} (hh : s.mpa.holder = none) (hc : choose s = some (.wen b))
    (hb : s.wen.readyOf c = some b) :
    (grant s).mpa.holder = some (.wen b) ∧ (grant s).mpa.fair = if c = .one then s.mpa.fair else 0 := by
  rw [grant_wen hh hc, ← wenFair_of_class hb]
  exact ⟨rfl, rfl⟩

theorem grantsWithoutHostNeed : GrantsWithoutHostNeed := by
  intro s hh hr hn
  refine ⟨fun b hb => (grant_wen_mpa hh (choose_one hr hb) hb).1, fun h1 => ⟨fun h hp => grant_read hh (choose_read hr h1 hp) hp,
    fun hp => ⟨fun b hb => ?_, fun h2 => ⟨fun b hb => ?_, fun h3 => grant_none hh (choose_nothing hr h1 hp hn h2 h3)⟩⟩⟩⟩
  · exact grant_wen_mpa hh (choose_two hr h1 hp (.inr hn) hb) hb
  · exact grant_wen_mpa hh (choose_three hr h1 hp (.inr hn) h2 hb) hb

theorem grant_order {s : State} {need : Need} {rest : List Need} (hh : s.mpa.holder = none) (hr : s.pins.resetN = true)
    (hn : s.bpu.needs = need :: rest) (hl : stillLive s need = true) :
    (∀ b, s.wen.readyOf .one = some b → (grant s).mpa.holder = some (.wen b) ∧ (grant s).mpa.fair = s.mpa.fair)
      ∧ (s.wen.readyOf .one = none →
          (∀ h, readInProgress s = some h → (grant s).mpa.holder = some h ∧ (grant s).mpa.fair = s.mpa.fair)
            ∧ (readInProgress s = none →
                (lowerReady s = false → (grant s).mpa.holder = some .bpu ∧ (grant s).mpa.fair = 0)
                  ∧ (lowerReady s = true → s.mpa.fair < 8 →
                      (grant s).mpa.holder = some .bpu ∧ (grant s).mpa.fair = s.mpa.fair + 1)
                  ∧ (s.mpa.fair = 8 → ∀ b, s.wen.readyOf .two = some b →
                      (grant s).mpa.holder = some (.wen b) ∧ (grant s).mpa.fair = 0)
                  ∧ (s.mpa.fair = 8 → s.wen.readyOf .two = none → ∀ b, s.wen.readyOf .three = some b →
                      (grant s).mpa.holder = some (.wen b) ∧ (grant s).mpa.fair = 0))) := by
  refine ⟨fun b hb => grant_wen_mpa hh (choose_one hr hb) hb, fun h1 => ⟨fun h hp => ?_, fun hp => ⟨fun hlow => ?_, fun hlow hf => ?_,
    fun hf b hb => ?_, fun hf h2 b hb => ?_⟩⟩⟩
  · rw [grant_read hh (choose_read hr h1 hp) hp]
    exact ⟨rfl, rfl⟩
  · rw [grant_bpu hh (choose_host hn (.inr ⟨h1, hp, fun h => by simp [hlow] at h⟩)) hn hl]
    exact ⟨rfl, by simp [bpuFair_eq, hlow]⟩
  · rw [grant_bpu hh (choose_host hn (.inr ⟨h1, hp, fun h => Nat.ne_of_lt hf h.1⟩)) hn hl]
    refine ⟨rfl, ?_⟩
    simp only [State.onMpa_mpa, bpuFair_eq, hlow, if_true]
    exact Nat.min_eq_right hf
  · exact grant_wen_mpa hh (choose_two hr h1 hp (.inl hf) hb) hb
  · exact grant_wen_mpa hh (choose_three hr h1 hp (.inl hf) h2 hb) hb

theorem grant_low {s : State} (hh : s.mpa.holder = none) (hr : s.pins.resetN = false) :
    (s.bpu.needs = [] → grant s = s)
      ∧ ∀ need rest, s.bpu.needs = need :: rest → stillLive s need = true → (grant s).mpa.holder = some .bpu := by
  refine ⟨fun hn => grant_none hh ((choose_low hr).trans (bpuRequest_nil hn)), fun need rest hn hl => ?_⟩
  rw [grant_bpu hh (choose_host hn (.inl hr)) hn hl]
  rfl

/-! ## The settling (log 7) -/

theorem settle_keeps (s : State) : KeepsAllBut portFields s (settle s) := by
  intro f hf; cases f <;> simp_all [Field.same, portFields]

theorem fill_full {s : State} (hx : s.wen.x ≠ .empty) (hy : s.wen.y ≠ .empty) : fill s = s := by
  rw [fill, fillBuffer_full (b := .x) hx, fillBuffer_full (b := .y) hy]

theorem settle_idle {s : State} (hh : s.mpa.holder ≠ none) (hx : s.wen.x ≠ .empty) (hy : s.wen.y ≠ .empty) : settle s = s := by
  rw [settle, fill_full hx hy, grant_held hh, fill_full hx hy]

/-- Settles O3: the settling and the order of a grant, then part by part what the fills, the drain, the grant and the recheck do. -/
theorem portWorkKeepsItsOrder : Obligations.PortWorkKeepsItsOrder :=
  ⟨⟨settle_keeps, fun _ => settle_idle⟩, fun _ _ _ => grant_order, fun _ => grant_low,
    fun _ => ⟨rfl, rfl, grant_held⟩, fillsInOrder, stagesABurst, formsValues, drainsTheList, readyInOrder,
    grantStartsTheBuffer, recheckStopsTheStale, grantsWithoutHostNeed⟩

end Sys2Proof.Machine
end
